-- ==== Sys2Proof/Word.lean ====
section
/-! DEFINITION. The word types of the JH416 and the plainest operations on fixed tables. -/

namespace Sys2Proof

/-- A byte, as frames, swaths and the art memory hold it. -/
abbrev Byte := BitVec 8

/-- A 16-bit word: a notice mask, the frame check register. -/
abbrev Half := BitVec 16

/-- A 32-bit word: time base, serial, sequence, order number, CRC. -/
abbrev Word := BitVec 32

/-- A fixed table with entry `i` replaced. -/
def upd {α : Type} {n : Nat} (v : Vector α n) (i : Fin n) (x : α) : Vector α n :=
  v.set i.val x i.isLt

/-- A fixed table with `f` applied to every entry. -/
def vmap {α β : Type} {n : Nat} (f : α → β) (v : Vector α n) : Vector β n :=
  ⟨⟨v.toList.map f⟩, by simp⟩

/-- `ceil (a / b)`. -/
def ceilDiv (a b : Nat) : Nat := (a + b - 1) / b

/-- A sum held at a limit ("saturating at N"). -/
def satAdd (limit a b : Nat) : Nat := min limit (a + b)

end Sys2Proof
end

