-- ==== Sys2Proof/Syntax.lean ====
section
/-! DEFINITION. The commands of the JH416: one constructor of `Instr` per row of
spec/opcode_table.json, and the data their operands are made of. A number a frame carries stands as the
number sent (`Nat`, or `Int` where R179 signs it), in range or not: the owning block judges it. -/

namespace Sys2Proof

/-- The four station links, L0 to L3, by role (R168). -/
inductive Link where
  | order | operator | head | cure
  deriving DecidableEq, Repr

/-- Where a request comes from: the link and the master's tag (R167). -/
structure Via where
  link : Link
  tag : Nat
  deriving DecidableEq, Repr

/-- A blank code: style (16 bits), colour and size (8 bits each). -/
structure BlankCode where
  style : Nat
  colour : Nat
  size : Nat
  deriving DecidableEq, Repr

/-- The null code stands for no blank (chapter 2.1). -/
def BlankCode.isNull (b : BlankCode) : Bool :=
  b.style == 0 && b.colour == 0 && b.size == 0

/-- The sixteen fields of a class recipe, in R28's order. -/
structure Recipe where
  dark : Bool
  pretreat : Bool
  dose : Nat
  covMin : Nat
  period : Nat
  duty : Nat
  tolerance : Nat
  dwell : Nat
  inkLimit : Nat
  underbase : Nat
  knockout : Nat
  choke : Nat
  cureBase : Nat
  whiteStep : Nat
  scorchLimit : Int
  scorchAllowance : Nat
  deriving DecidableEq, Repr

/-- An overlay named by a posted line, with its position (R35). -/
structure PostOverlay where
  index : Nat
  vx : Int
  vy : Int
  deriving DecidableEq, Repr

/-- One line of an ORDER_POST, as sent (R35). -/
structure PostLine where
  blank : BlankCode
  quantity : Nat
  art : Nat
  col0 : Nat
  row0 : Nat
  width : Nat
  height : Nat
  ox : Nat
  oy : Nat
  overlay : Option PostOverlay
  deriving DecidableEq, Repr

/-- Five values of a palette entry or a CMYKA pixel: four inks and coverage (R78, R92). -/
structure Ink where
  c : Nat
  m : Nat
  y : Nat
  k : Nat
  a : Nat
  deriving DecidableEq, Repr

/-- One of an overlay's two colours (R79). -/
structure Cmyk where
  c : Nat
  m : Nat
  y : Nat
  k : Nat
  deriving DecidableEq, Repr

/-- An overlay code (R79). -/
inductive OverlayCode where
  | transparent | colourA | colourB | knockout
  deriving DecidableEq, Repr

/-- One band of the cure rate table (R138). -/
structure RateBand where
  threshold : Int
  rate : Nat
  deriving DecidableEq, Repr

/-- A track segment: exit Xn or entry En. -/
inductive Segment where
  | exit (n : Fin 6)
  | entry (n : Fin 6)
  deriving DecidableEq, Repr

/-- A place as PLATEN_DECLARE and JAM_CONFIRM carry it: R179's place codes, with the number of a station or lane as sent;
a segment is a coded value, so one beyond its list is in no request. -/
inductive PlaceArg where
  | station (s : Nat)
  | lane (n : Nat)
  | moving (g : Segment)
  | uncertain (g : Segment)
  | service
  | unseen
  deriving DecidableEq, Repr

/-- What ends a partial frame (R165). -/
inductive AbandonCause where
  /-- a new start symbol: a new frame begins -/
  | startSymbol
  /-- an idle symbol, another control symbol, or an invalid code -/
  | badSymbol
  /-- the fourth byte gave a length above 512 -/
  | oversize
  deriving DecidableEq, Repr

/-- The commands. Requests carry the link and tag they come with and their payload's fields in the order
their rules list them; signals and internal events carry what names them. -/
inductive Instr where
  -- power-on and reset (R182)
  | powerOnReset
  | resetAsserted
  -- the order book (chapter 2)
  | orderPost (v : Via) (order : Word) (priority : Nat) (lines : List PostLine)
  | lineAmend (v : Via) (order : Word) (position : Nat) (quantity : Nat)
  | orderHold (v : Via) (order : Word)
  | orderRelease (v : Via) (order : Word)
  | orderCancel (v : Via) (order : Word)
  | orderRetire (v : Via) (order : Word)
  | catalogueSet (v : Via) (blank : BlankCode) (cls : Nat)
  | catalogueRemove (v : Via) (blank : BlankCode)
  | catalogueGet (v : Via) (blank : BlankCode)
  | classSet (v : Via) (cls : Nat) (recipe : Recipe)
  | classGet (v : Via) (cls : Nat)
  -- art memory (chapter 4)
  | artOpen (v : Via) (format palette width height stride base : Nat) (crc : Word)
  | artWrite (v : Via) (handle offset : Nat) (data : List Byte)
  | artWriteComplete
  | artSeal (v : Via) (handle : Nat) (crc : Option Word)
  | artFree (v : Via) (handle : Nat)
  | paletteSet (v : Via) (palette first : Nat) (entries : List Ink)
  | paletteGet (v : Via) (palette first count : Nat)
  | overlaySet (v : Via) (overlay : Nat) (colours : Option (Cmyk × Cmyk)) (first : Nat) (rows : List (Vector OverlayCode 64))
  | overlayGet (v : Via) (overlay first count : Nat)
  -- the rate table (chapter 8)
  | rateTableSet (v : Via) (bands : Vector RateBand 8)
  | rateTableGet (v : Via)
  -- the rework shelf (chapter 9)
  | shelfPermitSet (v : Via) (mask : Nat)
  | shelfExport (v : Via) (slot form : Nat)
  | shelfImport (v : Via) (record : List Byte)
  | shelfDrop (v : Via) (slot : Nat)
  | shelve (v : Via) (platen : Nat)
  | unshelve (v : Via) (slot platen mask : Nat)
  -- resets, settings and records (chapters 10 and 11)
  | lineReset (v : Via)
  | lineResetComplete
  | powerFlagClear (v : Via)
  | indicatorSet (v : Via) (output : Nat) (conditions : Byte) (mode onTime offTime : Nat)
  | noticeMaskSet (v : Via) (mask : Half)
  | read (v : Via) (kind key option : Nat)
  -- garments (chapter 3)
  | garmentLoad (v : Via) (platen : Nat) (blank : BlankCode)
  | garmentAssign (v : Via) (platen : Nat) (order : Word) (position : Nat)
  | loadClear (v : Via) (platen : Nat)
  | unloadGood (v : Via) (platen : Nat)
  | unloadSpoil (v : Via) (platen : Nat)
  -- the track (chapter 1)
  | platenDeclare (v : Via) (platen : Nat) (place : PlaceArg)
  | jamConfirm (v : Via) (platen : Nat) (place : PlaceArg)
  | lineResume (v : Via)
  | stationHold (v : Via) (station : Nat)
  | stationRelease (v : Via) (station : Nat)
  | serviceOut (v : Via) (platen : Nat)
  | serviceIn (v : Via) (platen : Nat)
  -- the print session (chapter 7)
  | swathPull (v : Via) (sequence offset : Nat)
  | swathPullComplete
  | swathRelease (v : Via) (sequence : Nat)
  | printEndOk (v : Via)
  | printEndAbort (v : Via)
  -- curing (chapter 8)
  | cureSample (v : Via) (platen : Nat) (temperature : Int)
  -- track events (chapter 1)
  | moveStart (seg : Segment)
  | arrive (seg : Segment)
  | moveTimeout (seg : Segment)
  | emergencyStopAsserted
  | emergencyStopReleased
  -- verifier, arbiter and raster events (chapters 4 to 7)
  | verifyPassStart
  | verifyPassEnd
  | arbiterGrant
  | burstComplete
  | swathUnitBegin
  | bandUnitBegin
  | swathUnitEnd
  | bandUnitEnd
  -- spray and press events (chapter 6)
  | sprayStart
  | band
  | sprayEnd
  | zoneValveClose (zone : Fin 8)
  | zonePulseReload (zone : Fin 8)
  | zoneChannelExhausted (zone : Fin 8)
  | pressStart
  | pressClosed
  | dwellExpiry
  | pressOpen
  | closeTimeout
  | openTimeout
  -- session and cure events (chapters 7 and 8)
  | printSessionOpen
  | staleTimerExpiry
  -- link events (chapter 10)
  | frameReceived (link : Link) (bytes : List Byte)
  | frameAbandoned (link : Link) (cause : AbandonCause)
  | frameSent (link : Link)
  | linkReset (link : Link)
  | breakEnd (link : Link)
  | blinkTimerExpiry (output : Fin 6)
  | startSymbol (link : Link)
  deriving DecidableEq, Repr

end Sys2Proof
end

