-- ==== Sys2Proof/Machine/State.lean ====
section
/-! DEFINITION. The state of the JH416, block by block as 00_scope.md lists the blocks, and its value right
after power-on reset. Plain data throughout. Views the spec names that follow from other state (a platen's
garment reference and lane position, a lane's load, GO, WAITING, the ring level, the head-of-line garment,
waiting bursts) are computed, not stored (log 21). Fields that are the model's own are marked so (log 22). -/

namespace Sys2Proof.Machine

/-! ### Stops -/

/-- Why the machine stops. -/
inductive Fault where
  /-- Raised by `Arbiter.grant` when the granted burst's block lies beyond 07FF_FFFFh, where R67 says there
  is no art memory. Safe: no state reached from reset asks for such a block (R69). -/
  | noSuchArtAddress (address : Nat)
  deriving DecidableEq, Repr

/-- Why a command has no meaning. No meaning answers with a refusal. -/
inductive Refusal where
  /-- Raised by a dispatch arm whose command has no meaning yet; none is left. Safe. -/
  | notModelled (mnemonic : String)
  deriving DecidableEq, Repr

/-! ### Track Manager (chapter 1) -/

/-- A platen's place (R1); its position in a lane is its position in the lane's queue. -/
inductive Place where
  | station (s : Fin 6)
  | lane (n : Fin 6)
  | moving (seg : Segment)
  | uncertain (seg : Segment)
  | service
  | unseen
  deriving DecidableEq, Repr

/-- A station's entry in the station map (R2). -/
structure Station where
  occupant : Option (Fin 16)
  reserved : Bool
  held : Bool
  deriving DecidableEq, Repr

/-- Why a segment jammed (R5). -/
inductive JamCause where
  | timeout | eStop | lineReset
  deriving DecidableEq, Repr

/-- A segment's state (R5). -/
inductive SegState where
  | idle
  | moving (platen : Fin 16) (start : Word)
  | jammed (platen : Fin 16) (cause : JamCause) (late : Bool)
  deriving DecidableEq, Repr

/-- The line state (R6). -/
inductive LineState where
  | census | stopped | running
  deriving DecidableEq, Repr

structure Track where
  places : Vector Place 16
  stations : Vector Station 6
  lanes : Vector (List (Fin 16)) 6
  exits : Vector SegState 6
  entries : Vector SegState 6
  line : LineState
  deriving DecidableEq, Repr

/-! ### Order Book (chapter 2) -/

/-- An overlay as a line or a placement names it, position clamped (R32, R35). -/
structure OverlayAt where
  index : Fin 16
  vx : Int
  vy : Int
  deriving DecidableEq, Repr

/-- What a garment latches from its line (R48): art handle, window, origin, optional overlay. -/
structure Placement where
  art : Fin 64
  col0 : Nat
  row0 : Nat
  width : Nat
  height : Nat
  ox : Nat
  oy : Nat
  overlay : Option OverlayAt
  deriving DecidableEq, Repr

/-- An order's state (R31, R34). -/
inductive OrderStatus where
  | opened | held | cancelling | complete | cancelled
  deriving DecidableEq, Repr

/-- A line's state (R32, R33). -/
inductive LineStatus where
  | opened | full | done | withdrawn | closed
  deriving DecidableEq, Repr

/-- An order record (R31). -/
structure Order where
  number : Word
  priority : Nat
  sequence : Word
  status : OrderStatus
  lines : List (Fin 512)
  deriving DecidableEq, Repr

/-- A line record that belongs to an order (R32). -/
structure Line where
  order : Word
  blank : BlankCode
  quantity : Nat
  done : Nat
  reserved : Nat
  spoiled : Nat
  placement : Placement
  status : LineStatus
  deriving DecidableEq, Repr

/-- A catalogue entry (R26). -/
structure CatalogueEntry where
  blank : BlankCode
  cls : Fin 16
  deriving DecidableEq, Repr

structure Book where
  catalogue : List CatalogueEntry
  recipes : Vector Recipe 16
  orders : List Order
  lines : Vector (Option Line) 512
  sequence : Word
  deriving DecidableEq, Repr

/-! ### Match Unit (chapter 3) -/

inductive Stage where
  | loaded | matched | spraying | pressing | printWait | printing | cureWait | curing | released
  deriving DecidableEq, Repr

inductive HoldReason where
  | unknownBlank | noLine
  deriving DecidableEq, Repr

inductive Disposition where
  | good | reject
  deriving DecidableEq, Repr

inductive CoverageState where
  | none | queued | scanning | complete
  deriving DecidableEq, Repr

inductive PretreatResult where
  | pending | done | short | interrupted | waived
  deriving DecidableEq, Repr

inductive PressRecord where
  | pending | done | interrupted | waived
  deriving DecidableEq, Repr

inductive PrintPhase where
  | none | underbase | color | complete | aborted
  deriving DecidableEq, Repr

inductive CureResult where
  | none | released | scorched
  deriving DecidableEq, Repr

/-- The dose map: planned pulses of cell (zone, band), by band then zone (R104). -/
abbrev DoseMap := Vector (Vector Nat 8) 63

structure PretreatRecord where
  coverage : CoverageState
  map : DoseMap
  planned : Nat
  issued : Nat
  shortfall : Nat
  result : PretreatResult
  deriving DecidableEq, Repr

/-- Drop-unit sums by channel (R99). -/
structure Tallies where
  c : Nat
  m : Nat
  y : Nat
  k : Nat
  w : Nat
  deriving DecidableEq, Repr

structure PrintRecord where
  phase : PrintPhase
  first : Nat
  last : Nat
  count : Nat
  produced : Nat
  released : Nat
  tallies : Tallies
  deriving DecidableEq, Repr

structure CureRecord where
  credit : Nat
  carry : Nat
  required : Nat
  lastSample : Option Word
  scorch : Nat
  stale : Bool
  result : CureResult
  deriving DecidableEq, Repr

/-- What binding gives a garment, all in one step (R53): order and line, latched recipe and placement. -/
structure Binding where
  order : Word
  line : Fin 512
  recipe : Recipe
  placement : Placement
  deriving DecidableEq, Repr

/-- A garment record (R48). -/
structure Garment where
  serial : Word
  blank : BlankCode
  cls : Option (Fin 16)
  binding : Option Binding
  stage : Stage
  hold : Option HoldReason
  disposition : Disposition
  orphan : Bool
  restored : Bool
  pretreat : PretreatRecord
  press : PressRecord
  print : PrintRecord
  cure : CureRecord
  deriving DecidableEq, Repr

/-- Garment records by platen (R48) and the serial counter (R49). -/
structure Match where
  garments : Vector (Option Garment) 16
  serial : Word
  deriving DecidableEq, Repr

/-! ### Art Store (chapter 4) -/

inductive ArtFormat where
  | idx4 | idx8 | cmyka
  deriving DecidableEq, Repr

/-- The states of a descriptor other than FREE. -/
inductive ArtStatus where
  | loading | verifying | ready | bad
  deriving DecidableEq, Repr

/-- A descriptor that is not FREE (R68). -/
structure Art where
  status : ArtStatus
  format : ArtFormat
  palette : Fin 8
  width : Nat
  height : Nat
  stride : Nat
  base : Nat
  expected : Word
  computed : Option Word
  rowsChecked : Nat
  deriving DecidableEq, Repr

structure Overlay where
  codes : Vector (Vector OverlayCode 64) 64
  a : Cmyk
  b : Cmyk
  deriving DecidableEq, Repr

/-- The pass on the head of the verification queue (R73): the row and the byte of it to be fed next, and the
CRC register. -/
structure VerifyPass where
  row : Nat
  pos : Nat
  crc : Word
  deriving DecidableEq, Repr

/-- An accepted ART_WRITE whose bursts go on: the next address and the bytes not yet in memory (R71). -/
structure ArtWrite where
  link : Link
  next : Nat
  data : List Byte
  deriving DecidableEq, Repr

structure Store where
  arts : Vector (Option Art) 64
  palettes : Vector (Vector Ink 256) 8
  overlays : Vector Overlay 16
  verifyQueue : List (Fin 64)
  verify : Option VerifyPass
  write : Option ArtWrite
  deriving DecidableEq, Repr

/-- The four requesters of the arbiter (chapter 4.9). -/
inductive Requester where
  | pull | engine | verify | write
  deriving DecidableEq, Repr

/-- The class 3 requester that goes first when both wait (R80). -/
inductive Turn where
  | verify | write
  deriving DecidableEq, Repr

/-- What a burst moves: a whole block read, or named bytes of it written. -/
inductive BurstData where
  | read
  | write (start : Nat) (bytes : List Byte)
  deriving DecidableEq, Repr

/-- One burst: a 64-byte-aligned block (R80). -/
structure Burst where
  block : Nat
  data : BurstData
  deriving DecidableEq, Repr

/-- MODEL'S OWN (log 22): whether the granted burst's work still stands (`live`) or was abandoned (R81): by
PRINT_END(ABORT), its unit still in hand (`aborted`); with nothing left that waits for it (`dropped`); or by a
line reset, whose reply waits for it (`droppedByReset`, R171). -/
inductive Fate where
  | live | aborted | dropped | droppedByReset
  deriving DecidableEq, Repr

structure Granted where
  requester : Requester
  burst : Burst
  fate : Fate
  deriving DecidableEq, Repr

structure Arbiter where
  fairness : Nat
  turn : Turn
  port : Option Granted
  deriving DecidableEq, Repr

/-- The art memory: the bytes that differ from what an unlisted address reads as, addresses rising (log 6). -/
abbrev Memory := List Host.Cell

/-! ### Raster Engine (chapters 5 to 7) -/

/-- A coverage job and its band cursor (R102, R103). -/
structure Job where
  platen : Fin 16
  serial : Word
  cursor : Nat
  deriving DecidableEq, Repr

inductive SwathPhase where
  | underbase | color
  deriving DecidableEq, Repr

inductive UnitKind where
  | band (index : Nat)
  | swath (sequence : Nat) (phase : SwathPhase) (index : Nat) (slot : Fin 4)
  deriving DecidableEq, Repr

/-- The unit in hand (R101). MODEL'S OWN (log 9, log 22): its choke radius; the art blocks still to be read,
each with the field row it lies in; the swath blocks still to be written, each with the first field row that is
not finished without it; and whether its results are to be discarded. -/
structure RasterUnit where
  kind : UnitKind
  platen : Fin 16
  serial : Word
  first : Nat
  last : Nat
  next : Nat
  choke : Nat
  reads : List (Nat × Nat)
  writes : List (Nat × Nat)
  discarded : Bool
  deriving DecidableEq, Repr

structure Engine where
  jobs : List Job
  unit : Option RasterUnit
  deriving DecidableEq, Repr

/-! ### Spray and Press Controllers (chapter 6) -/

/-- A zone carrier channel (R107) and its valve's level. MODEL'S OWN (log 22): `due`, its tick at counter 0
has come. -/
structure Channel where
  counter : Nat
  remaining : Nat
  active : Bool
  valve : Bool
  due : Bool
  deriving DecidableEq, Repr

/-- The spray sequence while RUNNING: strobe count and current band (R106). -/
structure SprayRun where
  strobes : Nat
  band : Option Nat
  deriving DecidableEq, Repr

structure Spray where
  run : Option SprayRun
  channels : Vector Channel 8
  deriving DecidableEq, Repr

inductive PressCause where
  | close | opening
  deriving DecidableEq, Repr

/-- The Press Controller's state with the milliseconds left on the running timer (R113). -/
inductive Press where
  | idle
  | closing (left : Nat)
  | dwell (left : Nat)
  | opening (left : Nat)
  | fault (cause : PressCause)
  deriving DecidableEq, Repr

/-! ### Swath Ring (chapter 7) -/

inductive SwathStatus where
  | filling | ready | handed
  deriving DecidableEq, Repr

/-- A slot that is not FREE (R122). -/
structure Swath where
  status : SwathStatus
  serial : Word
  sequence : Nat
  phase : SwathPhase
  rowStart : Nat
  rows : Nat
  xStart : Nat
  width : Nat
  length : Nat
  deriving DecidableEq, Repr

structure Session where
  platen : Fin 16
  serial : Word
  count : Nat
  deriving DecidableEq, Repr

/-- An accepted SWATH_PULL whose bursts go on: the addresses still to be read and the bytes read so far
(R129). -/
structure Pull where
  link : Link
  sequence : Nat
  offset : Nat
  next : Nat
  stop : Nat
  bytes : List Byte
  deriving DecidableEq, Repr

structure Ring where
  slots : Vector (Option Swath) 4
  order : List (Fin 4)
  session : Option Session
  pull : Option Pull
  deriving DecidableEq, Repr

/-! ### Cure Integrator (chapter 8) -/

structure Cure where
  table : Vector RateBand 8
  slot : Option (Fin 16 × Word)
  stale : Option Nat
  deriving DecidableEq, Repr

/-! ### Rework Shelf (chapter 9) -/

/-- A set of components (R150). -/
structure Components where
  ident : Bool
  pretreat : Bool
  print : Bool
  cure : Bool
  deriving DecidableEq, Repr

structure CtxIdent where
  blank : BlankCode
  cls : Fin 16
  order : Word
  line : Fin 512
  reject : Bool
  orphan : Bool
  restored : Bool
  time : Word
  deriving DecidableEq, Repr

structure CtxPretreat where
  coverage : CoverageState
  result : PretreatResult
  press : PressRecord
  planned : Nat
  issued : Nat
  shortfall : Nat
  deriving DecidableEq, Repr

/-- PRINT of a context; C, M, Y, K tallies in units of 1024 (R150). -/
structure CtxPrint where
  phase : PrintPhase
  count : Nat
  produced : Nat
  released : Nat
  w : Nat
  c : Nat
  m : Nat
  y : Nat
  k : Nat
  deriving DecidableEq, Repr

structure CtxCure where
  result : CureResult
  carry : Nat
  credit : Nat
  required : Nat
  scorch : Nat
  deriving DecidableEq, Repr

/-- A garment context held in a slot (R150): the header's length and serial, IDENT always, the other components
where the present mask names them. The header's format reads FULL and its mask follows from the components. -/
structure Context where
  length : Nat
  serial : Word
  ident : CtxIdent
  pretreat : Option CtxPretreat
  print : Option CtxPrint
  cure : Option CtxCure
  deriving DecidableEq, Repr

structure ShelfSlot where
  context : Context
  recipe : Recipe
  placement : Placement
  deriving DecidableEq, Repr

structure Shelf where
  slots : Vector (Option ShelfSlot) 8
  permit : Components
  deriving DecidableEq, Repr

/-! ### Link Interface (chapters 10 and 11) -/

/-- A field of a reply, notice or record, by its width on the link (R179). -/
inductive Field where
  | u8 (n : Nat)
  | u16 (n : Nat)
  | u24 (n : Nat)
  | u32 (n : Nat)
  | s16 (z : Int)
  | bytes (l : List Byte)
  deriving DecidableEq, Repr

/-- The result codes (R169), in R179's numbering order. -/
inductive ResultCode where
  | ok | busy | denied | malformed | unknown | state | full | inUse | overlap | range | notReady | stale
  | incomplete | badMask | duplicate | wrongPlaten | stopped
  deriving DecidableEq, Repr

/-- A reply: result code and contents (R169). -/
structure Answer where
  code : ResultCode
  body : List Field
  deriving DecidableEq, Repr

inductive ShelfEvent where
  | saved | restored | dropped | exported | imported
  deriving DecidableEq, Repr

/-- How a garment's record was removed (R59, R63). -/
inductive GarmentOutcome where
  | good | spoiled | shelved | cleared
  deriving DecidableEq, Repr

/-- A descriptor's state as ART_STATE and READ report it, FREE among them. -/
inductive ArtState where
  | free | loading | verifying | ready | bad
  deriving DecidableEq, Repr

/-- The sixteen notices (chapter 11) with the contents their raising rules list, the time base apart. -/
inductive Notice where
  | garmentMatched (platen : Fin 16) (serial : Word) (order : Word) (position : Nat) (line : Fin 512)
      (cls : Fin 16) (waived : Bool)
  | garmentHeld (platen : Fin 16) (serial : Word) (blank : BlankCode) (cls : Option (Fin 16)) (reason : HoldReason)
  | orderState (order : Word) (status : Option OrderStatus) (sequence : Word)
  | lineProgress (line : Fin 512) (order : Word) (position quantity done reserved spoiled : Nat) (status : LineStatus)
  | artState (handle : Fin 64) (status : ArtState) (expected : Word) (computed : Option Word)
  | printReady (platen : Fin 16) (serial : Word) (dark : Bool) (firstSeq lastSeq count firstIndex lastIndex xStart width
      produced : Nat)
  | printCancelled (platen : Fin 16) (serial : Word) (count produced released : Nat)
  | pretreatResult (platen : Fin 16) (serial : Word) (result : PretreatResult) (planned issued shortfall tolerance
      strobes : Nat)
  | pressFault (platen : Fin 16) (serial : Word) (cause : PressCause) (dwell : Nat)
  | cureResult (platen : Fin 16) (serial : Word) (result : CureResult) (credit required scorch allowance w : Nat)
  | cureStale (platen : Fin 16) (serial : Word) (mark : Bool) (credit required : Nat)
  | garmentDone (platen : Fin 16) (serial : Word) (binding : Option (Word × Fin 512)) (outcome : GarmentOutcome)
      (disposition : Disposition) (orphan restored : Bool) (pretreat : PretreatResult) (shortfall : Nat)
      (press : PressRecord) (phase : PrintPhase) (cure : CureResult) (credit : Nat)
  | jam (seg : Segment) (platen : Fin 16) (cause : JamCause) (late : Bool)
  | lineState (line : LineState) (estop : Bool) (powerFlag : Bool)
  | shelfChange (slot : Fin 8) (event : ShelfEvent) (serial : Word) (present : Components) (order : Word) (line : Fin 512)
      (restored : Option (Fin 16 × Components))
  | platenMoved (platen : Fin 16) (seg : Option Segment) (place : Place) (position : Nat)
  deriving DecidableEq, Repr

/-- A notice in a link's queue, with the number it took there and the time base when raised (R174). -/
structure QueuedNotice where
  number : Byte
  time : Word
  notice : Notice
  deriving DecidableEq, Repr

/-- The receiver's state (R164); RECEIVING holds the frame buffer. -/
inductive Receiver where
  | hunting
  | receiving (buffer : List Byte)
  | inBreak
  deriving DecidableEq, Repr

/-- MODEL'S OWN (log 3): how far the request in flight has come: handed to its owning block, being worked
on, or completed with its reply ready (R167). -/
inductive Progress where
  | handed (request : Instr)
  | working
  | ready (answer : Answer)
  deriving DecidableEq, Repr

/-- The request slot (R164). -/
inductive Slot where
  | free
  | inFlight (tag kind : Nat) (progress : Progress)
  deriving DecidableEq, Repr

/-- A pending BUSY reply: tag and kind of the request it refuses, and whether a ready reply was waiting
before it (log 17). -/
structure BusyReply where
  tag : Nat
  kind : Nat
  behind : Bool
  deriving DecidableEq, Repr

/-- What the frame being sent is. `flushed` is a notice whose queue a line reset has emptied meanwhile (log 26). -/
inductive TxSource where
  | reply | busy | notice | flushed
  deriving DecidableEq, Repr

/-- The transmitter: idle, or sending the frame of one of its three sources (R169). -/
inductive Transmitter where
  | idle
  | sending (source : TxSource) (frame : List Byte)
  deriving DecidableEq, Repr

/-- The state of one link (R164, R174 to R176). -/
structure LinkState where
  receiver : Receiver
  slot : Slot
  silent : Bool
  busy : Option BusyReply
  discards : Nat
  mask : Half
  queue : List QueuedNotice
  lost : Bool
  number : Byte
  tx : Transmitter
  deriving DecidableEq, Repr

structure Links where
  order : LinkState
  operator : LinkState
  head : LinkState
  cure : LinkState
  deriving DecidableEq, Repr

/-! ### Indicator Unit (chapter 11) -/

/-- An output's level, with the blink phase and the milliseconds left on its timer (R177). -/
inductive Lamp where
  | off
  | steady
  | blinkOn (left : Nat)
  | blinkOff (left : Nat)
  deriving DecidableEq, Repr

/-- An output: condition set (bit i is the i-th condition of chapter 11.4), mode, times in 10 ms, level. -/
structure Indicator where
  conditions : Byte
  blink : Bool
  onTime : Nat
  offTime : Nat
  lamp : Lamp
  deriving DecidableEq, Repr

/-! ### Pins and time -/

/-- A line input (R182): its filtered level; MODEL'S OWN (log 4): the level the outside drives, and for
how many ticks that has differed from the filtered one. -/
structure LevelInput where
  level : Bool
  wire : Bool
  held : Nat
  deriving DecidableEq, Repr

/-- The line inputs (R182): the presence sensors, ARRIVE of the exit and entry segments, PRESS_CLOSED,
PRESS_OPEN, ESTOP_N, BAND and END. `estop` is true while the emergency-stop input is active (ESTOP_N low). -/
structure Inputs where
  present : Vector LevelInput 6
  arriveExit : Vector LevelInput 6
  arriveEntry : Vector LevelInput 6
  pressClosed : LevelInput
  pressOpen : LevelInput
  estop : LevelInput
  band : LevelInput
  sprayEnd : LevelInput
  deriving DecidableEq, Repr

/-- The time base (R170). MODEL'S OWN: 20 µs ticks into the millisecond (log 2) and the number of power-on
resets taken (log 7). -/
structure Clock where
  time : Word
  sub : Nat
  resets : Nat
  deriving DecidableEq, Repr

end Sys2Proof.Machine

namespace Sys2Proof.Machine

/-- The state of the JH416. `pending` is the queue of waiting commands, first in, first out. `resetLow` is
true while RESET_N is low (R182). `lineReset` is the link whose line reset awaits its reply (R171). -/
structure State where
  pending : List Instr
  resetLow : Bool
  powerFlag : Bool
  clock : Clock
  inputs : Inputs
  track : Track
  book : Book
  units : Match
  store : Store
  arbiter : Arbiter
  mem : Memory
  engine : Engine
  spray : Spray
  press : Press
  ring : Ring
  cure : Cure
  shelf : Shelf
  links : Links
  lineReset : Option Link
  indicators : Vector Indicator 6
  deriving DecidableEq, Repr

/-! ### After power-on reset -/

/-- R24. -/
def Track.reset : Track where
  places := Vector.replicate 16 .unseen
  stations := Vector.replicate 6 ⟨none, false, false⟩
  lanes := Vector.replicate 6 []
  exits := Vector.replicate 6 .idle
  entries := Vector.replicate 6 .idle
  line := .census

/-- R28's third column. -/
def Recipe.reset : Recipe where
  dark := false
  pretreat := false
  dose := 0
  covMin := 8
  period := 50
  duty := 30
  tolerance := 0
  dwell := 100
  inkLimit := 1020
  underbase := 255
  knockout := 0
  choke := 0
  cureBase := 1000
  whiteStep := 0
  scorchLimit := 440
  scorchAllowance := 2000

/-- R46. -/
def Book.reset : Book where
  catalogue := []
  recipes := Vector.replicate 16 Recipe.reset
  orders := []
  lines := Vector.replicate 512 none
  sequence := 0

/-- R65. -/
def Match.reset : Match where
  garments := Vector.replicate 16 none
  serial := 1

def Overlay.reset : Overlay where
  codes := Vector.replicate 64 (Vector.replicate 64 .transparent)
  a := ⟨0, 0, 0, 0⟩
  b := ⟨0, 0, 0, 0⟩

/-- R83. -/
def Store.reset : Store where
  arts := Vector.replicate 64 none
  palettes := Vector.replicate 8 (Vector.replicate 256 ⟨0, 0, 0, 0, 0⟩)
  overlays := Vector.replicate 16 Overlay.reset
  verifyQueue := []
  verify := none
  write := none

/-- R83. -/
def Arbiter.reset : Arbiter := ⟨0, .verify, none⟩

def Channel.off : Channel := ⟨0, 0, false, false, false⟩

/-- R119. -/
def Spray.reset : Spray := ⟨none, Vector.replicate 8 Channel.off⟩

/-- R136. -/
def Ring.reset : Ring := ⟨Vector.replicate 4 none, [], none, none⟩

/-- R138's power-on table. -/
def rateTableReset : Vector RateBand 8 :=
  #v[⟨260, 1⟩, ⟨280, 2⟩, ⟨300, 3⟩, ⟨310, 4⟩, ⟨320, 5⟩, ⟨330, 6⟩, ⟨340, 8⟩, ⟨350, 10⟩]

/-- R148. -/
def Cure.reset : Cure := ⟨rateTableReset, none, none⟩

/-- R163. -/
def Shelf.reset : Shelf := ⟨Vector.replicate 8 none, ⟨true, true, true, true⟩⟩

/-- R176's role defaults; bit i is the i-th notice kind of chapter 11's table. -/
def Link.defaultMask : Link → Half
  | .order => 0x7FFF
  | .operator => 0xFFFF
  | .head => 0x2060
  | .cure => 0x2200

/-- R164, R174 to R176. -/
def LinkState.reset (l : Link) : LinkState where
  receiver := .hunting
  slot := .free
  silent := false
  busy := none
  discards := 0
  mask := Link.defaultMask l
  queue := []
  lost := false
  number := 0
  tx := .idle

def Links.reset : Links := ⟨LinkState.reset .order, LinkState.reset .operator, LinkState.reset .head, LinkState.reset .cure⟩

/-- R178's assignments; the times of outputs 0 and 2 are not given there (log 24). -/
def indicatorsReset : Vector Indicator 6 :=
  #v[⟨0x03, false, 50, 50, .off⟩, ⟨0x08, true, 50, 50, .off⟩, ⟨0x80, false, 50, 50, .off⟩,
     ⟨0x00, false, 50, 50, .off⟩, ⟨0x00, false, 50, 50, .off⟩, ⟨0x00, false, 50, 50, .off⟩]

def LevelInput.inactive : LevelInput := ⟨false, false, 0⟩

/-- The line inputs at reset: inactive (log 5). -/
def Inputs.reset : Inputs where
  present := Vector.replicate 6 .inactive
  arriveExit := Vector.replicate 6 .inactive
  arriveEntry := Vector.replicate 6 .inactive
  pressClosed := .inactive
  pressOpen := .inactive
  estop := .inactive
  band := .inactive
  sprayEnd := .inactive

/-- The part right after power-on reset, each block as its own rule says. -/
def State.reset : State where
  pending := []
  resetLow := false
  powerFlag := true
  clock := ⟨0, 0, 0⟩
  inputs := Inputs.reset
  track := Track.reset
  book := Book.reset
  units := Match.reset
  store := Store.reset
  arbiter := Arbiter.reset
  mem := []
  engine := ⟨[], none⟩
  spray := Spray.reset
  press := .idle
  ring := Ring.reset
  cure := Cure.reset
  shelf := Shelf.reset
  links := Links.reset
  lineReset := none
  indicators := indicatorsReset

end Sys2Proof.Machine
end

