-- ==== Sys2Proof/Machine/Ops.lean ====
section
/-! DEFINITION. The named operations over the state: one block replaced, the art memory's bytes, garment and
platen records, a link's record, raising a notice, and completing a request. -/

namespace Sys2Proof.Machine

/-! ### One block replaced -/

def State.setClock (s : State) (x : Clock) : State := { s with clock := x }
def State.setInputs (s : State) (x : Inputs) : State := { s with inputs := x }
def State.setTrack (s : State) (x : Track) : State := { s with track := x }
def State.setBook (s : State) (x : Book) : State := { s with book := x }
def State.setUnits (s : State) (x : Match) : State := { s with units := x }
def State.setStore (s : State) (x : Store) : State := { s with store := x }
def State.setArbiter (s : State) (x : Arbiter) : State := { s with arbiter := x }
def State.setMem (s : State) (x : Memory) : State := { s with mem := x }
def State.setEngine (s : State) (x : Engine) : State := { s with engine := x }
def State.setSpray (s : State) (x : Spray) : State := { s with spray := x }
def State.setPress (s : State) (x : Press) : State := { s with press := x }
def State.setRing (s : State) (x : Ring) : State := { s with ring := x }
def State.setCure (s : State) (x : Cure) : State := { s with cure := x }
def State.setShelf (s : State) (x : Shelf) : State := { s with shelf := x }
def State.setLinks (s : State) (x : Links) : State := { s with links := x }
def State.setLineReset (s : State) (x : Option Link) : State := { s with lineReset := x }
def State.setIndicators (s : State) (x : Vector Indicator 6) : State := { s with indicators := x }
def State.setPowerFlag (s : State) (x : Bool) : State := { s with powerFlag := x }
def State.setResetLow (s : State) (x : Bool) : State := { s with resetLow := x }

/-! ### The art memory (R67) -/

/-- The number of bytes of the art memory: 128 MiB. -/
def artMemorySize : Nat := 0x8000000

/-- The first byte of the swath ring region, one past the art area. -/
def ringBase : Nat := 0x7C00000

/-- What an address that is not listed reads as (log 6). -/
def Memory.unlisted : Byte := 0

/-- The byte at an address. -/
def Memory.read : Memory → Nat → Byte
  | [], _ => Memory.unlisted
  | (x, v) :: r, a => if x = a then v else Memory.read r a

/-- One byte written, the canonical form kept. -/
def Memory.write : Memory → Nat → Byte → Memory
  | [], a, b => if b = Memory.unlisted then [] else [(a, b)]
  | (x, v) :: r, a, b =>
    if a < x then (if b = Memory.unlisted then (x, v) :: r else (a, b) :: (x, v) :: r)
    else if a = x then (if b = Memory.unlisted then r else (a, b) :: r)
    else (x, v) :: Memory.write r a b

/-- Bytes written from an address upwards. -/
def Memory.writeRun : Memory → Nat → List Byte → Memory
  | m, _, [] => m
  | m, a, b :: bs => Memory.writeRun (Memory.write m a b) (a + 1) bs

/-- `n` bytes read from an address upwards. -/
def Memory.readRun (m : Memory) (a n : Nat) : List Byte :=
  (List.range n).map fun i => m.read (a + i)

/-- The canonical form: addresses strictly rising, no entry equal to what an unlisted address reads as. -/
def Memory.wf : Memory → Bool
  | [] => true
  | (x, v) :: r => decide (v ≠ Memory.unlisted) && r.all (fun c => decide (x < c.1)) && Memory.wf r

/-- The memory that a list of cells gives, in canonical form; cells outside the art memory are left out. -/
def Memory.ofCells (cells : List Host.Cell) : Memory :=
  cells.foldl (fun m c => if c.1 < artMemorySize then m.write c.1 c.2 else m) []

/-! ### Time -/

/-- Milliseconds from one reading of the time base to another: the difference of the two readings (00_scope.md,
"Time"). -/
def elapsed (start now : Word) : Nat := (now - start).toNat

/-! ### Garments and platens -/

/-- The garment record in a platen's slot (R48). -/
def State.garment (s : State) (p : Fin 16) : Option Garment := s.units.garments[p]

/-- A platen's slot written: the record and, with it, the platen's garment reference (R1, R48). -/
def State.putGarment (s : State) (p : Fin 16) (g : Option Garment) : State :=
  s.setUnits { s.units with garments := upd s.units.garments p g }

/-- A platen with no garment reference is EMPTY (R1). -/
def State.isEmpty (s : State) (p : Fin 16) : Bool := (s.garment p).isNone

def State.place (s : State) (p : Fin 16) : Place := s.track.places[p]

def State.putPlace (s : State) (p : Fin 16) (x : Place) : State :=
  s.setTrack { s.track with places := upd s.track.places p x }

def State.station (s : State) (n : Fin 6) : Station := s.track.stations[n]

def State.putStation (s : State) (n : Fin 6) (x : Station) : State :=
  s.setTrack { s.track with stations := upd s.track.stations n x }

def State.lane (s : State) (n : Fin 6) : List (Fin 16) := s.track.lanes[n]

def State.putLane (s : State) (n : Fin 6) (x : List (Fin 16)) : State :=
  s.setTrack { s.track with lanes := upd s.track.lanes n x }

def Track.seg (t : Track) : Segment → SegState
  | .exit n => t.exits[n]
  | .entry n => t.entries[n]

def State.seg (s : State) (g : Segment) : SegState := s.track.seg g

def State.putSeg (s : State) (g : Segment) (x : SegState) : State :=
  match g with
  | .exit n => s.setTrack { s.track with exits := upd s.track.exits n x }
  | .entry n => s.setTrack { s.track with entries := upd s.track.entries n x }

/-- A platen's position in its lane, 0 for the head; 0 where it is in no lane (R1). -/
def State.lanePosition (s : State) (p : Fin 16) : Nat :=
  match s.place p with
  | .lane n => (s.lane n).idxOf p
  | _ => 0

/-- The garment standing at a station: its occupant's, where that platen's place is the station. -/
def State.garmentAt (s : State) (n : Fin 6) : Option (Fin 16 × Garment) :=
  match (s.station n).occupant with
  | none => none
  | some p => if s.place p = .station n then (s.garment p).map (p, ·) else none

/-! ### Line inputs (R182) -/

/-- An input that stands at a level. -/
def LevelInput.settled (x : Bool) : LevelInput := ⟨x, x, 0⟩

/-- An input read as it is (R24): its level is what the outside drives. -/
def LevelInput.asDriven (i : LevelInput) : LevelInput := .settled i.wire

/-- What the outside drives on an input changed, its filtered level as it was. -/
def LevelInput.drive (x : Bool) (i : LevelInput) : LevelInput := { i with wire := x, held := 0 }

/-- Every input read as it is (R24). -/
def Inputs.asDriven (i : Inputs) : Inputs where
  present := vmap LevelInput.asDriven i.present
  arriveExit := vmap LevelInput.asDriven i.arriveExit
  arriveEntry := vmap LevelInput.asDriven i.arriveEntry
  pressClosed := i.pressClosed.asDriven
  pressOpen := i.pressOpen.asDriven
  estop := i.estop.asDriven
  band := i.band.asDriven
  sprayEnd := i.sprayEnd.asDriven

/-- The ARRIVE input of a segment. -/
def Inputs.arrive (i : Inputs) : Segment → LevelInput
  | .exit n => i.arriveExit[n]
  | .entry n => i.arriveEntry[n]

/-! ### Links -/

def Links.get (k : Links) : Link → LinkState
  | .order => k.order
  | .operator => k.operator
  | .head => k.head
  | .cure => k.cure

def Links.set (k : Links) (l : Link) (x : LinkState) : Links :=
  match l with
  | .order => { k with order := x }
  | .operator => { k with operator := x }
  | .head => { k with head := x }
  | .cure => { k with cure := x }

/-- The same change on all four links. -/
def Links.map (f : LinkState → LinkState) (k : Links) : Links :=
  ⟨f k.order, f k.operator, f k.head, f k.cure⟩

def State.link (s : State) (l : Link) : LinkState := s.links.get l

def State.putLink (s : State) (l : Link) (x : LinkState) : State := s.setLinks (s.links.set l x)

/-- A link's transmitter cut off: no frame is sent. -/
def LinkState.silence (k : LinkState) : LinkState := { k with tx := .idle }

/-- A frame abandoned or discarded: counted, and held at 65535 (R165). -/
def LinkState.discard (k : LinkState) : LinkState := { k with discards := satAdd 65535 k.discards 1 }

/-! ### Notices (R174) -/

/-- A notice's kind by its bit in a notice mask (R179): its place in chapter 11's table. -/
def Notice.index : Notice → Nat
  | .garmentMatched .. => 0
  | .garmentHeld .. => 1
  | .orderState .. => 2
  | .lineProgress .. => 3
  | .artState .. => 4
  | .printReady .. => 5
  | .printCancelled .. => 6
  | .pretreatResult .. => 7
  | .pressFault .. => 8
  | .cureResult .. => 9
  | .cureStale .. => 10
  | .garmentDone .. => 11
  | .jam .. => 12
  | .lineState .. => 13
  | .shelfChange .. => 14
  | .platenMoved .. => 15

/-- R174: a notice offered to one link. -/
def LinkState.offer (time : Word) (n : Notice) (k : LinkState) : LinkState :=
  if k.receiver = .inBreak then k
  else if k.mask.getLsbD n.index = false then k
  else if k.queue.length < 16 then
    { k with number := k.number + 1, queue := k.queue ++ [⟨k.number, time, n⟩] }
  else { k with number := k.number + 1, lost := true }

/-- R174: a notice raised and offered to the four links in one step, with the time base at that moment. -/
def State.raise (s : State) (n : Notice) : State :=
  s.setLinks (s.links.map (LinkState.offer s.clock.time n))

/-- Notices raised in the order given. -/
def State.raiseAll (s : State) (ns : List Notice) : State := ns.foldl State.raise s

/-- The LINE_STATE notice as the line stands (R6). -/
def State.lineStateNotice (s : State) : Notice := .lineState s.track.line s.inputs.estop.level s.powerFlag

/-- The line state changed, with its LINE_STATE notice; no notice where it stays (R6). -/
def State.setLine (s : State) (l : LineState) : State :=
  if s.track.line = l then s
  else
    let s := s.setTrack { s.track with line := l }
    s.raise s.lineStateNotice

/-! ### Completing a request (R167) -/

/-- The block's answer given to the link: in reply mode SEND the reply becomes ready, in SILENT the slot
becomes FREE. -/
def LinkState.complete (a : Answer) (k : LinkState) : LinkState :=
  match k.slot with
  | .inFlight tag kind .working =>
    if k.silent then { k with slot := .free } else { k with slot := .inFlight tag kind (.ready a) }
  | _ => k

def State.answer (s : State) (l : Link) (a : Answer) : State := s.putLink l ((s.link l).complete a)

/-- What an owning block gives back: the state, and its answer unless the request goes on. -/
abbrev Taken := State × Option Answer

/-- The request is refused: nothing changes (00_scope.md, "Refusals"). -/
def State.refuse (s : State) (c : ResultCode) : Taken := (s, some ⟨c, []⟩)

/-- The request is accepted and applied. -/
def State.accept (s : State) (body : List Field) : Taken := (s, some ⟨.ok, body⟩)

end Sys2Proof.Machine
end

