-- ==== Sys2Proof/Machine/Operands.lean ====
section
/-! DEFINITION. The operand forms: what a number a command carries names or is clamped to, and the
arithmetic of the forms (segments and their ends, art formats and extents, recipes, components). -/

namespace Sys2Proof.Machine

/-- A number held within two bounds. -/
def clampNat (lo hi n : Nat) : Nat := if n < lo then lo else if hi < n then hi else n

/-- A signed number held within two bounds. -/
def clampInt (lo hi z : Int) : Int := if z < lo then lo else if hi < z then hi else z

/-- A numbered thing of `n`, where the number is in range. -/
def inRange (n x : Nat) : Option (Fin n) := if h : x < n then some ⟨x, h⟩ else none

/-! ### The track -/

/-- The station after station `n`; S5 is followed by S0 (R8). -/
def nextStation (n : Fin 6) : Fin 6 := n + 1

/-- Lane capacities (chapter 1, the track's table). -/
def laneCapacity (n : Fin 6) : Nat := #v[2, 1, 3, 2, 3, 6][n]

/-- The station at one end of a segment: Xn leaves station n, En enters the station after it (R7, R8). -/
def segStation : Segment → Fin 6
  | .exit n => n
  | .entry n => nextStation n

/-- The lane at the other end. -/
def segLane : Segment → Fin 6
  | .exit n => n
  | .entry n => n

/-- The twelve segments in the order of travel: X0, E0, X1, E1, and so on (log 12). -/
def allSegments : List Segment :=
  [.exit 0, .entry 0, .exit 1, .entry 1, .exit 2, .entry 2, .exit 3, .entry 3, .exit 4, .entry 4, .exit 5, .entry 5]

/-- A segment's number on the links: X0 to X5 as 0 to 5, E0 to E5 as 6 to 11 (R179). -/
def segNumber : Segment → Nat
  | .exit n => n.val
  | .entry n => 6 + n.val

/-! ### Links -/

/-- R168: whether a request kind is permitted to a link's role. -/
def permitted (l : Link) (kind : Nat) : Bool :=
  let order := decide ((0x01 ≤ kind ∧ kind ≤ 0x08) ∨ kind = 0x0A ∨ (0x0C ≤ kind ∧ kind ≤ 0x10) ∨ kind = 0x12 ∨
    kind = 0x14 ∨ (0x16 ≤ kind ∧ kind ≤ 0x19) ∨ (0x1C ≤ kind ∧ kind ≤ 0x1E))
  let operator := decide (kind = 0x19 ∨ kind = 0x1A ∨ kind = 0x1B ∨ kind = 0x1E ∨ (0x21 ≤ kind ∧ kind ≤ 0x2C))
  let head := decide (0x2D ≤ kind ∧ kind ≤ 0x2F)
  let cure := decide (kind = 0x30)
  let any := decide (kind = 0x09 ∨ kind = 0x0B ∨ kind = 0x11 ∨ kind = 0x13 ∨ kind = 0x15 ∨ kind = 0x1F ∨ kind = 0x20)
  any || match l with
  | .order => order
  | .operator => operator
  | .head => head
  | .cure => cure

/-! ### Recipes and posted lines -/

/-- R29: a recipe as CLASS_SET stores it; the duty is clamped against the period just stored. -/
def Recipe.clamped (r : Recipe) : Recipe :=
  let period := if r.period = 0 then 1 else r.period
  { r with
    period := period
    duty := min r.duty (period - 1)
    dwell := clampNat 1 600 r.dwell
    inkLimit := clampNat 255 1020 r.inkLimit
    choke := min r.choke 3
    scorchLimit := clampInt (-80) 800 r.scorchLimit
    scorchAllowance := min r.scorchAllowance 60000 }

/-- R35: a posted line's window, origin and overlay position as stored, where its handle and overlay index
are in range. -/
def PostLine.placement (l : PostLine) : Option Placement :=
  match inRange 64 l.art with
  | none => none
  | some art =>
    let rest : Option OverlayAt → Placement := fun o =>
      ⟨art, min l.col0 8191, min l.row0 8191, min l.width 8192, min l.height 8192, min l.ox 3199, min l.oy 3999, o⟩
    match l.overlay with
    | none => some (rest none)
    | some o =>
      match inRange 16 o.index with
      | none => none
      | some i => some (rest (some ⟨i, clampInt (-63) 3199 o.vx, clampInt (-63) 3999 o.vy⟩))

/-! ### Art formats and extents (R68, R87) -/

def ArtFormat.ofCode : Nat → Option ArtFormat
  | 0 => some .idx4
  | 1 => some .idx8
  | 2 => some .cmyka
  | _ => none

/-- The bytes that carry one row's pixels (R68). -/
def ArtFormat.rowBytes (f : ArtFormat) (width : Nat) : Nat :=
  match f with
  | .idx4 => ceilDiv (width * 4) 8
  | .idx8 => width
  | .cmyka => 5 * width

/-- The offset in a row of the byte that holds, or begins, a column's pixel (R87). -/
def ArtFormat.columnByte (f : ArtFormat) (col : Nat) : Nat :=
  match f with
  | .idx4 => col / 2
  | .idx8 => col
  | .cmyka => 5 * col

/-- How many bytes a pixel takes from that byte on. -/
def ArtFormat.pixelBytes : ArtFormat → Nat
  | .idx4 => 1
  | .idx8 => 1
  | .cmyka => 5

/-- One past the last byte of a descriptor's extent (R68). -/
def Art.stop (d : Art) : Nat := d.base + d.stride * d.height

def Art.rowBytes (d : Art) : Nat := d.format.rowBytes d.width

/-- Two byte ranges, each given by its first byte and one past its last, share a byte (R69). -/
def rangesShare (a₁ b₁ a₂ b₂ : Nat) : Bool := decide (a₁ < b₂ ∧ a₂ < b₁)

/-! ### Components (R150, R179) -/

def Components.ofMask (n : Nat) : Option Components :=
  if n < 16 then some ⟨n.testBit 0, n.testBit 1, n.testBit 2, n.testBit 3⟩ else none

def Components.mask (c : Components) : Nat :=
  c.ident.toNat + 2 * c.pretreat.toNat + 4 * c.print.toNat + 8 * c.cure.toNat

def Components.inter (a b : Components) : Components :=
  ⟨a.ident && b.ident, a.pretreat && b.pretreat, a.print && b.print, a.cure && b.cure⟩

def Context.present (c : Context) : Components := ⟨true, c.pretreat.isSome, c.print.isSome, c.cure.isSome⟩

/-! ### Swath slots (R67) -/

/-- The base address of a swath slot. -/
def slotBase (i : Fin 4) : Nat := ringBase + 0x100000 * i.val

/-- The 64-byte-aligned block an address lies in. -/
def blockOf (a : Nat) : Nat := a / 64 * 64

end Sys2Proof.Machine
end

