-- ==== Sys2Proof/Machine/Flags.lean ====
section
/-! DEFINITION. The derived conditions: line and order states, pins, lane loads, work-finished conditions,
the indicator conditions, the ring level, and what a garment or context has in use. -/

namespace Sys2Proof.Machine

/-! ### Lines and orders -/

def OrderStatus.withdrawn : OrderStatus → Bool
  | .cancelling => true
  | .cancelled => true
  | _ => false

/-- R33: a line's state, from its counters, its quantity and its order's state. Once the order is cancelled
a DONE state is the one the cancel found. -/
def Line.derived (o : OrderStatus) (l : Line) : LineStatus :=
  if o.withdrawn then
    if l.status = .done then .done else if l.reserved = 0 then .closed else .withdrawn
  else if l.done = l.quantity then .done
  else if l.done + l.reserved = l.quantity then .full
  else .opened

/-- OPEN, FULL and WITHDRAWN lines pin their art and name their overlay (R44). -/
def LineStatus.pins : LineStatus → Bool
  | .opened => true
  | .full => true
  | .withdrawn => true
  | .done => false
  | .closed => false

def Book.find (b : Book) (n : Word) : Option Order := b.orders.find? fun o => o.number == n

/-- An order record written over the one with its number. -/
def Book.putOrder (b : Book) (x : Order) : Book :=
  { b with orders := b.orders.map fun o => if o.number = x.number then x else o }

def Book.putLine (b : Book) (i : Fin 512) (x : Option Line) : Book := { b with lines := upd b.lines i x }

/-- The status of a line's record; none for a free record. -/
def Book.lineStatus (b : Book) (i : Fin 512) : Option LineStatus := b.lines[i].map Line.status

/-- R34: an order's state after a change to its lines: COMPLETE when all are DONE, CANCELLED when none is
still WITHDRAWN. -/
def Book.derivedOrder (b : Book) (o : Order) : OrderStatus :=
  match o.status with
  | .opened => if o.lines.all fun i => b.lineStatus i == some .done then .complete else .opened
  | .held => if o.lines.all fun i => b.lineStatus i == some .done then .complete else .held
  | .cancelling => if o.lines.any fun i => b.lineStatus i == some .withdrawn then .cancelling else .cancelled
  | .complete => .complete
  | .cancelled => .cancelled

/-- R44, R76: the pin count of a descriptor. -/
def Book.pins (b : Book) (h : Fin 64) : Nat :=
  b.lines.toList.countP fun l =>
    match l with
    | none => false
    | some l => l.status.pins && l.placement.art == h

/-- R44: whether an overlay is in use. -/
def Book.overlayInUse (b : Book) (v : Fin 16) : Bool :=
  b.lines.toList.any fun l =>
    match l with
    | none => false
    | some l => l.status.pins && (l.placement.overlay.map OverlayAt.index == some v)

def Book.classOf (b : Book) (c : BlankCode) : Option (Fin 16) :=
  (b.catalogue.find? fun e => e.blank == c).map CatalogueEntry.cls

/-! ### The track -/

/-- A segment that is MOVING or JAMMED counts its platen in a lane's load (R4). -/
def SegState.load : SegState → Nat
  | .idle => 0
  | .moving _ _ => 1
  | .jammed _ _ _ => 1

def SegState.isJammed : SegState → Bool
  | .jammed _ _ _ => true
  | _ => false

/-- R4: the load of a lane. -/
def Track.laneLoad (t : Track) (n : Fin 6) : Nat :=
  t.lanes[n].length + t.exits[n].load + t.entries[n].load

/-- R4: a lane has room while its load is below its capacity. -/
def Track.laneRoom (t : Track) (n : Fin 6) : Bool := decide (t.laneLoad n < laneCapacity n)

def Track.anyJammed (t : Track) : Bool := allSegments.any fun g => (t.seg g).isJammed

def Place.isUnseen : Place → Bool
  | .unseen => true
  | _ => false

def Place.isUncertain : Place → Bool
  | .uncertain _ => true
  | _ => false

def Track.anyUnseen (t : Track) : Bool := t.places.toList.any Place.isUnseen

def Track.anyUncertain (t : Track) : Bool := t.places.toList.any Place.isUncertain

/-! ### Work finished (R58, R60, R112, R118, R133, R146) -/

/-- S1's work on a garment is finished (R112). -/
def Garment.sprayFinished (g : Garment) : Bool := g.disposition == .reject || g.pretreat.result != .pending

/-- S2's (R118). -/
def Garment.pressFinished (g : Garment) : Bool :=
  g.disposition == .reject || g.press == .done || g.press == .waived

/-- S3's (R133). -/
def Garment.printFinished (g : Garment) : Bool :=
  g.disposition == .reject || g.print.phase == .complete || g.print.phase == .aborted

/-- S4's (R146). -/
def Garment.cureFinished (g : Garment) : Bool := g.disposition == .reject || g.cure.result != .none

/-- Whether a station's work on a garment is finished. -/
def Garment.workFinished (g : Garment) (n : Fin 6) : Bool :=
  match n with
  | 0 => g.binding.isSome
  | 1 => g.sprayFinished
  | 2 => g.pressFinished
  | 3 => g.printFinished
  | 4 => g.cureFinished
  | 5 => false

/-- The station condition of R7: the occupant may leave. An EMPTY platen waits at S0 and passes every other
station. -/
def State.mayLeave (s : State) (n : Fin 6) (p : Fin 16) : Bool :=
  match s.garment p with
  | none => n != 0
  | some g => g.workFinished n

/-- A garment needs spraying (R106). -/
def Garment.needsSpraying (g : Garment) : Bool := g.disposition == .good && g.pretreat.result == .pending

/-- Pretreated and pressed: the tests that R124 and R128 share. -/
def Garment.pretreated (g : Garment) : Bool :=
  (g.pretreat.result == .done || g.pretreat.result == .short || g.pretreat.result == .waived) &&
  (g.press == .done || g.press == .waived)

/-! ### The swath ring -/

def Swath.produced (w : Swath) : Bool := w.status == .ready || w.status == .handed

/-- R123: slots READY or HANDED. -/
def Ring.occupied (r : Ring) : Nat :=
  r.slots.toList.countP fun w =>
    match w with
    | none => false
    | some w => w.produced

/-- R123's ring level as R179 codes it: EMPTY 0, LOW 1, HALF 2, FULL 3. -/
def Ring.level (r : Ring) : Nat :=
  match r.occupied with
  | 0 => 0
  | 1 => 1
  | 2 => 2
  | 3 => 2
  | _ => 3

/-! ### In use (R151) -/

inductive Use where
  | notInUse | isPartial | complete
  deriving DecidableEq, Repr

def pretreatUse (result : PretreatResult) (press : PressRecord) : Use :=
  match result, press with
  | .interrupted, _ => .isPartial
  | .pending, _ => .notInUse
  | .waived, .done => .complete
  | .waived, .waived => .complete
  | .waived, _ => .notInUse
  | .done, .done => .complete
  | .done, .waived => .complete
  | .done, _ => .isPartial
  | .short, .done => .complete
  | .short, .waived => .complete
  | .short, _ => .isPartial

def printUse : PrintPhase → Use
  | .underbase => .isPartial
  | .color => .isPartial
  | .complete => .complete
  | .none => .notInUse
  | .aborted => .notInUse

def cureUse (result : CureResult) (credit carry scorch : Nat) : Use :=
  match result with
  | .scorched => .isPartial
  | .released => .complete
  | .none => if 0 < credit ∨ 0 < carry ∨ 0 < scorch then .isPartial else .notInUse

/-! ### The indicator conditions (chapter 11.4) -/

/-- The eight conditions in the order of the table. -/
def State.conditions (s : State) : List Bool :=
  [ s.track.anyJammed,
    s.track.line == .stopped,
    s.track.line == .census,
    (match s.garmentAt 0 with
      | none => false
      | some (_, g) => g.stage == .loaded),
    (match s.garmentAt 4 with
      | none => false
      | some (_, g) => g.cure.stale),
    s.shelf.slots.toList.any Option.isSome,
    s.store.arts.toList.any (fun d => d.map Art.status == some .bad),
    s.track.line == .running ]

/-- An output is active while at least one condition of its set holds (R177). -/
def Indicator.active (i : Indicator) (conditions : List Bool) : Bool :=
  (List.range 8).any fun b => i.conditions.getLsbD b && conditions.getD b false

end Sys2Proof.Machine
end

