-- ==== Sys2Proof/Machine/Formats.lean ====
section
/-! DEFINITION. Bytes on the links and in memory (R74, R166, R179): the two check values, the encoding of
fields by type, the contents of notices, and whole frames. Widths and codes that R179 does not name are
log 14. -/

namespace Sys2Proof.Machine

/-! ### Check values -/

/-- One of R166's eight steps: shift left, and combine 1021h when the top bit was 1. -/
def crc16Step (r : Half) : Half := if r.getLsbD 15 then (r <<< 1) ^^^ 0x1021 else r <<< 1

/-- R166: one byte taken into the register's upper eight bits. -/
def crc16Byte (r : Half) (b : Byte) : Half :=
  let r := r ^^^ (b.setWidth 16 <<< 8)
  crc16Step (crc16Step (crc16Step (crc16Step (crc16Step (crc16Step (crc16Step (crc16Step r)))))))

/-- R166: the check value of a frame's header and payload. -/
def crc16 (bytes : List Byte) : Half := bytes.foldl crc16Byte 0xFFFF

/-- One of R74's eight steps: shift right, and combine EDB8_8320h when the lowest bit was 1. -/
def crc32Step (r : Word) : Word := if r.getLsbD 0 then (r >>> 1) ^^^ 0xEDB88320 else r >>> 1

/-- R74: one byte taken into the register's low eight bits. -/
def crc32Byte (r : Word) (b : Byte) : Word :=
  let r := r ^^^ b.setWidth 32
  crc32Step (crc32Step (crc32Step (crc32Step (crc32Step (crc32Step (crc32Step (crc32Step r)))))))

/-- R74: bytes fed into the register in turn. -/
def crc32Feed (r : Word) (bytes : List Byte) : Word := bytes.foldl crc32Byte r

/-- R74: the register before the first byte. -/
def crc32Start : Word := 0xFFFFFFFF

/-- R74: the computed CRC, every bit of the register changed. -/
def crc32Result (r : Word) : Word := ~~~r

/-! ### Fields (R179) -/

/-- A number as `k` bytes, most significant first. -/
def bigEndian : Nat → Nat → List Byte
  | 0, _ => []
  | k + 1, n => bigEndian k (n / 256) ++ [BitVec.ofNat 8 n]

def Field.encode : Field → List Byte
  | .u8 n => bigEndian 1 n
  | .u16 n => bigEndian 2 n
  | .u24 n => bigEndian 3 n
  | .u32 n => bigEndian 4 n
  | .s16 z => bigEndian 2 (BitVec.ofInt 16 z).toNat
  | .bytes l => l

def encodeFields (fs : List Field) : List Byte := (fs.map Field.encode).flatten

def Field.flag (b : Bool) : Field := .u8 b.toNat

def Field.word (w : Word) : Field := .u32 w.toNat

/-- An optional field of `size` bytes: its presence byte, then the field, its bytes 0 when absent. -/
def optional (size : Nat) : Option (List Field) → List Field
  | none => [.u8 0, .bytes (List.replicate size 0)]
  | some fs => .u8 1 :: fs

/-- A list: its count in one byte, then its items. -/
def listed (items : List (List Field)) : List Field := .u8 items.length :: items.flatten

/-- A run of bytes: its count in two bytes, then the bytes. -/
def runOf (l : List Byte) : List Field := [.u16 l.length, .bytes l]

/-! ### Codes: a value's place in the list its rule gives, counted from 0 -/

def LineState.code : LineState → Nat
  | .census => 0
  | .stopped => 1
  | .running => 2

def JamCause.code : JamCause → Nat
  | .timeout => 0
  | .eStop => 1
  | .lineReset => 2

def OrderStatus.code : OrderStatus → Nat
  | .opened => 0
  | .held => 1
  | .cancelling => 2
  | .complete => 3
  | .cancelled => 4

def LineStatus.code : LineStatus → Nat
  | .opened => 0
  | .full => 1
  | .done => 2
  | .withdrawn => 3
  | .closed => 4

def Stage.code : Stage → Nat
  | .loaded => 0
  | .matched => 1
  | .spraying => 2
  | .pressing => 3
  | .printWait => 4
  | .printing => 5
  | .cureWait => 6
  | .curing => 7
  | .released => 8

def HoldReason.code : HoldReason → Nat
  | .unknownBlank => 0
  | .noLine => 1

def Disposition.code : Disposition → Nat
  | .good => 0
  | .reject => 1

def CoverageState.code : CoverageState → Nat
  | .none => 0
  | .queued => 1
  | .scanning => 2
  | .complete => 3

def PretreatResult.code : PretreatResult → Nat
  | .pending => 0
  | .done => 1
  | .short => 2
  | .interrupted => 3
  | .waived => 4

def PressRecord.code : PressRecord → Nat
  | .pending => 0
  | .done => 1
  | .interrupted => 2
  | .waived => 3

def PrintPhase.code : PrintPhase → Nat
  | .none => 0
  | .underbase => 1
  | .color => 2
  | .complete => 3
  | .aborted => 4

def CureResult.code : CureResult → Nat
  | .none => 0
  | .released => 1
  | .scorched => 2

def ArtState.code : ArtState → Nat
  | .free => 0
  | .loading => 1
  | .verifying => 2
  | .ready => 3
  | .bad => 4

def ArtFormat.code : ArtFormat → Nat
  | .idx4 => 0
  | .idx8 => 1
  | .cmyka => 2

def SwathPhase.code : SwathPhase → Nat
  | .underbase => 0
  | .color => 1

def PressCause.code : PressCause → Nat
  | .close => 0
  | .opening => 1

def GarmentOutcome.code : GarmentOutcome → Nat
  | .good => 0
  | .spoiled => 1
  | .shelved => 2
  | .cleared => 3

def ShelfEvent.code : ShelfEvent → Nat
  | .saved => 0
  | .restored => 1
  | .dropped => 2
  | .exported => 3
  | .imported => 4

/-- R179's result codes. -/
def ResultCode.code : ResultCode → Nat
  | .ok => 0x00
  | .busy => 0x01
  | .denied => 0x02
  | .malformed => 0x03
  | .unknown => 0x04
  | .state => 0x05
  | .full => 0x06
  | .inUse => 0x07
  | .overlap => 0x08
  | .range => 0x09
  | .notReady => 0x0A
  | .stale => 0x0B
  | .incomplete => 0x0C
  | .badMask => 0x0D
  | .duplicate => 0x0E
  | .wrongPlaten => 0x0F
  | .stopped => 0x10

def ArtStatus.state : ArtStatus → ArtState
  | .loading => .loading
  | .verifying => .verifying
  | .ready => .ready
  | .bad => .bad

/-! ### Compound fields -/

/-- A place in two bytes (R179). -/
def placeFields (p : Place) (position : Nat) : List Field :=
  match p with
  | .station s => [.u8 0, .u8 s.val]
  | .lane n => [.u8 1, .u8 (n.val * 16 + position)]
  | .moving g => [.u8 2, .u8 (segNumber g)]
  | .uncertain g => [.u8 3, .u8 (segNumber g)]
  | .service => [.u8 4, .u8 0]
  | .unseen => [.u8 5, .u8 0]

def blankFields (b : BlankCode) : List Field := [.u16 b.style, .u8 b.colour, .u8 b.size]

/-- The sixteen fields of R28 in its table order: 23 bytes. -/
def recipeFields (r : Recipe) : List Field :=
  [.flag r.dark, .flag r.pretreat, .u8 r.dose, .u8 r.covMin, .u8 r.period, .u8 r.duty, .u16 r.tolerance,
   .u16 r.dwell, .u16 r.inkLimit, .u8 r.underbase, .u8 r.knockout, .u8 r.choke, .u16 r.cureBase,
   .u16 r.whiteStep, .s16 r.scorchLimit, .u16 r.scorchAllowance]

def overlayAtFields (o : Option OverlayAt) : List Field :=
  optional 5 (o.map fun o => [.u8 o.index.val, .s16 o.vx, .s16 o.vy])

def placementFields (p : Placement) : List Field :=
  [.u8 p.art.val, .u16 p.col0, .u16 p.row0, .u16 p.width, .u16 p.height, .u16 p.ox, .u16 p.oy] ++
  overlayAtFields p.overlay

def inkFields (i : Ink) : List Field := [.u8 i.c, .u8 i.m, .u8 i.y, .u8 i.k, .u8 i.a]

def cmykFields (i : Cmyk) : List Field := [.u8 i.c, .u8 i.m, .u8 i.y, .u8 i.k]

def classField (c : Option (Fin 16)) : List Field := optional 1 (c.map fun c => [.u8 c.val])

def OverlayCode.bits : OverlayCode → Nat
  | .transparent => 0
  | .colourA => 1
  | .colourB => 2
  | .knockout => 3

/-- A row of 64 codes in sixteen bytes, four codes a byte from bits 7-6 down (log 13). -/
def overlayRowBytes (row : Vector OverlayCode 64) : List Byte :=
  (List.range 16).map fun j =>
    let code (i : Nat) : Nat := OverlayCode.bits (row.toList.getD (4 * j + i) .transparent)
    BitVec.ofNat 8 (64 * code 0 + 16 * code 1 + 4 * code 2 + code 3)

def rateTableFields (t : Vector RateBand 8) : List Field :=
  (t.toList.map fun b => [Field.s16 b.threshold, .u8 b.rate]).flatten

/-! ### Notices -/

/-- A notice's contents in the order its raising rule lists them; the time base stands before them (R179). DESIGN CHOICE
(log 14): in PRINT_READY and PRINT_CANCELLED a swath sequence number, a swath row index, the swath count and the produced
and released counts are 1 byte each (R179's table has 4 for 'sequence' and R179's reply of SWATH_PULL has 1); a line
position and a strobe count are 1 byte each; in LINE_STATE the emergency-stop level is one byte, 1 while the input is
active; GARMENT_HELD's class, GARMENT_DONE's binding, ORDER_STATE's state, ART_STATE's computed CRC, PLATEN_MOVED's
segment and SHELF_CHANGE's platen and mask are optional fields. -/
def Notice.fields : Notice → List Field
  | .garmentMatched platen serial order position line cls waived =>
      [.u8 platen.val, .word serial, .word order, .u8 position, .u16 line.val, .u8 cls.val, .flag waived]
  | .garmentHeld platen serial blank cls reason =>
      [.u8 platen.val, .word serial] ++ blankFields blank ++ classField cls ++ [.u8 reason.code]
  | .orderState order status sequence =>
      [.word order] ++ optional 1 (status.map fun s => [.u8 s.code]) ++ [.word sequence]
  | .lineProgress line order position quantity done reserved spoiled status =>
      [.u16 line.val, .word order, .u8 position, .u16 quantity, .u16 done, .u16 reserved, .u16 spoiled,
       .u8 status.code]
  | .artState handle status expected computed =>
      [.u8 handle.val, .u8 status.code, .word expected] ++ optional 4 (computed.map fun c => [.word c])
  | .printReady platen serial dark firstSeq lastSeq count firstIndex lastIndex xStart width produced =>
      [.u8 platen.val, .word serial, .u8 (if dark then 0 else 1), .u8 firstSeq, .u8 lastSeq, .u8 count,
       .u8 firstIndex, .u8 lastIndex, .u16 xStart, .u16 width, .u8 produced]
  | .printCancelled platen serial count produced released =>
      [.u8 platen.val, .word serial, .u8 count, .u8 produced, .u8 released]
  | .pretreatResult platen serial result planned issued shortfall tolerance strobes =>
      [.u8 platen.val, .word serial, .u8 result.code, .u24 planned, .u24 issued, .u24 shortfall, .u16 tolerance,
       .u8 strobes]
  | .pressFault platen serial cause dwell => [.u8 platen.val, .word serial, .u8 cause.code, .u16 dwell]
  | .cureResult platen serial result credit required scorch allowance w =>
      [.u8 platen.val, .word serial, .u8 result.code, .u16 credit, .u16 required, .u16 scorch, .u16 allowance, .u32 w]
  | .cureStale platen serial mark credit required =>
      [.u8 platen.val, .word serial, .flag mark, .u16 credit, .u16 required]
  | .garmentDone platen serial binding outcome disposition orphan restored pretreat shortfall press phase cure
      credit =>
      [.u8 platen.val, .word serial] ++ optional 6 (binding.map fun b => [.word b.1, .u16 b.2.val]) ++
      [.u8 outcome.code, .u8 disposition.code, .flag orphan, .flag restored, .u8 pretreat.code, .u24 shortfall,
       .u8 press.code, .u8 phase.code, .u8 cure.code, .u16 credit]
  | .jam seg platen cause late => [.u8 (segNumber seg), .u8 platen.val, .u8 cause.code, .flag late]
  | .lineState line estop powerFlag => [.u8 line.code, .flag estop, .flag powerFlag]
  | .shelfChange slot event serial present order line restored =>
      [.u8 slot.val, .u8 event.code, .word serial, .u8 present.mask, .word order, .u16 line.val] ++
      optional 2 (restored.map fun r => [.u8 r.1.val, .u8 r.2.mask])
  | .platenMoved platen seg place position =>
      [.u8 platen.val] ++ optional 1 (seg.map fun g => [.u8 (segNumber g)]) ++ placeFields place position

/-! ### Frames (R179) -/

/-- Header, payload and check value. -/
def frame (kind tag : Nat) (payload : List Byte) : List Byte :=
  let front := bigEndian 1 kind ++ bigEndian 1 tag ++ bigEndian 2 payload.length ++ payload
  front ++ bigEndian 2 (crc16 front).toNat

/-- A reply: its request's tag, and its kind with the reply bit set (R169). -/
def replyFrame (tag kind : Nat) (a : Answer) : List Byte :=
  frame (kind ||| 0x80) tag (encodeFields (.u8 a.code.code :: a.body))

/-- A notice: its number as the tag, the lost flag in bit 0 of the flags byte, and the time base (R175, R179). -/
def noticeFrame (n : QueuedNotice) (lost : Bool) : List Byte :=
  frame (0x50 + n.notice.index) n.number.toNat
    (encodeFields (.flag lost :: .word n.time :: n.notice.fields))

end Sys2Proof.Machine
end

