-- ==== Sys2Proof/Machine/Settle.lean ====
section
/-! DEFINITION. What every command shares: how a request reaches its owning block and is completed (R167 to
R169), and how a step ends, with the indicator outputs judged against the conditions as they now stand
(R177) and every free transmitter starting its next frame (R169). -/

namespace Sys2Proof.Machine

/-! ### Indicator outputs (R177) -/

/-- R177: an output judged: what its lamp shows, given whether the output is active. A blinking output that
stays active keeps its rhythm. -/
def Indicator.judge (active : Bool) (i : Indicator) : Indicator :=
  if active = false then { i with lamp := .off }
  else if i.blink = false then { i with lamp := .steady }
  else
    match i.lamp with
    | .blinkOn _ => i
    | .blinkOff _ => i
    | .off => { i with lamp := .blinkOn (10 * i.onTime) }
    | .steady => { i with lamp := .blinkOn (10 * i.onTime) }

/-- Every output judged against the conditions as they stand. -/
def State.judgeIndicators (s : State) : State :=
  let c := s.conditions
  s.setIndicators (vmap (fun i => i.judge (i.active c)) s.indicators)

/-! ### Transmitters (R169, R175) -/

/-- The ready reply of the request in flight, with its tag and kind. -/
def LinkState.readyReply (k : LinkState) : Option (Nat × Nat × Answer) :=
  match k.slot with
  | .inFlight tag kind (.ready a) => some (tag, kind, a)
  | _ => none

/-- A BUSY reply's frame: the tag and kind of the request it refuses (R169). -/
def busyFrame (b : BusyReply) : List Byte := replyFrame b.tag b.kind ⟨.busy, []⟩

/-- R169, R175: a free transmitter starts its next frame: the reply or BUSY reply that became waiting first,
otherwise the oldest notice, whose frame takes the lost flag along. Nothing is transmitted in BREAK. -/
def LinkState.kick (k : LinkState) : LinkState :=
  match k.tx with
  | .sending _ _ => k
  | .idle =>
    if k.receiver = .inBreak then k
    else
      match k.busy, k.readyReply with
      | none, some (tag, kind, a) => { k with tx := .sending .reply (replyFrame tag kind a) }
      | some b, some (tag, kind, a) =>
        if b.behind then { k with tx := .sending .reply (replyFrame tag kind a) }
        else { k with tx := .sending .busy (busyFrame b) }
      | some b, none => { k with tx := .sending .busy (busyFrame b) }
      | none, none =>
        match k.queue with
        | [] => k
        | n :: _ => { k with tx := .sending .notice (noticeFrame n k.lost), lost := false }

def State.kickAll (s : State) : State := s.setLinks (s.links.map LinkState.kick)

/-- The end of a step: outputs judged, free transmitters started. A notice queued by the step that completes
a request is so sent after that request's reply (R169). DESIGN CHOICE (log 29): outputs are judged once, by the conditions
as the step leaves them, so that a step that ends one condition of a blinking output's set and begins another leaves the
output active and its rhythm unbroken. -/
def State.settle (s : State) : State := s.judgeIndicators.kickAll

/-! ### Requests (R167) -/

/-- R167 step 1: a request that finds the slot IN_FLIGHT. The first becomes the pending BUSY reply; while one
is pending, a further request is discarded and counted. -/
def LinkState.refuseBusy (tag kind : Nat) (k : LinkState) : LinkState :=
  match k.busy with
  | none => { k with busy := some ⟨tag, kind, k.readyReply.isSome⟩ }
  | some _ => k.discard

/-- A request answered before hand-on (R167 steps 2 to 4): it uses the slot until its reply has been sent. -/
def LinkState.answerAtOnce (tag kind : Nat) (c : ResultCode) (k : LinkState) : LinkState :=
  { k with slot := .inFlight tag kind (.ready ⟨c, []⟩), silent := false }

/-- A handed-on request taken up by its owning block. -/
def LinkState.takeUp (tag kind : Nat) (k : LinkState) : LinkState := { k with slot := .inFlight tag kind .working }

/-- The owning block's handling of a request, and the completion where it is at once. -/
def State.handle (s : State) (l : Link) (h : State → Taken) : State :=
  match h s with
  | (t, none) => t
  | (t, some a) => t.answer l a

/-- The slot taken by a request that arrives and is taken up at once, in reply mode SEND (R167). -/
def State.taken (s : State) (v : Via) (kind : Nat) : State :=
  s.putLink v.link { (s.link v.link).takeUp v.tag kind with silent := false }

/-- A request command is taken (log 3). If FRAME_RECEIVED has handed on this very request, its owning block
takes it. Otherwise the command is the request's arrival as well: nothing is received in BREAK, a slot in
flight answers BUSY, a role without permission is answered DENIED (R167 steps 1 and 3), and otherwise the
request is handed on and taken. -/
def State.takeRequest (s : State) (v : Via) (kind : Nat) (i : Instr) (h : State → Taken) : State :=
  let k := s.link v.link
  match k.slot with
  | .inFlight tag kd (.handed j) =>
    if j = i then (s.putLink v.link (k.takeUp tag kd)).handle v.link h
    else if k.receiver = .inBreak then s
    else s.putLink v.link (k.refuseBusy v.tag kind)
  | .inFlight _ _ _ =>
    if k.receiver = .inBreak then s else s.putLink v.link (k.refuseBusy v.tag kind)
  | .free =>
    if k.receiver = .inBreak then s
    else if permitted v.link kind then
      (s.taken v kind).handle v.link h
    else s.putLink v.link (k.answerAtOnce v.tag kind .denied)

/-- A request command's outcome. Nothing is taken while RESET_N is low (log 8). -/
def request (v : Via) (kind : Nat) (i : Instr) (h : State → Taken) (s : State) :
    Host.Outcome State Fault Refusal :=
  if s.resetLow then .next s else .next (s.takeRequest v kind i h).settle

/-- An event's outcome: its effect, then the end of the step. Nothing is taken while RESET_N is low (log 8). -/
def event (f : State → State) (s : State) : Host.Outcome State Fault Refusal :=
  if s.resetLow then .next s else .next (f s).settle

/-- The outcome of a line input's change of level: as of any event. While RESET_N is low nothing comes of it
but that the input's wire has changed, `drive` (log 8). -/
def signal (drive : Inputs → Inputs) (f : State → State) (s : State) : Host.Outcome State Fault Refusal :=
  if s.resetLow then .next (s.setInputs (drive s.inputs)) else event f s

end Sys2Proof.Machine
end

