-- ==== Sys2Proof/Machine/Book.lean ====
section
/-! DEFINITION. The Order Book's shared operations (chapter 2): lines re-derived with their notices, the
counter requests of section 2.6, and posting an order. The commands that raise the rematch signal are in
OrderBook.lean, after the Match Unit. -/

namespace Sys2Proof.Machine

/-- The LINE_PROGRESS notice of a line as it stands in `l` (R45). -/
def Book.lineProgress (b : Book) (i : Fin 512) (l : Line) : Notice :=
  let position :=
    match b.find l.order with
    | none => 0
    | some o => o.lines.idxOf i
  .lineProgress i l.order position l.quantity l.done l.reserved l.spoiled l.status

/-- The ORDER_STATE notice of an order (R45). -/
def Order.notice (o : Order) : Notice := .orderState o.number (some o.status) o.sequence

/-- R34: an order's state taken again after a change to its lines, with its notice where it changes. -/
def State.deriveOrder (s : State) (n : Word) : State :=
  match s.book.find n with
  | none => s
  | some o =>
    let status := s.book.derivedOrder o
    if status = o.status then s
    else
      let o := { o with status := status }
      (s.setBook (s.book.putOrder o)).raise o.notice

/-- A line as changed, its state derived again under R33. -/
def Book.deriveLine (b : Book) (l : Line) : Line :=
  match b.find l.order with
  | none => l
  | some o => { l with status := l.derived o.status }

/-- A line changed: its state is derived again and LINE_PROGRESS queued, then the order's state, with
ORDER_STATE where it changes (R37, R42, R45). R45 orders the two notices for a counter request; that a LINE_AMEND
which completes its order queues them in the same order is a DESIGN CHOICE (log 12). -/
def State.changeLine (s : State) (i : Fin 512) (l : Line) : State :=
  let l := s.book.deriveLine l
  let s := (s.setBook (s.book.putLine i (some l))).raise (s.book.lineProgress i l)
  s.deriveOrder l.order

/-- R41: RESERVE: granted on an OPEN line of an OPEN order. -/
def State.reserve (s : State) (i : Fin 512) : Option State :=
  match s.book.lines[i] with
  | none => none
  | some l =>
    match s.book.find l.order with
    | none => none
    | some o =>
      if o.status = .opened ∧ l.status = .opened then some (s.changeLine i { l with reserved := l.reserved + 1 })
      else none

/-- The counter requests that come with a binding's removal (R42). -/
inductive Counter where
  | release | spoil | done
  deriving DecidableEq, Repr

/-- R42: the counters after the request. -/
def Line.count (c : Counter) (l : Line) : Line :=
  match c with
  | .release => { l with reserved := l.reserved - 1 }
  | .spoil => { l with reserved := l.reserved - 1, spoiled := satAdd 65535 l.spoiled 1 }
  | .done => { l with reserved := l.reserved - 1, done := l.done + 1 }

/-- R42: a counter request applied, and whether it turned a FULL line back to OPEN by RELEASE or SPOIL, which
raises the rematch signal (R43). -/
def State.count (s : State) (c : Counter) (i : Fin 512) : State × Bool :=
  match s.book.lines[i] with
  | none => (s, false)
  | some l =>
    let t := s.changeLine i (l.count c)
    (t, decide (c ≠ .done ∧ l.status = .full ∧ t.book.lineStatus i = some .opened))

/-- A shelf context's or garment's line as its requests report it: line position in its order. -/
def Book.position (b : Book) (order : Word) (i : Fin 512) : Nat :=
  match b.find order with
  | none => 0
  | some o => o.lines.idxOf i

/-- The indices of free line records, ascending (R36). -/
def Book.freeLines (b : Book) : List (Fin 512) := (List.finRange 512).filter fun i => b.lines[i].isNone

/-- R35 check 1 for one posted line. -/
def PostLine.malformed (l : PostLine) : Bool :=
  l.blank.isNull || l.quantity == 0 || decide (999 < l.quantity) || l.width == 0 || l.height == 0

/-- Whether a descriptor is LOADING, VERIFYING or READY, so that a posted line may name it (R35). -/
def State.artUsable (s : State) (h : Fin 64) : Bool :=
  match s.store.arts[h] with
  | none => false
  | some d => d.status != .bad

/-- R35 check 3 for one posted line: its placement where its art and overlay can be named. -/
def State.postPlacement (s : State) (l : PostLine) : Option Placement :=
  match PostLine.placement l with
  | none => none
  | some p => if s.artUsable p.art then some p else none

/-- The placements of all posted lines, or none if one cannot be named. -/
def State.postPlacements (s : State) : List PostLine → Option (List (PostLine × Placement))
  | [] => some []
  | l :: r =>
    match s.postPlacement l, s.postPlacements r with
    | some p, some ps => some ((l, p) :: ps)
    | _, _ => none

/-- R36 step 1: a line record filled from its posted line; quantity is at least 1, so it is OPEN. -/
def PostLine.record (order : Word) (l : PostLine) (p : Placement) : Line :=
  ⟨order, l.blank, l.quantity, 0, 0, 0, p, .opened⟩

/-- Posted lines written into the records taken for them. -/
def Book.fill (b : Book) (order : Word) : List (Fin 512) → List (PostLine × Placement) → Book
  | i :: is, (l, p) :: ls => (b.putLine i (some (PostLine.record order l p))).fill order is ls
  | _, _ => b

/-- R36: an accepted post: lines, order record, sequence, ORDER_STATE. -/
def State.postOrder (s : State) (number : Word) (priority : Nat) (lines : List (PostLine × Placement)) : State × Order :=
  let indices := s.book.freeLines.take lines.length
  let o : Order := ⟨number, priority, s.book.sequence, .opened, indices⟩
  let b := s.book.fill number indices lines
  let b := { b with orders := b.orders ++ [o], sequence := b.sequence + 1 }
  ((s.setBook b).raise o.notice, o)

end Sys2Proof.Machine
end

