-- ==== Sys2Proof/Machine/Raster.lean ====
section
/-! DEFINITION. The raster pipeline (chapter 5): field geometry, extents, the per-pixel stages A to F, the
presence value, drop levels, weights, and swath bytes (R180). -/

namespace Sys2Proof.Machine

/-! ### Geometry (R85 to R89) -/

/-- A rectangle of field pixels, all four edges inclusive. -/
structure Rect where
  left : Nat
  right : Nat
  top : Nat
  bottom : Nat
  deriving DecidableEq, Repr

def Rect.has (r : Rect) (x y : Nat) : Bool :=
  decide (r.left ≤ x ∧ x ≤ r.right ∧ r.top ≤ y ∧ y ≤ r.bottom)

def Rect.width (r : Rect) : Nat := r.right + 1 - r.left

/-- The smallest rectangle that contains two. -/
def Rect.union (a b : Rect) : Rect :=
  ⟨min a.left b.left, max a.right b.right, min a.top b.top, max a.bottom b.bottom⟩

/-- R86: the art footprint: the window clipped against the art, then against the field. -/
def artFootprint (p : Placement) (d : Art) : Option Rect :=
  if d.width ≤ p.col0 ∨ d.height ≤ p.row0 then none
  else
    let w := min (min p.width (d.width - p.col0)) (3200 - p.ox)
    let h := min (min p.height (d.height - p.row0)) (4000 - p.oy)
    if w = 0 ∨ h = 0 then none else some ⟨p.ox, p.ox + w - 1, p.oy, p.oy + h - 1⟩

/-- R88: the overlay footprint: 64 by 64 pixels from (vx, vy), clipped to the field. -/
def overlayFootprint (o : OverlayAt) : Option Rect :=
  let l := max o.vx 0
  let r := min (o.vx + 63) 3199
  let t := max o.vy 0
  let b := min (o.vy + 63) 3999
  if r < l ∨ b < t then none else some ⟨l.toNat, r.toNat, t.toNat, b.toNat⟩

/-- R89: the extent of a placement over its art. -/
def extentOf (p : Placement) (d : Option Art) : Option Rect :=
  match d.bind (artFootprint p), p.overlay.bind overlayFootprint with
  | none, none => none
  | some a, none => some a
  | none, some b => some b
  | some a, some b => some (a.union b)

def State.art (s : State) (h : Fin 64) : Option Art := s.store.arts[h]

/-- The extent of a placement as the Art Store stands. -/
def State.extent (s : State) (p : Placement) : Option Rect := extentOf p (s.art p.art)

/-! ### What a unit reads (R90) -/

/-- The inputs of a pixel: latched recipe and placement, the art they name with its palette, the overlay,
and the art memory. -/
structure PixelInputs where
  recipe : Recipe
  placement : Placement
  art : Option Art
  palette : Vector Ink 256
  overlay : Option (OverlayAt × Overlay)
  mem : Memory
  deriving DecidableEq, Repr

def State.pixelInputs (s : State) (r : Recipe) (p : Placement) : PixelInputs where
  recipe := r
  placement := p
  art := s.art p.art
  palette :=
    match s.art p.art with
    | none => Vector.replicate 256 ⟨0, 0, 0, 0, 0⟩
    | some d => s.store.palettes[d.palette]
  overlay := p.overlay.map fun o => (o, s.store.overlays[o.index])
  mem := s.mem

def PixelInputs.extent (e : PixelInputs) : Option Rect := extentOf e.placement e.art

/-! ### Stage A: fetch and overlay (R87, R92, R93) -/

def Ink.zero : Ink := ⟨0, 0, 0, 0, 0⟩

/-- An entry of the palette, by an index that the format keeps below 256. -/
def PixelInputs.entry (e : PixelInputs) (i : Nat) : Ink := e.palette.toList.getD i Ink.zero

/-- R87: the art pixel at a column and row. -/
def PixelInputs.artPixel (e : PixelInputs) (d : Art) (col row : Nat) : Ink :=
  let a := d.base + row * d.stride + d.format.columnByte col
  match d.format with
  | .idx4 =>
    let b := (e.mem.read a).toNat
    e.entry (if col % 2 = 0 then b / 16 else b % 16)
  | .idx8 => e.entry (e.mem.read a).toNat
  | .cmyka =>
    ⟨(e.mem.read a).toNat, (e.mem.read (a + 1)).toNat, (e.mem.read (a + 2)).toNat, (e.mem.read (a + 3)).toNat,
     (e.mem.read (a + 4)).toNat⟩

/-- R92: the fetched value of a field pixel. -/
def PixelInputs.fetch (e : PixelInputs) (x y : Nat) : Ink :=
  match e.art with
  | none => Ink.zero
  | some d =>
    match artFootprint e.placement d with
    | none => Ink.zero
    | some r =>
      if r.has x y then e.artPixel d (e.placement.col0 + (x - e.placement.ox)) (e.placement.row0 + (y - e.placement.oy))
      else Ink.zero

/-- The overlay code at a column and row (R79). -/
def Overlay.code (o : Overlay) (col row : Nat) : OverlayCode :=
  match o.codes.toList[row]? with
  | none => .transparent
  | some r => r.toList.getD col .transparent

/-- R93: the overlay applied to a fetched value. -/
def PixelInputs.stageA (e : PixelInputs) (x y : Nat) : Ink :=
  let f := e.fetch x y
  match e.overlay with
  | none => f
  | some (at_, o) =>
    match overlayFootprint at_ with
    | none => f
    | some r =>
      if r.has x y then
        match o.code ((x : Int) - at_.vx).toNat ((y : Int) - at_.vy).toNat with
        | .transparent => f
        | .colourA => ⟨o.a.c, o.a.m, o.a.y, o.a.k, 255⟩
        | .colourB => ⟨o.b.c, o.b.m, o.b.y, o.b.k, 255⟩
        | .knockout => Ink.zero
      else f

/-! ### Stages B to D -/

/-- R94: a value scaled by coverage, to the nearest. -/
def premultiply (x a : Nat) : Nat := (x * a + 127) / 255

/-- R94. -/
def stageB (i : Ink) : Ink :=
  ⟨premultiply i.c i.a, premultiply i.m i.a, premultiply i.y i.a, premultiply i.k i.a, i.a⟩

/-- R95: the ink limit. -/
def stageC (limit : Nat) (i : Ink) : Ink :=
  let t := i.c + i.m + i.y + i.k
  if t ≤ limit then i else ⟨i.c * limit / t, i.m * limit / t, i.y * limit / t, i.k * limit / t, i.a⟩

/-- R96: the underbase before the choke. -/
def stageD (r : Recipe) (i : Ink) : Nat :=
  if r.dark then premultiply i.a r.underbase - i.k * r.knockout / 255 else 0

/-- The pixel after the ink limit. -/
def PixelInputs.limited (e : PixelInputs) (x y : Nat) : Ink := stageC e.recipe.inkLimit (stageB (e.stageA x y))

/-! ### Stage E: choke (R97) -/

/-- w1 at a field position; 0 outside the extent. -/
def PixelInputs.w1 (e : PixelInputs) (x y : Int) : Nat :=
  match e.extent with
  | none => 0
  | some r =>
    if 0 ≤ x ∧ 0 ≤ y ∧ r.has x.toNat y.toNat = true then stageD e.recipe (e.limited x.toNat y.toNat) else 0

/-- The least of a list of numbers, and of one more. -/
def least (n : Nat) (l : List Nat) : Nat := l.foldl min n

/-- R97: w, the least w1 over the square of side 2r + 1 centred on the pixel. -/
def PixelInputs.w (e : PixelInputs) (x y : Nat) : Nat :=
  let r := e.recipe.choke
  let side := List.range (2 * r + 1)
  least (e.w1 x y)
    (side.flatMap fun j => side.map fun i => e.w1 ((x : Int) + i - r) ((y : Int) + j - r))

/-- R100: the presence value of a pixel of the extent. -/
def PixelInputs.presence (e : PixelInputs) (x y : Nat) : Nat :=
  let i := e.limited x y
  max (e.w x y) (max i.c (max i.m (max i.y i.k)))

/-! ### Stage F: quantize (R98) and weights (R99) -/

/-- R98's matrix of b, by y mod 4 and x mod 4. -/
def ditherIndex (x y : Nat) : Nat :=
  ([0, 8, 2, 10, 12, 4, 14, 6, 3, 11, 1, 9, 15, 7, 13, 5] : List Nat).getD (4 * (y % 4) + x % 4) 0

/-- R98's threshold. -/
def ditherThreshold (b : Nat) : Nat := (2 * b + 1) * 255 / 32

/-- R98: the drop level of a value at a field pixel. -/
def dropLevel (v x y : Nat) : Nat :=
  let n := 3 * v
  let base := n / 255
  let rem := n - 255 * base
  if base = 3 then 3 else if ditherThreshold (ditherIndex x y) < rem then base + 1 else base

/-- R99: the weight of a drop level. -/
def dropWeight : Nat → Nat
  | 0 => 0
  | 1 => 1
  | 2 => 2
  | _ => 4

/-! ### Swaths (R121, R180) -/

/-- What a swath covers: phase, rows and columns. -/
structure SwathShape where
  phase : SwathPhase
  rowStart : Nat
  rows : Nat
  xStart : Nat
  width : Nat
  deriving DecidableEq, Repr

/-- Bytes of one plane row (R180). -/
def SwathShape.rowBytes (g : SwathShape) : Nat := ceilDiv g.width 4

def SwathPhase.planes : SwathPhase → Nat
  | .underbase => 1
  | .color => 4

/-- R121: the length of a swath in bytes. -/
def SwathShape.length (g : SwathShape) : Nat := g.phase.planes * (g.rows * g.rowBytes)

/-- The value that a plane carries at a pixel (R98). -/
def PixelInputs.planeValue (e : PixelInputs) (phase : SwathPhase) (plane x y : Nat) : Nat :=
  match phase with
  | .underbase => e.w x y
  | .color =>
    let i := e.limited x y
    match plane with
    | 0 => i.c
    | 1 => i.m
    | 2 => i.y
    | _ => i.k

/-- The drop level of a plane at a pixel of the swath's rows; 0 right of the extent (R180). -/
def PixelInputs.level (e : PixelInputs) (g : SwathShape) (plane x y : Nat) : Nat :=
  if x < g.xStart + g.width then dropLevel (e.planeValue g.phase plane x y) x y else 0

/-- R180: the swath's byte at an offset. -/
def PixelInputs.swathByte (e : PixelInputs) (g : SwathShape) (offset : Nat) : Byte :=
  let b := g.rowBytes
  let plane := offset / (g.rows * b)
  let y := g.rowStart + offset % (g.rows * b) / b
  let x := g.xStart + 4 * (offset % (g.rows * b) % b)
  BitVec.ofNat 8 (64 * e.level g plane x y + 16 * e.level g plane (x + 1) y + 4 * e.level g plane (x + 2) y +
    e.level g plane (x + 3) y)

/-- A sum over rows and columns. -/
def sumOver (x0 w y0 h : Nat) (f : Nat → Nat → Nat) : Nat :=
  (List.range h).foldl (fun acc j => (List.range w).foldl (fun acc i => acc + f (x0 + i) (y0 + j)) acc) 0

/-- R99: the weights a swath adds in one plane. -/
def PixelInputs.weights (e : PixelInputs) (g : SwathShape) (plane : Nat) : Nat :=
  sumOver g.xStart g.width g.rowStart g.rows fun x y => dropWeight (e.level g plane x y)

/-- R99's limit of a tally. -/
def tallyLimit : Nat := 4294967295

/-- R99: a swath's weights added to the tallies of the planes its phase carries. -/
def Tallies.addSwath (t : Tallies) (e : PixelInputs) (g : SwathShape) : Tallies :=
  match g.phase with
  | .underbase => { t with w := satAdd tallyLimit t.w (e.weights g 0) }
  | .color =>
    { t with
      c := satAdd tallyLimit t.c (e.weights g 0)
      m := satAdd tallyLimit t.m (e.weights g 1)
      y := satAdd tallyLimit t.y (e.weights g 2)
      k := satAdd tallyLimit t.k (e.weights g 3) }

/-- A garment's swath row indices, first and last, from its extent (R121). -/
def Rect.swathIndices (r : Rect) : Nat × Nat := (r.top / 256, r.bottom / 256)

/-- The number n of its swath row indices (R121). -/
def Rect.indexCount (r : Rect) : Nat := r.bottom / 256 - r.top / 256 + 1

/-- R121: the swath count: 2n on a dark recipe, n on a light one, 0 for an empty extent. -/
def swathCount (dark : Bool) (r : Option Rect) : Nat :=
  match r with
  | none => 0
  | some r => if dark then 2 * r.indexCount else r.indexCount

/-- R121: the phase and swath row index of a sequence number. -/
def swathOf (dark : Bool) (r : Rect) (q : Nat) : SwathPhase × Nat :=
  let first := r.top / 256
  if dark then
    if q < r.indexCount then (.underbase, first + q) else (.color, first + q - r.indexCount)
  else (.color, first + q)

/-- R121: the shape of the swath of a phase and swath row index. -/
def swathShape (r : Rect) (phase : SwathPhase) (index : Nat) : SwathShape :=
  let top := max (256 * index) r.top
  let bottom := min (256 * index + 255) r.bottom
  ⟨phase, top, bottom + 1 - top, r.left, r.width⟩

/-! ### Doses (R104) -/

/-- A cell's full pixel count. -/
def cellPixels (band : Nat) : Nat := if band = 62 then 12800 else 25600

/-- R104 step 1: the sum of presence over the cell's pixels within the extent. -/
def PixelInputs.cellSum (e : PixelInputs) (r : Rect) (zone band : Nat) : Nat :=
  let x0 := max (400 * zone) r.left
  let x1 := min (400 * zone + 400) (r.right + 1)
  let y0 := max (64 * band) r.top
  let y1 := min (64 * band + 64) (r.bottom + 1)
  sumOver x0 (x1 - x0) y0 (y1 - y0) e.presence

/-- R104 steps 3 and 4: a cell's planned pulses from its coverage. -/
def plannedPulses (r : Recipe) (cov : Nat) : Nat := if cov < r.covMin then 0 else (r.dose * cov + 127) / 255

/-- R104: the planned pulses of a band's eight cells. -/
def PixelInputs.bandDoses (e : PixelInputs) (band : Nat) : Vector Nat 8 :=
  match e.extent with
  | none => Vector.replicate 8 0
  | some r => Vector.ofFn fun z : Fin 8 => plannedPulses e.recipe (e.cellSum r z.val band / cellPixels band)

/-! ### Blocks a unit reads and writes (R87, R91, R126; log 9) -/

/-- The 64-byte blocks that a byte range touches, in rising order. -/
def blocksOf (first stop : Nat) : List Nat :=
  if stop ≤ first then []
  else (List.range ((stop - 1) / 64 - first / 64 + 1)).map fun i => 64 * (first / 64 + i)

/-- The blocks that a swath at an address occupies (R126), each with the first field row that is not finished
without it: while a plane before the last is still to be written that is the swath's first row (R180). -/
def SwathShape.blocks (g : SwathShape) (base : Nat) : List (Nat × Nat) :=
  (blocksOf base (base + g.length)).map fun b =>
    (g.rowStart + (b - base - (g.phase.planes - 1) * (g.rows * g.rowBytes)) / g.rowBytes, b)

/-- The art blocks of one field row, each with the row. -/
def rowBlocks (p : Placement) (d : Art) (r : Rect) (y : Nat) : List (Nat × Nat) :=
  if r.top ≤ y ∧ y ≤ r.bottom then
    let row := d.base + (p.row0 + (y - p.oy)) * d.stride
    let first := row + d.format.columnByte p.col0
    let stop := row + d.format.columnByte (p.col0 + (r.right - r.left)) + d.format.pixelBytes
    (blocksOf first stop).map fun b => (y, b)
  else []

/-- The art reads of a unit: its own rows and, on either side, the rows the choke needs that lie in the
extent (R91), row by row. -/
def PixelInputs.unitReads (e : PixelInputs) (ext : Rect) (first last : Nat) : List (Nat × Nat) :=
  match e.art with
  | none => []
  | some d =>
    match artFootprint e.placement d with
    | none => []
    | some r =>
      let top := max (first - e.recipe.choke) ext.top
      let bottom := min (last + e.recipe.choke) ext.bottom
      (List.range (bottom + 1 - top)).flatMap fun j => rowBlocks e.placement d r (top + j)

/-- R101: the next row to be finished, from the reads and the writes that are left (log 9): a row is finished once
the art of every row down to the choke radius below it has been read and the swath's bytes of it are written. -/
def nextRow (first last choke : Nat) (reads writes : List (Nat × Nat)) : Nat :=
  let read :=
    match reads with
    | [] => last + 1
    | (row, _) :: _ => row - choke
  let written :=
    match writes with
    | [] => last + 1
    | (row, _) :: _ => row
  max first (min (min read written) (last + 1))

end Sys2Proof.Machine
end

