-- ==== Sys2Proof/Machine/Match.lean ====
section
/-! DEFINITION. The Match Unit (chapter 3): serials, lookup, match, binding, the rematch signal, and the
garment commands. -/

namespace Sys2Proof.Machine

/-! ### Serials (R49) -/

/-- The serials that garment records and shelf contexts hold. -/
def State.heldSerials (s : State) : List Word :=
  s.units.garments.toList.filterMap (fun g => g.map Garment.serial) ++
  s.shelf.slots.toList.filterMap (fun x => x.map fun x => x.context.serial)

/-- R49: the first value from the counter on that is not passed over; at most 25 are. -/
def allocFrom (held : List Word) : Nat → Word → Word
  | 0, c => c
  | n + 1, c => if c = 0 ∨ c ∈ held then allocFrom held n (c + 1) else c

/-- R49: the serial allocated now. -/
def State.freshSerial (s : State) : Word := allocFrom s.heldSerials 25 s.units.serial

/-- R49: the counter left one above the serial allocated. -/
def State.takeSerial (s : State) : State := s.setUnits { s.units with serial := s.freshSerial + 1 }

/-! ### Garment records -/

def DoseMap.zero : DoseMap := Vector.replicate 63 (Vector.replicate 8 0)

def PretreatRecord.fresh : PretreatRecord := ⟨.none, DoseMap.zero, 0, 0, 0, .pending⟩

def PrintRecord.fresh : PrintRecord := ⟨.none, 0, 0, 0, 0, 0, ⟨0, 0, 0, 0, 0⟩⟩

def CureRecord.fresh : CureRecord := ⟨0, 0, 0, none, 0, false, .none⟩

/-- R48: the record as GARMENT_LOAD creates it. -/
def Garment.fresh (serial : Word) (blank : BlankCode) : Garment where
  serial := serial
  blank := blank
  cls := none
  binding := none
  stage := .loaded
  hold := none
  disposition := .good
  orphan := false
  restored := false
  pretreat := .fresh
  press := .pending
  print := .fresh
  cure := .fresh

/-- The GARMENT_DONE notice of a garment as it stands (R63). -/
def Garment.doneNotice (g : Garment) (p : Fin 16) (outcome : GarmentOutcome) : Notice :=
  .garmentDone p g.serial (g.binding.map fun b => (b.order, b.line)) outcome g.disposition g.orphan g.restored
    g.pretreat.result g.pretreat.shortfall g.press g.print.phase g.cure.result g.cure.credit

/-! ### Coverage jobs (R53, R102, R105) -/

/-- How a latched recipe and placement settle the pretreat path (R53, R102): pretreat record, press record,
and the cursor of the coverage job, where one is appended. -/
def State.settledPretreat (s : State) (r : Recipe) (p : Placement) : PretreatRecord × PressRecord × Option Nat :=
  if r.pretreat then
    match s.extent p with
    | none => ({ PretreatRecord.fresh with coverage := .complete }, .pending, none)
    | some e => ({ PretreatRecord.fresh with coverage := .queued }, .pending, some (e.top / 64))
  else ({ PretreatRecord.fresh with result := .waived }, .waived, none)

/-- R102: a coverage job appended at the tail. -/
def State.appendJob (s : State) (p : Fin 16) (serial : Word) (cursor : Option Nat) : State :=
  match cursor with
  | none => s
  | some c => s.setEngine { s.engine with jobs := s.engine.jobs ++ [⟨p, serial, c⟩] }

/-- Whether a unit is a band unit of a garment's coverage job. -/
def RasterUnit.isBandOf (u : RasterUnit) (p : Fin 16) (serial : Word) : Bool :=
  match u.kind with
  | .band _ => u.platen == p && u.serial == serial
  | .swath _ _ _ _ => false

/-- R105: the coverage job of a garment that is being removed is withdrawn; a band unit of it that is running
has its results discarded (R101). -/
def State.withdrawJob (s : State) (p : Fin 16) (g : Garment) : State :=
  if g.pretreat.coverage = .queued ∨ g.pretreat.coverage = .scanning then
    s.setEngine
      { jobs := s.engine.jobs.filter fun j => !(j.platen == p && j.serial == g.serial)
        unit := s.engine.unit.map fun u => if u.isBandOf p g.serial then { u with discarded := true } else u }
  else s

/-! ### Choosing a line (R52) -/

/-- R52's conditions 1 to 4 for a line of an order. -/
def State.isCandidate (s : State) (blank : BlankCode) (o : Order) (i : Fin 512) : Bool :=
  match s.book.lines[i] with
  | none => false
  | some l =>
    l.status == .opened && o.status == .opened && l.order == o.number && l.blank == blank &&
    ((s.art l.placement.art).map Art.status == some .ready)

/-- A candidate line: its order, its position there and its index. -/
structure Candidate where
  order : Order
  position : Nat
  line : Fin 512
  deriving DecidableEq, Repr

/-- The candidates for a blank. -/
def State.candidates (s : State) (blank : BlankCode) : List Candidate :=
  s.book.orders.flatMap fun o =>
    o.lines.zipIdx.filterMap fun x => if s.isCandidate blank o x.1 then some ⟨o, x.2, x.1⟩ else none

/-- R52's comparison: `a` is chosen before `b`. -/
def Candidate.before (a b : Candidate) : Bool :=
  if a.order.priority ≠ b.order.priority then decide (b.order.priority < a.order.priority)
  else if a.order.sequence ≠ b.order.sequence then decide (a.order.sequence < b.order.sequence)
  else if a.order.number ≠ b.order.number then decide (a.order.number < b.order.number)
  else decide (a.position < b.position)

/-- The candidate that R52's comparison puts first. -/
def chooseCandidate : List Candidate → Option Candidate
  | [] => none
  | c :: cs =>
    match chooseCandidate cs with
    | none => some c
    | some d => if d.before c then some d else some c

/-! ### Binding, match and lookup (R51 to R54) -/

/-- R53: a garment of class `c` bound to a line whose reservation has been granted. -/
def State.bind (s : State) (p : Fin 16) (g : Garment) (c : Fin 16) (x : Candidate) (l : Line) : State :=
  let recipe := s.book.recipes[c]
  let (pretreat, press, cursor) := s.settledPretreat recipe l.placement
  let g : Garment :=
    { g with
      binding := some ⟨x.order.number, x.line, recipe, l.placement⟩
      hold := none
      stage := .matched
      pretreat := pretreat
      press := press }
  ((s.putGarment p (some g)).appendJob p g.serial cursor).raise
    (.garmentMatched p g.serial x.order.number x.position x.line c (!recipe.pretreat))

/-- R52, R56: the reservation and the binding in one step; none where the reservation is refused. -/
def State.reserveAndBind (s : State) (p : Fin 16) (g : Garment) (c : Fin 16) (x : Candidate) : Option State :=
  match s.book.lines[x.line], s.reserve x.line with
  | some l, some t => some (t.bind p g c x l)
  | _, _ => none

/-- R54: no candidate: held for NO_LINE, with a notice where the reason changes. -/
def State.holdNoLine (s : State) (p : Fin 16) (g : Garment) : State :=
  if g.hold = some .noLine then s
  else
    (s.putGarment p (some { g with hold := some .noLine })).raise (.garmentHeld p g.serial g.blank g.cls .noLine)

/-- R52, R54: a match attempt for the garment on a platen. -/
def State.matchAttempt (s : State) (p : Fin 16) : State :=
  match s.garment p with
  | none => s
  | some g =>
    match g.cls with
    | none => s
    | some c =>
      match chooseCandidate (s.candidates g.blank) with
      | none => s.holdNoLine p g
      | some x =>
        match s.reserveAndBind p g c x with
        | none => s.holdNoLine p g
        | some t => t

/-- R51: the blank lookup of the garment on a platen, and the match attempt where the blank is found. -/
def State.lookup (s : State) (p : Fin 16) : State :=
  match s.garment p with
  | none => s
  | some g =>
    match s.book.classOf g.blank with
    | some c => (s.putGarment p (some { g with cls := some c })).matchAttempt p
    | none =>
      let t := s.putGarment p (some { g with cls := none, hold := some .unknownBlank })
      if g.hold = some .unknownBlank then t
      else t.raise (.garmentHeld p g.serial g.blank none .unknownBlank)

/-- The causes of the rematch signal that R55 treats differently. -/
inductive RematchCause where
  | catalogueWrite | other
  deriving DecidableEq, Repr

/-- R55: the rematch signal. -/
def State.rematch (s : State) (cause : RematchCause) : State :=
  match s.garmentAt 0 with
  | none => s
  | some (p, g) =>
    if g.stage ≠ .loaded then s
    else
      match cause with
      | .catalogueWrite => s.lookup p
      | .other => if g.hold = some .noLine then s.matchAttempt p else s

/-- The rematch signal where it is raised, taken at the end of the step that raises it (log 11). -/
def State.rematchIf (s : State) (raised : Bool) : State := if raised then s.rematch .other else s

/-! ### GARMENT_LOAD and GARMENT_ASSIGN (R50, R56) -/

/-- R50's reply: serial, stage, and the binding or the hold reason. -/
def State.loadReply (s : State) (p : Fin 16) : List Field :=
  match s.garment p with
  | none => []
  | some g =>
    [.word g.serial, .u8 g.stage.code] ++
    optional 7 (g.binding.map fun b => [.word b.order, .u8 (s.book.position b.order b.line), .u16 b.line.val]) ++
    optional 1 (g.hold.map fun h => [.u8 h.code])

/-- R50: GARMENT_LOAD's checks and effect. -/
def State.garmentLoad (platen : Nat) (blank : BlankCode) (s : State) : Taken :=
  match inRange 16 platen with
  | none => s.refuse .range
  | some p =>
    if blank.isNull then s.refuse .malformed
    else if s.track.line = .census then s.refuse .state
    else if s.place p ≠ .station 0 then s.refuse .wrongPlaten
    else if (s.garment p).isSome then s.refuse .state
    else
      let t := (s.takeSerial.putGarment p (some (Garment.fresh s.freshSerial blank))).lookup p
      t.accept (t.loadReply p)

/-- GARMENT_LOAD (R50). -/
def execGarmentLoad (v : Via) (platen : Nat) (blank : BlankCode) (s : State) : Host.Outcome State Fault Refusal :=
  request v 0x21 (.garmentLoad v platen blank) (State.garmentLoad platen blank) s

/-- R56: the checks on the waiting garment, numbers 1 to 3. DESIGN CHOICE (log 30): they come before the order is looked up
after a line reset too, where R171's example has UNKNOWN for a request that they refuse WRONG_PLATEN or STATE. -/
def State.assignable (s : State) (platen : Nat) : Except ResultCode (Fin 16 × Garment × Fin 16) :=
  match inRange 16 platen with
  | none => .error .range
  | some p =>
    if s.place p ≠ .station 0 then .error .wrongPlaten
    else
      match s.garment p with
      | none => .error .state
      | some g =>
        if g.stage ≠ .loaded ∨ g.hold = some .unknownBlank then .error .state
        else
          match g.cls with
          | none => .error .state
          | some c => .ok (p, g, c)

/-- R56: GARMENT_ASSIGN's checks and effect. -/
def State.garmentAssign (platen : Nat) (order : Word) (position : Nat) (s : State) : Taken :=
  match s.assignable platen with
  | .error c => s.refuse c
  | .ok (p, g, c) =>
    match s.book.find order with
    | none => s.refuse .unknown
    | some o =>
      match o.lines[position]? with
      | none => s.refuse .unknown
      | some i =>
        if s.isCandidate g.blank o i = false then s.refuse .state
        else
          match s.reserveAndBind p g c ⟨o, position, i⟩ with
          | none => s.refuse .state
          | some t => t.accept [.word g.serial, .u16 i.val]

/-- GARMENT_ASSIGN (R56). -/
def execGarmentAssign (v : Via) (platen : Nat) (order : Word) (position : Nat) (s : State) :
    Host.Outcome State Fault Refusal :=
  request v 0x22 (.garmentAssign v platen order position) (State.garmentAssign platen order position) s

/-! ### LOAD_CLEAR and the unload station (R59 to R63) -/

/-- A binding's counter request, where there is a binding. -/
def State.countBinding (s : State) (c : Counter) (g : Garment) : State × Bool :=
  match g.binding with
  | none => (s, false)
  | some b => s.count c b.line

/-- R59: LOAD_CLEAR's checks and effect. -/
def State.loadClear (platen : Nat) (s : State) : Taken :=
  match inRange 16 platen with
  | none => s.refuse .range
  | some p =>
    if s.place p ≠ .station 0 then s.refuse .wrongPlaten
    else
      match s.garment p with
      | none => s.refuse .state
      | some g =>
        let (t, reopened) := s.countBinding .release g
        let t := ((t.withdrawJob p g).putGarment p none).raise (g.doneNotice p .cleared)
        (t.rematchIf reopened).accept [.word g.serial]

/-- LOAD_CLEAR (R59). -/
def execLoadClear (v : Via) (platen : Nat) (s : State) : Host.Outcome State Fault Refusal :=
  request v 0x23 (.loadClear v platen) (State.loadClear platen) s

/-- R60: the checks the unload requests share. -/
def State.unloadable (s : State) (platen : Nat) : Except ResultCode (Fin 16 × Garment) :=
  match inRange 16 platen with
  | none => .error .range
  | some p =>
    if s.place p ≠ .station 5 then .error .wrongPlaten
    else
      match s.garment p with
      | none => .error .state
      | some g => if g.stage = .released ∨ g.disposition = .reject then .ok (p, g) else .error .state

/-- R63: the ending of an unload whose counter request has been applied. -/
def State.endUnload (s : State) (p : Fin 16) (g : Garment) (outcome : GarmentOutcome) : State :=
  (s.raise (g.doneNotice p outcome)).putGarment p none

/-- R61: UNLOAD_GOOD's checks and effect. -/
def State.unloadGood (platen : Nat) (s : State) : Taken :=
  match s.unloadable platen with
  | .error c => s.refuse c
  | .ok (p, g) =>
    if g.stage ≠ .released ∨ g.disposition ≠ .good then s.refuse .state
    else
      let (t, _) := s.countBinding .done g
      (t.endUnload p g .good).accept [.word g.serial]

/-- UNLOAD_GOOD (R61). -/
def execUnloadGood (v : Via) (platen : Nat) (s : State) : Host.Outcome State Fault Refusal :=
  request v 0x24 (.unloadGood v platen) (State.unloadGood platen) s

/-- R62: UNLOAD_SPOIL's checks and effect. -/
def State.unloadSpoil (platen : Nat) (s : State) : Taken :=
  match s.unloadable platen with
  | .error c => s.refuse c
  | .ok (p, g) =>
    let (t, reopened) := s.countBinding .spoil g
    ((t.endUnload p g .spoiled).rematchIf reopened).accept [.word g.serial]

/-- UNLOAD_SPOIL (R62). -/
def execUnloadSpoil (v : Via) (platen : Nat) (s : State) : Host.Outcome State Fault Refusal :=
  request v 0x25 (.unloadSpoil v platen) (State.unloadSpoil platen) s

end Sys2Proof.Machine
end

