-- ==== Sys2Proof/Machine/Art.lean ====
section
/-! DEFINITION. The Art Store (chapter 4): descriptors, link art writes, seals and the verifier, palettes and
overlays. -/

namespace Sys2Proof.Machine

def State.putArt (s : State) (h : Fin 64) (d : Option Art) : State :=
  s.setStore { s.store with arts := upd s.store.arts h d }

/-- The ART_STATE notice of a descriptor (R82). -/
def Art.notice (d : Art) (h : Fin 64) : Notice := .artState h d.status.state d.expected d.computed

/-! ### ART_OPEN (R69, R70) -/

/-- The last byte of the art area plus one (R67). -/
def artAreaStop : Nat := ringBase

/-- R69 check 2. -/
def artInRange (f : ArtFormat) (palette width height stride base : Nat) : Bool :=
  decide (1 ≤ width ∧ width ≤ 8192 ∧ 1 ≤ height ∧ height ≤ 8192 ∧ (f = .cmyka ∨ palette < 8) ∧ base % 16 = 0 ∧
    f.rowBytes width ≤ stride ∧ stride ≤ 65535 ∧ base + stride * height ≤ artAreaStop)

/-- R69 check 4: some descriptor that is not FREE shares a byte with a range. -/
def State.artOverlaps (s : State) (first stop : Nat) : Bool :=
  s.store.arts.toList.any fun d =>
    match d with
    | none => false
    | some d => rangesShare first stop d.base d.stop

/-- The lowest-numbered FREE descriptor (R70). -/
def State.freeArt (s : State) : Option (Fin 64) := (List.finRange 64).find? fun h => s.store.arts[h].isNone

/-- R69, R70: ART_OPEN's checks and effect. -/
def State.artOpen (format palette width height stride base : Nat) (crc : Word) (s : State) : Taken :=
  match ArtFormat.ofCode format with
  | none => s.refuse .malformed
  | some f =>
    if artInRange f palette width height stride base = false then s.refuse .range
    else
      match s.freeArt with
      | none => s.refuse .full
      | some h =>
        let palette : Fin 8 :=
          match f, inRange 8 palette with
          | .cmyka, _ => 0
          | _, none => 0
          | _, some p => p
        let d : Art := ⟨.loading, f, palette, width, height, stride, base, crc, none, 0⟩
        if s.artOverlaps d.base d.stop then s.refuse .overlap
        else ((s.putArt h (some d)).raise (d.notice h)).accept [.u8 h.val, .u32 (d.stop - 1)]

/-- ART_OPEN (R69, R70). -/
def execArtOpen (v : Via) (format palette width height stride base : Nat) (crc : Word) (s : State) :
    Host.Outcome State Fault Refusal :=
  request v 0x0C (.artOpen v format palette width height stride base crc)
    (State.artOpen format palette width height stride base crc) s

/-! ### ART_WRITE (R71) -/

/-- R71: ART_WRITE's checks. An accepted write begins; its reply waits for its last burst. -/
def State.artWrite (link : Link) (handle offset : Nat) (data : List Byte) (s : State) : Taken :=
  match inRange 64 handle with
  | none => s.refuse .range
  | some h =>
    if data.length = 0 ∨ 480 < data.length then s.refuse .malformed
    else
      match s.art h with
      | none => s.refuse .state
      | some d =>
        if d.status ≠ .loading then s.refuse .state
        else if d.stride * d.height < offset + data.length then s.refuse .range
        else (s.setStore { s.store with write := some ⟨link, d.base + offset, data⟩ }, none)

/-- ART_WRITE (R71). -/
def execArtWrite (v : Via) (handle offset : Nat) (data : List Byte) (s : State) : Host.Outcome State Fault Refusal :=
  request v 0x0D (.artWrite v handle offset data) (State.artWrite v.link handle offset data) s

/-- R71: the last burst of a write has completed: the write is over and its reply is ready. -/
def State.artWriteComplete (s : State) : State :=
  match s.store.write with
  | some ⟨link, _, []⟩ => (s.setStore { s.store with write := none }).answer link ⟨.ok, []⟩
  | _ => s

/-- ART_WRITE_COMPLETE (R71). -/
def execArtWriteComplete (s : State) : Host.Outcome State Fault Refusal := event State.artWriteComplete s

/-! ### ART_SEAL and the verifier (R72 to R75) -/

/-- R72: ART_SEAL's checks and effect. -/
def State.artSeal (handle : Nat) (crc : Option Word) (s : State) : Taken :=
  match inRange 64 handle with
  | none => s.refuse .range
  | some h =>
    match s.art h with
    | none => s.refuse .state
    | some d =>
      if d.status ≠ .loading then s.refuse .state
      else
        let d := { d with expected := crc.getD d.expected, status := .verifying }
        let t := s.putArt h (some d)
        ((t.setStore { t.store with verifyQueue := t.store.verifyQueue ++ [h] }).raise (d.notice h)).accept []

/-- ART_SEAL (R72). -/
def execArtSeal (v : Via) (handle : Nat) (crc : Option Word) (s : State) : Host.Outcome State Fault Refusal :=
  request v 0x0E (.artSeal v handle crc) (State.artSeal handle crc) s

/-- R73: the verifier, idle, starts a pass on the head of the queue. -/
def State.passStart (s : State) : State :=
  match s.store.verify, s.store.verifyQueue with
  | none, h :: _ =>
    match s.art h with
    | none => s
    | some d =>
      let t := s.putArt h (some { d with rowsChecked := 0 })
      t.setStore { t.store with verify := some ⟨0, 0, crc32Start⟩ }
  | _, _ => s

/-- VERIFY_PASS_START (R73). -/
def execVerifyPassStart (s : State) : Host.Outcome State Fault Refusal := event State.passStart s

/-- R75: the last byte of the last row has been fed in: the pass ends. R68's table gives rows checked as 0 when the
pass is not running, R75 as the height at the pass's end; the descriptor keeps the height (DESIGN CHOICE, log 28). -/
def State.passEnd (s : State) : State :=
  match s.store.verify, s.store.verifyQueue with
  | some pass, h :: rest =>
    match s.art h with
    | none => s
    | some d =>
      if pass.row < d.height then s
      else
        let computed := crc32Result pass.crc
        let good := computed == d.expected
        let d := { d with computed := some computed, rowsChecked := d.height, status := if good then .ready else .bad }
        let t := s.putArt h (some d)
        ((t.setStore { t.store with verify := none, verifyQueue := rest }).raise (d.notice h)).rematchIf good
  | _, _ => s

/-- VERIFY_PASS_END (R75). -/
def execVerifyPassEnd (s : State) : Host.Outcome State Fault Refusal := event State.passEnd s

/-! ### ART_FREE (R77) -/

/-- The granted burst of a requester, where it has one fate, given another. -/
def Arbiter.mark (a : Arbiter) (r : Requester) (old new : Fate) : Arbiter :=
  { a with port := a.port.map fun g => if g.requester = r ∧ g.fate = old then { g with fate := new } else g }

/-- R81: the granted burst of a requester whose work is abandoned completes, but nothing follows from it. -/
def Arbiter.drop (a : Arbiter) (r : Requester) (fate : Fate) : Arbiter := a.mark r .live fate

/-- R77: a handle leaves the verification queue; a pass running on it is abandoned. -/
def State.leaveQueue (s : State) (h : Fin 64) : State :=
  let queue := s.store.verifyQueue.filter fun x => x != h
  if s.store.verify.isSome ∧ s.store.verifyQueue.head? = some h then
    (s.setStore { s.store with verifyQueue := queue, verify := none }).setArbiter (s.arbiter.drop .verify .dropped)
  else s.setStore { s.store with verifyQueue := queue }

/-- R77: ART_FREE's checks and effect. -/
def State.artFree (handle : Nat) (s : State) : Taken :=
  match inRange 64 handle with
  | none => s.refuse .range
  | some h =>
    match s.art h with
    | none => s.refuse .state
    | some d =>
      if 0 < s.book.pins h then s.refuse .inUse
      else (((s.leaveQueue h).putArt h none).raise (.artState h .free d.expected d.computed)).accept []

/-- ART_FREE (R77). -/
def execArtFree (v : Via) (handle : Nat) (s : State) : Host.Outcome State Fault Refusal :=
  request v 0x0F (.artFree v handle) (State.artFree handle) s

/-! ### Palettes (R78) -/

/-- A table with a run of entries replaced from one on. -/
def putRun {α : Type} {n : Nat} (v : Vector α n) (first : Nat) (run : List α) : Vector α n :=
  Vector.ofFn fun i : Fin n => if first ≤ i.val then run.getD (i.val - first) v[i] else v[i]

/-- R78 check 4: a pinned indexed descriptor uses the palette. -/
def State.paletteInUse (s : State) (p : Fin 8) : Bool :=
  (List.finRange 64).any fun h =>
    match s.art h with
    | none => false
    | some d => d.format != .cmyka && d.palette == p && decide (0 < s.book.pins h)

/-- R78 checks 1 to 3, which PALETTE_GET shares. -/
def paletteRun (palette first count : Nat) : Except ResultCode (Fin 8) :=
  match inRange 8 palette with
  | none => .error .range
  | some p =>
    if 255 < first then .error .range
    else if count = 0 ∨ 96 < count then .error .malformed
    else if 256 < first + count then .error .range
    else .ok p

/-- R78: PALETTE_SET's checks and effect. -/
def State.paletteSet (palette first : Nat) (entries : List Ink) (s : State) : Taken :=
  match paletteRun palette first entries.length with
  | .error c => s.refuse c
  | .ok p =>
    if s.paletteInUse p then s.refuse .inUse
    else
      let table := putRun s.store.palettes[p] first entries
      (s.setStore { s.store with palettes := upd s.store.palettes p table }).accept []

/-- PALETTE_SET (R78). -/
def execPaletteSet (v : Via) (palette first : Nat) (entries : List Ink) (s : State) :
    Host.Outcome State Fault Refusal :=
  request v 0x10 (.paletteSet v palette first entries) (State.paletteSet palette first entries) s

/-- R78: PALETTE_GET. -/
def State.paletteGet (palette first count : Nat) (s : State) : Taken :=
  match paletteRun palette first count with
  | .error c => s.refuse c
  | .ok p => s.accept (listed (((s.store.palettes[p].toList.drop first).take count).map inkFields))

/-- PALETTE_GET (R78). -/
def execPaletteGet (v : Via) (palette first count : Nat) (s : State) : Host.Outcome State Fault Refusal :=
  request v 0x11 (.paletteGet v palette first count) (State.paletteGet palette first count) s

/-! ### Overlays (R79) -/

/-- R79 checks 1 and 3 with the run's own check 2 between them. -/
def overlayRun (overlay first count : Nat) (malformed : Bool) : Except ResultCode (Fin 16) :=
  match inRange 16 overlay with
  | none => .error .range
  | some o =>
    if 63 < first then .error .range
    else if malformed then .error .malformed
    else if 64 < first + count then .error .range
    else .ok o

/-- R79: OVERLAY_SET's checks and effect. -/
def State.overlaySet (overlay : Nat) (colours : Option (Cmyk × Cmyk)) (first : Nat)
    (rows : List (Vector OverlayCode 64)) (s : State) : Taken :=
  match overlayRun overlay first rows.length (decide (24 < rows.length) || (rows.isEmpty && colours.isNone)) with
  | .error c => s.refuse c
  | .ok o =>
    if s.book.overlayInUse o then s.refuse .inUse
    else
      let old := s.store.overlays[o]
      let pair := colours.getD (old.a, old.b)
      let new : Overlay := ⟨putRun old.codes first rows, pair.1, pair.2⟩
      (s.setStore { s.store with overlays := upd s.store.overlays o new }).accept []

/-- OVERLAY_SET (R79). -/
def execOverlaySet (v : Via) (overlay : Nat) (colours : Option (Cmyk × Cmyk)) (first : Nat)
    (rows : List (Vector OverlayCode 64)) (s : State) : Host.Outcome State Fault Refusal :=
  request v 0x12 (.overlaySet v overlay colours first rows) (State.overlaySet overlay colours first rows) s

/-- R79: OVERLAY_GET. -/
def State.overlayGet (overlay first count : Nat) (s : State) : Taken :=
  match overlayRun overlay first count (decide (24 < count)) with
  | .error c => s.refuse c
  | .ok o =>
    let x := s.store.overlays[o]
    s.accept (cmykFields x.a ++ cmykFields x.b ++
      listed (((x.codes.toList.drop first).take count).map fun r => [.bytes (overlayRowBytes r)]))

/-- OVERLAY_GET (R79). -/
def execOverlayGet (v : Via) (overlay first count : Nat) (s : State) : Host.Outcome State Fault Refusal :=
  request v 0x13 (.overlayGet v overlay first count) (State.overlayGet overlay first count) s

end Sys2Proof.Machine
end

