-- ==== Sys2Proof/Machine/Swath.lean ====
section
/-! DEFINITION. Swath production and the print session (chapter 7), and the band units that share the engine
with it (chapter 6.1). -/

namespace Sys2Proof.Machine

/-! ### The head-of-line garment (R124) -/

/-- R124: the platen in the print position. -/
def State.printPosition (s : State) : Option (Fin 16) :=
  match (s.station 3).occupant with
  | some p => some p
  | none =>
    if (s.station 3).reserved then
      match s.seg (.entry 2) with
      | .idle => none
      | .moving p _ => some p
      | .jammed p _ _ => some p
    else none

/-- R124: the platen in the next position. -/
def State.nextPosition (s : State) : Option (Fin 16) := (s.lane 2).head?

/-- A garment with what producing its swaths takes: its binding and its extent. -/
structure Producing where
  platen : Fin 16
  garment : Garment
  binding : Binding
  extent : Rect
  deriving DecidableEq, Repr

/-- R121: the swath count of a bound garment, from its recipe and extent. -/
def State.swathCountOf (s : State) (b : Binding) : Nat := swathCount b.recipe.dark (s.extent b.placement)

/-- R124: the garment on a platen, where it is eligible for production. -/
def State.eligible (s : State) (p : Fin 16) : Option Producing :=
  match s.garment p with
  | none => none
  | some g =>
    match g.binding with
    | none => none
    | some b =>
      match s.extent b.placement with
      | none => none
      | some r =>
        if g.disposition = .good ∧ g.pretreated = true ∧ g.print.phase ≠ .complete ∧ g.print.phase ≠ .aborted ∧
            g.print.produced < s.swathCountOf b then some ⟨p, g, b, r⟩
        else none

/-- R124: the head-of-line garment. -/
def State.headOfLine (s : State) : Option Producing :=
  match s.printPosition.bind s.eligible with
  | some x => some x
  | none => s.nextPosition.bind s.eligible

/-! ### Swath units (R125 to R127) -/

/-- The lowest-numbered FREE slot (R126). -/
def Ring.freeSlot (r : Ring) : Option (Fin 4) := (List.finRange 4).find? fun i => r.slots[i].isNone

/-- R121: the swath row indices and swath count set in a print record, unless they already are. -/
def PrintRecord.planned (r : PrintRecord) (dark : Bool) (e : Option Rect) : PrintRecord :=
  if r.count ≠ 0 then r
  else
    match e with
    | none => r
    | some e => { r with first := e.swathIndices.1, last := e.swathIndices.2, count := swathCount dark (some e) }

/-- The print phase that a swath's phase stands for (R126). -/
def SwathPhase.print : SwathPhase → PrintPhase
  | .underbase => .underbase
  | .color => .color

/-- R126: a swath unit begins for a garment into a slot. -/
def State.beginSwath (s : State) (x : Producing) (slot : Fin 4) : State :=
  let q := x.garment.print.produced
  let (phase, index) := swathOf x.binding.recipe.dark x.extent q
  let shape := swathShape x.extent phase index
  let record : Swath :=
    ⟨.filling, x.garment.serial, q, phase, shape.rowStart, shape.rows, shape.xStart, shape.width, shape.length⟩
  let last := shape.rowStart + shape.rows - 1
  let unit : RasterUnit :=
    { kind := .swath q phase index slot
      platen := x.platen
      serial := x.garment.serial
      first := shape.rowStart
      last := last
      next := shape.rowStart
      choke := x.binding.recipe.choke
      reads := (s.pixelInputs x.binding.recipe x.binding.placement).unitReads x.extent shape.rowStart last
      writes := shape.blocks (slotBase slot)
      discarded := false }
  let print := { x.garment.print.planned x.binding.recipe.dark (some x.extent) with phase := phase.print }
  let t := s.putGarment x.platen (some { x.garment with print := print })
  let t := t.setRing { t.ring with slots := upd t.ring.slots slot (some record), order := t.ring.order ++ [slot] }
  t.setEngine { t.engine with unit := some unit }

/-- The swath unit that R125 would begin now. -/
def State.swathPossible (s : State) : Option (Producing × Fin 4) :=
  match s.headOfLine, s.ring.freeSlot with
  | some x, some i => some (x, i)
  | _, _ => none

/-- SWATH_UNIT_BEGIN's effect (R125 step 1, R126). -/
def State.swathUnitBegin (s : State) : State :=
  match s.engine.unit, s.swathPossible with
  | none, some (x, i) => s.beginSwath x i
  | _, _ => s

/-- SWATH_UNIT_BEGIN (R126). -/
def execSwathUnitBegin (s : State) : Host.Outcome State Fault Refusal := event State.swathUnitBegin s

/-- The garment a unit works for, with its binding, while its record is there. -/
def State.unitGarment (s : State) (u : RasterUnit) : Option (Garment × Binding) :=
  match s.garment u.platen with
  | none => none
  | some g => if g.serial = u.serial then g.binding.map fun b => (g, b) else none

/-- Every row of a unit has been computed and every swath block written. -/
def RasterUnit.finished (u : RasterUnit) : Bool := u.reads.isEmpty && u.writes.isEmpty

/-- R127: a swath unit's results handed on. -/
def State.handSwath (s : State) (u : RasterUnit) (phase : SwathPhase) (index : Nat) (slot : Fin 4) : State :=
  let ring := { s.ring with slots := upd s.ring.slots slot (s.ring.slots[slot].map fun w => { w with status := .ready }) }
  let t := s.setRing ring
  match s.unitGarment u with
  | none => t
  | some (g, b) =>
    match s.extent b.placement with
    | none => t
    | some r =>
      let tallies := g.print.tallies.addSwath (s.pixelInputs b.recipe b.placement) (swathShape r phase index)
      let print := { g.print with produced := g.print.produced + 1, tallies := tallies }
      t.putGarment u.platen (some { g with print := print })

/-- The engine with no unit in hand. -/
def State.engineIdle (s : State) : State := s.setEngine { s.engine with unit := none }

/-- SWATH_UNIT_END's effect (R127, R132 step 2). A discarded unit's end leaves its granted write to complete. -/
def State.swathUnitEnd (s : State) : State :=
  match s.engine.unit with
  | none => s
  | some u =>
    match u.kind with
    | .band _ => s
    | .swath _ phase index slot =>
      if u.finished = false then s
      else if u.discarded then (s.setArbiter (s.arbiter.mark .engine .aborted .dropped)).engineIdle
      else (s.handSwath u phase index slot).engineIdle

/-- SWATH_UNIT_END (R127). -/
def execSwathUnitEnd (s : State) : Host.Outcome State Fault Refusal := event State.swathUnitEnd s

/-! ### Band units (R103, R104) -/

/-- R103: a band unit begins for the job at the head of the queue. -/
def State.beginBand (s : State) (j : Job) (g : Garment) (b : Binding) (r : Rect) : State :=
  let first := max (64 * j.cursor) r.top
  let last := min (64 * j.cursor + 63) r.bottom
  let unit : RasterUnit :=
    { kind := .band j.cursor
      platen := j.platen
      serial := j.serial
      first := first
      last := last
      next := first
      choke := b.recipe.choke
      reads := (s.pixelInputs b.recipe b.placement).unitReads r first last
      writes := []
      discarded := false }
  let t := s.putGarment j.platen (some { g with pretreat := { g.pretreat with coverage := .scanning } })
  t.setEngine ⟨{ j with cursor := j.cursor + 1 } :: t.engine.jobs.tail, some unit⟩

/-- BAND_UNIT_BEGIN's effect (R125 step 2, R103). -/
def State.bandUnitBegin (s : State) : State :=
  match s.engine.unit, s.swathPossible, s.engine.jobs with
  | none, none, j :: _ =>
    match s.garment j.platen with
    | none => s
    | some g =>
      match g.binding with
      | none => s
      | some b =>
        match s.extent b.placement with
        | none => s
        | some r => if g.serial = j.serial ∧ j.cursor ≤ r.bottom / 64 then s.beginBand j g b r else s
  | _, _, _ => s

/-- BAND_UNIT_BEGIN (R103). -/
def execBandUnitBegin (s : State) : Host.Outcome State Fault Refusal := event State.bandUnitBegin s

/-- R104: a band's planned pulses written into the map and added to the planned total. -/
def PretreatRecord.addBand (r : PretreatRecord) (band : Nat) (doses : Vector Nat 8) : PretreatRecord :=
  match inRange 63 band with
  | none => r
  | some k => { r with map := upd r.map k doses, planned := r.planned + doses.toList.sum }

/-- Whether a job is a garment's. -/
def Job.of (j : Job) (p : Fin 16) (serial : Word) : Bool := j.platen == p && j.serial == serial

/-- R104: a band unit's results handed on; with the cursor past the last band the job leaves the queue. -/
def State.handBand (s : State) (u : RasterUnit) (band : Nat) : State :=
  match s.unitGarment u with
  | none => s
  | some (g, b) =>
    match s.extent b.placement with
    | none => s
    | some r =>
      let record := g.pretreat.addBand band ((s.pixelInputs b.recipe b.placement).bandDoses band)
      let finished := (s.engine.jobs.find? fun j => j.of u.platen u.serial).all fun j => decide (r.bottom / 64 < j.cursor)
      let record := if finished then { record with coverage := .complete } else record
      let t := s.putGarment u.platen (some { g with pretreat := record })
      if finished then t.setEngine { t.engine with jobs := t.engine.jobs.filter fun j => !j.of u.platen u.serial } else t

/-- BAND_UNIT_END's effect (R104, R105). -/
def State.bandUnitEnd (s : State) : State :=
  match s.engine.unit with
  | none => s
  | some u =>
    match u.kind with
    | .swath _ _ _ _ => s
    | .band k =>
      if u.finished = false then s
      else if u.discarded then s.engineIdle
      else (s.handBand u k).engineIdle

/-- BAND_UNIT_END (R104). -/
def execBandUnitEnd (s : State) : Host.Outcome State Fault Refusal := event State.bandUnitEnd s

/-! ### The session (R128) -/

/-- R128: the garment a session may open for: platen, garment, binding. -/
def State.sessionReady (s : State) : Option (Fin 16 × Garment × Binding) :=
  match s.garmentAt 3 with
  | none => none
  | some (p, g) =>
    match g.binding with
    | none => none
    | some b =>
      if g.disposition = .good ∧ g.pretreated = true ∧
          (g.print.phase = .none ∨ g.print.phase = .underbase ∨ g.print.phase = .color) ∧ g.stage = .printWait then
        some (p, g, b)
      else none

/-- The PRINT_READY notice (R128). For an empty extent R128 gives no values for the last sequence number, x start and
width: each is sent as 0 (DESIGN CHOICE, log 14). -/
def PrintRecord.readyNotice (r : PrintRecord) (p : Fin 16) (serial : Word) (dark : Bool) (e : Option Rect) : Notice :=
  .printReady p serial dark 0 (r.count - 1) r.count r.first r.last
    (match e with | none => 0 | some e => e.left) (match e with | none => 0 | some e => e.width) r.produced

/-- R128: the session opens, where its conditions hold. -/
def State.sessionOpen (s : State) : State :=
  match s.ring.session, s.sessionReady with
  | none, some (p, g, b) =>
    if s.track.line ≠ .running then s
    else
      let e := s.extent b.placement
      let print := g.print.planned b.recipe.dark e
      let t := s.putGarment p (some { g with print := print, stage := .printing })
      (t.setRing { t.ring with session := some ⟨p, g.serial, print.count⟩ }).raise
        (print.readyNotice p g.serial b.recipe.dark e)
  | _, _ => s

/-- PRINT_SESSION_OPEN (R128). -/
def execPrintSessionOpen (s : State) : Host.Outcome State Fault Refusal := event State.sessionOpen s

/-- The session with its garment's record. -/
def State.sessionGarment (s : State) : Option (Session × Garment) :=
  match s.ring.session with
  | none => none
  | some x => (s.garment x.platen).map fun g => (x, g)

/-! ### SWATH_PULL and SWATH_RELEASE (R129, R130) -/

/-- The slot that holds a produced swath (R129 check 3). -/
def Ring.holding (r : Ring) (serial : Word) (sequence : Nat) : Option (Fin 4 × Swath) :=
  (List.finRange 4).findSome? fun i =>
    match r.slots[i] with
    | none => none
    | some w => if w.produced && w.serial == serial && w.sequence == sequence then some (i, w) else none

/-- The checks that SWATH_PULL and SWATH_RELEASE share. -/
def State.pullable (s : State) (sequence : Nat) : Except ResultCode (Session × Garment × Fin 4 × Swath) :=
  match s.sessionGarment with
  | none => .error .state
  | some (x, g) =>
    if x.count ≤ sequence then .error .state
    else if g.print.produced ≤ sequence then .error .notReady
    else
      match s.ring.holding x.serial sequence with
      | none => .error .stale
      | some (i, w) => .ok (x, g, i, w)

/-- R129: the most bytes one pull returns. -/
def pullLimit : Nat := 480

/-- R129: SWATH_PULL's checks. An accepted pull begins; its reply waits for its last burst. -/
def State.swathPull (link : Link) (sequence offset : Nat) (s : State) : Taken :=
  match s.pullable sequence with
  | .error c => s.refuse c
  | .ok (_, _, i, w) =>
    if w.length ≤ offset then s.refuse .range
    else
      let first := slotBase i + offset
      let stop := slotBase i + min (offset + pullLimit) w.length
      (s.setRing
        { s.ring with
          slots := upd s.ring.slots i (some { w with status := .handed })
          pull := some ⟨link, sequence, offset, first, stop, []⟩ }, none)

/-- SWATH_PULL (R129). -/
def execSwathPull (v : Via) (sequence offset : Nat) (s : State) : Host.Outcome State Fault Refusal :=
  request v 0x2D (.swathPull v sequence offset) (State.swathPull v.link sequence offset) s

/-- R129: the last burst of a pull has completed: its reply is ready, with the ring level as it now stands. -/
def State.pullComplete (s : State) : State :=
  match s.ring.pull with
  | none => s
  | some x =>
    if x.next < x.stop then s
    else
      (s.setRing { s.ring with pull := none }).answer x.link
        ⟨.ok, [.u8 x.sequence, .u32 x.offset, .u8 s.ring.level] ++ runOf x.bytes⟩

/-- SWATH_PULL_COMPLETE (R129). -/
def execSwathPullComplete (s : State) : Host.Outcome State Fault Refusal := event State.pullComplete s

/-- The slots of the ring that satisfy a test become FREE and leave the order list (R122). -/
def Ring.release (r : Ring) (f : Swath → Bool) : Ring :=
  let gone (i : Fin 4) : Bool := r.slots[i].any f
  { r with
    slots := Vector.ofFn fun i : Fin 4 => if gone i then none else r.slots[i]
    order := r.order.filter fun i => !gone i }

/-- R130: SWATH_RELEASE's checks and effect. -/
def State.swathRelease (sequence : Nat) (s : State) : Taken :=
  match s.pullable sequence with
  | .error c => s.refuse c
  | .ok (x, g, i, _) =>
    let ring := { s.ring with slots := upd s.ring.slots i none, order := s.ring.order.filter fun j => j != i }
    let t := s.setRing ring
    (t.putGarment x.platen (some { g with print := { g.print with released := g.print.released + 1 } })).accept
      [.u8 ring.level]

/-- SWATH_RELEASE (R130). -/
def execSwathRelease (v : Via) (sequence : Nat) (s : State) : Host.Outcome State Fault Refusal :=
  request v 0x2E (.swathRelease v sequence) (State.swathRelease sequence) s

/-! ### PRINT_END (R131, R132) -/

/-- R131: PRINT_END(OK)'s checks and effect. -/
def State.printEndOk (s : State) : Taken :=
  match s.sessionGarment with
  | none => s.refuse .state
  | some (x, g) =>
    if g.print.produced ≠ x.count ∨ g.print.released ≠ x.count then s.refuse .incomplete
    else
      let g := { g with print := { g.print with phase := .complete }, stage := .cureWait }
      let t := s.putGarment x.platen (some g)
      (t.setRing { t.ring with session := none }).accept []

/-- PRINT_END(OK) (R131). -/
def execPrintEndOk (v : Via) (s : State) : Host.Outcome State Fault Refusal :=
  request v 0x2F (.printEndOk v) State.printEndOk s

/-- Whether a unit is a swath unit of a garment. -/
def RasterUnit.isSwathOf (u : RasterUnit) (p : Fin 16) (serial : Word) : Bool :=
  match u.kind with
  | .band _ => false
  | .swath _ _ _ _ => u.platen == p && u.serial == serial

/-- R132 step 2: the garment's running swath unit is not to be counted and writes no more. A write burst
already granted completes; a line reset waits for it while the unit is in hand (R171). -/
def State.discardSwathUnit (s : State) (p : Fin 16) (serial : Word) : State :=
  match s.engine.unit with
  | none => s
  | some u =>
    if u.isSwathOf p serial then
      let t := s.setEngine { s.engine with unit := some { u with discarded := true, writes := [] } }
      if u.reads.isEmpty then t.setArbiter (t.arbiter.drop .engine .aborted) else t
    else s

/-- R132: PRINT_END(ABORT)'s check and effect. -/
def State.printEndAbort (s : State) : Taken :=
  match s.sessionGarment with
  | none => s.refuse .state
  | some (x, g) =>
    let t := s.discardSwathUnit x.platen x.serial
    let g := { g with print := { g.print with phase := .aborted }, disposition := .reject }
    let t := t.putGarment x.platen (some g)
    let ring := t.ring.release fun w => w.serial == x.serial
    (t.setRing { ring with session := none }).accept []

/-- PRINT_END(ABORT) (R132). -/
def execPrintEndAbort (v : Via) (s : State) : Host.Outcome State Fault Refusal :=
  request v 0x2F (.printEndAbort v) State.printEndAbort s

end Sys2Proof.Machine
end

