-- ==== Sys2Proof/Machine/Arbiter.lean ====
section
/-! DEFINITION. The memory arbiter (R80, R81) and what its bursts move for the four requesters. The request
each has waiting is computed from its transfer (log 10). -/

namespace Sys2Proof.Machine

/-! ### Waiting requests -/

/-- R129: the next swath read. -/
def State.pullBurst (s : State) : Option Burst :=
  match s.ring.pull with
  | none => none
  | some x => if x.next < x.stop then some ⟨blockOf x.next, .read⟩ else none

/-- R126: the bytes of a swath unit's slot that lie in a block, and where they begin. -/
def State.swathBlock (s : State) (u : RasterUnit) (phase : SwathPhase) (index : Nat) (slot : Fin 4) (block : Nat) :
    BurstData :=
  let first := max block (slotBase slot)
  match s.unitGarment u with
  | none => .write first []
  | some (_, b) =>
    match s.extent b.placement with
    | none => .write first []
    | some r =>
      let shape := swathShape r phase index
      let stop := min (block + 64) (slotBase slot + shape.length)
      let e := s.pixelInputs b.recipe b.placement
      .write first ((List.range (stop - first)).map fun i => e.swathByte shape (first - slotBase slot + i))

/-- The Raster Engine's next burst: its art reads, then its swath writes (log 9). -/
def State.engineBurst (s : State) : Option Burst :=
  match s.engine.unit with
  | none => none
  | some u =>
    match u.reads with
    | (_, block) :: _ => some ⟨block, .read⟩
    | [] =>
      match u.writes, u.kind with
      | (_, block) :: _, .swath _ phase index slot => some ⟨block, s.swathBlock u phase index slot block⟩
      | _, _ => none

/-- The address of the byte the verifier feeds next, and one past the last byte of its row; none once the
image has been read (R73). -/
def VerifyPass.at (v : VerifyPass) (d : Art) : Option (Nat × Nat) :=
  let row := d.base + v.row * d.stride
  if v.row < d.height then some (row + v.pos, row + d.rowBytes) else none

/-- The descriptor at the head of the verification queue. -/
def State.verifying (s : State) : Option (Fin 64 × Art) :=
  match s.store.verifyQueue with
  | [] => none
  | h :: _ => (s.art h).map fun d => (h, d)

/-- R73: the next verification read. -/
def State.verifyBurst (s : State) : Option Burst :=
  match s.store.verify, s.verifying with
  | some v, some (_, d) => (v.at d).map fun x => ⟨blockOf x.1, .read⟩
  | _, _ => none

/-- R71: the next link art write: the bytes of the data that lie in its block. -/
def State.writeBurst (s : State) : Option Burst :=
  match s.store.write with
  | none => none
  | some w =>
    match w.data with
    | [] => none
    | _ :: _ => some ⟨blockOf w.next, .write w.next (w.data.take (64 - w.next % 64))⟩

/-! ### Grants (R80) -/

/-- R80: the class 3 request that is granted where class 3 is. -/
def State.classThree (s : State) : Option (Requester × Burst) :=
  match s.verifyBurst, s.writeBurst with
  | some v, some w =>
    match s.arbiter.turn with
    | .verify => some (.verify, v)
    | .write => some (.write, w)
  | some v, none => some (.verify, v)
  | none, some w => some (.write, w)
  | none, none => none

/-- R80 steps 2 and 3. -/
def State.classOneTwo (s : State) : Option (Requester × Burst) :=
  match s.pullBurst, s.engineBurst with
  | some b, _ => some (.pull, b)
  | none, some b => some (.engine, b)
  | none, none => none

/-- R80's limit of the fairness count. -/
def fairnessLimit : Nat := 64

/-- R80 steps 1 to 4. -/
def State.chosen (s : State) : Option (Requester × Burst) :=
  match s.classOneTwo, s.classThree with
  | some a, some b => if fairnessLimit ≤ s.arbiter.fairness then some b else some a
  | some a, none => some a
  | none, some b => some b
  | none, none => none

/-- R80: the fairness count and turn mark after a grant. -/
def Arbiter.granted (a : Arbiter) (r : Requester) (b : Burst) : Arbiter :=
  let port := some ⟨r, b, .live⟩
  match r with
  | .pull => { a with fairness := satAdd fairnessLimit a.fairness 1, port := port }
  | .engine => { a with fairness := satAdd fairnessLimit a.fairness 1, port := port }
  | .verify => ⟨0, .write, port⟩
  | .write => ⟨0, .verify, port⟩

/-- ARBITER_GRANT (R80): the port is free and a request waits. A block outside the art memory is the model's
one fault (log 20). -/
def execArbiterGrant (s : State) : Host.Outcome State Fault Refusal :=
  match s.arbiter.port, s.chosen with
  | none, some (r, b) =>
    if s.resetLow then .next s
    else if artMemorySize < b.block + 64 then .fault (.noSuchArtAddress b.block)
    else event (fun s => s.setArbiter (s.arbiter.granted r b)) s
  | _, _ => event id s

/-! ### Bursts completed (R80, R81) -/

/-- R129: a swath read delivered. -/
def State.deliverPull (s : State) (block : Nat) : State :=
  match s.ring.pull with
  | none => s
  | some x =>
    let stop := min (block + 64) x.stop
    s.setRing { s.ring with pull := some { x with next := stop, bytes := x.bytes ++ s.mem.readRun x.next (stop - x.next) } }

/-- R101: a unit with the reads and writes that are left; each row finished has advanced the next row by one. -/
def RasterUnit.after (u : RasterUnit) (reads writes : List (Nat × Nat)) : RasterUnit :=
  { u with reads := reads, writes := writes, next := nextRow u.first u.last u.choke reads writes }

/-- An art read or a swath write of the engine's unit completed. -/
def State.deliverEngine (s : State) (data : BurstData) : State :=
  match s.engine.unit with
  | none => s
  | some u =>
    let u :=
      match data with
      | .read => u.after u.reads.tail u.writes
      | .write _ _ => u.after u.reads u.writes.tail
    s.setEngine { s.engine with unit := some u }

/-- R73, R74: the bytes of a verification read that belong to the row fed into the CRC. -/
def VerifyPass.feed (v : VerifyPass) (d : Art) (block : Nat) (m : Memory) : VerifyPass :=
  match v.at d with
  | none => v
  | some (first, rowStop) =>
    let stop := min (block + 64) rowStop
    let crc := crc32Feed v.crc (m.readRun first (stop - first))
    if stop = rowStop then ⟨v.row + 1, 0, crc⟩ else ⟨v.row, v.pos + (stop - first), crc⟩

/-- A verification read delivered; rows checked follows the rows fed. -/
def State.deliverVerify (s : State) (block : Nat) : State :=
  match s.store.verify, s.verifying with
  | some v, some (h, d) =>
    let v := v.feed d block s.mem
    let t := s.putArt h (some { d with rowsChecked := v.row })
    t.setStore { t.store with verify := some v }
  | _, _ => s

/-- R71: a link art write completed. -/
def State.deliverWrite (s : State) (bytes : List Byte) : State :=
  match s.store.write with
  | none => s
  | some w =>
    s.setStore { s.store with write := some { w with next := w.next + bytes.length, data := w.data.drop bytes.length } }

/-- What a completed burst brings its requester. -/
def State.deliver (s : State) (g : Granted) : State :=
  match g.requester, g.burst.data with
  | .pull, _ => s.deliverPull g.burst.block
  | .engine, data => s.deliverEngine data
  | .verify, _ => s.deliverVerify g.burst.block
  | .write, .write _ bytes => s.deliverWrite bytes
  | .write, .read => s

/-- BURST_COMPLETE's effect: written bytes stand in memory, whatever became of the work (R81). -/
def State.burstComplete (s : State) : State :=
  match s.arbiter.port with
  | none => s
  | some g =>
    let t := s.setArbiter { s.arbiter with port := none }
    let t :=
      match g.burst.data with
      | .read => t
      | .write start bytes => t.setMem (t.mem.writeRun start bytes)
    if g.fate = .live then t.deliver g else t

/-- BURST_COMPLETE (R80). -/
def execBurstComplete (s : State) : Host.Outcome State Fault Refusal := event State.burstComplete s

end Sys2Proof.Machine
end

