-- ==== Sys2Proof/Machine/Cure.lean ====
section
/-! DEFINITION. The Cure Integrator (chapter 8): the rate table, the entry into curing, samples, and the stale
timer. -/

namespace Sys2Proof.Machine

/-! ### The rate table (R138, R139) -/

/-- R138: the rate that applies at a temperature: that of the highest band whose threshold is at or below it. -/
def rateAt (t : Vector RateBand 8) (theta : Int) : Nat :=
  t.toList.foldl (fun r b => if b.threshold ≤ theta then b.rate else r) 0

/-- Thresholds strictly rising. -/
def rising : List RateBand → Bool
  | [] => true
  | [_] => true
  | a :: b :: r => decide (a.threshold < b.threshold) && rising (b :: r)

/-- R139: RATE_TABLE_SET: thresholds clamped, then judged. -/
def State.rateTableSet (bands : Vector RateBand 8) (s : State) : Taken :=
  let t := vmap (fun b => { b with threshold := clampInt (-80) 800 b.threshold }) bands
  if rising t.toList then (s.setCure { s.cure with table := t }).accept (rateTableFields t)
  else s.refuse .malformed

/-- RATE_TABLE_SET (R139). -/
def execRateTableSet (v : Via) (bands : Vector RateBand 8) (s : State) : Host.Outcome State Fault Refusal :=
  request v 0x14 (.rateTableSet v bands) (State.rateTableSet bands) s

/-- R139: RATE_TABLE_GET. -/
def State.rateTableGet (s : State) : Taken := s.accept (rateTableFields s.cure.table)

/-- RATE_TABLE_GET (R139). -/
def execRateTableGet (v : Via) (s : State) : Host.Outcome State Fault Refusal :=
  request v 0x15 (.rateTableGet v) State.rateTableGet s

/-! ### Entry into curing (R140) -/

/-- R145's interval in milliseconds. -/
def staleTime : Nat := 5000

/-- R140: the required credit of a garment with a latched recipe and a W tally. -/
def requiredCredit (r : Recipe) (w : Nat) : Nat := satAdd 65535 r.cureBase (w / 4096 * r.whiteStep)

/-- R140: a platen has arrived at S4. -/
def State.cureEntry (s : State) (p : Fin 16) : State :=
  match s.garment p with
  | none => s
  | some g =>
    match g.binding with
    | none => s
    | some b =>
      if g.disposition = .good ∧ g.cure.result = .none then
        let c := { g.cure with required := requiredCredit b.recipe g.print.tallies.w }
        let g := { g with stage := .curing, cure := c }
        (s.putGarment p (some g)).setCure { s.cure with slot := some (p, g.serial), stale := some staleTime }
      else s

/-! ### Samples (R141 to R145) -/

/-- R142 step 1: the interval of a sample. -/
def sampleInterval (last : Option Word) (now : Word) : Nat :=
  match last with
  | none => 0
  | some t => min 2000 (elapsed t now)

/-- R142, R143 step 1: the cure record after a sample of interval `dt` at rate `rate`, at the scorch limit or
above it when `hot`. -/
def CureRecord.sample (c : CureRecord) (now : Word) (dt rate : Nat) (hot : Bool) : CureRecord :=
  let acc := rate * dt + c.carry
  { c with
    lastSample := some now
    credit := satAdd 65535 c.credit (acc / 100)
    carry := acc % 100
    scorch := if hot then satAdd 65535 c.scorch dt else c.scorch }

/-- R143 steps 2 to 4: the verdict on a sampled record. -/
def CureRecord.verdict (c : CureRecord) (allowance : Nat) : CureResult :=
  if allowance < c.scorch then .scorched else if c.required ≤ c.credit then .released else .none

/-- R143: a garment with its sampled record and verdict. -/
def Garment.judged (g : Garment) (c : CureRecord) (r : CureResult) : Garment :=
  let g := { g with cure := { c with result := r, stale := false } }
  match r with
  | .none => g
  | .released => { g with stage := .released }
  | .scorched => { g with disposition := .reject }

/-- R142 to R145: an accepted sample. The notices carry the record as the sample has left it. DESIGN CHOICE (log 14): dt is
2 bytes in the reply. -/
def State.sampleGarment (s : State) (p : Fin 16) (g : Garment) (b : Binding) (temperature : Int) : Taken :=
  let now := s.clock.time
  let dt := sampleInterval g.cure.lastSample now
  let theta := clampInt (-80) 800 temperature
  let rate := rateAt s.cure.table theta
  let c := g.cure.sample now dt rate (decide (b.recipe.scorchLimit ≤ theta))
  let r := c.verdict b.recipe.scorchAllowance
  let t := s.putGarment p (some (g.judged c r))
  let t :=
    match r with
    | .none => t.setCure { t.cure with stale := some staleTime }
    | _ => t.setCure { t.cure with slot := none, stale := none }
  let cleared : List Notice :=
    if g.cure.stale then [.cureStale p g.serial false c.credit c.required] else []
  let ended : List Notice :=
    match r with
    | .none => []
    | _ => [.cureResult p g.serial r c.credit c.required c.scorch b.recipe.scorchAllowance g.print.tallies.w]
  (t.raiseAll (cleared ++ ended)).accept
    [.u16 dt, .u8 rate, .u16 c.credit, .u8 c.carry, .u16 c.required, .u16 c.scorch, .u8 r.code]

/-- R141: CURE_SAMPLE's checks and effect. -/
def State.cureSample (platen : Nat) (temperature : Int) (s : State) : Taken :=
  match inRange 16 platen with
  | none => s.refuse .range
  | some p =>
    if s.place p ≠ .station 4 then s.refuse .wrongPlaten
    else
      match s.garment p with
      | none => s.refuse .state
      | some g =>
        if g.stage ≠ .curing ∨ g.cure.result ≠ .none then s.refuse .state
        else
          match g.binding with
          | none => s.refuse .state
          | some b => s.sampleGarment p g b temperature

/-- CURE_SAMPLE (R141). -/
def execCureSample (v : Via) (platen : Nat) (temperature : Int) (s : State) : Host.Outcome State Fault Refusal :=
  request v 0x30 (.cureSample v platen temperature) (State.cureSample platen temperature) s

/-- R145: the stale timer has run out. -/
def State.staleExpiry (s : State) : State :=
  match s.cure.stale, s.cure.slot with
  | some 0, some (p, serial) =>
    let t := s.setCure { s.cure with stale := none }
    match t.garment p with
    | none => t
    | some g =>
      if g.serial = serial then
        (t.putGarment p (some { g with cure := { g.cure with stale := true } })).raise
          (.cureStale p serial true g.cure.credit g.cure.required)
      else t
  | _, _ => s

/-- STALE_TIMER_EXPIRY (R145). -/
def execStaleTimerExpiry (s : State) : Host.Outcome State Fault Refusal := event State.staleExpiry s

end Sys2Proof.Machine
end

