-- ==== Sys2Proof/Machine/Indicators.lean ====
section
/-! DEFINITION. The Indicator Unit's commands (R177, R178). -/

namespace Sys2Proof.Machine

/-- R178: an output's assignment replaced. The end of the step judges the output again; it starts from off,
so that a blinking output restarts in ON with the new on time. -/
def State.assignIndicator (output : Nat) (conditions : Byte) (mode onTime offTime : Nat) (s : State) : Taken :=
  match inRange 6 output with
  | none => s.refuse .range
  | some o =>
    if 1 < mode then s.refuse .malformed
    else if mode = 1 ∧ (onTime = 0 ∨ offTime = 0) then s.refuse .range
    else
      (s.setIndicators (upd s.indicators o ⟨conditions, mode == 1, onTime, offTime, .off⟩)).accept []

/-- INDICATOR_SET (R178). -/
def execIndicatorSet (v : Via) (output : Nat) (conditions : Byte) (mode onTime offTime : Nat) (s : State) :
    Host.Outcome State Fault Refusal :=
  request v 0x1E (.indicatorSet v output conditions mode onTime offTime)
    (State.assignIndicator output conditions mode onTime offTime) s

/-- R177: the phase timer has run out in ON or in OFF. -/
def Indicator.expire (i : Indicator) : Indicator :=
  match i.lamp with
  | .blinkOn 0 => { i with lamp := .blinkOff (10 * i.offTime) }
  | .blinkOff 0 => { i with lamp := .blinkOn (10 * i.onTime) }
  | _ => i

/-- BLINK_TIMER_EXPIRY (R177). -/
def execBlinkTimerExpiry (output : Fin 6) (s : State) : Host.Outcome State Fault Refusal :=
  event (fun s => s.setIndicators (upd s.indicators output s.indicators[output].expire)) s

end Sys2Proof.Machine
end

