-- ==== Sys2Proof/WellFormed.lean ====
section
/-! DEFINITION. Which commands a frame or a signal can carry: every number fits the field that R179 gives
its type, and every run fits its count. A value inside its field may still be out of its rule's range; that
is the owning block's to judge. -/

namespace Sys2Proof

/-- Fits one unsigned byte. -/
abbrev fits8 (n : Nat) : Bool := decide (n < 256)

/-- Fits two unsigned bytes. -/
abbrev fits16 (n : Nat) : Bool := decide (n < 65536)

/-- Fits four unsigned bytes. -/
abbrev fits32 (n : Nat) : Bool := decide (n < 4294967296)

/-- Fits two bytes in two's complement. -/
abbrev fitsSigned16 (z : Int) : Bool := decide (-32768 ≤ z ∧ z < 32768)

/-- A tag is one byte (R179). -/
def Via.wf (v : Via) : Bool := fits8 v.tag

def BlankCode.wf (b : BlankCode) : Bool := fits16 b.style && fits8 b.colour && fits8 b.size

/-- The fields of a recipe fit their 23 bytes (R179). -/
def Recipe.wf (r : Recipe) : Bool :=
  fits8 r.dose && fits8 r.covMin && fits8 r.period && fits8 r.duty && fits16 r.tolerance &&
  fits16 r.dwell && fits16 r.inkLimit && fits8 r.underbase && fits8 r.knockout && fits8 r.choke &&
  fits16 r.cureBase && fits16 r.whiteStep && fitsSigned16 r.scorchLimit && fits16 r.scorchAllowance

def PostOverlay.wf (o : PostOverlay) : Bool :=
  fits8 o.index && fitsSigned16 o.vx && fitsSigned16 o.vy

def PostLine.wf (l : PostLine) : Bool :=
  l.blank.wf && fits16 l.quantity && fits8 l.art && fits16 l.col0 && fits16 l.row0 &&
  fits16 l.width && fits16 l.height && fits16 l.ox && fits16 l.oy &&
  (match l.overlay with | none => true | some o => o.wf)

def Ink.wf (i : Ink) : Bool := fits8 i.c && fits8 i.m && fits8 i.y && fits8 i.k && fits8 i.a

def Cmyk.wf (i : Cmyk) : Bool := fits8 i.c && fits8 i.m && fits8 i.y && fits8 i.k

def RateBand.wf (b : RateBand) : Bool := fitsSigned16 b.threshold && fits8 b.rate

def PlaceArg.wf : PlaceArg → Bool
  | .station s => fits8 s
  | .lane n => decide (n < 16)
  | .moving _ => true
  | .uncertain _ => true
  | .service => true
  | .unseen => true

/-- Every field of the command fits its place in a frame; signals and internal events carry nothing that
could fail to fit. -/
def Instr.wf : Instr → Bool
  | .powerOnReset => true
  | .resetAsserted => true
  | .orderPost v _ priority lines => v.wf && fits8 priority && fits8 lines.length && lines.all PostLine.wf
  | .lineAmend v _ position quantity => v.wf && fits8 position && fits16 quantity
  | .orderHold v _ => v.wf
  | .orderRelease v _ => v.wf
  | .orderCancel v _ => v.wf
  | .orderRetire v _ => v.wf
  | .catalogueSet v blank cls => v.wf && blank.wf && fits8 cls
  | .catalogueRemove v blank => v.wf && blank.wf
  | .catalogueGet v blank => v.wf && blank.wf
  | .classSet v cls recipe => v.wf && fits8 cls && recipe.wf
  | .classGet v cls => v.wf && fits8 cls
  | .artOpen v format palette width height stride base _ =>
      v.wf && fits8 format && fits8 palette && fits16 width && fits16 height && fits16 stride && fits32 base
  | .artWrite v handle offset data => v.wf && fits8 handle && fits32 offset && fits16 data.length
  | .artWriteComplete => true
  | .artSeal v handle _ => v.wf && fits8 handle
  | .artFree v handle => v.wf && fits8 handle
  | .paletteSet v palette first entries =>
      v.wf && fits8 palette && fits8 first && fits8 entries.length && entries.all Ink.wf
  | .paletteGet v palette first count => v.wf && fits8 palette && fits8 first && fits8 count
  | .overlaySet v overlay colours first rows =>
      v.wf && fits8 overlay && fits8 first && fits8 rows.length &&
      (match colours with | none => true | some (a, b) => a.wf && b.wf)
  | .overlayGet v overlay first count => v.wf && fits8 overlay && fits8 first && fits8 count
  | .rateTableSet v bands => v.wf && bands.toList.all RateBand.wf
  | .rateTableGet v => v.wf
  | .shelfPermitSet v mask => v.wf && fits8 mask
  | .shelfExport v slot form => v.wf && fits8 slot && fits8 form
  | .shelfImport v record => v.wf && fits16 record.length
  | .shelfDrop v slot => v.wf && fits8 slot
  | .shelve v platen => v.wf && fits8 platen
  | .unshelve v slot platen mask => v.wf && fits8 slot && fits8 platen && fits8 mask
  | .lineReset v => v.wf
  | .lineResetComplete => true
  | .powerFlagClear v => v.wf
  | .indicatorSet v output _ mode onTime offTime =>
      v.wf && fits8 output && fits8 mode && fits8 onTime && fits8 offTime
  | .noticeMaskSet v _ => v.wf
  | .read v kind key option => v.wf && fits8 kind && fits32 key && fits8 option
  | .garmentLoad v platen blank => v.wf && fits8 platen && blank.wf
  | .garmentAssign v platen _ position => v.wf && fits8 platen && fits8 position
  | .loadClear v platen => v.wf && fits8 platen
  | .unloadGood v platen => v.wf && fits8 platen
  | .unloadSpoil v platen => v.wf && fits8 platen
  | .platenDeclare v platen place => v.wf && fits8 platen && place.wf
  | .jamConfirm v platen place => v.wf && fits8 platen && place.wf
  | .lineResume v => v.wf
  | .stationHold v station => v.wf && fits8 station
  | .stationRelease v station => v.wf && fits8 station
  | .serviceOut v platen => v.wf && fits8 platen
  | .serviceIn v platen => v.wf && fits8 platen
  | .swathPull v sequence offset => v.wf && fits8 sequence && fits32 offset
  | .swathPullComplete => true
  | .swathRelease v sequence => v.wf && fits8 sequence
  | .printEndOk v => v.wf
  | .printEndAbort v => v.wf
  | .cureSample v platen temperature => v.wf && fits8 platen && fitsSigned16 temperature
  | .moveStart _ => true
  | .arrive _ => true
  | .moveTimeout _ => true
  | .emergencyStopAsserted => true
  | .emergencyStopReleased => true
  | .verifyPassStart => true
  | .verifyPassEnd => true
  | .arbiterGrant => true
  | .burstComplete => true
  | .swathUnitBegin => true
  | .bandUnitBegin => true
  | .swathUnitEnd => true
  | .bandUnitEnd => true
  | .sprayStart => true
  | .band => true
  | .sprayEnd => true
  | .zoneValveClose _ => true
  | .zonePulseReload _ => true
  | .zoneChannelExhausted _ => true
  | .pressStart => true
  | .pressClosed => true
  | .dwellExpiry => true
  | .pressOpen => true
  | .closeTimeout => true
  | .openTimeout => true
  | .printSessionOpen => true
  | .staleTimerExpiry => true
  | .frameReceived _ _ => true
  | .frameAbandoned _ _ => true
  | .frameSent _ => true
  | .linkReset _ => true
  | .breakEnd _ => true
  | .blinkTimerExpiry _ => true
  | .startSymbol _ => true

end Sys2Proof
end

