-- ==== Sys2Proof/Decode.lean ====
section
/-! DEFINITION. What bits say: the table's words (its rows give none), and the payload of a request frame,
parsed into the command it carries (R167 step 4, R179). A payload whose length does not agree with its kind
or with the counts it states, or that holds a coded value beyond its list, is no request (`none`).

Widths and forms that R179 does not name are log 13. Codes that an owning rule judges in its own order
(art format, indicator mode, component masks, shelf form, record kind and option) are passed on as sent
(log 15). -/

namespace Sys2Proof

/-- spec/opcode_table.json gives no row any bits, so no word spells a command. -/
def decodeTableWord (_nbits _w : Nat) : Option Instr := none

/-- A reader of payload bytes. -/
abbrev Parse := StateT (List Byte) Option

namespace Parse

/-- The next byte, as a number. -/
def u8 : Parse Nat := fun
  | [] => none
  | b :: r => some (b.toNat, r)

/-- Two bytes, most significant first. -/
def u16 : Parse Nat := do
  let h ← u8
  let l ← u8
  pure (256 * h + l)

/-- Four bytes, most significant first. -/
def u32 : Parse Nat := do
  let h ← u16
  let l ← u16
  pure (65536 * h + l)

def word : Parse Word := do
  let n ← u32
  pure (BitVec.ofNat 32 n)

/-- Two bytes in two's complement. -/
def s16 : Parse Int := do
  let n ← u16
  pure (if n < 32768 then (n : Int) else (n : Int) - 65536)

/-- A yes/no, mark or flag: 0 or 1. -/
def flag : Parse Bool := do
  let n ← u8
  match n with
  | 0 => pure false
  | 1 => pure true
  | _ => failure

/-- `n` items in turn. -/
def many {α : Type} (p : Parse α) : Nat → Parse (List α)
  | 0 => pure []
  | n + 1 => do
    let x ← p
    let xs ← many p n
    pure (x :: xs)

/-- A list: its count in one byte, then its items. -/
def list {α : Type} (p : Parse α) : Parse (List α) := do
  let n ← u8
  many p n

def byte : Parse Byte := do
  let n ← u8
  pure (BitVec.ofNat 8 n)

/-- A run of bytes: its count in two bytes, then the bytes. -/
def run : Parse (List Byte) := do
  let n ← u16
  many byte n

/-- An optional field of `size` bytes: a presence byte, then the field, whose bytes are there in either case. The
bytes of an absent field are not looked at (DESIGN CHOICE, log 13: R179 says that they are 0 and gives no refusal
where they are not). -/
def opt {α : Type} (p : Parse α) (size : Nat) : Parse (Option α) := do
  let present ← flag
  if present then
    let x ← p
    pure (some x)
  else
    let _ ← many u8 size
    pure none

def blank : Parse BlankCode := do
  let style ← u16
  let colour ← u8
  let size ← u8
  pure ⟨style, colour, size⟩

def overlay : Parse PostOverlay := do
  let index ← u8
  let vx ← s16
  let vy ← s16
  pure ⟨index, vx, vy⟩

def postLine : Parse PostLine := do
  let blank ← blank
  let quantity ← u16
  let art ← u8
  let col0 ← u16
  let row0 ← u16
  let width ← u16
  let height ← u16
  let ox ← u16
  let oy ← u16
  let overlay ← opt overlay 5
  pure ⟨blank, quantity, art, col0, row0, width, height, ox, oy, overlay⟩

def recipe : Parse Recipe := do
  let dark ← flag
  let pretreat ← flag
  let dose ← u8
  let covMin ← u8
  let period ← u8
  let duty ← u8
  let tolerance ← u16
  let dwell ← u16
  let inkLimit ← u16
  let underbase ← u8
  let knockout ← u8
  let choke ← u8
  let cureBase ← u16
  let whiteStep ← u16
  let scorchLimit ← s16
  let scorchAllowance ← u16
  pure ⟨dark, pretreat, dose, covMin, period, duty, tolerance, dwell, inkLimit, underbase, knockout, choke,
    cureBase, whiteStep, scorchLimit, scorchAllowance⟩

def ink : Parse Ink := do
  let c ← u8
  let m ← u8
  let y ← u8
  let k ← u8
  let a ← u8
  pure ⟨c, m, y, k, a⟩

def cmyk : Parse Cmyk := do
  let c ← u8
  let m ← u8
  let y ← u8
  let k ← u8
  pure ⟨c, m, y, k⟩

def colours : Parse (Cmyk × Cmyk) := do
  let a ← cmyk
  let b ← cmyk
  pure (a, b)

/-- Two bits as an overlay code. -/
def code (n : Nat) : OverlayCode :=
  match n % 4 with
  | 0 => .transparent
  | 1 => .colourA
  | 2 => .colourB
  | _ => .knockout

/-- A row of 64 two-bit codes in sixteen bytes, the first of each byte's four columns in bits 7-6 (log 13). -/
def overlayRow : Parse (Vector OverlayCode 64) := do
  let bytes ← many u8 16
  pure (Vector.ofFn fun i : Fin 64 => code (bytes.getD (i.val / 4) 0 / 4 ^ (3 - i.val % 4)))

def rateBand : Parse RateBand := do
  let threshold ← s16
  let rate ← u8
  pure ⟨threshold, rate⟩

def rateTable : Parse (Vector RateBand 8) := do
  let b0 ← rateBand
  let b1 ← rateBand
  let b2 ← rateBand
  let b3 ← rateBand
  let b4 ← rateBand
  let b5 ← rateBand
  let b6 ← rateBand
  let b7 ← rateBand
  pure #v[b0, b1, b2, b3, b4, b5, b6, b7]

/-- A segment: X0 to X5 as 0 to 5, E0 to E5 as 6 to 11 (R179). -/
def segment : Parse Segment := do
  let n ← u8
  if h : n < 6 then pure (.exit ⟨n, h⟩)
  else if h : n - 6 < 6 then pure (.entry ⟨n - 6, h⟩)
  else failure

/-- A place in a request: a LANE place names the lane alone, its position bits ignored (R179). DESIGN CHOICE (log 13):
byte 1 of a SERVICE or UNSEEN place is not looked at. -/
def place : Parse PlaceArg := do
  let kind ← u8
  match kind with
  | 0 => do pure (.station (← u8))
  | 1 => do pure (.lane ((← u8) / 16))
  | 2 => do pure (.moving (← segment))
  | 3 => do pure (.uncertain (← segment))
  | 4 => do
    let _ ← u8
    pure .service
  | 5 => do
    let _ ← u8
    pure .unseen
  | _ => failure

/-- The whole payload, with nothing left over. -/
def whole {α : Type} (p : Parse α) (bytes : List Byte) : Option α :=
  match p bytes with
  | some (x, []) => some x
  | _ => none

end Parse

open Parse in
/-- The reader of a request kind's payload (R179's numbering). DESIGN CHOICE (log 13): palette numbers, overlay numbers, the
art format and an indicator's on time and off time are 1 byte each. -/
def requestPayload (v : Via) (kind : Nat) : Parse Instr :=
  match kind with
  | 0x01 => do pure (.orderPost v (← word) (← u8) (← list postLine))
  | 0x02 => do pure (.lineAmend v (← word) (← u8) (← u16))
  | 0x03 => do pure (.orderHold v (← word))
  | 0x04 => do pure (.orderRelease v (← word))
  | 0x05 => do pure (.orderCancel v (← word))
  | 0x06 => do pure (.orderRetire v (← word))
  | 0x07 => do pure (.catalogueSet v (← blank) (← u8))
  | 0x08 => do pure (.catalogueRemove v (← blank))
  | 0x09 => do pure (.catalogueGet v (← blank))
  | 0x0A => do pure (.classSet v (← u8) (← recipe))
  | 0x0B => do pure (.classGet v (← u8))
  | 0x0C => do pure (.artOpen v (← u8) (← u8) (← u16) (← u16) (← u16) (← u32) (← word))
  | 0x0D => do pure (.artWrite v (← u8) (← u32) (← run))
  | 0x0E => do pure (.artSeal v (← u8) (← opt word 4))
  | 0x0F => do pure (.artFree v (← u8))
  | 0x10 => do pure (.paletteSet v (← u8) (← u8) (← list ink))
  | 0x11 => do pure (.paletteGet v (← u8) (← u8) (← u8))
  | 0x12 => do pure (.overlaySet v (← u8) (← opt colours 8) (← u8) (← list overlayRow))
  | 0x13 => do pure (.overlayGet v (← u8) (← u8) (← u8))
  | 0x14 => do pure (.rateTableSet v (← rateTable))
  | 0x15 => pure (.rateTableGet v)
  | 0x16 => do pure (.shelfPermitSet v (← u8))
  | 0x17 => do pure (.shelfExport v (← u8) (← u8))
  | 0x18 => do pure (.shelfImport v (← run))
  | 0x19 => do pure (.shelfDrop v (← u8))
  | 0x1A => do pure (.shelve v (← u8))
  | 0x1B => do pure (.unshelve v (← u8) (← u8) (← u8))
  | 0x1C => pure (.lineReset v)
  | 0x1D => pure (.powerFlagClear v)
  | 0x1E => do pure (.indicatorSet v (← u8) (← byte) (← u8) (← u8) (← u8))
  | 0x1F => do pure (.noticeMaskSet v (BitVec.ofNat 16 (← u16)))
  | 0x20 => do pure (.read v (← u8) (← u32) (← u8))
  | 0x21 => do pure (.garmentLoad v (← u8) (← blank))
  | 0x22 => do pure (.garmentAssign v (← u8) (← word) (← u8))
  | 0x23 => do pure (.loadClear v (← u8))
  | 0x24 => do pure (.unloadGood v (← u8))
  | 0x25 => do pure (.unloadSpoil v (← u8))
  | 0x26 => do pure (.platenDeclare v (← u8) (← place))
  | 0x27 => do pure (.jamConfirm v (← u8) (← place))
  | 0x28 => pure (.lineResume v)
  | 0x29 => do pure (.stationHold v (← u8))
  | 0x2A => do pure (.stationRelease v (← u8))
  | 0x2B => do pure (.serviceOut v (← u8))
  | 0x2C => do pure (.serviceIn v (← u8))
  | 0x2D => do pure (.swathPull v (← u8) (← u32))
  | 0x2E => do pure (.swathRelease v (← u8))
  | 0x2F => do
    let result ← u8
    match result with
    | 0 => pure (.printEndOk v)
    | 1 => pure (.printEndAbort v)
    | _ => failure
  | 0x30 => do pure (.cureSample v (← u8) (← s16))
  | _ => failure

/-- The kinds that name a request: 01h to 30h (R179). -/
def isRequestKind (kind : Nat) : Bool := decide (1 ≤ kind ∧ kind ≤ 0x30)

/-- The request a payload carries, if it is well formed for its kind. -/
def parseRequest (v : Via) (kind : Nat) (payload : List Byte) : Option Instr :=
  Parse.whole (requestPayload v kind) payload

/-- A frame's four header bytes: kind, tag and payload length (R179). -/
structure FrameHeader where
  kind : Nat
  tag : Nat
  length : Nat
  deriving DecidableEq, Repr

/-- The header at the front of a frame buffer, once its four bytes are there. -/
def parseHeader : List Byte → Option FrameHeader
  | k :: t :: h :: l :: _ => some ⟨k.toNat, t.toNat, 256 * h.toNat + l.toNat⟩
  | _ => none

end Sys2Proof
end

