-- ==== Sys2Proof/Machine/Links.lean ====
section
/-! DEFINITION. The Link Interface's own commands (chapter 10): symbols and frames received, frames sent,
breaks, and NOTICE_MASK_SET. -/

namespace Sys2Proof.Machine

/-- R167: a received request. -/
def LinkState.receiveRequest (l : Link) (h : FrameHeader) (payload : List Byte) (k : LinkState) : LinkState :=
  match k.slot with
  | .inFlight _ _ _ => k.refuseBusy h.tag h.kind
  | .free =>
    if isRequestKind h.kind = false then k.answerAtOnce h.tag h.kind .malformed
    else if permitted l h.kind = false then k.answerAtOnce h.tag h.kind .denied
    else
      match parseRequest ⟨l, h.tag⟩ h.kind payload with
      | none => k.answerAtOnce h.tag h.kind .malformed
      | some i => { k with slot := .inFlight h.tag h.kind (.handed i), silent := false }

/-- R166: a complete frame, its check value last. -/
def LinkState.receiveFrame (l : Link) (h : FrameHeader) (bytes : List Byte) (k : LinkState) : LinkState :=
  let front := bytes.take (4 + h.length)
  if bytes.drop (4 + h.length) = bigEndian 2 (crc16 front).toNat then k.receiveRequest l h (front.drop 4)
  else k.discard

/-- R165: data symbols taken while RECEIVING. A length above 512 abandons the frame; the byte that completes
it has it judged; symbols after that find the receiver HUNTING and are ignored. -/
def LinkState.receive (l : Link) (bytes : List Byte) (k : LinkState) : LinkState :=
  match k.receiver with
  | .receiving buffer =>
    let b := buffer ++ bytes
    match parseHeader b with
    | none => { k with receiver := .receiving b }
    | some h =>
      if 512 < h.length then { k.discard with receiver := .hunting }
      else if b.length < h.length + 6 then { k with receiver := .receiving b }
      else LinkState.receiveFrame l h (b.take (h.length + 6)) { k with receiver := .hunting }
  | _ => k

/-- R165: what ends a partial frame; it is counted. -/
def LinkState.abandon (cause : AbandonCause) (k : LinkState) : LinkState :=
  match k.receiver with
  | .receiving _ =>
    match cause with
    | .startSymbol => { k.discard with receiver := .receiving [] }
    | .badSymbol => { k.discard with receiver := .hunting }
    | .oversize => { k.discard with receiver := .hunting }
  | _ => k

/-- R165: a start symbol. -/
def LinkState.start (k : LinkState) : LinkState :=
  match k.receiver with
  | .hunting => { k with receiver := .receiving [] }
  | .receiving _ => k.abandon .startSymbol
  | .inBreak => k

/-- R169, R175: the frame being sent has ended. -/
def LinkState.sent (k : LinkState) : LinkState :=
  match k.tx with
  | .idle => k
  | .sending .reply _ => { k with slot := .free, tx := .idle }
  | .sending .busy _ => { k with busy := none, tx := .idle }
  | .sending .notice _ => { k with queue := k.queue.tail, tx := .idle }
  | .sending .flushed _ => { k with tx := .idle }

/-- R172: a break condition is recognised. -/
def LinkState.broken (l : Link) (k : LinkState) : LinkState :=
  let slot : Slot :=
    match k.slot with
    | .inFlight _ _ (.ready _) => .free
    | other => other
  { receiver := .inBreak
    slot := slot
    silent := k.silent || decide (k.slot ≠ .free)
    busy := none
    discards := 0
    mask := Link.defaultMask l
    queue := []
    lost := false
    number := 0
    tx := .idle }

/-- R172: the receive pair leaves the break level. -/
def LinkState.breakEnded (k : LinkState) : LinkState :=
  match k.receiver with
  | .inBreak => { k with receiver := .hunting }
  | _ => k

def State.onLink (s : State) (l : Link) (f : LinkState → LinkState) : State := s.putLink l (f (s.link l))

/-- FRAME_RECEIVED (R165 to R167). -/
def execFrameReceived (link : Link) (bytes : List Byte) (s : State) : Host.Outcome State Fault Refusal :=
  event (fun s => s.onLink link (LinkState.receive link bytes)) s

/-- FRAME_ABANDONED (R165). -/
def execFrameAbandoned (link : Link) (cause : AbandonCause) (s : State) : Host.Outcome State Fault Refusal :=
  event (fun s => s.onLink link (LinkState.abandon cause)) s

/-- FRAME_SENT (R169, R175). -/
def execFrameSent (link : Link) (s : State) : Host.Outcome State Fault Refusal :=
  event (fun s => s.onLink link LinkState.sent) s

/-- LINK_RESET (R172). -/
def execLinkReset (link : Link) (s : State) : Host.Outcome State Fault Refusal :=
  event (fun s => s.onLink link (LinkState.broken link)) s

/-- BREAK_END (R172). -/
def execBreakEnd (link : Link) (s : State) : Host.Outcome State Fault Refusal :=
  event (fun s => s.onLink link LinkState.breakEnded) s

/-- START_SYMBOL (R165). -/
def execStartSymbol (link : Link) (s : State) : Host.Outcome State Fault Refusal :=
  event (fun s => s.onLink link LinkState.start) s

/-- R176: the sending link's own mask replaced. -/
def State.setNoticeMask (l : Link) (mask : Half) (s : State) : Taken :=
  (s.onLink l fun k => { k with mask := mask }).accept [.u16 mask.toNat]

/-- NOTICE_MASK_SET (R176). -/
def execNoticeMaskSet (v : Via) (mask : Half) (s : State) : Host.Outcome State Fault Refusal :=
  request v 0x1F (.noticeMaskSet v mask) (State.setNoticeMask v.link mask) s

/-- R173: the power-on flag cleared. -/
def State.clearPowerFlag (s : State) : Taken := (s.setPowerFlag false).accept []

/-- POWER_FLAG_CLEAR (R173). -/
def execPowerFlagClear (v : Via) (s : State) : Host.Outcome State Fault Refusal :=
  request v 0x1D (.powerFlagClear v) State.clearPowerFlag s

end Sys2Proof.Machine
end

