-- ==== Sys2Proof/Machine/OrderBook.lean ====
section
/-! DEFINITION. The Order Book's commands (chapter 2): catalogue, class recipes, orders and lines. -/

namespace Sys2Proof.Machine

/-! ### Catalogue and recipes (R26 to R29) -/

/-- R26: CATALOGUE_SET's checks and effect. -/
def State.catalogueSet (blank : BlankCode) (cls : Nat) (s : State) : Taken :=
  if blank.isNull then s.refuse .malformed
  else
    match inRange 16 cls with
    | none => s.refuse .range
    | some c =>
      let b := s.book
      let written (l : List CatalogueEntry) : Taken :=
        ((s.setBook { b with catalogue := l }).rematch .catalogueWrite).accept []
      if (b.classOf blank).isSome then
        written (b.catalogue.map fun e => if e.blank = blank then ⟨blank, c⟩ else e)
      else if 256 ≤ b.catalogue.length then s.refuse .full
      else written (b.catalogue ++ [⟨blank, c⟩])

/-- CATALOGUE_SET (R26). -/
def execCatalogueSet (v : Via) (blank : BlankCode) (cls : Nat) (s : State) : Host.Outcome State Fault Refusal :=
  request v 0x07 (.catalogueSet v blank cls) (State.catalogueSet blank cls) s

/-- R27: CATALOGUE_REMOVE's check and effect. -/
def State.catalogueRemove (blank : BlankCode) (s : State) : Taken :=
  match s.book.classOf blank with
  | none => s.refuse .unknown
  | some _ =>
    let l := s.book.catalogue.filter fun e => e.blank != blank
    ((s.setBook { s.book with catalogue := l }).rematch .catalogueWrite).accept []

/-- CATALOGUE_REMOVE (R27). -/
def execCatalogueRemove (v : Via) (blank : BlankCode) (s : State) : Host.Outcome State Fault Refusal :=
  request v 0x08 (.catalogueRemove v blank) (State.catalogueRemove blank) s

/-- R27: CATALOGUE_GET. -/
def State.catalogueGet (blank : BlankCode) (s : State) : Taken :=
  match s.book.classOf blank with
  | none => s.refuse .unknown
  | some c => s.accept [.u8 c.val]

/-- CATALOGUE_GET (R27). -/
def execCatalogueGet (v : Via) (blank : BlankCode) (s : State) : Host.Outcome State Fault Refusal :=
  request v 0x09 (.catalogueGet v blank) (State.catalogueGet blank) s

/-- R29: CLASS_SET: the recipe is stored clamped, and the reply carries it as stored. -/
def State.classSet (cls : Nat) (recipe : Recipe) (s : State) : Taken :=
  match inRange 16 cls with
  | none => s.refuse .range
  | some c =>
    let r := Recipe.clamped recipe
    (s.setBook { s.book with recipes := upd s.book.recipes c r }).accept (recipeFields r)

/-- CLASS_SET (R29). -/
def execClassSet (v : Via) (cls : Nat) (recipe : Recipe) (s : State) : Host.Outcome State Fault Refusal :=
  request v 0x0A (.classSet v cls recipe) (State.classSet cls recipe) s

/-- R29: CLASS_GET. -/
def State.classGet (cls : Nat) (s : State) : Taken :=
  match inRange 16 cls with
  | none => s.refuse .range
  | some c => s.accept (recipeFields s.book.recipes[c])

/-- CLASS_GET (R29). -/
def execClassGet (v : Via) (cls : Nat) (s : State) : Host.Outcome State Fault Refusal :=
  request v 0x0B (.classGet v cls) (State.classGet cls) s

/-! ### ORDER_POST (R35, R36) -/

/-- R35, R36: ORDER_POST's checks and effect. The reply carries the sequence and the line indices. -/
def State.orderPost (order : Word) (priority : Nat) (lines : List PostLine) (s : State) : Taken :=
  if lines.length = 0 ∨ 8 < lines.length ∨ 3 < priority ∨ lines.any PostLine.malformed = true then s.refuse .malformed
  else if (s.book.find order).isSome then s.refuse .duplicate
  else
    match s.postPlacements lines with
    | none => s.refuse .unknown
    | some placed =>
      if 128 ≤ s.book.orders.length ∨ s.book.freeLines.length < placed.length then s.refuse .full
      else
        let (t, o) := s.postOrder order priority placed
        (t.rematch .other).accept (.word o.sequence :: listed (o.lines.map fun i => [.u16 i.val]))

/-- ORDER_POST (R35, R36). -/
def execOrderPost (v : Via) (order : Word) (priority : Nat) (lines : List PostLine) (s : State) :
    Host.Outcome State Fault Refusal :=
  request v 0x01 (.orderPost v order priority lines) (State.orderPost order priority lines) s

/-! ### LINE_AMEND (R37) -/

/-- R37: LINE_AMEND's checks and effect. -/
def State.lineAmend (order : Word) (position quantity : Nat) (s : State) : Taken :=
  match s.book.find order with
  | none => s.refuse .unknown
  | some o =>
    match o.lines[position]? with
    | none => s.refuse .unknown
    | some i =>
      if quantity = 0 ∨ 999 < quantity then s.refuse .malformed
      else if o.status ≠ .opened ∧ o.status ≠ .held then s.refuse .state
      else
        match s.book.lines[i] with
        | none => s.refuse .unknown
        | some l =>
          if quantity < l.done + l.reserved then s.refuse .state
          else if quantity = l.quantity then s.accept []
          else ((s.changeLine i { l with quantity := quantity }).rematchIf (decide (l.quantity < quantity))).accept []

/-- LINE_AMEND (R37). -/
def execLineAmend (v : Via) (order : Word) (position quantity : Nat) (s : State) : Host.Outcome State Fault Refusal :=
  request v 0x02 (.lineAmend v order position quantity) (State.lineAmend order position quantity) s

/-! ### ORDER_HOLD and ORDER_RELEASE (R38) -/

/-- An order's state changed by a request, with its notice (R45). -/
def State.setOrder (s : State) (o : Order) (status : OrderStatus) : State :=
  let o := { o with status := status }
  (s.setBook (s.book.putOrder o)).raise o.notice

/-- R38: ORDER_HOLD. -/
def State.orderHold (order : Word) (s : State) : Taken :=
  match s.book.find order with
  | none => s.refuse .unknown
  | some o =>
    match o.status with
    | .opened => (s.setOrder o .held).accept []
    | .held => s.accept []
    | _ => s.refuse .state

/-- ORDER_HOLD (R38). -/
def execOrderHold (v : Via) (order : Word) (s : State) : Host.Outcome State Fault Refusal :=
  request v 0x03 (.orderHold v order) (State.orderHold order) s

/-- R38: ORDER_RELEASE. -/
def State.orderRelease (order : Word) (s : State) : Taken :=
  match s.book.find order with
  | none => s.refuse .unknown
  | some o =>
    match o.status with
    | .held => ((s.setOrder o .opened).rematch .other).accept []
    | .opened => s.accept []
    | _ => s.refuse .state

/-- ORDER_RELEASE (R38). -/
def execOrderRelease (v : Via) (order : Word) (s : State) : Host.Outcome State Fault Refusal :=
  request v 0x04 (.orderRelease v order) (State.orderRelease order) s

/-! ### ORDER_CANCEL (R39) -/

/-- R39 step 1: a line derived again under a withdrawn order. -/
def Book.cancelLine (b : Book) (i : Fin 512) : Book :=
  match b.lines[i] with
  | none => b
  | some l => b.putLine i (some { l with status := l.derived .cancelling })

/-- R39 step 5: LINE_PROGRESS for a line whose state the cancel changed. -/
def Book.cancelNotice (before after : Book) (i : Fin 512) : List Notice :=
  match after.lines[i] with
  | none => []
  | some l => if before.lineStatus i = some l.status then [] else [after.lineProgress i l]

/-- R57: the orphan mark set on the garments bound to an order. -/
def State.markOrphans (s : State) (order : Word) : State :=
  let mark (g : Garment) : Garment :=
    match g.binding with
    | none => g
    | some b => if b.order = order then { g with orphan := true } else g
  s.setUnits { s.units with garments := vmap (Option.map mark) s.units.garments }

/-- R39: an OPEN or HELD order cancelled. -/
def State.cancelOrder (s : State) (o : Order) : State :=
  let book := o.lines.foldl Book.cancelLine s.book
  let status := book.derivedOrder { o with status := .cancelling }
  let o := { o with status := status }
  let book := book.putOrder o
  ((s.setBook book).markOrphans o.number).raiseAll (o.notice :: o.lines.flatMap (s.book.cancelNotice book))

/-- R39: ORDER_CANCEL's checks and effect. -/
def State.orderCancel (order : Word) (s : State) : Taken :=
  match s.book.find order with
  | none => s.refuse .unknown
  | some o =>
    match o.status with
    | .complete => s.refuse .state
    | .cancelling => s.accept []
    | .cancelled => s.accept []
    | .opened => (s.cancelOrder o).accept []
    | .held => (s.cancelOrder o).accept []

/-- ORDER_CANCEL (R39). -/
def execOrderCancel (v : Via) (order : Word) (s : State) : Host.Outcome State Fault Refusal :=
  request v 0x05 (.orderCancel v order) (State.orderCancel order) s

/-! ### ORDER_RETIRE (R40) -/

/-- R40: an order and its lines removed. -/
def State.retireOrder (s : State) (o : Order) : State :=
  let b := o.lines.foldl (fun b i => b.putLine i none) s.book
  (s.setBook { b with orders := b.orders.filter fun x => x.number != o.number }).raise
    (.orderState o.number none o.sequence)

/-- R40: ORDER_RETIRE's check and effect. -/
def State.orderRetire (order : Word) (s : State) : Taken :=
  match s.book.find order with
  | none => s.refuse .unknown
  | some o =>
    match o.status with
    | .complete => (s.retireOrder o).accept []
    | .cancelled => (s.retireOrder o).accept []
    | _ => s.refuse .state

/-- ORDER_RETIRE (R40). -/
def execOrderRetire (v : Via) (order : Word) (s : State) : Host.Outcome State Fault Refusal :=
  request v 0x06 (.orderRetire v order) (State.orderRetire order) s

end Sys2Proof.Machine
end

