-- ==== Sys2Proof/Machine/Press.lean ====
section
/-! DEFINITION. The Press Controller (chapter 6). -/

namespace Sys2Proof.Machine

/-- R113's close and open times in milliseconds. -/
def pressTime : Nat := 3000

/-- The garment at S2 with its platen and its latched recipe. -/
def State.pressed (s : State) : Option (Fin 16 × Garment × Recipe) :=
  match s.garmentAt 2 with
  | none => none
  | some (p, g) => g.binding.map fun b => (p, g, b.recipe)

/-- The press record of the garment at S2 written. -/
def State.setPressRecord (s : State) (r : PressRecord) : State :=
  match s.garmentAt 2 with
  | none => s
  | some (p, g) => s.putGarment p (some { g with press := r })

/-- R113: the start of a press, where its conditions hold. -/
def State.pressStart (s : State) : State :=
  match s.pressed with
  | none => s
  | some (p, g, _) =>
    if s.press = .idle ∧ g.disposition = .good ∧ g.press = .pending ∧ s.track.line = .running ∧
        s.inputs.pressOpen.level = true then
      (s.putGarment p (some { g with stage := .pressing })).setPress (.closing pressTime)
    else s

/-- PRESS_START (R113). -/
def execPressStart (s : State) : Host.Outcome State Fault Refusal := event State.pressStart s

/-- R114: PRESS_CLOSED becomes active (log 18). -/
def State.pressClosed (s : State) : State :=
  let s := s.setInputs { s.inputs with pressClosed := .settled true }
  match s.press, s.pressed with
  | .closing _, some (_, _, r) => s.setPress (.dwell (100 * r.dwell))
  | _, _ => s

/-- PRESS_CLOSED (R114). -/
def execPressClosed (s : State) : Host.Outcome State Fault Refusal :=
  signal (fun i => { i with pressClosed := i.pressClosed.drive true }) State.pressClosed s

/-- R114: the dwell timer has run out. -/
def State.dwellExpiry (s : State) : State :=
  match s.press with
  | .dwell 0 => s.setPress (.opening pressTime)
  | _ => s

/-- DWELL_EXPIRY (R114). -/
def execDwellExpiry (s : State) : Host.Outcome State Fault Refusal := event State.dwellExpiry s

/-- R114, R116: PRESS_OPEN becomes active (log 18). -/
def State.pressOpened (s : State) : State :=
  let s := s.setInputs { s.inputs with pressOpen := .settled true }
  match s.press with
  | .opening _ => (s.setPressRecord .done).setPress .idle
  | .fault .opening => (s.setPressRecord .done).setPress .idle
  | _ => s

/-- PRESS_OPEN (R114, R116). -/
def execPressOpen (s : State) : Host.Outcome State Fault Refusal :=
  signal (fun i => { i with pressOpen := i.pressOpen.drive true }) State.pressOpened s

/-- R115, R116: S2 held, the controller in FAULT, PRESS_FAULT queued. -/
def State.pressFaulted (s : State) (cause : PressCause) : State :=
  let s := (s.putStation 2 { s.station 2 with held := true }).setPress (.fault cause)
  match s.pressed with
  | none => s
  | some (p, g, r) => s.raise (.pressFault p g.serial cause r.dwell)

/-- R115: the close timer has run out. -/
def State.closeTimeout (s : State) : State :=
  match s.press with
  | .closing 0 => s.pressFaulted .close
  | _ => s

/-- CLOSE_TIMEOUT (R115). -/
def execCloseTimeout (s : State) : Host.Outcome State Fault Refusal := event State.closeTimeout s

/-- R116: the open timer has run out. -/
def State.openTimeout (s : State) : State :=
  match s.press with
  | .opening 0 => (s.setPressRecord .interrupted).pressFaulted .opening
  | _ => s

/-- OPEN_TIMEOUT (R116). -/
def execOpenTimeout (s : State) : Host.Outcome State Fault Refusal := event State.openTimeout s

/-- R117: the emergency stop taken by the Press Controller. -/
def State.interruptPress (s : State) : State :=
  match s.press with
  | .closing _ => (s.setPressRecord .pending).setPress .idle
  | .dwell _ => (s.setPressRecord .pending).setPress .idle
  | _ => s

/-- R116: S2's hold flag has been cleared. -/
def State.pressReleased (s : State) : State :=
  match s.press with
  | .fault .close => s.setPress .idle
  | _ => s

end Sys2Proof.Machine
end

