-- ==== Sys2Proof/Machine/Pins.lean ====
section
/-! DEFINITION. The output pins (R182), computed from the state; all low while RESET_N is low, the link
transmitters at the break level. -/

namespace Sys2Proof.Machine

/-- GO of a segment: asserted while it is MOVING (R5). -/
def SegState.go : SegState → Bool
  | .moving _ _ => true
  | _ => false

/-- PRESS_CLOSE: asserted in CLOSING and DWELL (R113). -/
def Press.close : Press → Bool
  | .closing _ => true
  | .dwell _ => true
  | _ => false

/-- An indicator output's level (R177). -/
def Lamp.on : Lamp → Bool
  | .steady => true
  | .blinkOn _ => true
  | _ => false

/-- What a link's transmitter drives: the break level while RESET_N is low (R182); no frame; or a frame. How
the symbols of a frame and of an idle link look is left out (log 23). -/
inductive LinkPin where
  | breakLevel
  | quiet
  | frame (bytes : List Byte)
  deriving DecidableEq, Repr

/-- What a link transmits while RESET_N is high (R169, R172). -/
def LinkState.pin (k : LinkState) : LinkPin :=
  match k.tx with
  | .idle => .quiet
  | .sending _ f => .frame f

/-- The outputs of the part, its memory bus apart: the line's, and the four link transmitters'. -/
structure Pins where
  goExit : Vector Bool 6
  goEntry : Vector Bool 6
  valve : Vector Bool 8
  sprayRun : Bool
  pressClose : Bool
  ind : Vector Bool 6
  orderLink : LinkPin
  operatorLink : LinkPin
  headLink : LinkPin
  cureLink : LinkPin
  deriving DecidableEq, Repr

/-- While RESET_N is low every output is low, and the link transmitters hold the break level (R182). -/
def Pins.low : Pins where
  goExit := Vector.replicate 6 false
  goEntry := Vector.replicate 6 false
  valve := Vector.replicate 8 false
  sprayRun := false
  pressClose := false
  ind := Vector.replicate 6 false
  orderLink := .breakLevel
  operatorLink := .breakLevel
  headLink := .breakLevel
  cureLink := .breakLevel

/-- R182: what the part drives. -/
def State.pins (s : State) : Pins :=
  if s.resetLow then .low
  else
    { goExit := vmap SegState.go s.track.exits
      goEntry := vmap SegState.go s.track.entries
      valve := vmap Channel.valve s.spray.channels
      sprayRun := s.spray.run.isSome
      pressClose := s.press.close
      ind := vmap (fun i => i.lamp.on) s.indicators
      orderLink := s.links.order.pin
      operatorLink := s.links.operator.pin
      headLink := s.links.head.pin
      cureLink := s.links.cure.pin }

end Sys2Proof.Machine
end

