-- ==== Sys2Proof/Machine/Shelf.lean ====
section
/-! DEFINITION. The Rework Shelf (chapter 9) and the bytes of a context record (R181). -/

namespace Sys2Proof.Machine

/-! ### Contexts (R150, R151) -/

def State.shelfSlot (s : State) (i : Fin 8) : Option ShelfSlot := s.shelf.slots[i]

def State.putShelf (s : State) (i : Fin 8) (x : Option ShelfSlot) : State :=
  s.setShelf { s.shelf with slots := upd s.shelf.slots i x }

/-- The lowest-numbered empty slot (R153, R161). -/
def State.freeShelf (s : State) : Option (Fin 8) := (List.finRange 8).find? fun i => (s.shelfSlot i).isNone

/-- A tally in units of 1024, held at 65535 (R150). -/
def tallyUnits (t : Nat) : Nat := min 65535 (t / 1024)

/-- The length of a record in FULL form (R150). -/
def fullLength : Nat := 60

/-- R151, R153: the context of a bound garment of class `c`: each component in use is copied. Held whole, it has
the length of the full form (DEDUCED, log 14). -/
def Garment.context (g : Garment) (c : Fin 16) (b : Binding) (now : Word) : Context where
  length := fullLength
  serial := g.serial
  ident := ⟨g.blank, c, b.order, b.line, g.disposition == .reject, g.orphan, g.restored, now⟩
  pretreat :=
    if pretreatUse g.pretreat.result g.press = .notInUse then none
    else some ⟨g.pretreat.coverage, g.pretreat.result, g.press, g.pretreat.planned, g.pretreat.issued, g.pretreat.shortfall⟩
  print :=
    if printUse g.print.phase = .notInUse then none
    else
      some ⟨g.print.phase, g.print.count, g.print.produced, g.print.released, g.print.tallies.w,
        tallyUnits g.print.tallies.c, tallyUnits g.print.tallies.m, tallyUnits g.print.tallies.y,
        tallyUnits g.print.tallies.k⟩
  cure :=
    if cureUse g.cure.result g.cure.credit g.cure.carry g.cure.scorch = .notInUse then none
    else some ⟨g.cure.result, g.cure.carry, g.cure.credit, g.cure.required, g.cure.scorch⟩

def CtxPretreat.use (c : CtxPretreat) : Use := pretreatUse c.result c.press
def CtxPrint.use (c : CtxPrint) : Use := printUse c.phase
def CtxCure.use (c : CtxCure) : Use := cureUse c.result c.credit c.carry c.scorch

/-- How each component of a context is in use (R151), IDENT apart: it is always complete. -/
structure Uses where
  pretreat : Use
  print : Use
  cure : Use
  deriving DecidableEq, Repr

def Context.uses (c : Context) : Uses where
  pretreat := (c.pretreat.map CtxPretreat.use).getD .notInUse
  print := (c.print.map CtxPrint.use).getD .notInUse
  cure := (c.cure.map CtxCure.use).getD .notInUse

/-- The SHELF_CHANGE notice of a context (R162). -/
def Context.notice (c : Context) (i : Fin 8) (e : ShelfEvent) (restored : Option (Fin 16 × Components)) : Notice :=
  .shelfChange i e c.serial c.present c.ident.order c.ident.line restored

/-! ### SHELF_PERMIT_SET (R154) -/

/-- R154. -/
def State.shelfPermitSet (mask : Nat) (s : State) : Taken :=
  match Components.ofMask mask with
  | none => s.refuse .malformed
  | some c => (s.setShelf { s.shelf with permit := c }).accept []

/-- SHELF_PERMIT_SET (R154). -/
def execShelfPermitSet (v : Via) (mask : Nat) (s : State) : Host.Outcome State Fault Refusal :=
  request v 0x16 (.shelfPermitSet v mask) (State.shelfPermitSet mask) s

/-! ### SHELVE (R152, R153) -/

/-- R152 check 4, by the station the platen stands at. -/
def Garment.shelvable (g : Garment) (place : Place) : Bool :=
  match place with
  | .station 0 => g.binding.isSome
  | .station 5 => g.stage == .released || g.disposition == .reject
  | _ => false

/-- R153: a bound garment shelved into an empty slot. -/
def State.shelveGarment (s : State) (p : Fin 16) (g : Garment) (c : Fin 16) (b : Binding) (i : Fin 8) : State :=
  let x := g.context c b s.clock.time
  let t := s.putShelf i (some ⟨x, b.recipe, b.placement⟩)
  let t := if s.place p = .station 0 then t.withdrawJob p g else t
  ((t.raise (x.notice i .saved none)).raise (g.doneNotice p .shelved)).putGarment p none

/-- R152, R153: SHELVE's checks and effect. -/
def State.shelve (platen : Nat) (s : State) : Taken :=
  match inRange 16 platen with
  | none => s.refuse .range
  | some p =>
    if s.place p ≠ .station 0 ∧ s.place p ≠ .station 5 then s.refuse .wrongPlaten
    else
      match s.garment p with
      | none => s.refuse .state
      | some g =>
        if g.shelvable (s.place p) = false then s.refuse .state
        else
          match s.freeShelf, g.binding, g.cls with
          | none, _, _ => s.refuse .full
          | some i, some b, some c =>
            (s.shelveGarment p g c b i).accept
              [.word g.serial, .u8 i.val, .u8 (g.context c b s.clock.time).present.mask]
          | some _, _, _ => s.refuse .state

/-- SHELVE (R152, R153). -/
def execShelve (v : Via) (platen : Nat) (s : State) : Host.Outcome State Fault Refusal :=
  request v 0x1A (.shelve v platen) (State.shelve platen) s

/-! ### UNSHELVE (R155 to R157) -/

/-- The components of a context that are present and in use (R155). -/
def Context.held (c : Context) : Components :=
  ⟨true, c.uses.pretreat != .notInUse, c.uses.print != .notInUse, c.uses.cure != .notInUse⟩

/-- R155's tests (a), (b) and (c) on an effective mask. -/
def Context.badMask (c : Context) (e : Components) : Bool :=
  let held := c.held
  let loaded := e.inter held
  !e.ident ||
  (e.pretreat && c.uses.pretreat == .isPartial) || (e.print && c.uses.print == .isPartial) ||
  (e.cure && c.uses.cure == .isPartial) ||
  (held.pretreat && !loaded.pretreat && (held.print || held.cure)) || (held.print && !loaded.print && held.cure)

/-- R157: the stage a restored garment resumes at. -/
def resumeStage (loaded : Components) : Stage :=
  if loaded.pretreat = false then .matched
  else if loaded.print = false then .printWait
  else if loaded.cure = false then .cureWait
  else .released

/-- R156: a loaded PRETREAT component in the garment record. -/
def CtxPretreat.record (c : CtxPretreat) : PretreatRecord :=
  ⟨c.coverage, DoseMap.zero, c.planned, c.issued, c.shortfall, c.result⟩

/-- R156: a loaded PRINT component in the garment record, its swath row indices from the extent. -/
def CtxPrint.record (c : CtxPrint) (e : Option Rect) : PrintRecord :=
  let indices := match e with | none => (0, 0) | some e => e.swathIndices
  ⟨c.phase, indices.1, indices.2, c.count, c.produced, c.released, ⟨c.c * 1024, c.m * 1024, c.y * 1024, c.k * 1024, c.w⟩⟩

/-- R156: a loaded CURE component in the garment record. -/
def CtxCure.record (c : CtxCure) : CureRecord := ⟨c.credit, c.carry, c.required, none, c.scorch, false, c.result⟩

/-- A component of a context, where it is loaded. -/
def loadedPart {α : Type} (loaded : Bool) (x : Option α) : Option α := if loaded then x else none

/-- R156: the pretreat and press records of a restored garment, and the cursor of its coverage job. -/
def State.restoredPretreat (s : State) (x : ShelfSlot) (loaded : Components) :
    PretreatRecord × PressRecord × Option Nat :=
  match loadedPart loaded.pretreat x.context.pretreat with
  | some c => (c.record, c.press, none)
  | none => s.settledPretreat x.recipe x.placement

/-- R156: the garment record of a restored context. -/
def State.restoredGarment (s : State) (x : ShelfSlot) (loaded : Components) : Garment :=
  let c := x.context
  let pretreat := s.restoredPretreat x loaded
  let orphan :=
    match s.book.find c.ident.order with
    | none => false
    | some o => o.status == .cancelling
  { serial := c.serial
    blank := c.ident.blank
    cls := some c.ident.cls
    binding := some ⟨c.ident.order, c.ident.line, x.recipe, x.placement⟩
    stage := resumeStage loaded
    hold := none
    disposition := .good
    orphan := orphan
    restored := true
    pretreat := pretreat.1
    press := pretreat.2.1
    print := ((loadedPart loaded.print c.print).map fun r => r.record (s.extent x.placement)).getD PrintRecord.fresh
    cure := ((loadedPart loaded.cure c.cure).map CtxCure.record).getD CureRecord.fresh }

/-- R156: a context restored to a platen. -/
def State.restore (s : State) (i : Fin 8) (x : ShelfSlot) (p : Fin 16) (loaded : Components) : State :=
  let g := s.restoredGarment x loaded
  let t := (s.putGarment p (some g)).appendJob p g.serial (s.restoredPretreat x loaded).2.2
  (t.putShelf i none).raise (x.context.notice i .restored (some (p, loaded)))

/-- Whether the art a placement names is READY. -/
def State.artReady (s : State) (p : Placement) : Bool := (s.art p.art).map Art.status == some .ready

/-- R155, R156: UNSHELVE's checks and effect. -/
def State.unshelve (slot platen mask : Nat) (s : State) : Taken :=
  match inRange 8 slot, inRange 16 platen with
  | none, _ => s.refuse .range
  | _, none => s.refuse .range
  | some i, some p =>
    match Components.ofMask mask with
    | none => s.refuse .malformed
    | some r =>
      if s.track.line = .census then s.refuse .state
      else
        match s.shelfSlot i with
        | none => s.refuse .state
        | some x =>
          if s.place p ≠ .station 0 then s.refuse .wrongPlaten
          else if (s.garment p).isSome ∨ s.artReady x.placement = false then s.refuse .state
          else
            let e := r.inter s.shelf.permit
            let loaded := e.inter x.context.held
            if x.context.badMask e then s.refuse .badMask
            else
              (s.restore i x p loaded).accept [.word x.context.serial, .u8 loaded.mask, .u8 (resumeStage loaded).code]

/-- UNSHELVE (R155, R156). -/
def execUnshelve (v : Via) (slot platen mask : Nat) (s : State) : Host.Outcome State Fault Refusal :=
  request v 0x1B (.unshelve v slot platen mask) (State.unshelve slot platen mask) s

/-! ### SHELF_DROP (R158) -/

/-- A counter request for a context's line, the slot emptied, and SHELF_CHANGE (R158, R159). -/
def State.takeOff (s : State) (i : Fin 8) (x : ShelfSlot) (c : Counter) (e : ShelfEvent) : State :=
  let counted := s.count c x.context.ident.line
  ((counted.1.putShelf i none).raise (x.context.notice i e none)).rematchIf counted.2

/-- R158: SHELF_DROP's checks and effect. -/
def State.shelfDrop (slot : Nat) (s : State) : Taken :=
  match inRange 8 slot with
  | none => s.refuse .range
  | some i =>
    match s.shelfSlot i with
    | none => s.refuse .state
    | some x => (s.takeOff i x .spoil .dropped).accept [.word x.context.serial]

/-- SHELF_DROP (R158). -/
def execShelfDrop (v : Via) (slot : Nat) (s : State) : Host.Outcome State Fault Refusal :=
  request v 0x19 (.shelfDrop v slot) (State.shelfDrop slot) s

/-! ### Records (R150, R159, R181) -/

/-- The two forms of a context record. -/
inductive RecordForm where
  | full | compact
  deriving DecidableEq, Repr

def RecordForm.ofCode : Nat → Option RecordForm
  | 0 => some .full
  | 1 => some .compact
  | _ => none

def RecordForm.code : RecordForm → Nat
  | .full => 0
  | .compact => 1

/-- A component's bytes: its fields where present, and zeros in FULL, nothing in COMPACT, where absent. -/
def RecordForm.part (f : RecordForm) (size : Nat) : Option (List Field) → List Field
  | some fs => fs
  | none =>
    match f with
    | .full => [.bytes (List.replicate size 0)]
    | .compact => []

/-- The length of a record in bytes (R159). -/
def RecordForm.length (f : RecordForm) (c : Components) : Nat :=
  match f with
  | .full => fullLength
  | .compact => 8 + 16 * c.ident.toNat + 12 * c.pretreat.toNat + 16 * c.print.toNat + 8 * c.cure.toNat

def CtxIdent.fields (c : CtxIdent) (orphan : Bool) : List Field :=
  blankFields c.blank ++
  [.u8 c.cls.val, .u8 (c.reject.toNat + 2 * orphan.toNat + 4 * c.restored.toNat), .u16 c.line.val, .word c.order,
   .word c.time]

def CtxPretreat.fields (c : CtxPretreat) : List Field :=
  [.u8 c.coverage.code, .u8 c.result.code, .u8 c.press.code, .u24 c.planned, .u24 c.issued, .u24 c.shortfall]

def CtxPrint.fields (c : CtxPrint) : List Field :=
  [.u8 c.phase.code, .u8 c.count, .u8 c.produced, .u8 c.released, .u32 c.w, .u16 c.c, .u16 c.m, .u16 c.y, .u16 c.k]

def CtxCure.fields (c : CtxCure) : List Field :=
  [.u8 c.result.code, .u8 c.carry, .u16 c.credit, .u16 c.required, .u16 c.scorch]

/-- The eight bytes of a header of a form and a length. -/
def Context.header (c : Context) (f : RecordForm) (length : Nat) : List Field :=
  [.u8 f.code, .u8 c.present.mask, .u16 length, .word c.serial]

/-- R159, R181: a context record, IDENT's orphan mark given; its header states its own form and length. -/
def Context.record (c : Context) (f : RecordForm) (orphan : Bool) : List Field :=
  c.header f (f.length c.present) ++ f.part 16 (some (c.ident.fields orphan)) ++ f.part 12 (c.pretreat.map CtxPretreat.fields) ++
  f.part 16 (c.print.map CtxPrint.fields) ++ f.part 8 (c.cure.map CtxCure.fields)

/-! ### SHELF_EXPORT (R159) -/

/-- R159: the orphan mark an export carries. -/
def State.exportOrphan (s : State) (c : Context) : Bool :=
  match s.book.find c.ident.order with
  | none => c.ident.orphan
  | some o => o.status == .cancelling || c.ident.orphan

/-- R159: SHELF_EXPORT's checks and effect. The reply carries the record behind a 2-byte count (DESIGN CHOICE, log 14). -/
def State.shelfExport (slot form : Nat) (s : State) : Taken :=
  match inRange 8 slot with
  | none => s.refuse .range
  | some i =>
    match RecordForm.ofCode form with
    | none => s.refuse .malformed
    | some f =>
      match s.shelfSlot i with
      | none => s.refuse .state
      | some x =>
        (s.takeOff i x .release .exported).accept
          (runOf (encodeFields (x.context.record f (s.exportOrphan x.context))))

/-- SHELF_EXPORT (R159). -/
def execShelfExport (v : Via) (slot form : Nat) (s : State) : Host.Outcome State Fault Refusal :=
  request v 0x17 (.shelfExport v slot form) (State.shelfExport slot form) s

/-! ### SHELF_IMPORT (R160, R161) -/

/-- A coded value, by its place in a list. -/
def coded {α : Type} (values : List α) : Parse α := do
  let n ← Parse.u8
  match values[n]? with
  | none => failure
  | some x => pure x

/-- Three bytes, most significant first. -/
def parse24 : Parse Nat := do
  let h ← Parse.u8
  let l ← Parse.u16
  pure (65536 * h + l)

/-- IDENT as a record carries it. -/
structure ReadIdent where
  blank : BlankCode
  cls : Fin 16
  marks : Nat
  line : Fin 512
  order : Word
  time : Word
  deriving DecidableEq, Repr

def parseIdent : Parse ReadIdent := do
  let blank ← Parse.blank
  let cls ← Parse.u8
  let marks ← Parse.u8
  let line ← Parse.u16
  let order ← Parse.word
  let time ← Parse.word
  match inRange 16 cls, inRange 512 line with
  | some c, some i => if blank.isNull ∨ 8 ≤ marks then failure else pure ⟨blank, c, marks, i, order, time⟩
  | _, _ => failure

def parsePretreat : Parse CtxPretreat := do
  let coverage ← coded [CoverageState.none, .queued, .scanning, .complete]
  let result ← coded [PretreatResult.pending, .done, .short, .interrupted, .waived]
  let press ← coded [PressRecord.pending, .done, .interrupted, .waived]
  let planned ← parse24
  let issued ← parse24
  let shortfall ← parse24
  pure ⟨coverage, result, press, planned, issued, shortfall⟩

def parsePrint : Parse CtxPrint := do
  let phase ← coded [PrintPhase.none, .underbase, .color, .complete, .aborted]
  let count ← Parse.u8
  let produced ← Parse.u8
  let released ← Parse.u8
  let w ← Parse.u32
  let c ← Parse.u16
  let m ← Parse.u16
  let y ← Parse.u16
  let k ← Parse.u16
  pure ⟨phase, count, produced, released, w, c, m, y, k⟩

def parseCure : Parse CtxCure := do
  let result ← coded [CureResult.none, .released, .scorched]
  let carry ← Parse.u8
  let credit ← Parse.u16
  let required ← Parse.u16
  let scorch ← Parse.u16
  if 99 < carry then failure else pure ⟨result, carry, credit, required, scorch⟩

/-- R160: a component that may be absent; in FULL form its bytes are then there, and zero. -/
def RecordForm.parsePart {α : Type} (f : RecordForm) (size : Nat) (present : Bool) (p : Parse α) :
    Parse (Option α) :=
  if present then do
    let x ← p
    pure (some x)
  else
    match f with
    | .compact => pure none
    | .full => do
      let bytes ← Parse.many Parse.u8 size
      if bytes.all (fun b => b == 0) then pure none else failure

/-- A record read, its serial left aside (R160). -/
structure ReadRecord where
  length : Nat
  ident : ReadIdent
  pretreat : Option CtxPretreat
  print : Option CtxPrint
  cure : Option CtxCure
  deriving DecidableEq, Repr

/-- R160 check 1 on a record of `received` bytes. -/
def parseRecord (received : Nat) : Parse ReadRecord := do
  let format ← Parse.u8
  let mask ← Parse.u8
  let length ← Parse.u16
  let _ ← Parse.word
  match RecordForm.ofCode format, Components.ofMask mask with
  | some f, some c =>
    if c.ident = false ∨ length ≠ f.length c ∨ received ≠ f.length c then failure
    else do
      let ident ← parseIdent
      let pretreat ← f.parsePart 12 c.pretreat parsePretreat
      let print ← f.parsePart 16 c.print parsePrint
      let cure ← f.parsePart 8 c.cure parseCure
      pure ⟨length, ident, pretreat, print, cure⟩
  | _, _ => failure

/-- R160 check 1: a record's contents, where it is not MALFORMED. -/
def readRecord (record : List Byte) : Option ReadRecord := Parse.whole (parseRecord record.length) record

/-- R161: the context that an imported record gives, under its fresh serial: header and components as received. -/
def ReadRecord.context (r : ReadRecord) (serial : Word) : Context where
  length := r.length
  serial := serial
  ident :=
    ⟨r.ident.blank, r.ident.cls, r.ident.order, r.ident.line, r.ident.marks.testBit 0, r.ident.marks.testBit 1,
      r.ident.marks.testBit 2, r.ident.time⟩
  pretreat := r.pretreat
  print := r.print
  cure := r.cure

/-- R160 check 2: the line a record names, where it is a line of the order it names. -/
def State.namedLine (s : State) (r : ReadRecord) : Option (Fin 512 × Line) :=
  match s.book.find r.ident.order with
  | none => none
  | some o => if r.ident.line ∈ o.lines then (s.book.lines[r.ident.line]).map fun l => (r.ident.line, l) else none

/-- R161: an accepted import, its reservation granted in `s`. -/
def State.placeImport (s : State) (i : Fin 8) (x : Context) (l : Line) : State :=
  let t := s.takeSerial.putShelf i (some ⟨x, s.book.recipes[x.ident.cls], l.placement⟩)
  t.raise (x.notice i .imported none)

/-- R160, R161: SHELF_IMPORT's checks and effect. -/
def State.shelfImport (record : List Byte) (s : State) : Taken :=
  match readRecord record with
  | none => s.refuse .malformed
  | some r =>
    match s.namedLine r with
    | none => s.refuse .unknown
    | some (line, l) =>
      if l.blank ≠ r.ident.blank then s.refuse .state
      else
        match s.freeShelf, s.reserve line with
        | none, _ => s.refuse .full
        | some _, none => s.refuse .state
        | some i, some t =>
          (t.placeImport i (r.context t.freshSerial) l).accept [.u8 i.val, .word t.freshSerial]

/-- SHELF_IMPORT (R160, R161). -/
def execShelfImport (v : Via) (record : List Byte) (s : State) : Host.Outcome State Fault Refusal :=
  request v 0x18 (.shelfImport v record) (State.shelfImport record) s

end Sys2Proof.Machine
end

