-- ==== Sys2Proof/Machine/Spray.lean ====
section
/-! DEFINITION. The Spray Controller (chapter 6): the spray sequence and the eight zone carrier channels. -/

namespace Sys2Proof.Machine

/-- The garment at S1 with its platen and its latched recipe. -/
def State.sprayed (s : State) : Option (Fin 16 × Garment × Recipe) :=
  match s.garmentAt 1 with
  | none => none
  | some (p, g) => g.binding.map fun b => (p, g, b.recipe)

/-- The PRETREAT_RESULT notice (R110). -/
def Garment.pretreatNotice (g : Garment) (p : Fin 16) (r : Recipe) (strobes : Nat) : Notice :=
  .pretreatResult p g.serial g.pretreat.result g.pretreat.planned g.pretreat.issued g.pretreat.shortfall r.tolerance
    strobes

/-! ### The start (R108) -/

/-- R108: the start of a spray sequence, where its conditions hold. -/
def State.sprayStart (s : State) : State :=
  match s.sprayed with
  | none => s
  | some (p, g, r) =>
    if s.spray.run.isSome ∨ g.needsSpraying = false ∨ g.pretreat.coverage ≠ .complete ∨ s.track.line ≠ .running then s
    else if g.pretreat.planned = 0 then
      let g := { g with pretreat := { g.pretreat with result := .done } }
      (s.putGarment p (some g)).raise (g.pretreatNotice p r 0)
    else
      (s.putGarment p (some { g with stage := .spraying })).setSpray
        ⟨some ⟨0, none⟩, Vector.replicate 8 Channel.off⟩

/-- SPRAY_START (R108). -/
def execSprayStart (s : State) : Host.Outcome State Fault Refusal := event State.sprayStart s

/-! ### Channels (R107) -/

/-- R107: a channel loaded with a cell's planned pulses. -/
def Channel.load (period planned : Nat) : Channel :=
  if planned = 0 then Channel.off else ⟨period, planned - 1, true, true, false⟩

/-- The pulses that loading a cell counts as issued. -/
def loadIssue (planned : Nat) : Nat := if planned = 0 then 0 else 1

/-- What cutting the channels adds to the shortfall: the remaining pulses of those still active. -/
def cutShortfall (c : Vector Channel 8) : Nat :=
  (c.toList.map fun c => if c.active then c.remaining else 0).sum

/-- The planned pulses of the bands that never received a strobe (R110 step 2). -/
def unstrobed (map : DoseMap) (strobes : Nat) : Nat :=
  ((map.toList.drop strobes).map fun row => row.toList.sum).sum

/-! ### BAND and END (R109, R110) -/

/-- R109: a band strobe. -/
def State.bandStrobe (s : State) : State :=
  match s.spray.run, s.sprayed with
  | some run, some (p, g, r) =>
    match inRange 63 run.strobes with
    | none => s
    | some k =>
      let cells := g.pretreat.map[k]
      let record :=
        { g.pretreat with
          issued := g.pretreat.issued + (cells.toList.map loadIssue).sum
          shortfall := g.pretreat.shortfall + cutShortfall s.spray.channels }
      (s.putGarment p (some { g with pretreat := record })).setSpray
        ⟨some ⟨run.strobes + 1, some run.strobes⟩, vmap (Channel.load r.period) cells⟩
  | _, _ => s

/-- BAND (R109). -/
def execBand (s : State) : Host.Outcome State Fault Refusal := event State.bandStrobe s

/-- R110 steps 1 and 2, which R111 shares: the pretreat record when a sequence ends. -/
def PretreatRecord.ended (r : PretreatRecord) (spray : Spray) (strobes : Nat) : PretreatRecord :=
  { r with shortfall := r.shortfall + cutShortfall spray.channels + unstrobed r.map strobes }

/-- R110: END. -/
def State.finishSpray (s : State) : State :=
  match s.spray.run, s.sprayed with
  | some run, some (p, g, r) =>
    let record := g.pretreat.ended s.spray run.strobes
    let record := { record with result := if r.tolerance < record.shortfall then .short else .done }
    let g := { g with pretreat := record }
    ((s.putGarment p (some g)).setSpray Spray.reset).raise (g.pretreatNotice p r run.strobes)
  | _, _ => s

/-- END (R110). -/
def execSprayEnd (s : State) : Host.Outcome State Fault Refusal := event State.finishSpray s

/-- R111: a running sequence interrupted by the emergency stop. -/
def State.interruptSpray (s : State) : State :=
  match s.spray.run, s.sprayed with
  | some run, some (p, g, r) =>
    let record := { g.pretreat.ended s.spray run.strobes with result := .interrupted }
    let g := { g with pretreat := record, disposition := .reject }
    ((s.putGarment p (some g)).setSpray Spray.reset).raise (g.pretreatNotice p r run.strobes)
  | _, _ => s

/-! ### Zone events (R107) -/

def State.putChannel (s : State) (z : Fin 8) (c : Channel) : State :=
  s.setSpray { s.spray with channels := upd s.spray.channels z c }

/-- R107: the counter of an active channel has come down to H: the valve closes. -/
def State.valveClose (z : Fin 8) (s : State) : State :=
  match s.spray.run, s.sprayed with
  | some _, some (_, _, r) =>
    let c := s.spray.channels[z]
    if c.active = true ∧ c.valve = true ∧ c.counter ≤ r.duty then s.putChannel z { c with valve := false } else s
  | _, _ => s

/-- ZONE_VALVE_CLOSE (R107). -/
def execZoneValveClose (zone : Fin 8) (s : State) : Host.Outcome State Fault Refusal := event (State.valveClose zone) s

/-- R107: a tick at counter 0 with pulses remaining: the next pulse begins. -/
def State.pulseReload (z : Fin 8) (s : State) : State :=
  match s.spray.run, s.sprayed with
  | some _, some (p, g, r) =>
    let c := s.spray.channels[z]
    if c.active = true ∧ c.due = true ∧ c.counter = 0 ∧ 0 < c.remaining then
      (s.putGarment p (some { g with pretreat := { g.pretreat with issued := g.pretreat.issued + 1 } })).putChannel z
        ⟨r.period, c.remaining - 1, true, true, false⟩
    else s
  | _, _ => s

/-- ZONE_PULSE_RELOAD (R107). -/
def execZonePulseReload (zone : Fin 8) (s : State) : Host.Outcome State Fault Refusal :=
  event (State.pulseReload zone) s

/-- R107: a tick at counter 0 with none remaining: the channel becomes inactive. -/
def State.channelExhausted (z : Fin 8) (s : State) : State :=
  match s.spray.run with
  | none => s
  | some _ =>
    let c := s.spray.channels[z]
    if c.active = true ∧ c.due = true ∧ c.counter = 0 ∧ c.remaining = 0 then s.putChannel z Channel.off else s

/-- ZONE_CHANNEL_EXHAUSTED (R107). -/
def execZoneChannelExhausted (zone : Fin 8) (s : State) : Host.Outcome State Fault Refusal :=
  event (State.channelExhausted zone) s

end Sys2Proof.Machine
end

