-- ==== Sys2Proof/Machine/Track.lean ====
section
/-! DEFINITION. The Track Manager (chapter 1): the advance rule, the ends of moves, jams, the emergency stop,
the census, holds and service. -/

namespace Sys2Proof.Machine

/-! ### What a station's owner does (R2) -/

/-- R118: a platen has left S2. -/
def State.leavePress (s : State) (p : Fin 16) : State :=
  match s.garment p with
  | none => s
  | some g => if g.disposition = .good then s.putGarment p (some { g with stage := .printWait }) else s

/-- R157: a platen has arrived at S5. -/
def State.arriveUnload (s : State) (p : Fin 16) : State :=
  match s.garment p with
  | none => s
  | some g =>
    if g.cure.result = .released ∧ g.disposition = .good then s.putGarment p (some { g with stage := .released }) else s

/-- The owner of a station is told of an arrival: S4's begins a cure (R140), S5's sets the stage (R157). What
the owners of S1, S2 and S3 begin are events of their own (R106, R113, R128); S0's does nothing (R58). -/
def State.arrival (s : State) (n : Fin 6) (p : Fin 16) : State :=
  match n with
  | 4 => s.cureEntry p
  | 5 => s.arriveUnload p
  | _ => s

/-- The owner of a station is told of a departure: S2's sets the stage (R118). -/
def State.departure (s : State) (n : Fin 6) (p : Fin 16) : State :=
  match n with
  | 2 => s.leavePress p
  | _ => s

/-- A platen placed at a station: its occupant, its place, the reservation cleared, the owner told (R2). -/
def State.placeAt (s : State) (n : Fin 6) (p : Fin 16) : State :=
  ((s.putStation n { s.station n with occupant := some p, reserved := false }).putPlace p (.station n)).arrival n p

/-- A platen put at the tail of a lane (R4). -/
def State.joinLane (s : State) (n : Fin 6) (p : Fin 16) : State :=
  (s.putLane n (s.lane n ++ [p])).putPlace p (.lane n)

/-- A station's occupant cleared, the owner told of the departure (R2). -/
def State.vacate (s : State) (n : Fin 6) (p : Fin 16) : State :=
  (s.putStation n { s.station n with occupant := none }).departure n p

/-- PLATEN_MOVED, with the platen's place as it now is. -/
def State.platenMoved (s : State) (p : Fin 16) (g : Option Segment) : State :=
  s.raise (.platenMoved p g (s.place p) (s.lanePosition p))

/-! ### The advance rule (R7 to R9) -/

/-- R7: the platen that an exit segment may start with. -/
def State.exitReady (s : State) (n : Fin 6) : Option (Fin 16) :=
  match (s.station n).occupant with
  | none => none
  | some p =>
    if s.track.line = .running ∧ s.seg (.exit n) = .idle ∧ s.place p = .station n ∧ (s.station n).held = false ∧
        s.track.laneRoom n = true ∧ s.mayLeave n p = true then some p
    else none

/-- R8: the platen that an entry segment may start with. -/
def State.entryReady (s : State) (n : Fin 6) : Option (Fin 16) :=
  let m := s.station (nextStation n)
  match s.lane n with
  | [] => none
  | p :: _ =>
    if s.track.line = .running ∧ s.seg (.entry n) = .idle ∧ m.occupant = none ∧ m.reserved = false ∧ m.held = false then
      some p
    else none

/-- R9: what every start of a move does. -/
def State.carry (s : State) (g : Segment) (p : Fin 16) : State :=
  (s.putPlace p (.moving g)).putSeg g (.moving p s.clock.time)

/-- R7 to R9: a move started on a segment, where its conditions hold. -/
def State.moveStart (g : Segment) (s : State) : State :=
  match g with
  | .exit n =>
    match s.exitReady n with
    | none => s
    | some p => s.carry (.exit n) p
  | .entry n =>
    match s.entryReady n with
    | none => s
    | some p =>
      let t := s.putLane n (s.lane n).tail
      let m := nextStation n
      (t.putStation m { t.station m with reserved := true }).carry (.entry n) p

/-- MOVE_START (R9). -/
def execMoveStart (seg : Segment) (s : State) : Host.Outcome State Fault Refusal := event (State.moveStart seg) s

/-! ### ARRIVE and MOVE_TIMEOUT (R10 to R12) -/

/-- R10: a move ended by ARRIVE. -/
def State.endMove (s : State) (g : Segment) (p : Fin 16) : State :=
  match g with
  | .exit n => (((s.joinLane n p).vacate n p).putSeg g .idle).platenMoved p (some g)
  | .entry n => ((s.placeAt (nextStation n) p).putSeg g .idle).platenMoved p (some g)

/-- R10, R12: ARRIVE sensed on a segment. -/
def State.arrive (g : Segment) (s : State) : State :=
  match s.seg g with
  | .idle => s
  | .moving p _ => s.endMove g p
  | .jammed p c _ => (s.putSeg g (.jammed p c true)).raise (.jam g p c true)

/-- ARRIVE (R10, R12). -/
def execArrive (seg : Segment) (s : State) : Host.Outcome State Fault Refusal := event (State.arrive seg) s

/-- A MOVING segment jammed: the station and lane load that belong to the move are kept (R11, R15, R25). -/
def State.jamSeg (s : State) (g : Segment) (p : Fin 16) (c : JamCause) : State :=
  (s.putSeg g (.jammed p c false)).putPlace p (.uncertain g)

/-- R11's time limit in milliseconds. -/
def moveTime : Nat := 8000

/-- A line that is RUNNING becomes STOPPED, with its notice (R6). -/
def State.stopLine (s : State) : State := if s.track.line = .running then s.setLine .stopped else s

/-- R11: a move has timed out. The notices are JAM, then LINE_STATE (log 12). -/
def State.moveTimeout (g : Segment) (s : State) : State :=
  match s.seg g with
  | .moving p start =>
    if moveTime ≤ elapsed start s.clock.time then
      ((s.jamSeg g p .timeout).raise (.jam g p .timeout false)).stopLine
    else s
  | _ => s

/-- MOVE_TIMEOUT (R11). -/
def execMoveTimeout (seg : Segment) (s : State) : Host.Outcome State Fault Refusal := event (State.moveTimeout seg) s

/-! ### Emergency stop (R15, R16) -/

/-- A segment jammed where it is MOVING. -/
def State.jamMoving (c : JamCause) (s : State) (g : Segment) : State :=
  match s.seg g with
  | .moving p _ => s.jamSeg g p c
  | _ => s

/-- The JAM notices for the segments that are MOVING. -/
def State.jamNotices (s : State) (c : JamCause) : List Notice :=
  allSegments.filterMap fun g =>
    match s.seg g with
    | .moving p _ => some (.jam g p c false)
    | _ => none

/-- The line STOPPED if it was RUNNING, without a notice. -/
def Track.stop (t : Track) : Track := if t.line = .running then { t with line := .stopped } else t

/-- R15: the emergency-stop input becomes active, as the Track Manager takes it. -/
def State.stopTrack (s : State) : State :=
  let jams := s.jamNotices .eStop
  let t := allSegments.foldl (State.jamMoving .eStop) s
  let t := (t.setInputs { t.inputs with estop := .settled true }).setTrack t.track.stop
  (t.raiseAll jams).raise t.lineStateNotice

/-- R15, R111, R117: the emergency stop. An input that is active already has not changed its level. -/
def State.emergencyStop (s : State) : State :=
  if s.inputs.estop.level then s else s.stopTrack.interruptSpray.interruptPress

/-- EMERGENCY_STOP_ASSERTED (R15). -/
def execEmergencyStopAsserted (s : State) : Host.Outcome State Fault Refusal :=
  signal (fun i => { i with estop := i.estop.drive true }) State.emergencyStop s

/-- R16: the emergency-stop input becomes inactive. -/
def State.emergencyRelease (s : State) : State :=
  if s.inputs.estop.level then
    let t := s.setInputs { s.inputs with estop := .settled false }
    t.raise t.lineStateNotice
  else s

/-- EMERGENCY_STOP_RELEASED (R16). -/
def execEmergencyStopReleased (s : State) : Host.Outcome State Fault Refusal :=
  signal (fun i => { i with estop := i.estop.drive false }) State.emergencyRelease s

/-! ### PLATEN_DECLARE (R18, R19) -/

/-- The presence sensor of a station (R182). -/
def State.present (s : State) (n : Fin 6) : Bool := s.inputs.present[n].level

/-- R18 step 1: the place a declaration may name. -/
inductive Declared where
  | station (n : Fin 6)
  | lane (n : Fin 6)
  | service
  deriving DecidableEq, Repr

def PlaceArg.declared : PlaceArg → Option Declared
  | .station s => (inRange 6 s).map Declared.station
  | .lane n => (inRange 6 n).map Declared.lane
  | .service => some .service
  | .moving _ => none
  | .uncertain _ => none
  | .unseen => none

/-- R18, R19: an accepted declaration's end: PLATEN_MOVED, and STOPPED when no platen is UNSEEN. DESIGN CHOICE (log 12): no
rule orders the two notices of the declaration that ends the census; PLATEN_MOVED is queued before LINE_STATE. -/
def State.endDeclare (s : State) (p : Fin 16) : Taken :=
  let t := s.platenMoved p none
  (if t.track.anyUnseen then t else t.setLine .stopped).accept []

/-- R18: PLATEN_DECLARE's checks and effect. -/
def State.platenDeclare (platen : Nat) (place : PlaceArg) (s : State) : Taken :=
  match inRange 16 platen, PlaceArg.declared place with
  | none, _ => s.refuse .range
  | _, none => s.refuse .range
  | some p, some d =>
    if s.place p ≠ .unseen then s.refuse .state
    else
      match d with
      | .station n =>
        if s.present n = false ∨ (s.station n).occupant ≠ none then s.refuse .state
        else (s.placeAt n p).endDeclare p
      | .lane n =>
        if laneCapacity n ≤ (s.lane n).length then s.refuse .full else (s.joinLane n p).endDeclare p
      | .service => (s.putPlace p .service).endDeclare p

/-- PLATEN_DECLARE (R18). -/
def execPlatenDeclare (v : Via) (platen : Nat) (place : PlaceArg) (s : State) : Host.Outcome State Fault Refusal :=
  request v 0x26 (.platenDeclare v platen place) (State.platenDeclare platen place) s

/-! ### JAM_CONFIRM (R13, R14) -/

/-- Where a confirmed platen is: a station or a lane (R13 check 1). -/
inductive Confirmed where
  | station (n : Fin 6)
  | lane (n : Fin 6)
  deriving DecidableEq, Repr

def PlaceArg.confirmed : PlaceArg → Option Confirmed
  | .station s => (inRange 6 s).map Confirmed.station
  | .lane n => (inRange 6 n).map Confirmed.lane
  | _ => none

/-- R13 check 3: the place is an end of the segment. -/
def Confirmed.endOf (c : Confirmed) (g : Segment) : Bool :=
  match c with
  | .station n => n == segStation g
  | .lane n => n == segLane g

/-- R13 check 4: a station's presence sensor is active. -/
def State.confirmSeen (s : State) : Confirmed → Bool
  | .station n => s.present n
  | .lane _ => true

/-- R14: the four ways a jam ends. -/
def State.confirm (s : State) (g : Segment) (p : Fin 16) (c : Confirmed) : State :=
  match g, c with
  | .exit n, .station _ => s.putPlace p (.station n)
  | .exit n, .lane _ => (s.joinLane n p).vacate n p
  | .entry n, .lane _ =>
    let m := nextStation n
    let t := s.putStation m { s.station m with reserved := false }
    (t.putLane n (p :: t.lane n)).putPlace p (.lane n)
  | .entry n, .station _ => s.placeAt (nextStation n) p

/-- R13, R14: JAM_CONFIRM's checks and effect. -/
def State.jamConfirm (platen : Nat) (place : PlaceArg) (s : State) : Taken :=
  match inRange 16 platen, PlaceArg.confirmed place with
  | none, _ => s.refuse .range
  | _, none => s.refuse .range
  | some p, some c =>
    match s.place p with
    | .uncertain g =>
      if c.endOf g = false then s.refuse .range
      else if s.confirmSeen c = false then s.refuse .state
      else (((s.confirm g p c).putSeg g .idle).platenMoved p (some g)).accept []
    | _ => s.refuse .state

/-- JAM_CONFIRM (R13, R14). -/
def execJamConfirm (v : Via) (platen : Nat) (place : PlaceArg) (s : State) : Host.Outcome State Fault Refusal :=
  request v 0x27 (.jamConfirm v platen place) (State.jamConfirm platen place) s

/-! ### LINE_RESUME (R17) -/

/-- R17: LINE_RESUME's checks and effect. -/
def State.lineResume (s : State) : Taken :=
  if s.inputs.estop.level then s.refuse .stopped
  else if s.track.anyUnseen ∨ s.track.anyUncertain ∨ s.track.anyJammed then s.refuse .state
  else (s.setLine .running).accept []

/-- LINE_RESUME (R17). -/
def execLineResume (v : Via) (s : State) : Host.Outcome State Fault Refusal :=
  request v 0x28 (.lineResume v) State.lineResume s

/-! ### Holds (R20) -/

/-- R20: STATION_HOLD. -/
def State.stationHold (station : Nat) (s : State) : Taken :=
  match inRange 6 station with
  | none => s.refuse .range
  | some n => (s.putStation n { s.station n with held := true }).accept []

/-- STATION_HOLD (R20). -/
def execStationHold (v : Via) (station : Nat) (s : State) : Host.Outcome State Fault Refusal :=
  request v 0x29 (.stationHold v station) (State.stationHold station) s

/-- R20, R116: STATION_RELEASE. A hold of S2 that is cleared releases a press that faulted on closing. -/
def State.stationRelease (station : Nat) (s : State) : Taken :=
  match inRange 6 station with
  | none => s.refuse .range
  | some n =>
    if (s.station n).held then
      let t := s.putStation n { s.station n with held := false }
      (if n = 2 then t.pressReleased else t).accept []
    else s.accept []

/-- STATION_RELEASE (R20). -/
def execStationRelease (v : Via) (station : Nat) (s : State) : Host.Outcome State Fault Refusal :=
  request v 0x2A (.stationRelease v station) (State.stationRelease station) s

/-! ### Service (R21, R22) -/

/-- R21: SERVICE_OUT's checks and effect. -/
def State.serviceOut (platen : Nat) (s : State) : Taken :=
  match inRange 16 platen with
  | none => s.refuse .range
  | some p =>
    match s.place p with
    | .station n =>
      if (n = 0 ∨ n = 5) ∧ s.isEmpty p = true then
        (((s.vacate n p).putPlace p .service).platenMoved p none).accept []
      else s.refuse .state
    | _ => s.refuse .state

/-- SERVICE_OUT (R21). -/
def execServiceOut (v : Via) (platen : Nat) (s : State) : Host.Outcome State Fault Refusal :=
  request v 0x2B (.serviceOut v platen) (State.serviceOut platen) s

/-- R22: SERVICE_IN's checks and effect. -/
def State.serviceIn (platen : Nat) (s : State) : Taken :=
  match inRange 16 platen with
  | none => s.refuse .range
  | some p =>
    if s.place p = .service ∧ (s.station 0).occupant = none ∧ (s.station 0).reserved = false ∧ s.present 0 = true then
      ((s.placeAt 0 p).platenMoved p none).accept []
    else s.refuse .state

/-- SERVICE_IN (R22). -/
def execServiceIn (v : Via) (platen : Nat) (s : State) : Host.Outcome State Fault Refusal :=
  request v 0x2C (.serviceIn v platen) (State.serviceIn platen) s

end Sys2Proof.Machine
end

