-- ==== Sys2Proof/Machine/Read.lean ====
section
/-! DEFINITION. READ (R170) and the eight records. A record gives the fields its rule lists, in that order;
where a state has fields of its own they follow its code (log 14). -/

namespace Sys2Proof.Machine

/-! ### Platen and garment (R23, R64) -/

/-- R23: the platen record: place, and the garment's serial or 0. -/
def State.platenRecord (s : State) (p : Fin 16) : List Field :=
  placeFields (s.place p) (s.lanePosition p) ++
  [match s.garment p with
   | none => .u32 0
   | some g => .word g.serial]

def PretreatRecord.fields (r : PretreatRecord) : List Field :=
  [.u8 r.coverage.code, .u24 r.planned, .u24 r.issued, .u24 r.shortfall, .u8 r.result.code]

/-- R64's print record. DESIGN CHOICE (log 14): swath row indices, the swath count and the produced and released counts are
1 byte each, the width of R181's context fields. -/
def PrintRecord.fields (r : PrintRecord) : List Field :=
  [.u8 r.phase.code, .u8 r.first, .u8 r.last, .u8 r.count, .u8 r.produced, .u8 r.released, .u32 r.tallies.c,
   .u32 r.tallies.m, .u32 r.tallies.y, .u32 r.tallies.k, .u32 r.tallies.w]

def CureRecord.fields (r : CureRecord) : List Field :=
  [.u16 r.credit, .u8 r.carry, .u16 r.required] ++ optional 4 (r.lastSample.map fun t => [.word t]) ++
  [.u16 r.scorch, .flag r.stale, .u8 r.result.code]

/-- R64: the garment record, its map apart. -/
def Garment.fields (g : Garment) : List Field :=
  [.word g.serial] ++ blankFields g.blank ++ classField g.cls ++ [.u8 g.stage.code] ++
  optional 1 (g.hold.map fun h => [.u8 h.code]) ++ [.u8 g.disposition.code, .flag g.orphan, .flag g.restored] ++
  optional 6 (g.binding.map fun b => [.word b.order, .u16 b.line.val]) ++
  optional 19 (g.binding.map fun b => placementFields b.placement) ++
  optional 23 (g.binding.map fun b => recipeFields b.recipe) ++
  g.pretreat.fields ++ [.u8 g.press.code] ++ g.print.fields ++ g.cure.fields

/-- R170: the map option: platen, serial and the 504 cells in band order. -/
def Garment.mapFields (g : Garment) (p : Fin 16) : List Field :=
  [.u8 p.val, .word g.serial, .bytes (g.pretreat.map.toList.flatMap fun row => row.toList.map (BitVec.ofNat 8))]

/-! ### Orders, lines, art (R45, R82) -/

/-- R31's fields. -/
def Order.fields (o : Order) : List Field :=
  [.word o.number, .u8 o.priority, .word o.sequence, .u8 o.status.code] ++ listed (o.lines.map fun i => [.u16 i.val])

/-- R32's fields. -/
def Line.fields (l : Line) : List Field :=
  [.word l.order] ++ blankFields l.blank ++ [.u16 l.quantity, .u16 l.done, .u16 l.reserved, .u16 l.spoiled] ++
  placementFields l.placement ++ [.u8 l.status.code]

/-- R82: a descriptor that is not FREE. DESIGN CHOICE (log 14): the fields that only a VERIFYING descriptor has are one
optional field at the end, one presence byte and then the queue position in 1 byte and the rows checked in 2, so that the
rows checked, which R82 lists among every descriptor's fields, are sent twice; row bytes and the pin count are 2 bytes. -/
def State.artFields (s : State) (h : Fin 64) (d : Art) : List Field :=
  [.u8 d.status.state.code, .u8 d.format.code, .u8 d.palette.val, .u16 d.width, .u16 d.height, .u16 d.stride,
   .u32 d.base, .word d.expected] ++ optional 4 (d.computed.map fun c => [.word c]) ++
  [.u16 d.rowsChecked, .u32 (d.stop - 1), .u16 d.rowBytes, .u16 (s.book.pins h)] ++
  optional 3 (if d.status = .verifying then some [.u8 (s.store.verifyQueue.idxOf h), .u16 d.rowsChecked] else none)

/-! ### The shelf (R162) -/

def Use.code : Use → Nat
  | .notInUse => 0
  | .isPartial => 1
  | .complete => 2

/-- R162: a slot that holds a context; its header reads FULL with the length it holds (R150, R161). -/
def State.shelfFields (s : State) (x : ShelfSlot) : List Field :=
  let c := x.context
  c.header .full c.length ++ optional 16 (some (c.ident.fields c.ident.orphan)) ++
  optional 12 (c.pretreat.map CtxPretreat.fields) ++ optional 16 (c.print.map CtxPrint.fields) ++
  optional 8 (c.cure.map CtxCure.fields) ++
  [.word c.ident.order, .u16 c.ident.line.val, .u8 (s.book.position c.ident.order c.ident.line)] ++
  recipeFields x.recipe ++ placementFields x.placement ++ optional 1 (some [.u8 Use.complete.code]) ++
  optional 1 (c.pretreat.map fun p => [.u8 p.use.code]) ++ optional 1 (c.print.map fun p => [.u8 p.use.code]) ++
  optional 1 (c.cure.map fun p => [.u8 p.use.code])

/-! ### The swath ring (R137) -/

def SwathStatus.code : SwathStatus → Nat
  | .filling => 1
  | .ready => 2
  | .handed => 3

/-- A slot: FREE 0, or its state with the fields of R122. DESIGN CHOICE (log 14): the sequence number is 1 byte, as in the
reply of SWATH_PULL (R179's table has 4 for 'sequence'); row start and rows are 2 bytes and the swath's length is 4. -/
def swathFields : Option Swath → List Field
  | none => [.u8 0]
  | some w =>
    [.u8 w.status.code, .word w.serial, .u8 w.sequence, .u8 w.phase.code, .u16 w.rowStart, .u16 w.rows, .u16 w.xStart,
     .u16 w.width, .u32 w.length]

/-- The pipeline state, with the unit in hand while RUNNING (R101). DESIGN CHOICE (log 14): the unit's kind is one byte, BAND 0
and SWATH 1, and a band index one byte; the unit's first, last and next
rows are 2 bytes each; a swath unit's sequence number and swath row index are 1 byte each. -/
def unitFields : Option RasterUnit → List Field
  | none => [.u8 0]
  | some u =>
    let kind : List Field :=
      match u.kind with
      | .band k => [.u8 0, .u8 u.platen.val, .word u.serial, .u8 k]
      | .swath q phase index _ => [.u8 1, .u8 u.platen.val, .word u.serial, .u8 q, .u8 phase.code, .u8 index]
    .u8 1 :: kind ++ [.u16 u.first, .u16 u.last, .u16 u.next]

/-- R137: the swath ring record. The session is an optional field: presence 0 for NONE, with its eight bytes 0, and 1
for ACTIVE (DESIGN CHOICE, log 14). -/
def State.ringRecord (s : State) : List Field :=
  s.ring.slots.toList.flatMap swathFields ++ listed (s.ring.order.map fun i => [.u8 i.val]) ++ [.u8 s.ring.level] ++
  optional 8 (s.sessionGarment.map fun x =>
    [.u8 x.1.platen.val, .word x.1.serial, .u8 x.1.count, .u8 x.2.print.produced, .u8 x.2.print.released]) ++
  optional 5 (s.headOfLine.map fun x => [.u8 x.platen.val, .word x.garment.serial]) ++
  unitFields s.engine.unit ++
  listed (s.engine.jobs.map fun j => [.u8 j.platen.val, .word j.serial, .u8 j.cursor])

/-! ### The line status (R23, R120, R147, R170) -/

/-- R5: the milliseconds left before a move times out. -/
def remainingTime (start now : Word) : Nat := moveTime - elapsed start now

def State.segFields (s : State) (g : Segment) : List Field :=
  match s.seg g with
  | .idle => [.u8 0]
  | .moving p start => [.u8 1, .u8 p.val, .word start, .u16 (remainingTime start s.clock.time)]
  | .jammed p c late => [.u8 2, .u8 p.val, .u8 c.code, .flag late]

/-- R23: a station, its occupant as an optional field (log 14). -/
def Station.fields (x : Station) : List Field :=
  optional 1 (x.occupant.map fun p => [.u8 p.val]) ++ [.flag x.reserved, .flag x.held]

/-- R23's part: line, input levels, stations, lanes, then X0 to X5 and E0 to E5. DESIGN CHOICE (log 14): a level is one byte,
1 while the input is active, and a lane's load one byte. -/
def State.trackStatus (s : State) : List Field :=
  [.u8 s.track.line.code, .flag s.inputs.estop.level] ++ s.inputs.present.toList.map (fun i => .flag i.level) ++
  s.track.stations.toList.flatMap Station.fields ++
  (List.finRange 6).flatMap (fun n => listed ((s.lane n).map fun p => [.u8 p.val]) ++ [.u8 (s.track.laneLoad n)]) ++
  (List.finRange 6).flatMap (fun n => s.segFields (.exit n)) ++
  (List.finRange 6).flatMap (fun n => s.segFields (.entry n))

/-- R106's state: IDLE, WAITING or RUNNING. -/
def State.sprayState (s : State) : Nat :=
  if s.spray.run.isSome then 2
  else
    match s.garmentAt 1 with
    | none => 0
    | some (_, g) => if g.needsSpraying then 1 else 0

/-- R120's part for the Spray Controller. DESIGN CHOICE (log 14): the levels of SPRAY_RUN and of a valve are one byte each, 1
for high, the strobe count is one byte, and the current band is an optional field of one byte. -/
def State.sprayStatus (s : State) : List Field :=
  [.u8 s.sprayState, .u8 ((s.spray.run.map SprayRun.strobes).getD 0)] ++
  optional 1 ((s.spray.run.bind SprayRun.band).map fun k => [.u8 k]) ++
  [.flag s.pins.sprayRun] ++ s.pins.valve.toList.map Field.flag

/-- The Press Controller's state, with its cause in FAULT and the time left where a timer runs (R113). -/
def Press.fields : Press → List Field
  | .idle => [.u8 0]
  | .closing left => [.u8 1, .u16 left]
  | .dwell left => [.u8 2, .u16 left]
  | .opening left => [.u8 3, .u16 left]
  | .fault c => [.u8 4, .u8 c.code]

/-- R120's part for the Press Controller. DESIGN CHOICE (log 14): the levels of PRESS_CLOSE, PRESS_CLOSED and PRESS_OPEN are
one byte each, 1 for high. -/
def State.pressStatus (s : State) : List Field :=
  s.press.fields ++ [.flag s.pins.pressClose, .flag s.inputs.pressClosed.level, .flag s.inputs.pressOpen.level]

/-- R147's part: the cure slot and the stale timer's time as optional fields (log 14). -/
def Cure.fields (c : Cure) : List Field :=
  optional 5 (c.slot.map fun x => [.u8 x.1.val, .word x.2]) ++ optional 2 (c.stale.map fun t => [.u16 t])

/-- R178's part for one output: set, mode, times, level, and the phase and time left of a blinking one. DESIGN CHOICE
(log 14): on time and off time are 1 byte each, the level is one byte, 1 for high, and phase and time left are one optional
field, present while the output blinks and absent while a BLINK output is inactive. -/
def Indicator.fields (i : Indicator) : List Field :=
  let phase : Option (List Field) :=
    match i.lamp with
    | .blinkOn left => some [.u8 0, .u16 left]
    | .blinkOff left => some [.u8 1, .u16 left]
    | _ => none
  [.u8 i.conditions.toNat, .flag i.blink, .u8 i.onTime, .u8 i.offTime, .flag i.lamp.on] ++ optional 3 phase

def Receiver.code : Receiver → Nat
  | .hunting => 0
  | .receiving _ => 1
  | .inBreak => 2

/-- R170's part for one link. DESIGN CHOICE (log 14): the request slot is an optional field, one presence byte, 1 for
IN_FLIGHT, then the tag and the kind, two bytes of 0 while it is FREE; discard count 2 bytes, queue depth 1. -/
def LinkState.fields (k : LinkState) : List Field :=
  let slot : Option (List Field) :=
    match k.slot with
    | .free => none
    | .inFlight tag kind _ => some [.u8 tag, .u8 kind]
  [.u8 k.receiver.code] ++ optional 2 slot ++
  [.flag k.silent, .u16 k.discards, .u16 k.mask.toNat, .u8 k.queue.length, .flag k.lost]

/-- R170: the line-status record. -/
def State.statusRecord (s : State) : List Field :=
  s.trackStatus ++ s.sprayStatus ++ s.pressStatus ++ s.cure.fields ++ [.u8 s.shelf.permit.mask] ++
  s.indicators.toList.flatMap Indicator.fields ++
  (s.links.order.fields ++ s.links.operator.fields ++ s.links.head.fields ++ s.links.cure.fields) ++
  [.flag s.powerFlag, .word s.clock.time]

/-! ### READ (R170) -/

def State.readPlaten (s : State) (key : Nat) : Taken :=
  match inRange 16 key with
  | none => s.refuse .range
  | some p => s.accept (s.platenRecord p)

/-- R170: the record option is 0 and the map option 1; another is a coded value beyond its list. -/
def State.readGarment (s : State) (key option : Nat) : Taken :=
  if 1 < option then s.refuse .malformed
  else
    match inRange 16 key with
    | none => s.refuse .range
    | some p =>
      match s.garment p with
      | none => s.refuse .unknown
      | some g => s.accept (if option = 0 then g.fields else g.mapFields p)

def State.readOrder (s : State) (key : Nat) : Taken :=
  match s.book.find (BitVec.ofNat 32 key) with
  | none => s.refuse .unknown
  | some o => s.accept o.fields

def State.readLine (s : State) (key : Nat) : Taken :=
  match inRange 512 key with
  | none => s.refuse .range
  | some i =>
    match s.book.lines[i] with
    | none => s.refuse .unknown
    | some l => s.accept l.fields

def State.readArt (s : State) (key : Nat) : Taken :=
  match inRange 64 key with
  | none => s.refuse .range
  | some h =>
    match s.art h with
    | none => s.accept [.u8 ArtState.free.code]
    | some d => s.accept (s.artFields h d)

/-- R162: an empty slot is reported empty. -/
def State.readShelf (s : State) (key : Nat) : Taken :=
  match inRange 8 key with
  | none => s.refuse .range
  | some i =>
    match s.shelfSlot i with
    | none => s.accept [.u8 0]
    | some x => s.accept (.u8 1 :: s.shelfFields x)

/-- R170: READ: the record kinds in the order of its table. The option is looked at for GARMENT alone, the one kind
that has options (DESIGN CHOICE, log 13). -/
def State.readRecord (kind key option : Nat) (s : State) : Taken :=
  match kind with
  | 0 => s.readPlaten key
  | 1 => s.readGarment key option
  | 2 => s.readOrder key
  | 3 => s.readLine key
  | 4 => s.readArt key
  | 5 => s.readShelf key
  | 6 => s.accept s.ringRecord
  | 7 => s.accept s.statusRecord
  | _ => s.refuse .malformed

/-- READ (R170). -/
def execRead (v : Via) (kind key option : Nat) (s : State) : Host.Outcome State Fault Refusal :=
  request v 0x20 (.read v kind key option) (State.readRecord kind key option) s

end Sys2Proof.Machine
end

