-- ==== Sys2Proof/Config.lean ====
section
/-! DEFINITION. What the manual leaves open for good: the one free value of the model. -/

namespace Sys2Proof

/-- FREE VALUE (log 7). R83: after power-on reset the contents of the art memory are arbitrary. The
argument counts the power-on resets taken; nothing constrains the bytes. -/
opaque Config.powerOnArt : Nat → List Host.Cell

end Sys2Proof
end

