-- ==== Sys2Proof/Machine/Reset.lean ====
section
/-! DEFINITION. Power-on reset (R182) and line reset (R171), with every block's part in it. -/

namespace Sys2Proof.Machine

/-! ### Power-on reset -/

/-- The part right after power-on reset: every block as its rule says, the line inputs read as they are
(R24, R182), the art memory arbitrary (R83; log 7), the waiting commands kept. -/
def State.powerOn (s : State) : State :=
  let n := s.clock.resets + 1
  { State.reset with
    pending := s.pending
    clock := ⟨0, 0, n⟩
    inputs := s.inputs.asDriven
    mem := Memory.ofCells (Config.powerOnArt n) }

/-- POWER_ON_RESET (R182): RESET_N rises. -/
def execPowerOnReset (s : State) : Host.Outcome State Fault Refusal := .next s.powerOn

/-- RESET_N falls (R182): every output is driven low and every link's frame is cut off, the transmitters holding
the break level. -/
def State.lowerReset (s : State) : State := (s.setLinks (s.links.map LinkState.silence)).setResetLow true

/-- RESET_ASSERTED (R182). Until RESET_N rises nothing else is taken (log 8). -/
def execResetAsserted (s : State) : Host.Outcome State Fault Refusal := .next s.lowerReset

/-! ### The parts of a line reset -/

/-- R25. -/
def State.resetTrack (s : State) : State :=
  let t := allSegments.foldl (State.jamMoving .lineReset) s
  let track := t.track.stop
  t.setTrack { track with stations := vmap (fun x => { x with held := false }) track.stations }

/-- R47. -/
def State.resetBook (s : State) : State :=
  s.setBook { s.book with orders := [], lines := Vector.replicate 512 none }

/-- R66. -/
def State.resetMatch (s : State) : State :=
  s.setUnits { s.units with garments := Vector.replicate 16 none }

/-- R84: a VERIFYING descriptor returns to LOADING. -/
def Art.unverified (d : Art) : Art :=
  if d.status = .verifying then { d with status := .loading, computed := none, rowsChecked := 0 } else d

/-- R84: the Art Store's part; the arbiter keeps its fairness count and turn mark. -/
def State.resetStore (s : State) : State :=
  let store := { s.store with arts := vmap (Option.map Art.unverified) s.store.arts, verifyQueue := [], verify := none }
  (s.setStore store).setArbiter (s.arbiter.drop .verify .droppedByReset)

/-- R101, R119: the unit in hand is abandoned and the job queue emptied. A burst granted to the unit is waited
for, one that PRINT_END(ABORT) had abandoned with it too (R171). -/
def State.resetEngine (s : State) : State :=
  (s.setEngine ⟨[], none⟩).setArbiter
    ((s.arbiter.drop .engine .droppedByReset).mark .engine .aborted .droppedByReset)

/-- R119. -/
def State.resetPretreat (s : State) : State := (s.setSpray Spray.reset).setPress .idle

/-- R129, R135: a pull with bursts outstanding is answered STALE. -/
def State.stalePull (s : State) : State :=
  match s.ring.pull with
  | none => s
  | some x =>
    if x.next < x.stop then
      ((s.setRing { s.ring with pull := none }).setArbiter (s.arbiter.drop .pull .droppedByReset)).answer x.link
        ⟨.stale, []⟩
    else s

/-- R135: the ring emptied and the session closed. -/
def State.resetRing (s : State) : State :=
  let t := s.stalePull
  t.setRing { Ring.reset with pull := t.ring.pull }

/-- R149. -/
def State.resetCure (s : State) : State := s.setCure { s.cure with slot := none, stale := none }

/-- R163. -/
def State.resetShelf (s : State) : State := s.setShelf { s.shelf with slots := Vector.replicate 8 none }

/-- R171 step 1: a link's notices emptied. A notice whose frame is being sent goes on to its end (log 26). -/
def LinkState.emptyQueue (k : LinkState) : LinkState :=
  { k with
    queue := []
    lost := false
    tx :=
      match k.tx with
      | .sending .notice f => .sending .flushed f
      | other => other }

/-- R135: the PRINT_CANCELLED notice of an ACTIVE session. -/
def State.cancelledNotice (s : State) : List Notice :=
  match s.sessionGarment with
  | none => []
  | some (x, g) => [.printCancelled x.platen x.serial x.count g.print.produced g.print.released]

/-- R171: the line reset, every block's part in one step. -/
def State.clearLine (s : State) : State :=
  let cancelled := s.cancelledNotice
  let t := s.resetTrack.resetBook.resetMatch.resetStore.resetEngine.resetPretreat.resetRing.resetCure.resetShelf
  let t := t.setLinks (t.links.map LinkState.emptyQueue)
  t.raiseAll (t.lineStateNotice :: cancelled)

/-- R171: LINE_RESET is accepted; its reply waits for the bursts already granted to abandoned work. -/
def State.takeLineReset (link : Link) (s : State) : Taken := (s.clearLine.setLineReset (some link), none)

/-- LINE_RESET (R171). -/
def execLineReset (v : Via) (s : State) : Host.Outcome State Fault Refusal :=
  request v 0x1C (.lineReset v) (State.takeLineReset v.link) s

/-- A burst granted to work that a line reset abandoned is still under way. -/
def Arbiter.resetBurst (a : Arbiter) : Bool :=
  match a.port with
  | none => false
  | some g => g.fate == .droppedByReset

/-- R171: the reset is complete: its reply is made ready. -/
def State.completeLineReset (s : State) : State :=
  match s.lineReset with
  | none => s
  | some l => if s.arbiter.resetBurst then s else (s.setLineReset none).answer l ⟨.ok, []⟩

/-- LINE_RESET_COMPLETE (R171). -/
def execLineResetComplete (s : State) : Host.Outcome State Fault Refusal := event State.completeLineReset s

end Sys2Proof.Machine
end

