-- ==== Sys2Proof/Machine/Dispatch.lean ====
section
/-! DEFINITION. One arm per command: its meaning. -/

namespace Sys2Proof.Machine

def exec (i : Instr) (s : State) : Host.Outcome State Fault Refusal :=
  match i with
  | .powerOnReset => Sys2Proof.Machine.execPowerOnReset s
  | .resetAsserted => Sys2Proof.Machine.execResetAsserted s
  | .orderPost v order priority lines => Sys2Proof.Machine.execOrderPost v order priority lines s
  | .lineAmend v order position quantity => Sys2Proof.Machine.execLineAmend v order position quantity s
  | .orderHold v order => Sys2Proof.Machine.execOrderHold v order s
  | .orderRelease v order => Sys2Proof.Machine.execOrderRelease v order s
  | .orderCancel v order => Sys2Proof.Machine.execOrderCancel v order s
  | .orderRetire v order => Sys2Proof.Machine.execOrderRetire v order s
  | .catalogueSet v blank cls => Sys2Proof.Machine.execCatalogueSet v blank cls s
  | .catalogueRemove v blank => Sys2Proof.Machine.execCatalogueRemove v blank s
  | .catalogueGet v blank => Sys2Proof.Machine.execCatalogueGet v blank s
  | .classSet v cls recipe => Sys2Proof.Machine.execClassSet v cls recipe s
  | .classGet v cls => Sys2Proof.Machine.execClassGet v cls s
  | .artOpen v format palette width height stride base crc => Sys2Proof.Machine.execArtOpen v format palette width height stride base crc s
  | .artWrite v handle offset data => Sys2Proof.Machine.execArtWrite v handle offset data s
  | .artWriteComplete => Sys2Proof.Machine.execArtWriteComplete s
  | .artSeal v handle crc => Sys2Proof.Machine.execArtSeal v handle crc s
  | .artFree v handle => Sys2Proof.Machine.execArtFree v handle s
  | .paletteSet v palette first entries => Sys2Proof.Machine.execPaletteSet v palette first entries s
  | .paletteGet v palette first count => Sys2Proof.Machine.execPaletteGet v palette first count s
  | .overlaySet v overlay colours first rows => Sys2Proof.Machine.execOverlaySet v overlay colours first rows s
  | .overlayGet v overlay first count => Sys2Proof.Machine.execOverlayGet v overlay first count s
  | .rateTableSet v bands => Sys2Proof.Machine.execRateTableSet v bands s
  | .rateTableGet v => Sys2Proof.Machine.execRateTableGet v s
  | .shelfPermitSet v mask => Sys2Proof.Machine.execShelfPermitSet v mask s
  | .shelfExport v slot form => Sys2Proof.Machine.execShelfExport v slot form s
  | .shelfImport v record => Sys2Proof.Machine.execShelfImport v record s
  | .shelfDrop v slot => Sys2Proof.Machine.execShelfDrop v slot s
  | .shelve v platen => Sys2Proof.Machine.execShelve v platen s
  | .unshelve v slot platen mask => Sys2Proof.Machine.execUnshelve v slot platen mask s
  | .lineReset v => Sys2Proof.Machine.execLineReset v s
  | .lineResetComplete => Sys2Proof.Machine.execLineResetComplete s
  | .powerFlagClear v => Sys2Proof.Machine.execPowerFlagClear v s
  | .indicatorSet v output conditions mode onTime offTime => Sys2Proof.Machine.execIndicatorSet v output conditions mode onTime offTime s
  | .noticeMaskSet v mask => Sys2Proof.Machine.execNoticeMaskSet v mask s
  | .read v kind key option => Sys2Proof.Machine.execRead v kind key option s
  | .garmentLoad v platen blank => Sys2Proof.Machine.execGarmentLoad v platen blank s
  | .garmentAssign v platen order position => Sys2Proof.Machine.execGarmentAssign v platen order position s
  | .loadClear v platen => Sys2Proof.Machine.execLoadClear v platen s
  | .unloadGood v platen => Sys2Proof.Machine.execUnloadGood v platen s
  | .unloadSpoil v platen => Sys2Proof.Machine.execUnloadSpoil v platen s
  | .platenDeclare v platen place => Sys2Proof.Machine.execPlatenDeclare v platen place s
  | .jamConfirm v platen place => Sys2Proof.Machine.execJamConfirm v platen place s
  | .lineResume v => Sys2Proof.Machine.execLineResume v s
  | .stationHold v station => Sys2Proof.Machine.execStationHold v station s
  | .stationRelease v station => Sys2Proof.Machine.execStationRelease v station s
  | .serviceOut v platen => Sys2Proof.Machine.execServiceOut v platen s
  | .serviceIn v platen => Sys2Proof.Machine.execServiceIn v platen s
  | .swathPull v sequence offset => Sys2Proof.Machine.execSwathPull v sequence offset s
  | .swathPullComplete => Sys2Proof.Machine.execSwathPullComplete s
  | .swathRelease v sequence => Sys2Proof.Machine.execSwathRelease v sequence s
  | .printEndOk v => Sys2Proof.Machine.execPrintEndOk v s
  | .printEndAbort v => Sys2Proof.Machine.execPrintEndAbort v s
  | .cureSample v platen temperature => Sys2Proof.Machine.execCureSample v platen temperature s
  | .moveStart seg => Sys2Proof.Machine.execMoveStart seg s
  | .arrive seg => Sys2Proof.Machine.execArrive seg s
  | .moveTimeout seg => Sys2Proof.Machine.execMoveTimeout seg s
  | .emergencyStopAsserted => Sys2Proof.Machine.execEmergencyStopAsserted s
  | .emergencyStopReleased => Sys2Proof.Machine.execEmergencyStopReleased s
  | .verifyPassStart => Sys2Proof.Machine.execVerifyPassStart s
  | .verifyPassEnd => Sys2Proof.Machine.execVerifyPassEnd s
  | .arbiterGrant => Sys2Proof.Machine.execArbiterGrant s
  | .burstComplete => Sys2Proof.Machine.execBurstComplete s
  | .swathUnitBegin => Sys2Proof.Machine.execSwathUnitBegin s
  | .bandUnitBegin => Sys2Proof.Machine.execBandUnitBegin s
  | .swathUnitEnd => Sys2Proof.Machine.execSwathUnitEnd s
  | .bandUnitEnd => Sys2Proof.Machine.execBandUnitEnd s
  | .sprayStart => Sys2Proof.Machine.execSprayStart s
  | .band => Sys2Proof.Machine.execBand s
  | .sprayEnd => Sys2Proof.Machine.execSprayEnd s
  | .zoneValveClose zone => Sys2Proof.Machine.execZoneValveClose zone s
  | .zonePulseReload zone => Sys2Proof.Machine.execZonePulseReload zone s
  | .zoneChannelExhausted zone => Sys2Proof.Machine.execZoneChannelExhausted zone s
  | .pressStart => Sys2Proof.Machine.execPressStart s
  | .pressClosed => Sys2Proof.Machine.execPressClosed s
  | .dwellExpiry => Sys2Proof.Machine.execDwellExpiry s
  | .pressOpen => Sys2Proof.Machine.execPressOpen s
  | .closeTimeout => Sys2Proof.Machine.execCloseTimeout s
  | .openTimeout => Sys2Proof.Machine.execOpenTimeout s
  | .printSessionOpen => Sys2Proof.Machine.execPrintSessionOpen s
  | .staleTimerExpiry => Sys2Proof.Machine.execStaleTimerExpiry s
  | .frameReceived link bytes => Sys2Proof.Machine.execFrameReceived link bytes s
  | .frameAbandoned link cause => Sys2Proof.Machine.execFrameAbandoned link cause s
  | .frameSent link => Sys2Proof.Machine.execFrameSent link s
  | .linkReset link => Sys2Proof.Machine.execLinkReset link s
  | .breakEnd link => Sys2Proof.Machine.execBreakEnd link s
  | .blinkTimerExpiry output => Sys2Proof.Machine.execBlinkTimerExpiry output s
  | .startSymbol link => Sys2Proof.Machine.execStartSymbol link s

end Sys2Proof.Machine
end

