-- ==== Sys2Proof/Machine/Clock.lean ====
section
/-! DEFINITION. The tick: 20 µs of time with no command waiting (log 2). Line inputs are filtered, running
carrier channels count, and each fiftieth tick the time base and the millisecond timers advance. A line input's
filtered change of level is then the command that stands for it (log 4). What a timer that has run out causes is
a command of its own (log 1). -/

namespace Sys2Proof.Machine

/-! ### Line inputs (R182) -/

/-- R182's filter time of BAND and END, 20 µs, in ticks. -/
def strobeFilter : Nat := 1

/-- R182's filter time of the other inputs, 2 ms, in ticks. -/
def levelFilter : Nat := 100

/-- A tick completes the filter time of a new level. -/
def LevelInput.due (filter : Nat) (i : LevelInput) : Bool := i.wire != i.level && decide (filter ≤ i.held + 1)

/-- A tick of an input whose new level is not taken by it: how long the level has held. -/
def LevelInput.wait (i : LevelInput) : LevelInput :=
  if i.wire = i.level then { i with held := 0 } else { i with held := i.held + 1 }

/-- R182: a tick of an input: a new level is taken once it has held steadily through the filter time. -/
def LevelInput.tick (filter : Nat) (i : LevelInput) : LevelInput := if i.due filter then .settled i.wire else i.wait

/-- The same for an input whose command, when it becomes active, takes the level itself (R114). -/
def LevelInput.tickFalling (i : LevelInput) : LevelInput := if i.level then i.tick levelFilter else i.wait

/-- A tick of the line inputs; the changes of ESTOP_N and the press inputs' becoming active are left to their
commands. -/
def Inputs.tick (i : Inputs) : Inputs where
  present := vmap (LevelInput.tick levelFilter) i.present
  arriveExit := vmap (LevelInput.tick levelFilter) i.arriveExit
  arriveEntry := vmap (LevelInput.tick levelFilter) i.arriveEntry
  pressClosed := i.pressClosed.tickFalling
  pressOpen := i.pressOpen.tickFalling
  estop := i.estop.wait
  band := i.band.tick strobeFilter
  sprayEnd := i.sprayEnd.tick strobeFilter

/-- A tick makes an input active. -/
def LevelInput.rises (filter : Nat) (i : LevelInput) : Bool := i.due filter && i.wire

/-- A command, where a condition holds. -/
def whenDue (b : Bool) (c : Instr) : List Instr := if b then [c] else []

/-- The commands that a tick's filtered changes of level are, in the order they are taken (log 4). -/
def Inputs.changes (i : Inputs) : List Instr :=
  whenDue (i.estop.due levelFilter) (if i.estop.wire then .emergencyStopAsserted else .emergencyStopReleased) ++
  allSegments.flatMap (fun g => whenDue ((i.arrive g).rises levelFilter) (.arrive g)) ++
  whenDue (i.band.rises strobeFilter) .band ++ whenDue (i.sprayEnd.rises strobeFilter) .sprayEnd ++
  whenDue (i.pressClosed.rises levelFilter) .pressClosed ++ whenDue (i.pressOpen.rises levelFilter) .pressOpen

/-! ### Carrier channels (R107) -/

/-- R107: a tick of a channel: an active channel counts down; at 0 its reload or its end is due. -/
def Channel.tick (c : Channel) : Channel :=
  if c.active = false then c
  else if 0 < c.counter then { c with counter := c.counter - 1 }
  else { c with due := true }

/-- Channels run only while the sequence is RUNNING (R107). -/
def Spray.tick (s : Spray) : Spray :=
  match s.run with
  | none => s
  | some _ => { s with channels := vmap Channel.tick s.channels }

/-! ### Millisecond timers (R113, R145, R177) -/

def Press.tick : Press → Press
  | .closing left => .closing (left - 1)
  | .dwell left => .dwell (left - 1)
  | .opening left => .opening (left - 1)
  | p => p

def Cure.tick (c : Cure) : Cure := { c with stale := c.stale.map fun t => t - 1 }

def Lamp.tick : Lamp → Lamp
  | .blinkOn left => .blinkOn (left - 1)
  | .blinkOff left => .blinkOff (left - 1)
  | l => l

/-- One millisecond: the time base and the timers. -/
def State.millisecond (s : State) : State :=
  { s with
    clock := { s.clock with time := s.clock.time + 1, sub := 0 }
    press := s.press.tick
    cure := s.cure.tick
    indicators := vmap (fun i => { i with lamp := i.lamp.tick }) s.indicators }

/-- Ticks of 20 µs in a millisecond. -/
def ticksPerMs : Nat := 50

/-- What a tick counts, apart from the commands its input changes are. -/
def State.counted (s : State) : State :=
  let t := (s.setInputs s.inputs.tick).setSpray s.spray.tick
  if ticksPerMs ≤ t.clock.sub + 1 then t.millisecond
  else t.setClock { t.clock with sub := t.clock.sub + 1 }

/-- Commands run one after the other. -/
def runAll : List Instr → State → Host.Outcome State Fault Refusal
  | [], s => .next s
  | i :: rest, s =>
    match exec i s with
    | .next t => runAll rest t
    | .fault f => .fault f
    | .refused r => .refused r

/-- The tick; nothing happens while RESET_N is low (log 8). -/
def State.tick (s : State) : Host.Outcome State Fault Refusal :=
  if s.resetLow then .next s else runAll s.inputs.changes s.counted

end Sys2Proof.Machine
end

