-- ==== Sys2Proof/Safety.lean ====
section
/-! DEFINITION. The terms that statements about the machine use: when a link is ready for a request, what
being answered means, what a step leaves as it was, which notices it queued, when an indicator output is
active, what the reported records list, how a sealed record, a request's payload and a notice lie in their bytes, and
the invariants. -/

namespace Sys2Proof.Machine

/-! ### Requests -/

/-- The link and tag a request comes with and its kind (R179); none for signals and internal events. -/
def Instr.asRequest : Instr → Option (Via × Nat)
  | .powerOnReset => none
  | .resetAsserted => none
  | .orderPost v _ _ _ => some (v, 0x01)
  | .lineAmend v _ _ _ => some (v, 0x02)
  | .orderHold v _ => some (v, 0x03)
  | .orderRelease v _ => some (v, 0x04)
  | .orderCancel v _ => some (v, 0x05)
  | .orderRetire v _ => some (v, 0x06)
  | .catalogueSet v _ _ => some (v, 0x07)
  | .catalogueRemove v _ => some (v, 0x08)
  | .catalogueGet v _ => some (v, 0x09)
  | .classSet v _ _ => some (v, 0x0A)
  | .classGet v _ => some (v, 0x0B)
  | .artOpen v _ _ _ _ _ _ _ => some (v, 0x0C)
  | .artWrite v _ _ _ => some (v, 0x0D)
  | .artWriteComplete => none
  | .artSeal v _ _ => some (v, 0x0E)
  | .artFree v _ => some (v, 0x0F)
  | .paletteSet v _ _ _ => some (v, 0x10)
  | .paletteGet v _ _ _ => some (v, 0x11)
  | .overlaySet v _ _ _ _ => some (v, 0x12)
  | .overlayGet v _ _ _ => some (v, 0x13)
  | .rateTableSet v _ => some (v, 0x14)
  | .rateTableGet v => some (v, 0x15)
  | .shelfPermitSet v _ => some (v, 0x16)
  | .shelfExport v _ _ => some (v, 0x17)
  | .shelfImport v _ => some (v, 0x18)
  | .shelfDrop v _ => some (v, 0x19)
  | .shelve v _ => some (v, 0x1A)
  | .unshelve v _ _ _ => some (v, 0x1B)
  | .lineReset v => some (v, 0x1C)
  | .lineResetComplete => none
  | .powerFlagClear v => some (v, 0x1D)
  | .indicatorSet v _ _ _ _ _ => some (v, 0x1E)
  | .noticeMaskSet v _ => some (v, 0x1F)
  | .read v _ _ _ => some (v, 0x20)
  | .garmentLoad v _ _ => some (v, 0x21)
  | .garmentAssign v _ _ _ => some (v, 0x22)
  | .loadClear v _ => some (v, 0x23)
  | .unloadGood v _ => some (v, 0x24)
  | .unloadSpoil v _ => some (v, 0x25)
  | .platenDeclare v _ _ => some (v, 0x26)
  | .jamConfirm v _ _ => some (v, 0x27)
  | .lineResume v => some (v, 0x28)
  | .stationHold v _ => some (v, 0x29)
  | .stationRelease v _ => some (v, 0x2A)
  | .serviceOut v _ => some (v, 0x2B)
  | .serviceIn v _ => some (v, 0x2C)
  | .swathPull v _ _ => some (v, 0x2D)
  | .swathPullComplete => none
  | .swathRelease v _ => some (v, 0x2E)
  | .printEndOk v => some (v, 0x2F)
  | .printEndAbort v => some (v, 0x2F)
  | .cureSample v _ _ => some (v, 0x30)
  | .moveStart _ => none
  | .arrive _ => none
  | .moveTimeout _ => none
  | .emergencyStopAsserted => none
  | .emergencyStopReleased => none
  | .verifyPassStart => none
  | .verifyPassEnd => none
  | .arbiterGrant => none
  | .burstComplete => none
  | .swathUnitBegin => none
  | .bandUnitBegin => none
  | .swathUnitEnd => none
  | .bandUnitEnd => none
  | .sprayStart => none
  | .band => none
  | .sprayEnd => none
  | .zoneValveClose _ => none
  | .zonePulseReload _ => none
  | .zoneChannelExhausted _ => none
  | .pressStart => none
  | .pressClosed => none
  | .dwellExpiry => none
  | .pressOpen => none
  | .closeTimeout => none
  | .openTimeout => none
  | .printSessionOpen => none
  | .staleTimerExpiry => none
  | .frameReceived _ _ => none
  | .frameAbandoned _ _ => none
  | .frameSent _ => none
  | .linkReset _ => none
  | .breakEnd _ => none
  | .blinkTimerExpiry _ => none
  | .startSymbol _ => none

/-- A request of a kind that arrives now is handed on and taken: RESET_N is high, the link is not in BREAK,
its slot is FREE and its role has the permission (R167, R168). -/
abbrev Ready (s : State) (v : Via) (kind : Nat) : Prop :=
  s.resetLow = false ∧ (s.link v.link).receiver ≠ .inBreak ∧ (s.link v.link).slot = .free ∧
  permitted v.link kind = true

/-- The command `i`, a request of kind `kind` from `v`, leads from `s` to `t` with its reply ready: result
code and contents. No other link's slot changes. -/
def Answered (i : Instr) (v : Via) (kind : Nat) (s t : State) (code : ResultCode) (body : List Field) : Prop :=
  exec i s = .next t ∧
  (t.link v.link).slot = .inFlight v.tag kind (.ready ⟨code, body⟩) ∧
  ∀ l, l ≠ v.link → (t.link l).slot = (s.link l).slot

/-- The command `i` leads from `s` to `t` with its request handed to its block and not yet answered. -/
def Begun (i : Instr) (v : Via) (kind : Nat) (s t : State) : Prop :=
  exec i s = .next t ∧
  (t.link v.link).slot = .inFlight v.tag kind .working ∧
  ∀ l, l ≠ v.link → (t.link l).slot = (s.link l).slot

/-- The event `i` leads from `s` to `t`; no link's request slot changes. -/
def Happened (i : Instr) (s t : State) : Prop :=
  exec i s = .next t ∧ ∀ l, (t.link l).slot = (s.link l).slot

/-! ### Invariants -/

/-- What the Track Manager's tables promise: R4's bound on lane loads, that a lane holds no platen twice and a platen is
in at most one lane, its place's (R1); R2's agreement of each station's occupant and reservation with the platens' places
and the segments; R5's agreement of the segments with the places; and what these rest on: a RUNNING line has no UNSEEN
platen, and nothing moves while a platen is UNSEEN. -/
structure TrackInv (t : Track) : Prop where
  load : ∀ n : Fin 6, t.laneLoad n ≤ laneCapacity n
  once : ∀ n : Fin 6, t.lanes[n].Nodup
  lanes : ∀ (n : Fin 6) (p : Fin 16), p ∈ t.lanes[n] ↔ t.places[p] = .lane n
  station : ∀ n : Fin 6, t.stations[n].occupant = none ∨ t.stations[n].reserved = false
  occupant : ∀ (n : Fin 6) (p : Fin 16), t.stations[n].occupant = some p ↔
    t.places[p] = .station n ∨ t.places[p] = .moving (.exit n) ∨ t.places[p] = .uncertain (.exit n)
  reserved : ∀ n : Fin 6, t.stations[nextStation n].reserved = true ↔ t.entries[n] ≠ .idle
  moving : ∀ (p : Fin 16) g, t.places[p] = .moving g ↔ ∃ start, t.seg g = .moving p start
  uncertain : ∀ (p : Fin 16) g, t.places[p] = .uncertain g ↔ ∃ c late, t.seg g = .jammed p c late
  running : t.line = .running → t.anyUnseen = false
  census : t.anyUnseen = true → ∀ g, t.seg g = .idle

/-- R68: extents lie in the art area and do not overlap. R73: the verification queue holds the VERIFYING
descriptors, each once. -/
structure StoreInv (x : Store) : Prop where
  area : ∀ (h : Fin 64) d, x.arts[h] = some d → d.stop ≤ artAreaStop
  apart : ∀ (h k : Fin 64) d e, h ≠ k → x.arts[h] = some d → x.arts[k] = some e →
    rangesShare d.base d.stop e.base e.stop = false
  queue : ∀ h : Fin 64, h ∈ x.verifyQueue ↔ x.arts[h].map Art.status = some .verifying
  once : x.verifyQueue.Nodup

/-- R26: the catalogue is a set of at most 256 entries, no two for one code, none for the null code. -/
structure CatalogueInv (b : Book) : Prop where
  once : (b.catalogue.map CatalogueEntry.blank).Nodup
  room : b.catalogue.length ≤ 256
  named : ∀ e ∈ b.catalogue, e.blank ≠ ⟨0, 0, 0⟩

/-- R122: the order list holds the slots that are not FREE, each once. -/
structure RingInv (r : Ring) : Prop where
  slots : ∀ i : Fin 4, i ∈ r.order ↔ r.slots[i].isSome = true
  once : r.order.Nodup

/-- R175's depth of a notice queue, R164's range of a discard count; R172: in BREAK nothing is transmitted. -/
structure LinkInv (k : LinkState) : Prop where
  depth : k.queue.length ≤ 16
  discards : k.discards ≤ 65535
  quiet : k.receiver = .inBreak → k.tx = .idle

/-- What the requests in flight promise: a request handed on is one of its link, tag and kind; a pull, a write
or a line reset still at work has its request's slot waiting for it (R129, R71, R171); a reply is being sent
only of a request that has one ready (R169). -/
structure RequestInv (s : State) : Prop where
  handed : ∀ l tag kind i, (s.link l).slot = .inFlight tag kind (.handed i) →
    Instr.asRequest i = some (⟨l, tag⟩, kind)
  pull : ∀ x, s.ring.pull = some x → ∃ tag, (s.link x.link).slot = .inFlight tag 0x2D .working
  write : ∀ x, s.store.write = some x → ∃ tag, (s.link x.link).slot = .inFlight tag 0x0D .working
  lineReset : ∀ l, s.lineReset = some l → ∃ tag, (s.link l).slot = .inFlight tag 0x1C .working
  reply : ∀ l f, (s.link l).tx = .sending .reply f → ∃ tag kind a, (s.link l).slot = .inFlight tag kind (.ready a)

/-- A garment is bound to a line (R53). -/
def boundTo (i : Fin 512) : Option Garment → Bool
  | none => false
  | some g =>
    match g.binding with
    | none => false
    | some b => b.line == i

/-- A shelf slot's context is bound to a line (R150). -/
def shelvedFor (i : Fin 512) : Option ShelfSlot → Bool
  | none => false
  | some x => x.context.ident.line == i

/-- The garment records and shelf contexts bound to a line (R41). -/
def State.bindings (s : State) (i : Fin 512) : Nat :=
  s.units.garments.toList.countP (boundTo i) + s.shelf.slots.toList.countP (shelvedFor i)

/-- R41's invariant that every line's reserved count is the number of its bindings, with what it rests on:
lines and orders name each other, done and reserved stay within the quantity (R32), line and order states are
those of R33 and R34, and a LOADED garment has no binding. -/
structure ReservationInv (s : State) : Prop where
  reserved : ∀ (i : Fin 512) l, s.book.lines[i] = some l → l.reserved = s.bindings i
  free : ∀ i : Fin 512, s.book.lines[i] = none → s.bindings i = 0
  owner : ∀ (i : Fin 512) l, s.book.lines[i] = some l → ∃ o ∈ s.book.orders, o.number = l.order ∧ i ∈ o.lines
  owned : ∀ o ∈ s.book.orders, ∀ i ∈ o.lines, ∃ l, s.book.lines[i] = some l ∧ l.order = o.number
  numbers : (s.book.orders.map Order.number).Nodup
  once : ∀ o ∈ s.book.orders, o.lines.Nodup
  within : ∀ (i : Fin 512) l, s.book.lines[i] = some l → l.done + l.reserved ≤ l.quantity
  status : ∀ (i : Fin 512) l o, s.book.lines[i] = some l → o ∈ s.book.orders → o.number = l.order →
    l.status = l.derived o.status
  finished : ∀ (i : Fin 512) l, s.book.lines[i] = some l → l.status = .done → l.reserved = 0
  complete : ∀ o ∈ s.book.orders, o.status = .complete → ∀ i ∈ o.lines, s.book.lineStatus i = some .done
  cancelled : ∀ o ∈ s.book.orders, o.status = .cancelled → ∀ i ∈ o.lines, s.book.lineStatus i ≠ some .withdrawn
  loaded : ∀ (p : Fin 16) g, s.garment p = some g → g.stage = .loaded → g.binding = none

/-! ### Frames -/

/-- A link's lost mark is as given, or the frame of its oldest notice has begun, which takes the mark along (R175). -/
def LinkState.lostStands (k : LinkState) (lost : Bool) : Prop :=
  k.lost = lost ∨
    (k.lost = false ∧ ∃ n, k.queue.head? = some n ∧ k.tx = .sending .notice (noticeFrame n lost))

/-- The parts of the state that a frame may name. `notices` are the links' notice queues, numbers and lost marks,
`settings` the links' receivers, masks, discard counts and pending BUSY replies, `outputs` the indicator
assignments. Slots are spoken of by `Answered`; what every command makes of a link's reply mode and transmitter is in
`SymbolsAndSentFrames`, and of the lamps in `IndicatorsFollowConditions`. -/
inductive Part where
  | pending | resetLow | powerFlag | clock | inputs | track | book | units | store | arbiter | mem | engine | spray
  | press | ring | cure | shelf | lineReset | notices | settings | outputs
  deriving DecidableEq, Repr

/-- A part is the same in two states. -/
def Part.same (p : Part) (s t : State) : Prop :=
  match p with
  | .pending => t.pending = s.pending
  | .resetLow => t.resetLow = s.resetLow
  | .powerFlag => t.powerFlag = s.powerFlag
  | .clock => t.clock = s.clock
  | .inputs => t.inputs = s.inputs
  | .track => t.track = s.track
  | .book => t.book = s.book
  | .units => t.units = s.units
  | .store => t.store = s.store
  | .arbiter => t.arbiter = s.arbiter
  | .mem => t.mem = s.mem
  | .engine => t.engine = s.engine
  | .spray => t.spray = s.spray
  | .press => t.press = s.press
  | .ring => t.ring = s.ring
  | .cure => t.cure = s.cure
  | .shelf => t.shelf = s.shelf
  | .lineReset => t.lineReset = s.lineReset
  | .notices => ∀ l, (t.link l).queue = (s.link l).queue ∧ (t.link l).number = (s.link l).number ∧
      (t.link l).lostStands (s.link l).lost
  | .settings => ∀ l, (t.link l).receiver = (s.link l).receiver ∧ (t.link l).mask = (s.link l).mask ∧
      (t.link l).discards = (s.link l).discards ∧ (t.link l).busy = (s.link l).busy
  | .outputs => ∀ i : Fin 6, t.indicators[i].conditions = s.indicators[i].conditions ∧
      t.indicators[i].blink = s.indicators[i].blink ∧ t.indicators[i].onTime = s.indicators[i].onTime ∧
      t.indicators[i].offTime = s.indicators[i].offTime

/-- Every part but those named is the same in `t` as in `s`. -/
def State.keeps (s t : State) (changed : List Part) : Prop := ∀ p, p ∉ changed → p.same s t

/-- What one link's queue, notice number and lost mark become when notices are raised in turn (R174). -/
def LinkState.offerAll (time : Word) (ns : List Notice) (k : LinkState) : LinkState :=
  ns.foldl (fun k n => k.offer time n) k

/-- Between `s` and `t` exactly the notices `ns` were raised, in that order, at the time base of `s`. -/
def State.notified (s t : State) (ns : List Notice) : Prop :=
  ∀ l, (t.link l).queue = ((s.link l).offerAll s.clock.time ns).queue ∧
    (t.link l).number = ((s.link l).offerAll s.clock.time ns).number ∧
    (t.link l).lostStands ((s.link l).offerAll s.clock.time ns).lost

/-! ### How a command ends -/

/-- The request is refused with `code`: the reply holds the code alone and nothing else changes. -/
def Refused (i : Instr) (v : Via) (kind : Nat) (s : State) (code : ResultCode) : Prop :=
  ∃ t, Answered i v kind s t code [] ∧ s.keeps t []

/-- The request is accepted with reply contents `body`, and every part becomes what it is in `u`. -/
def Done (i : Instr) (v : Via) (kind : Nat) (s : State) (body : List Field) (u : State) : Prop :=
  ∃ t, Answered i v kind s t .ok body ∧ u.keeps t []

/-- The request is accepted and begins, its reply still to come, and every part becomes what it is in `u`. -/
def Starts (i : Instr) (v : Via) (kind : Nat) (s u : State) : Prop := ∃ t, Begun i v kind s t ∧ u.keeps t []

/-- The event happens, and every part becomes what it is in `u`. -/
def Leads (i : Instr) (s u : State) : Prop := ∃ t, Happened i s t ∧ u.keeps t []

/-! ### R7's table -/

/-- R7's station condition for an exit move, station by station. -/
def StationCondition (s : State) (n : Fin 6) (p : Fin 16) : Prop :=
  match s.garment p with
  | none => n ≠ 0
  | some g =>
    match n with
    | 0 => g.binding ≠ none
    | 1 => g.disposition = .reject ∨ g.pretreat.result ≠ .pending
    | 2 => g.disposition = .reject ∨ g.press = .done ∨ g.press = .waived
    | 3 => g.disposition = .reject ∨ g.print.phase = .complete ∨ g.print.phase = .aborted
    | 4 => g.disposition = .reject ∨ g.cure.result = .released ∨ g.cure.result = .scorched
    | 5 => False

/-- R7: exit segment Xn may start with platen `p`. -/
def ExitMay (s : State) (n : Fin 6) (p : Fin 16) : Prop :=
  s.track.line = .running ∧ s.track.exits[n] = .idle ∧ s.track.stations[n].occupant = some p ∧
  s.track.places[p] = .station n ∧ s.track.stations[n].held = false ∧ s.track.laneLoad n < laneCapacity n ∧
  StationCondition s n p

/-- R8: entry segment En may start with platen `p`, the head of its lane. -/
def EntryMay (s : State) (n : Fin 6) (p : Fin 16) : Prop :=
  s.track.line = .running ∧ s.track.entries[n] = .idle ∧ s.track.lanes[n].head? = some p ∧
  s.track.stations[nextStation n].occupant = none ∧ s.track.stations[nextStation n].reserved = false ∧
  s.track.stations[nextStation n].held = false

/-! ### Serials (R49) -/

/-- A value that an allocation passes over: 0, or the serial of a garment record or of a context on the shelf. -/
def State.serialTaken (s : State) (w : Word) : Prop :=
  w = 0 ∨ (∃ p g, s.garment p = some g ∧ g.serial = w) ∨ ∃ i x, s.shelfSlot i = some x ∧ x.context.serial = w

/-- The first value from the serial counter on that passes. -/
def State.firstSerial (s : State) (w : Word) : Prop :=
  ∃ n : Nat, w = s.units.serial + BitVec.ofNat 32 n ∧ ¬s.serialTaken w ∧
    ∀ m, m < n → s.serialTaken (s.units.serial + BitVec.ofNat 32 m)

/-! ### What a raster unit reads (R87) -/

/-- R87: a byte of a pixel of a field row's art lies in a 64-byte block. -/
def ReadsBlock (s : State) (b : Placement) (y block : Nat) : Prop :=
  ∃ d r x address, s.art b.art = some d ∧ artFootprint b d = some r ∧ r.top ≤ y ∧ y ≤ r.bottom ∧ r.left ≤ x ∧
    x ≤ r.right ∧ block = address / 64 * 64 ∧
    let col := b.col0 + (x - b.ox)
    let row := d.base + (b.row0 + (y - b.oy)) * d.stride
    match d.format with
    | .idx4 => address = row + col / 2
    | .idx8 => address = row + col
    | .cmyka => row + 5 * col ≤ address ∧ address < row + 5 * col + 5

/-- The art reads planned for a unit's rows (R91, log 9): every block of every row of the extent down and up to the choke
radius beyond them, once for each row, rows from the top and blocks from the left. -/
def PlannedReads (s : State) (b : Binding) (e : Rect) (first last : Nat) (reads : List (Nat × Nat)) : Prop :=
  (∀ y block, (y, block) ∈ reads ↔
    first ≤ y + b.recipe.choke ∧ y ≤ last + b.recipe.choke ∧ e.top ≤ y ∧ y ≤ e.bottom ∧ ReadsBlock s b.placement y block) ∧
  reads.Pairwise fun x z => x.1 < z.1 ∨ (x.1 = z.1 ∧ x.2 < z.2)

/-! ### Spray pulses (R107, R110) -/

/-- Every planned pulse of the running sequence is issued, short, still with an active channel, or in a band
that has had no strobe. -/
def PulsesAccounted (s : State) : Prop :=
  ∀ run p g r, s.spray.run = some run → s.sprayed = some (p, g, r) →
    g.pretreat.planned =
      g.pretreat.issued + g.pretreat.shortfall + cutShortfall s.spray.channels + unstrobed g.pretreat.map run.strobes

/-! ### Indicator conditions -/

/-- Chapter 11.4's table: the condition of each bit of a condition set holds. -/
def ConditionHolds (s : State) (n : Fin 8) : Prop :=
  match n with
  | 0 => ∃ g p cause late, s.seg g = .jammed p cause late
  | 1 => s.track.line = .stopped
  | 2 => s.track.line = .census
  | 3 => ∃ p g, (s.station 0).occupant = some p ∧ s.place p = .station 0 ∧ s.garment p = some g ∧ g.stage = .loaded
  | 4 => ∃ p g, (s.station 4).occupant = some p ∧ s.place p = .station 4 ∧ s.garment p = some g ∧ g.cure.stale = true
  | 5 => ∃ i x, s.shelfSlot i = some x
  | 6 => ∃ h d, s.art h = some d ∧ d.status = .bad
  | 7 => s.track.line = .running

/-- R177: an output is active while a condition of its set holds. -/
def OutputActive (s : State) (o : Fin 6) : Prop :=
  ∃ n : Fin 8, s.indicators[o].conditions.getLsbD n = true ∧ ConditionHolds s n

/-! ### Reservations -/

/-- R33, R41: a line of an order that is not being cancelled, with one more unit reserved and its state derived again. -/
def Line.withOneMore (l : Line) : Line :=
  { l with
    reserved := l.reserved + 1
    status := if l.done = l.quantity then .done else if l.done + (l.reserved + 1) = l.quantity then .full else .opened }

/-- R34: the state of an order in OPEN or HELD over the lines as they are now. -/
def Order.over (o : Order) (lines : Vector (Option Line) 512) : OrderStatus :=
  if o.lines.all (fun j => (lines[j]).map Line.status == some .done) then .complete else o.status

/-- R34, R41: the Order Book with one more unit of line `k`, the record `l` of order `o`, reserved. -/
def Book.withOneMore (b : Book) (k : Fin 512) (l : Line) (o : Order) : Book :=
  let lines := upd b.lines k (some l.withOneMore)
  let status := o.over lines
  { b with
    lines := lines
    orders := if status = o.status then b.orders
      else b.orders.map fun y => if y.number = o.number then { o with status := status } else y }

/-- R41, R45: the notices of that reservation. -/
def Book.noticesOfOneMore (b : Book) (k : Fin 512) (l : Line) (o : Order) : List Notice :=
  let x := l.withOneMore
  let status := o.over (upd b.lines k (some x))
  .lineProgress k l.order (o.lines.idxOf k) l.quantity l.done x.reserved l.spoiled x.status ::
    if status = o.status then [] else [.orderState o.number (some status) o.sequence]

/-! ### Coverage jobs -/

/-- R105: between `s` and `t` the coverage job of the garment of platen `p` and serial `w` is withdrawn: it leaves the
queue, the others keep their order, a band unit of it that is running will have its results discarded, and nothing else
changes. -/
def WithdrawsJob (p : Fin 16) (w : Word) (s t : State) : Prop :=
  t = { s with engine := t.engine } ∧
  t.engine.jobs = s.engine.jobs.filter (fun j => decide (j.platen ≠ p ∨ j.serial ≠ w)) ∧
  (s.engine.unit = none → t.engine.unit = none) ∧
  ∀ u, s.engine.unit = some u →
    let mine := (∃ k, u.kind = .band k) ∧ u.platen = p ∧ u.serial = w
    (mine → t.engine.unit = some { u with discarded := true }) ∧ (¬mine → t.engine.unit = some u)

/-! ### The print order (R124) -/

/-- R124: a platen holds the print position. -/
def PrintPosition (s : State) (p : Fin 16) : Prop :=
  (s.station 3).occupant = some p ∨
  ((s.station 3).occupant = none ∧ (s.station 3).reserved = true ∧
    (s.place p = .moving (.entry 2) ∨ s.place p = .uncertain (.entry 2)))

/-- R121, R124: the garment on a platen is eligible for production, with its binding and extent. -/
def Eligible (s : State) (p : Fin 16) (x : Producing) : Prop :=
  let g := x.garment
  let n := x.extent.bottom / 256 - x.extent.top / 256 + 1
  x.platen = p ∧ s.garment p = some g ∧ g.binding = some x.binding ∧ s.extent x.binding.placement = some x.extent ∧
  g.disposition = .good ∧
  (g.pretreat.result = .done ∨ g.pretreat.result = .short ∨ g.pretreat.result = .waived) ∧
  (g.press = .done ∨ g.press = .waived) ∧ g.print.phase ≠ .complete ∧ g.print.phase ≠ .aborted ∧
  g.print.produced < (if x.binding.recipe.dark then 2 * n else n)

/-! ### What READ reports -/

/-- R179: a coded value: its place in the list its rule gives. -/
def Reported.coded {α : Type} [DecidableEq α] (list : List α) (x : α) : Field := .u8 (list.idxOf x)

/-- R179: a yes/no, a mark or a flag. -/
def Reported.mark (b : Bool) : Field := .u8 (if b then 1 else 0)

/-- R179: a segment. -/
def Reported.segment : Segment → Field
  | .exit n => .u8 n.val
  | .entry n => .u8 (6 + n.val)

/-- R179: a set of components. -/
def Reported.components (x : Components) : Field :=
  let bit (b : Bool) (n : Nat) : Nat := if b then n else 0
  .u8 (bit x.ident 1 + bit x.pretreat 2 + bit x.print 4 + bit x.cure 8)

/-- R179: a place, with the position where it is in a lane. -/
def Reported.place (x : Place) (position : Nat) : List Field :=
  match x with
  | .station n => [.u8 0, .u8 n.val]
  | .lane n => [.u8 1, .u8 (16 * n.val + position)]
  | .moving g => [.u8 2, segment g]
  | .uncertain g => [.u8 3, segment g]
  | .service => [.u8 4, .u8 0]
  | .unseen => [.u8 5, .u8 0]

/-- R23: a platen record. -/
def Reported.platen (s : State) (p : Fin 16) : List Field :=
  place (s.place p) (match s.place p with | .lane n => (s.lane n).idxOf p | _ => 0) ++
  [.u32 ((s.garment p).elim 0 fun g => g.serial.toNat)]

/-- R28, R179: a recipe. -/
def Reported.recipe (r : Recipe) : List Field :=
  [mark r.dark, mark r.pretreat, .u8 r.dose, .u8 r.covMin, .u8 r.period, .u8 r.duty, .u16 r.tolerance, .u16 r.dwell,
   .u16 r.inkLimit, .u8 r.underbase, .u8 r.knockout, .u8 r.choke, .u16 r.cureBase, .u16 r.whiteStep, .s16 r.scorchLimit,
   .u16 r.scorchAllowance]

/-- R48: a placement. -/
def Reported.placement (p : Placement) : List Field :=
  [.u8 p.art.val, .u16 p.col0, .u16 p.row0, .u16 p.width, .u16 p.height, .u16 p.ox, .u16 p.oy] ++
  optional 5 (p.overlay.map fun o => [.u8 o.index.val, .s16 o.vx, .s16 o.vy])

/-- R48, R64: a garment record, its map apart; absent fields as log 14 has them. -/
def Reported.garment (g : Garment) : List Field :=
  let a := g.print.tallies
  [.u32 g.serial.toNat, .u16 g.blank.style, .u8 g.blank.colour, .u8 g.blank.size] ++
  optional 1 (g.cls.map fun c => [.u8 c.val]) ++
  [coded [Stage.loaded, .matched, .spraying, .pressing, .printWait, .printing, .cureWait, .curing, .released] g.stage] ++
  optional 1 (g.hold.map fun h => [coded [HoldReason.unknownBlank, .noLine] h]) ++
  [coded [Disposition.good, .reject] g.disposition, mark g.orphan, mark g.restored] ++
  optional 6 (g.binding.map fun b => [.u32 b.order.toNat, .u16 b.line.val]) ++
  optional 19 (g.binding.map fun b => placement b.placement) ++ optional 23 (g.binding.map fun b => recipe b.recipe) ++
  [coded [CoverageState.none, .queued, .scanning, .complete] g.pretreat.coverage, .u24 g.pretreat.planned,
   .u24 g.pretreat.issued, .u24 g.pretreat.shortfall,
   coded [PretreatResult.pending, .done, .short, .interrupted, .waived] g.pretreat.result,
   coded [PressRecord.pending, .done, .interrupted, .waived] g.press,
   coded [PrintPhase.none, .underbase, .color, .complete, .aborted] g.print.phase, .u8 g.print.first, .u8 g.print.last,
   .u8 g.print.count, .u8 g.print.produced, .u8 g.print.released, .u32 a.c, .u32 a.m, .u32 a.y, .u32 a.k, .u32 a.w,
   .u16 g.cure.credit, .u8 g.cure.carry, .u16 g.cure.required] ++
  optional 4 (g.cure.lastSample.map fun t => [.u32 t.toNat]) ++
  [.u16 g.cure.scorch, mark g.cure.stale, coded [CureResult.none, .released, .scorched] g.cure.result]

/-- R170: the map option: platen, serial and the 504 cells, zones 0 to 7 within each band. -/
def Reported.map (p : Fin 16) (g : Garment) : List Field :=
  [.u8 p.val, .u32 g.serial.toNat,
   .bytes ((List.finRange 63).flatMap fun k => (List.finRange 8).map fun z => BitVec.ofNat 8 g.pretreat.map[k][z])]

/-- R31, R45: an order record. -/
def Reported.order (o : Order) : List Field :=
  [.u32 o.number.toNat, .u8 o.priority, .u32 o.sequence.toNat,
   coded [OrderStatus.opened, .held, .cancelling, .complete, .cancelled] o.status] ++
  listed (o.lines.map fun k => [.u16 k.val])

/-- R32, R45: a line record. -/
def Reported.line (l : Line) : List Field :=
  [.u32 l.order.toNat, .u16 l.blank.style, .u8 l.blank.colour, .u8 l.blank.size, .u16 l.quantity, .u16 l.done,
   .u16 l.reserved, .u16 l.spoiled] ++ placement l.placement ++
  [coded [LineStatus.opened, .full, .done, .withdrawn, .closed] l.status]

/-- R68, R76, R82: the record of a descriptor; the VERIFYING fields and the widths as log 14 has them. -/
def Reported.art (s : State) (h : Fin 64) : List Field :=
  match s.art h with
  | none => [.u8 0]
  | some d =>
    let pins := (List.finRange 512).countP fun k =>
      match s.book.lines[k] with
      | none => false
      | some l => decide (l.placement.art = h ∧ (l.status = .opened ∨ l.status = .full ∨ l.status = .withdrawn))
    let rowBytes := match d.format with | .idx4 => (d.width + 1) / 2 | .idx8 => d.width | .cmyka => 5 * d.width
    [.u8 (match d.status with | .loading => 1 | .verifying => 2 | .ready => 3 | .bad => 4),
     coded [ArtFormat.idx4, .idx8, .cmyka] d.format, .u8 d.palette.val, .u16 d.width, .u16 d.height, .u16 d.stride,
     .u32 d.base, .u32 d.expected.toNat] ++ optional 4 (d.computed.map fun c => [.u32 c.toNat]) ++
    [.u16 d.rowsChecked, .u32 (d.base + d.stride * d.height - 1), .u16 rowBytes, .u16 pins] ++
    optional 3 (if d.status = .verifying then some [.u8 (s.store.verifyQueue.idxOf h), .u16 d.rowsChecked] else none)

/-- R151: how much of a PRETREAT component is in use: 0 not in use, 1 partial, 2 complete. -/
def Reported.pretreatUse (p : CtxPretreat) : Nat :=
  let pressed := p.press = .done ∨ p.press = .waived
  match p.result with
  | .pending => 0
  | .interrupted => 1
  | .waived => if pressed then 2 else 0
  | _ => if pressed then 2 else 1

/-- R151: the same of a PRINT component. -/
def Reported.printUse (p : CtxPrint) : Nat :=
  match p.phase with
  | .none => 0
  | .aborted => 0
  | .complete => 2
  | _ => 1

/-- R151: the same of a CURE component. -/
def Reported.cureUse (c : CtxCure) : Nat :=
  match c.result with
  | .released => 2
  | .scorched => 1
  | .none => if 0 < c.credit ∨ 0 < c.carry ∨ 0 < c.scorch then 1 else 0

/-- R162: a shelf slot: 0 while empty; otherwise its context, absent components as absent fields, its line, its recipe
and placement, and the use of each component, as log 14 lays them out. -/
def Reported.shelf (s : State) (i : Fin 8) : List Field :=
  match s.shelfSlot i with
  | none => [.u8 0]
  | some x =>
    let c := x.context
    let bit (b : Bool) (n : Nat) : Nat := if b then n else 0
    let position := match s.book.find c.ident.order with | none => 0 | some o => o.lines.idxOf c.ident.line
    [.u8 1, .u8 0, .u8 (1 + bit c.pretreat.isSome 2 + bit c.print.isSome 4 + bit c.cure.isSome 8), .u16 c.length,
     .u32 c.serial.toNat, .u8 1, .u16 c.ident.blank.style, .u8 c.ident.blank.colour, .u8 c.ident.blank.size,
     .u8 c.ident.cls.val, .u8 (bit c.ident.reject 1 + bit c.ident.orphan 2 + bit c.ident.restored 4), .u16 c.ident.line.val,
     .u32 c.ident.order.toNat, .u32 c.ident.time.toNat] ++
    optional 12 (c.pretreat.map fun p =>
      [coded [CoverageState.none, .queued, .scanning, .complete] p.coverage,
       coded [PretreatResult.pending, .done, .short, .interrupted, .waived] p.result,
       coded [PressRecord.pending, .done, .interrupted, .waived] p.press, .u24 p.planned, .u24 p.issued, .u24 p.shortfall]) ++
    optional 16 (c.print.map fun p =>
      [coded [PrintPhase.none, .underbase, .color, .complete, .aborted] p.phase, .u8 p.count, .u8 p.produced, .u8 p.released,
       .u32 p.w, .u16 p.c, .u16 p.m, .u16 p.y, .u16 p.k]) ++
    optional 8 (c.cure.map fun p =>
      [coded [CureResult.none, .released, .scorched] p.result, .u8 p.carry, .u16 p.credit, .u16 p.required, .u16 p.scorch]) ++
    [.u32 c.ident.order.toNat, .u16 c.ident.line.val, .u8 position] ++ recipe x.recipe ++ placement x.placement ++
    [.u8 1, .u8 2] ++ optional 1 (c.pretreat.map fun p => [.u8 (pretreatUse p)]) ++
    optional 1 (c.print.map fun p => [.u8 (printUse p)]) ++ optional 1 (c.cure.map fun p => [.u8 (cureUse p)])

/-- R122, R123, R137: the swath ring record; the session as an optional field and the widths as log 14 has them. -/
def Reported.ring (s : State) : List Field :=
  let phase (x : SwathPhase) : Field := coded [SwathPhase.underbase, .color] x
  let produced := (List.finRange 4).countP fun i =>
    match s.ring.slots[i] with
    | none => false
    | some w => decide (w.status = .ready ∨ w.status = .handed)
  let session : Option (List Field) :=
    match s.ring.session with
    | none => none
    | some x => (s.garment x.platen).map fun g =>
        [.u8 x.platen.val, .u32 x.serial.toNat, .u8 x.count, .u8 g.print.produced, .u8 g.print.released]
  s.ring.slots.toList.flatMap (fun
    | none => [.u8 0]
    | some w =>
      [.u8 (match w.status with | .filling => 1 | .ready => 2 | .handed => 3), .u32 w.serial.toNat, .u8 w.sequence,
       phase w.phase, .u16 w.rowStart, .u16 w.rows, .u16 w.xStart, .u16 w.width, .u32 w.length]) ++
  listed (s.ring.order.map fun i => [.u8 i.val]) ++
  [.u8 (if produced = 0 then 0 else if produced = 1 then 1 else if produced ≤ 3 then 2 else 3)] ++ optional 8 session ++
  optional 5 (s.headOfLine.map fun x => [.u8 x.platen.val, .u32 x.garment.serial.toNat]) ++
  (match s.engine.unit with
    | none => [.u8 0]
    | some u =>
      (match u.kind with
        | .band k => [.u8 1, .u8 0, .u8 u.platen.val, .u32 u.serial.toNat, .u8 k]
        | .swath q x index _ =>
          [.u8 1, .u8 1, .u8 u.platen.val, .u32 u.serial.toNat, .u8 q, phase x, .u8 index]) ++
      [.u16 u.first, .u16 u.last, .u16 u.next]) ++
  listed (s.engine.jobs.map fun j => [.u8 j.platen.val, .u32 j.serial.toNat, .u8 j.cursor])

/-- R23: the track's part of the line-status record. -/
def Reported.track (s : State) : List Field :=
  let busy (x : SegState) : Nat := if x = .idle then 0 else 1
  let segment (x : SegState) : List Field :=
    match x with
    | .idle => [.u8 0]
    | .moving p start => [.u8 1, .u8 p.val, .u32 start.toNat, .u16 (8000 - (s.clock.time - start).toNat)]
    | .jammed p cause late =>
      [.u8 2, .u8 p.val, coded [JamCause.timeout, .eStop, .lineReset] cause, mark late]
  [coded [LineState.census, .stopped, .running] s.track.line, mark s.inputs.estop.level] ++
  s.inputs.present.toList.map (fun x => mark x.level) ++
  s.track.stations.toList.flatMap (fun x => optional 1 (x.occupant.map fun p => [.u8 p.val]) ++ [mark x.reserved, mark x.held]) ++
  (List.finRange 6).flatMap (fun n => listed (s.track.lanes[n].map fun p => [.u8 p.val]) ++
    [.u8 (s.track.lanes[n].length + busy s.track.exits[n] + busy s.track.entries[n])]) ++
  s.track.exits.toList.flatMap segment ++ s.track.entries.toList.flatMap segment

/-- R106, R113, R120: the part of the Spray and Press Controllers. -/
def Reported.pretreatment (s : State) : List Field :=
  let waiting : Bool := match s.garmentAt 1 with
    | none => false
    | some x => decide (x.2.disposition = .good ∧ x.2.pretreat.result = .pending)
  (match s.spray.run with
    | none => [.u8 (if waiting then 1 else 0), .u8 0, .u8 0, .bytes [0], .u8 0]
    | some r => [.u8 2, .u8 r.strobes] ++ optional 1 (r.band.map fun k => [.u8 k]) ++ [.u8 1]) ++
  s.spray.channels.toList.map (fun c => mark c.valve) ++
  (match s.press with
    | .idle => [.u8 0, .u8 0]
    | .closing left => [.u8 1, .u16 left, .u8 1]
    | .dwell left => [.u8 2, .u16 left, .u8 1]
    | .opening left => [.u8 3, .u16 left, .u8 0]
    | .fault cause => [.u8 4, coded [PressCause.close, .opening] cause, .u8 0]) ++
  [mark s.inputs.pressClosed.level, mark s.inputs.pressOpen.level]

/-- R170, R178: the line-status record; an output's phase and time, and the slot of a link, as optional fields (log 14). -/
def Reported.status (s : State) : List Field :=
  let bit (b : Bool) (n : Nat) : Nat := if b then n else 0
  let output (x : Indicator) : List Field :=
    [.u8 x.conditions.toNat, mark x.blink, .u8 x.onTime, .u8 x.offTime] ++
    (match x.lamp with
      | .off => [.u8 0, .u8 0, .bytes [0, 0, 0]]
      | .steady => [.u8 1, .u8 0, .bytes [0, 0, 0]]
      | .blinkOn left => [.u8 1, .u8 1, .u8 0, .u16 left]
      | .blinkOff left => [.u8 0, .u8 1, .u8 1, .u16 left])
  let link (k : LinkState) : List Field :=
    [.u8 (match k.receiver with | .hunting => 0 | .receiving _ => 1 | .inBreak => 2)] ++
    (match k.slot with
      | .free => [.u8 0, .bytes [0, 0]]
      | .inFlight tag kind _ => [.u8 1, .u8 tag, .u8 kind]) ++
    [mark k.silent, .u16 k.discards, .u16 k.mask.toNat, .u8 k.queue.length, mark k.lost]
  let permit := s.shelf.permit
  track s ++ pretreatment s ++ optional 5 (s.cure.slot.map fun x => [.u8 x.1.val, .u32 x.2.toNat]) ++
  optional 2 (s.cure.stale.map fun left => [.u16 left]) ++
  [.u8 (bit permit.ident 1 + bit permit.pretreat 2 + bit permit.print 4 + bit permit.cure 8)] ++
  s.indicators.toList.flatMap output ++ link (s.link .order) ++ link (s.link .operator) ++ link (s.link .head) ++
  link (s.link .cure) ++ [mark s.powerFlag, .u32 s.clock.time.toNat]

/-! ### What a notice carries -/

/-- R174, R179 and the table of chapter 11: a notice's place in the table and the fields of its contents, in the order its
raising rule lists them; widths and optional fields that R179 does not name as log 14 has them. -/
def Reported.notice : Notice → Nat × List Field
  | .garmentMatched platen serial order position line cls waived =>
    (0, [.u8 platen.val, .u32 serial.toNat, .u32 order.toNat, .u8 position, .u16 line.val, .u8 cls.val, mark waived])
  | .garmentHeld platen serial blank cls reason =>
    (1, [.u8 platen.val, .u32 serial.toNat, .u16 blank.style, .u8 blank.colour, .u8 blank.size] ++
      optional 1 (cls.map fun c => [.u8 c.val]) ++ [coded [HoldReason.unknownBlank, .noLine] reason])
  | .orderState order status sequence =>
    (2, [.u32 order.toNat] ++
      optional 1 (status.map fun x => [coded [OrderStatus.opened, .held, .cancelling, .complete, .cancelled] x]) ++
      [.u32 sequence.toNat])
  | .lineProgress line order position quantity done reserved spoiled status =>
    (3, [.u16 line.val, .u32 order.toNat, .u8 position, .u16 quantity, .u16 done, .u16 reserved, .u16 spoiled,
      coded [LineStatus.opened, .full, .done, .withdrawn, .closed] status])
  | .artState handle status expected computed =>
    (4, [.u8 handle.val, coded [ArtState.free, .loading, .verifying, .ready, .bad] status, .u32 expected.toNat] ++
      optional 4 (computed.map fun c => [.u32 c.toNat]))
  | .printReady platen serial dark firstSeq lastSeq count firstIndex lastIndex xStart width produced =>
    (5, [.u8 platen.val, .u32 serial.toNat, .u8 (if dark then 0 else 1), .u8 firstSeq, .u8 lastSeq, .u8 count, .u8 firstIndex,
      .u8 lastIndex, .u16 xStart, .u16 width, .u8 produced])
  | .printCancelled platen serial count produced released =>
    (6, [.u8 platen.val, .u32 serial.toNat, .u8 count, .u8 produced, .u8 released])
  | .pretreatResult platen serial result planned issued shortfall tolerance strobes =>
    (7, [.u8 platen.val, .u32 serial.toNat, coded [PretreatResult.pending, .done, .short, .interrupted, .waived] result,
      .u24 planned, .u24 issued, .u24 shortfall, .u16 tolerance, .u8 strobes])
  | .pressFault platen serial cause dwell =>
    (8, [.u8 platen.val, .u32 serial.toNat, coded [PressCause.close, .opening] cause, .u16 dwell])
  | .cureResult platen serial result credit required scorch allowance w =>
    (9, [.u8 platen.val, .u32 serial.toNat, coded [CureResult.none, .released, .scorched] result, .u16 credit,
      .u16 required, .u16 scorch, .u16 allowance, .u32 w])
  | .cureStale platen serial stale credit required =>
    (10, [.u8 platen.val, .u32 serial.toNat, mark stale, .u16 credit, .u16 required])
  | .garmentDone platen serial binding outcome disposition orphan restored pretreat shortfall press phase cure credit =>
    (11, [.u8 platen.val, .u32 serial.toNat] ++ optional 6 (binding.map fun b => [.u32 b.1.toNat, .u16 b.2.val]) ++
      [coded [GarmentOutcome.good, .spoiled, .shelved, .cleared] outcome, coded [Disposition.good, .reject] disposition,
       mark orphan, mark restored, coded [PretreatResult.pending, .done, .short, .interrupted, .waived] pretreat,
       .u24 shortfall, coded [PressRecord.pending, .done, .interrupted, .waived] press,
       coded [PrintPhase.none, .underbase, .color, .complete, .aborted] phase,
       coded [CureResult.none, .released, .scorched] cure, .u16 credit])
  | .jam seg platen cause late =>
    (12, [segment seg, .u8 platen.val, coded [JamCause.timeout, .eStop, .lineReset] cause, mark late])
  | .lineState line estop powerFlag =>
    (13, [coded [LineState.census, .stopped, .running] line, mark estop, mark powerFlag])
  | .shelfChange slot event serial present order line restored =>
    (14, [.u8 slot.val, coded [ShelfEvent.saved, .restored, .dropped, .exported, .imported] event, .u32 serial.toNat,
      components present, .u32 order.toNat, .u16 line.val] ++
      optional 2 (restored.map fun r => [.u8 r.1.val, components r.2]))
  | .platenMoved platen seg place position =>
    (15, [.u8 platen.val] ++ optional 1 (seg.map fun g => [segment g]) ++ Reported.place place position)

/-! ### What a request carries -/

/-- What R179 says of one byte of a request's payload. -/
inductive Laid where
  /-- this byte -/
  | exactly (b : Byte)
  /-- a byte that is not looked at: of an absent optional field, or the second of a SERVICE or UNSEEN place (log 13) -/
  | spare
  /-- the second byte of a LANE place: the lane in bits 7-4, the position bits ignored -/
  | lane (n : Nat)
  deriving DecidableEq, Repr

/-- A byte is as R179 says. -/
def Laid.holds : Laid → Byte → Prop
  | .exactly b, c => c = b
  | .spare, _ => True
  | .lane n, c => c.toNat / 16 = n

namespace Laid

/-- A number in one byte, and so on; most significant byte first, signed numbers in two's complement. -/
def one (n : Nat) : List Laid := [.exactly (BitVec.ofNat 8 n)]
def two (n : Nat) : List Laid := one (n / 256) ++ one n
def four (n : Nat) : List Laid := two (n / 65536) ++ two n
def signed (z : Int) : List Laid := two (if z < 0 then z + 65536 else z).toNat
def flag (b : Bool) : List Laid := one (if b then 1 else 0)

/-- An optional field of a size. -/
def opt (size : Nat) : Option (List Laid) → List Laid
  | none => one 0 ++ List.replicate size .spare
  | some l => one 1 ++ l

/-- A list, its count in one byte. -/
def list (items : List (List Laid)) : List Laid := one items.length ++ items.flatten

/-- A run of bytes, its count in two bytes. -/
def run (bytes : List Byte) : List Laid := two bytes.length ++ bytes.map .exactly

def blank (b : BlankCode) : List Laid := two b.style ++ one b.colour ++ one b.size

def cmyk (x : Cmyk) : List Laid := one x.c ++ one x.m ++ one x.y ++ one x.k

/-- R28, R179: a recipe. -/
def recipe (r : Recipe) : List Laid :=
  flag r.dark ++ flag r.pretreat ++ one r.dose ++ one r.covMin ++ one r.period ++ one r.duty ++ two r.tolerance ++
  two r.dwell ++ two r.inkLimit ++ one r.underbase ++ one r.knockout ++ one r.choke ++ two r.cureBase ++ two r.whiteStep ++
  signed r.scorchLimit ++ two r.scorchAllowance

/-- R35: a line of ORDER_POST. -/
def postLine (l : PostLine) : List Laid :=
  blank l.blank ++ two l.quantity ++ one l.art ++ two l.col0 ++ two l.row0 ++ two l.width ++ two l.height ++ two l.ox ++
  two l.oy ++ opt 5 (l.overlay.map fun o => one o.index ++ signed o.vx ++ signed o.vy)

/-- R79, log 13: a row of 64 overlay codes, four a byte, the first in bits 7-6. -/
def overlayRow (r : Vector OverlayCode 64) : List Laid :=
  let code (x : OverlayCode) : Nat := match x with | .transparent => 0 | .colourA => 1 | .colourB => 2 | .knockout => 3
  (List.finRange 16).flatMap fun j =>
    one (64 * code r[4 * j.val] + 16 * code r[4 * j.val + 1] + 4 * code r[4 * j.val + 2] + code r[4 * j.val + 3])

/-- R179: a place in a request. -/
def place : PlaceArg → List Laid
  | .station n => one 0 ++ one n
  | .lane n => one 1 ++ [.lane n]
  | .moving (.exit n) => one 2 ++ one n.val
  | .moving (.entry n) => one 2 ++ one (6 + n.val)
  | .uncertain (.exit n) => one 3 ++ one n.val
  | .uncertain (.entry n) => one 3 ++ one (6 + n.val)
  | .service => one 4 ++ [.spare]
  | .unseen => one 5 ++ [.spare]

end Laid

open Laid in
/-- R179: the payload of a request, its fields in the order their rule lists them; widths that R179 does not name as log 13
has them. The commands not listed are the requests without a payload and the commands that are no requests. -/
def Instr.laid : Instr → List Laid
  | .orderPost _ order priority lines => four order.toNat ++ one priority ++ list (lines.map postLine)
  | .lineAmend _ order position quantity => four order.toNat ++ one position ++ two quantity
  | .orderHold _ order => four order.toNat
  | .orderRelease _ order => four order.toNat
  | .orderCancel _ order => four order.toNat
  | .orderRetire _ order => four order.toNat
  | .catalogueSet _ code cls => blank code ++ one cls
  | .catalogueRemove _ code => blank code
  | .catalogueGet _ code => blank code
  | .classSet _ cls r => one cls ++ recipe r
  | .classGet _ cls => one cls
  | .artOpen _ format palette width height stride base crc =>
    one format ++ one palette ++ two width ++ two height ++ two stride ++ four base ++ four crc.toNat
  | .artWrite _ handle offset data => one handle ++ four offset ++ run data
  | .artSeal _ handle crc => one handle ++ opt 4 (crc.map fun c => four c.toNat)
  | .artFree _ handle => one handle
  | .paletteSet _ palette first entries =>
    one palette ++ one first ++ list (entries.map fun e => one e.c ++ one e.m ++ one e.y ++ one e.k ++ one e.a)
  | .paletteGet _ palette first count => one palette ++ one first ++ one count
  | .overlaySet _ overlay colours first rows =>
    one overlay ++ opt 8 (colours.map fun x => cmyk x.1 ++ cmyk x.2) ++ one first ++ list (rows.map overlayRow)
  | .overlayGet _ overlay first count => one overlay ++ one first ++ one count
  | .rateTableSet _ bands => bands.toList.flatMap fun b => signed b.threshold ++ one b.rate
  | .shelfPermitSet _ mask => one mask
  | .shelfExport _ slot form => one slot ++ one form
  | .shelfImport _ record => run record
  | .shelfDrop _ slot => one slot
  | .shelve _ platen => one platen
  | .unshelve _ slot platen mask => one slot ++ one platen ++ one mask
  | .indicatorSet _ output conditions mode onTime offTime =>
    one output ++ [.exactly conditions] ++ one mode ++ one onTime ++ one offTime
  | .noticeMaskSet _ mask => two mask.toNat
  | .read _ kind key option => one kind ++ four key ++ one option
  | .garmentLoad _ platen code => one platen ++ blank code
  | .garmentAssign _ platen order position => one platen ++ four order.toNat ++ one position
  | .loadClear _ platen => one platen
  | .unloadGood _ platen => one platen
  | .unloadSpoil _ platen => one platen
  | .platenDeclare _ platen x => one platen ++ place x
  | .jamConfirm _ platen x => one platen ++ place x
  | .stationHold _ station => one station
  | .stationRelease _ station => one station
  | .serviceOut _ platen => one platen
  | .serviceIn _ platen => one platen
  | .swathPull _ sequence offset => one sequence ++ four offset
  | .swathRelease _ sequence => one sequence
  | .printEndOk _ => one 0
  | .printEndAbort _ => one 1
  | .cureSample _ platen temperature => one platen ++ signed temperature
  | _ => []

/-! ### Shelf records -/

/-- The values of a context fit the fields of its record (R150, R181), as those of every context that SHELVE or
SHELF_IMPORT makes do. -/
def Context.fits (c : Context) : Bool :=
  BlankCode.wf c.ident.blank && !c.ident.blank.isNull &&
  (match c.pretreat with
    | none => true
    | some p => decide (p.planned < 16777216 ∧ p.issued < 16777216 ∧ p.shortfall < 16777216)) &&
  (match c.print with
    | none => true
    | some p =>
      decide (p.count < 256 ∧ p.produced < 256 ∧ p.released < 256 ∧ p.w < 4294967296 ∧ p.c < 65536 ∧ p.m < 65536 ∧
        p.y < 65536 ∧ p.k < 65536)) &&
  (match c.cure with
    | none => true
    | some p => decide (p.carry < 100 ∧ p.credit < 65536 ∧ p.required < 65536 ∧ p.scorch < 65536))

/-- R181: the bytes of a context's record in a form, the orphan mark given. -/
def Context.layout (c : Context) (f : RecordForm) (orphan : Bool) : List Byte :=
  let one (n : Nat) : List Byte := [BitVec.ofNat 8 n]
  let two (n : Nat) : List Byte := one (n / 256) ++ one n
  let three (n : Nat) : List Byte := one (n / 65536) ++ two n
  let four (n : Nat) : List Byte := two (n / 65536) ++ two n
  let bit (b : Bool) (n : Nat) : Nat := if b then n else 0
  let absent (size : Nat) : List Byte := match f with | .full => List.replicate size 0 | .compact => []
  let mask := 1 + bit c.pretreat.isSome 2 + bit c.print.isSome 4 + bit c.cure.isSome 8
  let length := match f with
    | .full => 60
    | .compact => 24 + bit c.pretreat.isSome 12 + bit c.print.isSome 16 + bit c.cure.isSome 8
  one (match f with | .full => 0 | .compact => 1) ++ one mask ++ two length ++ four c.serial.toNat ++
  two c.ident.blank.style ++ one c.ident.blank.colour ++ one c.ident.blank.size ++ one c.ident.cls.val ++
  one (bit c.ident.reject 1 + bit orphan 2 + bit c.ident.restored 4) ++ two c.ident.line.val ++ four c.ident.order.toNat ++
  four c.ident.time.toNat ++
  (match c.pretreat with
    | none => absent 12
    | some p =>
      one ([CoverageState.none, .queued, .scanning, .complete].idxOf p.coverage) ++
      one ([PretreatResult.pending, .done, .short, .interrupted, .waived].idxOf p.result) ++
      one ([PressRecord.pending, .done, .interrupted, .waived].idxOf p.press) ++
      three p.planned ++ three p.issued ++ three p.shortfall) ++
  (match c.print with
    | none => absent 16
    | some p =>
      one ([PrintPhase.none, .underbase, .color, .complete, .aborted].idxOf p.phase) ++ one p.count ++ one p.produced ++
      one p.released ++ four p.w ++ two p.c ++ two p.m ++ two p.y ++ two p.k) ++
  (match c.cure with
    | none => absent 8
    | some p =>
      one ([CureResult.none, .released, .scorched].idxOf p.result) ++ one p.carry ++ two p.credit ++ two p.required ++
      two p.scorch)

/-- R160 check 1, R181: a record that SHELF_IMPORT answers MALFORMED. That a line index above 511 is one is log 16. -/
def MalformedRecord (record : List Byte) : Prop :=
  let at_ (n : Nat) : Nat := (record.getD n 0).toNat
  let full := at_ 0 = 0
  let mask := at_ 1
  let part (n size : Nat) : Nat := if mask.testBit n then size else 0
  let length := if full then 60 else 24 + part 1 12 + part 2 16 + part 3 8
  let print := if full then 36 else 24 + part 1 12
  let cure := if full then 52 else 24 + part 1 12 + part 2 16
  let zeros (first size : Nat) : Prop := ∀ n, n < size → at_ (first + n) = 0
  1 < at_ 0 ∨ 16 ≤ mask ∨ mask.testBit 0 = false ∨ 256 * at_ 2 + at_ 3 ≠ length ∨ record.length ≠ length ∨
  (full ∧ ((mask.testBit 1 = false ∧ ¬zeros 24 12) ∨ (mask.testBit 2 = false ∧ ¬zeros 36 16) ∨
    (mask.testBit 3 = false ∧ ¬zeros 52 8))) ∨
  zeros 8 4 ∨ 15 < at_ 12 ∨ 7 < at_ 13 ∨ 511 < 256 * at_ 14 + at_ 15 ∨
  (mask.testBit 1 = true ∧ (3 < at_ 24 ∨ 4 < at_ 25 ∨ 3 < at_ 26)) ∨
  (mask.testBit 2 = true ∧ 4 < at_ print) ∨
  (mask.testBit 3 = true ∧ (2 < at_ cure ∨ 99 < at_ (cure + 1)))

/-! ### Links -/

/-- The first link state is the second but for the transmitter, which the end of every step may move on, and a lost mark
that a notice has taken along with it. -/
def LinkState.alike (a b : LinkState) : Prop :=
  a.receiver = b.receiver ∧ a.slot = b.slot ∧ a.silent = b.silent ∧ a.busy = b.busy ∧ a.discards = b.discards ∧
  a.mask = b.mask ∧ a.queue = b.queue ∧ a.number = b.number ∧ a.lostStands b.lost

end Sys2Proof.Machine
end

