-- ==== Sys2Proof/Certificates/Slice0/Obligations.lean ====
section
/-! DEFINITION. The statements for the provers, in the order of OBLIGATIONS.json: steps, power and links; the
order book; garments; the track; art and the arbiter; pretreatment; the print session; curing; the shelf;
records and line reset; the invariants. -/

section
open Sys2Proof Sys2Proof.Machine

/-! ### Steps, power, reset -/

/-- A step takes the command at the front of the queue and runs it with the queue's rest. One queue for the commands of
the links, the pins and the part's own events is the model's choice (log 1, log 25). -/
def Obligations.StepTakesFrontCommand : Prop :=
  ∀ (c : Instr) (rest : List Instr) (s : State), s.pending = c :: rest → step s = exec c { s with pending := rest }

/-- The model's choice (log 2, log 4, log 22): a step on an empty queue is one tick of 20 µs. Each line input takes a
level that has held through its filter time (R182); a change of ESTOP_N, and an input's becoming active, is then the
command that stands for it, run at the end of the tick. -/
def Obligations.IdleStepIsOneTick : Prop :=
  (∀ s : State, runAll [] s = .next s) ∧
  (∀ c rest s t, exec c s = .next t → runAll (c :: rest) s = runAll rest t) ∧
  ∀ s : State, s.pending = [] →
    (s.resetLow = true → step s = .next s) ∧
    (s.resetLow = false →
      let ms := decide (50 ≤ s.clock.sub + 1)
      let left (n : Nat) : Nat := if ms then n - 1 else n
      let due (filter : Nat) (x : LevelInput) : Bool := decide (x.wire ≠ x.level ∧ filter ≤ x.held + 1)
      let waits (x : LevelInput) : LevelInput := ⟨x.level, x.wire, if x.wire = x.level then 0 else x.held + 1⟩
      let takes (filter : Nat) (x : LevelInput) : LevelInput := if due filter x then ⟨x.wire, x.wire, 0⟩ else waits x
      let falls (x : LevelInput) : LevelInput := if x.level then takes 100 x else waits x
      let rises (filter : Nat) (x : LevelInput) (c : Instr) : List Instr := if due filter x && x.wire then [c] else []
      let x := s.inputs
      let segments := (List.finRange 6).flatMap fun n => [Segment.exit n, .entry n]
      ∃ t u, step s = .next u ∧ runAll
          ((if due 100 x.estop then [if x.estop.wire then .emergencyStopAsserted else .emergencyStopReleased] else []) ++
            segments.flatMap (fun g => rises 100 (x.arrive g) (.arrive g)) ++ rises 1 x.band .band ++
            rises 1 x.sprayEnd .sprayEnd ++ rises 100 x.pressClosed .pressClosed ++ rises 100 x.pressOpen .pressOpen) t =
          .next u ∧
        s.keeps t [.clock, .inputs, .spray, .press, .cure] ∧ t.links = s.links ∧
        t.clock = ⟨if ms then s.clock.time + 1 else s.clock.time, if ms then 0 else s.clock.sub + 1, s.clock.resets⟩ ∧
        (∀ n : Fin 6, t.inputs.present[n] = takes 100 x.present[n]) ∧
        (∀ g, t.inputs.arrive g = takes 100 (x.arrive g)) ∧
        t.inputs.band = takes 1 x.band ∧ t.inputs.sprayEnd = takes 1 x.sprayEnd ∧
        t.inputs.pressClosed = falls x.pressClosed ∧ t.inputs.pressOpen = falls x.pressOpen ∧
        t.inputs.estop = waits x.estop ∧
        t.spray.run = s.spray.run ∧
        (∀ z : Fin 8, t.spray.channels[z] =
          (let c := s.spray.channels[z]
           if s.spray.run = none ∨ c.active = false then c
           else if 0 < c.counter then { c with counter := c.counter - 1 } else { c with due := true })) ∧
        t.press =
          (match s.press with
            | .idle => .idle
            | .closing n => .closing (left n)
            | .dwell n => .dwell (left n)
            | .opening n => .opening (left n)
            | .fault c => .fault c) ∧
        t.cure = { s.cure with stale := s.cure.stale.map left } ∧
        ∀ i : Fin 6, t.indicators[i].lamp =
          (match s.indicators[i].lamp with
            | .off => .off
            | .steady => .steady
            | .blinkOn n => .blinkOn (left n)
            | .blinkOff n => .blinkOff (left n)))

/-- R24, R46, R65, R83, R101, R119, R136, R148, R163, R170, R173, R178, R182: what power-on reset leaves in every block;
the line inputs are read as they are. That the waiting commands stay is log 25, that the art memory is free log 7; the times
of indicator outputs 0 and 2 are log 24, and a channel's fifth field, `due`, is the model's own (log 22). -/
def Obligations.PowerOnResetLeaves : Prop :=
  ∀ s : State, ∃ t, exec .powerOnReset s = .next t ∧
    t.pending = s.pending ∧
    (let driven (x : LevelInput) : LevelInput := ⟨x.wire, x.wire, 0⟩
     (∀ n : Fin 6, t.inputs.present[n] = driven s.inputs.present[n]) ∧
     (∀ g, t.inputs.arrive g = driven (s.inputs.arrive g)) ∧
     t.inputs.pressClosed = driven s.inputs.pressClosed ∧ t.inputs.pressOpen = driven s.inputs.pressOpen ∧
     t.inputs.estop = driven s.inputs.estop ∧ t.inputs.band = driven s.inputs.band ∧
     t.inputs.sprayEnd = driven s.inputs.sprayEnd) ∧
    t.resetLow = false ∧ t.powerFlag = true ∧ t.clock.time = 0 ∧
    (∀ p : Fin 16, t.place p = .unseen ∧ t.garment p = none) ∧ t.track.line = .census ∧
    (∀ n : Fin 6, t.station n = ⟨none, false, false⟩ ∧ t.lane n = []) ∧ (∀ g, t.seg g = .idle) ∧
    t.book.catalogue = [] ∧ t.book.orders = [] ∧ t.book.sequence = 0 ∧
    (∀ i : Fin 512, t.book.lines[i] = none) ∧
    (∀ c : Fin 16, t.book.recipes[c] =
      ⟨false, false, 0, 8, 50, 30, 0, 100, 1020, 255, 0, 0, 1000, 0, 440, 2000⟩) ∧
    t.units.serial = 1 ∧
    (∀ h : Fin 64, t.store.arts[h] = none) ∧ t.store.verifyQueue = [] ∧ t.store.verify = none ∧ t.store.write = none ∧
    (∀ (p : Fin 8) (i : Fin 256), t.store.palettes[p][i] = ⟨0, 0, 0, 0, 0⟩) ∧
    (∀ o : Fin 16, t.store.overlays[o].a = ⟨0, 0, 0, 0⟩ ∧ t.store.overlays[o].b = ⟨0, 0, 0, 0⟩ ∧
      ∀ r k : Fin 64, t.store.overlays[o].codes[r][k] = .transparent) ∧
    t.arbiter = ⟨0, .verify, none⟩ ∧ t.engine = ⟨[], none⟩ ∧
    t.spray.run = none ∧ (∀ z : Fin 8, t.spray.channels[z] = ⟨0, 0, false, false, false⟩) ∧
    t.press = .idle ∧
    (∀ i : Fin 4, t.ring.slots[i] = none) ∧ t.ring.order = [] ∧ t.ring.session = none ∧ t.ring.pull = none ∧
    t.cure.slot = none ∧ t.cure.stale = none ∧
    t.cure.table.toList.map (fun b => (b.threshold, b.rate)) =
      [(260, 1), (280, 2), (300, 3), (310, 4), (320, 5), (330, 6), (340, 8), (350, 10)] ∧
    (∀ i : Fin 8, t.shelf.slots[i] = none) ∧ t.shelf.permit = ⟨true, true, true, true⟩ ∧
    (∀ l, t.link l = ⟨.hunting, .free, false, none, 0,
      (match l with | .order => 0x7FFF | .operator => 0xFFFF | .head => 0x2060 | .cure => 0x2200), [], false, 0, .idle⟩) ∧
    t.indicators.toList.map (fun x => (x.conditions, x.blink, x.onTime, x.offTime, x.lamp)) =
      [(0x03, false, 50, 50, .off), (0x08, true, 50, 50, .off), (0x80, false, 50, 50, .off),
       (0x00, false, 50, 50, .off), (0x00, false, 50, 50, .off), (0x00, false, 50, 50, .off)] ∧
    t.lineReset = none ∧ t.mem.wf = true

/-- R5, R107, R113, R182: while RESET_N is high GO is asserted exactly while its segment is MOVING, a valve is open while its
channel has it open, SPRAY_RUN is asserted while a sequence runs, PRESS_CLOSE in CLOSING and DWELL, and a transmitter sends
the frame it has; the indicator outputs are in `IndicatorsFollowConditions`. RESET_N low drives every output low and
holds the transmitters at the break level; the frames being sent are cut off, and until it rises nothing but the power-on
reset is taken, an input's change being noted on its wire for R24 (log 8). How symbols look is left out (log 23). -/
def Obligations.OutputsFollowBlocks : Prop :=
  (∀ s : State, s.resetLow = false →
    (∀ n : Fin 6, (s.pins.goExit[n] = true ↔ ∃ p start, s.track.exits[n] = .moving p start) ∧
      (s.pins.goEntry[n] = true ↔ ∃ p start, s.track.entries[n] = .moving p start)) ∧
    (∀ z : Fin 8, s.pins.valve[z] = true ↔ s.spray.channels[z].valve = true) ∧
    (s.pins.sprayRun = true ↔ ∃ run, s.spray.run = some run) ∧
    (s.pins.pressClose = true ↔ (∃ left, s.press = .closing left) ∨ ∃ left, s.press = .dwell left) ∧
    let sends (pin : LinkPin) (k : LinkState) : Prop :=
      (k.tx = .idle → pin = .quiet) ∧ ∀ source f, k.tx = .sending source f → pin = .frame f
    sends s.pins.orderLink s.links.order ∧ sends s.pins.operatorLink s.links.operator ∧
    sends s.pins.headLink s.links.head ∧ sends s.pins.cureLink s.links.cure) ∧
  (∀ s : State, ∃ t, exec .resetAsserted s = .next t ∧ t.resetLow = true ∧ s.keeps t [.resetLow] ∧
    (∀ l, t.link l = { (s.link l) with tx := .idle }) ∧
    (∀ n : Fin 6, t.pins.goExit[n] = false ∧ t.pins.goEntry[n] = false ∧ t.pins.ind[n] = false) ∧
    (∀ z : Fin 8, t.pins.valve[z] = false) ∧ t.pins.sprayRun = false ∧ t.pins.pressClose = false ∧
    t.pins.orderLink = .breakLevel ∧ t.pins.operatorLink = .breakLevel ∧ t.pins.headLink = .breakLevel ∧
    t.pins.cureLink = .breakLevel) ∧
  ∀ s : State, s.resetLow = true →
    (∀ c : Instr, c ≠ .powerOnReset → c ≠ .resetAsserted → c ≠ .emergencyStopAsserted → c ≠ .emergencyStopReleased →
      c ≠ .pressClosed → c ≠ .pressOpen → exec c s = .next s) ∧
    let driven (x : LevelInput) (wire : Bool) : LevelInput := ⟨x.level, wire, 0⟩
    let x := s.inputs
    exec .emergencyStopAsserted s = .next { s with inputs := { x with estop := driven x.estop true } } ∧
    exec .emergencyStopReleased s = .next { s with inputs := { x with estop := driven x.estop false } } ∧
    exec .pressClosed s = .next { s with inputs := { x with pressClosed := driven x.pressClosed true } } ∧
    exec .pressOpen s = .next { s with inputs := { x with pressOpen := driven x.pressOpen true } }

/-- The invariants hold right after reset. -/
def Obligations.ResetHasInvariants : Prop :=
  TrackInv State.reset.track ∧ StoreInv State.reset.store ∧ RingInv State.reset.ring ∧ CatalogueInv State.reset.book ∧
  (∀ l, LinkInv (State.reset.link l)) ∧ State.reset.mem.wf = true ∧ ReservationInv State.reset ∧ RequestInv State.reset

/-! ### Links -/

/-- R168's table of permissions; R167 steps 1 and 3: a request that finds the slot in flight is answered BUSY, or discarded
and counted while a BUSY reply is pending; one whose role has no permission is answered DENIED; in BREAK nothing is
received (R172). That a request command which was not handed on is arrival and taking in one step is log 3; which of
the BUSY reply and a ready reply goes first is log 17. -/
def Obligations.RequestsTurnedAway : Prop :=
  (∀ (l : Link) (kind : Nat), 1 ≤ kind → kind ≤ 0x30 →
    (permitted l kind = true ↔
      (kind = 0x09 ∨ kind = 0x0B ∨ kind = 0x11 ∨ kind = 0x13 ∨ kind = 0x15 ∨ kind = 0x1F ∨ kind = 0x20) ∨
      (match l with
        | .order => kind ≤ 0x19 ∨ (0x1C ≤ kind ∧ kind ≤ 0x1E)
        | .operator => (0x19 ≤ kind ∧ kind ≤ 0x1B) ∨ kind = 0x1E ∨ (0x21 ≤ kind ∧ kind ≤ 0x2C)
        | .head => 0x2D ≤ kind ∧ kind ≤ 0x2F
        | .cure => kind = 0x30))) ∧
  ∀ (i : Instr) (v : Via) (kind : Nat) (s : State), Instr.asRequest i = some (v, kind) → s.resetLow = false →
    ((s.link v.link).receiver ≠ .inBreak → (s.link v.link).slot = .free → permitted v.link kind = false →
      Refused i v kind s .denied) ∧
    ((s.link v.link).slot ≠ .free → (∀ tag kd, (s.link v.link).slot ≠ .inFlight tag kd (.handed i)) →
      (s.link v.link).receiver ≠ .inBreak →
      ∃ t, exec i s = .next t ∧ s.keeps t [.settings] ∧ (∀ m, m ≠ v.link → (t.link m).alike (s.link m)) ∧
        ((s.link v.link).busy ≠ none → (t.link v.link).alike
          { (s.link v.link) with discards := min 65535 ((s.link v.link).discards + 1) }) ∧
        ((s.link v.link).busy = none → (t.link v.link).alike
          { (s.link v.link) with busy := some ⟨v.tag, kind, (s.link v.link).readyReply.isSome⟩ })) ∧
    ((s.link v.link).receiver = .inBreak → (∀ tag kd, (s.link v.link).slot ≠ .inFlight tag kd (.handed i)) →
      ∃ t, exec i s = .next t ∧ s.keeps t [] ∧ ∀ m, (t.link m).alike (s.link m))

/-- 00_scope.md "Refusals", R169: a request answered with another result than OK has changed nothing, and its
reply holds the result code alone. -/
def Obligations.RefusedRequestsChangeNothing : Prop :=
  ∀ (i : Instr) (v : Via) (kind : Nat) (s t : State) (code : ResultCode) (body : List Field),
    Instr.asRequest i = some (v, kind) → Ready s v kind → RequestInv s →
    Answered i v kind s t code body → code ≠ .ok → body = [] ∧ s.keeps t []

/-- R166's check value, step by step; R165 to R168: a frame that completes is judged by it; a good request frame is handed
on, answered MALFORMED or DENIED at once, or answered BUSY; a bad one is discarded and counted. What a payload must be is
`RequestPayloadsAreRead`. That a request handed on waits in its slot for the command that takes it is log 3; a BUSY reply's
mark `behind`, and the mode SEND of a reply given at once, are log 17. -/
def Obligations.ReceivedFrameIsJudged : Prop :=
  (let shift (r : Half) : Half := if r.getLsbD 15 then (r <<< 1) ^^^ 0x1021 else r <<< 1
   crc16 [] = 0xFFFF ∧
   (∀ (bytes : List Byte) (b : Byte), crc16 (bytes ++ [b]) = shift^[8] (crc16 bytes ^^^ (b.setWidth 16 <<< 8))) ∧
   crc16 [0x31, 0x32, 0x33, 0x34, 0x35, 0x36, 0x37, 0x38, 0x39] = 0x29B1) ∧
  ∀ (l : Link) (buffer bytes : List Byte) (s : State), s.resetLow = false →
    let k := s.link l
    let all := buffer ++ bytes
    let leaves (k' : LinkState) : Prop :=
      ∃ t, exec (.frameReceived l bytes) s = .next t ∧ s.keeps t [.settings] ∧
        (∀ m, m ≠ l → (t.link m).alike (s.link m)) ∧ (t.link l).alike k'
    let discarded : LinkState := { k with receiver := .hunting, discards := min 65535 (k.discards + 1) }
    let replied (tag kind : Nat) (c : ResultCode) : LinkState :=
      { k with receiver := .hunting, slot := .inFlight tag kind (.ready ⟨c, []⟩), silent := false }
    ((∀ b, k.receiver ≠ .receiving b) → leaves k) ∧
    (k.receiver = .receiving buffer → all.length < 4 → leaves { k with receiver := .receiving all }) ∧
    (k.receiver = .receiving buffer → ∀ h, parseHeader all = some h →
      (512 < h.length → leaves discarded) ∧
      (h.length ≤ 512 → all.length < h.length + 6 → leaves { k with receiver := .receiving all })) ∧
    (k.receiver = .receiving buffer → ∀ (kind tag : Nat) (payload extra : List Byte),
      kind < 256 → tag < 256 → payload.length ≤ 512 →
      let front := bigEndian 1 kind ++ bigEndian 1 tag ++ bigEndian 2 payload.length ++ payload
      (∀ check : List Byte, check.length = 2 → check ≠ bigEndian 2 (crc16 front).toNat →
        all = front ++ check ++ extra → leaves discarded) ∧
      (all = front ++ bigEndian 2 (crc16 front).toNat ++ extra →
        (k.slot ≠ .free → k.busy = none →
          leaves { k with receiver := .hunting, busy := some ⟨tag, kind, k.readyReply.isSome⟩ }) ∧
        (k.slot ≠ .free → k.busy ≠ none → leaves discarded) ∧
        (k.slot = .free → (kind = 0 ∨ 0x30 < kind) → leaves (replied tag kind .malformed)) ∧
        (k.slot = .free → 1 ≤ kind → kind ≤ 0x30 →
          (permitted l kind = false → leaves (replied tag kind .denied)) ∧
          (permitted l kind = true →
            (parseRequest ⟨l, tag⟩ kind payload = none → leaves (replied tag kind .malformed)) ∧
            ∀ i, parseRequest ⟨l, tag⟩ kind payload = some i →
              leaves { k with receiver := .hunting, slot := .inFlight tag kind (.handed i), silent := false }))))

/-- R167 step 4, R179: a payload is read as a request exactly where it has that request's bytes, field by field, and every
value fits its field; any other is no request (MALFORMED, in `ReceivedFrameIsJudged`): a length that does not agree with its
kind or with a count it states, a flag above 1, a segment above 11, a place kind above 5, a PRINT_END result above 1. The
widths that R179 does not name, and the bytes not looked at, are log 13; the coded values that their owning rule judges are
log 15. -/
def Obligations.RequestPayloadsAreRead : Prop :=
  (∀ (i : Instr) (v : Via) (kind : Nat), Instr.asRequest i = some (v, kind) → 1 ≤ kind ∧ kind ≤ 0x30) ∧
  ∀ (v : Via) (kind : Nat) (payload : List Byte) (i : Instr), v.tag < 256 →
    (parseRequest v kind payload = some i ↔
      Instr.asRequest i = some (v, kind) ∧ i.wf = true ∧ List.Forall₂ Laid.holds (Instr.laid i) payload)

/-- R167, R172: a request handed on has, when its block takes it, the effect it has on a link that was free; when
its link was reset meanwhile, and whether it still is in BREAK or not, it has the same effect and no reply; in BREAK the
link itself is passed by the notices. That being handed on and being taken are two commands is log 3. -/
def Obligations.HandedRequestHasItsEffect : Prop :=
  ∀ (i : Instr) (v : Via) (kind : Nat) (s : State), Instr.asRequest i = some (v, kind) → s.resetLow = false →
    (s.link v.link).slot = .inFlight v.tag kind (.handed i) → permitted v.link kind = true →
    let k := s.link v.link
    let ends (t u : State) : Prop :=
      (∀ tag kd, (u.link v.link).slot = .inFlight tag kd .working → (t.link v.link).slot = .inFlight tag kd .working) ∧
      ∀ tag kd a, (u.link v.link).slot = .inFlight tag kd (.ready a) → (t.link v.link).slot = .free
    (k.receiver ≠ .inBreak →
      ∃ t u, exec i s = .next t ∧ exec i (s.putLink v.link { k with slot := .free, silent := false }) = .next u ∧
        u.keeps t [] ∧ (k.silent = false → t = u) ∧ (k.silent = true → ends t u)) ∧
    (k.receiver = .inBreak → k.silent = true →
      ∃ t u, exec i s = .next t ∧
        exec i (s.putLink v.link { k with slot := .free, silent := false, receiver := .hunting }) = .next u ∧
        u.keeps t [.notices, .settings] ∧ (∀ m, m ≠ v.link → (t.link m).alike (u.link m)) ∧ ends t u ∧
        let j := t.link v.link
        j.receiver = .inBreak ∧ j.mask = (u.link v.link).mask ∧ j.discards = k.discards ∧ j.busy = k.busy ∧
        j.number = k.number ∧ j.queue = (if kind = 0x1C then [] else k.queue))

/-- R165, R169, R172, R175: what a start symbol, an abandoned frame and the end of a sent frame do to their link. After
every command but a reset and the link's own break, a frame being sent goes on, and a transmitter that is free, or whose
frame has ended, starts the reply or BUSY reply that waits, else the oldest notice with the lost flag, and in BREAK
nothing; a lost mark stands till a notice takes it along. R167, R172: the reply mode of a request in flight stands, and
that of one newly in flight is SEND. The order of a BUSY reply and a ready reply, through the mark `behind`, is log 17; a
notice whose queue a line reset emptied while it was being sent goes on as `flushed` (log 26). -/
def Obligations.SymbolsAndSentFrames : Prop :=
  (∀ (i : Instr) (l : Link) (s t : State), exec i s = .next t → LinkInv (s.link l) → (t.link l).receiver = .inBreak →
    (t.link l).tx = .idle) ∧
  (∀ (i : Instr) (l : Link) (s t : State), exec i s = .next t → s.resetLow = false →
    i ≠ .powerOnReset → i ≠ .resetAsserted → i ≠ .linkReset l →
    let k := s.link l
    let j := t.link l
    let resets := ∃ v, i = .lineReset v ∧
      (Ready s v 0x1C ∨ ∃ tag kind, (s.link v.link).slot = .inFlight tag kind (.handed i))
    ((k.slot ≠ .free ∨ j.slot = .free → j.silent = k.silent) ∧
      (k.slot = .free → j.slot ≠ .free → j.silent = false)) ∧
    ∃ lost : Bool,
      (resets → lost = false) ∧ (¬resets → k.lost = true → lost = true) ∧
      (lost = true → k.lost = true ∨ (i ≠ .frameSent l ∧ 16 ≤ j.queue.length)) ∧
      (∀ source f, k.tx = .sending source f → i ≠ .frameSent l →
        j.lost = lost ∧
        (source = .notice → resets → j.tx = .sending .flushed f) ∧
        (source ≠ .notice ∨ ¬resets → j.tx = .sending source f)) ∧
      (k.tx = .idle ∨ i = .frameSent l →
        (j.receiver = .inBreak → j.tx = .idle ∧ j.lost = lost) ∧
        (j.receiver ≠ .inBreak →
          (∀ tag kind a, j.slot = .inFlight tag kind (.ready a) → (∀ b, j.busy = some b → b.behind = true) →
            j.tx = .sending .reply (replyFrame tag kind a) ∧ j.lost = lost) ∧
          (∀ b, j.busy = some b → (b.behind = false ∨ ∀ tag kind a, j.slot ≠ .inFlight tag kind (.ready a)) →
            j.tx = .sending .busy (replyFrame b.tag b.kind ⟨.busy, []⟩) ∧ j.lost = lost) ∧
          (j.busy = none → (∀ tag kind a, j.slot ≠ .inFlight tag kind (.ready a)) →
            (∀ n rest, j.queue = n :: rest → j.tx = .sending .notice (noticeFrame n lost) ∧ j.lost = false) ∧
            (j.queue = [] → j.tx = .idle ∧ j.lost = lost))))) ∧
  ∀ (l : Link) (s : State), s.resetLow = false →
    let k := s.link l
    let leaves (i : Instr) (changed : List Part) (k' : LinkState) : Prop :=
      ∃ t, exec i s = .next t ∧ s.keeps t changed ∧ (∀ m, m ≠ l → (t.link m).alike (s.link m)) ∧ (t.link l).alike k'
    let counted (r : Receiver) : LinkState := { k with receiver := r, discards := min 65535 (k.discards + 1) }
    (k.receiver = .hunting → leaves (.startSymbol l) [.settings] { k with receiver := .receiving [] }) ∧
    (k.receiver = .inBreak → leaves (.startSymbol l) [] k) ∧
    (∀ b, k.receiver = .receiving b →
      leaves (.startSymbol l) [.settings] (counted (.receiving [])) ∧
      leaves (.frameAbandoned l .startSymbol) [.settings] (counted (.receiving [])) ∧
      leaves (.frameAbandoned l .badSymbol) [.settings] (counted .hunting) ∧
      leaves (.frameAbandoned l .oversize) [.settings] (counted .hunting)) ∧
    (∀ cause, (∀ b, k.receiver ≠ .receiving b) → leaves (.frameAbandoned l cause) [] k) ∧
    (k.tx = .idle → leaves (.frameSent l) [] k) ∧
    (∀ f, k.tx = .sending .reply f → leaves (.frameSent l) [] { k with slot := .free }) ∧
    (∀ f, k.tx = .sending .busy f → leaves (.frameSent l) [.settings] { k with busy := none }) ∧
    (∀ f, k.tx = .sending .notice f → leaves (.frameSent l) [.notices] { k with queue := k.queue.tail }) ∧
    ∀ f, k.tx = .sending .flushed f → leaves (.frameSent l) [] k

/-- R169, R174, R175, R179: the bytes of the frames the part sends: header, payload and check value; a reply's payload is its
result code and contents, a notice's the flags byte with the lost flag, the time base when it was raised, and its contents;
and the bytes of a field of each width. Widths and optional fields of contents that R179 does not name are log 14. -/
def Obligations.SentFramesHaveTheirBytes : Prop :=
  let one (n : Nat) : List Byte := [BitVec.ofNat 8 n]
  let two (n : Nat) : List Byte := one (n / 256) ++ one n
  let four (n : Nat) : List Byte := two (n / 65536) ++ two n
  let encoded (x : Field) : List Byte :=
    match x with
    | .u8 n => one n
    | .u16 n => two n
    | .u24 n => one (n / 65536) ++ two n
    | .u32 n => four n
    | .s16 z => two (z % 65536).toNat
    | .bytes l => l
  let framed (kind tag : Nat) (payload : List Byte) : List Byte :=
    let front := one kind ++ one tag ++ two payload.length ++ payload
    front ++ two (crc16 front).toNat
  let codes : List ResultCode := [.ok, .busy, .denied, .malformed, .unknown, .state, .full, .inUse, .overlap, .range, .notReady,
    .stale, .incomplete, .badMask, .duplicate, .wrongPlaten, .stopped]
  (∀ fields : List Field, encodeFields fields = fields.flatMap encoded) ∧
  (∀ (tag kind : Nat) (a : Answer), kind < 256 → replyFrame tag kind a =
    framed (if kind < 0x80 then kind + 0x80 else kind) tag (one (codes.idxOf a.code) ++ a.body.flatMap encoded)) ∧
  ∀ (n : QueuedNotice) (lost : Bool),
    n.notice.index = (Reported.notice n.notice).1 ∧
    noticeFrame n lost = framed (0x50 + (Reported.notice n.notice).1) n.number.toNat
      (one (if lost then 1 else 0) ++ four n.time.toNat ++ (Reported.notice n.notice).2.flatMap encoded)

/-- R172: a break resets one link and no other state; the request in flight goes on, its reply silent; the end of the break
leaves the receiver HUNTING. R173, R174, R176: NOTICE_MASK_SET replaces the sending link's own mask, POWER_FLAG_CLEAR clears
the flag, and a raised notice is offered to each link: passed by in BREAK or where the mask does not admit it; otherwise it takes the
link's number and is queued, or lost where 16 are. Nothing else changes. -/
def Obligations.BreaksMasksAndNotices : Prop :=
  (∀ (l : Link) (s : State), s.resetLow = false →
    let k := s.link l
    (∃ t, exec (.linkReset l) s = .next t ∧ s.keeps t [.notices, .settings] ∧
      (∀ m, m ≠ l → (t.link m).alike (s.link m)) ∧
      (t.link l).receiver = .inBreak ∧ (t.link l).queue = [] ∧ (t.link l).number = 0 ∧ (t.link l).discards = 0 ∧
      (t.link l).busy = none ∧ (t.link l).tx = .idle ∧ (t.link l).lost = false ∧
      (t.link l).mask = (match l with | .order => 0x7FFF | .operator => 0xFFFF | .head => 0x2060 | .cure => 0x2200) ∧
      (k.readyReply.isSome = true → (t.link l).slot = .free) ∧
      (k.readyReply = none → (t.link l).slot = k.slot) ∧
      (k.slot ≠ .free → (t.link l).silent = true)) ∧
    (k.receiver = .inBreak → ∃ t, exec (.breakEnd l) s = .next t ∧ s.keeps t [.settings] ∧
      (∀ m, m ≠ l → (t.link m).alike (s.link m)) ∧ (t.link l).alike { k with receiver := .hunting }) ∧
    (k.receiver ≠ .inBreak → ∃ t, exec (.breakEnd l) s = .next t ∧ s.keeps t [] ∧ ∀ m, (t.link m).alike (s.link m))) ∧
  (∀ (v : Via) (mask : Half) (s : State), Ready s v 0x1F →
    Done (.noticeMaskSet v mask) v 0x1F s [.u16 mask.toNat] (s.putLink v.link { (s.link v.link) with mask := mask })) ∧
  (∀ (v : Via) (s : State), Ready s v 0x1D →
    Done (.powerFlagClear v) v 0x1D s [] { s with powerFlag := false }) ∧
  ∀ (s : State) (n : Notice), s.keeps (s.raise n) [.notices] ∧ ∀ l,
    let k := s.link l
    let j := (s.raise n).link l
    (k.receiver = .inBreak → j = k) ∧
    (k.mask.getLsbD n.index = false → j = k) ∧
    (k.receiver ≠ .inBreak → k.mask.getLsbD n.index = true →
      (k.queue.length < 16 →
        j = { k with queue := k.queue ++ [⟨k.number, s.clock.time, n⟩], number := k.number + 1 }) ∧
      (16 ≤ k.queue.length → j = { k with lost := true, number := k.number + 1 }))

/-- R177, R178 and chapter 11.4's table: INDICATOR_SET, BLINK_TIMER_EXPIRY, and what every other command leaves of an
output. An output is judged against the conditions at the end of the step; that a step which ends one condition of its set
and begins another leaves a blinking output its rhythm is log 29. -/
def Obligations.IndicatorsFollowConditions : Prop :=
  (∀ (s : State) (o : Fin 6), (s.indicators[o].active s.conditions = true ↔ OutputActive s o) ∧
    (s.pins.ind[o] = true ↔
      s.resetLow = false ∧ (s.indicators[o].lamp = .steady ∨ ∃ n, s.indicators[o].lamp = .blinkOn n))) ∧
  (∀ (i : Instr) (o : Fin 6) (s t : State), exec i s = .next t → s.resetLow = false →
    i ≠ .powerOnReset → i ≠ .resetAsserted → i ≠ .blinkTimerExpiry o →
    let taken (v : Via) : Prop := Ready s v 0x1E ∨ ∃ tag kind, (s.link v.link).slot = .inFlight tag kind (.handed i)
    let x := t.indicators[o]
    (∀ v conditions mode onTime offTime, i = .indicatorSet v o.val conditions mode onTime offTime → taken v → mode ≤ 1 →
      (mode = 1 → onTime ≠ 0 ∧ offTime ≠ 0) →
      x.conditions = conditions ∧ x.blink = decide (mode = 1) ∧ x.onTime = onTime ∧ x.offTime = offTime ∧
      (¬OutputActive t o → x.lamp = .off) ∧
      (OutputActive t o → x.lamp = if mode = 0 then .steady else .blinkOn (10 * onTime))) ∧
    ((∀ v conditions mode onTime offTime, i = .indicatorSet v o.val conditions mode onTime offTime →
        ¬taken v ∨ 1 < mode ∨ (mode = 1 ∧ (onTime = 0 ∨ offTime = 0))) →
      x.conditions = s.indicators[o].conditions ∧ x.blink = s.indicators[o].blink ∧
      x.onTime = s.indicators[o].onTime ∧ x.offTime = s.indicators[o].offTime ∧
      (¬OutputActive t o → x.lamp = .off) ∧
      (OutputActive t o → x.blink = false → x.lamp = .steady) ∧
      (OutputActive t o → x.blink = true → x.lamp =
        (match s.indicators[o].lamp with
          | .blinkOn n => .blinkOn n
          | .blinkOff n => .blinkOff n
          | _ => .blinkOn (10 * x.onTime))))) ∧
  (∀ (v : Via) (output : Nat) (conditions : Byte) (mode onTime offTime : Nat) (s : State), Ready s v 0x1E →
    let i := Instr.indicatorSet v output conditions mode onTime offTime
    (6 ≤ output → Refused i v 0x1E s .range) ∧
    ∀ o : Fin 6, output = o.val →
      (1 < mode → Refused i v 0x1E s .malformed) ∧
      (mode = 1 → (onTime = 0 ∨ offTime = 0) → Refused i v 0x1E s .range) ∧
      (mode ≤ 1 → (mode = 1 → onTime ≠ 0 ∧ offTime ≠ 0) →
        ∃ t, Answered i v 0x1E s t .ok [] ∧ s.keeps t [.outputs] ∧
          (let x := t.indicators[o]
           x.conditions = conditions ∧ x.blink = decide (mode = 1) ∧ x.onTime = onTime ∧ x.offTime = offTime ∧
           x.lamp = (if x.active s.conditions = false then .off else if mode = 0 then .steady
             else .blinkOn (10 * onTime))) ∧
          ∀ q : Fin 6, q ≠ o → t.indicators[q].conditions = s.indicators[q].conditions ∧
            t.indicators[q].blink = s.indicators[q].blink ∧ t.indicators[q].onTime = s.indicators[q].onTime ∧
            t.indicators[q].offTime = s.indicators[q].offTime)) ∧
  ∀ (o : Fin 6) (s : State), s.resetLow = false →
    ∃ t, Happened (.blinkTimerExpiry o) s t ∧ s.keeps t [] ∧
      let x := s.indicators[o]
      t.indicators[o].lamp =
        (if x.active s.conditions = false then .off
         else if x.blink = false then .steady
         else
          match x.lamp with
          | .blinkOn n => if n = 0 then .blinkOff (10 * x.offTime) else .blinkOn n
          | .blinkOff n => if n = 0 then .blinkOn (10 * x.onTime) else .blinkOff n
          | _ => .blinkOn (10 * x.onTime))

/-! ### The order book -/

/-- R26, R27: the catalogue is a map from blank code to class; an accepted write raises the rematch signal, which is taken at
the end of its step (log 11). -/
def Obligations.CatalogueIsMap : Prop :=
  (∀ (b : Book) (blank : BlankCode),
    b.classOf blank = ((b.catalogue.filter fun e => e.blank = blank).head?).map CatalogueEntry.cls) ∧
  (∀ (v : Via) (blank : BlankCode) (cls : Nat) (s : State), Ready s v 0x07 →
    let i := Instr.catalogueSet v blank cls
    (blank = ⟨0, 0, 0⟩ → Refused i v 0x07 s .malformed) ∧
    (blank ≠ ⟨0, 0, 0⟩ →
      (16 ≤ cls → Refused i v 0x07 s .range) ∧
      ∀ c : Fin 16, cls = c.val →
        (s.book.classOf blank = none → 256 ≤ s.book.catalogue.length → Refused i v 0x07 s .full) ∧
        (s.book.classOf blank ≠ none ∨ s.book.catalogue.length < 256 →
          ∃ l : List CatalogueEntry,
            let b := { s.book with catalogue := l }
            b.classOf blank = some c ∧ (∀ x, x ≠ blank → b.classOf x = s.book.classOf x) ∧
            l.length = (if s.book.classOf blank = none then s.book.catalogue.length + 1 else s.book.catalogue.length) ∧
            Done i v 0x07 s [] ({ s with book := b }.rematch .catalogueWrite)))) ∧
  (∀ (v : Via) (blank : BlankCode) (s : State), Ready s v 0x08 →
    (s.book.classOf blank = none → Refused (.catalogueRemove v blank) v 0x08 s .unknown) ∧
    (s.book.classOf blank ≠ none →
      ∃ l : List CatalogueEntry,
        let b := { s.book with catalogue := l }
        b.classOf blank = none ∧ (∀ x, x ≠ blank → b.classOf x = s.book.classOf x) ∧
        (CatalogueInv s.book → l.length + 1 = s.book.catalogue.length) ∧
        Done (.catalogueRemove v blank) v 0x08 s [] ({ s with book := b }.rematch .catalogueWrite))) ∧
  ∀ (v : Via) (blank : BlankCode) (s : State), Ready s v 0x09 →
    (s.book.classOf blank = none → Refused (.catalogueGet v blank) v 0x09 s .unknown) ∧
    ∀ c, s.book.classOf blank = some c → Done (.catalogueGet v blank) v 0x09 s [.u8 c.val] s

/-- R29: CLASS_SET stores the recipe with each field held in its range, the duty against the period just stored,
and replies with it as stored; CLASS_GET replies with the stored recipe. -/
def Obligations.ClassSetClampsRecipe : Prop :=
  (∀ (v : Via) (cls : Nat) (r : Recipe) (s : State), Ready s v 0x0A →
    (16 ≤ cls → Refused (.classSet v cls r) v 0x0A s .range) ∧
    ∀ c : Fin 16, cls = c.val →
      let period := if r.period = 0 then 1 else r.period
      let x : Recipe :=
        { dark := r.dark, pretreat := r.pretreat, dose := r.dose, covMin := r.covMin
          period := period
          duty := if period - 1 < r.duty then period - 1 else r.duty
          tolerance := r.tolerance
          dwell := if r.dwell = 0 then 1 else if 600 < r.dwell then 600 else r.dwell
          inkLimit := if r.inkLimit < 255 then 255 else if 1020 < r.inkLimit then 1020 else r.inkLimit
          underbase := r.underbase, knockout := r.knockout
          choke := if 3 < r.choke then 3 else r.choke
          cureBase := r.cureBase, whiteStep := r.whiteStep
          scorchLimit := if r.scorchLimit < -80 then -80 else if 800 < r.scorchLimit then 800 else r.scorchLimit
          scorchAllowance := if 60000 < r.scorchAllowance then 60000 else r.scorchAllowance }
      Done (.classSet v cls r) v 0x0A s (Reported.recipe x)
        { s with book := { s.book with recipes := upd s.book.recipes c x } }) ∧
  ∀ (v : Via) (cls : Nat) (s : State), Ready s v 0x0B →
    (16 ≤ cls → Refused (.classGet v cls) v 0x0B s .range) ∧
    ∀ c : Fin 16, cls = c.val → Done (.classGet v cls) v 0x0B s (Reported.recipe s.book.recipes[c]) s

/-- R35, R36, R43: ORDER_POST's checks in order; an accepted post takes the lowest free line records, joins the
book with the next sequence, and raises the rematch signal, taken at the end of the step (log 11). -/
def Obligations.OrderPostFillsBook : Prop :=
  (∀ (b : Book) (number : Word), b.find number = (b.orders.filter fun o => o.number = number).head?) ∧
  (∀ (b : Book) (number : Word) (k : Fin 512), b.position number k =
    match b.find number with
    | none => 0
    | some o => o.lines.idxOf k) ∧
  ∀ (v : Via) (number : Word) (priority : Nat) (lines : List PostLine) (s : State), Ready s v 0x01 →
    let i := Instr.orderPost v number priority lines
    let wrong := lines = [] ∨ 8 < lines.length ∨ 3 < priority ∨
      ∃ l ∈ lines, l.blank = ⟨0, 0, 0⟩ ∨ l.quantity = 0 ∨ 999 < l.quantity ∨ l.width = 0 ∨ l.height = 0
    let usable (h : Fin 64) : Prop := ∃ d, s.art h = some d ∧ d.status ≠ .bad
    let nameable (l : PostLine) : Prop :=
      (∃ h : Fin 64, l.art = h.val ∧ usable h) ∧ ∀ o, l.overlay = some o → o.index < 16
    let free := (List.finRange 512).filter fun k => s.book.lines[k].isNone
    (wrong → Refused i v 0x01 s .malformed) ∧
    (¬wrong → s.book.find number ≠ none → Refused i v 0x01 s .duplicate) ∧
    (¬wrong → s.book.find number = none → (∃ l ∈ lines, ¬nameable l) → Refused i v 0x01 s .unknown) ∧
    (¬wrong → s.book.find number = none → (∀ l ∈ lines, nameable l) →
      (128 ≤ s.book.orders.length ∨ free.length < lines.length → Refused i v 0x01 s .full) ∧
      (s.book.orders.length < 128 → lines.length ≤ free.length →
        let taken := free.take lines.length
        ∃ u : State, Done i v 0x01 s (.word s.book.sequence :: listed (taken.map fun k => [.u16 k.val])) (u.rematch .other) ∧
          s.keeps u [.book, .notices] ∧ s.notified u [.orderState number (some .opened) s.book.sequence] ∧
          u.book.catalogue = s.book.catalogue ∧ u.book.recipes = s.book.recipes ∧
          u.book.sequence = s.book.sequence + 1 ∧
          u.book.orders = s.book.orders ++ [⟨number, priority, s.book.sequence, .opened, taken⟩] ∧
          (∀ k, k ∉ taken → u.book.lines[k] = s.book.lines[k]) ∧
          ∀ (n : Nat) (k : Fin 512) (l : PostLine), taken[n]? = some k → lines[n]? = some l →
            ∃ x, u.book.lines[k] = some x ∧ x.order = number ∧ x.blank = l.blank ∧ x.quantity = l.quantity ∧
              x.done = 0 ∧ x.reserved = 0 ∧ x.spoiled = 0 ∧ x.status = .opened ∧
              x.placement.art.val = l.art ∧ x.placement.col0 = min l.col0 8191 ∧ x.placement.row0 = min l.row0 8191 ∧
              x.placement.width = min l.width 8192 ∧ x.placement.height = min l.height 8192 ∧
              x.placement.ox = min l.ox 3199 ∧ x.placement.oy = min l.oy 3999 ∧
              (l.overlay = none → x.placement.overlay = none) ∧
              ∀ o, l.overlay = some o → ∃ a, x.placement.overlay = some a ∧ a.index.val = o.index ∧
                a.vx = max (-63) (min o.vx 3199) ∧ a.vy = max (-63) (min o.vy 3999)))

/-- R33, R34, R37, R45: LINE_AMEND's checks in order; an accepted amend replaces the quantity alone and derives the
line's state and then the order's again, with LINE_PROGRESS before ORDER_STATE (log 12); one upward raises the rematch
signal, taken at the end of the step (log 11). -/
def Obligations.LineAmendSetsQuantity : Prop :=
  ∀ (v : Via) (number : Word) (position quantity : Nat) (s : State), Ready s v 0x02 →
    let i := Instr.lineAmend v number position quantity
    (s.book.find number = none → Refused i v 0x02 s .unknown) ∧
    ∀ o, s.book.find number = some o →
      (o.lines.length ≤ position → Refused i v 0x02 s .unknown) ∧
      ∀ (k : Fin 512) (l : Line), o.lines[position]? = some k → s.book.lines[k] = some l →
        (quantity = 0 ∨ 999 < quantity → Refused i v 0x02 s .malformed) ∧
        (1 ≤ quantity → quantity ≤ 999 →
          (o.status = .complete ∨ o.status = .cancelling ∨ o.status = .cancelled → Refused i v 0x02 s .state) ∧
          (o.status = .opened ∨ o.status = .held →
            (quantity < l.done + l.reserved → Refused i v 0x02 s .state) ∧
            (l.done + l.reserved ≤ quantity →
              (quantity = l.quantity → Done i v 0x02 s [] s) ∧
              (quantity ≠ l.quantity → l.order = number →
                let status : LineStatus :=
                  if l.done = quantity then .done else if l.done + l.reserved = quantity then .full else .opened
                let lines := upd s.book.lines k (some { l with quantity := quantity, status := status })
                let order : OrderStatus :=
                  if o.lines.all (fun j => (lines[j]).map Line.status == some .done) then .complete else o.status
                ∃ u : State, Done i v 0x02 s [] (if l.quantity < quantity then u.rematch .other else u) ∧
                  s.keeps u [.book, .notices] ∧ u.book.lines = lines ∧ u.book.catalogue = s.book.catalogue ∧
                  u.book.recipes = s.book.recipes ∧ u.book.sequence = s.book.sequence ∧
                  (order = o.status → u.book.orders = s.book.orders) ∧
                  (order ≠ o.status → u.book.orders =
                    s.book.orders.map (fun y => if y.number = o.number then { o with status := order } else y)) ∧
                  s.notified u (.lineProgress k number (o.lines.idxOf k) quantity l.done l.reserved l.spoiled status ::
                    (if order = o.status then [] else [.orderState o.number (some order) o.sequence]))))))

/-- R38: ORDER_HOLD and ORDER_RELEASE move an order between OPEN and HELD; a release raises the rematch signal, taken at the
end of the step (log 11). R40: ORDER_RETIRE removes a COMPLETE or CANCELLED order and frees its lines. -/
def Obligations.OrderHoldReleaseAndRetire : Prop :=
  ∀ (v : Via) (number : Word) (s : State),
    let become (o : Order) (x : OrderStatus) : State :=
      { s with book := { s.book with
          orders := s.book.orders.map fun (y : Order) => if y.number = o.number then { o with status := x } else y } }.raise
        (.orderState o.number (some x) o.sequence)
    (Ready s v 0x03 →
      (s.book.find number = none → Refused (.orderHold v number) v 0x03 s .unknown) ∧
      ∀ o, s.book.find number = some o →
        (o.status = .opened → Done (.orderHold v number) v 0x03 s [] (become o .held)) ∧
        (o.status = .held → Done (.orderHold v number) v 0x03 s [] s) ∧
        (o.status ≠ .opened → o.status ≠ .held → Refused (.orderHold v number) v 0x03 s .state)) ∧
    (Ready s v 0x04 →
      (s.book.find number = none → Refused (.orderRelease v number) v 0x04 s .unknown) ∧
      ∀ o, s.book.find number = some o →
        (o.status = .held → Done (.orderRelease v number) v 0x04 s [] ((become o .opened).rematch .other)) ∧
        (o.status = .opened → Done (.orderRelease v number) v 0x04 s [] s) ∧
        (o.status ≠ .opened → o.status ≠ .held → Refused (.orderRelease v number) v 0x04 s .state)) ∧
    (Ready s v 0x06 →
      let i := Instr.orderRetire v number
      (s.book.find number = none → Refused i v 0x06 s .unknown) ∧
      ∀ o, s.book.find number = some o →
        (o.status ≠ .complete → o.status ≠ .cancelled → Refused i v 0x06 s .state) ∧
        (o.status = .complete ∨ o.status = .cancelled →
          ∃ t, Answered i v 0x06 s t .ok [] ∧ s.keeps t [.book, .notices] ∧
            t.book.orders = s.book.orders.filter (fun x => x.number != number) ∧
            t.book.catalogue = s.book.catalogue ∧ t.book.recipes = s.book.recipes ∧ t.book.sequence = s.book.sequence ∧
            (∀ k, k ∈ o.lines → t.book.lines[k] = none) ∧ (∀ k, k ∉ o.lines → t.book.lines[k] = s.book.lines[k]) ∧
            s.notified t [.orderState o.number none o.sequence]))

/-- R39, R57: ORDER_CANCEL withdraws an OPEN or HELD order: each line becomes DONE, CLOSED or WITHDRAWN, the order
CANCELLING or CANCELLED, and every garment bound to it is marked an orphan in the same step. That a line was DONE when the
cancel was taken is read off its stored state (log 27). -/
def Obligations.OrderCancelWithdrawsLines : Prop :=
  ∀ (v : Via) (number : Word) (s : State), Ready s v 0x05 →
    let i := Instr.orderCancel v number
    let after (l : Line) : LineStatus :=
      if l.status = .done then .done else if l.reserved = 0 then .closed else .withdrawn
    (s.book.find number = none → Refused i v 0x05 s .unknown) ∧
    ∀ o, s.book.find number = some o →
      (o.status = .complete → Refused i v 0x05 s .state) ∧
      (o.status = .cancelling ∨ o.status = .cancelled → Done i v 0x05 s [] s) ∧
      (o.status = .opened ∨ o.status = .held →
        ∃ (t : State) (x : OrderStatus), Answered i v 0x05 s t .ok [] ∧ s.keeps t [.book, .units, .notices] ∧
          (x = .cancelling ↔ ∃ k ∈ o.lines, (t.book.lines[k]).map Line.status = some .withdrawn) ∧ (x = .cancelling ∨ x = .cancelled) ∧
          t.book.orders = s.book.orders.map (fun y => if y.number = o.number then { o with status := x } else y) ∧
          t.book.catalogue = s.book.catalogue ∧ t.book.recipes = s.book.recipes ∧ t.book.sequence = s.book.sequence ∧
          (∀ k, k ∉ o.lines → t.book.lines[k] = s.book.lines[k]) ∧
          (∀ k ∈ o.lines, t.book.lines[k] = (s.book.lines[k]).map fun l => { l with status := after l }) ∧
          t.units.serial = s.units.serial ∧
          (∀ p : Fin 16, t.garment p = (s.garment p).map fun g =>
            { g with orphan := g.orphan || (g.binding.map Binding.order == some o.number) }) ∧
          s.notified t (.orderState o.number (some x) o.sequence ::
            o.lines.flatMap fun k =>
              match t.book.lines[k] with
              | none => []
              | some l => if (s.book.lines[k]).map Line.status = some l.status then [] else
                  [.lineProgress k l.order (t.book.position l.order k) l.quantity l.done l.reserved l.spoiled l.status]))

/-- R33, R34, R42, R45: a counter request changes its line's counters, derives the line's state and then the
order's again, with LINE_PROGRESS before ORDER_STATE; it raises the rematch signal where RELEASE or SPOIL turned a
FULL line to OPEN (R43). Under a cancelled order, that a line was DONE when the cancel was taken is read off its stored state
(log 27). -/
def Obligations.CounterRequestsDeriveStates : Prop :=
  ∀ (s : State) (c : Counter) (k : Fin 512) (l : Line) (o : Order),
    s.book.lines[k] = some l → s.book.find l.order = some o →
    let done := match c with | .done => l.done + 1 | _ => l.done
    let spoiled := match c with | .spoil => min 65535 (l.spoiled + 1) | _ => l.spoiled
    let reserved := l.reserved - 1
    let status : LineStatus :=
      if o.status = .cancelling ∨ o.status = .cancelled then
        if l.status = .done then .done else if reserved = 0 then .closed else .withdrawn
      else if done = l.quantity then .done
      else if done + reserved = l.quantity then .full
      else .opened
    let x : Line := { l with done := done, reserved := reserved, spoiled := spoiled, status := status }
    let book : Book := { s.book with lines := upd s.book.lines k (some x) }
    let order : OrderStatus :=
      match o.status with
      | .opened => if o.lines.all (fun j => (book.lines[j]).map Line.status == some .done) then .complete else .opened
      | .held => if o.lines.all (fun j => (book.lines[j]).map Line.status == some .done) then .complete else .held
      | .cancelling => if o.lines.any (fun j => (book.lines[j]).map Line.status == some .withdrawn) then .cancelling else .cancelled
      | .complete => .complete
      | .cancelled => .cancelled
    let t := (s.count c k).1
    s.keeps t [.book, .notices] ∧
    t.book.lines = book.lines ∧ t.book.catalogue = s.book.catalogue ∧ t.book.recipes = s.book.recipes ∧
    t.book.sequence = s.book.sequence ∧
    (order = o.status → t.book.orders = s.book.orders) ∧
    (order ≠ o.status → t.book.orders =
      s.book.orders.map (fun y => if y.number = o.number then { o with status := order } else y)) ∧
    s.notified t (.lineProgress k l.order (o.lines.idxOf k) l.quantity done reserved spoiled status ::
      (if order = o.status then [] else [.orderState o.number (some order) o.sequence])) ∧
    ((s.count c k).2 = true ↔ c ≠ .done ∧ l.status = .full ∧ status = .opened)

/-! ### Garments -/

/-- R48 to R54: GARMENT_LOAD's checks in order; an accepted load takes the first serial from the counter on that is not 0
and that no record or context holds, looks the blank up, and binds or holds the garment. That the reply carries binding and
hold reason as two optional fields is log 14, that the line position is one byte is log 13. -/
def Obligations.GarmentLoadLooksUp : Prop :=
  ∀ (v : Via) (platen : Nat) (blank : BlankCode) (s : State), Ready s v 0x21 →
    let i := Instr.garmentLoad v platen blank
    (16 ≤ platen → Refused i v 0x21 s .range) ∧
    ∀ p : Fin 16, platen = p.val →
      (blank = ⟨0, 0, 0⟩ → Refused i v 0x21 s .malformed) ∧
      (blank ≠ ⟨0, 0, 0⟩ →
        (s.track.line = .census → Refused i v 0x21 s .state) ∧
        (s.track.line ≠ .census →
          (s.place p ≠ .station 0 → Refused i v 0x21 s .wrongPlaten) ∧
          (s.place p = .station 0 → s.garment p ≠ none → Refused i v 0x21 s .state) ∧
          (s.place p = .station 0 → s.garment p = none →
            ∃ serial : Word, s.firstSerial serial ∧
              let g : Garment :=
                { serial := serial, blank := blank, cls := none, binding := none, stage := .loaded, hold := none
                  disposition := .good, orphan := false, restored := false
                  pretreat := ⟨.none, Vector.replicate 63 (Vector.replicate 8 0), 0, 0, 0, .pending⟩
                  press := .pending, print := ⟨.none, 0, 0, 0, 0, 0, ⟨0, 0, 0, 0, 0⟩⟩
                  cure := ⟨0, 0, 0, none, 0, false, .none⟩ }
              let with_ (g : Garment) : State :=
                { s with units := ⟨upd s.units.garments p (some g), serial + 1⟩ }
              let held (g : Garment) (r : HoldReason) : State :=
                (with_ { g with hold := some r }).raise (.garmentHeld p serial blank g.cls r)
              (s.book.classOf blank = none →
                Done i v 0x21 s ([.word serial, .u8 0] ++ optional 7 none ++ optional 1 (some [.u8 0]))
                  (held g .unknownBlank)) ∧
              ∀ c, s.book.classOf blank = some c →
                let g := { g with cls := some c }
                (s.candidates blank = [] →
                  Done i v 0x21 s ([.word serial, .u8 0] ++ optional 7 none ++ optional 1 (some [.u8 1]))
                    (held g .noLine)) ∧
                ∀ x w, chooseCandidate (s.candidates blank) = some x → (with_ g).reserveAndBind p g c x = some w →
                  Done i v 0x21 s
                    ([.word serial, .u8 1] ++
                      optional 7 (some [.word x.order.number, .u8 (w.book.position x.order.number x.line), .u16 x.line.val]) ++
                      optional 1 none) w)))

/-- R56: GARMENT_ASSIGN binds the waiting garment to the named line where that line is a candidate for it. That R56's order
of checks holds after a line reset too, against the result code of R171's example, is log 30. -/
def Obligations.GarmentAssignBindsNamedLine : Prop :=
  ∀ (v : Via) (platen : Nat) (number : Word) (position : Nat) (s : State), Ready s v 0x22 →
    let i := Instr.garmentAssign v platen number position
    (16 ≤ platen → Refused i v 0x22 s .range) ∧
    ∀ p : Fin 16, platen = p.val →
      (s.place p ≠ .station 0 → Refused i v 0x22 s .wrongPlaten) ∧
      (s.place p = .station 0 →
        (s.garment p = none → Refused i v 0x22 s .state) ∧
        ∀ g, s.garment p = some g →
          (g.stage ≠ .loaded ∨ g.hold = some .unknownBlank → Refused i v 0x22 s .state) ∧
          ∀ c, g.stage = .loaded → g.hold ≠ some .unknownBlank → g.cls = some c →
            (s.book.find number = none → Refused i v 0x22 s .unknown) ∧
            ∀ o, s.book.find number = some o →
              (o.lines.length ≤ position → Refused i v 0x22 s .unknown) ∧
              ∀ (k : Fin 512) (l : Line), o.lines[position]? = some k → s.book.lines[k] = some l → l.order = number →
                let fit := l.status = .opened ∧ o.status = .opened ∧ l.blank = g.blank ∧
                  (s.art l.placement.art).map Art.status = some .ready
                (¬fit → Refused i v 0x22 s .state) ∧
                (fit → ∃ w, s.reserveAndBind p g c ⟨o, position, k⟩ = some w ∧
                  Done i v 0x22 s [.word g.serial, .u16 k.val] w))

/-- R41, R52, R53: binding takes one of the line's units, deriving the line's state again, and gives the garment the line's
placement and the class's recipe, its pretreat and press records settled, and a coverage job where it is to be sprayed;
LINE_PROGRESS is queued before GARMENT_MATCHED. -/
def Obligations.BindingLatchesLine : Prop :=
  ∀ (s w : State) (p : Fin 16) (g : Garment) (c : Fin 16) (x : Candidate) (l : Line) (o : Order),
    s.book.lines[x.line] = some l → s.book.find l.order = some o →
    s.reserveAndBind p g c x = some w →
    let r := s.book.recipes[c]
    let e := s.extent l.placement
    o.status = .opened ∧ l.status = .opened ∧
    w.book = s.book.withOneMore x.line l o ∧ w.units.serial = s.units.serial ∧
    s.notified w (s.book.noticesOfOneMore x.line l o ++
      [.garmentMatched p g.serial x.order.number x.position x.line c (!r.pretreat)]) ∧
    w.garment p = some { g with
      binding := some ⟨x.order.number, x.line, r, l.placement⟩
      hold := none
      stage := .matched
      press := if r.pretreat then .pending else .waived
      pretreat :=
        { coverage := if r.pretreat = false then .none else if e = none then .complete else .queued
          map := Vector.replicate 63 (Vector.replicate 8 0), planned := 0, issued := 0, shortfall := 0
          result := if r.pretreat then .pending else .waived } } ∧
    (∀ q, q ≠ p → w.garment q = s.garment q) ∧
    w.engine.unit = s.engine.unit ∧
    (r.pretreat = false ∨ e = none → w.engine.jobs = s.engine.jobs) ∧
    (r.pretreat = true → ∀ b, e = some b → w.engine.jobs = s.engine.jobs ++ [⟨p, g.serial, b.top / 64⟩]) ∧
    s.keeps w [.book, .units, .engine, .notices]

/-- R52: the candidates for a blank are the OPEN lines of OPEN orders for it whose art is READY; the one chosen has
the highest priority, then the lowest sequence, order number and position. R51, R54, R55: the rematch signal reaches the
LOADED garment standing at S0 and nothing else. -/
def Obligations.MatchingAndRematch : Prop :=
  (∀ (s : State) (blank : BlankCode),
    (∀ x : Candidate, x ∈ s.candidates blank ↔ x.order ∈ s.book.orders ∧ x.order.lines[x.position]? = some x.line ∧
      x.order.status = .opened ∧ ∃ l, s.book.lines[x.line] = some l ∧ l.order = x.order.number ∧ l.status = .opened ∧
        l.blank = blank ∧ (s.art l.placement.art).map Art.status = some .ready) ∧
    (chooseCandidate (s.candidates blank) = none ↔ s.candidates blank = []) ∧
    ∀ x, chooseCandidate (s.candidates blank) = some x → x ∈ s.candidates blank ∧
      ∀ y ∈ s.candidates blank, y.order.priority ≤ x.order.priority ∧
        (y.order.priority = x.order.priority → x.order.sequence ≤ y.order.sequence ∧
          (y.order.sequence = x.order.sequence → x.order.number ≤ y.order.number ∧
            (y.order.number = x.order.number → x.position ≤ y.position)))) ∧
  (∀ (s : State) (n : Fin 6) (p : Fin 16) (g : Garment), s.garmentAt n = some (p, g) ↔
    (s.station n).occupant = some p ∧ s.place p = .station n ∧ s.garment p = some g) ∧
  ∀ (s : State) (cause : RematchCause),
    (s.garmentAt 0 = none → s.rematch cause = s) ∧
    ∀ p g, s.garmentAt 0 = some (p, g) →
      (g.stage ≠ .loaded → s.rematch cause = s) ∧
      (g.stage = .loaded →
        (g.hold = some .unknownBlank → s.rematch .other = s) ∧
        (∀ c, g.hold = some .noLine → g.cls = some c →
          (s.candidates g.blank = [] → s.rematch .other = s) ∧
          ∀ x w, chooseCandidate (s.candidates g.blank) = some x → s.reserveAndBind p g c x = some w →
            s.rematch .other = w) ∧
        (s.book.classOf g.blank = none →
          let u := s.putGarment p (some { g with cls := none, hold := some .unknownBlank })
          (g.hold = some .unknownBlank → s.rematch .catalogueWrite = u) ∧
          (g.hold ≠ some .unknownBlank →
            s.rematch .catalogueWrite = u.raise (.garmentHeld p g.serial g.blank none .unknownBlank))) ∧
        ∀ c, s.book.classOf g.blank = some c →
          let h := { g with cls := some c }
          let u := s.putGarment p (some h)
          (s.candidates g.blank = [] →
            (g.hold = some .noLine → s.rematch .catalogueWrite = u) ∧
            (g.hold ≠ some .noLine → s.rematch .catalogueWrite =
              (s.putGarment p (some { h with hold := some .noLine })).raise
                (.garmentHeld p g.serial g.blank (some c) .noLine))) ∧
          ∀ x w, chooseCandidate (s.candidates g.blank) = some x → u.reserveAndBind p h c x = some w →
            s.rematch .catalogueWrite = w)

/-- R59, R61 to R63, R105: LOAD_CLEAR at S0 gives a binding back and withdraws a coverage job in the queue, UNLOAD_GOOD and
UNLOAD_SPOIL at S5 count the garment done or spoiled; each removes the record and reports it. That the rematch of R43 and
its notices follow GARMENT_DONE and the record's removal is log 11. -/
def Obligations.RemovedGarmentIsCounted : Prop :=
  (∀ (s : State) (p : Fin 16) (g : Garment),
    (g.pretreat.coverage = .queued ∨ g.pretreat.coverage = .scanning → WithdrawsJob p g.serial s (s.withdrawJob p g)) ∧
    (g.pretreat.coverage ≠ .queued → g.pretreat.coverage ≠ .scanning → s.withdrawJob p g = s)) ∧
  ∀ (v : Via) (platen : Nat) (s : State),
    let gone (t : State) (p : Fin 16) (g : Garment) (x : GarmentOutcome) : State :=
      (t.raise (.garmentDone p g.serial (g.binding.map fun b => (b.order, b.line)) x g.disposition g.orphan g.restored
        g.pretreat.result g.pretreat.shortfall g.press g.print.phase g.cure.result g.cure.credit)).putGarment p none
    let counted (c : Counter) (g : Garment) : State × Bool :=
      match g.binding with
      | none => (s, false)
      | some b => s.count c b.line
    (Ready s v 0x23 →
      (16 ≤ platen → Refused (.loadClear v platen) v 0x23 s .range) ∧
      ∀ p : Fin 16, platen = p.val →
        (s.place p ≠ .station 0 → Refused (.loadClear v platen) v 0x23 s .wrongPlaten) ∧
        (s.place p = .station 0 → s.garment p = none → Refused (.loadClear v platen) v 0x23 s .state) ∧
        (s.place p = .station 0 → ∀ g, s.garment p = some g →
          Done (.loadClear v platen) v 0x23 s [.word g.serial]
            ((gone ((counted .release g).1.withdrawJob p g) p g .cleared).rematchIf (counted .release g).2))) ∧
    (Ready s v 0x24 →
      (16 ≤ platen → Refused (.unloadGood v platen) v 0x24 s .range) ∧
      ∀ p : Fin 16, platen = p.val →
        (s.place p ≠ .station 5 → Refused (.unloadGood v platen) v 0x24 s .wrongPlaten) ∧
        (s.place p = .station 5 → s.garment p = none → Refused (.unloadGood v platen) v 0x24 s .state) ∧
        (s.place p = .station 5 → ∀ g, s.garment p = some g →
          (g.stage ≠ .released ∨ g.disposition = .reject → Refused (.unloadGood v platen) v 0x24 s .state) ∧
          (g.stage = .released → g.disposition = .good →
            Done (.unloadGood v platen) v 0x24 s [.word g.serial] (gone (counted .done g).1 p g .good)))) ∧
    (Ready s v 0x25 →
      (16 ≤ platen → Refused (.unloadSpoil v platen) v 0x25 s .range) ∧
      ∀ p : Fin 16, platen = p.val →
        (s.place p ≠ .station 5 → Refused (.unloadSpoil v platen) v 0x25 s .wrongPlaten) ∧
        (s.place p = .station 5 → s.garment p = none → Refused (.unloadSpoil v platen) v 0x25 s .state) ∧
        (s.place p = .station 5 → ∀ g, s.garment p = some g →
          (g.stage ≠ .released → g.disposition = .good → Refused (.unloadSpoil v platen) v 0x25 s .state) ∧
          (g.stage = .released ∨ g.disposition = .reject →
            Done (.unloadSpoil v platen) v 0x25 s [.word g.serial]
              ((gone (counted .spoil g).1 p g .spoiled).rematchIf (counted .spoil g).2))))

/-! ### The track -/

/-- R7, R8, R9: a move starts exactly where the advance rule's conditions hold, and does what R9 lists. -/
def Obligations.MoveStartFollowsAdvanceRule : Prop :=
  (∀ n : Fin 6, laneCapacity n = (match n with | 0 => 2 | 1 => 1 | 2 => 3 | 3 => 2 | 4 => 3 | 5 => 6) ∧
    nextStation n = (match n with | 0 => 1 | 1 => 2 | 2 => 3 | 3 => 4 | 4 => 5 | 5 => 0)) ∧
  (∀ (t : Track) (n : Fin 6), t.laneLoad n =
    t.lanes[n].length + (if t.exits[n] = .idle then 0 else 1) + (if t.entries[n] = .idle then 0 else 1)) ∧
  ∀ (s : State) (n : Fin 6), s.resetLow = false →
    (∀ p, ExitMay s n p → Leads (.moveStart (.exit n)) s
      { s with track := { s.track with
          places := upd s.track.places p (.moving (.exit n))
          exits := upd s.track.exits n (.moving p s.clock.time) } }) ∧
    ((∀ p, ¬ExitMay s n p) → Leads (.moveStart (.exit n)) s s) ∧
    (∀ p, EntryMay s n p →
      let m := nextStation n
      Leads (.moveStart (.entry n)) s
        { s with track := { s.track with
            places := upd s.track.places p (.moving (.entry n))
            entries := upd s.track.entries n (.moving p s.clock.time)
            lanes := upd s.track.lanes n s.track.lanes[n].tail
            stations := upd s.track.stations m { s.track.stations[m] with reserved := true } } }) ∧
    ((∀ p, ¬EntryMay s n p) → Leads (.moveStart (.entry n)) s s)

/-- R5, R10 to R12, R118, R140, R157: ARRIVE ends a move, marks a jam late, or is ignored on an idle segment; a move
of 8000 ms times out. A station's owner is told: S4's begins a cure (R140), S5's sets the stage of a GOOD garment whose
cure result is RELEASED, S2's that of a GOOD garment that leaves. That JAM comes before LINE_STATE is log 12. -/
def Obligations.ArriveAndTimeoutEndMoves : Prop :=
  (∀ (s : State) (n : Fin 6) (p : Fin 16),
    (n = 4 → s.arrival n p = s.cureEntry p) ∧
    (n = 5 → ∀ g, s.garment p = some g → g.disposition = .good → g.cure.result = .released →
      s.arrival n p = s.putGarment p (some { g with stage := .released })) ∧
    (n = 5 → (∀ g, s.garment p = some g → g.disposition ≠ .good ∨ g.cure.result ≠ .released) → s.arrival n p = s) ∧
    (n ≠ 4 → n ≠ 5 → s.arrival n p = s) ∧
    (n = 2 → ∀ g, s.garment p = some g → g.disposition = .good →
      s.departure n p = s.putGarment p (some { g with stage := .printWait })) ∧
    (n = 2 → (∀ g, s.garment p = some g → g.disposition ≠ .good) → s.departure n p = s) ∧
    (n ≠ 2 → s.departure n p = s)) ∧
  ∀ (s : State) (n : Fin 6), s.resetLow = false →
    (∀ p start, s.track.exits[n] = .moving p start →
      let lane := s.track.lanes[n] ++ [p]
      let u : State := { s with track := { s.track with
        places := upd s.track.places p (.lane n)
        lanes := upd s.track.lanes n lane
        stations := upd s.track.stations n { s.track.stations[n] with occupant := none }
        exits := upd s.track.exits n .idle } }
      let notice := Notice.platenMoved p (some (.exit n)) (.lane n) (lane.idxOf p)
      (n = 2 → ∀ g, s.garment p = some g → g.disposition = .good →
        Leads (.arrive (.exit n)) s ((u.putGarment p (some { g with stage := .printWait })).raise notice)) ∧
      ((n ≠ 2 ∨ ∀ g, s.garment p = some g → g.disposition ≠ .good) →
        Leads (.arrive (.exit n)) s (u.raise notice))) ∧
    (∀ p start, s.track.entries[n] = .moving p start →
      let m := nextStation n
      let u : State := { s with track := { s.track with
        places := upd s.track.places p (.station m)
        stations := upd s.track.stations m ⟨some p, false, s.track.stations[m].held⟩
        entries := upd s.track.entries n .idle } }
      Leads (.arrive (.entry n)) s ((u.arrival m p).raise (.platenMoved p (some (.entry n)) (.station m) 0))) ∧
    ∀ g : Segment,
      (s.seg g = .idle → Leads (.arrive g) s s ∧ Leads (.moveTimeout g) s s) ∧
      (∀ p c late, s.seg g = .jammed p c late →
        Leads (.arrive g) s ((s.putSeg g (.jammed p c true)).raise (.jam g p c true)) ∧ Leads (.moveTimeout g) s s) ∧
      ∀ p start, s.seg g = .moving p start →
        (8000 ≤ (s.clock.time - start).toNat →
          let u := ((s.putSeg g (.jammed p .timeout false)).putPlace p (.uncertain g)).raise (.jam g p .timeout false)
          (s.track.line ≠ .running → Leads (.moveTimeout g) s u) ∧
          (s.track.line = .running → Leads (.moveTimeout g) s
            ({ u with track := { u.track with line := .stopped } }.raise
              (.lineState .stopped s.inputs.estop.level s.powerFlag)))) ∧
        ((s.clock.time - start).toNat < 8000 → Leads (.moveTimeout g) s s)

/-- R15, R16, R111, R117: the emergency stop jams every moving segment, stops a running line, and interrupts a
running spray sequence and a closing or dwelling press, every other garment standing as it was, one WAITING at S1 among
them; its release changes the line state in nothing. That the two commands
themselves set the input's level, wire and count is log 4; the order of the notices, segments X0, E0, X1 and so on, JAM
before LINE_STATE, and the spray sequence's last, is log 12. -/
def Obligations.EmergencyStopJamsLine : Prop :=
  (∀ s : State, s.resetLow = false → s.inputs.estop.level = true → Leads .emergencyStopAsserted s s ∧
    Leads .emergencyStopReleased s
      ({ s with inputs := { s.inputs with estop := ⟨false, false, 0⟩ } }.raise (.lineState s.track.line false s.powerFlag))) ∧
  ∀ s : State, s.resetLow = false → s.inputs.estop.level = false → Leads .emergencyStopReleased s s ∧
    ∃ t, Happened .emergencyStopAsserted s t ∧
      s.keeps t [.inputs, .track, .units, .spray, .press, .notices] ∧ t.units.serial = s.units.serial ∧
      t.inputs = { s.inputs with estop := ⟨true, true, 0⟩ } ∧
      t.track.line = (if s.track.line = .running then .stopped else s.track.line) ∧
      t.track.stations = s.track.stations ∧ t.track.lanes = s.track.lanes ∧
      (∀ g, t.seg g = (match s.seg g with | .moving p _ => .jammed p .eStop false | x => x)) ∧
      (∀ p, (∀ g start, s.seg g ≠ .moving p start) → t.place p = s.place p) ∧
      (∀ g p start, s.seg g = .moving p start → (∀ h x, s.seg h = .moving p x → h = g) → t.place p = .uncertain g) ∧
      t.press = (match s.press with | .closing _ => .idle | .dwell _ => .idle | x => x) ∧
      (s.spray.run = none → t.spray = s.spray) ∧
      (∀ p, s.garment p = none → t.garment p = none) ∧
      (∀ p g, s.garment p = some g → (s.spray.run = none ∨ s.place p ≠ .station 1) →
        ((∀ left, s.press ≠ .closing left ∧ s.press ≠ .dwell left) ∨ s.place p ≠ .station 2) → t.garment p = some g) ∧
      (∀ p g, s.garmentAt 2 = some (p, g) → (∀ h x, s.seg h ≠ .moving p x) →
        t.garment p = some (match s.press with
          | .closing _ => { g with press := .pending }
          | .dwell _ => { g with press := .pending }
          | _ => g)) ∧
      let segments := (List.finRange 6).flatMap fun n => [Segment.exit n, .entry n]
      let notices := (segments.filterMap fun g =>
          match s.seg g with
          | .moving p _ => some (Notice.jam g p .eStop false)
          | _ => none) ++ [.lineState t.track.line true s.powerFlag]
      (s.spray.run = none → s.notified t notices) ∧
      ∀ run p g r, s.spray.run = some run → s.sprayed = some (p, g, r) → (∀ h x, s.seg h ≠ .moving p x) →
        let shortfall := g.pretreat.shortfall + cutShortfall s.spray.channels + unstrobed g.pretreat.map run.strobes
        t.spray.run = none ∧ (∀ z : Fin 8, t.spray.channels[z] = ⟨0, 0, false, false, false⟩) ∧
        t.garment p = some { g with
          disposition := .reject, pretreat := { g.pretreat with shortfall := shortfall, result := .interrupted } } ∧
        s.notified t (notices ++ [.pretreatResult p g.serial .interrupted g.pretreat.planned g.pretreat.issued shortfall
          r.tolerance run.strobes])

/-- R18, R19: PLATEN_DECLARE's checks and effect; the declaration that leaves no platen UNSEEN stops the line. That its
PLATEN_MOVED comes before its LINE_STATE is log 12. -/
def Obligations.PlatenDeclareEndsCensus : Prop :=
  ∀ (v : Via) (platen : Nat) (place : PlaceArg) (s : State), Ready s v 0x26 →
    let i := Instr.platenDeclare v platen place
    let declared (u : State) (p : Fin 16) (x : Place) (position : Nat) : Prop :=
      let w := u.raise (.platenMoved p none x position)
      ((∃ q, q ≠ p ∧ s.place q = .unseen) → Done i v 0x26 s [] w) ∧
      ((∀ q, q ≠ p → s.place q ≠ .unseen) → s.track.line ≠ .stopped →
        Done i v 0x26 s [] ({ w with track := { w.track with line := .stopped } }.raise
          (.lineState .stopped s.inputs.estop.level s.powerFlag)))
    (16 ≤ platen → Refused i v 0x26 s .range) ∧
    (∀ n, place = .station n → 6 ≤ n → Refused i v 0x26 s .range) ∧
    (∀ n, place = .lane n → 6 ≤ n → Refused i v 0x26 s .range) ∧
    (∀ g, place = .moving g ∨ place = .uncertain g ∨ place = .unseen → Refused i v 0x26 s .range) ∧
    ∀ p : Fin 16, platen = p.val →
      (∀ n : Fin 6, place = .station n.val →
        (s.place p ≠ .unseen → Refused i v 0x26 s .state) ∧
        (s.place p = .unseen →
          (s.present n = false ∨ (s.station n).occupant ≠ none → Refused i v 0x26 s .state) ∧
          (s.present n = true → (s.station n).occupant = none →
            let u := (s.putStation n ⟨some p, false, (s.station n).held⟩).putPlace p (.station n)
            declared (u.arrival n p) p (.station n) 0))) ∧
      (∀ n : Fin 6, place = .lane n.val →
        (s.place p ≠ .unseen → Refused i v 0x26 s .state) ∧
        (s.place p = .unseen →
          (laneCapacity n ≤ (s.lane n).length → Refused i v 0x26 s .full) ∧
          ((s.lane n).length < laneCapacity n →
            let lane := s.lane n ++ [p]
            declared ((s.putLane n lane).putPlace p (.lane n)) p (.lane n) (lane.idxOf p)))) ∧
      (place = .service →
        (s.place p ≠ .unseen → Refused i v 0x26 s .state) ∧
        (s.place p = .unseen → declared (s.putPlace p .service) p .service 0))

/-- R13, R14: JAM_CONFIRM's checks in order, and the four ways a jam ends. -/
def Obligations.JamConfirmPlacesPlaten : Prop :=
  ∀ (v : Via) (platen : Nat) (place : PlaceArg) (s : State), Ready s v 0x27 →
    let i := Instr.jamConfirm v platen place
    let confirmed (u : State) (g : Segment) (p : Fin 16) (x : Place) (position : Nat) : Prop :=
      Done i v 0x27 s [] ((u.putSeg g .idle).raise (.platenMoved p (some g) x position))
    (16 ≤ platen → Refused i v 0x27 s .range) ∧
    (∀ n, place = .station n → 6 ≤ n → Refused i v 0x27 s .range) ∧
    (∀ n, place = .lane n → 6 ≤ n → Refused i v 0x27 s .range) ∧
    (∀ g, place = .moving g ∨ place = .uncertain g ∨ place = .service ∨ place = .unseen → Refused i v 0x27 s .range) ∧
    ∀ (p : Fin 16) (n : Fin 6), platen = p.val →
      (place = .station n.val ∨ place = .lane n.val → (∀ g, s.place p ≠ .uncertain g) → Refused i v 0x27 s .state) ∧
      ∀ m : Fin 6,
        (s.place p = .uncertain (.exit m) →
          (place = .station n.val →
            (n ≠ m → Refused i v 0x27 s .range) ∧
            (n = m → s.present m = false → Refused i v 0x27 s .state) ∧
            (n = m → s.present m = true → confirmed (s.putPlace p (.station m)) (.exit m) p (.station m) 0)) ∧
          (place = .lane n.val →
            (n ≠ m → Refused i v 0x27 s .range) ∧
            (n = m →
              let lane := s.lane m ++ [p]
              let u := ((s.putLane m lane).putPlace p (.lane m)).putStation m { s.station m with occupant := none }
              confirmed (u.departure m p) (.exit m) p (.lane m) (lane.idxOf p)))) ∧
        (s.place p = .uncertain (.entry m) →
          (place = .station n.val →
            (n ≠ nextStation m → Refused i v 0x27 s .range) ∧
            (n = nextStation m → s.present n = false → Refused i v 0x27 s .state) ∧
            (n = nextStation m → s.present n = true →
              let u := (s.putStation n ⟨some p, false, (s.station n).held⟩).putPlace p (.station n)
              confirmed (u.arrival n p) (.entry m) p (.station n) 0)) ∧
          (place = .lane n.val →
            (n ≠ m → Refused i v 0x27 s .range) ∧
            (n = m →
              let k := nextStation m
              let u := (s.putLane m (p :: s.lane m)).putPlace p (.lane m)
              confirmed (u.putStation k { s.station k with reserved := false }) (.entry m) p (.lane m) 0)))

/-- R17, R20 to R22, R116: LINE_RESUME starts the line where nothing is unsettled; the holds set and clear a station's
flag in every line state, and clearing S2's frees a press that failed to close; SERVICE_OUT takes an EMPTY platen
standing at S0 or S5 off the track, and SERVICE_IN puts one back at a free S0. -/
def Obligations.ResumeHoldsAndService : Prop :=
  (∀ (v : Via) (s : State), Ready s v 0x28 →
    let i := Instr.lineResume v
    let unsettled := (∃ p, s.place p = .unseen ∨ ∃ g, s.place p = .uncertain g) ∨ ∃ g p c late, s.seg g = .jammed p c late
    (s.inputs.estop.level = true → Refused i v 0x28 s .stopped) ∧
    (s.inputs.estop.level = false →
      (unsettled → Refused i v 0x28 s .state) ∧
      (¬unsettled →
        (s.track.line = .running → Done i v 0x28 s [] s) ∧
        (s.track.line ≠ .running → Done i v 0x28 s []
          ({ s with track := { s.track with line := .running } }.raise (.lineState .running false s.powerFlag)))))) ∧
  (∀ (v : Via) (station : Nat) (s : State), Ready s v 0x29 →
    (6 ≤ station → Refused (.stationHold v station) v 0x29 s .range) ∧
    ∀ n : Fin 6, station = n.val →
      Done (.stationHold v station) v 0x29 s [] (s.putStation n { s.station n with held := true })) ∧
  (∀ (v : Via) (station : Nat) (s : State), Ready s v 0x2A →
    (6 ≤ station → Refused (.stationRelease v station) v 0x2A s .range) ∧
    ∀ n : Fin 6, station = n.val →
      let u := s.putStation n { s.station n with held := false }
      ((s.station n).held = true → n = 2 → s.press = .fault .close →
        Done (.stationRelease v station) v 0x2A s [] (u.setPress .idle)) ∧
      ((s.station n).held = false ∨ n ≠ 2 ∨ s.press ≠ .fault .close →
        Done (.stationRelease v station) v 0x2A s [] u)) ∧
  (∀ (v : Via) (platen : Nat) (s : State), Ready s v 0x2B →
    let i := Instr.serviceOut v platen
    (16 ≤ platen → Refused i v 0x2B s .range) ∧
    ∀ p : Fin 16, platen = p.val →
      ((s.place p ≠ .station 0 ∧ s.place p ≠ .station 5) ∨ s.garment p ≠ none → Refused i v 0x2B s .state) ∧
      ∀ n, (n = 0 ∨ n = 5) → s.place p = .station n → s.garment p = none →
        Done i v 0x2B s []
          (((s.putStation n { s.station n with occupant := none }).putPlace p .service).raise
            (.platenMoved p none .service 0))) ∧
  ∀ (v : Via) (platen : Nat) (s : State), Ready s v 0x2C →
    let i := Instr.serviceIn v platen
    let may (p : Fin 16) := s.place p = .service ∧ (s.station 0).occupant = none ∧ (s.station 0).reserved = false ∧
      s.present 0 = true
    (16 ≤ platen → Refused i v 0x2C s .range) ∧
    ∀ p : Fin 16, platen = p.val →
      (¬may p → Refused i v 0x2C s .state) ∧
      (may p → Done i v 0x2C s []
        (((s.putStation 0 ⟨some p, false, (s.station 0).held⟩).putPlace p (.station 0)).raise
          (.platenMoved p none (.station 0) 0)))

/-! ### Art, palettes, the arbiter -/

/-- R68 to R70: ART_OPEN's checks in order; an accepted open fills the lowest-numbered FREE descriptor. -/
def Obligations.ArtOpenTakesLowestFree : Prop :=
  ∀ (v : Via) (format palette width height stride base : Nat) (crc : Word) (s : State), Ready s v 0x0C →
    let i := Instr.artOpen v format palette width height stride base crc
    (3 ≤ format → Refused i v 0x0C s .malformed) ∧
    ∀ f, ArtFormat.ofCode format = some f →
      let rowBytes := match f with | .idx4 => (width + 1) / 2 | .idx8 => width | .cmyka => 5 * width
      let wrong := width = 0 ∨ 8192 < width ∨ height = 0 ∨ 8192 < height ∨ (f ≠ .cmyka ∧ 8 ≤ palette) ∨
        base % 16 ≠ 0 ∨ stride < rowBytes ∨ 65535 < stride ∨ 0x7BFFFFF < base + stride * height - 1
      (wrong → Refused i v 0x0C s .range) ∧
      (¬wrong → (∀ h : Fin 64, s.art h ≠ none) → Refused i v 0x0C s .full) ∧
      (¬wrong → ∀ h : Fin 64, s.art h = none → (∀ k : Fin 64, k < h → s.art k ≠ none) →
        let meets := ∃ (k : Fin 64) (d : Art), s.art k = some d ∧
          base ≤ d.base + d.stride * d.height - 1 ∧ d.base ≤ base + stride * height - 1 ∧ 0 < d.stride * d.height
        (meets → Refused i v 0x0C s .overlap) ∧
        (¬meets → (∀ k d, s.art k = some d → 0 < d.stride * d.height) → ∀ p : Fin 8, p.val = (if f = .cmyka then 0 else palette) →
          Done i v 0x0C s [.u8 h.val, .u32 (base + stride * height - 1)]
            ({ s with store := { s.store with
                arts := upd s.store.arts h (some ⟨.loading, f, p, width, height, stride, base, crc, none, 0⟩) } }.raise
              (.artState h .loading crc none))))

/-- R71: ART_WRITE's checks in order; an accepted write begins at base + offset, and its reply comes when its last
burst has completed. -/
def Obligations.ArtWriteRunsToItsReply : Prop :=
  (∀ (v : Via) (handle offset : Nat) (data : List Byte) (s : State), Ready s v 0x0D →
    let i := Instr.artWrite v handle offset data
    (64 ≤ handle → Refused i v 0x0D s .range) ∧
    ∀ h : Fin 64, handle = h.val →
      (data = [] ∨ 480 < data.length → Refused i v 0x0D s .malformed) ∧
      (data ≠ [] → data.length ≤ 480 →
        ((∀ d, s.art h = some d → d.status ≠ .loading) → Refused i v 0x0D s .state) ∧
        ∀ d, s.art h = some d → d.status = .loading →
          (d.stride * d.height < offset + data.length → Refused i v 0x0D s .range) ∧
          (offset + data.length ≤ d.stride * d.height →
            Starts i v 0x0D s { s with store := { s.store with write := some ⟨v.link, d.base + offset, data⟩ } }))) ∧
  ∀ s : State, s.resetLow = false →
    ((∀ l a, s.store.write ≠ some ⟨l, a, []⟩) → Leads .artWriteComplete s s) ∧
    ∀ l a tag kind, s.store.write = some ⟨l, a, []⟩ → (s.link l).slot = .inFlight tag kind .working →
      ∃ t, exec .artWriteComplete s = .next t ∧
        { s with store := { s.store with write := none } }.keeps t [] ∧
        (t.link l).slot = (if (s.link l).silent then .free else .inFlight tag kind (.ready ⟨.ok, []⟩)) ∧
        ∀ m, m ≠ l → (t.link m).slot = (s.link m).slot

/-- R72, R73, R75: ART_SEAL puts a LOADING descriptor at the tail of the verification queue; a pass starts on the
head and ends when every row has been fed in, with READY where the CRCs agree and BAD where they do not. That the rows
checked of a READY or BAD descriptor stay at its height is log 28; that the rematch signal of a READY one is taken at the end
of the step is log 11. -/
def Obligations.SealedArtIsVerified : Prop :=
  (∀ (v : Via) (handle : Nat) (crc : Option Word) (s : State), Ready s v 0x0E →
    let i := Instr.artSeal v handle crc
    (64 ≤ handle → Refused i v 0x0E s .range) ∧
    ∀ h : Fin 64, handle = h.val →
      ((∀ d, s.art h = some d → d.status ≠ .loading) → Refused i v 0x0E s .state) ∧
      ∀ d, s.art h = some d → d.status = .loading →
        let expected := match crc with | none => d.expected | some c => c
        Done i v 0x0E s []
          ({ s with store := { s.store with
              arts := upd s.store.arts h (some { d with status := .verifying, expected := expected })
              verifyQueue := s.store.verifyQueue ++ [h] } }.raise (.artState h .verifying expected d.computed))) ∧
  ∀ s : State, s.resetLow = false →
    (s.store.verify ≠ none ∨ s.store.verifyQueue = [] → Leads .verifyPassStart s s) ∧
    (s.store.verify = none ∨ s.store.verifyQueue = [] → Leads .verifyPassEnd s s) ∧
    ∀ h rest d, s.store.verifyQueue = h :: rest → s.art h = some d →
      (s.store.verify = none → Leads .verifyPassStart s
        { s with store := { s.store with
            arts := upd s.store.arts h (some { d with rowsChecked := 0 })
            verify := some ⟨0, 0, 0xFFFFFFFF⟩ } }) ∧
      ∀ pass, s.store.verify = some pass →
        (pass.row < d.height → Leads .verifyPassEnd s s) ∧
        (d.height ≤ pass.row →
          let crc := ~~~pass.crc
          let u (x : ArtStatus) (y : ArtState) : State :=
            { s with store := { s.store with
              arts := upd s.store.arts h (some { d with computed := some crc, rowsChecked := d.height, status := x })
              verifyQueue := rest
              verify := none } }.raise (.artState h y d.expected (some crc))
          (crc = d.expected → Leads .verifyPassEnd s ((u .ready .ready).rematch .other)) ∧
          (crc ≠ d.expected → Leads .verifyPassEnd s (u .bad .bad)))

/-- R44, R76, R77: ART_FREE is refused IN_USE while a line in OPEN, FULL or WITHDRAWN names the art; accepted, it
frees the descriptor, takes it out of the verification queue, and abandons its pass. That the ART_STATE notice of a freed
descriptor carries the CRCs it had is log 14. -/
def Obligations.ArtFreeSparesPinnedArt : Prop :=
  ∀ (v : Via) (handle : Nat) (s : State), Ready s v 0x0F →
    let i := Instr.artFree v handle
    (64 ≤ handle → Refused i v 0x0F s .range) ∧
    ∀ h : Fin 64, handle = h.val →
      (s.art h = none → Refused i v 0x0F s .state) ∧
      ∀ d, s.art h = some d →
        let pinned := ∃ (k : Fin 512) (l : Line), s.book.lines[k] = some l ∧ l.placement.art = h ∧
          (l.status = .opened ∨ l.status = .full ∨ l.status = .withdrawn)
        (pinned → Refused i v 0x0F s .inUse) ∧
        (¬pinned →
          ∃ t, Answered i v 0x0F s t .ok [] ∧ s.keeps t [.store, .arbiter, .notices] ∧
            t.store.arts = upd s.store.arts h none ∧ t.store.palettes = s.store.palettes ∧
            t.store.overlays = s.store.overlays ∧ t.store.write = s.store.write ∧
            t.store.verifyQueue = s.store.verifyQueue.filter (fun x => x != h) ∧
            s.notified t [.artState h .free d.expected d.computed] ∧
            (s.store.verifyQueue.head? ≠ some h ∨ s.store.verify = none →
              t.store.verify = s.store.verify ∧ t.arbiter = s.arbiter) ∧
            (s.store.verifyQueue.head? = some h →
              t.store.verify = none ∧ t.arbiter.fairness = s.arbiter.fairness ∧ t.arbiter.turn = s.arbiter.turn ∧
              (∀ b, s.store.verify ≠ none → s.arbiter.port = some ⟨.verify, b, .live⟩ →
                t.arbiter.port = some ⟨.verify, b, .dropped⟩) ∧
              (s.store.verify = none ∨ (∀ b, s.arbiter.port ≠ some ⟨.verify, b, .live⟩) →
                t.arbiter.port = s.arbiter.port)))

/-- R78, R79: the palette and overlay writes replace exactly the named run, unless the table is in use; the reads
reply with the run as it stands. The sixteen bytes of a row of overlay codes are log 13. -/
def Obligations.PalettesAndOverlays : Prop :=
  (∀ (v : Via) (palette first count : Nat) (s : State),
    let wrong (r : ResultCode → Prop) (k : Prop) : Prop :=
      (8 ≤ palette ∨ 255 < first → r .range) ∧
      (palette < 8 → first ≤ 255 →
        (count = 0 ∨ 96 < count → r .malformed) ∧ (1 ≤ count → count ≤ 96 → (256 < first + count → r .range) ∧
          (first + count ≤ 256 → k)))
    (∀ entries : List Ink, entries.length = count → Ready s v 0x10 →
      let i := Instr.paletteSet v palette first entries
      wrong (Refused i v 0x10 s) (∀ p : Fin 8, palette = p.val →
        let inUse := ∃ (h : Fin 64) (d : Art) (k : Fin 512) (l : Line), s.art h = some d ∧ d.format ≠ .cmyka ∧
          d.palette = p ∧ s.book.lines[k] = some l ∧ l.placement.art = h ∧
          (l.status = .opened ∨ l.status = .full ∨ l.status = .withdrawn)
        (inUse → Refused i v 0x10 s .inUse) ∧
        (¬inUse → ∃ x : Vector Ink 256,
          (∀ n : Fin 256, (n.val < first ∨ first + count ≤ n.val → x[n] = s.store.palettes[p][n]) ∧
            ∀ e, first ≤ n.val → entries[n.val - first]? = some e → x[n] = e) ∧
          Done i v 0x10 s [] { s with store := { s.store with palettes := upd s.store.palettes p x } }))) ∧
    (Ready s v 0x11 →
      let i := Instr.paletteGet v palette first count
      wrong (Refused i v 0x11 s) (∀ p : Fin 8, palette = p.val →
        Done i v 0x11 s (.u8 count :: ((s.store.palettes[p].toList.drop first).take count).flatMap fun e =>
          [.u8 e.c, .u8 e.m, .u8 e.y, .u8 e.k, .u8 e.a]) s))) ∧
  ∀ (v : Via) (overlay first count : Nat) (s : State),
    let wrong (r : ResultCode → Prop) (short : Prop) (k : Prop) : Prop :=
      (16 ≤ overlay ∨ 63 < first → r .range) ∧
      (overlay < 16 → first ≤ 63 →
        (24 < count ∨ short → r .malformed) ∧
        (count ≤ 24 → ¬short → (64 < first + count → r .range) ∧ (first + count ≤ 64 → k)))
    (∀ (colours : Option (Cmyk × Cmyk)) (rows : List (Vector OverlayCode 64)), rows.length = count → Ready s v 0x12 →
      let i := Instr.overlaySet v overlay colours first rows
      wrong (Refused i v 0x12 s) (count = 0 ∧ colours = none) (∀ o : Fin 16, overlay = o.val →
        let inUse := ∃ (k : Fin 512) (l : Line) (a : OverlayAt), s.book.lines[k] = some l ∧
          l.placement.overlay = some a ∧ a.index = o ∧ (l.status = .opened ∨ l.status = .full ∨ l.status = .withdrawn)
        (inUse → Refused i v 0x12 s .inUse) ∧
        (¬inUse → ∃ x : Overlay,
          (∀ n : Fin 64, (n.val < first ∨ first + count ≤ n.val → x.codes[n] = s.store.overlays[o].codes[n]) ∧
            ∀ r, first ≤ n.val → rows[n.val - first]? = some r → x.codes[n] = r) ∧
          (colours = none → x.a = s.store.overlays[o].a ∧ x.b = s.store.overlays[o].b) ∧
          (∀ a b, colours = some (a, b) → x.a = a ∧ x.b = b) ∧
          Done i v 0x12 s [] { s with store := { s.store with overlays := upd s.store.overlays o x } }))) ∧
    (Ready s v 0x13 →
      let i := Instr.overlayGet v overlay first count
      wrong (Refused i v 0x13 s) False (∀ o : Fin 16, overlay = o.val →
        let x := s.store.overlays[o]
        let code (c : OverlayCode) : Nat :=
          match c with | .transparent => 0 | .colourA => 1 | .colourB => 2 | .knockout => 3
        let row (r : Vector OverlayCode 64) : List Byte := (List.finRange 16).map fun j => BitVec.ofNat 8
          (64 * code r[4 * j.val] + 16 * code r[4 * j.val + 1] + 4 * code r[4 * j.val + 2] + code r[4 * j.val + 3])
        Done i v 0x13 s
          ([.u8 x.a.c, .u8 x.a.m, .u8 x.a.y, .u8 x.a.k, .u8 x.b.c, .u8 x.b.m, .u8 x.b.y, .u8 x.b.k, .u8 count] ++
            ((x.codes.toList.drop first).take count).map fun r => .bytes (row r)) s))

/-- R71, R73, R80, R126, R129: which block each of the four requesters asks for, with the bytes of a write (the order of
the engine's reads and writes is log 9); the arbiter grants class 3 when it waits and the fairness count is 64 or nothing
else waits, otherwise a swath read before the engine's burst; within class 3 the turn mark decides. A block beyond the
art memory, which no reached state asks for, is the model's one fault (log 20). -/
def Obligations.ArbiterGrantsByClass : Prop :=
  (∀ s : State,
    (s.ring.pull = none → s.pullBurst = none) ∧
    (∀ x, s.ring.pull = some x → s.pullBurst = (if x.next < x.stop then some ⟨x.next / 64 * 64, .read⟩ else none)) ∧
    (s.store.verify = none ∨ s.store.verifyQueue = [] → s.verifyBurst = none) ∧
    (∀ v h rest d, s.store.verify = some v → s.store.verifyQueue = h :: rest → s.art h = some d →
      s.verifyBurst =
        (if v.row < d.height then some ⟨(d.base + v.row * d.stride + v.pos) / 64 * 64, .read⟩ else none)) ∧
    (s.store.write = none → s.writeBurst = none) ∧
    (∀ x, s.store.write = some x → s.writeBurst =
      (if x.data = [] then none else some ⟨x.next / 64 * 64, .write x.next (x.data.take (64 - x.next % 64))⟩)) ∧
    (s.engine.unit = none → s.engineBurst = none) ∧
    ∀ u, s.engine.unit = some u →
      (∀ row block r, u.reads = (row, block) :: r → s.engineBurst = some ⟨block, .read⟩) ∧
      (u.reads = [] → u.writes = [] → s.engineBurst = none) ∧
      ∀ row block r q phase index slot g b e, u.reads = [] → u.writes = (row, block) :: r →
        u.kind = .swath q phase index slot → s.garment u.platen = some g → g.serial = u.serial → g.binding = some b →
        s.extent b.placement = some e →
        let base := 0x7C00000 + 0x100000 * slot.val
        let shape := swathShape e phase index
        let first := max block base
        ∃ bytes, s.engineBurst = some ⟨block, .write first bytes⟩ ∧
          bytes.length = min (block + 64) (base + shape.length) - first ∧
          ∀ n, n < bytes.length →
            bytes[n]? = some ((s.pixelInputs b.recipe b.placement).swathByte shape (first - base + n))) ∧
  ∀ s : State, s.resetLow = false →
    let three := s.verifyBurst ≠ none ∨ s.writeBurst ≠ none
    let grants (r : Requester) (b : Burst) (fairness : Nat) (turn : Turn) : Prop :=
      (0x8000000 < b.block + 64 → exec .arbiterGrant s = .fault (.noSuchArtAddress b.block)) ∧
      (b.block + 64 ≤ 0x8000000 →
        Leads .arbiterGrant s { s with arbiter := ⟨fairness, turn, some ⟨r, b, .live⟩⟩ })
    (s.arbiter.port ≠ none → Leads .arbiterGrant s s) ∧
    (s.pullBurst = none → s.engineBurst = none → ¬three → Leads .arbiterGrant s s) ∧
    (s.arbiter.port = none →
      (s.arbiter.fairness < 64 ∨ ¬three →
        (∀ b, s.pullBurst = some b → grants .pull b (min 64 (s.arbiter.fairness + 1)) s.arbiter.turn) ∧
        ∀ b, s.pullBurst = none → s.engineBurst = some b →
          grants .engine b (min 64 (s.arbiter.fairness + 1)) s.arbiter.turn) ∧
      (64 ≤ s.arbiter.fairness ∨ (s.pullBurst = none ∧ s.engineBurst = none) →
        (∀ b, s.verifyBurst = some b → (s.writeBurst = none ∨ s.arbiter.turn = .verify) → grants .verify b 0 .write) ∧
        ∀ b, s.writeBurst = some b → (s.verifyBurst = none ∨ s.arbiter.turn = .write) → grants .write b 0 .verify))

/-- R74's CRC-32, step by step; R71, R73, R80, R81, R101, R129: a completed burst frees the port; written bytes stand in
memory and every other byte is unchanged; live work goes on by that burst, and of abandoned work nothing follows. That an engine's burst is the head
of its planned reads or writes, and which row is then the next to be finished, is log 9. -/
def Obligations.BurstMovesItsBytes : Prop :=
  (let shift (r : Word) : Word := if r.getLsbD 0 then (r >>> 1) ^^^ 0xEDB88320 else r >>> 1
   (∀ r, crc32Feed r [] = r) ∧
   (∀ (r : Word) (bytes : List Byte) (b : Byte),
     crc32Feed r (bytes ++ [b]) = shift^[8] (crc32Feed r bytes ^^^ b.setWidth 32)) ∧
   ~~~crc32Feed 0xFFFFFFFF [0x31, 0x32, 0x33, 0x34, 0x35, 0x36, 0x37, 0x38, 0x39] = 0xCBF43926) ∧
  ∀ s : State, s.resetLow = false →
    let next (u : RasterUnit) (reads writes : List (Nat × Nat)) : Nat :=
      let read := match reads with | [] => u.last + 1 | (row, _) :: _ => row - u.choke
      let written := match writes with | [] => u.last + 1 | (row, _) :: _ => row
      max u.first (min (min read written) (u.last + 1))
    (s.arbiter.port = none → Leads .burstComplete s s) ∧
    ∀ g, s.arbiter.port = some g → s.mem.wf = true →
      ∃ t, Happened .burstComplete s t ∧ t.arbiter = { s.arbiter with port := none } ∧ t.mem.wf = true ∧
        s.keeps t [.arbiter, .mem, .store, .ring, .engine] ∧
        (g.burst.data = .read → t.mem = s.mem) ∧
        (∀ start bytes, g.burst.data = .write start bytes →
          (∀ a, a < start ∨ start + bytes.length ≤ a → t.mem.read a = s.mem.read a) ∧
          ∀ n b, bytes[n]? = some b → t.mem.read (start + n) = b) ∧
        (g.fate ≠ .live → s.keeps t [.arbiter, .mem]) ∧
        (g.fate = .live →
          (g.requester ≠ .pull → t.ring = s.ring) ∧ (g.requester ≠ .engine → t.engine = s.engine) ∧
          (g.requester = .pull ∨ g.requester = .engine → t.store = s.store) ∧
          (∀ x, g.requester = .pull → g.burst.data = .read → s.ring.pull = some x →
            let stop := min (g.burst.block + 64) x.stop
            t.ring = { s.ring with pull := some { x with
              next := stop, bytes := x.bytes ++ (List.range (stop - x.next)).map fun n => s.mem.read (x.next + n) } }) ∧
          (∀ x start bytes, g.requester = .write → g.burst.data = .write start bytes → s.store.write = some x →
            t.store = { s.store with write := some { x with
              next := x.next + bytes.length, data := x.data.drop bytes.length } }) ∧
          (∀ u, g.requester = .engine → g.burst.data = .read → s.engine.unit = some u →
            t.engine = { s.engine with unit := some { u with
              reads := u.reads.tail, next := next u u.reads.tail u.writes } }) ∧
          (∀ u start bytes, g.requester = .engine → g.burst.data = .write start bytes → s.engine.unit = some u →
            t.engine = { s.engine with unit := some { u with
              writes := u.writes.tail, next := next u u.reads u.writes.tail } }) ∧
          ∀ v h d, g.requester = .verify → g.burst.data = .read → s.store.verify = some v → s.verifying = some (h, d) →
            v.row < d.height →
            let first := d.base + v.row * d.stride + v.pos
            let rowStop := d.base + v.row * d.stride + d.rowBytes
            let stop := min (g.burst.block + 64) rowStop
            let crc := crc32Feed v.crc ((List.range (stop - first)).map fun n => s.mem.read (first + n))
            let after : VerifyPass := if stop = rowStop then ⟨v.row + 1, 0, crc⟩ else ⟨v.row, v.pos + (stop - first), crc⟩
            t.store = { s.store with
              arts := upd s.store.arts h (some { d with rowsChecked := after.row }), verify := some after })

/-! ### Pretreatment -/

/-- R108 to R110: when a spray sequence starts, what a band strobe loads and cuts, and what END leaves. A channel's fifth
field, `due`, is the model's own (log 22). -/
def Obligations.SpraySequenceFollowsStrobes : Prop :=
  (∀ (s : State) (p : Fin 16) (g : Garment) (r : Recipe), s.sprayed = some (p, g, r) ↔
    (s.station 1).occupant = some p ∧ s.place p = .station 1 ∧ s.garment p = some g ∧ g.binding.map Binding.recipe = some r) ∧
  (∀ x : Vector Channel 8, cutShortfall x = ((x.toList.filter Channel.active).map Channel.remaining).sum) ∧
  (∀ (map : DoseMap) (strobes : Nat), unstrobed map strobes =
    ((List.finRange 63).map fun k => if strobes ≤ k.val then map[k].toList.sum else 0).sum) ∧
  ∀ s : State, s.resetLow = false →
    (s.spray.run ≠ none → Leads .sprayStart s s) ∧
    (s.spray.run = none → Leads .band s s ∧ Leads .sprayEnd s s) ∧
    (s.sprayed = none → Leads .sprayStart s s) ∧
    ∀ p g r, s.sprayed = some (p, g, r) →
      (let ready := g.disposition = .good ∧ g.pretreat.result = .pending ∧ g.pretreat.coverage = .complete ∧
        s.track.line = .running
       (¬ready → Leads .sprayStart s s) ∧
       (ready → s.spray.run = none →
        (g.pretreat.planned = 0 → Leads .sprayStart s
          ((s.putGarment p (some { g with pretreat := { g.pretreat with result := .done } })).raise
            (.pretreatResult p g.serial .done 0 g.pretreat.issued g.pretreat.shortfall r.tolerance 0))) ∧
        (0 < g.pretreat.planned → Leads .sprayStart s
          ((s.putGarment p (some { g with stage := .spraying })).setSpray
            ⟨some ⟨0, none⟩, Vector.replicate 8 ⟨0, 0, false, false, false⟩⟩)))) ∧
      ∀ run, s.spray.run = some run →
        (63 ≤ run.strobes → Leads .band s s) ∧
        (∀ k : Fin 63, run.strobes = k.val →
          ∃ t, Happened .band s t ∧ s.keeps t [.units, .spray] ∧
            t.units.serial = s.units.serial ∧ (∀ q, q ≠ p → t.garment q = s.garment q) ∧
            t.garment p = some { g with pretreat := { g.pretreat with
              issued := g.pretreat.issued + g.pretreat.map[k].toList.countP (fun n => 0 < n)
              shortfall := g.pretreat.shortfall + cutShortfall s.spray.channels } } ∧
            t.spray.run = some ⟨k.val + 1, some k.val⟩ ∧
            ∀ z : Fin 8,
              (g.pretreat.map[k][z] = 0 → t.spray.channels[z] = ⟨0, 0, false, false, false⟩) ∧
              (0 < g.pretreat.map[k][z] →
                t.spray.channels[z] = ⟨r.period, g.pretreat.map[k][z] - 1, true, true, false⟩)) ∧
        let shortfall := g.pretreat.shortfall + cutShortfall s.spray.channels + unstrobed g.pretreat.map run.strobes
        let result : PretreatResult := if r.tolerance < shortfall then .short else .done
        Leads .sprayEnd s
          (((s.putGarment p (some { g with pretreat := { g.pretreat with shortfall := shortfall, result := result } })).setSpray
            ⟨none, Vector.replicate 8 ⟨0, 0, false, false, false⟩⟩).raise
            (.pretreatResult p g.serial result g.pretreat.planned g.pretreat.issued shortfall r.tolerance run.strobes))

/-- R107, R110: the zone events of a running sequence (a channel comes due at a tick with its counter at 0: log 22); every
planned pulse stays issued, short, still to come in an active channel, or in a band not yet strobed, so that after END
planned equals issued plus shortfall. -/
def Obligations.EveryPlannedPulseIsAccounted : Prop :=
  ∀ s : State, s.resetLow = false →
    (s.spray.run = none → ∀ z, Leads (.zoneValveClose z) s s ∧ Leads (.zonePulseReload z) s s ∧
      Leads (.zoneChannelExhausted z) s s) ∧
    ∀ run p g r, s.spray.run = some run → s.sprayed = some (p, g, r) →
      (∀ z : Fin 8,
        let c := s.spray.channels[z]
        let put (x : Channel) : State := s.setSpray { s.spray with channels := upd s.spray.channels z x }
        (c.active = true ∧ c.valve = true ∧ c.counter ≤ r.duty →
          Leads (.zoneValveClose z) s (put { c with valve := false })) ∧
        (¬(c.active = true ∧ c.valve = true ∧ c.counter ≤ r.duty) → Leads (.zoneValveClose z) s s) ∧
        (c.active = true → c.due = true → c.counter = 0 →
          (0 < c.remaining → Leads (.zoneChannelExhausted z) s s ∧ Leads (.zonePulseReload z) s
            ((put ⟨r.period, c.remaining - 1, true, true, false⟩).putGarment p
              (some { g with pretreat := { g.pretreat with issued := g.pretreat.issued + 1 } }))) ∧
          (c.remaining = 0 → Leads (.zonePulseReload z) s s ∧
            Leads (.zoneChannelExhausted z) s (put ⟨0, 0, false, false, false⟩))) ∧
        (¬(c.active = true ∧ c.due = true ∧ c.counter = 0) →
          Leads (.zonePulseReload z) s s ∧ Leads (.zoneChannelExhausted z) s s)) ∧
      (PulsesAccounted s →
        PulsesAccounted s.counted ∧
        (∀ i t, (i = .band ∨ ∃ z, i = .zoneValveClose z ∨ i = .zonePulseReload z ∨ i = .zoneChannelExhausted z) →
          exec i s = .next t → PulsesAccounted t) ∧
        ∀ t, exec .sprayEnd s = .next t → ∃ h, t.garment p = some h ∧
          h.pretreat.planned = h.pretreat.issued + h.pretreat.shortfall)

/-- R113 to R116: the press starts on a PENDING garment at S2 in a RUNNING line with the press seen open, dwells and
opens, and its record becomes DONE only when it is seen open again; a timer that runs out is a press fault. That the commands
PRESS_CLOSED and PRESS_OPEN set their input's level, wire and count themselves, whatever they were, is log 4 and log 18. -/
def Obligations.PressRunsItsCycle : Prop :=
  (∀ (s : State) (p : Fin 16) (g : Garment) (r : Recipe), s.pressed = some (p, g, r) ↔
    (s.station 2).occupant = some p ∧ s.place p = .station 2 ∧ s.garment p = some g ∧ g.binding.map Binding.recipe = some r) ∧
  ∀ s : State, s.resetLow = false →
    let closedIn : State := { s with inputs := { s.inputs with pressClosed := ⟨true, true, 0⟩ } }
    let openIn : State := { s with inputs := { s.inputs with pressOpen := ⟨true, true, 0⟩ } }
    let held (u : State) : State := u.putStation 2 { s.station 2 with held := true }
    ((s.pressed = none ∨ s.press ≠ .idle ∨ s.track.line ≠ .running ∨ s.inputs.pressOpen.level = false) →
      Leads .pressStart s s) ∧
    ((∀ n, s.press ≠ .closing n) → Leads .pressClosed s closedIn) ∧
    (s.press ≠ .dwell 0 → Leads .dwellExpiry s s) ∧
    (s.press = .dwell 0 → Leads .dwellExpiry s (s.setPress (.opening 3000))) ∧
    ((∀ n, s.press ≠ .opening n) → s.press ≠ .fault .opening → Leads .pressOpen s openIn) ∧
    (s.press ≠ .closing 0 → Leads .closeTimeout s s) ∧ (s.press ≠ .opening 0 → Leads .openTimeout s s) ∧
    ∀ p g r, s.pressed = some (p, g, r) →
      (s.press = .idle → s.track.line = .running → s.inputs.pressOpen.level = true →
        (g.disposition = .good → g.press = .pending → Leads .pressStart s
          ((s.putGarment p (some { g with stage := .pressing })).setPress (.closing 3000))) ∧
        ((g.disposition = .reject ∨ g.press ≠ .pending) → Leads .pressStart s s)) ∧
      (∀ n, s.press = .closing n → Leads .pressClosed s (closedIn.setPress (.dwell (100 * r.dwell)))) ∧
      ((∃ n, s.press = .opening n) ∨ s.press = .fault .opening → Leads .pressOpen s
        ((openIn.putGarment p (some { g with press := .done })).setPress .idle)) ∧
      (s.press = .closing 0 → Leads .closeTimeout s
        (((held s).setPress (.fault .close)).raise (.pressFault p g.serial .close r.dwell))) ∧
      (s.press = .opening 0 → Leads .openTimeout s
        (((held (s.putGarment p (some { g with press := .interrupted }))).setPress (.fault .opening)).raise
          (.pressFault p g.serial .opening r.dwell)))

/-! ### Swaths and the session -/

/-- R87, R101, R103, R121, R124, R125, R126, R180: the head-of-line garment is the eligible one in the print position, else
the eligible one in the next position; an idle engine takes the next swath of the head-of-line garment into the
lowest FREE slot, and only otherwise the next band of the first coverage job. A unit reads the blocks of its rows' art and
of the choke's margin rows; a swath unit writes every block of its slot that the swath's bytes lie in, and each byte
holds the drop levels of four columns of one plane row. The order of the bursts is log 9. -/
def Obligations.EngineTakesNextUnit : Prop :=
  (∀ (e : PixelInputs) (g : SwathShape) (plane row column : Nat), 0 < g.width → row < g.rows → column < (g.width + 3) / 4 →
    let bytes := (g.width + 3) / 4
    let x := g.xStart + 4 * column
    let y := g.rowStart + row
    e.swathByte g (plane * g.rows * bytes + row * bytes + column) = BitVec.ofNat 8
      (64 * e.level g plane x y + 16 * e.level g plane (x + 1) y + 4 * e.level g plane (x + 2) y +
        e.level g plane (x + 3) y) ∧
    ∀ z, g.xStart + g.width ≤ z → e.level g plane z y = 0) ∧
  (∀ s : State, TrackInv s.track →
    let printing (x : Producing) : Prop := ∃ p, PrintPosition s p ∧ Eligible s p x
    let prefetched (x : Producing) : Prop := ∃ p, (s.lane 2).head? = some p ∧ Eligible s p x
    (∀ x, printing x → s.headOfLine = some x) ∧
    ((∀ x, ¬printing x) → (∀ x, prefetched x → s.headOfLine = some x) ∧
      ((∀ x, ¬prefetched x) → s.headOfLine = none))) ∧
  ∀ s : State, s.resetLow = false →
    (s.engine.unit ≠ none → Leads .swathUnitBegin s s ∧ Leads .bandUnitBegin s s) ∧
    (s.headOfLine = none ∨ (∀ i : Fin 4, s.ring.slots[i] ≠ none) → Leads .swathUnitBegin s s ∧
      (s.engine.unit = none →
        (s.engine.jobs = [] → Leads .bandUnitBegin s s) ∧
        ∀ j rest g b e, s.engine.jobs = j :: rest → s.garment j.platen = some g → g.serial = j.serial →
          g.binding = some b → s.extent b.placement = some e → j.cursor ≤ e.bottom / 64 →
          ∃ t reads, Happened .bandUnitBegin s t ∧ s.keeps t [.units, .engine] ∧ t.units.serial = s.units.serial ∧
            PlannedReads s b e (max (64 * j.cursor) e.top) (min (64 * j.cursor + 63) e.bottom) reads ∧
            (∀ q, q ≠ j.platen → t.garment q = s.garment q) ∧
            t.garment j.platen = some { g with pretreat := { g.pretreat with coverage := .scanning } } ∧
            t.engine.jobs = { j with cursor := j.cursor + 1 } :: rest ∧
            t.engine.unit = some
              { kind := .band j.cursor, platen := j.platen, serial := j.serial
                first := max (64 * j.cursor) e.top, last := min (64 * j.cursor + 63) e.bottom
                next := max (64 * j.cursor) e.top, choke := b.recipe.choke, reads := reads, writes := [], discarded := false })) ∧
    ∀ x (i : Fin 4), s.headOfLine = some x → s.engine.unit = none → s.ring.slots[i] = none →
      (∀ k : Fin 4, k < i → s.ring.slots[k] ≠ none) →
      Leads .bandUnitBegin s s ∧
      let g := x.garment
      let e := x.extent
      let q := g.print.produced
      let n := e.bottom / 256 - e.top / 256 + 1
      let dark := x.binding.recipe.dark
      let phase : SwathPhase := if dark = true ∧ q < n then .underbase else .color
      let index := e.top / 256 + (if dark = true ∧ n ≤ q then q - n else q)
      let top := max (256 * index) e.top
      let rows := min (256 * index + 255) e.bottom + 1 - top
      let width := e.right + 1 - e.left
      let length := (match phase with | .underbase => 1 | .color => 4) * (rows * ((width + 3) / 4))
      let base := 0x7C00000 + 0x100000 * i.val
      let planes := match phase with | .underbase => 1 | .color => 4
      ∃ t reads writes, Happened .swathUnitBegin s t ∧ s.keeps t [.units, .engine, .ring] ∧
        t.units.serial = s.units.serial ∧
        PlannedReads s x.binding e top (top + rows - 1) reads ∧
        writes = ((List.range ((length + 63) / 64)).map fun n =>
          (top + (64 * n - (planes - 1) * (rows * ((width + 3) / 4))) / ((width + 3) / 4), base + 64 * n)) ∧
        (∀ k, k ≠ x.platen → t.garment k = s.garment k) ∧
        (∃ h, t.garment x.platen = some h ∧
          h.print.phase = (match phase with | .underbase => .underbase | .color => .color) ∧
          (g.print.count = 0 → h.print.first = e.top / 256 ∧ h.print.last = e.bottom / 256 ∧
            h.print.count = (if dark then 2 * n else n)) ∧
          (g.print.count ≠ 0 → h.print.first = g.print.first ∧ h.print.last = g.print.last ∧
            h.print.count = g.print.count) ∧
          h.print.produced = q ∧ h.print.released = g.print.released ∧ h.print.tallies = g.print.tallies ∧
          { h with print := g.print } = g) ∧
        t.ring = { s.ring with
          slots := upd s.ring.slots i (some ⟨.filling, g.serial, q, phase, top, rows, e.left, width, length⟩)
          order := s.ring.order ++ [i] } ∧
        t.engine.jobs = s.engine.jobs ∧ t.engine.unit = some
          { kind := .swath q phase index i, platen := x.platen, serial := g.serial, first := top, last := top + rows - 1
            next := top, choke := x.binding.recipe.choke, reads := reads, writes := writes, discarded := false }

/-- R99, R100, R104, R127, R132: a swath's weights and a band's planned pulses; a unit ends only with every row read and every block written; a swath unit then makes its slot
READY, counts one swath and adds its weights to the tallies, a band unit writes its eight cells, and a discarded
unit hands on nothing. That the end comes once the planned lists of reads and writes are empty, and that weights and doses
are computed from the memory as it then stands, is log 9. -/
def Obligations.UnitEndHandsOnResults : Prop :=
  (∀ (r : Rect) (phase : SwathPhase) (index : Nat),
    let top := max (256 * index) r.top
    swathShape r phase index = ⟨phase, top, min (256 * index + 255) r.bottom + 1 - top, r.left, r.right + 1 - r.left⟩) ∧
  (∀ (e : PixelInputs) (g : SwathShape) (plane : Nat),
    let weight (level : Nat) : Nat := match level with | 0 => 0 | 1 => 1 | 2 => 2 | _ => 4
    e.weights g plane = ((List.range g.rows).map fun j =>
      ((List.range g.width).map fun i => weight (e.level g plane (g.xStart + i) (g.rowStart + j))).sum).sum) ∧
  (∀ (e : PixelInputs) (band : Nat) (z : Fin 8),
    let presence (x y : Nat) : Nat :=
      let i := stageC e.recipe.inkLimit (stageB (e.stageA x y))
      max (e.w x y) (max i.c (max i.m (max i.y i.k)))
    let cov := ((List.range 64).map fun j => ((List.range 400).map fun i =>
      let x := 400 * z.val + i
      let y := 64 * band + j
      match e.extent with
      | none => 0
      | some r => if r.left ≤ x ∧ x ≤ r.right ∧ r.top ≤ y ∧ y ≤ r.bottom then presence x y else 0).sum).sum /
        (if band = 62 then 12800 else 25600)
    (e.bandDoses band)[z] = if cov < e.recipe.covMin then 0 else (e.recipe.dose * cov + 127) / 255) ∧
  ∀ s : State, s.resetLow = false →
    (s.engine.unit = none → Leads .swathUnitEnd s s ∧ Leads .bandUnitEnd s s) ∧
    ∀ u, s.engine.unit = some u →
      let idle : State := { s with engine := { s.engine with unit := none } }
      (u.reads ≠ [] ∨ u.writes ≠ [] → Leads .swathUnitEnd s s ∧ Leads .bandUnitEnd s s) ∧
      (∀ q phase index slot, u.kind = .swath q phase index slot → Leads .bandUnitEnd s s) ∧
      (∀ k, u.kind = .band k → Leads .swathUnitEnd s s) ∧
      (u.reads = [] → u.writes = [] →
        (∀ q phase index slot, u.kind = .swath q phase index slot →
          (u.discarded = true → Leads .swathUnitEnd s { idle with arbiter := { s.arbiter with
            port := s.arbiter.port.map fun g =>
              if g.requester = .engine ∧ g.fate = .aborted then { g with fate := .dropped } else g } }) ∧
          (u.discarded = false → ∀ g b e w, s.garment u.platen = some g → g.serial = u.serial → g.binding = some b →
            s.extent b.placement = some e → s.ring.slots[slot] = some w →
            let input := s.pixelInputs b.recipe b.placement
            let shape := swathShape e phase index
            let add (x plane : Nat) : Nat := min 4294967295 (x + input.weights shape plane)
            let a := g.print.tallies
            let tallies : Tallies :=
              match phase with
              | .underbase => { a with w := add a.w 0 }
              | .color => { a with c := add a.c 0, m := add a.m 1, y := add a.y 2, k := add a.k 3 }
            Leads .swathUnitEnd s
              (({ idle with ring := { s.ring with slots := upd s.ring.slots slot (some { w with status := .ready }) } }).putGarment
                u.platen (some { g with print := { g.print with produced := g.print.produced + 1, tallies := tallies } })))) ∧
        ∀ k : Fin 63, u.kind = .band k.val →
          (u.discarded = true → Leads .bandUnitEnd s idle) ∧
          (u.discarded = false → ∀ g b e j, s.garment u.platen = some g → g.serial = u.serial → g.binding = some b →
            s.extent b.placement = some e →
            s.engine.jobs.find? (fun j => j.platen == u.platen && j.serial == u.serial) = some j →
            let doses := (s.pixelInputs b.recipe b.placement).bandDoses k.val
            let last := e.bottom / 64 < j.cursor
            ∃ t, Happened .bandUnitEnd s t ∧ s.keeps t [.units, .engine] ∧ t.engine.unit = none ∧
              t.units.serial = s.units.serial ∧
              (last → t.engine.jobs =
                s.engine.jobs.filter fun x => !(x.platen == u.platen && x.serial == u.serial)) ∧
              (¬last → t.engine.jobs = s.engine.jobs) ∧
              (∀ q, q ≠ u.platen → t.garment q = s.garment q) ∧
              t.garment u.platen = some { g with pretreat := { g.pretreat with
                map := upd g.pretreat.map k doses
                planned := g.pretreat.planned + doses.toList.sum
                coverage := if e.bottom / 64 < j.cursor then .complete else g.pretreat.coverage } }))

/-- R128 to R130: a session opens for the finished-pressed garment at S3 in a RUNNING line; its swaths are pulled, up to
480 bytes at a time, and released, each once. What PRINT_READY carries of an empty extent, zeros, is log 14. -/
def Obligations.SessionPullsAndReleases : Prop :=
  ∀ s : State,
    (s.resetLow = false →
      let ready (g : Garment) : Prop := g.disposition = .good ∧
        (g.pretreat.result = .done ∨ g.pretreat.result = .short ∨ g.pretreat.result = .waived) ∧
        (g.press = .done ∨ g.press = .waived) ∧
        (g.print.phase = .none ∨ g.print.phase = .underbase ∨ g.print.phase = .color) ∧ g.stage = .printWait
      (s.ring.session ≠ none ∨ s.track.line ≠ .running ∨ s.garmentAt 3 = none → Leads .printSessionOpen s s) ∧
      (∀ p g, s.garmentAt 3 = some (p, g) → ¬ready g → Leads .printSessionOpen s s) ∧
      ∀ p g b, s.ring.session = none → s.track.line = .running → s.garmentAt 3 = some (p, g) → ready g →
        g.binding = some b →
        let e := s.extent b.placement
        ∃ r : PrintRecord,
          (g.print.count ≠ 0 ∨ e = none → r = g.print) ∧
          (g.print.count = 0 → ∀ x, e = some x →
            let n := x.bottom / 256 - x.top / 256 + 1
            r = { g.print with
              first := x.top / 256, last := x.bottom / 256, count := if b.recipe.dark then 2 * n else n }) ∧
          Leads .printSessionOpen s
            (({ s with ring := { s.ring with session := some ⟨p, g.serial, r.count⟩ } }.putGarment p
              (some { g with print := r, stage := .printing })).raise
              (.printReady p g.serial b.recipe.dark 0 (r.count - 1) r.count r.first r.last
                (match e with | none => 0 | some x => x.left) (match e with | none => 0 | some x => x.right + 1 - x.left)
                r.produced))) ∧
    (∀ r : Ring,
      let occupied := (List.finRange 4).countP fun i =>
        match r.slots[i] with
        | none => false
        | some w => decide (w.status = .ready ∨ w.status = .handed)
      r.level = if occupied = 0 then 0 else if occupied = 1 then 1 else if occupied ≤ 3 then 2 else 3) ∧
    (∀ (v : Via) (q offset : Nat),
      let pull := Instr.swathPull v q offset
      let release := Instr.swathRelease v q
      let both (c : ResultCode) : Prop := (Ready s v 0x2D → Refused pull v 0x2D s c) ∧ (Ready s v 0x2E → Refused release v 0x2E s c)
      (s.ring.session = none → both .state) ∧
      ∀ x g, s.ring.session = some x → s.garment x.platen = some g →
        (x.count ≤ q → both .state) ∧
        (q < x.count →
          (g.print.produced ≤ q → both .notReady) ∧
          (q < g.print.produced →
            let holds (i : Fin 4) (w : Swath) : Prop := s.ring.slots[i] = some w ∧
              (w.status = .ready ∨ w.status = .handed) ∧ w.serial = x.serial ∧ w.sequence = q
            ((∀ i w, ¬holds i w) → both .stale) ∧
            ∀ i w, holds i w → (∀ (k : Fin 4) y, k < i → ¬holds k y) →
              (Ready s v 0x2D →
                (w.length ≤ offset → Refused pull v 0x2D s .range) ∧
                (offset < w.length →
                  let base := 0x7C00000 + 0x100000 * i.val
                  Starts pull v 0x2D s { s with ring := { s.ring with
                    slots := upd s.ring.slots i (some { w with status := .handed })
                    pull := some ⟨v.link, q, offset, base + offset, base + min (offset + 480) w.length, []⟩ } })) ∧
              (Ready s v 0x2E →
                let ring := { s.ring with slots := upd s.ring.slots i none, order := s.ring.order.filter (· != i) }
                Done release v 0x2E s [.u8 ring.level] ({ s with ring := ring }.putGarment x.platen
                  (some { g with print := { g.print with released := g.print.released + 1 } })))))) ∧
    (s.resetLow = false →
      ((∀ x, s.ring.pull = some x → x.next < x.stop) → Leads .swathPullComplete s s) ∧
      ∀ x tag kind, s.ring.pull = some x → x.stop ≤ x.next → (s.link x.link).slot = .inFlight tag kind .working →
        ∃ t, exec .swathPullComplete s = .next t ∧ { s with ring := { s.ring with pull := none } }.keeps t [] ∧
          (t.link x.link).slot = (if (s.link x.link).silent then .free
            else .inFlight tag kind (.ready ⟨.ok, [.u8 x.sequence, .u32 x.offset, .u8 s.ring.level,
              .u16 x.bytes.length, .bytes x.bytes]⟩)) ∧
          ∀ m, m ≠ x.link → (t.link m).slot = (s.link m).slot)

/-- R131, R132: PRINT_END(OK) closes the session once every swath is produced and released; PRINT_END(ABORT) frees the
session garment's slots and no other's, the rest of the order list staying in order, rejects it, and stops its running unit
from counting or writing. The marks on the unit and on its granted burst are the model's own (log 22). -/
def Obligations.PrintEndClosesSession : Prop :=
  ∀ (v : Via) (s : State), Ready s v 0x2F →
    (s.ring.session = none → Refused (.printEndOk v) v 0x2F s .state ∧ Refused (.printEndAbort v) v 0x2F s .state) ∧
    ∀ x g, s.ring.session = some x → s.garment x.platen = some g →
      (g.print.produced ≠ x.count ∨ g.print.released ≠ x.count → Refused (.printEndOk v) v 0x2F s .incomplete) ∧
      (g.print.produced = x.count → g.print.released = x.count →
        Done (.printEndOk v) v 0x2F s [] ({ s with ring := { s.ring with session := none } }.putGarment x.platen
          (some { g with print := { g.print with phase := .complete }, stage := .cureWait }))) ∧
      let mine (i : Fin 4) : Prop := ∃ w, s.ring.slots[i] = some w ∧ w.serial = x.serial
      ∃ t, Answered (.printEndAbort v) v 0x2F s t .ok [] ∧ s.keeps t [.units, .ring, .engine, .arbiter] ∧
        t.units.serial = s.units.serial ∧ t.ring.session = none ∧ t.ring.pull = s.ring.pull ∧
        (∀ i : Fin 4, (mine i → t.ring.slots[i] = none) ∧ (¬mine i → t.ring.slots[i] = s.ring.slots[i])) ∧
        t.ring.order = s.ring.order.filter (fun i => (s.ring.slots[i]).map Swath.serial != some x.serial) ∧
        (∀ p, p ≠ x.platen → t.garment p = s.garment p) ∧
        t.garment x.platen = some { g with print := { g.print with phase := .aborted }, disposition := .reject } ∧
        t.engine.jobs = s.engine.jobs ∧ t.arbiter.fairness = s.arbiter.fairness ∧ t.arbiter.turn = s.arbiter.turn ∧
        (s.engine.unit = none → t.engine.unit = none ∧ t.arbiter = s.arbiter) ∧
        ∀ u, s.engine.unit = some u →
          let swath := ∃ q phase index slot, u.kind = .swath q phase index slot
          (¬swath ∨ u.platen ≠ x.platen ∨ u.serial ≠ x.serial → t.engine.unit = some u ∧ t.arbiter = s.arbiter) ∧
          (swath → u.platen = x.platen → u.serial = x.serial →
            t.engine.unit = some { u with discarded := true, writes := [] } ∧
            (u.reads ≠ [] → t.arbiter = s.arbiter) ∧
            (∀ b, u.reads = [] → s.arbiter.port = some ⟨.engine, b, .live⟩ →
              t.arbiter.port = some ⟨.engine, b, .aborted⟩) ∧
            ((∀ b, s.arbiter.port ≠ some ⟨.engine, b, .live⟩) → t.arbiter = s.arbiter))

/-! ### Curing -/

/-- R138, R139, R141 to R145: the rate table is stored with its thresholds held in range where they then rise; a sample
is integrated, judged for scorch and then for release, and answered with the record it leaves. That the reply has dt in two
bytes, carry and rate in one and the scorch time in two is log 14; that CURE_STALE carries the record as the sample leaves it
and comes before CURE_RESULT is log 12. -/
def Obligations.CureSampleIntegrates : Prop :=
  let listing (x : Vector RateBand 8) : List Field := x.toList.flatMap fun b => [.s16 b.threshold, .u8 b.rate]
  (∀ (v : Via) (bands : Vector RateBand 8) (s : State), Ready s v 0x14 →
    let held (z : Int) : Int := if z < -80 then -80 else if 800 < z then 800 else z
    ∀ x : Vector RateBand 8, (∀ i : Fin 8, x[i] = ⟨held bands[i].threshold, bands[i].rate⟩) →
      ((∃ i j : Fin 8, j.val = i.val + 1 ∧ x[j].threshold ≤ x[i].threshold) →
        Refused (.rateTableSet v bands) v 0x14 s .malformed) ∧
      ((∀ i j : Fin 8, j.val = i.val + 1 → x[i].threshold < x[j].threshold) →
        Done (.rateTableSet v bands) v 0x14 s (listing x) { s with cure := { s.cure with table := x } })) ∧
  (∀ (v : Via) (s : State), Ready s v 0x15 → Done (.rateTableGet v) v 0x15 s (listing s.cure.table) s) ∧
  ∀ (v : Via) (platen : Nat) (temperature : Int) (s : State), Ready s v 0x30 →
    let i := Instr.cureSample v platen temperature
    (16 ≤ platen → Refused i v 0x30 s .range) ∧
    ∀ p : Fin 16, platen = p.val →
      (s.place p ≠ .station 4 → Refused i v 0x30 s .wrongPlaten) ∧
      (s.place p = .station 4 →
        (s.garment p = none → Refused i v 0x30 s .state) ∧
        ∀ g b, s.garment p = some g → g.binding = some b →
          (g.stage ≠ .curing ∨ g.cure.result ≠ .none → Refused i v 0x30 s .state) ∧
          (g.stage = .curing → g.cure.result = .none →
            let dt := match g.cure.lastSample with | none => 0 | some t => min 2000 (s.clock.time - t).toNat
            let theta := if temperature < -80 then -80 else if 800 < temperature then 800 else temperature
            ∀ rate : Nat,
              ((∀ k : Fin 8, theta < s.cure.table[k].threshold) → rate = 0) →
              (∀ k : Fin 8, s.cure.table[k].threshold ≤ theta → (∀ j : Fin 8, k < j → theta < s.cure.table[j].threshold) →
                rate = s.cure.table[k].rate) →
              let credit := min 65535 (g.cure.credit + (rate * dt + g.cure.carry) / 100)
              let carry := (rate * dt + g.cure.carry) % 100
              let scorch := if b.recipe.scorchLimit ≤ theta then min 65535 (g.cure.scorch + dt) else g.cure.scorch
              let result : CureResult := if b.recipe.scorchAllowance < scorch then .scorched
                else if g.cure.required ≤ credit then .released else .none
              let cure : CureRecord := ⟨credit, carry, g.cure.required, some s.clock.time, scorch, false, result⟩
              Done i v 0x30 s
                [.u16 dt, .u8 rate, .u16 credit, .u8 carry, .u16 g.cure.required, .u16 scorch,
                  .u8 (match result with | .none => 0 | .released => 1 | .scorched => 2)]
                (({ s with cure := { s.cure with
                    slot := if result = CureResult.none then s.cure.slot else none
                    stale := if result = CureResult.none then some 5000 else none } }.putGarment p (some { g with
                  cure := cure
                  stage := if result = CureResult.released then Stage.released else g.stage
                  disposition := if result = CureResult.scorched then Disposition.reject else g.disposition })).raiseAll
                  ((if g.cure.stale then [Notice.cureStale p g.serial false credit g.cure.required] else []) ++
                    (if result = CureResult.none then [] else
                      [Notice.cureResult p g.serial result credit g.cure.required scorch b.recipe.scorchAllowance
                        g.print.tallies.w])))))

/-- R140, R145: a GOOD uncured garment that arrives at S4 enters CURING with its required credit fixed and the stale
timer at 5000 ms; a timer that runs out sets the stale mark once. -/
def Obligations.CuringEntryAndStaleTimer : Prop :=
  (∀ (s : State) (p : Fin 16),
    (s.garment p = none → s.cureEntry p = s) ∧
    ∀ g b, s.garment p = some g → g.binding = some b →
      (g.disposition = .reject ∨ g.cure.result ≠ .none → s.cureEntry p = s) ∧
      (g.disposition = .good → g.cure.result = CureResult.none →
        let required := min 65535 (b.recipe.cureBase + g.print.tallies.w / 4096 * b.recipe.whiteStep)
        s.cureEntry p =
          { s.putGarment p (some { g with stage := .curing, cure := { g.cure with required := required } }) with
            cure := { s.cure with slot := some (p, g.serial), stale := some 5000 } })) ∧
  ∀ s : State, s.resetLow = false →
    (s.cure.stale ≠ some 0 ∨ s.cure.slot = none → Leads .staleTimerExpiry s s) ∧
    ∀ p serial, s.cure.stale = some 0 → s.cure.slot = some (p, serial) →
      let u : State := { s with cure := { s.cure with stale := none } }
      ((∀ g, s.garment p = some g → g.serial ≠ serial) → Leads .staleTimerExpiry s u) ∧
      ∀ g, s.garment p = some g → g.serial = serial → Leads .staleTimerExpiry s
        ((u.putGarment p (some { g with cure := { g.cure with stale := true } })).raise
          (.cureStale p serial true g.cure.credit g.cure.required))

/-! ### The shelf -/

/-- R105, R151 to R154: SHELF_PERMIT_SET stores the mask; SHELVE moves a bound garment at S0, or a finished or rejected one at
S5, with its components in use, into the lowest empty slot and leaves the platen EMPTY. The length 60 of the context in the
slot is log 14. -/
def Obligations.ShelveMovesGarment : Prop :=
  (∀ (v : Via) (mask : Nat) (s : State), Ready s v 0x16 →
    (16 ≤ mask → Refused (.shelfPermitSet v mask) v 0x16 s .malformed) ∧
    (mask < 16 → Done (.shelfPermitSet v mask) v 0x16 s []
      { s with shelf := { s.shelf with permit :=
        ⟨mask.testBit 0, mask.testBit 1, mask.testBit 2, mask.testBit 3⟩ } })) ∧
  (∀ (s : State) (p : Fin 16) (g : Garment),
    (g.pretreat.coverage = .queued ∨ g.pretreat.coverage = .scanning → WithdrawsJob p g.serial s (s.withdrawJob p g)) ∧
    (g.pretreat.coverage ≠ .queued → g.pretreat.coverage ≠ .scanning → s.withdrawJob p g = s)) ∧
  ∀ (v : Via) (platen : Nat) (s : State), Ready s v 0x1A →
    let i := Instr.shelve v platen
    (16 ≤ platen → Refused i v 0x1A s .range) ∧
    ∀ p : Fin 16, platen = p.val →
      (s.place p ≠ .station 0 → s.place p ≠ .station 5 → Refused i v 0x1A s .wrongPlaten) ∧
      ((s.place p = .station 0 ∨ s.place p = .station 5) → s.garment p = none → Refused i v 0x1A s .state) ∧
      ∀ g, s.garment p = some g →
        (s.place p = .station 0 → g.binding = none → Refused i v 0x1A s .state) ∧
        (s.place p = .station 5 → g.stage ≠ .released → g.disposition = .good → Refused i v 0x1A s .state) ∧
        ∀ b c, g.binding = some b → g.cls = some c →
          (s.place p = .station 0 ∨ s.place p = .station 5 ∧ (g.stage = .released ∨ g.disposition = .reject)) →
          ((∀ k, s.shelfSlot k ≠ none) → Refused i v 0x1A s .full) ∧
          ∀ k : Fin 8, s.shelfSlot k = none → (∀ j : Fin 8, j < k → s.shelfSlot j ≠ none) →
            let r := g.pretreat
            let pretreat : Option CtxPretreat :=
              if r.result = .interrupted ∨ r.result = .done ∨ r.result = .short ∨
                  (r.result = .waived ∧ (g.press = .done ∨ g.press = .waived))
              then some ⟨r.coverage, r.result, g.press, r.planned, r.issued, r.shortfall⟩ else none
            let a := g.print.tallies
            let units (n : Nat) : Nat := min 65535 (n / 1024)
            let print : Option CtxPrint :=
              if g.print.phase = .underbase ∨ g.print.phase = .color ∨ g.print.phase = .complete
              then some ⟨g.print.phase, g.print.count, g.print.produced, g.print.released, a.w, units a.c, units a.m,
                units a.y, units a.k⟩ else none
            let cure : Option CtxCure :=
              if g.cure.result ≠ .none ∨ 0 < g.cure.credit ∨ 0 < g.cure.carry ∨ 0 < g.cure.scorch
              then some ⟨g.cure.result, g.cure.carry, g.cure.credit, g.cure.required, g.cure.scorch⟩ else none
            let x : Context := ⟨60, g.serial, ⟨g.blank, c, b.order, b.line, decide (g.disposition = .reject), g.orphan,
              g.restored, s.clock.time⟩, pretreat, print, cure⟩
            let present : Components := ⟨true, pretreat.isSome, print.isSome, cure.isSome⟩
            let w := if s.place p = .station 0 then s.withdrawJob p g else s
            Done i v 0x1A s [.word g.serial, .u8 k.val, Reported.components present]
              ((({ w with shelf := { s.shelf with slots := upd s.shelf.slots k (some ⟨x, b.recipe, b.placement⟩) } }.putGarment
                p none).raise (.shelfChange k .saved g.serial present b.order b.line none)).raise
                (.garmentDone p g.serial (some (b.order, b.line)) .shelved g.disposition g.orphan g.restored
                  g.pretreat.result g.pretreat.shortfall g.press g.print.phase g.cure.result g.cure.credit))

/-- R155 to R157: UNSHELVE's checks in order; an accepted restore makes a GOOD, bound garment of the slot's context with
the components it loads, resuming at the first that is not loaded, and empties the slot. -/
def Obligations.UnshelveRestoresContext : Prop :=
  ∀ (v : Via) (slot platen mask : Nat) (s : State), Ready s v 0x1B →
    let i := Instr.unshelve v slot platen mask
    (8 ≤ slot ∨ 16 ≤ platen → Refused i v 0x1B s .range) ∧
    ∀ (k : Fin 8) (p : Fin 16), slot = k.val → platen = p.val →
      (16 ≤ mask → Refused i v 0x1B s .malformed) ∧
      (mask < 16 →
        (s.track.line = .census → Refused i v 0x1B s .state) ∧
        (s.track.line ≠ .census →
          (s.shelfSlot k = none → Refused i v 0x1B s .state) ∧
          ∀ x, s.shelfSlot k = some x →
            (s.place p ≠ .station 0 → Refused i v 0x1B s .wrongPlaten) ∧
            (s.place p = .station 0 → s.garment p ≠ none → Refused i v 0x1B s .state) ∧
            (s.place p = .station 0 → s.garment p = none →
              ((s.art x.placement.art).map Art.status ≠ some .ready → Refused i v 0x1B s .state) ∧
              ((s.art x.placement.art).map Art.status = some .ready →
                let c := x.context
                let used (n : Option Nat) : Nat := n.getD 0
                let usedPretreat := used (c.pretreat.map Reported.pretreatUse)
                let usedPrint := used (c.print.map Reported.printUse)
                let usedCure := used (c.cure.map Reported.cureUse)
                let asked (n : Nat) (permit : Bool) : Bool := mask.testBit n && permit
                let pretreat := asked 1 s.shelf.permit.pretreat && usedPretreat != 0
                let print := asked 2 s.shelf.permit.print && usedPrint != 0
                let cure := asked 3 s.shelf.permit.cure && usedCure != 0
                let loaded : Components := ⟨asked 0 s.shelf.permit.ident, pretreat, print, cure⟩
                let bad := asked 0 s.shelf.permit.ident = false ∨
                  (asked 1 s.shelf.permit.pretreat = true ∧ usedPretreat = 1) ∨
                  (asked 2 s.shelf.permit.print = true ∧ usedPrint = 1) ∨
                  (asked 3 s.shelf.permit.cure = true ∧ usedCure = 1) ∨
                  (usedPretreat ≠ 0 ∧ pretreat = false ∧ (usedPrint ≠ 0 ∨ usedCure ≠ 0)) ∨
                  (usedPrint ≠ 0 ∧ print = false ∧ usedCure ≠ 0)
                (bad → Refused i v 0x1B s .badMask) ∧
                (¬bad →
                  let stage : Stage := if pretreat = false then .matched else if print = false then .printWait
                    else if cure = false then .cureWait else .released
                  let e := s.extent x.placement
                  let sprayed := pretreat = false ∧ x.recipe.pretreat = true
                  let noMap : DoseMap := Vector.replicate 63 (Vector.replicate 8 0)
                  ∃ t g, Answered i v 0x1B s t .ok [.word c.serial, Reported.components loaded,
                      Reported.coded [Stage.loaded, .matched, .spraying, .pressing, .printWait, .printing, .cureWait, .curing,
                        .released] stage] ∧
                    s.keeps t [.units, .engine, .shelf, .notices] ∧
                    s.notified t [.shelfChange k .restored c.serial
                      ⟨true, c.pretreat.isSome, c.print.isSome, c.cure.isSome⟩ c.ident.order c.ident.line (some (p, loaded))] ∧
                    t.shelf = { s.shelf with slots := upd s.shelf.slots k none } ∧
                    t.units = { s.units with garments := upd s.units.garments p (some g) } ∧
                    t.engine.unit = s.engine.unit ∧
                    (sprayed → ∀ a, e = some a → t.engine.jobs = s.engine.jobs ++ [⟨p, c.serial, a.top / 64⟩]) ∧
                    (¬sprayed ∨ e = none → t.engine.jobs = s.engine.jobs) ∧
                    g.serial = c.serial ∧ g.blank = c.ident.blank ∧ g.cls = some c.ident.cls ∧
                    g.binding = some ⟨c.ident.order, c.ident.line, x.recipe, x.placement⟩ ∧ g.stage = stage ∧
                    g.hold = none ∧ g.disposition = .good ∧ g.restored = true ∧
                    (g.orphan = true ↔ ∃ o, s.book.find c.ident.order = some o ∧ o.status = .cancelling) ∧
                    g.pretreat.map = noMap ∧
                    (∀ y, pretreat = true → c.pretreat = some y →
                      g.pretreat = ⟨y.coverage, noMap, y.planned, y.issued, y.shortfall, y.result⟩ ∧
                      g.press = y.press) ∧
                    (pretreat = false → g.press = (if x.recipe.pretreat then .pending else .waived) ∧
                      g.pretreat =
                        { coverage := if x.recipe.pretreat = false then .none else if e = none then .complete else .queued
                          map := noMap, planned := 0, issued := 0, shortfall := 0
                          result := if x.recipe.pretreat then .pending else .waived }) ∧
                    (∀ y, print = true → c.print = some y → g.print.phase = y.phase ∧ g.print.count = y.count ∧
                      g.print.produced = y.produced ∧ g.print.released = y.released ∧
                      g.print.tallies = ⟨1024 * y.c, 1024 * y.m, 1024 * y.y, 1024 * y.k, y.w⟩ ∧
                      ∀ a, e = some a → g.print.first = a.top / 256 ∧ g.print.last = a.bottom / 256) ∧
                    (print = false → g.print = ⟨.none, 0, 0, 0, 0, 0, ⟨0, 0, 0, 0, 0⟩⟩) ∧
                    (∀ y, cure = true → c.cure = some y →
                      g.cure = ⟨y.credit, y.carry, y.required, none, y.scorch, false, y.result⟩) ∧
                    (cure = false → g.cure = ⟨0, 0, 0, none, 0, false, .none⟩))))))

/-- R158, R159: SHELF_DROP writes a context off as spoiled and SHELF_EXPORT hands it out as a record, giving its unit
back; both empty the slot and report it after the counter request's notices. That the notices of a
rematch come after SHELF_CHANGE is log 11. -/
def Obligations.DropAndExportEmptySlot : Prop :=
  ∀ (v : Via) (slot : Nat) (s : State),
    let off (k : Fin 8) (x : ShelfSlot) (c : Counter) (e : ShelfEvent) : State :=
      let u := s.count c x.context.ident.line
      ((({ u.1 with shelf := { s.shelf with slots := upd s.shelf.slots k none } }).raise
        (.shelfChange k e x.context.serial
          ⟨true, x.context.pretreat.isSome, x.context.print.isSome, x.context.cure.isSome⟩ x.context.ident.order
          x.context.ident.line none)).rematchIf u.2)
    (Ready s v 0x19 →
      let i := Instr.shelfDrop v slot
      (8 ≤ slot → Refused i v 0x19 s .range) ∧
      ∀ k : Fin 8, slot = k.val →
        (s.shelfSlot k = none → Refused i v 0x19 s .state) ∧
        ∀ x, s.shelfSlot k = some x → Done i v 0x19 s [.word x.context.serial] (off k x .spoil .dropped)) ∧
    (∀ form : Nat, Ready s v 0x17 →
      let i := Instr.shelfExport v slot form
      (8 ≤ slot → Refused i v 0x17 s .range) ∧
      ∀ k : Fin 8, slot = k.val →
        (1 < form → Refused i v 0x17 s .malformed) ∧
        ∀ f : RecordForm, form = (match f with | .full => 0 | .compact => 1) →
          (s.shelfSlot k = none → Refused i v 0x17 s .state) ∧
          ∀ x, s.shelfSlot k = some x →
            ∀ orphan : Bool, (orphan = true ↔ x.context.ident.orphan = true ∨
              ∃ o, s.book.find x.context.ident.order = some o ∧ o.status = .cancelling) →
            let record := x.context.layout f orphan
            Done i v 0x17 s [.u16 record.length, .bytes record] (off k x .release .exported))

/-- R159 to R161, R181: a record of either form has R181's bytes and reads back as the context it was made of; the MALFORMED
records are those R160 and R181 list (a line index above 511 among them: log 16), and any other has R181's bytes for what is
read from it. SHELF_IMPORT puts it in the lowest empty slot under a fresh serial with its line's reservation. A context held
in a slot keeps the length it came with. -/
def Obligations.ImportReadsExportedRecord : Prop :=
  (∀ (c : Context) (f : RecordForm) (orphan : Bool), c.fits = true →
    (encodeFields (c.record f orphan)).length = f.length c.present ∧
    ∃ r, readRecord (encodeFields (c.record f orphan)) = some r ∧
      r.context c.serial = { c with length := f.length c.present, ident := { c.ident with orphan := orphan } }) ∧
  (∀ (c : Context) (f : RecordForm) (orphan : Bool), encodeFields (c.record f orphan) = c.layout f orphan) ∧
  (∀ record : List Byte, (readRecord record = none ↔ MalformedRecord record) ∧
    ∀ r, readRecord record = some r → ∃ (f : RecordForm) (serial : Word),
      let x := r.context serial
      record = x.layout f x.ident.orphan ∧ x.length = record.length) ∧
  ∀ (v : Via) (record : List Byte) (s : State), Ready s v 0x18 →
    let i := Instr.shelfImport v record
    (readRecord record = none → Refused i v 0x18 s .malformed) ∧
    ∀ r, readRecord record = some r →
      let named (k : Fin 512) (l : Line) : Prop := r.ident.line = k ∧ s.book.lines[k] = some l ∧
        ∃ o, s.book.find r.ident.order = some o ∧ k ∈ o.lines
      ((∀ k l, ¬named k l) → Refused i v 0x18 s .unknown) ∧
      ∀ k l, named k l →
        (l.blank ≠ r.ident.blank → Refused i v 0x18 s .state) ∧
        (l.blank = r.ident.blank →
          ((∀ j, s.shelfSlot j ≠ none) → Refused i v 0x18 s .full) ∧
          ∀ j : Fin 8, s.shelfSlot j = none → (∀ m : Fin 8, m < j → s.shelfSlot m ≠ none) →
            ∀ o, s.book.find l.order = some o →
              (o.status ≠ .opened ∨ l.status ≠ .opened → Refused i v 0x18 s .state) ∧
              (o.status = .opened → l.status = .opened →
                ∃ serial : Word, s.firstSerial serial ∧
                  let x := r.context serial
                  let kept : ShelfSlot := ⟨x, s.book.recipes[x.ident.cls], l.placement⟩
                  let units : Match := { s.units with serial := serial + 1 }
                  let shelf : Shelf := { s.shelf with slots := upd s.shelf.slots j (some kept) }
                  ∃ t, Answered i v 0x18 s t .ok [.u8 j.val, .word serial] ∧ s.keeps t [.book, .units, .shelf, .notices] ∧
                    t.book = s.book.withOneMore k l o ∧ t.units = units ∧ t.shelf = shelf ∧
                    s.notified t (s.book.noticesOfOneMore k l o ++
                      [.shelfChange j .imported serial ⟨true, x.pretreat.isSome, x.print.isSome, x.cure.isSome⟩ x.ident.order
                        k none])))

/-! ### Records and line reset -/

/-- R170, R23, R45, R64, R82, R137, R162: READ changes nothing and replies with the record asked for, field by
field; a key out of range is RANGE, a record that does not exist UNKNOWN, another kind or option MALFORMED. The unchecked
option of the other kinds is log 13, the widths and optional fields R179 does not name are log 14. -/
def Obligations.ReadReportsRecords : Prop :=
  ∀ (v : Via) (kind key option : Nat) (s : State), Ready s v 0x20 →
    let refused := Refused (.read v kind key option) v 0x20 s
    let replies (body : List Field) : Prop := Done (.read v kind key option) v 0x20 s body s
    (8 ≤ kind → refused .malformed) ∧
    (kind = 0 → (16 ≤ key → refused .range) ∧ ∀ p : Fin 16, key = p.val → replies (Reported.platen s p)) ∧
    (kind = 1 → (1 < option → refused .malformed) ∧
      (option ≤ 1 → (16 ≤ key → refused .range) ∧ ∀ p : Fin 16, key = p.val →
        (s.garment p = none → refused .unknown) ∧
        ∀ g, s.garment p = some g → replies (if option = 0 then Reported.garment g else Reported.map p g))) ∧
    (kind = 2 → (s.book.find (BitVec.ofNat 32 key) = none → refused .unknown) ∧
      ∀ o, s.book.find (BitVec.ofNat 32 key) = some o → replies (Reported.order o)) ∧
    (kind = 3 → (512 ≤ key → refused .range) ∧ ∀ i : Fin 512, key = i.val →
      (s.book.lines[i] = none → refused .unknown) ∧ ∀ l, s.book.lines[i] = some l → replies (Reported.line l)) ∧
    (kind = 4 → (64 ≤ key → refused .range) ∧ ∀ h : Fin 64, key = h.val →
      replies (Reported.art s h)) ∧
    (kind = 5 → (8 ≤ key → refused .range) ∧ ∀ i : Fin 8, key = i.val →
      replies (Reported.shelf s i)) ∧
    (kind = 6 → replies (Reported.ring s)) ∧
    (kind = 7 → replies (Reported.status (s.putLink v.link { (s.link v.link) with
      slot := .inFlight v.tag 0x20 .working, silent := false })))

/-- R25, R47, R66, R84, R119, R135, R149, R163, R171: a line reset clears every block's work in one step and keeps its
settings; the notice queues then hold LINE_STATE and PRINT_CANCELLED under the next numbers (R174); its reply waits for
the bursts already granted to abandoned work (R81, R101, R129). The other links' request slots and reply modes stand, but for
the slot of an abandoned pull, which is answered STALE. That a pull whose bursts are all complete keeps its reply,
and what becomes of a notice being sent, is log 26; the burst's marks and a channel's `due` are the model's own (log 22). -/
def Obligations.LineResetClearsWork : Prop :=
  (∀ (v : Via) (s : State), Ready s v 0x1C → RequestInv s →
    ∃ t, exec (.lineReset v) s = .next t ∧ t.lineReset = some v.link ∧
      (t.link v.link).slot = .inFlight v.tag 0x1C .working ∧
      s.keeps t [.track, .book, .units, .store, .arbiter, .engine, .spray, .press, .ring, .cure, .shelf, .lineReset,
        .notices] ∧
      (∀ g, t.seg g = (match s.seg g with | .moving p _ => .jammed p .lineReset false | x => x)) ∧
      (∀ p, (∀ g start, s.seg g ≠ .moving p start) → t.place p = s.place p) ∧
      (∀ g p start, s.seg g = .moving p start → (∀ h x, s.seg h = .moving p x → h = g) → t.place p = .uncertain g) ∧
      (∀ n, t.station n = { s.station n with held := false } ∧ t.lane n = s.lane n) ∧
      t.track.line = (if s.track.line = .running then .stopped else s.track.line) ∧
      t.book.orders = [] ∧ (∀ i : Fin 512, t.book.lines[i] = none) ∧ t.book.catalogue = s.book.catalogue ∧
      t.book.recipes = s.book.recipes ∧ t.book.sequence = s.book.sequence ∧
      (∀ p, t.garment p = none) ∧ t.units.serial = s.units.serial ∧
      (∀ h d, s.art h = some d → t.art h = some (if d.status = .verifying
        then { d with status := .loading, computed := none, rowsChecked := 0 } else d)) ∧
      (∀ h, s.art h = none → t.art h = none) ∧ t.store.palettes = s.store.palettes ∧
      t.store.overlays = s.store.overlays ∧ t.store.verifyQueue = [] ∧ t.store.verify = none ∧
      t.store.write = s.store.write ∧ t.arbiter.fairness = s.arbiter.fairness ∧ t.arbiter.turn = s.arbiter.turn ∧
      (s.arbiter.port = none → t.arbiter.port = none) ∧
      (∀ g, s.arbiter.port = some g →
        let abandoned :=
          (g.requester = .engine ∧ (g.fate = .live ∨ g.fate = .aborted)) ∨ (g.requester = .verify ∧ g.fate = .live) ∨
          (g.requester = .pull ∧ g.fate = .live ∧ ∃ x, s.ring.pull = some x ∧ x.next < x.stop)
        (abandoned → t.arbiter.port = some { g with fate := .droppedByReset }) ∧
        (¬abandoned → t.arbiter.port = some g)) ∧
      t.engine = ⟨[], none⟩ ∧ t.spray.run = none ∧
      (∀ z : Fin 8, t.spray.channels[z] = ⟨0, 0, false, false, false⟩) ∧ t.press = .idle ∧
      (∀ i : Fin 4, t.ring.slots[i] = none) ∧ t.ring.order = [] ∧ t.ring.session = none ∧
      t.cure = { s.cure with slot := none, stale := none } ∧
      (∀ i : Fin 8, t.shelf.slots[i] = none) ∧ t.shelf.permit = s.shelf.permit ∧
      (s.ring.pull = none → t.ring.pull = none) ∧
      (∀ x, s.ring.pull = some x → x.next < x.stop → t.ring.pull = none) ∧
      (∀ x tag kind, s.ring.pull = some x → x.next < x.stop → (s.link x.link).slot = .inFlight tag kind .working →
        (t.link x.link).slot = (if (s.link x.link).silent then .free else .inFlight tag kind (.ready ⟨.stale, []⟩))) ∧
      ((∀ x, s.ring.pull = some x → x.stop ≤ x.next) → t.ring.pull = s.ring.pull) ∧
      (∀ m, m ≠ v.link → (t.link m).silent = (s.link m).silent ∧
        ((∀ x, s.ring.pull = some x → x.next < x.stop → x.link ≠ m) → (t.link m).slot = (s.link m).slot)) ∧
      ∀ l,
        let notices := ([.lineState t.track.line s.inputs.estop.level s.powerFlag] ++
          (match s.ring.session with
            | none => []
            | some x => match s.garment x.platen with
              | none => []
              | some g => [.printCancelled x.platen x.serial x.count g.print.produced g.print.released])).filter
          fun n => (s.link l).mask.getLsbD n.index && decide ((s.link l).receiver ≠ .inBreak)
        (t.link l).lost = false ∧ (t.link l).number = (s.link l).number + BitVec.ofNat 8 notices.length ∧
        (t.link l).queue = notices.zipIdx.map fun x => ⟨(s.link l).number + BitVec.ofNat 8 x.2, s.clock.time, x.1⟩) ∧
  ∀ s : State, s.resetLow = false →
    (s.lineReset = none → Leads .lineResetComplete s s) ∧
    ∀ l, s.lineReset = some l →
      ((∃ r b, s.arbiter.port = some ⟨r, b, .droppedByReset⟩) → Leads .lineResetComplete s s) ∧
      ((∀ r b, s.arbiter.port ≠ some ⟨r, b, .droppedByReset⟩) →
        ∀ tag kind, (s.link l).slot = .inFlight tag kind .working →
          ∃ t, exec .lineResetComplete s = .next t ∧ s.keeps t [.lineReset] ∧ t.lineReset = none ∧
            (t.link l).slot = (if (s.link l).silent then .free else .inFlight tag kind (.ready ⟨.ok, []⟩)) ∧
            (∀ m, (t.link m).silent = (s.link m).silent) ∧ ∀ m, m ≠ l → (t.link m).slot = (s.link m).slot)

/-! ### Invariants and the raster arithmetic -/

/-- R1, R2, R4, R5, R6, R11, R15: every step keeps the track's tables consistent: no lane is loaded beyond its capacity or
holds a platen twice, places, lanes, stations and segments agree, no station is occupied and reserved at once, and nothing
runs or moves during the census. -/
def Obligations.EveryStepKeepsTrack : Prop :=
  ∀ s t : State, TrackInv s.track → step s = .next t → TrackInv t.track

/-- R26, R68, R73, R122, R164, R175, R71, R129, R171: every step keeps the catalogue a set of at most 256, the art extents apart, the
verification queue, the ring's order list, the notice queues' depth, the memory's canonical form, and the requests in flight in step with
the work they wait for. -/
def Obligations.EveryStepKeepsStores : Prop :=
  ∀ s t : State, step s = .next t →
    (StoreInv s.store → StoreInv t.store) ∧
    (RingInv s.ring → RingInv t.ring) ∧ (CatalogueInv s.book → CatalogueInv t.book) ∧
    ((∀ l, LinkInv (s.link l)) → ∀ l, LinkInv (t.link l)) ∧
    (s.mem.wf = true → t.mem.wf = true) ∧
    (RequestInv s → RequestInv t)

/-- R41: every step keeps each line's reserved count equal to the number of garments and shelf contexts bound to it. -/
def Obligations.EveryStepKeepsReservations : Prop :=
  ∀ s t : State, ReservationInv s → step s = .next t → ReservationInv t

/-- While a garment's record stands on its platen, no step but a power-on reset makes a REJECT garment GOOD again or lowers
its cure credit, and the credit stays within 65535 (R48, R142). -/
def Obligations.RejectStandsAndCreditGrows : Prop :=
  ∀ (s t : State) (p : Fin 16) (g h : Garment), step s = .next t → s.garment p = some g → t.garment p = some h →
    g.cure.credit ≤ 65535 →
    (g.disposition = .reject → h.disposition = .reject) ∧ g.cure.credit ≤ h.cure.credit ∧ h.cure.credit ≤ 65535 ∧
    (g.serial = h.serial ∧ g.blank = h.blank)

/-- R86 to R90, R92: what a unit reads, the two footprints, the extent, and the value fetched for a pixel of the field. -/
def Obligations.PixelsAreFetchedFromArt : Prop :=
  (∀ (s : State) (r : Recipe) (p : Placement),
    let e := s.pixelInputs r p
    e.recipe = r ∧ e.placement = p ∧ e.art = s.art p.art ∧ e.mem = s.mem ∧ e.extent = s.extent p ∧
    (∀ d, s.art p.art = some d → e.palette = s.store.palettes[d.palette]) ∧
    e.overlay = p.overlay.map fun o => (o, s.store.overlays[o.index])) ∧
  (let holds (r : Rect) (x y : Nat) : Prop := r.left ≤ x ∧ x ≤ r.right ∧ r.top ≤ y ∧ y ≤ r.bottom
   (∀ (p : Placement) (d : Art) (x y : Nat),
     (∃ r, artFootprint p d = some r ∧ holds r x y) ↔
       ∃ i j, i < p.width ∧ j < p.height ∧ p.col0 + i < d.width ∧ p.row0 + j < d.height ∧ x = p.ox + i ∧ y = p.oy + j ∧
         x < 3200 ∧ y < 4000) ∧
   (∀ (p : Placement) (d : Art) (r : Rect), artFootprint p d = some r → holds r r.left r.top ∧ holds r r.right r.bottom) ∧
   (∀ (o : OverlayAt) (x y : Nat),
     (∃ r, overlayFootprint o = some r ∧ holds r x y) ↔
       o.vx ≤ x ∧ (x : Int) ≤ o.vx + 63 ∧ x < 3200 ∧ o.vy ≤ y ∧ (y : Int) ≤ o.vy + 63 ∧ y < 4000) ∧
   (∀ (o : OverlayAt) (r : Rect), overlayFootprint o = some r → holds r r.left r.top ∧ holds r r.right r.bottom) ∧
   ∀ e : PixelInputs,
     let art (x y : Nat) : Prop := ∃ d r, e.art = some d ∧ artFootprint e.placement d = some r ∧ holds r x y
     let covered (x y : Nat) : Prop :=
       art x y ∨ ∃ o r, e.placement.overlay = some o ∧ overlayFootprint o = some r ∧ holds r x y
     (e.extent = none ↔ ∀ x y, ¬covered x y) ∧
     (∀ r, e.extent = some r → (∀ x y, covered x y → holds r x y) ∧
       ∀ q : Rect, (∀ x y, covered x y → holds q x y) →
         q.left ≤ r.left ∧ r.right ≤ q.right ∧ q.top ≤ r.top ∧ r.bottom ≤ q.bottom) ∧
     ∀ x y : Nat,
       (¬art x y → e.fetch x y = ⟨0, 0, 0, 0, 0⟩) ∧
       ∀ d, e.art = some d → art x y →
         let col := e.placement.col0 + (x - e.placement.ox)
         let row := e.placement.row0 + (y - e.placement.oy)
         let at_ (n : Nat) : Nat := (e.mem.read (d.base + row * d.stride + n)).toNat
         (d.format = .idx4 → ∀ i : Fin 256, i.val = (if col % 2 = 0 then at_ (col / 2) / 16 else at_ (col / 2) % 16) →
           e.fetch x y = e.palette[i]) ∧
         (d.format = .idx8 → ∀ i : Fin 256, i.val = at_ col → e.fetch x y = e.palette[i]) ∧
         (d.format = .cmyka → e.fetch x y =
           ⟨at_ (5 * col), at_ (5 * col + 1), at_ (5 * col + 2), at_ (5 * col + 3), at_ (5 * col + 4)⟩))

/-- R93 to R98, stage by stage: the overlay's codes over the fetched value, coverage, the ink limit, the underbase, the
choke, and the drop level. -/
def Obligations.PixelStagesGiveDropLevels : Prop :=
  (∀ (e : PixelInputs) (x y : Nat), (e.overlay = none → e.stageA x y = e.fetch x y) ∧
    ∀ o v, e.overlay = some (o, v) →
      (¬(o.vx ≤ x ∧ (x : Int) ≤ o.vx + 63 ∧ x < 3200 ∧ o.vy ≤ y ∧ (y : Int) ≤ o.vy + 63 ∧ y < 4000) →
        e.stageA x y = e.fetch x y) ∧
      ∀ col row : Fin 64, (x : Int) = o.vx + col.val → (y : Int) = o.vy + row.val → x < 3200 → y < 4000 →
        e.stageA x y =
          (match v.codes[row][col] with
            | .transparent => e.fetch x y
            | .colourA => ⟨v.a.c, v.a.m, v.a.y, v.a.k, 255⟩
            | .colourB => ⟨v.b.c, v.b.m, v.b.y, v.b.k, 255⟩
            | .knockout => ⟨0, 0, 0, 0, 0⟩)) ∧
  (∀ i : Ink,
    let o := stageB i
    let scaled (x : Nat) : Nat := (x * i.a + 127) / 255
    o = ⟨scaled i.c, scaled i.m, scaled i.y, scaled i.k, i.a⟩ ∧
    (i.a ≤ 255 → o.c ≤ i.c ∧ o.m ≤ i.m ∧ o.y ≤ i.y ∧ o.k ≤ i.k) ∧
    (i.a = 255 → o = i) ∧ (i.a = 0 → o = ⟨0, 0, 0, 0, 0⟩)) ∧
  (∀ (limit : Nat) (i : Ink),
    let o := stageC limit i
    let t := i.c + i.m + i.y + i.k
    o.c + o.m + o.y + o.k ≤ limit ∧ o.c ≤ i.c ∧ o.m ≤ i.m ∧ o.y ≤ i.y ∧ o.k ≤ i.k ∧ o.a = i.a ∧
    (t ≤ limit → o = i) ∧
    (limit < t → o = ⟨i.c * limit / t, i.m * limit / t, i.y * limit / t, i.k * limit / t, i.a⟩ ∧
      limit ≤ o.c + o.m + o.y + o.k + 3)) ∧
  (∀ (r : Recipe) (i : Ink), (r.dark = false → stageD r i = 0) ∧
    (r.dark = true →
      let w0 := (i.a * r.underbase + 127) / 255
      let knockout := i.k * r.knockout / 255
      stageD r i = (if knockout ≤ w0 then w0 - knockout else 0) ∧ (r.underbase ≤ 255 → stageD r i ≤ w0 ∧ w0 ≤ i.a))) ∧
  (∀ e : PixelInputs,
    let inside (x y : Int) : Prop := ∃ r, e.extent = some r ∧ r.left ≤ x ∧ x ≤ r.right ∧ r.top ≤ y ∧ y ≤ r.bottom
    (∀ x y : Int, ¬inside x y → e.w1 x y = 0) ∧
    ∀ x y : Nat,
      (inside x y → e.w1 x y = stageD e.recipe (stageC e.recipe.inkLimit (stageB (e.stageA x y)))) ∧
      (∀ u v : Int, |u - x| ≤ e.recipe.choke → |v - y| ≤ e.recipe.choke → e.w x y ≤ e.w1 u v) ∧
      (∃ u v : Int, |u - x| ≤ e.recipe.choke ∧ |v - y| ≤ e.recipe.choke ∧ e.w x y = e.w1 u v) ∧
      (let i := stageC e.recipe.inkLimit (stageB (e.stageA x y))
       e.planeValue .underbase 0 x y = e.w x y ∧ e.planeValue .color 0 x y = i.c ∧ e.planeValue .color 1 x y = i.m ∧
       e.planeValue .color 2 x y = i.y ∧ e.planeValue .color 3 x y = i.k) ∧
      ∀ (g : SwathShape) (plane : Nat), x < g.xStart + g.width →
        e.level g plane x y = dropLevel (e.planeValue g.phase plane x y) x y) ∧
  ∀ v x y : Nat, v ≤ 255 →
    let base := 3 * v / 255
    let b := (match y % 4, x % 4 with
      | 0, 0 => 0 | 0, 1 => 8 | 0, 2 => 2 | 0, _ => 10
      | 1, 0 => 12 | 1, 1 => 4 | 1, 2 => 14 | 1, _ => 6
      | 2, 0 => 3 | 2, 1 => 11 | 2, 2 => 1 | 2, _ => 9
      | _, 0 => 15 | _, 1 => 7 | _, 2 => 13 | _, _ => 5)
    let t := (2 * b + 1) * 255 / 32
    dropLevel v x y = (if base = 3 then 3 else if t < 3 * v - 255 * base then base + 1 else base) ∧
    dropLevel v x y ≤ 3 ∧ (base = 3 ↔ v = 255)

end
end

