-- ==== Sys2Proof/Laws/State.lean ====
section
/-! SUPPORT. What each setter of State.lean's record leaves in each field: all true by rfl. -/

namespace Sys2Proof.Machine

@[simp] theorem State.setClock_pending (s : State) (x : Clock) : (s.setClock x).pending = s.pending := rfl
@[simp] theorem State.setClock_resetLow (s : State) (x : Clock) : (s.setClock x).resetLow = s.resetLow := rfl
@[simp] theorem State.setClock_powerFlag (s : State) (x : Clock) : (s.setClock x).powerFlag = s.powerFlag := rfl
@[simp] theorem State.setClock_clock (s : State) (x : Clock) : (s.setClock x).clock = x := rfl
@[simp] theorem State.setClock_inputs (s : State) (x : Clock) : (s.setClock x).inputs = s.inputs := rfl
@[simp] theorem State.setClock_track (s : State) (x : Clock) : (s.setClock x).track = s.track := rfl
@[simp] theorem State.setClock_book (s : State) (x : Clock) : (s.setClock x).book = s.book := rfl
@[simp] theorem State.setClock_units (s : State) (x : Clock) : (s.setClock x).units = s.units := rfl
@[simp] theorem State.setClock_store (s : State) (x : Clock) : (s.setClock x).store = s.store := rfl
@[simp] theorem State.setClock_arbiter (s : State) (x : Clock) : (s.setClock x).arbiter = s.arbiter := rfl
@[simp] theorem State.setClock_mem (s : State) (x : Clock) : (s.setClock x).mem = s.mem := rfl
@[simp] theorem State.setClock_engine (s : State) (x : Clock) : (s.setClock x).engine = s.engine := rfl
@[simp] theorem State.setClock_spray (s : State) (x : Clock) : (s.setClock x).spray = s.spray := rfl
@[simp] theorem State.setClock_press (s : State) (x : Clock) : (s.setClock x).press = s.press := rfl
@[simp] theorem State.setClock_ring (s : State) (x : Clock) : (s.setClock x).ring = s.ring := rfl
@[simp] theorem State.setClock_cure (s : State) (x : Clock) : (s.setClock x).cure = s.cure := rfl
@[simp] theorem State.setClock_shelf (s : State) (x : Clock) : (s.setClock x).shelf = s.shelf := rfl
@[simp] theorem State.setClock_links (s : State) (x : Clock) : (s.setClock x).links = s.links := rfl
@[simp] theorem State.setClock_lineReset (s : State) (x : Clock) : (s.setClock x).lineReset = s.lineReset := rfl
@[simp] theorem State.setClock_indicators (s : State) (x : Clock) : (s.setClock x).indicators = s.indicators := rfl

@[simp] theorem State.setInputs_pending (s : State) (x : Inputs) : (s.setInputs x).pending = s.pending := rfl
@[simp] theorem State.setInputs_resetLow (s : State) (x : Inputs) : (s.setInputs x).resetLow = s.resetLow := rfl
@[simp] theorem State.setInputs_powerFlag (s : State) (x : Inputs) : (s.setInputs x).powerFlag = s.powerFlag := rfl
@[simp] theorem State.setInputs_clock (s : State) (x : Inputs) : (s.setInputs x).clock = s.clock := rfl
@[simp] theorem State.setInputs_inputs (s : State) (x : Inputs) : (s.setInputs x).inputs = x := rfl
@[simp] theorem State.setInputs_track (s : State) (x : Inputs) : (s.setInputs x).track = s.track := rfl
@[simp] theorem State.setInputs_book (s : State) (x : Inputs) : (s.setInputs x).book = s.book := rfl
@[simp] theorem State.setInputs_units (s : State) (x : Inputs) : (s.setInputs x).units = s.units := rfl
@[simp] theorem State.setInputs_store (s : State) (x : Inputs) : (s.setInputs x).store = s.store := rfl
@[simp] theorem State.setInputs_arbiter (s : State) (x : Inputs) : (s.setInputs x).arbiter = s.arbiter := rfl
@[simp] theorem State.setInputs_mem (s : State) (x : Inputs) : (s.setInputs x).mem = s.mem := rfl
@[simp] theorem State.setInputs_engine (s : State) (x : Inputs) : (s.setInputs x).engine = s.engine := rfl
@[simp] theorem State.setInputs_spray (s : State) (x : Inputs) : (s.setInputs x).spray = s.spray := rfl
@[simp] theorem State.setInputs_press (s : State) (x : Inputs) : (s.setInputs x).press = s.press := rfl
@[simp] theorem State.setInputs_ring (s : State) (x : Inputs) : (s.setInputs x).ring = s.ring := rfl
@[simp] theorem State.setInputs_cure (s : State) (x : Inputs) : (s.setInputs x).cure = s.cure := rfl
@[simp] theorem State.setInputs_shelf (s : State) (x : Inputs) : (s.setInputs x).shelf = s.shelf := rfl
@[simp] theorem State.setInputs_links (s : State) (x : Inputs) : (s.setInputs x).links = s.links := rfl
@[simp] theorem State.setInputs_lineReset (s : State) (x : Inputs) : (s.setInputs x).lineReset = s.lineReset := rfl
@[simp] theorem State.setInputs_indicators (s : State) (x : Inputs) : (s.setInputs x).indicators = s.indicators := rfl

@[simp] theorem State.setTrack_pending (s : State) (x : Track) : (s.setTrack x).pending = s.pending := rfl
@[simp] theorem State.setTrack_resetLow (s : State) (x : Track) : (s.setTrack x).resetLow = s.resetLow := rfl
@[simp] theorem State.setTrack_powerFlag (s : State) (x : Track) : (s.setTrack x).powerFlag = s.powerFlag := rfl
@[simp] theorem State.setTrack_clock (s : State) (x : Track) : (s.setTrack x).clock = s.clock := rfl
@[simp] theorem State.setTrack_inputs (s : State) (x : Track) : (s.setTrack x).inputs = s.inputs := rfl
@[simp] theorem State.setTrack_track (s : State) (x : Track) : (s.setTrack x).track = x := rfl
@[simp] theorem State.setTrack_book (s : State) (x : Track) : (s.setTrack x).book = s.book := rfl
@[simp] theorem State.setTrack_units (s : State) (x : Track) : (s.setTrack x).units = s.units := rfl
@[simp] theorem State.setTrack_store (s : State) (x : Track) : (s.setTrack x).store = s.store := rfl
@[simp] theorem State.setTrack_arbiter (s : State) (x : Track) : (s.setTrack x).arbiter = s.arbiter := rfl
@[simp] theorem State.setTrack_mem (s : State) (x : Track) : (s.setTrack x).mem = s.mem := rfl
@[simp] theorem State.setTrack_engine (s : State) (x : Track) : (s.setTrack x).engine = s.engine := rfl
@[simp] theorem State.setTrack_spray (s : State) (x : Track) : (s.setTrack x).spray = s.spray := rfl
@[simp] theorem State.setTrack_press (s : State) (x : Track) : (s.setTrack x).press = s.press := rfl
@[simp] theorem State.setTrack_ring (s : State) (x : Track) : (s.setTrack x).ring = s.ring := rfl
@[simp] theorem State.setTrack_cure (s : State) (x : Track) : (s.setTrack x).cure = s.cure := rfl
@[simp] theorem State.setTrack_shelf (s : State) (x : Track) : (s.setTrack x).shelf = s.shelf := rfl
@[simp] theorem State.setTrack_links (s : State) (x : Track) : (s.setTrack x).links = s.links := rfl
@[simp] theorem State.setTrack_lineReset (s : State) (x : Track) : (s.setTrack x).lineReset = s.lineReset := rfl
@[simp] theorem State.setTrack_indicators (s : State) (x : Track) : (s.setTrack x).indicators = s.indicators := rfl

@[simp] theorem State.setBook_pending (s : State) (x : Book) : (s.setBook x).pending = s.pending := rfl
@[simp] theorem State.setBook_resetLow (s : State) (x : Book) : (s.setBook x).resetLow = s.resetLow := rfl
@[simp] theorem State.setBook_powerFlag (s : State) (x : Book) : (s.setBook x).powerFlag = s.powerFlag := rfl
@[simp] theorem State.setBook_clock (s : State) (x : Book) : (s.setBook x).clock = s.clock := rfl
@[simp] theorem State.setBook_inputs (s : State) (x : Book) : (s.setBook x).inputs = s.inputs := rfl
@[simp] theorem State.setBook_track (s : State) (x : Book) : (s.setBook x).track = s.track := rfl
@[simp] theorem State.setBook_book (s : State) (x : Book) : (s.setBook x).book = x := rfl
@[simp] theorem State.setBook_units (s : State) (x : Book) : (s.setBook x).units = s.units := rfl
@[simp] theorem State.setBook_store (s : State) (x : Book) : (s.setBook x).store = s.store := rfl
@[simp] theorem State.setBook_arbiter (s : State) (x : Book) : (s.setBook x).arbiter = s.arbiter := rfl
@[simp] theorem State.setBook_mem (s : State) (x : Book) : (s.setBook x).mem = s.mem := rfl
@[simp] theorem State.setBook_engine (s : State) (x : Book) : (s.setBook x).engine = s.engine := rfl
@[simp] theorem State.setBook_spray (s : State) (x : Book) : (s.setBook x).spray = s.spray := rfl
@[simp] theorem State.setBook_press (s : State) (x : Book) : (s.setBook x).press = s.press := rfl
@[simp] theorem State.setBook_ring (s : State) (x : Book) : (s.setBook x).ring = s.ring := rfl
@[simp] theorem State.setBook_cure (s : State) (x : Book) : (s.setBook x).cure = s.cure := rfl
@[simp] theorem State.setBook_shelf (s : State) (x : Book) : (s.setBook x).shelf = s.shelf := rfl
@[simp] theorem State.setBook_links (s : State) (x : Book) : (s.setBook x).links = s.links := rfl
@[simp] theorem State.setBook_lineReset (s : State) (x : Book) : (s.setBook x).lineReset = s.lineReset := rfl
@[simp] theorem State.setBook_indicators (s : State) (x : Book) : (s.setBook x).indicators = s.indicators := rfl

@[simp] theorem State.setUnits_pending (s : State) (x : Match) : (s.setUnits x).pending = s.pending := rfl
@[simp] theorem State.setUnits_resetLow (s : State) (x : Match) : (s.setUnits x).resetLow = s.resetLow := rfl
@[simp] theorem State.setUnits_powerFlag (s : State) (x : Match) : (s.setUnits x).powerFlag = s.powerFlag := rfl
@[simp] theorem State.setUnits_clock (s : State) (x : Match) : (s.setUnits x).clock = s.clock := rfl
@[simp] theorem State.setUnits_inputs (s : State) (x : Match) : (s.setUnits x).inputs = s.inputs := rfl
@[simp] theorem State.setUnits_track (s : State) (x : Match) : (s.setUnits x).track = s.track := rfl
@[simp] theorem State.setUnits_book (s : State) (x : Match) : (s.setUnits x).book = s.book := rfl
@[simp] theorem State.setUnits_units (s : State) (x : Match) : (s.setUnits x).units = x := rfl
@[simp] theorem State.setUnits_store (s : State) (x : Match) : (s.setUnits x).store = s.store := rfl
@[simp] theorem State.setUnits_arbiter (s : State) (x : Match) : (s.setUnits x).arbiter = s.arbiter := rfl
@[simp] theorem State.setUnits_mem (s : State) (x : Match) : (s.setUnits x).mem = s.mem := rfl
@[simp] theorem State.setUnits_engine (s : State) (x : Match) : (s.setUnits x).engine = s.engine := rfl
@[simp] theorem State.setUnits_spray (s : State) (x : Match) : (s.setUnits x).spray = s.spray := rfl
@[simp] theorem State.setUnits_press (s : State) (x : Match) : (s.setUnits x).press = s.press := rfl
@[simp] theorem State.setUnits_ring (s : State) (x : Match) : (s.setUnits x).ring = s.ring := rfl
@[simp] theorem State.setUnits_cure (s : State) (x : Match) : (s.setUnits x).cure = s.cure := rfl
@[simp] theorem State.setUnits_shelf (s : State) (x : Match) : (s.setUnits x).shelf = s.shelf := rfl
@[simp] theorem State.setUnits_links (s : State) (x : Match) : (s.setUnits x).links = s.links := rfl
@[simp] theorem State.setUnits_lineReset (s : State) (x : Match) : (s.setUnits x).lineReset = s.lineReset := rfl
@[simp] theorem State.setUnits_indicators (s : State) (x : Match) : (s.setUnits x).indicators = s.indicators := rfl

@[simp] theorem State.setStore_pending (s : State) (x : Store) : (s.setStore x).pending = s.pending := rfl
@[simp] theorem State.setStore_resetLow (s : State) (x : Store) : (s.setStore x).resetLow = s.resetLow := rfl
@[simp] theorem State.setStore_powerFlag (s : State) (x : Store) : (s.setStore x).powerFlag = s.powerFlag := rfl
@[simp] theorem State.setStore_clock (s : State) (x : Store) : (s.setStore x).clock = s.clock := rfl
@[simp] theorem State.setStore_inputs (s : State) (x : Store) : (s.setStore x).inputs = s.inputs := rfl
@[simp] theorem State.setStore_track (s : State) (x : Store) : (s.setStore x).track = s.track := rfl
@[simp] theorem State.setStore_book (s : State) (x : Store) : (s.setStore x).book = s.book := rfl
@[simp] theorem State.setStore_units (s : State) (x : Store) : (s.setStore x).units = s.units := rfl
@[simp] theorem State.setStore_store (s : State) (x : Store) : (s.setStore x).store = x := rfl
@[simp] theorem State.setStore_arbiter (s : State) (x : Store) : (s.setStore x).arbiter = s.arbiter := rfl
@[simp] theorem State.setStore_mem (s : State) (x : Store) : (s.setStore x).mem = s.mem := rfl
@[simp] theorem State.setStore_engine (s : State) (x : Store) : (s.setStore x).engine = s.engine := rfl
@[simp] theorem State.setStore_spray (s : State) (x : Store) : (s.setStore x).spray = s.spray := rfl
@[simp] theorem State.setStore_press (s : State) (x : Store) : (s.setStore x).press = s.press := rfl
@[simp] theorem State.setStore_ring (s : State) (x : Store) : (s.setStore x).ring = s.ring := rfl
@[simp] theorem State.setStore_cure (s : State) (x : Store) : (s.setStore x).cure = s.cure := rfl
@[simp] theorem State.setStore_shelf (s : State) (x : Store) : (s.setStore x).shelf = s.shelf := rfl
@[simp] theorem State.setStore_links (s : State) (x : Store) : (s.setStore x).links = s.links := rfl
@[simp] theorem State.setStore_lineReset (s : State) (x : Store) : (s.setStore x).lineReset = s.lineReset := rfl
@[simp] theorem State.setStore_indicators (s : State) (x : Store) : (s.setStore x).indicators = s.indicators := rfl

@[simp] theorem State.setArbiter_pending (s : State) (x : Arbiter) : (s.setArbiter x).pending = s.pending := rfl
@[simp] theorem State.setArbiter_resetLow (s : State) (x : Arbiter) : (s.setArbiter x).resetLow = s.resetLow := rfl
@[simp] theorem State.setArbiter_powerFlag (s : State) (x : Arbiter) : (s.setArbiter x).powerFlag = s.powerFlag := rfl
@[simp] theorem State.setArbiter_clock (s : State) (x : Arbiter) : (s.setArbiter x).clock = s.clock := rfl
@[simp] theorem State.setArbiter_inputs (s : State) (x : Arbiter) : (s.setArbiter x).inputs = s.inputs := rfl
@[simp] theorem State.setArbiter_track (s : State) (x : Arbiter) : (s.setArbiter x).track = s.track := rfl
@[simp] theorem State.setArbiter_book (s : State) (x : Arbiter) : (s.setArbiter x).book = s.book := rfl
@[simp] theorem State.setArbiter_units (s : State) (x : Arbiter) : (s.setArbiter x).units = s.units := rfl
@[simp] theorem State.setArbiter_store (s : State) (x : Arbiter) : (s.setArbiter x).store = s.store := rfl
@[simp] theorem State.setArbiter_arbiter (s : State) (x : Arbiter) : (s.setArbiter x).arbiter = x := rfl
@[simp] theorem State.setArbiter_mem (s : State) (x : Arbiter) : (s.setArbiter x).mem = s.mem := rfl
@[simp] theorem State.setArbiter_engine (s : State) (x : Arbiter) : (s.setArbiter x).engine = s.engine := rfl
@[simp] theorem State.setArbiter_spray (s : State) (x : Arbiter) : (s.setArbiter x).spray = s.spray := rfl
@[simp] theorem State.setArbiter_press (s : State) (x : Arbiter) : (s.setArbiter x).press = s.press := rfl
@[simp] theorem State.setArbiter_ring (s : State) (x : Arbiter) : (s.setArbiter x).ring = s.ring := rfl
@[simp] theorem State.setArbiter_cure (s : State) (x : Arbiter) : (s.setArbiter x).cure = s.cure := rfl
@[simp] theorem State.setArbiter_shelf (s : State) (x : Arbiter) : (s.setArbiter x).shelf = s.shelf := rfl
@[simp] theorem State.setArbiter_links (s : State) (x : Arbiter) : (s.setArbiter x).links = s.links := rfl
@[simp] theorem State.setArbiter_lineReset (s : State) (x : Arbiter) : (s.setArbiter x).lineReset = s.lineReset := rfl
@[simp] theorem State.setArbiter_indicators (s : State) (x : Arbiter) : (s.setArbiter x).indicators = s.indicators := rfl

@[simp] theorem State.setMem_pending (s : State) (x : Memory) : (s.setMem x).pending = s.pending := rfl
@[simp] theorem State.setMem_resetLow (s : State) (x : Memory) : (s.setMem x).resetLow = s.resetLow := rfl
@[simp] theorem State.setMem_powerFlag (s : State) (x : Memory) : (s.setMem x).powerFlag = s.powerFlag := rfl
@[simp] theorem State.setMem_clock (s : State) (x : Memory) : (s.setMem x).clock = s.clock := rfl
@[simp] theorem State.setMem_inputs (s : State) (x : Memory) : (s.setMem x).inputs = s.inputs := rfl
@[simp] theorem State.setMem_track (s : State) (x : Memory) : (s.setMem x).track = s.track := rfl
@[simp] theorem State.setMem_book (s : State) (x : Memory) : (s.setMem x).book = s.book := rfl
@[simp] theorem State.setMem_units (s : State) (x : Memory) : (s.setMem x).units = s.units := rfl
@[simp] theorem State.setMem_store (s : State) (x : Memory) : (s.setMem x).store = s.store := rfl
@[simp] theorem State.setMem_arbiter (s : State) (x : Memory) : (s.setMem x).arbiter = s.arbiter := rfl
@[simp] theorem State.setMem_mem (s : State) (x : Memory) : (s.setMem x).mem = x := rfl
@[simp] theorem State.setMem_engine (s : State) (x : Memory) : (s.setMem x).engine = s.engine := rfl
@[simp] theorem State.setMem_spray (s : State) (x : Memory) : (s.setMem x).spray = s.spray := rfl
@[simp] theorem State.setMem_press (s : State) (x : Memory) : (s.setMem x).press = s.press := rfl
@[simp] theorem State.setMem_ring (s : State) (x : Memory) : (s.setMem x).ring = s.ring := rfl
@[simp] theorem State.setMem_cure (s : State) (x : Memory) : (s.setMem x).cure = s.cure := rfl
@[simp] theorem State.setMem_shelf (s : State) (x : Memory) : (s.setMem x).shelf = s.shelf := rfl
@[simp] theorem State.setMem_links (s : State) (x : Memory) : (s.setMem x).links = s.links := rfl
@[simp] theorem State.setMem_lineReset (s : State) (x : Memory) : (s.setMem x).lineReset = s.lineReset := rfl
@[simp] theorem State.setMem_indicators (s : State) (x : Memory) : (s.setMem x).indicators = s.indicators := rfl

@[simp] theorem State.setEngine_pending (s : State) (x : Engine) : (s.setEngine x).pending = s.pending := rfl
@[simp] theorem State.setEngine_resetLow (s : State) (x : Engine) : (s.setEngine x).resetLow = s.resetLow := rfl
@[simp] theorem State.setEngine_powerFlag (s : State) (x : Engine) : (s.setEngine x).powerFlag = s.powerFlag := rfl
@[simp] theorem State.setEngine_clock (s : State) (x : Engine) : (s.setEngine x).clock = s.clock := rfl
@[simp] theorem State.setEngine_inputs (s : State) (x : Engine) : (s.setEngine x).inputs = s.inputs := rfl
@[simp] theorem State.setEngine_track (s : State) (x : Engine) : (s.setEngine x).track = s.track := rfl
@[simp] theorem State.setEngine_book (s : State) (x : Engine) : (s.setEngine x).book = s.book := rfl
@[simp] theorem State.setEngine_units (s : State) (x : Engine) : (s.setEngine x).units = s.units := rfl
@[simp] theorem State.setEngine_store (s : State) (x : Engine) : (s.setEngine x).store = s.store := rfl
@[simp] theorem State.setEngine_arbiter (s : State) (x : Engine) : (s.setEngine x).arbiter = s.arbiter := rfl
@[simp] theorem State.setEngine_mem (s : State) (x : Engine) : (s.setEngine x).mem = s.mem := rfl
@[simp] theorem State.setEngine_engine (s : State) (x : Engine) : (s.setEngine x).engine = x := rfl
@[simp] theorem State.setEngine_spray (s : State) (x : Engine) : (s.setEngine x).spray = s.spray := rfl
@[simp] theorem State.setEngine_press (s : State) (x : Engine) : (s.setEngine x).press = s.press := rfl
@[simp] theorem State.setEngine_ring (s : State) (x : Engine) : (s.setEngine x).ring = s.ring := rfl
@[simp] theorem State.setEngine_cure (s : State) (x : Engine) : (s.setEngine x).cure = s.cure := rfl
@[simp] theorem State.setEngine_shelf (s : State) (x : Engine) : (s.setEngine x).shelf = s.shelf := rfl
@[simp] theorem State.setEngine_links (s : State) (x : Engine) : (s.setEngine x).links = s.links := rfl
@[simp] theorem State.setEngine_lineReset (s : State) (x : Engine) : (s.setEngine x).lineReset = s.lineReset := rfl
@[simp] theorem State.setEngine_indicators (s : State) (x : Engine) : (s.setEngine x).indicators = s.indicators := rfl

@[simp] theorem State.setSpray_pending (s : State) (x : Spray) : (s.setSpray x).pending = s.pending := rfl
@[simp] theorem State.setSpray_resetLow (s : State) (x : Spray) : (s.setSpray x).resetLow = s.resetLow := rfl
@[simp] theorem State.setSpray_powerFlag (s : State) (x : Spray) : (s.setSpray x).powerFlag = s.powerFlag := rfl
@[simp] theorem State.setSpray_clock (s : State) (x : Spray) : (s.setSpray x).clock = s.clock := rfl
@[simp] theorem State.setSpray_inputs (s : State) (x : Spray) : (s.setSpray x).inputs = s.inputs := rfl
@[simp] theorem State.setSpray_track (s : State) (x : Spray) : (s.setSpray x).track = s.track := rfl
@[simp] theorem State.setSpray_book (s : State) (x : Spray) : (s.setSpray x).book = s.book := rfl
@[simp] theorem State.setSpray_units (s : State) (x : Spray) : (s.setSpray x).units = s.units := rfl
@[simp] theorem State.setSpray_store (s : State) (x : Spray) : (s.setSpray x).store = s.store := rfl
@[simp] theorem State.setSpray_arbiter (s : State) (x : Spray) : (s.setSpray x).arbiter = s.arbiter := rfl
@[simp] theorem State.setSpray_mem (s : State) (x : Spray) : (s.setSpray x).mem = s.mem := rfl
@[simp] theorem State.setSpray_engine (s : State) (x : Spray) : (s.setSpray x).engine = s.engine := rfl
@[simp] theorem State.setSpray_spray (s : State) (x : Spray) : (s.setSpray x).spray = x := rfl
@[simp] theorem State.setSpray_press (s : State) (x : Spray) : (s.setSpray x).press = s.press := rfl
@[simp] theorem State.setSpray_ring (s : State) (x : Spray) : (s.setSpray x).ring = s.ring := rfl
@[simp] theorem State.setSpray_cure (s : State) (x : Spray) : (s.setSpray x).cure = s.cure := rfl
@[simp] theorem State.setSpray_shelf (s : State) (x : Spray) : (s.setSpray x).shelf = s.shelf := rfl
@[simp] theorem State.setSpray_links (s : State) (x : Spray) : (s.setSpray x).links = s.links := rfl
@[simp] theorem State.setSpray_lineReset (s : State) (x : Spray) : (s.setSpray x).lineReset = s.lineReset := rfl
@[simp] theorem State.setSpray_indicators (s : State) (x : Spray) : (s.setSpray x).indicators = s.indicators := rfl

@[simp] theorem State.setPress_pending (s : State) (x : Press) : (s.setPress x).pending = s.pending := rfl
@[simp] theorem State.setPress_resetLow (s : State) (x : Press) : (s.setPress x).resetLow = s.resetLow := rfl
@[simp] theorem State.setPress_powerFlag (s : State) (x : Press) : (s.setPress x).powerFlag = s.powerFlag := rfl
@[simp] theorem State.setPress_clock (s : State) (x : Press) : (s.setPress x).clock = s.clock := rfl
@[simp] theorem State.setPress_inputs (s : State) (x : Press) : (s.setPress x).inputs = s.inputs := rfl
@[simp] theorem State.setPress_track (s : State) (x : Press) : (s.setPress x).track = s.track := rfl
@[simp] theorem State.setPress_book (s : State) (x : Press) : (s.setPress x).book = s.book := rfl
@[simp] theorem State.setPress_units (s : State) (x : Press) : (s.setPress x).units = s.units := rfl
@[simp] theorem State.setPress_store (s : State) (x : Press) : (s.setPress x).store = s.store := rfl
@[simp] theorem State.setPress_arbiter (s : State) (x : Press) : (s.setPress x).arbiter = s.arbiter := rfl
@[simp] theorem State.setPress_mem (s : State) (x : Press) : (s.setPress x).mem = s.mem := rfl
@[simp] theorem State.setPress_engine (s : State) (x : Press) : (s.setPress x).engine = s.engine := rfl
@[simp] theorem State.setPress_spray (s : State) (x : Press) : (s.setPress x).spray = s.spray := rfl
@[simp] theorem State.setPress_press (s : State) (x : Press) : (s.setPress x).press = x := rfl
@[simp] theorem State.setPress_ring (s : State) (x : Press) : (s.setPress x).ring = s.ring := rfl
@[simp] theorem State.setPress_cure (s : State) (x : Press) : (s.setPress x).cure = s.cure := rfl
@[simp] theorem State.setPress_shelf (s : State) (x : Press) : (s.setPress x).shelf = s.shelf := rfl
@[simp] theorem State.setPress_links (s : State) (x : Press) : (s.setPress x).links = s.links := rfl
@[simp] theorem State.setPress_lineReset (s : State) (x : Press) : (s.setPress x).lineReset = s.lineReset := rfl
@[simp] theorem State.setPress_indicators (s : State) (x : Press) : (s.setPress x).indicators = s.indicators := rfl

@[simp] theorem State.setRing_pending (s : State) (x : Ring) : (s.setRing x).pending = s.pending := rfl
@[simp] theorem State.setRing_resetLow (s : State) (x : Ring) : (s.setRing x).resetLow = s.resetLow := rfl
@[simp] theorem State.setRing_powerFlag (s : State) (x : Ring) : (s.setRing x).powerFlag = s.powerFlag := rfl
@[simp] theorem State.setRing_clock (s : State) (x : Ring) : (s.setRing x).clock = s.clock := rfl
@[simp] theorem State.setRing_inputs (s : State) (x : Ring) : (s.setRing x).inputs = s.inputs := rfl
@[simp] theorem State.setRing_track (s : State) (x : Ring) : (s.setRing x).track = s.track := rfl
@[simp] theorem State.setRing_book (s : State) (x : Ring) : (s.setRing x).book = s.book := rfl
@[simp] theorem State.setRing_units (s : State) (x : Ring) : (s.setRing x).units = s.units := rfl
@[simp] theorem State.setRing_store (s : State) (x : Ring) : (s.setRing x).store = s.store := rfl
@[simp] theorem State.setRing_arbiter (s : State) (x : Ring) : (s.setRing x).arbiter = s.arbiter := rfl
@[simp] theorem State.setRing_mem (s : State) (x : Ring) : (s.setRing x).mem = s.mem := rfl
@[simp] theorem State.setRing_engine (s : State) (x : Ring) : (s.setRing x).engine = s.engine := rfl
@[simp] theorem State.setRing_spray (s : State) (x : Ring) : (s.setRing x).spray = s.spray := rfl
@[simp] theorem State.setRing_press (s : State) (x : Ring) : (s.setRing x).press = s.press := rfl
@[simp] theorem State.setRing_ring (s : State) (x : Ring) : (s.setRing x).ring = x := rfl
@[simp] theorem State.setRing_cure (s : State) (x : Ring) : (s.setRing x).cure = s.cure := rfl
@[simp] theorem State.setRing_shelf (s : State) (x : Ring) : (s.setRing x).shelf = s.shelf := rfl
@[simp] theorem State.setRing_links (s : State) (x : Ring) : (s.setRing x).links = s.links := rfl
@[simp] theorem State.setRing_lineReset (s : State) (x : Ring) : (s.setRing x).lineReset = s.lineReset := rfl
@[simp] theorem State.setRing_indicators (s : State) (x : Ring) : (s.setRing x).indicators = s.indicators := rfl

@[simp] theorem State.setCure_pending (s : State) (x : Cure) : (s.setCure x).pending = s.pending := rfl
@[simp] theorem State.setCure_resetLow (s : State) (x : Cure) : (s.setCure x).resetLow = s.resetLow := rfl
@[simp] theorem State.setCure_powerFlag (s : State) (x : Cure) : (s.setCure x).powerFlag = s.powerFlag := rfl
@[simp] theorem State.setCure_clock (s : State) (x : Cure) : (s.setCure x).clock = s.clock := rfl
@[simp] theorem State.setCure_inputs (s : State) (x : Cure) : (s.setCure x).inputs = s.inputs := rfl
@[simp] theorem State.setCure_track (s : State) (x : Cure) : (s.setCure x).track = s.track := rfl
@[simp] theorem State.setCure_book (s : State) (x : Cure) : (s.setCure x).book = s.book := rfl
@[simp] theorem State.setCure_units (s : State) (x : Cure) : (s.setCure x).units = s.units := rfl
@[simp] theorem State.setCure_store (s : State) (x : Cure) : (s.setCure x).store = s.store := rfl
@[simp] theorem State.setCure_arbiter (s : State) (x : Cure) : (s.setCure x).arbiter = s.arbiter := rfl
@[simp] theorem State.setCure_mem (s : State) (x : Cure) : (s.setCure x).mem = s.mem := rfl
@[simp] theorem State.setCure_engine (s : State) (x : Cure) : (s.setCure x).engine = s.engine := rfl
@[simp] theorem State.setCure_spray (s : State) (x : Cure) : (s.setCure x).spray = s.spray := rfl
@[simp] theorem State.setCure_press (s : State) (x : Cure) : (s.setCure x).press = s.press := rfl
@[simp] theorem State.setCure_ring (s : State) (x : Cure) : (s.setCure x).ring = s.ring := rfl
@[simp] theorem State.setCure_cure (s : State) (x : Cure) : (s.setCure x).cure = x := rfl
@[simp] theorem State.setCure_shelf (s : State) (x : Cure) : (s.setCure x).shelf = s.shelf := rfl
@[simp] theorem State.setCure_links (s : State) (x : Cure) : (s.setCure x).links = s.links := rfl
@[simp] theorem State.setCure_lineReset (s : State) (x : Cure) : (s.setCure x).lineReset = s.lineReset := rfl
@[simp] theorem State.setCure_indicators (s : State) (x : Cure) : (s.setCure x).indicators = s.indicators := rfl

@[simp] theorem State.setShelf_pending (s : State) (x : Shelf) : (s.setShelf x).pending = s.pending := rfl
@[simp] theorem State.setShelf_resetLow (s : State) (x : Shelf) : (s.setShelf x).resetLow = s.resetLow := rfl
@[simp] theorem State.setShelf_powerFlag (s : State) (x : Shelf) : (s.setShelf x).powerFlag = s.powerFlag := rfl
@[simp] theorem State.setShelf_clock (s : State) (x : Shelf) : (s.setShelf x).clock = s.clock := rfl
@[simp] theorem State.setShelf_inputs (s : State) (x : Shelf) : (s.setShelf x).inputs = s.inputs := rfl
@[simp] theorem State.setShelf_track (s : State) (x : Shelf) : (s.setShelf x).track = s.track := rfl
@[simp] theorem State.setShelf_book (s : State) (x : Shelf) : (s.setShelf x).book = s.book := rfl
@[simp] theorem State.setShelf_units (s : State) (x : Shelf) : (s.setShelf x).units = s.units := rfl
@[simp] theorem State.setShelf_store (s : State) (x : Shelf) : (s.setShelf x).store = s.store := rfl
@[simp] theorem State.setShelf_arbiter (s : State) (x : Shelf) : (s.setShelf x).arbiter = s.arbiter := rfl
@[simp] theorem State.setShelf_mem (s : State) (x : Shelf) : (s.setShelf x).mem = s.mem := rfl
@[simp] theorem State.setShelf_engine (s : State) (x : Shelf) : (s.setShelf x).engine = s.engine := rfl
@[simp] theorem State.setShelf_spray (s : State) (x : Shelf) : (s.setShelf x).spray = s.spray := rfl
@[simp] theorem State.setShelf_press (s : State) (x : Shelf) : (s.setShelf x).press = s.press := rfl
@[simp] theorem State.setShelf_ring (s : State) (x : Shelf) : (s.setShelf x).ring = s.ring := rfl
@[simp] theorem State.setShelf_cure (s : State) (x : Shelf) : (s.setShelf x).cure = s.cure := rfl
@[simp] theorem State.setShelf_shelf (s : State) (x : Shelf) : (s.setShelf x).shelf = x := rfl
@[simp] theorem State.setShelf_links (s : State) (x : Shelf) : (s.setShelf x).links = s.links := rfl
@[simp] theorem State.setShelf_lineReset (s : State) (x : Shelf) : (s.setShelf x).lineReset = s.lineReset := rfl
@[simp] theorem State.setShelf_indicators (s : State) (x : Shelf) : (s.setShelf x).indicators = s.indicators := rfl

@[simp] theorem State.setLinks_pending (s : State) (x : Links) : (s.setLinks x).pending = s.pending := rfl
@[simp] theorem State.setLinks_resetLow (s : State) (x : Links) : (s.setLinks x).resetLow = s.resetLow := rfl
@[simp] theorem State.setLinks_powerFlag (s : State) (x : Links) : (s.setLinks x).powerFlag = s.powerFlag := rfl
@[simp] theorem State.setLinks_clock (s : State) (x : Links) : (s.setLinks x).clock = s.clock := rfl
@[simp] theorem State.setLinks_inputs (s : State) (x : Links) : (s.setLinks x).inputs = s.inputs := rfl
@[simp] theorem State.setLinks_track (s : State) (x : Links) : (s.setLinks x).track = s.track := rfl
@[simp] theorem State.setLinks_book (s : State) (x : Links) : (s.setLinks x).book = s.book := rfl
@[simp] theorem State.setLinks_units (s : State) (x : Links) : (s.setLinks x).units = s.units := rfl
@[simp] theorem State.setLinks_store (s : State) (x : Links) : (s.setLinks x).store = s.store := rfl
@[simp] theorem State.setLinks_arbiter (s : State) (x : Links) : (s.setLinks x).arbiter = s.arbiter := rfl
@[simp] theorem State.setLinks_mem (s : State) (x : Links) : (s.setLinks x).mem = s.mem := rfl
@[simp] theorem State.setLinks_engine (s : State) (x : Links) : (s.setLinks x).engine = s.engine := rfl
@[simp] theorem State.setLinks_spray (s : State) (x : Links) : (s.setLinks x).spray = s.spray := rfl
@[simp] theorem State.setLinks_press (s : State) (x : Links) : (s.setLinks x).press = s.press := rfl
@[simp] theorem State.setLinks_ring (s : State) (x : Links) : (s.setLinks x).ring = s.ring := rfl
@[simp] theorem State.setLinks_cure (s : State) (x : Links) : (s.setLinks x).cure = s.cure := rfl
@[simp] theorem State.setLinks_shelf (s : State) (x : Links) : (s.setLinks x).shelf = s.shelf := rfl
@[simp] theorem State.setLinks_links (s : State) (x : Links) : (s.setLinks x).links = x := rfl
@[simp] theorem State.setLinks_lineReset (s : State) (x : Links) : (s.setLinks x).lineReset = s.lineReset := rfl
@[simp] theorem State.setLinks_indicators (s : State) (x : Links) : (s.setLinks x).indicators = s.indicators := rfl

@[simp] theorem State.setLineReset_pending (s : State) (x : Option Link) : (s.setLineReset x).pending = s.pending := rfl
@[simp] theorem State.setLineReset_resetLow (s : State) (x : Option Link) : (s.setLineReset x).resetLow = s.resetLow := rfl
@[simp] theorem State.setLineReset_powerFlag (s : State) (x : Option Link) : (s.setLineReset x).powerFlag = s.powerFlag := rfl
@[simp] theorem State.setLineReset_clock (s : State) (x : Option Link) : (s.setLineReset x).clock = s.clock := rfl
@[simp] theorem State.setLineReset_inputs (s : State) (x : Option Link) : (s.setLineReset x).inputs = s.inputs := rfl
@[simp] theorem State.setLineReset_track (s : State) (x : Option Link) : (s.setLineReset x).track = s.track := rfl
@[simp] theorem State.setLineReset_book (s : State) (x : Option Link) : (s.setLineReset x).book = s.book := rfl
@[simp] theorem State.setLineReset_units (s : State) (x : Option Link) : (s.setLineReset x).units = s.units := rfl
@[simp] theorem State.setLineReset_store (s : State) (x : Option Link) : (s.setLineReset x).store = s.store := rfl
@[simp] theorem State.setLineReset_arbiter (s : State) (x : Option Link) : (s.setLineReset x).arbiter = s.arbiter := rfl
@[simp] theorem State.setLineReset_mem (s : State) (x : Option Link) : (s.setLineReset x).mem = s.mem := rfl
@[simp] theorem State.setLineReset_engine (s : State) (x : Option Link) : (s.setLineReset x).engine = s.engine := rfl
@[simp] theorem State.setLineReset_spray (s : State) (x : Option Link) : (s.setLineReset x).spray = s.spray := rfl
@[simp] theorem State.setLineReset_press (s : State) (x : Option Link) : (s.setLineReset x).press = s.press := rfl
@[simp] theorem State.setLineReset_ring (s : State) (x : Option Link) : (s.setLineReset x).ring = s.ring := rfl
@[simp] theorem State.setLineReset_cure (s : State) (x : Option Link) : (s.setLineReset x).cure = s.cure := rfl
@[simp] theorem State.setLineReset_shelf (s : State) (x : Option Link) : (s.setLineReset x).shelf = s.shelf := rfl
@[simp] theorem State.setLineReset_links (s : State) (x : Option Link) : (s.setLineReset x).links = s.links := rfl
@[simp] theorem State.setLineReset_lineReset (s : State) (x : Option Link) : (s.setLineReset x).lineReset = x := rfl
@[simp] theorem State.setLineReset_indicators (s : State) (x : Option Link) : (s.setLineReset x).indicators = s.indicators := rfl

@[simp] theorem State.setIndicators_pending (s : State) (x : Vector Indicator 6) : (s.setIndicators x).pending = s.pending := rfl
@[simp] theorem State.setIndicators_resetLow (s : State) (x : Vector Indicator 6) : (s.setIndicators x).resetLow = s.resetLow := rfl
@[simp] theorem State.setIndicators_powerFlag (s : State) (x : Vector Indicator 6) : (s.setIndicators x).powerFlag = s.powerFlag := rfl
@[simp] theorem State.setIndicators_clock (s : State) (x : Vector Indicator 6) : (s.setIndicators x).clock = s.clock := rfl
@[simp] theorem State.setIndicators_inputs (s : State) (x : Vector Indicator 6) : (s.setIndicators x).inputs = s.inputs := rfl
@[simp] theorem State.setIndicators_track (s : State) (x : Vector Indicator 6) : (s.setIndicators x).track = s.track := rfl
@[simp] theorem State.setIndicators_book (s : State) (x : Vector Indicator 6) : (s.setIndicators x).book = s.book := rfl
@[simp] theorem State.setIndicators_units (s : State) (x : Vector Indicator 6) : (s.setIndicators x).units = s.units := rfl
@[simp] theorem State.setIndicators_store (s : State) (x : Vector Indicator 6) : (s.setIndicators x).store = s.store := rfl
@[simp] theorem State.setIndicators_arbiter (s : State) (x : Vector Indicator 6) : (s.setIndicators x).arbiter = s.arbiter := rfl
@[simp] theorem State.setIndicators_mem (s : State) (x : Vector Indicator 6) : (s.setIndicators x).mem = s.mem := rfl
@[simp] theorem State.setIndicators_engine (s : State) (x : Vector Indicator 6) : (s.setIndicators x).engine = s.engine := rfl
@[simp] theorem State.setIndicators_spray (s : State) (x : Vector Indicator 6) : (s.setIndicators x).spray = s.spray := rfl
@[simp] theorem State.setIndicators_press (s : State) (x : Vector Indicator 6) : (s.setIndicators x).press = s.press := rfl
@[simp] theorem State.setIndicators_ring (s : State) (x : Vector Indicator 6) : (s.setIndicators x).ring = s.ring := rfl
@[simp] theorem State.setIndicators_cure (s : State) (x : Vector Indicator 6) : (s.setIndicators x).cure = s.cure := rfl
@[simp] theorem State.setIndicators_shelf (s : State) (x : Vector Indicator 6) : (s.setIndicators x).shelf = s.shelf := rfl
@[simp] theorem State.setIndicators_links (s : State) (x : Vector Indicator 6) : (s.setIndicators x).links = s.links := rfl
@[simp] theorem State.setIndicators_lineReset (s : State) (x : Vector Indicator 6) : (s.setIndicators x).lineReset = s.lineReset := rfl
@[simp] theorem State.setIndicators_indicators (s : State) (x : Vector Indicator 6) : (s.setIndicators x).indicators = x := rfl

@[simp] theorem State.setPowerFlag_pending (s : State) (x : Bool) : (s.setPowerFlag x).pending = s.pending := rfl
@[simp] theorem State.setPowerFlag_resetLow (s : State) (x : Bool) : (s.setPowerFlag x).resetLow = s.resetLow := rfl
@[simp] theorem State.setPowerFlag_powerFlag (s : State) (x : Bool) : (s.setPowerFlag x).powerFlag = x := rfl
@[simp] theorem State.setPowerFlag_clock (s : State) (x : Bool) : (s.setPowerFlag x).clock = s.clock := rfl
@[simp] theorem State.setPowerFlag_inputs (s : State) (x : Bool) : (s.setPowerFlag x).inputs = s.inputs := rfl
@[simp] theorem State.setPowerFlag_track (s : State) (x : Bool) : (s.setPowerFlag x).track = s.track := rfl
@[simp] theorem State.setPowerFlag_book (s : State) (x : Bool) : (s.setPowerFlag x).book = s.book := rfl
@[simp] theorem State.setPowerFlag_units (s : State) (x : Bool) : (s.setPowerFlag x).units = s.units := rfl
@[simp] theorem State.setPowerFlag_store (s : State) (x : Bool) : (s.setPowerFlag x).store = s.store := rfl
@[simp] theorem State.setPowerFlag_arbiter (s : State) (x : Bool) : (s.setPowerFlag x).arbiter = s.arbiter := rfl
@[simp] theorem State.setPowerFlag_mem (s : State) (x : Bool) : (s.setPowerFlag x).mem = s.mem := rfl
@[simp] theorem State.setPowerFlag_engine (s : State) (x : Bool) : (s.setPowerFlag x).engine = s.engine := rfl
@[simp] theorem State.setPowerFlag_spray (s : State) (x : Bool) : (s.setPowerFlag x).spray = s.spray := rfl
@[simp] theorem State.setPowerFlag_press (s : State) (x : Bool) : (s.setPowerFlag x).press = s.press := rfl
@[simp] theorem State.setPowerFlag_ring (s : State) (x : Bool) : (s.setPowerFlag x).ring = s.ring := rfl
@[simp] theorem State.setPowerFlag_cure (s : State) (x : Bool) : (s.setPowerFlag x).cure = s.cure := rfl
@[simp] theorem State.setPowerFlag_shelf (s : State) (x : Bool) : (s.setPowerFlag x).shelf = s.shelf := rfl
@[simp] theorem State.setPowerFlag_links (s : State) (x : Bool) : (s.setPowerFlag x).links = s.links := rfl
@[simp] theorem State.setPowerFlag_lineReset (s : State) (x : Bool) : (s.setPowerFlag x).lineReset = s.lineReset := rfl
@[simp] theorem State.setPowerFlag_indicators (s : State) (x : Bool) : (s.setPowerFlag x).indicators = s.indicators := rfl

@[simp] theorem State.setResetLow_pending (s : State) (x : Bool) : (s.setResetLow x).pending = s.pending := rfl
@[simp] theorem State.setResetLow_resetLow (s : State) (x : Bool) : (s.setResetLow x).resetLow = x := rfl
@[simp] theorem State.setResetLow_powerFlag (s : State) (x : Bool) : (s.setResetLow x).powerFlag = s.powerFlag := rfl
@[simp] theorem State.setResetLow_clock (s : State) (x : Bool) : (s.setResetLow x).clock = s.clock := rfl
@[simp] theorem State.setResetLow_inputs (s : State) (x : Bool) : (s.setResetLow x).inputs = s.inputs := rfl
@[simp] theorem State.setResetLow_track (s : State) (x : Bool) : (s.setResetLow x).track = s.track := rfl
@[simp] theorem State.setResetLow_book (s : State) (x : Bool) : (s.setResetLow x).book = s.book := rfl
@[simp] theorem State.setResetLow_units (s : State) (x : Bool) : (s.setResetLow x).units = s.units := rfl
@[simp] theorem State.setResetLow_store (s : State) (x : Bool) : (s.setResetLow x).store = s.store := rfl
@[simp] theorem State.setResetLow_arbiter (s : State) (x : Bool) : (s.setResetLow x).arbiter = s.arbiter := rfl
@[simp] theorem State.setResetLow_mem (s : State) (x : Bool) : (s.setResetLow x).mem = s.mem := rfl
@[simp] theorem State.setResetLow_engine (s : State) (x : Bool) : (s.setResetLow x).engine = s.engine := rfl
@[simp] theorem State.setResetLow_spray (s : State) (x : Bool) : (s.setResetLow x).spray = s.spray := rfl
@[simp] theorem State.setResetLow_press (s : State) (x : Bool) : (s.setResetLow x).press = s.press := rfl
@[simp] theorem State.setResetLow_ring (s : State) (x : Bool) : (s.setResetLow x).ring = s.ring := rfl
@[simp] theorem State.setResetLow_cure (s : State) (x : Bool) : (s.setResetLow x).cure = s.cure := rfl
@[simp] theorem State.setResetLow_shelf (s : State) (x : Bool) : (s.setResetLow x).shelf = s.shelf := rfl
@[simp] theorem State.setResetLow_links (s : State) (x : Bool) : (s.setResetLow x).links = s.links := rfl
@[simp] theorem State.setResetLow_lineReset (s : State) (x : Bool) : (s.setResetLow x).lineReset = s.lineReset := rfl
@[simp] theorem State.setResetLow_indicators (s : State) (x : Bool) : (s.setResetLow x).indicators = s.indicators := rfl

@[simp] theorem State.putGarment_pending (s : State) (p : Fin 16) (x : Option Garment) : (s.putGarment p x).pending = s.pending := rfl
@[simp] theorem State.putGarment_resetLow (s : State) (p : Fin 16) (x : Option Garment) : (s.putGarment p x).resetLow = s.resetLow := rfl
@[simp] theorem State.putGarment_powerFlag (s : State) (p : Fin 16) (x : Option Garment) : (s.putGarment p x).powerFlag = s.powerFlag := rfl
@[simp] theorem State.putGarment_clock (s : State) (p : Fin 16) (x : Option Garment) : (s.putGarment p x).clock = s.clock := rfl
@[simp] theorem State.putGarment_inputs (s : State) (p : Fin 16) (x : Option Garment) : (s.putGarment p x).inputs = s.inputs := rfl
@[simp] theorem State.putGarment_track (s : State) (p : Fin 16) (x : Option Garment) : (s.putGarment p x).track = s.track := rfl
@[simp] theorem State.putGarment_book (s : State) (p : Fin 16) (x : Option Garment) : (s.putGarment p x).book = s.book := rfl
@[simp] theorem State.putGarment_store (s : State) (p : Fin 16) (x : Option Garment) : (s.putGarment p x).store = s.store := rfl
@[simp] theorem State.putGarment_arbiter (s : State) (p : Fin 16) (x : Option Garment) : (s.putGarment p x).arbiter = s.arbiter := rfl
@[simp] theorem State.putGarment_mem (s : State) (p : Fin 16) (x : Option Garment) : (s.putGarment p x).mem = s.mem := rfl
@[simp] theorem State.putGarment_engine (s : State) (p : Fin 16) (x : Option Garment) : (s.putGarment p x).engine = s.engine := rfl
@[simp] theorem State.putGarment_spray (s : State) (p : Fin 16) (x : Option Garment) : (s.putGarment p x).spray = s.spray := rfl
@[simp] theorem State.putGarment_press (s : State) (p : Fin 16) (x : Option Garment) : (s.putGarment p x).press = s.press := rfl
@[simp] theorem State.putGarment_ring (s : State) (p : Fin 16) (x : Option Garment) : (s.putGarment p x).ring = s.ring := rfl
@[simp] theorem State.putGarment_cure (s : State) (p : Fin 16) (x : Option Garment) : (s.putGarment p x).cure = s.cure := rfl
@[simp] theorem State.putGarment_shelf (s : State) (p : Fin 16) (x : Option Garment) : (s.putGarment p x).shelf = s.shelf := rfl
@[simp] theorem State.putGarment_links (s : State) (p : Fin 16) (x : Option Garment) : (s.putGarment p x).links = s.links := rfl
@[simp] theorem State.putGarment_lineReset (s : State) (p : Fin 16) (x : Option Garment) : (s.putGarment p x).lineReset = s.lineReset := rfl
@[simp] theorem State.putGarment_indicators (s : State) (p : Fin 16) (x : Option Garment) : (s.putGarment p x).indicators = s.indicators := rfl

@[simp] theorem State.putPlace_pending (s : State) (p : Fin 16) (x : Place) : (s.putPlace p x).pending = s.pending := rfl
@[simp] theorem State.putPlace_resetLow (s : State) (p : Fin 16) (x : Place) : (s.putPlace p x).resetLow = s.resetLow := rfl
@[simp] theorem State.putPlace_powerFlag (s : State) (p : Fin 16) (x : Place) : (s.putPlace p x).powerFlag = s.powerFlag := rfl
@[simp] theorem State.putPlace_clock (s : State) (p : Fin 16) (x : Place) : (s.putPlace p x).clock = s.clock := rfl
@[simp] theorem State.putPlace_inputs (s : State) (p : Fin 16) (x : Place) : (s.putPlace p x).inputs = s.inputs := rfl
@[simp] theorem State.putPlace_book (s : State) (p : Fin 16) (x : Place) : (s.putPlace p x).book = s.book := rfl
@[simp] theorem State.putPlace_units (s : State) (p : Fin 16) (x : Place) : (s.putPlace p x).units = s.units := rfl
@[simp] theorem State.putPlace_store (s : State) (p : Fin 16) (x : Place) : (s.putPlace p x).store = s.store := rfl
@[simp] theorem State.putPlace_arbiter (s : State) (p : Fin 16) (x : Place) : (s.putPlace p x).arbiter = s.arbiter := rfl
@[simp] theorem State.putPlace_mem (s : State) (p : Fin 16) (x : Place) : (s.putPlace p x).mem = s.mem := rfl
@[simp] theorem State.putPlace_engine (s : State) (p : Fin 16) (x : Place) : (s.putPlace p x).engine = s.engine := rfl
@[simp] theorem State.putPlace_spray (s : State) (p : Fin 16) (x : Place) : (s.putPlace p x).spray = s.spray := rfl
@[simp] theorem State.putPlace_press (s : State) (p : Fin 16) (x : Place) : (s.putPlace p x).press = s.press := rfl
@[simp] theorem State.putPlace_ring (s : State) (p : Fin 16) (x : Place) : (s.putPlace p x).ring = s.ring := rfl
@[simp] theorem State.putPlace_cure (s : State) (p : Fin 16) (x : Place) : (s.putPlace p x).cure = s.cure := rfl
@[simp] theorem State.putPlace_shelf (s : State) (p : Fin 16) (x : Place) : (s.putPlace p x).shelf = s.shelf := rfl
@[simp] theorem State.putPlace_links (s : State) (p : Fin 16) (x : Place) : (s.putPlace p x).links = s.links := rfl
@[simp] theorem State.putPlace_lineReset (s : State) (p : Fin 16) (x : Place) : (s.putPlace p x).lineReset = s.lineReset := rfl
@[simp] theorem State.putPlace_indicators (s : State) (p : Fin 16) (x : Place) : (s.putPlace p x).indicators = s.indicators := rfl

@[simp] theorem State.putStation_pending (s : State) (n : Fin 6) (x : Station) : (s.putStation n x).pending = s.pending := rfl
@[simp] theorem State.putStation_resetLow (s : State) (n : Fin 6) (x : Station) : (s.putStation n x).resetLow = s.resetLow := rfl
@[simp] theorem State.putStation_powerFlag (s : State) (n : Fin 6) (x : Station) : (s.putStation n x).powerFlag = s.powerFlag := rfl
@[simp] theorem State.putStation_clock (s : State) (n : Fin 6) (x : Station) : (s.putStation n x).clock = s.clock := rfl
@[simp] theorem State.putStation_inputs (s : State) (n : Fin 6) (x : Station) : (s.putStation n x).inputs = s.inputs := rfl
@[simp] theorem State.putStation_book (s : State) (n : Fin 6) (x : Station) : (s.putStation n x).book = s.book := rfl
@[simp] theorem State.putStation_units (s : State) (n : Fin 6) (x : Station) : (s.putStation n x).units = s.units := rfl
@[simp] theorem State.putStation_store (s : State) (n : Fin 6) (x : Station) : (s.putStation n x).store = s.store := rfl
@[simp] theorem State.putStation_arbiter (s : State) (n : Fin 6) (x : Station) : (s.putStation n x).arbiter = s.arbiter := rfl
@[simp] theorem State.putStation_mem (s : State) (n : Fin 6) (x : Station) : (s.putStation n x).mem = s.mem := rfl
@[simp] theorem State.putStation_engine (s : State) (n : Fin 6) (x : Station) : (s.putStation n x).engine = s.engine := rfl
@[simp] theorem State.putStation_spray (s : State) (n : Fin 6) (x : Station) : (s.putStation n x).spray = s.spray := rfl
@[simp] theorem State.putStation_press (s : State) (n : Fin 6) (x : Station) : (s.putStation n x).press = s.press := rfl
@[simp] theorem State.putStation_ring (s : State) (n : Fin 6) (x : Station) : (s.putStation n x).ring = s.ring := rfl
@[simp] theorem State.putStation_cure (s : State) (n : Fin 6) (x : Station) : (s.putStation n x).cure = s.cure := rfl
@[simp] theorem State.putStation_shelf (s : State) (n : Fin 6) (x : Station) : (s.putStation n x).shelf = s.shelf := rfl
@[simp] theorem State.putStation_links (s : State) (n : Fin 6) (x : Station) : (s.putStation n x).links = s.links := rfl
@[simp] theorem State.putStation_lineReset (s : State) (n : Fin 6) (x : Station) : (s.putStation n x).lineReset = s.lineReset := rfl
@[simp] theorem State.putStation_indicators (s : State) (n : Fin 6) (x : Station) : (s.putStation n x).indicators = s.indicators := rfl

@[simp] theorem State.putLane_pending (s : State) (n : Fin 6) (x : List (Fin 16)) : (s.putLane n x).pending = s.pending := rfl
@[simp] theorem State.putLane_resetLow (s : State) (n : Fin 6) (x : List (Fin 16)) : (s.putLane n x).resetLow = s.resetLow := rfl
@[simp] theorem State.putLane_powerFlag (s : State) (n : Fin 6) (x : List (Fin 16)) : (s.putLane n x).powerFlag = s.powerFlag := rfl
@[simp] theorem State.putLane_clock (s : State) (n : Fin 6) (x : List (Fin 16)) : (s.putLane n x).clock = s.clock := rfl
@[simp] theorem State.putLane_inputs (s : State) (n : Fin 6) (x : List (Fin 16)) : (s.putLane n x).inputs = s.inputs := rfl
@[simp] theorem State.putLane_book (s : State) (n : Fin 6) (x : List (Fin 16)) : (s.putLane n x).book = s.book := rfl
@[simp] theorem State.putLane_units (s : State) (n : Fin 6) (x : List (Fin 16)) : (s.putLane n x).units = s.units := rfl
@[simp] theorem State.putLane_store (s : State) (n : Fin 6) (x : List (Fin 16)) : (s.putLane n x).store = s.store := rfl
@[simp] theorem State.putLane_arbiter (s : State) (n : Fin 6) (x : List (Fin 16)) : (s.putLane n x).arbiter = s.arbiter := rfl
@[simp] theorem State.putLane_mem (s : State) (n : Fin 6) (x : List (Fin 16)) : (s.putLane n x).mem = s.mem := rfl
@[simp] theorem State.putLane_engine (s : State) (n : Fin 6) (x : List (Fin 16)) : (s.putLane n x).engine = s.engine := rfl
@[simp] theorem State.putLane_spray (s : State) (n : Fin 6) (x : List (Fin 16)) : (s.putLane n x).spray = s.spray := rfl
@[simp] theorem State.putLane_press (s : State) (n : Fin 6) (x : List (Fin 16)) : (s.putLane n x).press = s.press := rfl
@[simp] theorem State.putLane_ring (s : State) (n : Fin 6) (x : List (Fin 16)) : (s.putLane n x).ring = s.ring := rfl
@[simp] theorem State.putLane_cure (s : State) (n : Fin 6) (x : List (Fin 16)) : (s.putLane n x).cure = s.cure := rfl
@[simp] theorem State.putLane_shelf (s : State) (n : Fin 6) (x : List (Fin 16)) : (s.putLane n x).shelf = s.shelf := rfl
@[simp] theorem State.putLane_links (s : State) (n : Fin 6) (x : List (Fin 16)) : (s.putLane n x).links = s.links := rfl
@[simp] theorem State.putLane_lineReset (s : State) (n : Fin 6) (x : List (Fin 16)) : (s.putLane n x).lineReset = s.lineReset := rfl
@[simp] theorem State.putLane_indicators (s : State) (n : Fin 6) (x : List (Fin 16)) : (s.putLane n x).indicators = s.indicators := rfl

@[simp] theorem State.putLink_pending (s : State) (l : Link) (x : LinkState) : (s.putLink l x).pending = s.pending := rfl
@[simp] theorem State.putLink_resetLow (s : State) (l : Link) (x : LinkState) : (s.putLink l x).resetLow = s.resetLow := rfl
@[simp] theorem State.putLink_powerFlag (s : State) (l : Link) (x : LinkState) : (s.putLink l x).powerFlag = s.powerFlag := rfl
@[simp] theorem State.putLink_clock (s : State) (l : Link) (x : LinkState) : (s.putLink l x).clock = s.clock := rfl
@[simp] theorem State.putLink_inputs (s : State) (l : Link) (x : LinkState) : (s.putLink l x).inputs = s.inputs := rfl
@[simp] theorem State.putLink_track (s : State) (l : Link) (x : LinkState) : (s.putLink l x).track = s.track := rfl
@[simp] theorem State.putLink_book (s : State) (l : Link) (x : LinkState) : (s.putLink l x).book = s.book := rfl
@[simp] theorem State.putLink_units (s : State) (l : Link) (x : LinkState) : (s.putLink l x).units = s.units := rfl
@[simp] theorem State.putLink_store (s : State) (l : Link) (x : LinkState) : (s.putLink l x).store = s.store := rfl
@[simp] theorem State.putLink_arbiter (s : State) (l : Link) (x : LinkState) : (s.putLink l x).arbiter = s.arbiter := rfl
@[simp] theorem State.putLink_mem (s : State) (l : Link) (x : LinkState) : (s.putLink l x).mem = s.mem := rfl
@[simp] theorem State.putLink_engine (s : State) (l : Link) (x : LinkState) : (s.putLink l x).engine = s.engine := rfl
@[simp] theorem State.putLink_spray (s : State) (l : Link) (x : LinkState) : (s.putLink l x).spray = s.spray := rfl
@[simp] theorem State.putLink_press (s : State) (l : Link) (x : LinkState) : (s.putLink l x).press = s.press := rfl
@[simp] theorem State.putLink_ring (s : State) (l : Link) (x : LinkState) : (s.putLink l x).ring = s.ring := rfl
@[simp] theorem State.putLink_cure (s : State) (l : Link) (x : LinkState) : (s.putLink l x).cure = s.cure := rfl
@[simp] theorem State.putLink_shelf (s : State) (l : Link) (x : LinkState) : (s.putLink l x).shelf = s.shelf := rfl
@[simp] theorem State.putLink_lineReset (s : State) (l : Link) (x : LinkState) : (s.putLink l x).lineReset = s.lineReset := rfl
@[simp] theorem State.putLink_indicators (s : State) (l : Link) (x : LinkState) : (s.putLink l x).indicators = s.indicators := rfl

@[simp] theorem State.answer_pending (s : State) (l : Link) (x : Answer) : (s.answer l x).pending = s.pending := rfl
@[simp] theorem State.answer_resetLow (s : State) (l : Link) (x : Answer) : (s.answer l x).resetLow = s.resetLow := rfl
@[simp] theorem State.answer_powerFlag (s : State) (l : Link) (x : Answer) : (s.answer l x).powerFlag = s.powerFlag := rfl
@[simp] theorem State.answer_clock (s : State) (l : Link) (x : Answer) : (s.answer l x).clock = s.clock := rfl
@[simp] theorem State.answer_inputs (s : State) (l : Link) (x : Answer) : (s.answer l x).inputs = s.inputs := rfl
@[simp] theorem State.answer_track (s : State) (l : Link) (x : Answer) : (s.answer l x).track = s.track := rfl
@[simp] theorem State.answer_book (s : State) (l : Link) (x : Answer) : (s.answer l x).book = s.book := rfl
@[simp] theorem State.answer_units (s : State) (l : Link) (x : Answer) : (s.answer l x).units = s.units := rfl
@[simp] theorem State.answer_store (s : State) (l : Link) (x : Answer) : (s.answer l x).store = s.store := rfl
@[simp] theorem State.answer_arbiter (s : State) (l : Link) (x : Answer) : (s.answer l x).arbiter = s.arbiter := rfl
@[simp] theorem State.answer_mem (s : State) (l : Link) (x : Answer) : (s.answer l x).mem = s.mem := rfl
@[simp] theorem State.answer_engine (s : State) (l : Link) (x : Answer) : (s.answer l x).engine = s.engine := rfl
@[simp] theorem State.answer_spray (s : State) (l : Link) (x : Answer) : (s.answer l x).spray = s.spray := rfl
@[simp] theorem State.answer_press (s : State) (l : Link) (x : Answer) : (s.answer l x).press = s.press := rfl
@[simp] theorem State.answer_ring (s : State) (l : Link) (x : Answer) : (s.answer l x).ring = s.ring := rfl
@[simp] theorem State.answer_cure (s : State) (l : Link) (x : Answer) : (s.answer l x).cure = s.cure := rfl
@[simp] theorem State.answer_shelf (s : State) (l : Link) (x : Answer) : (s.answer l x).shelf = s.shelf := rfl
@[simp] theorem State.answer_lineReset (s : State) (l : Link) (x : Answer) : (s.answer l x).lineReset = s.lineReset := rfl
@[simp] theorem State.answer_indicators (s : State) (l : Link) (x : Answer) : (s.answer l x).indicators = s.indicators := rfl

@[simp] theorem State.raise_pending (s : State) (x : Notice) : (s.raise x).pending = s.pending := rfl
@[simp] theorem State.raise_resetLow (s : State) (x : Notice) : (s.raise x).resetLow = s.resetLow := rfl
@[simp] theorem State.raise_powerFlag (s : State) (x : Notice) : (s.raise x).powerFlag = s.powerFlag := rfl
@[simp] theorem State.raise_clock (s : State) (x : Notice) : (s.raise x).clock = s.clock := rfl
@[simp] theorem State.raise_inputs (s : State) (x : Notice) : (s.raise x).inputs = s.inputs := rfl
@[simp] theorem State.raise_track (s : State) (x : Notice) : (s.raise x).track = s.track := rfl
@[simp] theorem State.raise_book (s : State) (x : Notice) : (s.raise x).book = s.book := rfl
@[simp] theorem State.raise_units (s : State) (x : Notice) : (s.raise x).units = s.units := rfl
@[simp] theorem State.raise_store (s : State) (x : Notice) : (s.raise x).store = s.store := rfl
@[simp] theorem State.raise_arbiter (s : State) (x : Notice) : (s.raise x).arbiter = s.arbiter := rfl
@[simp] theorem State.raise_mem (s : State) (x : Notice) : (s.raise x).mem = s.mem := rfl
@[simp] theorem State.raise_engine (s : State) (x : Notice) : (s.raise x).engine = s.engine := rfl
@[simp] theorem State.raise_spray (s : State) (x : Notice) : (s.raise x).spray = s.spray := rfl
@[simp] theorem State.raise_press (s : State) (x : Notice) : (s.raise x).press = s.press := rfl
@[simp] theorem State.raise_ring (s : State) (x : Notice) : (s.raise x).ring = s.ring := rfl
@[simp] theorem State.raise_cure (s : State) (x : Notice) : (s.raise x).cure = s.cure := rfl
@[simp] theorem State.raise_shelf (s : State) (x : Notice) : (s.raise x).shelf = s.shelf := rfl
@[simp] theorem State.raise_lineReset (s : State) (x : Notice) : (s.raise x).lineReset = s.lineReset := rfl
@[simp] theorem State.raise_indicators (s : State) (x : Notice) : (s.raise x).indicators = s.indicators := rfl

@[simp] theorem State.putSeg_pending (s : State) (g : Segment) (x : SegState) : (s.putSeg g x).pending = s.pending := by
  cases g <;> rfl
@[simp] theorem State.putSeg_resetLow (s : State) (g : Segment) (x : SegState) : (s.putSeg g x).resetLow = s.resetLow := by
  cases g <;> rfl
@[simp] theorem State.putSeg_powerFlag (s : State) (g : Segment) (x : SegState) : (s.putSeg g x).powerFlag = s.powerFlag := by
  cases g <;> rfl
@[simp] theorem State.putSeg_clock (s : State) (g : Segment) (x : SegState) : (s.putSeg g x).clock = s.clock := by
  cases g <;> rfl
@[simp] theorem State.putSeg_inputs (s : State) (g : Segment) (x : SegState) : (s.putSeg g x).inputs = s.inputs := by
  cases g <;> rfl
@[simp] theorem State.putSeg_book (s : State) (g : Segment) (x : SegState) : (s.putSeg g x).book = s.book := by
  cases g <;> rfl
@[simp] theorem State.putSeg_units (s : State) (g : Segment) (x : SegState) : (s.putSeg g x).units = s.units := by
  cases g <;> rfl
@[simp] theorem State.putSeg_store (s : State) (g : Segment) (x : SegState) : (s.putSeg g x).store = s.store := by
  cases g <;> rfl
@[simp] theorem State.putSeg_arbiter (s : State) (g : Segment) (x : SegState) : (s.putSeg g x).arbiter = s.arbiter := by
  cases g <;> rfl
@[simp] theorem State.putSeg_mem (s : State) (g : Segment) (x : SegState) : (s.putSeg g x).mem = s.mem := by
  cases g <;> rfl
@[simp] theorem State.putSeg_engine (s : State) (g : Segment) (x : SegState) : (s.putSeg g x).engine = s.engine := by
  cases g <;> rfl
@[simp] theorem State.putSeg_spray (s : State) (g : Segment) (x : SegState) : (s.putSeg g x).spray = s.spray := by
  cases g <;> rfl
@[simp] theorem State.putSeg_press (s : State) (g : Segment) (x : SegState) : (s.putSeg g x).press = s.press := by
  cases g <;> rfl
@[simp] theorem State.putSeg_ring (s : State) (g : Segment) (x : SegState) : (s.putSeg g x).ring = s.ring := by
  cases g <;> rfl
@[simp] theorem State.putSeg_cure (s : State) (g : Segment) (x : SegState) : (s.putSeg g x).cure = s.cure := by
  cases g <;> rfl
@[simp] theorem State.putSeg_shelf (s : State) (g : Segment) (x : SegState) : (s.putSeg g x).shelf = s.shelf := by
  cases g <;> rfl
@[simp] theorem State.putSeg_links (s : State) (g : Segment) (x : SegState) : (s.putSeg g x).links = s.links := by
  cases g <;> rfl
@[simp] theorem State.putSeg_lineReset (s : State) (g : Segment) (x : SegState) : (s.putSeg g x).lineReset = s.lineReset := by
  cases g <;> rfl
@[simp] theorem State.putSeg_indicators (s : State) (g : Segment) (x : SegState) : (s.putSeg g x).indicators = s.indicators := by
  cases g <;> rfl

@[simp] theorem State.raiseAll_pending (s : State) (l : List Notice) : (s.raiseAll l).pending = s.pending := by
  induction l generalizing s with
  | nil => rfl
  | cons n r ih => exact (ih (s.raise n)).trans rfl
@[simp] theorem State.raiseAll_resetLow (s : State) (l : List Notice) : (s.raiseAll l).resetLow = s.resetLow := by
  induction l generalizing s with
  | nil => rfl
  | cons n r ih => exact (ih (s.raise n)).trans rfl
@[simp] theorem State.raiseAll_powerFlag (s : State) (l : List Notice) : (s.raiseAll l).powerFlag = s.powerFlag := by
  induction l generalizing s with
  | nil => rfl
  | cons n r ih => exact (ih (s.raise n)).trans rfl
@[simp] theorem State.raiseAll_clock (s : State) (l : List Notice) : (s.raiseAll l).clock = s.clock := by
  induction l generalizing s with
  | nil => rfl
  | cons n r ih => exact (ih (s.raise n)).trans rfl
@[simp] theorem State.raiseAll_inputs (s : State) (l : List Notice) : (s.raiseAll l).inputs = s.inputs := by
  induction l generalizing s with
  | nil => rfl
  | cons n r ih => exact (ih (s.raise n)).trans rfl
@[simp] theorem State.raiseAll_track (s : State) (l : List Notice) : (s.raiseAll l).track = s.track := by
  induction l generalizing s with
  | nil => rfl
  | cons n r ih => exact (ih (s.raise n)).trans rfl
@[simp] theorem State.raiseAll_book (s : State) (l : List Notice) : (s.raiseAll l).book = s.book := by
  induction l generalizing s with
  | nil => rfl
  | cons n r ih => exact (ih (s.raise n)).trans rfl
@[simp] theorem State.raiseAll_units (s : State) (l : List Notice) : (s.raiseAll l).units = s.units := by
  induction l generalizing s with
  | nil => rfl
  | cons n r ih => exact (ih (s.raise n)).trans rfl
@[simp] theorem State.raiseAll_store (s : State) (l : List Notice) : (s.raiseAll l).store = s.store := by
  induction l generalizing s with
  | nil => rfl
  | cons n r ih => exact (ih (s.raise n)).trans rfl
@[simp] theorem State.raiseAll_arbiter (s : State) (l : List Notice) : (s.raiseAll l).arbiter = s.arbiter := by
  induction l generalizing s with
  | nil => rfl
  | cons n r ih => exact (ih (s.raise n)).trans rfl
@[simp] theorem State.raiseAll_mem (s : State) (l : List Notice) : (s.raiseAll l).mem = s.mem := by
  induction l generalizing s with
  | nil => rfl
  | cons n r ih => exact (ih (s.raise n)).trans rfl
@[simp] theorem State.raiseAll_engine (s : State) (l : List Notice) : (s.raiseAll l).engine = s.engine := by
  induction l generalizing s with
  | nil => rfl
  | cons n r ih => exact (ih (s.raise n)).trans rfl
@[simp] theorem State.raiseAll_spray (s : State) (l : List Notice) : (s.raiseAll l).spray = s.spray := by
  induction l generalizing s with
  | nil => rfl
  | cons n r ih => exact (ih (s.raise n)).trans rfl
@[simp] theorem State.raiseAll_press (s : State) (l : List Notice) : (s.raiseAll l).press = s.press := by
  induction l generalizing s with
  | nil => rfl
  | cons n r ih => exact (ih (s.raise n)).trans rfl
@[simp] theorem State.raiseAll_ring (s : State) (l : List Notice) : (s.raiseAll l).ring = s.ring := by
  induction l generalizing s with
  | nil => rfl
  | cons n r ih => exact (ih (s.raise n)).trans rfl
@[simp] theorem State.raiseAll_cure (s : State) (l : List Notice) : (s.raiseAll l).cure = s.cure := by
  induction l generalizing s with
  | nil => rfl
  | cons n r ih => exact (ih (s.raise n)).trans rfl
@[simp] theorem State.raiseAll_shelf (s : State) (l : List Notice) : (s.raiseAll l).shelf = s.shelf := by
  induction l generalizing s with
  | nil => rfl
  | cons n r ih => exact (ih (s.raise n)).trans rfl
@[simp] theorem State.raiseAll_lineReset (s : State) (l : List Notice) : (s.raiseAll l).lineReset = s.lineReset := by
  induction l generalizing s with
  | nil => rfl
  | cons n r ih => exact (ih (s.raise n)).trans rfl
@[simp] theorem State.raiseAll_indicators (s : State) (l : List Notice) : (s.raiseAll l).indicators = s.indicators := by
  induction l generalizing s with
  | nil => rfl
  | cons n r ih => exact (ih (s.raise n)).trans rfl

theorem State.raiseAll_cons (s : State) (n : Notice) (l : List Notice) : s.raiseAll (n :: l) = (s.raise n).raiseAll l := rfl

@[simp] theorem State.raiseAll_nil (s : State) : s.raiseAll [] = s := rfl

/-! ### Fixed tables -/

@[simp] theorem upd_get_val {α : Type} {n : Nat} (v : Vector α n) (i : Fin n) (x : α) : (upd v i x)[i.val] = x := by
  simp [upd]

theorem upd_get_self {α : Type} {n : Nat} (v : Vector α n) (i : Fin n) (x : α) : (upd v i x)[i] = x := upd_get_val v i x

theorem upd_get_ne {α : Type} {n : Nat} (v : Vector α n) (i j : Fin n) (x : α) (h : i ≠ j) : (upd v i x)[j] = v[j] := by
  have hv : i.val ≠ j.val := fun e => h (Fin.ext e)
  simp [upd, hv]

theorem upd_get {α : Type} {n : Nat} (v : Vector α n) (i j : Fin n) (x : α) :
    (upd v i x)[j] = if i = j then x else v[j] := by
  by_cases h : i = j
  · subst h; simp
  · rw [if_neg h, upd_get_ne v i j x h]

@[simp] theorem vmap_get_val {α β : Type} {n : Nat} (f : α → β) (v : Vector α n) (i : Nat) (h : i < n) :
    (vmap f v)[i] = f v[i] := by
  simp [vmap]

theorem vmap_get {α β : Type} {n : Nat} (f : α → β) (v : Vector α n) (i : Fin n) : (vmap f v)[i] = f v[i] :=
  vmap_get_val f v i.val i.isLt

/-! ### Garments, platens, links -/

@[simp] theorem State.putGarment_garment_self (s : State) (p : Fin 16) (x : Option Garment) :
    (s.putGarment p x).garment p = x := by
  simp [State.garment, State.putGarment]

theorem State.putGarment_garment_ne (s : State) (p q : Fin 16) (x : Option Garment) (h : p ≠ q) :
    (s.putGarment p x).garment q = s.garment q := by
  simp only [State.garment, State.putGarment, State.setUnits_units]
  exact upd_get_ne _ _ _ _ h

@[simp] theorem Links.get_set_self (k : Links) (l : Link) (x : LinkState) : (k.set l x).get l = x := by
  cases l <;> rfl

theorem Links.get_set_ne (k : Links) (l m : Link) (x : LinkState) (h : l ≠ m) : (k.set l x).get m = k.get m := by
  cases l <;> cases m <;> first | rfl | exact absurd rfl h

@[simp] theorem Links.get_map (f : LinkState → LinkState) (k : Links) (l : Link) : (Links.map f k).get l = f (k.get l) := by
  cases l <;> rfl

@[simp] theorem State.putLink_link_self (s : State) (l : Link) (x : LinkState) : (s.putLink l x).link l = x := by
  simp [State.link, State.putLink]

theorem State.putLink_link_ne (s : State) (l m : Link) (x : LinkState) (h : l ≠ m) :
    (s.putLink l x).link m = s.link m := by
  simp only [State.link, State.putLink, State.setLinks_links]
  exact Links.get_set_ne _ _ _ _ h

@[simp] theorem State.raise_link (s : State) (n : Notice) (l : Link) :
    (s.raise n).link l = (s.link l).offer s.clock.time n := by
  simp [State.link, State.raise]

end Sys2Proof.Machine
end

