-- ==== Sys2Proof/Laws/Clock.lean ====
section
/-! SUPPORT. What a tick counts leaves alone, what a run of commands keeps, and the three ways a step comes to its
next state. -/

namespace Sys2Proof.Machine

/-! ### What a tick counts (log 2) -/

@[simp] theorem State.counted_pending (s : State) : s.counted.pending = s.pending := by
  simp only [State.counted]
  split <;> rfl

@[simp] theorem State.counted_resetLow (s : State) : s.counted.resetLow = s.resetLow := by
  simp only [State.counted]
  split <;> rfl

@[simp] theorem State.counted_powerFlag (s : State) : s.counted.powerFlag = s.powerFlag := by
  simp only [State.counted]
  split <;> rfl

@[simp] theorem State.counted_track (s : State) : s.counted.track = s.track := by
  simp only [State.counted]
  split <;> rfl

@[simp] theorem State.counted_book (s : State) : s.counted.book = s.book := by
  simp only [State.counted]
  split <;> rfl

@[simp] theorem State.counted_units (s : State) : s.counted.units = s.units := by
  simp only [State.counted]
  split <;> rfl

@[simp] theorem State.counted_store (s : State) : s.counted.store = s.store := by
  simp only [State.counted]
  split <;> rfl

@[simp] theorem State.counted_arbiter (s : State) : s.counted.arbiter = s.arbiter := by
  simp only [State.counted]
  split <;> rfl

@[simp] theorem State.counted_mem (s : State) : s.counted.mem = s.mem := by
  simp only [State.counted]
  split <;> rfl

@[simp] theorem State.counted_engine (s : State) : s.counted.engine = s.engine := by
  simp only [State.counted]
  split <;> rfl

@[simp] theorem State.counted_ring (s : State) : s.counted.ring = s.ring := by
  simp only [State.counted]
  split <;> rfl

@[simp] theorem State.counted_shelf (s : State) : s.counted.shelf = s.shelf := by
  simp only [State.counted]
  split <;> rfl

@[simp] theorem State.counted_links (s : State) : s.counted.links = s.links := by
  simp only [State.counted]
  split <;> rfl

@[simp] theorem State.counted_lineReset (s : State) : s.counted.lineReset = s.lineReset := by
  simp only [State.counted]
  split <;> rfl

@[simp] theorem State.counted_inputs (s : State) : s.counted.inputs = s.inputs.tick := by
  simp only [State.counted]
  split <;> rfl

@[simp] theorem State.counted_spray (s : State) : s.counted.spray = s.spray.tick := by
  simp only [State.counted]
  split <;> rfl

@[simp] theorem State.counted_link (s : State) (l : Link) : s.counted.link l = s.link l := by
  simp [State.link]

@[simp] theorem State.counted_garment (s : State) (p : Fin 16) : s.counted.garment p = s.garment p := by
  simp [State.garment]

/-- A channel is touched by a tick only while it is active (R107). -/
theorem Channel.tick_inactive (c : Channel) (h : c.active = false) : c.tick = c := by
  simp [Channel.tick, h]

/-! ### Runs of commands -/

theorem runAll_nil (s : State) : runAll [] s = .next s := rfl

theorem runAll_cons_next (i : Instr) (rest : List Instr) (s t : State) (h : exec i s = .next t) :
    runAll (i :: rest) s = runAll rest t := by
  simp [runAll, h]

/-- A run that comes to a next state came through its first command's. -/
theorem runAll_cons_inv (i : Instr) (rest : List Instr) (s u : State) (h : runAll (i :: rest) s = .next u) :
    ∃ t, exec i s = .next t ∧ runAll rest t = .next u := by
  unfold runAll at h
  split at h
  · exact ⟨_, ‹_›, h⟩
  · cases h
  · cases h

/-- What every command keeps, a run keeps. -/
theorem runAll_keeps (P : State → Prop) (keeps : ∀ i s t, exec i s = .next t → P s → P t) :
    ∀ (l : List Instr) (s t : State), runAll l s = .next t → P s → P t
  | [], s, t, h, p => by
    cases h
    exact p
  | i :: rest, s, t, h, p => by
    obtain ⟨u, h1, h2⟩ := runAll_cons_inv i rest s t h
    exact runAll_keeps P keeps rest u t h2 (keeps i s u h1 p)

/-! ### Steps -/

/-- Everything a step can do that answers a next state. -/
theorem step_cases (s t : State) (h : step s = .next t) :
    (∃ c rest, s.pending = c :: rest ∧ exec c { s with pending := rest } = .next t) ∨
    (s.pending = [] ∧ s.resetLow = true ∧ t = s) ∨
    (s.pending = [] ∧ s.resetLow = false ∧ runAll s.inputs.changes s.counted = .next t) := by
  unfold step at h
  split at h
  · unfold State.tick at h
    split at h
    · cases h
      exact .inr (.inl ⟨‹_›, ‹_›, rfl⟩)
    · exact .inr (.inr ⟨‹_›, by simpa using ‹¬s.resetLow = true›, h⟩)
  · exact .inl ⟨_, _, ‹_›, h⟩

/-- An invariant that does not read the queue of waiting commands is kept by every step where every command and a
tick's counting keep it. -/
theorem step_keeps (P : State → Prop) (queue : ∀ s l, P s → P { s with pending := l })
    (counts : ∀ s, P s → P s.counted) (keeps : ∀ i s t, exec i s = .next t → P s → P t)
    (s t : State) (h : step s = .next t) (p : P s) : P t := by
  obtain ⟨c, rest, -, h⟩ | ⟨-, -, rfl⟩ | ⟨-, -, h⟩ := step_cases s t h
  · exact keeps c _ t h (queue s rest p)
  · exact p
  · exact runAll_keeps P keeps _ _ t h (counts s p)

/-! ### Changes of the line inputs (R182) -/

theorem signal_powered (drive : Inputs → Inputs) (f : State → State) (s : State) (h : s.resetLow = false) :
    signal drive f s = .next (f s).settle := by
  simp [signal, event, h]

/-- While RESET_N is low a change of an input is noted on its wire and nothing follows (log 8). -/
theorem signal_low (drive : Inputs → Inputs) (f : State → State) (s : State) (h : s.resetLow = true) :
    signal drive f s = .next (s.setInputs (drive s.inputs)) := by
  simp [signal, h]

/-- No change is due where every input's level is what is driven. -/
theorem LevelInput.due_settled (filter : Nat) (x : Bool) : (LevelInput.settled x).due filter = false := by
  simp [LevelInput.due, LevelInput.settled]

theorem LevelInput.tick_settled (filter : Nat) (x : Bool) : (LevelInput.settled x).tick filter = .settled x := by
  simp [LevelInput.tick, LevelInput.due, LevelInput.wait, LevelInput.settled]

/-! ### The granted burst's mark (R81) and the next row (R101) -/

@[simp] theorem Arbiter.mark_fairness (a : Arbiter) (r : Requester) (x y : Fate) :
    (a.mark r x y).fairness = a.fairness := rfl

@[simp] theorem Arbiter.mark_turn (a : Arbiter) (r : Requester) (x y : Fate) : (a.mark r x y).turn = a.turn := rfl

/-- Marking a burst leaves its requester and its bytes alone. -/
theorem Arbiter.mark_port (a : Arbiter) (r : Requester) (x y : Fate) (g : Granted) (h : (a.mark r x y).port = some g) :
    ∃ g', a.port = some g' ∧ g.requester = g'.requester ∧ g.burst = g'.burst ∧
      g.fate = if g'.requester = r ∧ g'.fate = x then y else g'.fate := by
  unfold Arbiter.mark at h
  cases hp : a.port with
  | none => simp [hp] at h
  | some g' =>
    simp only [hp, Option.map_some, Option.some.injEq] at h
    refine ⟨g', rfl, ?_⟩
    subst h
    split <;> simp_all

theorem first_le_nextRow (first last choke : Nat) (reads writes : List (Nat × Nat)) :
    first ≤ nextRow first last choke reads writes := by
  unfold nextRow
  exact Nat.le_max_left _ _

theorem nextRow_le (first last choke : Nat) (reads writes : List (Nat × Nat)) (h : first ≤ last + 1) :
    nextRow first last choke reads writes ≤ last + 1 := by
  unfold nextRow
  exact Nat.max_le.mpr ⟨h, Nat.min_le_right _ _⟩

theorem nextRow_done (first last choke : Nat) (h : first ≤ last + 1) : nextRow first last choke [] [] = last + 1 := by
  simp [nextRow, h]

end Sys2Proof.Machine
end

