-- ==== Sys2Proof/Laws/Memory.lean ====
section
/-! SUPPORT. The art memory: every operation keeps the canonical form, a read after a write gives the byte
written there and leaves every other byte as it was, and equal reads are equal memories. -/

namespace Sys2Proof.Machine

theorem Memory.wf_cons (x : Nat) (v : Byte) (r : Memory) :
    Memory.wf ((x, v) :: r) = true ↔ v ≠ Memory.unlisted ∧ (∀ c ∈ r, x < c.1) ∧ Memory.wf r = true := by
  simp [Memory.wf, and_assoc]

theorem Memory.wf_nil : Memory.wf [] = true := rfl

/-- Below every listed address nothing is listed. -/
theorem Memory.read_below (m : Memory) (a : Nat) (h : ∀ c ∈ m, a < c.1) : m.read a = Memory.unlisted := by
  induction m with
  | nil => rfl
  | cons c r ih =>
    have h1 := h c List.mem_cons_self
    simp only [Memory.read, show c.1 ≠ a by omega, if_false]
    exact ih fun d hd => h d (List.mem_cons_of_mem c hd)

/-- Every address listed after a write was listed before or is the one written. -/
theorem Memory.write_mem (m : Memory) (a : Nat) (b : Byte) (c : Host.Cell) (h : c ∈ Memory.write m a b) :
    c ∈ m ∨ c.1 = a := by
  induction m with
  | nil =>
    simp only [Memory.write] at h
    split at h <;> simp_all
  | cons d r ih =>
    obtain ⟨x, v⟩ := d
    simp only [Memory.write] at h
    split_ifs at h
    all_goals simp only [List.mem_cons] at h ⊢
    all_goals grind

/-- A write keeps the canonical form. -/
theorem Memory.write_wf (m : Memory) (a : Nat) (b : Byte) (h : Memory.wf m = true) :
    Memory.wf (Memory.write m a b) = true := by
  induction m with
  | nil =>
    simp only [Memory.write]
    split <;> simp_all [Memory.wf]
  | cons d r ih =>
    obtain ⟨x, v⟩ := d
    obtain ⟨h1, h2, h3⟩ := (Memory.wf_cons x v r).1 h
    simp only [Memory.write]
    split_ifs with g1 g2 g3 g4
    · exact h
    · refine (Memory.wf_cons _ _ _).2 ⟨g2, ?_, h⟩
      intro c hc
      rcases List.mem_cons.1 hc with rfl | hc
      · exact g1
      · have := h2 c hc; omega
    · exact h3
    · exact (Memory.wf_cons _ _ _).2 ⟨g4, fun c hc => by have := h2 c hc; omega, h3⟩
    · refine (Memory.wf_cons _ _ _).2 ⟨h1, ?_, ih h3⟩
      intro c hc
      rcases Memory.write_mem r a b c hc with k | k
      · exact h2 c k
      · omega

/-- R67's memory after a write: the byte there, every other byte as before. -/
theorem Memory.read_write (m : Memory) (a : Nat) (b : Byte) (k : Nat) (h : Memory.wf m = true) :
    (Memory.write m a b).read k = if k = a then b else m.read k := by
  induction m with
  | nil =>
    simp only [Memory.write]
    split_ifs with g1 g2 g2 <;> simp_all [Memory.read]
    omega
  | cons d r ih =>
    obtain ⟨x, v⟩ := d
    obtain ⟨h1, h2, h3⟩ := (Memory.wf_cons x v r).1 h
    have low (n : Nat) (hn : n ≤ x) : Memory.read r n = Memory.unlisted :=
      Memory.read_below r n fun c hc => by have := h2 c hc; omega
    have hr := ih h3
    have hx : k = x → Memory.read r k = Memory.unlisted := fun e => low k (by omega)
    have ha : k = a → a ≤ x → Memory.read r k = Memory.unlisted := fun e g => low k (by omega)
    simp only [Memory.write]
    split_ifs with g1 g2 g3 g4
    all_goals grind [Memory.read]

theorem Memory.writeRun_wf (bs : List Byte) (m : Memory) (a : Nat) (h : Memory.wf m = true) :
    Memory.wf (Memory.writeRun m a bs) = true := by
  induction bs generalizing m a with
  | nil => exact h
  | cons b r ih => exact ih _ _ (Memory.write_wf m a b h)

/-- A run of bytes after it is written, and every other byte as before. -/
theorem Memory.read_writeRun (bs : List Byte) (m : Memory) (a k : Nat) (h : Memory.wf m = true) :
    (Memory.writeRun m a bs).read k = if a ≤ k then bs[k - a]?.getD (m.read k) else m.read k := by
  induction bs generalizing m a with
  | nil => simp [Memory.writeRun]
  | cons b r ih =>
    rw [Memory.writeRun, ih _ _ (Memory.write_wf m a b h), Memory.read_write m a b k h]
    by_cases h1 : a ≤ k
    · by_cases h2 : k = a
      · subst h2; simp
      · have h3 : k - a = (k - (a + 1)) + 1 := by omega
        simp only [h1, if_true, show a + 1 ≤ k by omega, h2, if_false, h3, List.getElem?_cons_succ]
    · simp [h1, show ¬a + 1 ≤ k by omega, show k ≠ a by omega]

theorem Memory.ofCells_wf (cells : List Host.Cell) : Memory.wf (Memory.ofCells cells) = true := by
  have go (m : Memory) (h : Memory.wf m = true) :
      Memory.wf (cells.foldl (fun m c => if c.1 < artMemorySize then m.write c.1 c.2 else m) m) = true := by
    induction cells generalizing m with
    | nil => exact h
    | cons c r ih =>
      rw [List.foldl_cons]
      apply ih
      split
      · exact Memory.write_wf _ _ _ h
      · exact h
  exact go [] rfl

/-- The memory right after reset is in canonical form. -/
theorem Memory.reset_wf : Memory.wf State.reset.mem = true := by
  decide

/-- The canonical form is one: memories in it that read alike are equal. -/
theorem Memory.ext_of_wf (m n : Memory) (hm : Memory.wf m = true) (hn : Memory.wf n = true)
    (h : ∀ a, m.read a = n.read a) : m = n := by
  induction m generalizing n with
  | nil =>
    cases n with
    | nil => rfl
    | cons d r =>
      obtain ⟨x, v⟩ := d
      obtain ⟨h1, -, -⟩ := (Memory.wf_cons x v r).1 hn
      have := h x
      simp [Memory.read] at this
      exact absurd this.symm h1
  | cons c r ih =>
    obtain ⟨x, v⟩ := c
    obtain ⟨h1, h2, h3⟩ := (Memory.wf_cons x v r).1 hm
    cases n with
    | nil =>
      have := h x
      simp [Memory.read] at this
      exact absurd this h1
    | cons d q =>
      obtain ⟨y, w⟩ := d
      obtain ⟨k1, k2, k3⟩ := (Memory.wf_cons y w q).1 hn
      have low (l : Memory) (z n : Nat) (hl : ∀ c ∈ l, z < c.1) (hz : n ≤ z) : Memory.read l n = Memory.unlisted :=
        Memory.read_below l n fun c hc => by have := hl c hc; omega
      have hxy : x = y := by
        rcases Nat.lt_trichotomy x y with g | g | g
        · have := h x
          simp only [Memory.read, if_true, show y ≠ x by omega, if_false] at this
          rw [low q y x k2 (by omega)] at this
          exact absurd this h1
        · exact g
        · have := h y
          simp only [Memory.read, if_true, show x ≠ y by omega, if_false] at this
          rw [low r x y h2 (by omega)] at this
          exact absurd this.symm k1
      subst hxy
      have hv : v = w := by simpa [Memory.read] using h x
      subst hv
      congr 1
      refine ih q h3 k3 fun a => ?_
      have e := h a
      simp only [Memory.read] at e
      by_cases g : x = a
      · subst g
        rw [low r x x h2 le_rfl, low q x x k2 le_rfl]
      · simpa [g] using e

end Sys2Proof.Machine
end

