-- ==== Sys2Proof/Laws/Settle.lean ====
section
/-! SUPPORT. What the end of a step leaves alone, and how a request or an event comes to its effect. -/

namespace Sys2Proof.Machine

@[simp] theorem State.settle_pending (s : State) : s.settle.pending = s.pending := rfl
@[simp] theorem State.settle_resetLow (s : State) : s.settle.resetLow = s.resetLow := rfl
@[simp] theorem State.settle_powerFlag (s : State) : s.settle.powerFlag = s.powerFlag := rfl
@[simp] theorem State.settle_clock (s : State) : s.settle.clock = s.clock := rfl
@[simp] theorem State.settle_inputs (s : State) : s.settle.inputs = s.inputs := rfl
@[simp] theorem State.settle_track (s : State) : s.settle.track = s.track := rfl
@[simp] theorem State.settle_book (s : State) : s.settle.book = s.book := rfl
@[simp] theorem State.settle_units (s : State) : s.settle.units = s.units := rfl
@[simp] theorem State.settle_store (s : State) : s.settle.store = s.store := rfl
@[simp] theorem State.settle_arbiter (s : State) : s.settle.arbiter = s.arbiter := rfl
@[simp] theorem State.settle_mem (s : State) : s.settle.mem = s.mem := rfl
@[simp] theorem State.settle_engine (s : State) : s.settle.engine = s.engine := rfl
@[simp] theorem State.settle_spray (s : State) : s.settle.spray = s.spray := rfl
@[simp] theorem State.settle_press (s : State) : s.settle.press = s.press := rfl
@[simp] theorem State.settle_ring (s : State) : s.settle.ring = s.ring := rfl
@[simp] theorem State.settle_cure (s : State) : s.settle.cure = s.cure := rfl
@[simp] theorem State.settle_shelf (s : State) : s.settle.shelf = s.shelf := rfl
@[simp] theorem State.settle_lineReset (s : State) : s.settle.lineReset = s.lineReset := rfl

@[simp] theorem State.taken_pending (s : State) (v : Via) (kind : Nat) : (s.taken v kind).pending = s.pending := rfl
@[simp] theorem State.taken_resetLow (s : State) (v : Via) (kind : Nat) : (s.taken v kind).resetLow = s.resetLow := rfl
@[simp] theorem State.taken_powerFlag (s : State) (v : Via) (kind : Nat) : (s.taken v kind).powerFlag = s.powerFlag := rfl
@[simp] theorem State.taken_clock (s : State) (v : Via) (kind : Nat) : (s.taken v kind).clock = s.clock := rfl
@[simp] theorem State.taken_inputs (s : State) (v : Via) (kind : Nat) : (s.taken v kind).inputs = s.inputs := rfl
@[simp] theorem State.taken_track (s : State) (v : Via) (kind : Nat) : (s.taken v kind).track = s.track := rfl
@[simp] theorem State.taken_book (s : State) (v : Via) (kind : Nat) : (s.taken v kind).book = s.book := rfl
@[simp] theorem State.taken_units (s : State) (v : Via) (kind : Nat) : (s.taken v kind).units = s.units := rfl
@[simp] theorem State.taken_store (s : State) (v : Via) (kind : Nat) : (s.taken v kind).store = s.store := rfl
@[simp] theorem State.taken_arbiter (s : State) (v : Via) (kind : Nat) : (s.taken v kind).arbiter = s.arbiter := rfl
@[simp] theorem State.taken_mem (s : State) (v : Via) (kind : Nat) : (s.taken v kind).mem = s.mem := rfl
@[simp] theorem State.taken_engine (s : State) (v : Via) (kind : Nat) : (s.taken v kind).engine = s.engine := rfl
@[simp] theorem State.taken_spray (s : State) (v : Via) (kind : Nat) : (s.taken v kind).spray = s.spray := rfl
@[simp] theorem State.taken_press (s : State) (v : Via) (kind : Nat) : (s.taken v kind).press = s.press := rfl
@[simp] theorem State.taken_ring (s : State) (v : Via) (kind : Nat) : (s.taken v kind).ring = s.ring := rfl
@[simp] theorem State.taken_cure (s : State) (v : Via) (kind : Nat) : (s.taken v kind).cure = s.cure := rfl
@[simp] theorem State.taken_shelf (s : State) (v : Via) (kind : Nat) : (s.taken v kind).shelf = s.shelf := rfl
@[simp] theorem State.taken_lineReset (s : State) (v : Via) (kind : Nat) : (s.taken v kind).lineReset = s.lineReset := rfl
@[simp] theorem State.taken_indicators (s : State) (v : Via) (kind : Nat) : (s.taken v kind).indicators = s.indicators := rfl

/-! ### The transmitter's start touches its own fields only -/

@[simp] theorem LinkState.kick_slot (k : LinkState) : k.kick.slot = k.slot := by
  unfold LinkState.kick
  repeat' split
  all_goals rfl

@[simp] theorem LinkState.kick_receiver (k : LinkState) : k.kick.receiver = k.receiver := by
  unfold LinkState.kick
  repeat' split
  all_goals rfl

@[simp] theorem LinkState.kick_silent (k : LinkState) : k.kick.silent = k.silent := by
  unfold LinkState.kick
  repeat' split
  all_goals rfl

@[simp] theorem LinkState.kick_busy (k : LinkState) : k.kick.busy = k.busy := by
  unfold LinkState.kick
  repeat' split
  all_goals rfl

@[simp] theorem LinkState.kick_discards (k : LinkState) : k.kick.discards = k.discards := by
  unfold LinkState.kick
  repeat' split
  all_goals rfl

@[simp] theorem LinkState.kick_mask (k : LinkState) : k.kick.mask = k.mask := by
  unfold LinkState.kick
  repeat' split
  all_goals rfl

@[simp] theorem LinkState.kick_queue (k : LinkState) : k.kick.queue = k.queue := by
  unfold LinkState.kick
  repeat' split
  all_goals rfl

@[simp] theorem LinkState.kick_number (k : LinkState) : k.kick.number = k.number := by
  unfold LinkState.kick
  repeat' split
  all_goals rfl

/-- A frame being sent goes on (R169). -/
theorem LinkState.kick_sending (k : LinkState) (source : TxSource) (f : List Byte) (h : k.tx = .sending source f) :
    k.kick = k := by
  simp [LinkState.kick, h]

/-- In BREAK nothing is started (R172). -/
theorem LinkState.kick_inBreak (k : LinkState) (h : k.receiver = .inBreak) : k.kick = k := by
  cases e : k.tx <;> simp [LinkState.kick, e, h]

/-- With nothing waiting a free transmitter stays idle. -/
theorem LinkState.kick_nothing (k : LinkState) (b : k.busy = none) (r : k.readyReply = none) (q : k.queue = []) :
    k.kick = k := by
  cases e : k.tx <;> by_cases h : k.receiver = .inBreak <;> simp [LinkState.kick, e, h, b, r, q]

/-- Outside BREAK a free transmitter starts a ready reply with no BUSY reply before it (R169). -/
theorem LinkState.kick_reply (k : LinkState) (t : k.tx = .idle) (h : k.receiver ≠ .inBreak) (tag kind : Nat) (a : Answer)
    (r : k.readyReply = some (tag, kind, a)) (b : ∀ x, k.busy = some x → x.behind = true) :
    k.kick = { k with tx := .sending .reply (replyFrame tag kind a) } := by
  cases e : k.busy with
  | none => simp [LinkState.kick, t, h, r, e]
  | some x => simp [LinkState.kick, t, h, r, e, b x e]

/-- Outside BREAK a free transmitter starts a BUSY reply with no ready reply before it (R169). -/
theorem LinkState.kick_busyReply (k : LinkState) (t : k.tx = .idle) (h : k.receiver ≠ .inBreak) (b : BusyReply)
    (e : k.busy = some b) (r : b.behind = false ∨ k.readyReply = none) :
    k.kick = { k with tx := .sending .busy (busyFrame b) } := by
  cases q : k.readyReply with
  | none => simp [LinkState.kick, t, h, q, e]
  | some x => simp [LinkState.kick, t, h, q, e, r.resolve_right (by simp [q])]

/-- Outside BREAK a free transmitter with no reply waiting starts the oldest notice, which takes the lost mark (R175). -/
theorem LinkState.kick_notice (k : LinkState) (t : k.tx = .idle) (h : k.receiver ≠ .inBreak) (b : k.busy = none)
    (r : k.readyReply = none) (n : QueuedNotice) (rest : List QueuedNotice) (q : k.queue = n :: rest) :
    k.kick = { k with tx := .sending .notice (noticeFrame n k.lost), lost := false } := by
  simp [LinkState.kick, t, h, b, r, q]

/-- The lost mark stands, or the oldest notice takes it along (R175). -/
theorem LinkState.kick_lost (k : LinkState) : k.kick.lostStands k.lost := by
  unfold LinkState.kick
  repeat' split
  all_goals first | exact Or.inl rfl | (rename_i q; exact Or.inr ⟨rfl, _, by simp [q], rfl⟩)

@[simp] theorem LinkState.offer_slot (k : LinkState) (time : Word) (n : Notice) :
    (k.offer time n).slot = k.slot := by
  unfold LinkState.offer
  repeat' split
  all_goals rfl

@[simp] theorem LinkState.offer_receiver (k : LinkState) (time : Word) (n : Notice) :
    (k.offer time n).receiver = k.receiver := by
  unfold LinkState.offer
  repeat' split
  all_goals rfl

@[simp] theorem LinkState.offer_silent (k : LinkState) (time : Word) (n : Notice) :
    (k.offer time n).silent = k.silent := by
  unfold LinkState.offer
  repeat' split
  all_goals rfl

@[simp] theorem LinkState.offer_busy (k : LinkState) (time : Word) (n : Notice) :
    (k.offer time n).busy = k.busy := by
  unfold LinkState.offer
  repeat' split
  all_goals rfl

@[simp] theorem LinkState.offer_discards (k : LinkState) (time : Word) (n : Notice) :
    (k.offer time n).discards = k.discards := by
  unfold LinkState.offer
  repeat' split
  all_goals rfl

@[simp] theorem LinkState.offer_mask (k : LinkState) (time : Word) (n : Notice) :
    (k.offer time n).mask = k.mask := by
  unfold LinkState.offer
  repeat' split
  all_goals rfl

@[simp] theorem LinkState.offer_tx (k : LinkState) (time : Word) (n : Notice) :
    (k.offer time n).tx = k.tx := by
  unfold LinkState.offer
  repeat' split
  all_goals rfl

@[simp] theorem State.settle_link (s : State) (l : Link) : s.settle.link l = (s.link l).kick := by
  simp [State.settle, State.kickAll, State.link, State.judgeIndicators]

/-! ### Indicator assignments -/

@[simp] theorem Indicator.judge_conditions (i : Indicator) (a : Bool) : (i.judge a).conditions = i.conditions := by
  unfold Indicator.judge
  repeat' split
  all_goals rfl

@[simp] theorem Indicator.judge_blink (i : Indicator) (a : Bool) : (i.judge a).blink = i.blink := by
  unfold Indicator.judge
  repeat' split
  all_goals rfl

@[simp] theorem Indicator.judge_onTime (i : Indicator) (a : Bool) : (i.judge a).onTime = i.onTime := by
  unfold Indicator.judge
  repeat' split
  all_goals rfl

@[simp] theorem Indicator.judge_offTime (i : Indicator) (a : Bool) : (i.judge a).offTime = i.offTime := by
  unfold Indicator.judge
  repeat' split
  all_goals rfl

theorem State.settle_indicators (s : State) :
    s.settle.indicators = vmap (fun i => i.judge (i.active s.conditions)) s.indicators := rfl

/-! ### Requests and events -/

theorem State.taken_link_self (s : State) (v : Via) (kind : Nat) :
    (s.taken v kind).link v.link = { (s.link v.link) with slot := .inFlight v.tag kind .working, silent := false } := by
  simp [State.taken, LinkState.takeUp]

theorem State.taken_link_ne (s : State) (v : Via) (kind : Nat) (l : Link) (h : l ≠ v.link) :
    (s.taken v kind).link l = s.link l :=
  State.putLink_link_ne s v.link l _ (Ne.symm h)

/-- A ready request is taken up, handled and answered; nothing else stands between. -/
theorem request_ready (v : Via) (kind : Nat) (i : Instr) (h : State → Taken) (s : State) (r : Ready s v kind) :
    request v kind i h s = .next ((s.taken v kind).handle v.link h).settle := by
  obtain ⟨h1, h2, h3, h4⟩ := r
  simp [request, h1, State.takeRequest, h3, h2, h4]

theorem event_powered (f : State → State) (s : State) (h : s.resetLow = false) :
    event f s = .next (f s).settle := by
  simp [event, h]

/-- The completion of a request being worked on, in reply mode SEND. -/
theorem State.answer_slot (s : State) (l : Link) (a : Answer) (tag kind : Nat)
    (h : (s.link l).slot = .inFlight tag kind .working) (hs : (s.link l).silent = false) :
    ((s.answer l a).link l).slot = .inFlight tag kind (.ready a) := by
  simp [State.answer, LinkState.complete, h, hs]

theorem State.answer_link_ne (s : State) (l m : Link) (a : Answer) (h : l ≠ m) :
    (s.answer l a).link m = s.link m :=
  State.putLink_link_ne s l m _ h

@[simp] theorem LinkState.complete_receiver (k : LinkState) (a : Answer) : (k.complete a).receiver = k.receiver := by
  unfold LinkState.complete
  repeat' split
  all_goals rfl

@[simp] theorem LinkState.complete_silent (k : LinkState) (a : Answer) : (k.complete a).silent = k.silent := by
  unfold LinkState.complete
  repeat' split
  all_goals rfl

@[simp] theorem LinkState.complete_busy (k : LinkState) (a : Answer) : (k.complete a).busy = k.busy := by
  unfold LinkState.complete
  repeat' split
  all_goals rfl

@[simp] theorem LinkState.complete_discards (k : LinkState) (a : Answer) : (k.complete a).discards = k.discards := by
  unfold LinkState.complete
  repeat' split
  all_goals rfl

@[simp] theorem LinkState.complete_mask (k : LinkState) (a : Answer) : (k.complete a).mask = k.mask := by
  unfold LinkState.complete
  repeat' split
  all_goals rfl

@[simp] theorem LinkState.complete_queue (k : LinkState) (a : Answer) : (k.complete a).queue = k.queue := by
  unfold LinkState.complete
  repeat' split
  all_goals rfl

@[simp] theorem LinkState.complete_lost (k : LinkState) (a : Answer) : (k.complete a).lost = k.lost := by
  unfold LinkState.complete
  repeat' split
  all_goals rfl

@[simp] theorem LinkState.complete_number (k : LinkState) (a : Answer) : (k.complete a).number = k.number := by
  unfold LinkState.complete
  repeat' split
  all_goals rfl

@[simp] theorem LinkState.complete_tx (k : LinkState) (a : Answer) : (k.complete a).tx = k.tx := by
  unfold LinkState.complete
  repeat' split
  all_goals rfl

end Sys2Proof.Machine
end

