-- ==== Sys2Proof/Laws/Slot.lean ====
section
/-! SUPPORT. A request's slot does not reach its block: every handler gives the same result, the slot apart,
whatever stands in it. What a ready request answers follows from what its handler gives. -/

namespace Sys2Proof.Machine

/-- A link's slot and its reply mode (`true` SILENT) replaced. -/
def State.slotted (s : State) (l : Link) (x : Slot) (mode : Bool) : State :=
  s.putLink l { (s.link l) with slot := x, silent := mode }

theorem State.taken_eq_slotted (s : State) (v : Via) (kind : Nat) :
    s.taken v kind = s.slotted v.link (.inFlight v.tag kind .working) false := rfl

section Fields

variable (s : State) (l : Link) (x : Slot) (mode : Bool)

@[simp] theorem State.slotted_pending : (s.slotted l x mode).pending = s.pending := rfl
@[simp] theorem State.slotted_resetLow : (s.slotted l x mode).resetLow = s.resetLow := rfl
@[simp] theorem State.slotted_powerFlag : (s.slotted l x mode).powerFlag = s.powerFlag := rfl
@[simp] theorem State.slotted_clock : (s.slotted l x mode).clock = s.clock := rfl
@[simp] theorem State.slotted_inputs : (s.slotted l x mode).inputs = s.inputs := rfl
@[simp] theorem State.slotted_track : (s.slotted l x mode).track = s.track := rfl
@[simp] theorem State.slotted_book : (s.slotted l x mode).book = s.book := rfl
@[simp] theorem State.slotted_units : (s.slotted l x mode).units = s.units := rfl
@[simp] theorem State.slotted_store : (s.slotted l x mode).store = s.store := rfl
@[simp] theorem State.slotted_arbiter : (s.slotted l x mode).arbiter = s.arbiter := rfl
@[simp] theorem State.slotted_mem : (s.slotted l x mode).mem = s.mem := rfl
@[simp] theorem State.slotted_engine : (s.slotted l x mode).engine = s.engine := rfl
@[simp] theorem State.slotted_spray : (s.slotted l x mode).spray = s.spray := rfl
@[simp] theorem State.slotted_press : (s.slotted l x mode).press = s.press := rfl
@[simp] theorem State.slotted_ring : (s.slotted l x mode).ring = s.ring := rfl
@[simp] theorem State.slotted_cure : (s.slotted l x mode).cure = s.cure := rfl
@[simp] theorem State.slotted_shelf : (s.slotted l x mode).shelf = s.shelf := rfl
@[simp] theorem State.slotted_lineReset : (s.slotted l x mode).lineReset = s.lineReset := rfl
@[simp] theorem State.slotted_indicators : (s.slotted l x mode).indicators = s.indicators := rfl

theorem State.slotted_link_self : (s.slotted l x mode).link l = { (s.link l) with slot := x, silent := mode } := by
  simp [State.slotted]

theorem State.slotted_link_ne (m : Link) (h : l ≠ m) : (s.slotted l x mode).link m = s.link m :=
  State.putLink_link_ne s l m _ h

/-! ### Setters and records -/

@[simp] theorem State.slotted_setClock (y : Clock) : (s.slotted l x mode).setClock y = (s.setClock y).slotted l x mode := rfl
@[simp] theorem State.slotted_setInputs (y : Inputs) : (s.slotted l x mode).setInputs y = (s.setInputs y).slotted l x mode := rfl
@[simp] theorem State.slotted_setTrack (y : Track) : (s.slotted l x mode).setTrack y = (s.setTrack y).slotted l x mode := rfl
@[simp] theorem State.slotted_setBook (y : Book) : (s.slotted l x mode).setBook y = (s.setBook y).slotted l x mode := rfl
@[simp] theorem State.slotted_setUnits (y : Match) : (s.slotted l x mode).setUnits y = (s.setUnits y).slotted l x mode := rfl
@[simp] theorem State.slotted_setStore (y : Store) : (s.slotted l x mode).setStore y = (s.setStore y).slotted l x mode := rfl
@[simp] theorem State.slotted_setArbiter (y : Arbiter) : (s.slotted l x mode).setArbiter y = (s.setArbiter y).slotted l x mode :=
  rfl
@[simp] theorem State.slotted_setMem (y : Memory) : (s.slotted l x mode).setMem y = (s.setMem y).slotted l x mode := rfl
@[simp] theorem State.slotted_setEngine (y : Engine) : (s.slotted l x mode).setEngine y = (s.setEngine y).slotted l x mode := rfl
@[simp] theorem State.slotted_setSpray (y : Spray) : (s.slotted l x mode).setSpray y = (s.setSpray y).slotted l x mode := rfl
@[simp] theorem State.slotted_setPress (y : Press) : (s.slotted l x mode).setPress y = (s.setPress y).slotted l x mode := rfl
@[simp] theorem State.slotted_setRing (y : Ring) : (s.slotted l x mode).setRing y = (s.setRing y).slotted l x mode := rfl
@[simp] theorem State.slotted_setCure (y : Cure) : (s.slotted l x mode).setCure y = (s.setCure y).slotted l x mode := rfl
@[simp] theorem State.slotted_setShelf (y : Shelf) : (s.slotted l x mode).setShelf y = (s.setShelf y).slotted l x mode := rfl
@[simp] theorem State.slotted_setLineReset (y : Option Link) :
    (s.slotted l x mode).setLineReset y = (s.setLineReset y).slotted l x mode := rfl
@[simp] theorem State.slotted_setIndicators (y : Vector Indicator 6) :
    (s.slotted l x mode).setIndicators y = (s.setIndicators y).slotted l x mode := rfl
@[simp] theorem State.slotted_setPowerFlag (y : Bool) :
    (s.slotted l x mode).setPowerFlag y = (s.setPowerFlag y).slotted l x mode := rfl

@[simp] theorem State.slotted_garment (p : Fin 16) : (s.slotted l x mode).garment p = s.garment p := rfl
@[simp] theorem State.slotted_isEmpty (p : Fin 16) : (s.slotted l x mode).isEmpty p = s.isEmpty p := rfl
@[simp] theorem State.slotted_place (p : Fin 16) : (s.slotted l x mode).place p = s.place p := rfl
@[simp] theorem State.slotted_station (n : Fin 6) : (s.slotted l x mode).station n = s.station n := rfl
@[simp] theorem State.slotted_lane (n : Fin 6) : (s.slotted l x mode).lane n = s.lane n := rfl
@[simp] theorem State.slotted_seg (g : Segment) : (s.slotted l x mode).seg g = s.seg g := rfl
@[simp] theorem State.slotted_lanePosition (p : Fin 16) : (s.slotted l x mode).lanePosition p = s.lanePosition p := rfl
@[simp] theorem State.slotted_garmentAt (n : Fin 6) : (s.slotted l x mode).garmentAt n = s.garmentAt n := rfl
@[simp] theorem State.slotted_present (n : Fin 6) : (s.slotted l x mode).present n = s.present n := rfl
@[simp] theorem State.slotted_art (h : Fin 64) : (s.slotted l x mode).art h = s.art h := rfl
@[simp] theorem State.slotted_extent (p : Placement) : (s.slotted l x mode).extent p = s.extent p := rfl
@[simp] theorem State.slotted_shelfSlot (i : Fin 8) : (s.slotted l x mode).shelfSlot i = s.shelfSlot i := rfl
@[simp] theorem State.slotted_freeShelf : (s.slotted l x mode).freeShelf = s.freeShelf := rfl
@[simp] theorem State.slotted_freshSerial : (s.slotted l x mode).freshSerial = s.freshSerial := rfl
@[simp] theorem State.slotted_candidates (b : BlankCode) : (s.slotted l x mode).candidates b = s.candidates b := rfl
@[simp] theorem State.slotted_isCandidate (b : BlankCode) (o : Order) (i : Fin 512) :
    (s.slotted l x mode).isCandidate b o i = s.isCandidate b o i := rfl
@[simp] theorem State.slotted_sessionGarment : (s.slotted l x mode).sessionGarment = s.sessionGarment := rfl
@[simp] theorem State.slotted_lineStateNotice : (s.slotted l x mode).lineStateNotice = s.lineStateNotice := rfl

@[simp] theorem State.slotted_putGarment (p : Fin 16) (g : Option Garment) :
    (s.slotted l x mode).putGarment p g = (s.putGarment p g).slotted l x mode := rfl
@[simp] theorem State.slotted_putPlace (p : Fin 16) (y : Place) :
    (s.slotted l x mode).putPlace p y = (s.putPlace p y).slotted l x mode := rfl
@[simp] theorem State.slotted_putStation (n : Fin 6) (y : Station) :
    (s.slotted l x mode).putStation n y = (s.putStation n y).slotted l x mode := rfl
@[simp] theorem State.slotted_putLane (n : Fin 6) (y : List (Fin 16)) :
    (s.slotted l x mode).putLane n y = (s.putLane n y).slotted l x mode := rfl
@[simp] theorem State.slotted_putSeg (g : Segment) (y : SegState) :
    (s.slotted l x mode).putSeg g y = (s.putSeg g y).slotted l x mode := by cases g <;> rfl
@[simp] theorem State.slotted_putArt (h : Fin 64) (d : Option Art) :
    (s.slotted l x mode).putArt h d = (s.putArt h d).slotted l x mode := rfl
@[simp] theorem State.slotted_putShelf (i : Fin 8) (y : Option ShelfSlot) :
    (s.slotted l x mode).putShelf i y = (s.putShelf i y).slotted l x mode := rfl
@[simp] theorem State.slotted_takeSerial : (s.slotted l x mode).takeSerial = s.takeSerial.slotted l x mode := rfl

/-! ### Notices -/

theorem LinkState.offer_slotted (k : LinkState) (time : Word) (n : Notice) :
    LinkState.offer time n { k with slot := x, silent := mode } =
      { (k.offer time n) with slot := x, silent := mode } := by
  unfold LinkState.offer
  repeat' split
  all_goals rfl

@[simp] theorem State.slotted_raise (n : Notice) : (s.slotted l x mode).raise n = (s.raise n).slotted l x mode := by
  cases l <;>
    simp [State.raise, State.slotted, State.putLink, State.link, State.setLinks, Links.map, Links.set, Links.get,
      LinkState.offer_slotted]

@[simp] theorem State.slotted_raiseAll (ns : List Notice) : (s.slotted l x mode).raiseAll ns = (s.raiseAll ns).slotted l x mode := by
  induction ns generalizing s with
  | nil => rfl
  | cons n r ih => rw [State.raiseAll_cons, State.slotted_raise, ih]; rfl

@[simp] theorem State.slotted_ite (c : Prop) [Decidable c] (t : State) :
    (if c then s.slotted l x mode else t.slotted l x mode) = (if c then s else t).slotted l x mode := by
  split <;> rfl

@[simp] theorem State.slotted_refuse (c : ResultCode) :
    (s.slotted l x mode).refuse c = ((s.refuse c).1.slotted l x mode, (s.refuse c).2) := rfl

@[simp] theorem State.slotted_accept (b : List Field) :
    (s.slotted l x mode).accept b = ((s.accept b).1.slotted l x mode, (s.accept b).2) := rfl

/-! ### Shared operations -/

@[simp] theorem State.slotted_setLine (y : LineState) : (s.slotted l x mode).setLine y = (s.setLine y).slotted l x mode := by
  unfold State.setLine
  simp only [State.slotted_track]
  split <;> simp_all

@[simp] theorem State.slotted_deriveOrder (n : Word) : (s.slotted l x mode).deriveOrder n = (s.deriveOrder n).slotted l x mode := by
  unfold State.deriveOrder
  simp only [State.slotted_book]
  repeat' split
  all_goals simp_all

@[simp] theorem State.slotted_changeLine (i : Fin 512) (y : Line) :
    (s.slotted l x mode).changeLine i y = (s.changeLine i y).slotted l x mode := by
  simp [State.changeLine]

@[simp] theorem State.slotted_reserve (i : Fin 512) :
    (s.slotted l x mode).reserve i = (s.reserve i).map fun t => t.slotted l x mode := by
  unfold State.reserve
  simp only [State.slotted_book]
  repeat' split
  all_goals simp_all

@[simp] theorem State.slotted_count (c : Counter) (i : Fin 512) :
    (s.slotted l x mode).count c i = ((s.count c i).1.slotted l x mode, (s.count c i).2) := by
  unfold State.count
  simp only [State.slotted_book]
  split <;> simp_all

@[simp] theorem State.slotted_countBinding (c : Counter) (g : Garment) :
    (s.slotted l x mode).countBinding c g = ((s.countBinding c g).1.slotted l x mode, (s.countBinding c g).2) := by
  unfold State.countBinding
  split <;> simp_all

@[simp] theorem State.slotted_appendJob (p : Fin 16) (serial : Word) (c : Option Nat) :
    (s.slotted l x mode).appendJob p serial c = (s.appendJob p serial c).slotted l x mode := by
  unfold State.appendJob
  split <;> simp_all

@[simp] theorem State.slotted_withdrawJob (p : Fin 16) (g : Garment) :
    (s.slotted l x mode).withdrawJob p g = (s.withdrawJob p g).slotted l x mode := by
  unfold State.withdrawJob
  split <;> simp_all

@[simp] theorem State.slotted_settledPretreat (r : Recipe) (p : Placement) :
    (s.slotted l x mode).settledPretreat r p = s.settledPretreat r p := rfl

@[simp] theorem State.slotted_bind (p : Fin 16) (g : Garment) (c : Fin 16) (y : Candidate) (z : Line) :
    (s.slotted l x mode).bind p g c y z = (s.bind p g c y z).slotted l x mode := by
  simp [State.bind]

@[simp] theorem State.slotted_reserveAndBind (p : Fin 16) (g : Garment) (c : Fin 16) (y : Candidate) :
    (s.slotted l x mode).reserveAndBind p g c y = (s.reserveAndBind p g c y).map fun t => t.slotted l x mode := by
  unfold State.reserveAndBind
  simp only [State.slotted_book, State.slotted_reserve]
  cases s.book.lines[y.line] <;> cases s.reserve y.line <;> simp

@[simp] theorem State.slotted_holdNoLine (p : Fin 16) (g : Garment) :
    (s.slotted l x mode).holdNoLine p g = (s.holdNoLine p g).slotted l x mode := by
  unfold State.holdNoLine
  split <;> simp_all

@[simp] theorem State.slotted_matchAttempt (p : Fin 16) :
    (s.slotted l x mode).matchAttempt p = (s.matchAttempt p).slotted l x mode := by
  unfold State.matchAttempt
  simp only [State.slotted_garment, State.slotted_candidates, State.slotted_reserveAndBind, State.slotted_holdNoLine]
  repeat' split
  all_goals simp_all

@[simp] theorem State.slotted_lookup (p : Fin 16) : (s.slotted l x mode).lookup p = (s.lookup p).slotted l x mode := by
  unfold State.lookup
  simp only [State.slotted_garment, State.slotted_book]
  repeat' split
  all_goals simp_all

@[simp] theorem State.slotted_rematch (c : RematchCause) : (s.slotted l x mode).rematch c = (s.rematch c).slotted l x mode := by
  unfold State.rematch
  simp only [State.slotted_garmentAt]
  repeat' split
  all_goals simp_all

@[simp] theorem State.slotted_rematchIf (b : Bool) : (s.slotted l x mode).rematchIf b = (s.rematchIf b).slotted l x mode := by
  unfold State.rematchIf
  split <;> simp_all

/-! ### More operations -/

@[simp] theorem State.slotted_setOrder (o : Order) (y : OrderStatus) :
    (s.slotted l x mode).setOrder o y = (s.setOrder o y).slotted l x mode := by
  simp [State.setOrder]

@[simp] theorem State.slotted_markOrphans (n : Word) :
    (s.slotted l x mode).markOrphans n = (s.markOrphans n).slotted l x mode := by
  simp [State.markOrphans]

@[simp] theorem State.slotted_cancelOrder (o : Order) :
    (s.slotted l x mode).cancelOrder o = (s.cancelOrder o).slotted l x mode := by
  simp [State.cancelOrder]

@[simp] theorem State.slotted_retireOrder (o : Order) :
    (s.slotted l x mode).retireOrder o = (s.retireOrder o).slotted l x mode := by
  simp [State.retireOrder]

@[simp] theorem State.slotted_postPlacement (y : PostLine) :
    (s.slotted l x mode).postPlacement y = s.postPlacement y := by
  rfl

@[simp] theorem State.slotted_postPlacements (ls : List PostLine) :
    (s.slotted l x mode).postPlacements ls = s.postPlacements ls := by
  induction ls with
  | nil => rfl
  | cons a r ih => simp [State.postPlacements, ih]

@[simp] theorem State.slotted_postOrder (n : Word) (k : Nat) (ls : List (PostLine × Placement)) :
    (s.slotted l x mode).postOrder n k ls = ((s.postOrder n k ls).1.slotted l x mode, (s.postOrder n k ls).2) := by
  simp [State.postOrder]

@[simp] theorem State.slotted_assignable (n : Nat) :
    (s.slotted l x mode).assignable n = s.assignable n := by
  rfl

@[simp] theorem State.slotted_unloadable (n : Nat) :
    (s.slotted l x mode).unloadable n = s.unloadable n := by
  rfl

@[simp] theorem State.slotted_loadReply (p : Fin 16) :
    (s.slotted l x mode).loadReply p = s.loadReply p := by
  rfl

@[simp] theorem State.slotted_endUnload (p : Fin 16) (g : Garment) (y : GarmentOutcome) :
    (s.slotted l x mode).endUnload p g y = (s.endUnload p g y).slotted l x mode := by
  simp [State.endUnload]

@[simp] theorem State.slotted_cureEntry (p : Fin 16) :
    (s.slotted l x mode).cureEntry p = (s.cureEntry p).slotted l x mode := by
  unfold State.cureEntry
  repeat' split
  all_goals simp_all

@[simp] theorem State.slotted_leavePress (p : Fin 16) :
    (s.slotted l x mode).leavePress p = (s.leavePress p).slotted l x mode := by
  unfold State.leavePress
  repeat' split
  all_goals simp_all

@[simp] theorem State.slotted_arriveUnload (p : Fin 16) :
    (s.slotted l x mode).arriveUnload p = (s.arriveUnload p).slotted l x mode := by
  unfold State.arriveUnload
  repeat' split
  all_goals simp_all

@[simp] theorem State.slotted_arrival (n : Fin 6) (p : Fin 16) :
    (s.slotted l x mode).arrival n p = (s.arrival n p).slotted l x mode := by
  unfold State.arrival
  repeat' split
  all_goals simp_all

@[simp] theorem State.slotted_departure (n : Fin 6) (p : Fin 16) :
    (s.slotted l x mode).departure n p = (s.departure n p).slotted l x mode := by
  unfold State.departure
  repeat' split
  all_goals simp_all

@[simp] theorem State.slotted_placeAt (n : Fin 6) (p : Fin 16) :
    (s.slotted l x mode).placeAt n p = (s.placeAt n p).slotted l x mode := by
  simp [State.placeAt]

@[simp] theorem State.slotted_joinLane (n : Fin 6) (p : Fin 16) :
    (s.slotted l x mode).joinLane n p = (s.joinLane n p).slotted l x mode := by
  simp [State.joinLane]

@[simp] theorem State.slotted_vacate (n : Fin 6) (p : Fin 16) :
    (s.slotted l x mode).vacate n p = (s.vacate n p).slotted l x mode := by
  simp [State.vacate]

@[simp] theorem State.slotted_platenMoved (p : Fin 16) (g : Option Segment) :
    (s.slotted l x mode).platenMoved p g = (s.platenMoved p g).slotted l x mode := by
  simp [State.platenMoved]

@[simp] theorem State.slotted_pressReleased :
    (s.slotted l x mode).pressReleased = (s.pressReleased).slotted l x mode := by
  unfold State.pressReleased
  repeat' split
  all_goals simp_all

@[simp] theorem State.slotted_confirmSeen (c : Confirmed) :
    (s.slotted l x mode).confirmSeen c = s.confirmSeen c := by
  rfl

@[simp] theorem State.slotted_confirm (g : Segment) (p : Fin 16) (c : Confirmed) :
    (s.slotted l x mode).confirm g p c = (s.confirm g p c).slotted l x mode := by
  unfold State.confirm
  repeat' split
  all_goals simp_all

@[simp] theorem State.slotted_leaveQueue (h : Fin 64) :
    (s.slotted l x mode).leaveQueue h = (s.leaveQueue h).slotted l x mode := by
  unfold State.leaveQueue
  repeat' split
  all_goals simp_all

@[simp] theorem State.slotted_freeArt :
    (s.slotted l x mode).freeArt = s.freeArt := by
  rfl

@[simp] theorem State.slotted_artOverlaps (a b : Nat) :
    (s.slotted l x mode).artOverlaps a b = s.artOverlaps a b := by
  rfl

@[simp] theorem State.slotted_paletteInUse (p : Fin 8) :
    (s.slotted l x mode).paletteInUse p = s.paletteInUse p := by
  rfl

@[simp] theorem State.slotted_pullable (q : Nat) :
    (s.slotted l x mode).pullable q = s.pullable q := by
  rfl

@[simp] theorem State.slotted_discardSwathUnit (p : Fin 16) (n : Word) :
    (s.slotted l x mode).discardSwathUnit p n = (s.discardSwathUnit p n).slotted l x mode := by
  unfold State.discardSwathUnit
  repeat' split
  all_goals simp_all

@[simp] theorem State.slotted_sampleGarment (p : Fin 16) (g : Garment) (b : Binding) (z : Int) :
    (s.slotted l x mode).sampleGarment p g b z = ((s.sampleGarment p g b z).1.slotted l x mode, (s.sampleGarment p g b z).2) := by
  unfold State.sampleGarment
  simp only [State.slotted_clock, State.slotted_cure, State.slotted_putGarment]
  generalize CureRecord.verdict _ _ = v
  cases v <;> simp

@[simp] theorem State.slotted_shelveGarment (p : Fin 16) (g : Garment) (c : Fin 16) (b : Binding) (i : Fin 8) :
    (s.slotted l x mode).shelveGarment p g c b i = (s.shelveGarment p g c b i).slotted l x mode := by
  unfold State.shelveGarment
  simp only [State.slotted_place]
  split <;> simp_all

@[simp] theorem State.slotted_restoredPretreat (y : ShelfSlot) (c : Components) :
    (s.slotted l x mode).restoredPretreat y c = s.restoredPretreat y c := by
  rfl

@[simp] theorem State.slotted_restoredGarment (y : ShelfSlot) (c : Components) :
    (s.slotted l x mode).restoredGarment y c = s.restoredGarment y c := by
  rfl

@[simp] theorem State.slotted_restore (i : Fin 8) (y : ShelfSlot) (p : Fin 16) (c : Components) :
    (s.slotted l x mode).restore i y p c = (s.restore i y p c).slotted l x mode := by
  simp [State.restore]

@[simp] theorem State.slotted_artReady (p : Placement) :
    (s.slotted l x mode).artReady p = s.artReady p := by
  rfl

@[simp] theorem State.slotted_takeOff (i : Fin 8) (y : ShelfSlot) (c : Counter) (e : ShelfEvent) :
    (s.slotted l x mode).takeOff i y c e = (s.takeOff i y c e).slotted l x mode := by
  simp [State.takeOff]

@[simp] theorem State.slotted_exportOrphan (c : Context) :
    (s.slotted l x mode).exportOrphan c = s.exportOrphan c := by
  rfl

@[simp] theorem State.slotted_namedLine (r : ReadRecord) :
    (s.slotted l x mode).namedLine r = s.namedLine r := by
  rfl

@[simp] theorem State.slotted_placeImport (i : Fin 8) (y : Context) (z : Line) :
    (s.slotted l x mode).placeImport i y z = (s.placeImport i y z).slotted l x mode := by
  simp [State.placeImport]

@[simp] theorem State.slotted_endDeclare (p : Fin 16) :
    (s.slotted l x mode).endDeclare p = ((s.endDeclare p).1.slotted l x mode, (s.endDeclare p).2) := by
  unfold State.endDeclare
  simp only [State.slotted_platenMoved, State.slotted_track]
  split <;> simp_all

/-! ### Handlers -/

theorem State.orderPost_slotted (n : Word) (k : Nat) (ls : List PostLine) :
    State.orderPost n k ls (s.slotted l x mode) = ((State.orderPost n k ls s).1.slotted l x mode, (State.orderPost n k ls s).2) := by
  simp only [State.orderPost, State.slotted_refuse, State.slotted_accept, State.slotted_book, State.slotted_postPlacements, State.slotted_postOrder, State.slotted_rematch]
  repeat' split
  all_goals rfl

theorem State.lineAmend_slotted (n : Word) (a b : Nat) :
    State.lineAmend n a b (s.slotted l x mode) = ((State.lineAmend n a b s).1.slotted l x mode, (State.lineAmend n a b s).2) := by
  simp only [State.lineAmend, State.slotted_refuse, State.slotted_accept, State.slotted_book, State.slotted_changeLine, State.slotted_rematchIf]
  repeat' split
  all_goals first | rfl | (simp_all; done) | (simp_all; omega)

theorem State.orderHold_slotted (n : Word) :
    State.orderHold n (s.slotted l x mode) = ((State.orderHold n s).1.slotted l x mode, (State.orderHold n s).2) := by
  simp only [State.orderHold, State.slotted_refuse, State.slotted_accept, State.slotted_book]
  repeat' split
  all_goals first | rfl | simp_all

theorem State.orderRelease_slotted (n : Word) :
    State.orderRelease n (s.slotted l x mode) = ((State.orderRelease n s).1.slotted l x mode, (State.orderRelease n s).2) := by
  simp only [State.orderRelease, State.slotted_refuse, State.slotted_accept, State.slotted_book]
  repeat' split
  all_goals first | rfl | simp_all

theorem State.orderCancel_slotted (n : Word) :
    State.orderCancel n (s.slotted l x mode) = ((State.orderCancel n s).1.slotted l x mode, (State.orderCancel n s).2) := by
  simp only [State.orderCancel, State.slotted_refuse, State.slotted_accept, State.slotted_book]
  repeat' split
  all_goals first | rfl | simp_all

theorem State.orderRetire_slotted (n : Word) :
    State.orderRetire n (s.slotted l x mode) = ((State.orderRetire n s).1.slotted l x mode, (State.orderRetire n s).2) := by
  simp only [State.orderRetire, State.slotted_refuse, State.slotted_book]
  repeat' split
  all_goals first | rfl | simp_all

theorem State.catalogueSet_slotted (b : BlankCode) (c : Nat) :
    State.catalogueSet b c (s.slotted l x mode) = ((State.catalogueSet b c s).1.slotted l x mode, (State.catalogueSet b c s).2) := by
  simp only [State.catalogueSet, State.slotted_refuse, State.slotted_accept, State.slotted_book, State.slotted_setBook, State.slotted_rematch]
  repeat' split
  all_goals rfl

theorem State.catalogueRemove_slotted (b : BlankCode) :
    State.catalogueRemove b (s.slotted l x mode) = ((State.catalogueRemove b s).1.slotted l x mode, (State.catalogueRemove b s).2) := by
  simp only [State.catalogueRemove, State.slotted_refuse, State.slotted_book]
  repeat' split
  all_goals first | rfl | simp_all

theorem State.catalogueGet_slotted (b : BlankCode) :
    State.catalogueGet b (s.slotted l x mode) = ((State.catalogueGet b s).1.slotted l x mode, (State.catalogueGet b s).2) := by
  simp only [State.catalogueGet, State.slotted_refuse, State.slotted_accept, State.slotted_book]
  repeat' split
  all_goals rfl

theorem State.classSet_slotted (c : Nat) (r : Recipe) :
    State.classSet c r (s.slotted l x mode) = ((State.classSet c r s).1.slotted l x mode, (State.classSet c r s).2) := by
  simp only [State.classSet, State.slotted_refuse, State.slotted_book]
  repeat' split
  all_goals rfl

theorem State.classGet_slotted (c : Nat) :
    State.classGet c (s.slotted l x mode) = ((State.classGet c s).1.slotted l x mode, (State.classGet c s).2) := by
  simp only [State.classGet, State.slotted_refuse, State.slotted_accept, State.slotted_book]
  repeat' split
  all_goals rfl

theorem State.artOpen_slotted (f a w h t b : Nat) (c : Word) :
    State.artOpen f a w h t b c (s.slotted l x mode) = ((State.artOpen f a w h t b c s).1.slotted l x mode, (State.artOpen f a w h t b c s).2) := by
  simp only [State.artOpen, State.slotted_refuse]
  repeat' split
  all_goals first | rfl | simp_all

theorem State.artWrite_slotted (m : Link) (h o : Nat) (d : List Byte) :
    State.artWrite m h o d (s.slotted l x mode) = ((State.artWrite m h o d s).1.slotted l x mode, (State.artWrite m h o d s).2) := by
  simp only [State.artWrite, State.slotted_refuse, State.slotted_art]
  repeat' split
  all_goals rfl

theorem State.artSeal_slotted (h : Nat) (c : Option Word) :
    State.artSeal h c (s.slotted l x mode) = ((State.artSeal h c s).1.slotted l x mode, (State.artSeal h c s).2) := by
  simp only [State.artSeal, State.slotted_refuse, State.slotted_art]
  repeat' split
  all_goals first | rfl | simp_all

theorem State.artFree_slotted (h : Nat) :
    State.artFree h (s.slotted l x mode) = ((State.artFree h s).1.slotted l x mode, (State.artFree h s).2) := by
  simp only [State.artFree, State.slotted_refuse, State.slotted_book, State.slotted_art]
  repeat' split
  all_goals first | rfl | simp_all

theorem State.paletteSet_slotted (p f : Nat) (e : List Ink) :
    State.paletteSet p f e (s.slotted l x mode) = ((State.paletteSet p f e s).1.slotted l x mode, (State.paletteSet p f e s).2) := by
  simp only [State.paletteSet, State.slotted_refuse]
  repeat' split
  all_goals first | rfl | simp_all

theorem State.paletteGet_slotted (p f c : Nat) :
    State.paletteGet p f c (s.slotted l x mode) = ((State.paletteGet p f c s).1.slotted l x mode, (State.paletteGet p f c s).2) := by
  simp only [State.paletteGet, State.slotted_refuse, State.slotted_accept]
  repeat' split
  all_goals rfl

theorem State.overlaySet_slotted (o : Nat) (c : Option (Cmyk × Cmyk)) (f : Nat) (r : List (Vector OverlayCode 64)) :
    State.overlaySet o c f r (s.slotted l x mode) = ((State.overlaySet o c f r s).1.slotted l x mode, (State.overlaySet o c f r s).2) := by
  simp only [State.overlaySet, State.slotted_refuse, State.slotted_book]
  repeat' split
  all_goals first | rfl | simp_all

theorem State.overlayGet_slotted (o f c : Nat) :
    State.overlayGet o f c (s.slotted l x mode) = ((State.overlayGet o f c s).1.slotted l x mode, (State.overlayGet o f c s).2) := by
  simp only [State.overlayGet, State.slotted_refuse, State.slotted_accept]
  repeat' split
  all_goals rfl

theorem State.rateTableSet_slotted (b : Vector RateBand 8) :
    State.rateTableSet b (s.slotted l x mode) = ((State.rateTableSet b s).1.slotted l x mode, (State.rateTableSet b s).2) := by
  simp only [State.rateTableSet, State.slotted_refuse]
  repeat' split
  all_goals rfl

theorem State.rateTableGet_slotted :
    State.rateTableGet (s.slotted l x mode) = ((State.rateTableGet s).1.slotted l x mode, (State.rateTableGet s).2) := by
  simp only [State.rateTableGet, State.slotted_accept]
  rfl

theorem State.shelfPermitSet_slotted (m : Nat) :
    State.shelfPermitSet m (s.slotted l x mode) = ((State.shelfPermitSet m s).1.slotted l x mode, (State.shelfPermitSet m s).2) := by
  simp only [State.shelfPermitSet, State.slotted_refuse]
  repeat' split
  all_goals rfl

theorem State.shelfExport_slotted (a f : Nat) :
    State.shelfExport a f (s.slotted l x mode) = ((State.shelfExport a f s).1.slotted l x mode, (State.shelfExport a f s).2) := by
  simp only [State.shelfExport, State.slotted_refuse]
  repeat' split
  all_goals first | rfl | simp_all

theorem State.shelfImport_slotted (r : List Byte) :
    State.shelfImport r (s.slotted l x mode) = ((State.shelfImport r s).1.slotted l x mode, (State.shelfImport r s).2) := by
  simp only [State.shelfImport, State.slotted_refuse, State.slotted_namedLine, State.slotted_freeShelf, State.slotted_reserve]
  repeat' split
  all_goals first | rfl | (simp_all; done) | (simp_all; subst_vars; simp)

theorem State.shelfDrop_slotted (a : Nat) :
    State.shelfDrop a (s.slotted l x mode) = ((State.shelfDrop a s).1.slotted l x mode, (State.shelfDrop a s).2) := by
  simp only [State.shelfDrop, State.slotted_refuse]
  repeat' split
  all_goals first | rfl | simp_all

theorem State.shelve_slotted (p : Nat) :
    State.shelve p (s.slotted l x mode) = ((State.shelve p s).1.slotted l x mode, (State.shelve p s).2) := by
  simp only [State.shelve, State.slotted_refuse, State.slotted_garment, State.slotted_place, State.slotted_shelveGarment]
  repeat' split
  all_goals first | rfl | simp_all

theorem State.unshelve_slotted (a p m : Nat) :
    State.unshelve a p m (s.slotted l x mode) = ((State.unshelve a p m s).1.slotted l x mode, (State.unshelve a p m s).2) := by
  simp only [State.unshelve, State.slotted_refuse, State.slotted_accept, State.slotted_garment, State.slotted_place, State.slotted_track, State.slotted_shelfSlot, State.slotted_artReady, State.slotted_shelf, State.slotted_restore]
  repeat' split
  all_goals rfl

theorem State.clearPowerFlag_slotted :
    State.clearPowerFlag (s.slotted l x mode) = ((State.clearPowerFlag s).1.slotted l x mode, (State.clearPowerFlag s).2) := by
  simp only [State.clearPowerFlag]
  rfl

theorem State.assignIndicator_slotted (o : Nat) (c : Byte) (m a b : Nat) :
    State.assignIndicator o c m a b (s.slotted l x mode) = ((State.assignIndicator o c m a b s).1.slotted l x mode, (State.assignIndicator o c m a b s).2) := by
  simp only [State.assignIndicator, State.slotted_refuse]
  repeat' split
  all_goals rfl

theorem State.garmentLoad_slotted (p : Nat) (b : BlankCode) :
    State.garmentLoad p b (s.slotted l x mode) = ((State.garmentLoad p b s).1.slotted l x mode, (State.garmentLoad p b s).2) := by
  simp only [State.garmentLoad, State.slotted_refuse, State.slotted_accept, State.slotted_garment, State.slotted_place, State.slotted_track, State.slotted_takeSerial, State.slotted_freshSerial, State.slotted_putGarment, State.slotted_lookup, State.slotted_loadReply]
  repeat' split
  all_goals rfl

theorem State.garmentAssign_slotted (p : Nat) (n : Word) (k : Nat) :
    State.garmentAssign p n k (s.slotted l x mode) = ((State.garmentAssign p n k s).1.slotted l x mode, (State.garmentAssign p n k s).2) := by
  simp only [State.garmentAssign, State.slotted_refuse, State.slotted_book, State.slotted_assignable, State.slotted_reserveAndBind]
  repeat' split
  all_goals first | rfl | (simp_all; done) | (simp_all; subst_vars; simp)

theorem State.loadClear_slotted (p : Nat) :
    State.loadClear p (s.slotted l x mode) = ((State.loadClear p s).1.slotted l x mode, (State.loadClear p s).2) := by
  simp only [State.loadClear, State.slotted_refuse, State.slotted_accept, State.slotted_garment, State.slotted_place, State.slotted_countBinding, State.slotted_withdrawJob, State.slotted_putGarment, State.slotted_raise, State.slotted_rematchIf]
  repeat' split
  all_goals rfl

theorem State.unloadGood_slotted (p : Nat) :
    State.unloadGood p (s.slotted l x mode) = ((State.unloadGood p s).1.slotted l x mode, (State.unloadGood p s).2) := by
  simp only [State.unloadGood, State.slotted_refuse]
  repeat' split
  all_goals first | rfl | simp_all

theorem State.unloadSpoil_slotted (p : Nat) :
    State.unloadSpoil p (s.slotted l x mode) = ((State.unloadSpoil p s).1.slotted l x mode, (State.unloadSpoil p s).2) := by
  simp only [State.unloadSpoil, State.slotted_refuse]
  repeat' split
  all_goals first | rfl | simp_all

theorem State.platenDeclare_slotted (p : Nat) (y : PlaceArg) :
    State.platenDeclare p y (s.slotted l x mode) = ((State.platenDeclare p y s).1.slotted l x mode, (State.platenDeclare p y s).2) := by
  simp only [State.platenDeclare, State.slotted_refuse, State.slotted_place, State.slotted_placeAt, State.slotted_joinLane, State.slotted_station, State.slotted_lane, State.slotted_present, State.slotted_putPlace, State.slotted_endDeclare]
  repeat' split
  all_goals rfl

theorem State.jamConfirm_slotted (p : Nat) (y : PlaceArg) :
    State.jamConfirm p y (s.slotted l x mode) = ((State.jamConfirm p y s).1.slotted l x mode, (State.jamConfirm p y s).2) := by
  simp only [State.jamConfirm, State.slotted_refuse, State.slotted_place]
  repeat' split
  all_goals first | rfl | simp_all

theorem State.lineResume_slotted :
    State.lineResume (s.slotted l x mode) = ((State.lineResume s).1.slotted l x mode, (State.lineResume s).2) := by
  simp only [State.lineResume, State.slotted_refuse]
  repeat' split
  all_goals first | rfl | simp_all

theorem State.stationHold_slotted (n : Nat) :
    State.stationHold n (s.slotted l x mode) = ((State.stationHold n s).1.slotted l x mode, (State.stationHold n s).2) := by
  simp only [State.stationHold, State.slotted_refuse]
  repeat' split
  all_goals rfl

theorem State.stationRelease_slotted (n : Nat) :
    State.stationRelease n (s.slotted l x mode) = ((State.stationRelease n s).1.slotted l x mode, (State.stationRelease n s).2) := by
  simp only [State.stationRelease, State.slotted_refuse, State.slotted_accept]
  repeat' split
  all_goals first | rfl | simp_all

theorem State.serviceOut_slotted (p : Nat) :
    State.serviceOut p (s.slotted l x mode) = ((State.serviceOut p s).1.slotted l x mode, (State.serviceOut p s).2) := by
  simp only [State.serviceOut, State.slotted_refuse, State.slotted_place]
  repeat' split
  all_goals first | rfl | simp_all

theorem State.serviceIn_slotted (p : Nat) :
    State.serviceIn p (s.slotted l x mode) = ((State.serviceIn p s).1.slotted l x mode, (State.serviceIn p s).2) := by
  simp only [State.serviceIn, State.slotted_refuse, State.slotted_place, State.slotted_station, State.slotted_present, State.slotted_placeAt]
  repeat' split
  all_goals first | rfl | simp_all

theorem State.swathPull_slotted (m : Link) (q o : Nat) :
    State.swathPull m q o (s.slotted l x mode) = ((State.swathPull m q o s).1.slotted l x mode, (State.swathPull m q o s).2) := by
  simp only [State.swathPull, State.slotted_refuse, State.slotted_pullable, State.slotted_ring]
  repeat' split
  all_goals rfl

theorem State.swathRelease_slotted (q : Nat) :
    State.swathRelease q (s.slotted l x mode) = ((State.swathRelease q s).1.slotted l x mode, (State.swathRelease q s).2) := by
  simp only [State.swathRelease, State.slotted_refuse]
  repeat' split
  all_goals first | rfl | simp_all

theorem State.printEndOk_slotted :
    State.printEndOk (s.slotted l x mode) = ((State.printEndOk s).1.slotted l x mode, (State.printEndOk s).2) := by
  simp only [State.printEndOk, State.slotted_refuse]
  repeat' split
  all_goals first | rfl | simp_all

theorem State.printEndAbort_slotted :
    State.printEndAbort (s.slotted l x mode) = ((State.printEndAbort s).1.slotted l x mode, (State.printEndAbort s).2) := by
  simp only [State.printEndAbort, State.slotted_refuse]
  repeat' split
  all_goals first | rfl | simp_all

theorem State.cureSample_slotted (p : Nat) (z : Int) :
    State.cureSample p z (s.slotted l x mode) = ((State.cureSample p z s).1.slotted l x mode, (State.cureSample p z s).2) := by
  simp only [State.cureSample, State.slotted_refuse, State.slotted_garment, State.slotted_place, State.slotted_sampleGarment]
  repeat' split
  all_goals rfl

theorem State.setNoticeMask_slotted (m : Link) (y : Half) :
    State.setNoticeMask m y (s.slotted l x mode) =
      ((State.setNoticeMask m y s).1.slotted l x mode, (State.setNoticeMask m y s).2) := by
  cases l <;> cases m <;> rfl

end Fields

/-! ### From a handler's result to the command's -/

/-- A slot replaced by what it holds. -/
theorem State.slotted_same (s : State) (l : Link) : s.slotted l (s.link l).slot (s.link l).silent = s := by
  cases l <;> rfl

/-- What a handler is told of the links: nothing of their slots. -/
def Slotless (h : State → Taken) : Prop :=
  ∀ (s : State) (l : Link) (x : Slot) (mode : Bool), h (s.slotted l x mode) = ((h s).1.slotted l x mode, (h s).2)

/-- A handler that is told nothing of the slots changes none. -/
theorem Slotless.link_slot {h : State → Taken} (c : Slotless h) (s : State) (l : Link) :
    ((h s).1.link l).slot = (s.link l).slot := by
  have e := c s l (s.link l).slot (s.link l).silent
  rw [State.slotted_same] at e
  have e := congrArg (fun t : Taken => (t.1.link l).slot) e
  simpa [State.slotted_link_self] using e

/-- A request being worked on, in reply mode SEND, is answered. -/
theorem State.answer_slotted (s : State) (l : Link) (tag kind : Nat) (a : Answer) :
    (s.slotted l (.inFlight tag kind .working) false).answer l a = s.slotted l (.inFlight tag kind (.ready a)) false := by
  cases l <;> rfl

/-- A link's slot is no part that a frame names. -/
theorem State.keeps_slotted_settle (s : State) (l : Link) (x : Slot) (mode : Bool) :
    s.keeps (s.slotted l x mode).settle [] := by
  intro p _
  have k (m : Link) : ((s.slotted l x mode).settle.link m).receiver = (s.link m).receiver ∧
      ((s.slotted l x mode).settle.link m).mask = (s.link m).mask ∧
      ((s.slotted l x mode).settle.link m).discards = (s.link m).discards ∧
      ((s.slotted l x mode).settle.link m).busy = (s.link m).busy ∧
      ((s.slotted l x mode).settle.link m).queue = (s.link m).queue ∧
      ((s.slotted l x mode).settle.link m).number = (s.link m).number ∧
      ((s.slotted l x mode).settle.link m).lostStands (s.link m).lost := by
    have z := ((s.slotted l x mode).link m).kick_lost
    rw [← State.settle_link] at z
    by_cases e : l = m
    · subst e
      rw [State.slotted_link_self] at z
      exact ⟨by simp [State.slotted_link_self], by simp [State.slotted_link_self], by simp [State.slotted_link_self],
        by simp [State.slotted_link_self], by simp [State.slotted_link_self], by simp [State.slotted_link_self], z⟩
    · rw [State.slotted_link_ne s l x mode m e] at z
      refine ⟨?_, ?_, ?_, ?_, ?_, ?_, z⟩ <;> simp [State.slotted_link_ne s l x mode m e]
  cases p with
  | notices => exact fun m => ⟨(k m).2.2.2.2.1, (k m).2.2.2.2.2⟩
  | settings => exact fun m => ⟨(k m).1, (k m).2.1, (k m).2.2.1, (k m).2.2.2.1⟩
  | outputs => intro i; simp [State.settle_indicators, vmap]
  | _ => simp [Part.same]

/-- A ready request whose handler gives the state `w` and an answer is answered so, and leaves what `w` holds. -/
theorem answered_of {h : State → Taken} (c : Slotless h) {i : Instr} {v : Via} {kind : Nat} {s w : State}
    {a : Answer} (r : Ready s v kind) (e : exec i s = request v kind i h s) (hw : h s = (w, some a)) :
    ∃ t, Answered i v kind s t a.code a.body ∧ w.keeps t [] := by
  refine ⟨(w.slotted v.link (.inFlight v.tag kind (.ready a)) false).settle, ⟨?_, ?_, ?_⟩,
    State.keeps_slotted_settle _ _ _ _⟩
  · rw [e, request_ready v kind i h s r, State.taken_eq_slotted]
    simp only [State.handle, c s, hw, State.answer_slotted]
  · simp [State.slotted_link_self]
  · intro m hm
    have k := c.link_slot s m
    rw [hw] at k
    simp [State.slotted_link_ne w v.link _ _ m (Ne.symm hm), k]

/-- A ready request whose handler gives the state `w` and no answer yet has begun, and leaves what `w` holds. -/
theorem begun_of {h : State → Taken} (c : Slotless h) {i : Instr} {v : Via} {kind : Nat} {s w : State}
    (r : Ready s v kind) (e : exec i s = request v kind i h s) (hw : h s = (w, none)) :
    Starts i v kind s w := by
  refine ⟨(w.slotted v.link (.inFlight v.tag kind .working) false).settle, ⟨?_, ?_, ?_⟩,
    State.keeps_slotted_settle _ _ _ _⟩
  · rw [e, request_ready v kind i h s r, State.taken_eq_slotted]
    simp [State.handle, c s, hw]
  · simp [State.slotted_link_self]
  · intro m hm
    have k := c.link_slot s m
    rw [hw] at k
    simp [State.slotted_link_ne w v.link _ _ m (Ne.symm hm), k]

/-- A handler's refusal is the command's. -/
theorem refused_of {h : State → Taken} (c : Slotless h) {i : Instr} {v : Via} {kind : Nat} {s : State}
    {code : ResultCode} (r : Ready s v kind) (e : exec i s = request v kind i h s) (hw : h s = s.refuse code) :
    Refused i v kind s code :=
  answered_of c r e hw

/-- A handler's acceptance is the command's. -/
theorem done_of {h : State → Taken} (c : Slotless h) {i : Instr} {v : Via} {kind : Nat} {s w : State}
    {body : List Field} (r : Ready s v kind) (e : exec i s = request v kind i h s) (hw : h s = w.accept body) :
    Done i v kind s body w :=
  answered_of c r e hw

end Sys2Proof.Machine
end

