-- ==== Sys2Proof/Tests/Slice0.lean ====
section
/-! SUPPORT. Small tests of one step each, with expected values from the spec's tables and worked examples, and
for every obligation with hypotheses a state and operands that meet them. -/

namespace Sys2Proof.Tests

open Sys2Proof.Machine

set_option Elab.async false

/-! ### What a command cannot carry -/

def o1 : Via := ⟨.order, 1⟩
def p1 : Via := ⟨.operator, 2⟩
def h1 : Via := ⟨.head, 3⟩
def c1 : Via := ⟨.cure, 4⟩
def tee : BlankCode := ⟨300, 2, 4⟩
def postLine : PostLine := ⟨tee, 2, 0, 0, 0, 32, 32, 400, 640, none⟩

theorem test_wf_accepts : (Instr.orderPost o1 77 2 [postLine]).wf = true := by decide
theorem test_wf_tag : (Instr.rateTableGet ⟨.order, 256⟩).wf = false := by decide
theorem test_wf_byte : (Instr.stationHold p1 256).wf = false := by decide
theorem test_wf_half : (Instr.lineAmend o1 77 0 65536).wf = false := by decide
theorem test_wf_word : (Instr.swathPull h1 0 4294967296).wf = false := by decide
theorem test_wf_signed : (Instr.cureSample c1 0 32768).wf = false ∧ (Instr.cureSample c1 0 (-32769)).wf = false := by
  decide
theorem test_wf_blank : (Instr.catalogueGet o1 ⟨65536, 0, 0⟩).wf = false := by decide
theorem test_wf_recipe : (Instr.classSet o1 3 { Recipe.reset with dose := 256 }).wf = false := by decide
theorem test_wf_post_line :
    (Instr.orderPost o1 77 2 [{ postLine with overlay := some ⟨16, 40000, 0⟩ }]).wf = false := by decide
theorem test_wf_run : (Instr.orderPost o1 77 2 (List.replicate 256 postLine)).wf = false := by
  decide +kernel
theorem test_wf_ink : (Instr.paletteSet o1 0 0 [⟨0, 0, 0, 0, 256⟩]).wf = false := by decide
theorem test_wf_colours : (Instr.overlaySet o1 0 (some (⟨256, 0, 0, 0⟩, ⟨0, 0, 0, 0⟩)) 0 []).wf = false := by decide
theorem test_wf_band :
    (Instr.rateTableSet o1 (Vector.replicate 8 ⟨260, 256⟩)).wf = false := by decide
theorem test_wf_place : (Instr.platenDeclare p1 0 (.lane 16)).wf = false ∧
    (Instr.jamConfirm p1 0 (.station 256)).wf = false := by decide

/-! ### Arithmetic of the spec's examples -/

/-- The check values of R166's CRC-16/CCITT-FALSE and R74's CRC-32 over "123456789". -/
theorem test_crc_check_values :
    crc16 [0x31, 0x32, 0x33, 0x34, 0x35, 0x36, 0x37, 0x38, 0x39] = 0x29B1 ∧
    crc32Result (crc32Feed crc32Start [0x31, 0x32, 0x33, 0x34, 0x35, 0x36, 0x37, 0x38, 0x39]) = 0xCBF43926 := by
  decide +kernel

/-- Section 5.15: stages B, C and D of one pixel. -/
theorem test_stage_b : stageB ⟨200, 180, 160, 90, 204⟩ = ⟨160, 144, 128, 72, 204⟩ := by decide
theorem test_stage_c : stageC 420 ⟨160, 144, 128, 72, 204⟩ = ⟨133, 120, 106, 60, 204⟩ := by decide
theorem test_stage_d :
    stageD { Recipe.reset with dark := true, underbase := 255, knockout := 128 } ⟨133, 120, 106, 60, 204⟩ = 174 := by
  decide

/-- Section 5.15: stage F at (5, 2) and at (4, 0). -/
theorem test_stage_f : [133, 120, 106, 60, 174].map (fun v => dropLevel v 5 2) = [1, 1, 1, 0, 2] ∧
    [133, 120, 106, 60, 174].map (fun v => dropLevel v 4 0) = [2, 2, 2, 1, 3] := by decide

/-- R98's last table. -/
theorem test_drop_levels : [0, 1, 2, 84, 85, 170, 254, 255].map (fun v => (List.range 16).map fun i =>
      dropLevel v (i % 4) (i / 4)) =
    [0, 0, 0, 1, 1, 2, 3, 3].map (List.replicate 16) ∧
    ((List.range 16).filter fun i => dropLevel 3 (i % 4) (i / 4) = 1) = [0] := by decide

/-- Section 5.15: the units one tile adds. -/
theorem test_tile_units : [133, 120, 106, 60, 174].map (fun v => sumOver 0 4 0 4 fun x y => dropWeight (dropLevel v x y)) =
    [25, 23, 20, 11, 34] := by decide

/-- Section 5.16's image, placement and overlay position. -/
def label_ : Placement := ⟨0, 7, 2, 1200, 900, 2500, 100, some ⟨4, -20, 40⟩⟩
def image : Art := ⟨.ready, .idx4, 3, 1201, 900, 608, 0x100000, 0, some 0, 900⟩

/-- Section 5.16: footprint and extent. -/
theorem test_extent : artFootprint label_ image = some ⟨2500, 3199, 100, 997⟩ ∧
    overlayFootprint ⟨4, -20, 40⟩ = some ⟨0, 43, 40, 103⟩ ∧
    extentOf label_ (some image) = some ⟨0, 3199, 40, 997⟩ := by decide

/-- Section 5.16: the nibbles of three pixels. -/
theorem test_art_pixels :
    let p : Ink := ⟨1, 2, 3, 4, 5⟩
    let e : PixelInputs := ⟨Recipe.reset, label_, some image,
      (Vector.replicate 256 Ink.zero).set 9 p, none, [(0x1004C3, 0x19), (0x1004C4, 0x91), (0x100621, 0x91)]⟩
    e.fetch 2500 100 = p ∧ e.fetch 2501 100 = p ∧ e.fetch 3199 100 = p := by decide +kernel

/-- Section 7.1: the swaths of the garment of section 5.16 on a dark recipe. -/
theorem test_swath_lengths :
    let r : Rect := ⟨0, 3199, 40, 997⟩
    swathCount true (some r) = 8 ∧ swathOf true r 0 = (.underbase, 0) ∧ swathOf true r 4 = (.color, 0) ∧
    (swathShape r .underbase 0).length = 172800 ∧ (swathShape r .color 0).length = 691200 := by decide

/-- Section 6.7: the planned pulses of four cells. -/
theorem test_planned_pulses :
    [3264000, 1440000, 2180000, 140000].map (fun n =>
      plannedPulses { Recipe.reset with dose := 180 } (n / cellPixels 10)) = [90, 40, 60, 0] := by decide

/-- R142's example: rate 3 over 333 ms leaves 9 units and a carry of 99. -/
theorem test_sample_carry :
    let c := CureRecord.sample CureRecord.fresh 1000 333 3 false
    (c.credit, c.carry) = (9, 99) := by decide

/-- R138: the power-on rate at 129.5, 130, 150 and 175 °C and above. -/
theorem test_rates : [259, 260, 300, 350, 800].map (rateAt rateTableReset) = [0, 1, 3, 10, 10] := by decide

/-! ### A line at work

`site` is a small line in the middle of its work: a platen at every station and one in lane 0, five orders, three
images, one shelved garment. It has every invariant of Safety.lean. -/

def dark : Recipe :=
  { Recipe.reset with dark := true, pretreat := true, dose := 180, tolerance := 20, dwell := 150, knockout := 128 }

def spot : Placement := ⟨0, 0, 0, 32, 32, 400, 640, none⟩

def bound (order : Word) (line : Fin 512) : Binding := ⟨order, line, dark, spot⟩

/-- Five pulses of zone 1 in band 10. -/
def fivePulses : DoseMap := upd DoseMap.zero 10 (upd (Vector.replicate 8 0) 1 5)

def loaded : Garment := { Garment.fresh 10 tee with cls := some 3, hold := some .noLine }

def matched : Garment :=
  { Garment.fresh 11 tee with
    cls := some 3, binding := some (bound 77 0), stage := .matched,
    pretreat := { coverage := .complete, map := fivePulses, planned := 5, issued := 0, shortfall := 0, result := .pending } }

def sprayed : Garment :=
  { matched with
    serial := 12, stage := .spraying,
    pretreat := { coverage := .complete, map := fivePulses, planned := 5, issued := 5, shortfall := 0, result := .done } }

def pressed : Garment := { sprayed with serial := 13, stage := .printWait, press := .done }

def curing : Garment :=
  { pressed with
    serial := 14, stage := .curing, print := ⟨.complete, 2, 2, 2, 2, 2, ⟨5000, 600, 700, 800, 4096⟩⟩,
    cure := ⟨100, 7, 1000, some 0, 0, false, .none⟩ }

def cured : Garment :=
  { curing with
    serial := 15, binding := some (bound 78 2), stage := .released, cure := ⟨1000, 7, 1000, some 0, 0, false, .released⟩ }

def line (order : Word) (quantity done reserved : Nat) (status : LineStatus) : Option Line :=
  some ⟨order, tee, quantity, done, reserved, 0, spot, status⟩

def shelved : ShelfSlot :=
  ⟨⟨60, 16, ⟨tee, 3, 77, 1, true, false, false, 9⟩, some ⟨.complete, .done, .done, 5, 5, 0⟩, none, none⟩, dark, spot⟩

def tracks : Track where
  places := Vector.ofFn fun p : Fin 16 =>
    if h : p.val < 6 then .station ⟨p.val, h⟩ else if p = 6 then .lane 0 else .service
  stations := Vector.ofFn fun n : Fin 6 => ⟨some ⟨n.val, by omega⟩, false, false⟩
  lanes := upd (Vector.replicate 6 []) 0 [6]
  exits := Vector.replicate 6 .idle
  entries := Vector.replicate 6 .idle
  line := .running

def books : Book where
  catalogue := [⟨tee, 3⟩]
  recipes := upd (Vector.replicate 16 Recipe.reset) 3 dark
  orders := [⟨77, 2, 0, .opened, [0, 1]⟩, ⟨78, 1, 1, .held, [2]⟩, ⟨79, 0, 2, .complete, [3]⟩, ⟨80, 3, 3, .cancelled, [4]⟩]
  lines := upd (upd (upd (upd (upd (Vector.replicate 512 none) 0 (line 77 10 1 4 .opened)) 1 (line 77 1 0 1 .full))
    2 (line 78 3 0 1 .opened)) 3 (line 79 1 1 0 .done)) 4 (line 80 5 0 0 .closed)
  sequence := 4

def arts : Vector (Option Art) 64 :=
  upd (upd (upd (Vector.replicate 64 none) 0 (some ⟨.ready, .idx8, 3, 32, 32, 32, 1024, 0, some 0, 32⟩))
    1 (some ⟨.loading, .idx8, 0, 4, 3, 16, 4096, 7, none, 0⟩)) 2 (some ⟨.verifying, .idx8, 0, 4, 2, 16, 8192, 0, none, 0⟩)

def site : State :=
  { State.reset with
    clock := ⟨333, 0, 1⟩
    inputs := { Inputs.reset with present := Vector.replicate 6 ⟨true, true, 0⟩, pressOpen := ⟨true, true, 0⟩ }
    track := tracks
    book := books
    units := ⟨upd (upd (upd (upd (upd (upd (Vector.replicate 16 none) 0 (some loaded)) 1 (some matched)) 2 (some sprayed))
      3 (some pressed)) 4 (some curing)) 5 (some cured), 20⟩
    store := { Store.reset with arts := arts, verifyQueue := [2] }
    mem := [(1024, 9), (8192, 1)]
    cure := ⟨rateTableReset, some (4, 14), some 5000⟩
    shelf := ⟨upd (Vector.replicate 8 none) 0 (some shelved), ⟨true, true, true, true⟩⟩ }

/-- `site` with nothing on platen 0. -/
def siteEmpty : State := site.putGarment 0 none

/-- The state a command leads to; the state before it where it does not lead on. -/
def after (i : Instr) (s : State) : State :=
  match exec i s with
  | .next t => t
  | .fault _ => s
  | .refused _ => s

/-- The result of the reply that is ready on a link. -/
def result (l : Link) (s : State) : Option ResultCode :=
  match (s.link l).slot with
  | .inFlight _ _ (.ready a) => some a.code
  | _ => none

/-- The contents of the reply that is ready on a link. -/
def body (l : Link) (s : State) : List Field :=
  match (s.link l).slot with
  | .inFlight _ _ (.ready a) => a.body
  | _ => []

/-- The notices in the OPERATOR link's queue, which admits every kind. -/
def notices (s : State) : List Notice := (s.link .operator).queue.map QueuedNotice.notice

theorem forall_some {α : Type} (o : Option α) (p : α → Prop) :
    (∀ x, o = some x → p x) ↔ (match o with | none => True | some x => p x) := by
  cases o <;> simp

theorem forall_some_bool {α : Type} (o : Option α) (p : α → Bool) :
    (∀ x, o = some x → p x = true) ↔ o.all p = true := by
  cases o <;> simp

/-! ### The invariants hold of `site` -/

theorem site_segments (g : Segment) : site.track.seg g = .idle := by
  cases g <;> rename_i n <;> revert n <;> decide +kernel

theorem site_places (p : Fin 16) (g : Segment) : site.track.places[p] ≠ .moving g ∧ site.track.places[p] ≠ .uncertain g := by
  cases g <;> rename_i n <;> revert p n <;> decide +kernel

theorem witness_TrackInv : TrackInv site.track where
  load := by decide +kernel
  once := by decide +kernel
  lanes := by decide +kernel
  station := by decide +kernel
  occupant := by decide +kernel
  reserved := by decide +kernel
  moving p g := ⟨fun h => absurd h (site_places p g).1, fun ⟨_, h⟩ => by simp [site_segments] at h⟩
  uncertain p g := ⟨fun h => absurd h (site_places p g).2, fun ⟨_, _, h⟩ => by simp [site_segments] at h⟩
  running := by decide +kernel
  census := by
    intro h
    exact absurd h (by decide +kernel)

/-- A fact of every record present, checked by evaluation. -/
theorem all_some {α : Type} {o : Option α} {p : α → Bool} (h : o.all p = true) {x : α} (e : o = some x) : p x = true := by
  subst e; simpa using h

theorem witness_StoreInv : StoreInv site.store where
  area := by
    have k : ∀ h : Fin 64, (site.store.arts[h]).all (fun d => decide (d.stop ≤ artAreaStop)) = true := by decide +kernel
    intro h d e
    have q := all_some (k h) e
    exact of_decide_eq_true q
  apart := by
    have k : ∀ h k : Fin 64, h ≠ k → (site.store.arts[h]).all (fun d => (site.store.arts[k]).all fun e =>
        !rangesShare d.base d.stop e.base e.stop) = true := by decide +kernel
    intro h l d e n a b
    have := all_some (all_some (k h l n) a) b
    simpa using this
  queue := by decide +kernel
  once := by decide +kernel

theorem witness_RingInv : RingInv site.ring where
  slots := by decide +kernel
  once := by decide +kernel

theorem witness_LinkInv (l : Link) : LinkInv (site.link l) := by
  cases l <;> exact ⟨by decide +kernel, by decide +kernel, by decide +kernel⟩

theorem witness_RequestInv : RequestInv site where
  handed := by intro l tag kind i h; cases l <;> cases h
  pull := by intro x h; exact absurd h (by simp [site, State.reset, Ring.reset])
  write := by intro x h; exact absurd h (by simp [site, State.reset, Store.reset])
  lineReset := by intro l h; exact absurd h (by simp [site, State.reset])
  reply := by intro l f h; cases l <;> cases h

/-- The line records of `site` that belong to an order. -/
theorem site_line (i : Fin 512) :
    site.book.lines[i] = if 4 = i then line 80 5 0 0 .closed else if 3 = i then line 79 1 1 0 .done
      else if 2 = i then line 78 3 0 1 .opened else if 1 = i then line 77 1 0 1 .full
      else if 0 = i then line 77 10 1 4 .opened else none := by
  simp only [site, books, upd_get]
  simp

/-- What is shown of the five line records holds of every one. -/
theorem site_lines {P : Fin 512 → Line → Prop} (h0 : ∀ l, line 77 10 1 4 .opened = some l → P 0 l)
    (h1 : ∀ l, line 77 1 0 1 .full = some l → P 1 l) (h2 : ∀ l, line 78 3 0 1 .opened = some l → P 2 l)
    (h3 : ∀ l, line 79 1 1 0 .done = some l → P 3 l) (h4 : ∀ l, line 80 5 0 0 .closed = some l → P 4 l) (i : Fin 512)
    (l : Line) (e : site.book.lines[i] = some l) : P i l := by
  rw [site_line] at e
  split_ifs at e with g4 g3 g2 g1 g0
  · exact g4 ▸ h4 l e
  · exact g3 ▸ h3 l e
  · exact g2 ▸ h2 l e
  · exact g1 ▸ h1 l e
  · exact g0 ▸ h0 l e

theorem site_bindings : site.bindings 0 = 4 ∧ site.bindings 1 = 1 ∧ site.bindings 2 = 1 ∧ site.bindings 3 = 0 ∧
    site.bindings 4 = 0 ∧ ∀ i : Fin 512, 5 ≤ i.val → site.bindings i = 0 := by
  decide +kernel

theorem site_orders : site.book.orders = books.orders := rfl

theorem witness_ReservationInv : ReservationInv site where
  reserved := by
    obtain ⟨b0, b1, b2, b3, b4, -⟩ := site_bindings
    apply site_lines <;> rintro l ⟨⟩
    exacts [b0.symm, b1.symm, b2.symm, b3.symm, b4.symm]
  free := by
    intro i h
    rw [site_line] at h
    split_ifs at h with g4 g3 g2 g1 g0
    all_goals first | (cases h; done) | exact site_bindings.2.2.2.2.2 i (by omega)
  owner := by apply site_lines <;> rintro l ⟨⟩ <;> rw [site_orders] <;> decide
  owned := by
    intro o ho i hi
    rw [site_orders] at ho
    simp only [books, List.mem_cons, List.not_mem_nil, or_false] at ho
    rcases ho with rfl | rfl | rfl | rfl
    all_goals simp only [List.mem_cons, List.not_mem_nil, or_false] at hi
    · rcases hi with rfl | rfl
      · exact ⟨_, by rw [site_line]; rfl, rfl⟩
      · exact ⟨_, by rw [site_line]; rfl, rfl⟩
    all_goals subst hi; exact ⟨_, by rw [site_line]; rfl, rfl⟩
  numbers := by rw [site_orders]; decide
  once := by rw [site_orders]; decide
  within := by apply site_lines <;> rintro l ⟨⟩ <;> decide
  status := by
    intro i l o e ho h
    have k : ∀ (i : Fin 512) (l : Line), site.book.lines[i] = some l → ∀ o ∈ books.orders, o.number = l.order → l.status = l.derived o.status := by
      apply site_lines <;> rintro l ⟨⟩ <;> decide
    exact k i l e o ho h
  finished := by apply site_lines <;> rintro l ⟨⟩ <;> decide
  complete := by
    intro o ho h i hi
    rw [site_orders] at ho
    have k : ∀ o ∈ books.orders, o.status = .complete → o.lines = [3] := by decide
    rw [k o ho h, List.mem_singleton] at hi
    subst hi
    simp only [Book.lineStatus, site_line]
    decide
  cancelled := by
    intro o ho h i hi
    rw [site_orders] at ho
    have k : ∀ o ∈ books.orders, o.status = .cancelled → o.lines = [4] := by decide
    rw [k o ho h, List.mem_singleton] at hi
    subst hi
    simp only [Book.lineStatus, site_line]
    decide
  loaded := by
    have k : ∀ p : Fin 16, (site.garment p).all (fun g => decide (g.stage = .loaded → g.binding = none)) = true := by
      decide +kernel
    intro p g e
    have q := all_some (k p) e
    exact of_decide_eq_true q

/-! ### Steps, power and links -/

theorem test_no_word_spells_a_command : decodeTableWord 8 7 = none ∧ (site.withFetchWord 8 7) = site := by
  exact ⟨rfl, rfl⟩

theorem witness_StepTakesFrontCommand :
    { site with pending := [.rateTableGet o1, .pressStart] }.pending = .rateTableGet o1 :: [.pressStart] := rfl

/-- The state a tick leads to. -/
def ticked (s : State) : State :=
  match s.tick with
  | .next t => t
  | .fault _ => s
  | .refused _ => s

/-- R182: a presence level that differs for its hundredth sample changes the filtered level. -/
theorem test_tick_filters :
    let s := { site with inputs := { site.inputs with
      present := upd (upd site.inputs.present 0 ⟨true, false, 98⟩) 1 ⟨true, false, 99⟩ } }
    [0, 1].map (fun n : Fin 6 => (ticked s).inputs.present[n].level) = [true, false] := by decide +kernel

/-- The fiftieth tick raises the time base and takes a millisecond from a running timer. -/
theorem test_tick_millisecond :
    let s := { site with clock := ⟨333, 49, 1⟩, press := .closing 1 }
    ((ticked s).clock, (ticked s).press, (ticked s).cure.stale) = (⟨334, 0, 1⟩, .closing 0, some 4999) := by decide +kernel

/-- R182, R15: ESTOP_N low for its hundredth sample is the emergency stop, for its ninety-ninth it is none yet. -/
theorem test_tick_emergency_stop :
    let s (held : Nat) := { site with inputs := { site.inputs with estop := ⟨false, true, held⟩ } }
    ((ticked (s 99)).track.line, (ticked (s 99)).inputs.estop, (ticked (s 98)).track.line, (ticked (s 98)).inputs.estop) =
      (.stopped, ⟨true, true, 0⟩, .running, ⟨false, true, 99⟩) := by decide +kernel

theorem witness_IdleStepIsOneTick : site.pending = [] ∧ site.resetLow = false ∧
    { site with resetLow := true }.resetLow = true := by decide +kernel

theorem test_power_on : (after .powerOnReset site).track.line = .census ∧ (after .powerOnReset site).clock.time = 0 ∧
    (after .powerOnReset site).powerFlag = true := by decide +kernel

/-- R24: an emergency-stop input that became active while RESET_N was low is active after the reset. -/
theorem test_power_on_reads_inputs :
    let s := after .powerOnReset (after .emergencyStopAsserted (after .resetAsserted site))
    (s.inputs.estop, s.track.line, s.inputs.pressOpen.level, notices s) = (⟨true, true, 0⟩, .census, true, []) := by
  decide +kernel

theorem test_reset_asserted :
    let s := after .resetAsserted ({ site with press := .dwell 5 }.putLink .order { (site.link .order) with tx := .sending .notice [1] })
    (s.resetLow, s.pins.pressClose, s.pins.orderLink, (s.link .order).tx) = (true, false, .breakLevel, .idle) := by
  decide +kernel

theorem witness_OutputsFollowBlocks : site.resetLow = false ∧
    (after .resetAsserted site).resetLow = true ∧ Instr.pressStart ≠ .powerOnReset ∧ Instr.pressStart ≠ .resetAsserted ∧
    Instr.pressStart ≠ .emergencyStopAsserted ∧ Instr.pressStart ≠ .emergencyStopReleased ∧
    Instr.pressStart ≠ .pressClosed ∧ Instr.pressStart ≠ .pressOpen := by
  decide +kernel

/-- `site` with another request of the ORDER link in flight. -/
def busySite : State := site.putLink .order { (site.link .order) with slot := .inFlight 9 0x20 .working }

/-- `site` with the ORDER link in BREAK. -/
def brokenSite : State := site.putLink .order { (site.link .order) with receiver := .inBreak }

theorem witness_RequestsTurnedAway : Instr.asRequest (.loadClear o1 0) = some (o1, 0x23) ∧
    site.resetLow = false ∧ (site.link .order).slot = .free ∧ permitted .order 0x23 = false ∧
    (busySite.link .order).slot ≠ .free ∧ (busySite.link .order).busy = none ∧
    (brokenSite.link .order).receiver = .inBreak := by decide +kernel

/-- R168: the ends of the table's runs of kinds, and READ on every link. -/
theorem test_permitted : [0x18, 0x19, 0x1A, 0x20, 0x21].map (permitted .order) = [true, true, false, true, false] ∧
    [0x18, 0x19, 0x1B, 0x1C, 0x1E, 0x20, 0x21, 0x2C, 0x2D].map (permitted .operator) =
      [false, true, true, false, true, true, true, true, false] ∧
    [0x20, 0x2C, 0x2D, 0x2F, 0x30].map (permitted .head) = [true, false, true, true, false] ∧
    [0x20, 0x2F, 0x30].map (permitted .cure) = [true, false, true] := by decide

theorem test_denied : result .order (after (.loadClear o1 0) site) = some .denied := by decide +kernel

theorem test_busy : ((after (.rateTableGet o1) busySite).link .order).busy = some ⟨1, 0x15, false⟩ := by decide +kernel

theorem witness_RefusedRequestsChangeNothing :
    Ready site o1 0x03 ∧ Instr.asRequest (.orderHold o1 79) = some (o1, 0x03) ∧
    Answered (.orderHold o1 79) o1 0x03 site (after (.orderHold o1 79) site) .state [] ∧
    ResultCode.state ≠ .ok := by
  refine ⟨by decide +kernel, rfl, ⟨rfl, by decide +kernel, ?_⟩, by decide⟩
  intro l h
  cases l <;> first | exact absurd rfl h | decide +kernel

/-- A request frame of ORDER_HOLD(77), tag 5, with its check value. -/
def holdFrame : List Byte :=
  let front : List Byte := [0x03, 0x05, 0x00, 0x04, 0x00, 0x00, 0x00, 0x4D]
  front ++ bigEndian 2 (crc16 front).toNat

/-- `site` with the ORDER link's receiver RECEIVING. -/
def receiving : State := site.putLink .order { (site.link .order) with receiver := .receiving [] }

/-- R179: a LANE place names its lane alone, a segment goes up to 11, and a count must agree with the length. -/
theorem test_payloads :
    [[6, 1, 0x2F], [6, 2, 11], [6, 3, 12], [6, 6, 0], [6, 4, 9], [6, 4]].map (parseRequest p1 0x26) =
      [some (.platenDeclare p1 6 (.lane 2)), some (.platenDeclare p1 6 (.moving (.entry 5))), none, none,
       some (.platenDeclare p1 6 .service), none] ∧
    [[3, 1, 0, 0, 0, 9], [3, 0, 7, 7, 7, 7], [3, 2, 0, 0, 0, 0]].map (parseRequest o1 0x0E) =
      [some (.artSeal o1 3 (some 9)), some (.artSeal o1 3 none), none] ∧
    [[0, 0, 0, 0, 8, 0, 2, 0xAB, 0xCD], [0, 0, 0, 0, 8, 0, 2, 0xAB]].map (parseRequest o1 0x0D) =
      [some (.artWrite o1 0 8 [0xAB, 0xCD]), none] := by decide +kernel

theorem witness_RequestPayloadsAreRead : Instr.asRequest (.platenDeclare p1 6 (.lane 2)) = some (p1, 0x26) ∧ p1.tag < 256 ∧
    (Instr.platenDeclare p1 6 (.lane 2)).wf = true ∧
    List.Forall₂ Laid.holds (Instr.laid (.platenDeclare p1 6 (.lane 2))) [6, 1, 0x2F] :=
  ⟨rfl, by decide, by decide, .cons rfl (.cons rfl (.cons rfl .nil))⟩

/-- R179: the front of a reply to a PRINT_END answered INCOMPLETE, and of a LINE_STATE notice: STOPPED, no emergency stop,
power-on flag set. -/
theorem test_sent_frames :
    (replyFrame 7 0x2F ⟨.incomplete, []⟩).take 5 = [0xAF, 7, 0, 1, 0x0C] ∧
    (noticeFrame ⟨9, 0x01020304, .lineState .stopped false true⟩ true).take 12 =
      [0x5D, 9, 0, 8, 1, 1, 2, 3, 4, 1, 0, 1] := by decide +kernel

theorem witness_SentFramesHaveTheirBytes : (0x2F : Nat) < 256 ∧ (0xFF : Nat) < 256 := by decide

theorem test_frame_received : ((after (.frameReceived .order holdFrame) receiving).link .order).slot =
    .inFlight 5 3 (.handed (.orderHold ⟨.order, 5⟩ 77)) := by decide +kernel

/-- A wrong check value is discarded and counted. -/
theorem test_frame_discarded :
    let k := (after (.frameReceived .order (holdFrame.set 9 (holdFrame.getD 9 0 + 1))) receiving).link .order
    (k.slot, k.discards, k.receiver) = (.free, 1, .hunting) := by decide +kernel

theorem witness_ReceivedFrameIsJudged :
    receiving.resetLow = false ∧ (receiving.link .order).receiver = .receiving [] ∧
    parseHeader holdFrame = some ⟨3, 5, 4⟩ ∧ parseRequest ⟨.order, 5⟩ 3 [0, 0, 0, 0x4D] = some (.orderHold ⟨.order, 5⟩ 77) ∧
    permitted .order 3 = true ∧ (∀ b, (site.link .order).receiver ≠ .receiving b) ∧
    (parseHeader [0x03, 0x05, 0x02, 0x01]).map FrameHeader.length = some 513 ∧
    parseRequest ⟨.order, 5⟩ 3 [0] = none := by
  refine ⟨rfl, rfl, by decide +kernel, by decide +kernel, rfl, ?_, by decide +kernel, by decide +kernel⟩
  intro b h
  cases h

/-- `site` with an ORDER_HOLD handed on, its link reset meanwhile or not. -/
def handed (silent : Bool) : State :=
  site.putLink .order { (site.link .order) with slot := .inFlight 5 3 (.handed (.orderHold ⟨.order, 5⟩ 77)), silent := silent }

/-- The same with the ORDER link still in BREAK. -/
def handedBroken : State := (handed true).putLink .order { ((handed true).link .order) with receiver := .inBreak }

theorem witness_HandedInBreak : handedBroken.resetLow = false ∧ permitted .order 3 = true ∧
    (handedBroken.link .order).receiver = .inBreak ∧ (handedBroken.link .order).silent = true ∧
    (handedBroken.link .order).slot = .inFlight 5 3 (.handed (.orderHold ⟨.order, 5⟩ 77)) := by decide +kernel

theorem witness_HandedRequestHasItsEffect (silent : Bool) :
    (handed silent).resetLow = false ∧ permitted .order 3 = true ∧ ((handed silent).link .order).receiver ≠ .inBreak ∧
    ((handed silent).link .order).slot = .inFlight 5 3 (.handed (.orderHold ⟨.order, 5⟩ 77)) ∧
    ((handed silent).link .order).silent = silent := by
  cases silent <;> decide +kernel

/-- R172: in BREAK the request takes effect with no reply and no notice on its link. -/
theorem test_handed_in_break :
    let s := after (.orderHold ⟨.order, 5⟩ 77) handedBroken
    ((s.link .order).slot, (s.link .order).queue, (s.book.find 77).map Order.status, (notices s).length) =
      (.free, [], some .held, 1) := by decide +kernel

theorem test_handed_silent :
    let s := after (.orderHold ⟨.order, 5⟩ 77) (handed true)
    (s.link .order).slot = .free ∧ (s.book.find 77).map Order.status = some .held := by decide +kernel

/-- A notice being sent with another behind it. -/
def sending : State :=
  site.putLink .order { (site.link .order) with
    tx := .sending .notice [], lost := true, number := 2,
    queue := [⟨0, 1, .lineState .running false true⟩, ⟨1, 1, .lineState .stopped false true⟩] }

theorem test_frame_sent :
    let k := (after (.frameSent .order) sending).link .order
    k.queue.length = 1 ∧ k.lost = false ∧ k.tx ≠ .idle := by decide +kernel

theorem witness_SymbolsAndSentFrames :
    (site.link .order).receiver = .hunting ∧ (receiving.link .order).receiver = .receiving [] ∧
    (brokenSite.link .order).receiver = .inBreak ∧ (sending.link .order).tx = .sending .notice [] ∧
    (site.link .order).tx = .idle := by decide +kernel

theorem witness_BreakIsSilent : exec (.frameSent .order) brokenSite = .next (after (.frameSent .order) brokenSite) ∧
    LinkInv (brokenSite.link .order) ∧ ((after (.frameSent .order) brokenSite).link .order).receiver = .inBreak :=
  ⟨rfl, ⟨by decide +kernel, by decide +kernel, by decide +kernel⟩, by decide +kernel⟩

/-- Every clause about a transmitter: free, in the midst of a notice frame, at that frame's end, and at a line reset. -/
theorem witness_SymbolsAndSentFrames_transmitter :
    exec (.orderHold o1 77) site = .next (after (.orderHold o1 77) site) ∧ site.resetLow = false ∧
    (site.link .order).tx = .idle ∧ ((after (.orderHold o1 77) site).link .order).receiver ≠ .inBreak ∧
    exec (.orderHold o1 77) sending = .next (after (.orderHold o1 77) sending) ∧ sending.resetLow = false ∧
    (sending.link .order).tx = .sending .notice [] ∧ Ready sending o1 0x1C ∧
    exec (.lineReset o1) sending = .next (after (.lineReset o1) sending) ∧
    exec (.frameSent .order) sending = .next (after (.frameSent .order) sending) :=
  ⟨rfl, rfl, by decide +kernel, by decide +kernel, rfl, rfl, by decide +kernel, by decide +kernel, rfl, rfl⟩

/-- R169: a free transmitter starts the reply at once, another link's its notice; a frame being sent goes on. -/
theorem test_transmitters :
    let source (k : LinkState) : Option TxSource := match k.tx with | .idle => none | .sending x _ => some x
    let s := after (.orderHold o1 77) site
    let t := after (.orderHold o1 77) sending
    (source (s.link .order), source (s.link .operator), source (s.link .cure)) = (some .reply, some .notice, none) ∧
    (t.link .order).tx = .sending .notice [] ∧
    ((after (.lineReset o1) sending).link .order).tx = .sending .flushed [] := by decide +kernel

theorem test_start_symbol : ((after (.startSymbol .order) site).link .order).receiver = .receiving [] ∧
    ((after (.startSymbol .order) receiving).link .order).discards = 1 := by decide +kernel

theorem test_frame_abandoned :
    let k := (after (.frameAbandoned .order .badSymbol) receiving).link .order
    (k.receiver, k.discards) = (.hunting, 1) := by decide +kernel

theorem test_link_reset :
    let k := (after (.linkReset .order) sending).link .order
    (k.receiver, k.queue, k.number, k.lost, k.mask) = (.inBreak, [], 0, false, 0x7FFF) := by decide +kernel

theorem test_break_end : ((after (.breakEnd .order) brokenSite).link .order).receiver = .hunting := by decide +kernel

theorem witness_BreaksMasksAndNotices : site.resetLow = false ∧ (busySite.link .order).slot ≠ .free ∧
    (brokenSite.link .order).receiver = .inBreak ∧ (site.link .order).receiver ≠ .inBreak := by decide +kernel

theorem witness_BreaksMasksAndNotices_notices : Ready site c1 0x1F ∧ Ready site o1 0x1D ∧
    (site.link .order).mask.getLsbD (Notice.platenMoved 0 none .service 0).index = false ∧
    (site.link .operator).mask.getLsbD (Notice.platenMoved 0 none .service 0).index = true ∧
    (site.link .operator).queue.length < 16 := by decide +kernel

theorem test_notice_mask_set : ((after (.noticeMaskSet c1 0x0200) site).link .cure).mask = 0x0200 := by decide +kernel
theorem test_power_flag_clear : (after (.powerFlagClear o1) site).powerFlag = false := by decide +kernel

theorem witness_IndicatorsFollowConditions : Ready site p1 0x1E ∧ Ready site o1 0x1E ∧ (6 : Nat) ≤ 6 := by decide +kernel

/-- `site` with an INDICATOR_SET of output 5 handed on. -/
def assigning : State :=
  site.putLink .operator { (site.link .operator) with slot := .inFlight 2 0x1E (.handed (.indicatorSet p1 5 0x80 1 3 5)) }

/-- Commands that leave an output's assignment, the first condition of chapter 11.4's table and the last, and an assignment
that was handed on. -/
theorem witness_OutputsFollow : site.resetLow = false ∧ ConditionHolds site 7 ∧ OutputActive site 2 ∧
    exec (.stationHold p1 5) site = .next (after (.stationHold p1 5) site) ∧
    exec (.emergencyStopAsserted) site = .next (after .emergencyStopAsserted site) ∧
    exec (.indicatorSet p1 5 0x80 1 3 5) assigning = .next (after (.indicatorSet p1 5 0x80 1 3 5) assigning) ∧
    (assigning.link .operator).slot = .inFlight 2 0x1E (.handed (.indicatorSet p1 5 0x80 1 3 5)) :=
  ⟨rfl, (show site.track.line = .running by decide +kernel), ⟨7, by decide +kernel, (show site.track.line = .running by decide +kernel)⟩,
    rfl, rfl, rfl, by decide +kernel⟩

/-- R177: the emergency stop lights output 0 (JAM present, line STOPPED) and darkens output 2 (line RUNNING). -/
theorem test_lamps_follow :
    let s := after .emergencyStopAsserted (after (.stationHold p1 5) site)
    (s.indicators[(0 : Fin 6)].lamp, s.indicators[(2 : Fin 6)].lamp) = (.steady, .off) ∧
    (after (.stationHold p1 5) site).indicators[(2 : Fin 6)].lamp = .steady ∧
    (after (.indicatorSet p1 5 0x80 1 3 5) assigning).indicators[(5 : Fin 6)].lamp = .blinkOn 30 := by decide +kernel

theorem test_indicator_set : result .operator (after (.indicatorSet p1 5 0x10 1 0 5) site) = some .range ∧
    (after (.indicatorSet p1 5 0x10 1 3 5) site).indicators[(5 : Fin 6)] = ⟨0x10, true, 3, 5, .off⟩ := by decide +kernel

/-- A blinking output whose on time has run out goes dark for its off time; section 11.4's conditions are active. -/
theorem test_blink_timer :
    let s := { site with track := { tracks with line := .stopped },
                         indicators := upd site.indicators 1 ⟨0xFF, true, 3, 5, .blinkOn 0⟩ }
    (after (.blinkTimerExpiry 1) s).indicators[(1 : Fin 6)].lamp = .blinkOff 50 := by decide +kernel

/-! ### The order book -/

theorem witness_CatalogueInv : CatalogueInv site.book :=
  ⟨List.nodup_singleton _, by decide +kernel, by decide +kernel⟩

theorem witness_CatalogueIsMap : Ready site o1 0x07 ∧ Ready site o1 0x08 ∧ Ready site p1 0x09 ∧ tee ≠ ⟨0, 0, 0⟩ ∧
    (15 : Nat) = (15 : Fin 16).val ∧ site.book.classOf tee = some 3 ∧ site.book.classOf ⟨1, 0, 0⟩ = none ∧
    site.book.catalogue.length < 256 := by decide +kernel

theorem test_catalogue_set : result .order (after (.catalogueSet o1 tee 16) site) = some .range ∧
    (after (.catalogueSet o1 ⟨1, 0, 0⟩ 15) site).book.classOf ⟨1, 0, 0⟩ = some 15 := by decide +kernel
theorem test_catalogue_remove : (after (.catalogueRemove o1 tee) site).book.catalogue = [] := by decide +kernel
theorem test_catalogue_get : body .operator (after (.catalogueGet p1 tee) site) = [.u8 3] := by decide +kernel

theorem witness_ClassSetClampsRecipe : Ready site o1 0x0A ∧ Ready site c1 0x0B ∧ (0 : Nat) = (0 : Fin 16).val := by
  decide +kernel

/-- R29's table: the duty is clamped against the period just stored. -/
theorem test_class_set :
    let r : Recipe := { Recipe.reset with period := 0, duty := 9, dwell := 0, inkLimit := 254, choke := 4, scorchLimit := -81,
                                          scorchAllowance := 60001 }
    let t := (after (.classSet o1 0 r) site).book.recipes[(0 : Fin 16)]
    (t.period, t.duty, t.dwell, t.inkLimit, t.choke, t.scorchLimit, t.scorchAllowance) = (1, 0, 1, 255, 3, -80, 60000) := by
  decide +kernel

theorem test_class_get : result .cure (after (.classGet c1 16) site) = some .range := by decide +kernel

theorem witness_OrderPostFillsBook : Ready site o1 0x01 ∧ site.book.find 81 = none ∧
    site.book.orders.length < 128 ∧ (site.art 0).map Art.status = some .ready ∧ (site.book.find 77).isSome = true ∧
    postLine.quantity = 2 ∧ postLine.overlay = none := by decide +kernel

/-- The line takes the lowest free record, and the waiting garment at S0 is matched by priority, not to it. -/
theorem test_order_post :
    let s := after (.orderPost o1 81 0 [postLine]) site
    (result .order s, body .order s, (s.book.lines[(5 : Fin 512)]).map Line.order, s.book.sequence) =
      (some .ok, [.u32 4, .u8 1, .u16 5], some 81, 5) ∧
    (s.garment 0).map (fun g => g.binding.map Binding.line) = some (some 0) := by decide +kernel

theorem test_order_post_refused : result .order (after (.orderPost o1 77 4 [postLine]) site) = some .malformed ∧
    result .order (after (.orderPost o1 77 3 [postLine]) site) = some .duplicate ∧
    result .order (after (.orderPost o1 81 3 [{ postLine with art := 63 }]) site) = some .unknown := by decide +kernel

theorem witness_LineAmendSetsQuantity : Ready site o1 0x02 ∧ (site.book.find 77).map Order.lines = some [0, 1] ∧
    (site.book.lines[(1 : Fin 512)]).map (fun l => (l.quantity, l.done, l.reserved)) = some (1, 0, 1) ∧
    (site.book.lines[(1 : Fin 512)]).map Line.order = some 77 ∧ (site.book.find 77).map Order.status = some .opened ∧
    site.book.find 82 = none ∧ (site.book.find 79).map Order.status = some .complete := by decide +kernel

/-- R37, log 12: an amend down to what is done makes the line DONE and the order COMPLETE, reported in that order. -/
theorem test_line_amend_completes :
    let b := { books with
      orders := [⟨77, 2, 0, .opened, [0]⟩], lines := upd books.lines 0 (line 77 10 4 0 .opened) }
    let s := after (.lineAmend o1 77 0 4) { site with book := b }
    ((s.book.find 77).map Order.status, notices s) =
      (some .complete, [.lineProgress 0 77 0 4 4 0 0 .done, .orderState 77 (some .complete) 0]) := by decide +kernel

/-- R37: an amend upward turns the FULL line OPEN; one down to done + reserved turns the OPEN line FULL. -/
theorem test_line_amend :
    (after (.lineAmend o1 77 1 2) site).book.lineStatus 1 = some .opened ∧
    (after (.lineAmend o1 77 0 5) site).book.lineStatus 0 = some .full := by decide +kernel

theorem witness_OrderHoldReleaseAndRetire : Ready site o1 0x03 ∧ Ready site o1 0x04 ∧
    (site.book.find 77).map Order.status = some .opened ∧ (site.book.find 78).map Order.status = some .held ∧
    (site.book.find 79).map Order.status = some .complete ∧ site.book.find 82 = none := by decide +kernel

theorem test_order_hold : ((after (.orderHold o1 77) site).book.find 77).map Order.status = some .held := by decide +kernel
theorem test_order_release : ((after (.orderRelease o1 78) site).book.find 78).map Order.status = some .opened := by
  decide +kernel

theorem witness_OrderCancelWithdrawsLines : Ready site o1 0x05 ∧ (site.book.find 77).map Order.status = some .opened ∧
    (site.book.find 79).map Order.status = some .complete ∧ (site.book.find 80).map Order.status = some .cancelled := by
  decide +kernel

theorem test_order_cancel :
    let s := after (.orderCancel o1 77) site
    (s.book.lineStatus 0, s.book.lineStatus 1, (s.book.find 77).map Order.status) =
      (some .withdrawn, some .withdrawn, some .cancelling) ∧
    (s.garment 1).map Garment.orphan = some true ∧ (s.garment 5).map Garment.orphan = some false := by decide +kernel

theorem witness_OrderHoldReleaseAndRetire_retire : Ready site o1 0x06 ∧ (site.book.find 79).map Order.status = some .complete ∧
    (site.book.find 80).map Order.status = some .cancelled ∧ (site.book.find 77).map Order.status = some .opened := by
  decide +kernel

theorem test_order_retire :
    let s := after (.orderRetire o1 79) site
    (s.book.orders.length, s.book.lines[(3 : Fin 512)]) = (3, none) := by decide +kernel

theorem witness_CounterRequestsDeriveStates : (site.book.lines[(1 : Fin 512)]).map Line.order = some 77 ∧
    (site.book.find 77).isSome = true ∧ (site.book.lines[(1 : Fin 512)]).map Line.status = some .full := by decide +kernel

/-- Chapter 2's rematch: SPOIL turns a FULL line OPEN. -/
theorem test_spoil_reopens : (site.count .spoil 1).2 = true ∧ (site.count .done 1).2 = false ∧
    (site.count .done 1).1.book.lineStatus 1 = some .done := by decide +kernel

/-! ### Garments -/

theorem witness_GarmentLoadLooksUp : Ready siteEmpty p1 0x21 ∧ siteEmpty.place 0 = .station 0 ∧
    siteEmpty.garment 0 = none ∧ siteEmpty.track.line ≠ .census ∧ siteEmpty.book.classOf tee = some 3 ∧
    (chooseCandidate (siteEmpty.candidates tee)).map Candidate.line = some 0 ∧ siteEmpty.book.classOf ⟨1, 0, 0⟩ = none ∧
    (siteEmpty.garment 15 = none) := by decide +kernel

theorem test_garment_load :
    let s := after (.garmentLoad p1 0 tee) siteEmpty
    (s.garment 0).map (fun g => (g.serial, g.stage)) = some (20, .matched) ∧ s.units.serial = 21 ∧
    (s.book.lines[(0 : Fin 512)]).map Line.reserved = some 5 := by decide +kernel

/-- R49's skip rule: a serial that a record or a context holds is passed over, and so is 0. -/
theorem test_serial_skips :
    let s := { siteEmpty with units := { siteEmpty.units with serial := 14 } }
    let w := { siteEmpty with units := { siteEmpty.units with serial := 0 } }
    (s.freshSerial, w.freshSerial) = (17, 1) := by decide +kernel

theorem witness_GarmentAssignBindsNamedLine : Ready site p1 0x22 ∧ site.place 0 = .station 0 ∧
    (site.garment 0).map (fun g => (g.stage, g.hold, g.cls)) = some (.loaded, some .noLine, some 3) ∧
    (site.book.find 77).map Order.lines = some [0, 1] ∧ (site.book.lines[(0 : Fin 512)]).map Line.status = some .opened ∧
    (site.book.lines[(1 : Fin 512)]).map Line.status = some .full := by decide +kernel

theorem test_garment_assign : result .operator (after (.garmentAssign p1 0 77 0) site) = some .ok ∧
    result .operator (after (.garmentAssign p1 0 77 1) site) = some .state ∧
    result .operator (after (.garmentAssign p1 0 77 2) site) = some .unknown ∧
    result .operator (after (.garmentAssign p1 1 77 0) site) = some .wrongPlaten := by decide +kernel

theorem witness_BindingLatchesLine :
    (site.candidates tee).map Candidate.line = [0] ∧ (site.book.find 77).isSome = true ∧
    ((site.candidates tee).head?.bind fun x => site.reserveAndBind 0 loaded 3 x).isSome = true := by decide +kernel

/-- R53: LINE_PROGRESS of the reservation, then GARMENT_MATCHED. -/
theorem test_binding_notices :
    ((site.candidates tee).head?.bind fun x => site.reserveAndBind 0 loaded 3 x).map notices =
      some [.lineProgress 0 77 0 10 1 5 0 .opened, .garmentMatched 0 10 77 0 0 3 false] := by decide +kernel

theorem witness_MatchingAndRematch_candidate : (chooseCandidate (site.candidates tee)).isSome = true := by decide +kernel

theorem witness_MatchingAndRematch : (site.garmentAt 0).map Prod.fst = some 0 ∧
    loaded.stage = .loaded ∧ loaded.hold = some .noLine ∧ siteEmpty.garmentAt 0 = none ∧
    site.book.classOf loaded.blank = some 3 := by decide +kernel

theorem test_rematch : ((site.rematch .other).garment 0).map Garment.stage = some .matched := by decide +kernel

theorem witness_RemovedGarmentIsCounted : Ready site p1 0x23 ∧ Ready site p1 0x24 ∧ Ready site p1 0x25 ∧
    site.place 0 = .station 0 ∧ site.place 5 = .station 5 ∧ cured.stage = .released ∧ cured.disposition = .good ∧
    (site.garment 5).isSome = true ∧ (site.garment 0).isSome = true := by decide +kernel

theorem test_load_clear : let s := after (.loadClear p1 0) site
    s.garment 0 = none ∧ body .operator s = [.u32 10] := by decide +kernel
theorem test_unload_good : let s := after (.unloadGood p1 5) site
    (s.book.lines[(2 : Fin 512)]).map (fun l => (l.done, l.reserved, l.spoiled)) = some (1, 0, 0) ∧ s.garment 5 = none := by
  decide +kernel
theorem test_unload_spoil : let s := after (.unloadSpoil p1 5) site
    (s.book.lines[(2 : Fin 512)]).map (fun l => (l.done, l.reserved, l.spoiled)) = some (0, 0, 1) := by decide +kernel

/-! ### The track -/

theorem witness_MoveStartFollowsAdvanceRule : site.resetLow = false ∧ ExitMay site 5 5 = False ∧
    ExitMay (site.putGarment 5 none) 5 5 ∧ EntryMay (site.putStation 1 ⟨none, false, false⟩) 0 6 := by
  refine ⟨rfl, ?_, ?_, ?_⟩
  · have h : ¬StationCondition site 5 5 := by
      have e : site.garment 5 = some cured := by decide +kernel
      simp [StationCondition, e]
    exact eq_false fun m => h m.2.2.2.2.2.2
  · have e : (site.putGarment 5 none).garment 5 = none := by decide +kernel
    refine ⟨by decide +kernel, by decide +kernel, by decide +kernel, by decide +kernel, by decide +kernel, by decide +kernel, ?_⟩
    simp [StationCondition, e]
  · exact ⟨by decide +kernel, by decide +kernel, by decide +kernel, by decide +kernel, by decide +kernel, by decide +kernel⟩

theorem test_move_start :
    let s := after (.moveStart (.entry 0)) (site.putStation 1 ⟨none, false, false⟩)
    (s.place 6, s.seg (.entry 0), s.lane 0, (s.station 1).reserved, s.pins.goEntry[(0 : Fin 6)]) =
      (.moving (.entry 0), .moving 6 333, [], true, true) := by decide +kernel

/-- An EMPTY platen waits at S0 (R7). -/
theorem test_empty_stays : (after (.moveStart (.exit 0)) siteEmpty).seg (.exit 0) = .idle := by decide +kernel

/-- `site` with platen 6 moving on E0 since time 0 and platen 3 on X3. -/
def moving : State :=
  { site with track := { tracks with
    places := upd (upd tracks.places 6 (.moving (.entry 0))) 3 (.moving (.exit 3))
    stations := upd tracks.stations 1 ⟨none, true, false⟩
    lanes := Vector.replicate 6 []
    entries := upd tracks.entries 0 (.moving 6 0)
    exits := upd tracks.exits 3 (.moving 3 0) } }

theorem witness_ArriveAndTimeoutEndMoves : moving.resetLow = false ∧ moving.track.exits[(3 : Fin 6)] = .moving 3 0 ∧
    moving.track.entries[(0 : Fin 6)] = .moving 6 0 ∧ moving.seg (.exit 0) = .idle ∧
    { moving with clock := ⟨8000, 0, 1⟩ }.seg (.exit 3) = .moving 3 0 ∧ 8000 ≤ ((8000 : Word) - 0).toNat ∧
    ((7999 : Word) - 0).toNat < 8000 := by decide +kernel

/-- GO is asserted for the two MOVING segments alone (R9). -/
theorem test_go : moving.pins.goExit.toList = [false, false, false, true, false, false] ∧
    moving.pins.goEntry.toList = [true, false, false, false, false, false] := by decide +kernel

theorem witness_ArrivalClauses :
    (site.garment 5).map (fun g => (g.disposition, g.cure.result)) = some (.good, .released) ∧
    (site.garment 4).map (fun g => (g.disposition, g.cure.result)) = some (.good, .none) ∧ site.garment 15 = none := by
  decide +kernel

/-- R157: a RELEASED garment that comes to S5 again has stage RELEASED there; one with no result keeps its stage. -/
theorem test_arrival_at_unload :
    let s := site.putGarment 5 (some { cured with stage := .cureWait })
    [5, 4].map (fun p : Fin 16 => ((s.arrival 5 p).garment p).map Garment.stage) = [some .released, some .curing] := by
  decide +kernel

/-- R182: ARRIVE of E0 that has held for its hundredth tick ends the move. -/
theorem test_tick_arrive :
    let s := ticked { moving with inputs := { moving.inputs with
      arriveEntry := upd moving.inputs.arriveEntry 0 ⟨false, true, 99⟩ } }
    (s.place 6, s.inputs.arriveEntry[(0 : Fin 6)]) = (.station 1, ⟨true, true, 0⟩) := by decide +kernel

theorem test_arrive :
    let s := after (.arrive (.entry 0)) moving
    (s.place 6, s.station 1, s.seg (.entry 0)) = (.station 1, ⟨some 6, false, false⟩, .idle) := by decide +kernel

theorem test_move_timeout :
    let s := after (.moveTimeout (.exit 3)) { moving with clock := ⟨8000, 0, 1⟩ }
    (s.place 3, s.seg (.exit 3), s.track.line, notices s) =
      (.uncertain (.exit 3), .jammed 3 .timeout false, .stopped,
        [.jam (.exit 3) 3 .timeout false, .lineState .stopped false true]) := by decide +kernel

/-- Platen 3 moves on X3 alone. -/
theorem moving_alone (h : Segment) (x : Word) (e : moving.seg h = .moving 3 x) : h = .exit 3 := by
  have k : ∀ h, (match moving.seg h with | .moving p _ => decide (p = 3 → h = .exit 3) | _ => true) = true := by
    intro h
    cases h <;> rename_i n <;> revert n <;> decide +kernel
  have q := k h
  rw [e] at q
  simpa using q

theorem witness_EmergencyStopJamsLine : moving.resetLow = false ∧ moving.inputs.estop.level = false ∧
    { moving with inputs := { moving.inputs with estop := ⟨true, true, 0⟩ } }.inputs.estop.level = true ∧
    moving.seg (.exit 3) = .moving 3 0 ∧ (∀ h x, moving.seg h = .moving 3 x → h = .exit 3) ∧
    site.spray.run = none ∧ (site.garmentAt 2).isSome = true ∧ (site.garmentAt 1).isSome = true ∧ site.garment 15 = none :=
  ⟨rfl, rfl, rfl, by decide +kernel, moving_alone, rfl, by decide +kernel, by decide +kernel, by decide +kernel⟩

theorem test_emergency_stop :
    let s := after .emergencyStopAsserted moving
    (s.inputs.estop.level, s.track.line, s.seg (.exit 3), s.place 6) =
      (true, .stopped, .jammed 3 .eStop false, .uncertain (.entry 0)) := by decide +kernel

theorem test_emergency_release :
    let s := after .emergencyStopReleased { moving with inputs := { moving.inputs with estop := ⟨true, true, 0⟩ } }
    (s.track.line, notices s) = (.running, [.lineState .running false true]) := by decide +kernel

/-- The census with platens 7 to 15 in SERVICE and platen 6 alone UNSEEN. -/
def census : State :=
  { site with track := { tracks with
    places := upd tracks.places 6 .unseen, lanes := Vector.replicate 6 [], line := .census } }

theorem witness_PlatenDeclareEndsCensus : Ready census p1 0x26 ∧ census.place 6 = .unseen ∧
    (∀ q, q ≠ 6 → census.place q ≠ .unseen) ∧ census.track.line ≠ .stopped ∧ (census.lane 0).length < laneCapacity 0 ∧
    census.present 1 = true ∧ (census.station 1).occupant ≠ none := by decide +kernel

theorem test_platen_declare :
    let s := after (.platenDeclare p1 6 (.lane 5)) census
    (s.place 6, s.lane 5, s.track.line) = (.lane 5, [6], .stopped) ∧
    result .operator (after (.platenDeclare p1 6 (.lane 6)) census) = some .range ∧
    result .operator (after (.platenDeclare p1 6 (.station 1)) census) = some .state := by decide +kernel

/-- Platen 6 UNCERTAIN on E0, platen 3 on X3, the line STOPPED. -/
def jammed : State := after .emergencyStopAsserted moving

theorem witness_JamConfirmPlacesPlaten : Ready jammed p1 0x27 ∧ jammed.place 6 = .uncertain (.entry 0) ∧
    jammed.place 3 = .uncertain (.exit 3) ∧ jammed.present 1 = true := by decide +kernel

theorem test_jam_confirm :
    let s := after (.jamConfirm p1 6 (.lane 0)) jammed
    (s.place 6, s.lane 0, s.station 1, s.seg (.entry 0)) = (.lane 0, [6], ⟨none, false, false⟩, .idle) ∧
    (after (.jamConfirm p1 3 (.lane 3)) jammed).station 3 = ⟨none, false, false⟩ := by decide +kernel

theorem witness_ResumeHoldsAndService : Ready site p1 0x28 ∧ Ready site p1 0x29 ∧ Ready site p1 0x2A ∧ Ready site p1 0x2B ∧
    Ready site p1 0x2C ∧ site.inputs.estop.level = false ∧ jammed.place 6 = .uncertain (.entry 0) ∧ jammed.inputs.estop.level = true ∧
    siteEmpty.place 0 = .station 0 ∧ siteEmpty.garment 0 = none ∧ site.place 15 = .service ∧
    (site.putStation 0 ⟨none, false, false⟩).present 0 = true := by decide +kernel

theorem test_line_resume : result .operator (after (.lineResume p1) jammed) = some .stopped ∧
    (after (.lineResume p1) { site with track := { tracks with line := .stopped } }).track.line = .running := by
  decide +kernel
theorem test_station_hold : ((after (.stationHold p1 5) site).station 5).held = true ∧
    result .operator (after (.stationHold p1 6) site) = some .range := by decide +kernel
/-- Section 6.8 at 20000 ms: the release frees a press that failed to close. -/
theorem test_station_release :
    (after (.stationRelease p1 2) ({ site with press := .fault .close }.putStation 2 ⟨some 2, false, true⟩)).press = .idle := by
  decide +kernel
theorem test_service_out : let s := after (.serviceOut p1 0) siteEmpty
    (s.place 0, (s.station 0).occupant) = (.service, none) := by decide +kernel
theorem test_service_in : let s := after (.serviceIn p1 15) (site.putStation 0 ⟨none, false, false⟩)
    (s.place 15, (s.station 0).occupant) = (.station 0, some 15) := by decide +kernel

/-! ### Art, palettes, the arbiter -/

/-- `site` with no line and no art pinned. -/
def bare : State :=
  { site with book := { books with orders := [], lines := Vector.replicate 512 none },
              units := ⟨Vector.replicate 16 none, 20⟩, shelf := Shelf.reset }

theorem witness_ArtOpenTakesLowestFree : Ready site o1 0x0C ∧ ArtFormat.ofCode 0 = some .idx4 ∧ site.art 3 = none ∧
    (∀ k : Fin 64, k < 3 → site.art k ≠ none) ∧ (9 : Nat) < 65535 ∧
    (site.store.arts.toList.all fun o => o.all fun d => decide (0 < d.stride * d.height)) = true := by decide +kernel

/-- R69's boundary: an extent that ends one byte before handle 0's is accepted, one byte later is OVERLAP. -/
theorem test_art_open :
    body .order (after (.artOpen o1 1 7 16 1 16 1008 5) site) = [.u8 3, .u32 1023] ∧
    result .order (after (.artOpen o1 1 7 16 1 17 1008 5) site) = some .overlap := by decide +kernel

theorem test_art_open_range : result .order (after (.artOpen o1 2 9 1 1 5 0x7BFFFF0 5) site) = some .ok ∧
    result .order (after (.artOpen o1 1 8 1 1 1 0 5) site) = some .range ∧
    result .order (after (.artOpen o1 0 0 3 1 1 0 5) site) = some .range ∧
    result .order (after (.artOpen o1 3 8 1 1 1 0 5) site) = some .malformed := by decide +kernel

theorem witness_ArtWriteRunsToItsReply : Ready site o1 0x0D ∧ (site.art 1).map Art.status = some .loading ∧
    (site.art 1).map (fun d => d.stride * d.height) = some 48 ∧ (site.art 2).map Art.status = some .verifying ∧
    (List.replicate 480 (0 : Byte)).length ≤ 480 := by decide +kernel

theorem test_art_write :
    (after (.artWrite o1 1 46 [1, 2]) site).store.write = some ⟨.order, 4142, [1, 2]⟩ ∧
    result .order (after (.artWrite o1 1 47 [1, 2]) site) = some .range ∧
    result .order (after (.artWrite o1 1 0 []) site) = some .malformed := by decide +kernel

/-- A write of two bytes in progress, and one whose last burst has completed. -/
def writing (data : List Byte) : State :=
  ({ site with store := { site.store with write := some ⟨.order, 4142, data⟩ } }).putLink .order
    { (site.link .order) with slot := .inFlight 9 0x0D .working }

theorem witness_ArtWriteComplete : (writing []).store.write = some ⟨.order, 4142, []⟩ ∧
    ((writing []).link .order).slot = .inFlight 9 0x0D .working ∧ (writing []).resetLow = false := by decide +kernel

theorem test_art_write_complete : result .order (after .artWriteComplete (writing [])) = some .ok := by decide +kernel

theorem witness_SealedArtIsVerified : Ready site o1 0x0E ∧ (site.art 1).map Art.status = some .loading ∧
    site.store.verifyQueue = [2] ∧ site.store.verify = none ∧ (site.art 2).map Art.height = some 2 := by decide +kernel

theorem test_art_seal :
    let s := after (.artSeal o1 1 (some 8)) site
    s.store.verifyQueue = [2, 1] ∧ (s.art 1).map (fun d => (d.status, d.expected)) = some (.verifying, 8) := by
  decide +kernel

theorem test_verify_pass_start : (after .verifyPassStart site).store.verify = some ⟨0, 0, 0xFFFFFFFF⟩ := by decide +kernel

/-- A pass over handle 2 with every row fed in, whose CRC agrees or does not. -/
def verified (crc : Word) : State := { site with store := { site.store with verify := some ⟨2, 0, ~~~crc⟩ } }

theorem test_verify_pass_end :
    ((after .verifyPassEnd (verified 0)).art 2).map Art.status = some .ready ∧
    ((after .verifyPassEnd (verified 1)).art 2).map Art.status = some .bad ∧
    (after .verifyPassEnd (verified 1)).store.verifyQueue = [] := by decide +kernel

theorem witness_ArtFreeSparesPinnedArt : Ready site o1 0x0F ∧
    (site.book.lines[(0 : Fin 512)]).map (fun l => (l.placement.art, l.status)) = some (0, .opened) ∧
    (bare.art 2).map Art.status = some .verifying ∧ site.art 63 = none := by decide +kernel

/-- A pass on handle 2 with the pass's own read at the port, or the engine's. -/
theorem witness_FreedPass (r : Requester) :
    let s := { verified 0 with arbiter := ⟨0, .verify, some ⟨r, ⟨8192, .read⟩, .live⟩⟩ }
    Ready s o1 0x0F ∧ s.store.verifyQueue.head? = some 2 ∧ s.store.verify ≠ none ∧ (s.art 2).isSome = true ∧
    ((after (.artFree o1 2) s).arbiter.port = some ⟨r, ⟨8192, .read⟩, if r = .verify then .dropped else .live⟩) := by
  cases r <;> decide +kernel

theorem test_art_free : result .order (after (.artFree o1 0) site) = some .inUse ∧
    (after (.artFree o1 0) bare).art 0 = none ∧
    (after (.artFree o1 2) (verified 0)).store.verifyQueue = [] := by decide +kernel

theorem witness_PalettesAndOverlays : Ready site o1 0x10 ∧ Ready site h1 0x11 ∧ Ready site o1 0x12 ∧ Ready site h1 0x13 ∧
    (site.art 0).map Art.palette = some 3 ∧ ([⟨1, 2, 3, 4, 5⟩] : List Ink).length = 1 := by decide +kernel

theorem test_palette_set :
    result .order (after (.paletteSet o1 3 0 [⟨1, 2, 3, 4, 5⟩]) site) = some .inUse ∧
    (after (.paletteSet o1 7 255 [⟨1, 2, 3, 4, 5⟩]) site).store.palettes[(7 : Fin 8)][(255 : Fin 256)] = ⟨1, 2, 3, 4, 5⟩ ∧
    result .order (after (.paletteSet o1 7 255 [⟨1, 2, 3, 4, 5⟩, Ink.zero]) site) = some .range := by decide +kernel

theorem test_palette_get : body .head (after (.paletteGet h1 0 255 1) site) = [.u8 1, .u8 0, .u8 0, .u8 0, .u8 0, .u8 0] ∧
    result .head (after (.paletteGet h1 0 0 97) site) = some .malformed := by decide +kernel

theorem test_overlay_set :
    let s := after (.overlaySet o1 15 none 63 [Vector.replicate 64 .colourB]) site
    s.store.overlays[(15 : Fin 16)].codes[(63 : Fin 64)][(63 : Fin 64)] = .colourB ∧
    result .order (after (.overlaySet o1 15 none 0 []) site) = some .malformed := by decide +kernel

/-- R78: sixteen bytes of codes, leftmost pixel in the high bits; the two colours come first. -/
theorem test_overlay_get : body .head (after (.overlayGet h1 15 0 1)
      (after (.overlaySet o1 15 (some (⟨1, 2, 3, 4⟩, ⟨5, 6, 7, 8⟩)) 0 [upd (Vector.replicate 64 .transparent) 0 .knockout]) site)) =
    [.u8 1, .u8 2, .u8 3, .u8 4, .u8 5, .u8 6, .u8 7, .u8 8, .u8 1, .bytes (0xC0 :: List.replicate 15 0)] := by
  decide +kernel

/-- A verification read and an art write waiting, the fairness count at 63 or 64, with or without a swath read. -/
def contested (fairness : Nat) (pull : Bool) : State :=
  { writing [1, 2] with
    store := { site.store with write := some ⟨.order, 4142, [1, 2]⟩, verify := some ⟨0, 0, 0xFFFFFFFF⟩ }
    arbiter := ⟨fairness, .write, none⟩
    ring := { Ring.reset with pull := if pull then some ⟨.head, 0, 0, 0x7C00000, 0x7C00080, []⟩ else none } }

theorem witness_ArbiterGrantsByClass : (contested 63 true).arbiter.port = none ∧
    (contested 63 true).pullBurst = some ⟨0x7C00000, .read⟩ ∧ (contested 64 true).verifyBurst = some ⟨8192, .read⟩ ∧
    (contested 64 false).writeBurst = some ⟨4096, .write 4142 [1, 2]⟩ ∧ (contested 0 false).engineBurst = none ∧
    (contested 0 false).resetLow = false := by decide +kernel

theorem witness_RequestersAsk : (contested 0 true).ring.pull = some ⟨.head, 0, 0, 0x7C00000, 0x7C00080, []⟩ ∧
    (contested 0 true).store.write = some ⟨.order, 4142, [1, 2]⟩ ∧
    (contested 0 true).store.verify = some ⟨0, 0, 0xFFFFFFFF⟩ ∧ (contested 0 true).store.verifyQueue = [2] ∧
    ((contested 0 true).art 2).map (fun d => (d.base, d.height)) = some (8192, 2) ∧
    site.store.write = none ∧ site.ring.pull = none ∧ site.store.verify = none ∧ site.engine.unit = none := by
  decide +kernel

theorem test_arbiter_grant :
    (after .arbiterGrant (contested 63 true)).arbiter = ⟨64, .write, some ⟨.pull, ⟨0x7C00000, .read⟩, .live⟩⟩ ∧
    (after .arbiterGrant (contested 64 true)).arbiter = ⟨0, .verify, some ⟨.write, ⟨4096, .write 4142 [1, 2]⟩, .live⟩⟩ := by
  decide +kernel

/-- The granted write of `contested`, and the granted verification read. -/
def granted (g : Granted) : State := { contested 0 true with arbiter := ⟨0, .write, some g⟩ }

theorem witness_BurstMovesItsBytes : site.mem.wf = true ∧ (granted ⟨.verify, ⟨8192, .read⟩, .live⟩).arbiter.port.isSome = true ∧
    (granted ⟨.verify, ⟨8192, .read⟩, .live⟩).verifying.isSome = true := by decide +kernel

theorem test_burst_writes :
    let s := after .burstComplete (granted ⟨.write, ⟨4096, .write 4142 [1, 2]⟩, .live⟩)
    (s.mem.read 4141, s.mem.read 4142, s.mem.read 4143, s.store.write, s.arbiter.port) =
      (0, 1, 2, some ⟨.order, 4144, []⟩, none) := by decide +kernel

/-- R73: the four bytes of row 0 enter the CRC, the padding to the stride of 16 does not. -/
theorem test_burst_verifies :
    let s := after .burstComplete (granted ⟨.verify, ⟨8192, .read⟩, .live⟩)
    s.store.verify = some ⟨1, 0, crc32Feed 0xFFFFFFFF [1, 0, 0, 0]⟩ ∧ (s.art 2).map Art.rowsChecked = some 1 := by
  decide +kernel

/-! ### Pretreatment -/

theorem witness_SpraySequenceFollowsStrobes : site.resetLow = false ∧ site.spray.run = none ∧
    site.sprayed = some (1, matched, dark) ∧ matched.disposition = .good ∧ matched.pretreat.result = .pending ∧
    matched.pretreat.coverage = .complete ∧ site.track.line = .running ∧ 0 < matched.pretreat.planned := by decide +kernel

theorem test_spray_start :
    let s := after .sprayStart site
    s.spray.run = some ⟨0, none⟩ ∧ (s.garment 1).map Garment.stage = some .spraying := by decide +kernel

/-- Section 6.7's doses: bands 10 and 11 of zones 3 and 4. -/
def exampleMap : DoseMap :=
  upd (upd DoseMap.zero 10 (upd (upd (Vector.replicate 8 0) 3 90) 4 40)) 11 (upd (Vector.replicate 8 0) 3 60)

/-- Section 6.7's garment at S1 in its spray pass, with zone 3's channel and totals as given. -/
def spraying (strobes issued shortfall : Nat) (zone3 : Channel) : State :=
  let g : Garment :=
    { matched with
      stage := .spraying,
      pretreat := { coverage := .complete, map := exampleMap, planned := 190, issued := issued, shortfall := shortfall, result := .pending } }
  { site.putGarment 1 (some g) with
    spray := ⟨some ⟨strobes, strobes.pred⟩, upd (Vector.replicate 8 ⟨0, 0, false, false, false⟩) 3 zone3⟩ }

theorem witness_SprayRun : (spraying 11 119 0 ⟨51, 11, true, true, false⟩).spray.run = some ⟨11, some 10⟩ ∧
    (spraying 11 119 0 ⟨51, 11, true, true, false⟩).sprayed.isSome = true ∧ (11 : Nat) = (11 : Fin 63).val := by
  decide +kernel

/-- Section 6.7 at 880 ms: strobe 11 cuts 11 pulses of zone 3 and loads 60. -/
theorem test_band :
    let s := after .band (spraying 11 119 0 ⟨51, 11, true, true, false⟩)
    (s.garment 1).map (fun g => (g.pretreat.issued, g.pretreat.shortfall)) = some (120, 11) ∧
    s.spray.channels[(3 : Fin 8)].remaining = 59 ∧ s.spray.run = some ⟨12, some 11⟩ := by decide +kernel

/-- Section 6.7: END after 63 strobes is DONE, at 850 ms it is SHORT. -/
theorem test_spray_end :
    let early := after .sprayEnd (spraying 11 90 0 ⟨1, 40, true, true, false⟩)
    ((after .sprayEnd (spraying 63 179 11 ⟨0, 0, false, false, false⟩)).garment 1).map (fun g => g.pretreat.result) = some .done ∧
    (early.garment 1).map (fun g => (g.pretreat.result, g.pretreat.shortfall, g.disposition)) = some (.short, 100, .good) ∧
    notices early = [.pretreatResult 1 11 .short 190 90 100 20 11] := by decide +kernel

/-- Section 6.7: an emergency stop at 850 ms. -/
theorem test_spray_stop :
    ((after .emergencyStopAsserted (spraying 11 90 0 ⟨1, 40, true, true, false⟩)).garment 1).map
      (fun g => (g.pretreat.result, g.pretreat.shortfall, g.disposition)) = some (.interrupted, 100, .reject) := by
  decide +kernel

theorem witness_EveryPlannedPulseIsAccounted : PulsesAccounted (spraying 11 119 0 ⟨0, 11, true, false, true⟩) ∧
    (spraying 11 119 0 ⟨0, 11, true, false, true⟩).spray.run ≠ none ∧
    (spraying 11 119 0 ⟨0, 11, true, false, true⟩).sprayed.isSome = true := by
  refine ⟨?_, by decide +kernel, by decide +kernel⟩
  intro run p g r h k
  have e : (spraying 11 119 0 ⟨0, 11, true, false, true⟩).sprayed.all (fun x => decide (x.2.1.pretreat.planned =
      x.2.1.pretreat.issued + x.2.1.pretreat.shortfall +
      cutShortfall (spraying 11 119 0 ⟨0, 11, true, false, true⟩).spray.channels +
      unstrobed x.2.1.pretreat.map 11)) = true := by decide +kernel
  have q := of_decide_eq_true (all_some e k)
  cases h
  exact q

theorem test_zone_valve_close :
    (after (.zoneValveClose 3) (spraying 11 119 0 ⟨dark.duty, 11, true, true, false⟩)).spray.channels[(3 : Fin 8)].valve = false ∧
    (after (.zoneValveClose 3) (spraying 11 119 0 ⟨dark.duty + 1, 11, true, true, false⟩)).spray.channels[(3 : Fin 8)].valve =
      true := by decide +kernel
theorem test_zone_pulse_reload :
    let s := after (.zonePulseReload 3) (spraying 11 119 0 ⟨0, 11, true, false, true⟩)
    s.spray.channels[(3 : Fin 8)] = ⟨dark.period, 10, true, true, false⟩ ∧
    (s.garment 1).map (fun g => g.pretreat.issued) = some 120 := by decide +kernel
theorem test_zone_channel_exhausted :
    (after (.zoneChannelExhausted 3) (spraying 11 119 0 ⟨0, 0, true, false, true⟩)).spray.channels[(3 : Fin 8)].active = false := by
  decide +kernel

/-- Section 6.8's garment at S2, the press in a given state. -/
def pressing (r : PressRecord) (p : Press) : State :=
  { site.putGarment 2 (some { sprayed with press := r, stage := .pressing }) with press := p }

theorem witness_PressRunsItsCycle : (pressing .pending .idle).pressed.isSome = true ∧ site.track.line = .running ∧
    site.inputs.pressOpen.level = true ∧ (pressing .pending (.closing 0)).press = .closing 0 ∧ site.resetLow = false := by
  decide +kernel

/-- Section 6.8 row by row: the start, the late close, the dwell of 150, its end, and the press seen open. -/
theorem test_press_start : (after .pressStart (pressing .pending .idle)).press = .closing 3000 := by decide +kernel
theorem test_close_timeout :
    let s := after .closeTimeout (pressing .pending (.closing 0))
    (s.press, (s.station 2).held, notices s) = (.fault .close, true, [.pressFault 2 12 .close 150]) := by decide +kernel
theorem test_press_closed : (after .pressClosed (pressing .pending (.closing 900))).press = .dwell 15000 ∧
    (after .pressClosed (pressing .pending (.fault .close))).press = .fault .close := by decide +kernel
theorem test_dwell_expiry : (after .dwellExpiry (pressing .pending (.dwell 0))).press = .opening 3000 ∧
    (after .dwellExpiry (pressing .pending (.dwell 1))).press = .dwell 1 := by decide +kernel
theorem test_press_open :
    let s := after .pressOpen (pressing .pending (.opening 700))
    s.press = .idle ∧ (s.garment 2).map Garment.press = some .done ∧
    (after .pressOpen (pressing .pending (.fault .close))).press = .fault .close := by decide +kernel
theorem test_open_timeout :
    let s := after .openTimeout (pressing .pending (.opening 0))
    s.press = .fault .opening ∧ (s.garment 2).map Garment.press = some .interrupted := by decide +kernel

/-! ### Swaths and the session -/

theorem witness_EngineTakesNextUnit : site.engine.unit = none ∧ site.headOfLine.isSome = true ∧
    site.ring.slots[(0 : Fin 4)] = none ∧ site.resetLow = false := by decide +kernel

/-- The garment of S3 at the head of lane 2 instead, on platen 7. -/
def prefetching : State :=
  { site.putGarment 3 none with
    units := ⟨upd (upd site.units.garments 3 none) 7 (some pressed), 20⟩
    track := { tracks with places := upd tracks.places 7 (.lane 2), lanes := upd tracks.lanes 2 [7] } }

theorem prefetching_segments (g : Segment) : prefetching.track.seg g = .idle := by
  cases g <;> rename_i n <;> revert n <;> decide +kernel

theorem prefetching_places (p : Fin 16) (g : Segment) :
    prefetching.track.places[p] ≠ .moving g ∧ prefetching.track.places[p] ≠ .uncertain g := by
  cases g <;> rename_i n <;> revert p n <;> decide +kernel

theorem prefetching_TrackInv : TrackInv prefetching.track where
  load := by decide +kernel
  once := by decide +kernel
  lanes := by decide +kernel
  station := by decide +kernel
  occupant := by decide +kernel
  reserved := by decide +kernel
  moving p g := ⟨fun h => absurd h (prefetching_places p g).1, fun ⟨_, h⟩ => by simp [prefetching_segments] at h⟩
  uncertain p g := ⟨fun h => absurd h (prefetching_places p g).2, fun ⟨_, _, h⟩ => by simp [prefetching_segments] at h⟩
  running := by decide +kernel
  census := by
    intro h
    exact absurd h (by decide +kernel)

def producing (p : Fin 16) : Producing := ⟨p, pressed, bound 77 0, ⟨400, 431, 640, 671⟩⟩

/-- R124: a garment in the print position, one in the next position only, and none in either. -/
theorem witness_HeadOfLine :
    (TrackInv site.track ∧ PrintPosition site 3 ∧ Eligible site 3 (producing 3)) ∧
    (TrackInv prefetching.track ∧ (∀ p x, PrintPosition prefetching p → ¬Eligible prefetching p x) ∧
      (prefetching.lane 2).head? = some 7 ∧ Eligible prefetching 7 (producing 7)) ∧
    (TrackInv (site.putGarment 3 none).track ∧ ((site.putGarment 3 none).lane 2).head? = none ∧
      ∀ p x, PrintPosition (site.putGarment 3 none) p → ¬Eligible (site.putGarment 3 none) p x) := by
  have none_there (s : State) (ho : (s.station 3).occupant = some 3) (hg : s.garment 3 = none) :
      ∀ p x, PrintPosition s p → ¬Eligible s p x := by
    intro p x h e
    rcases h with h | ⟨h, _⟩
    · rw [ho] at h
      cases h
      rw [e.2.1] at hg
      cases hg
    · rw [ho] at h
      cases h
  refine ⟨⟨witness_TrackInv, Or.inl (by decide +kernel), ?_⟩,
    ⟨prefetching_TrackInv, none_there _ (by decide +kernel) (by decide +kernel), by decide +kernel, ?_⟩,
    ⟨witness_TrackInv, by decide +kernel, none_there _ (by decide +kernel) (by decide +kernel)⟩⟩ <;>
  · unfold Eligible
    decide +kernel

theorem test_prefetch : prefetching.headOfLine = some (producing 7) ∧ site.headOfLine = some (producing 3) := by
  decide +kernel

/-- The dark garment at S3 gets its underbase swath 0: rows 640 to 671, columns 400 to 431, 256 bytes. -/
theorem test_swath_unit_begin :
    let s := after .swathUnitBegin site
    s.ring.slots[(0 : Fin 4)] = some ⟨.filling, 13, 0, .underbase, 640, 32, 400, 32, 256⟩ ∧
    (s.garment 3).map (fun g => (g.print.phase, g.print.count)) = some (.underbase, 2) := by decide +kernel

/-- A coverage job of the garment at S1, with no garment at S3. -/
def covering : State :=
  { site.putGarment 3 none with
    engine := ⟨[⟨1, 11, 10⟩], none⟩
    units := ⟨upd (upd site.units.garments 3 none) 1
      (some { matched with pretreat := { PretreatRecord.fresh with coverage := .queued, result := .pending } }), 20⟩ }

theorem witness_BandUnit : covering.headOfLine = none ∧ covering.engine.jobs = [⟨1, 11, 10⟩] ∧
    (covering.garment 1).map (fun g => (g.serial, g.binding)) = some (11, some (bound 77 0)) ∧
    covering.extent spot = some ⟨400, 431, 640, 671⟩ := by decide +kernel

/-- R105: the job leaves the queue, and a band unit of it is discarded. -/
theorem test_withdraw_job :
    let unit (w : Word) : RasterUnit := ⟨.band 10, 1, w, 640, 671, 672, 0, [], [], false⟩
    let s (w : Word) : State := { covering with engine := ⟨[⟨1, 11, 10⟩, ⟨2, 12, 10⟩], some (unit w)⟩ }
    (covering.garment 1).map (fun g =>
        [11, 12].map fun w => (((s w).withdrawJob 1 g).engine.jobs, ((s w).withdrawJob 1 g).engine.unit.map RasterUnit.discarded)) =
      some [([⟨2, 12, 10⟩], some true), ([⟨2, 12, 10⟩], some false)] := by decide +kernel

theorem test_band_unit_begin :
    let s := after .bandUnitBegin covering
    (s.engine.unit.map fun u => (u.kind, u.first, u.last)) = some (.band 10, 640, 671) ∧
    (s.engine.jobs.map Job.cursor) = [11] ∧ (s.garment 1).map (fun g => g.pretreat.coverage) = some .scanning := by
  decide +kernel

/-- A unit with every burst done. -/
def finishing (discarded : Bool) : State :=
  let unit (k : UnitKind) (p : Fin 16) (serial : Word) : RasterUnit :=
    ⟨k, p, serial, 640, 671, 672, 0, [], [], discarded⟩
  { site with
    engine := ⟨[], some (unit (.swath 0 .underbase 2 0) 3 13)⟩
    ring := { Ring.reset with slots := upd Ring.reset.slots 0 (some ⟨.filling, 13, 0, .underbase, 640, 32, 400, 32, 256⟩), order := [0] } }

/-- R101: the rows of an underbase swath of 8 bytes a row are finished block by block as they are written. -/
theorem test_next_row :
    let u : RasterUnit := ⟨.swath 0 .underbase 2 0, 3, 13, 640, 671, 640, 1, [(641, 1024)], [(640, 0x7C00000), (648, 0x7C00040)], false⟩
    [u.after u.reads u.writes, u.after [] u.writes, u.after [] u.writes.tail, u.after [] []].map RasterUnit.next =
      [640, 640, 648, 672] ∧
    (swathShape ⟨400, 431, 640, 671⟩ .underbase 2).blocks 0x7C00000 =
      [(640, 0x7C00000), (648, 0x7C00040), (656, 0x7C00080), (664, 0x7C000C0)] := by decide +kernel

/-- The unit of `finishing` with art still to read, or with the swath's first block still to be written. -/
def rastering (reads : List (Nat × Nat)) : State :=
  { finishing false with
    engine := ⟨[], some ⟨.swath 0 .underbase 2 0, 3, 13, 640, 671, 640, 0, reads, [(640, 0x7C00000)], false⟩⟩ }

theorem witness_EngineAsks : (rastering [(641, 1024)]).engineBurst = some ⟨1024, .read⟩ ∧
    (rastering []).engineBurst.map Burst.block = some 0x7C00000 ∧
    ((rastering []).garment 3).map (fun g => (g.serial, g.binding)) = some (13, some (bound 77 0)) ∧
    (rastering []).extent spot = some ⟨400, 431, 640, 671⟩ := by decide +kernel

theorem witness_SwathLayout : 0 < (swathShape ⟨400, 431, 640, 671⟩ .underbase 2).width ∧
    31 < (swathShape ⟨400, 431, 640, 671⟩ .underbase 2).rows ∧
    7 < ((swathShape ⟨400, 431, 640, 671⟩ .underbase 2).width + 3) / 4 := by decide

theorem witness_UnitEndHandsOnResults : (finishing false).engine.unit.isSome = true ∧
    (finishing true).engine.unit.isSome = true ∧ (finishing false).ring.slots[(0 : Fin 4)] ≠ none ∧
    (finishing false).extent spot = some ⟨400, 431, 640, 671⟩ := by decide +kernel

theorem test_swath_unit_end_discarded :
    let s := after .swathUnitEnd (finishing true)
    s.engine.unit = none ∧ (s.garment 3).map (fun g => g.print.produced) = some 0 := by decide +kernel

/-- A band unit of a discarded job. -/
def bandFinishing : State :=
  { covering with engine := ⟨[⟨1, 11, 11⟩], some ⟨.band 10, 1, 11, 640, 671, 672, 0, [], [], true⟩⟩ }

theorem witness_BandUnitEnd : bandFinishing.engine.unit.isSome = true ∧ bandFinishing.resetLow = false := by decide +kernel

theorem test_band_unit_end : (after .bandUnitEnd bandFinishing).engine.unit = none := by decide +kernel

theorem witness_SessionPullsAndReleases : site.ring.session = none ∧ site.garmentAt 3 = some (3, pressed) ∧
    pressed.disposition = .good ∧ pressed.pretreat.result = .done ∧ pressed.press = .done ∧ pressed.print.phase = .none ∧
    pressed.stage = .printWait := by decide +kernel

theorem test_print_session_open :
    let s := after .printSessionOpen site
    s.ring.session = some ⟨3, 13, 2⟩ ∧ notices s = [.printReady 3 13 true 0 1 2 2 2 400 32 0] := by decide +kernel

/-- A session with one of its two swaths produced and in slot 0, and a released count. -/
def session (produced released : Nat) : State :=
  let g : Garment :=
    { pressed with stage := .printing, print := ⟨.underbase, 2, 2, 2, produced, released, ⟨0, 0, 0, 0, 0⟩⟩ }
  { site.putGarment 3 (some g) with
    ring := { Ring.reset with
      slots := upd Ring.reset.slots 0 (some ⟨.ready, 13, 0, .underbase, 640, 32, 400, 32, 256⟩)
      order := [0]
      session := some ⟨3, 13, 2⟩ } }

theorem witness_Pull : Ready (session 1 0) h1 0x2D ∧ Ready (session 1 0) h1 0x2E ∧
    (session 1 0).ring.session = some ⟨3, 13, 2⟩ ∧ ((session 1 0).garment 3).isSome = true ∧
    (session 1 0).ring.slots[(0 : Fin 4)] = some ⟨.ready, 13, 0, .underbase, 640, 32, 400, 32, 256⟩ := by decide +kernel

theorem test_swath_pull :
    (after (.swathPull h1 0 255) (session 1 0)).ring.pull = some ⟨.head, 0, 255, 0x7C000FF, 0x7C00100, []⟩ ∧
    result .head (after (.swathPull h1 0 256) (session 1 0)) = some .range ∧
    result .head (after (.swathPull h1 1 0) (session 1 0)) = some .notReady ∧
    result .head (after (.swathPull h1 2 0) (session 1 0)) = some .state := by decide +kernel

theorem test_swath_release :
    let s := after (.swathRelease h1 0) (session 1 0)
    s.ring.slots[(0 : Fin 4)] = none ∧ (s.garment 3).map (fun g => g.print.released) = some 1 ∧
    result .head (after (.swathRelease h1 0) { session 1 1 with ring := { (session 1 1).ring with slots := Ring.reset.slots } }) =
      some .stale := by decide +kernel

/-- A pull whose last burst has completed. -/
def pulled : State :=
  ({ session 1 0 with ring := { (session 1 0).ring with pull := some ⟨.head, 0, 255, 0x7C00100, 0x7C00100, [7]⟩ } }).putLink .head
    { (site.link .head) with slot := .inFlight 9 0x2D .working }

theorem witness_PullComplete : pulled.ring.pull = some ⟨.head, 0, 255, 0x7C00100, 0x7C00100, [7]⟩ ∧
    (pulled.link .head).slot = .inFlight 9 0x2D .working := by decide +kernel

theorem test_swath_pull_complete : body .head (after .swathPullComplete pulled) =
    [.u8 0, .u32 255, .u8 1, .u16 1, .bytes [7]] := by decide +kernel

theorem witness_PrintEndClosesSession : Ready (session 2 2) h1 0x2F ∧ (session 2 2).ring.session = some ⟨3, 13, 2⟩ ∧
    ((session 2 2).garment 3).map (fun g => (g.print.produced, g.print.released)) = some (2, 2) ∧
    Ready site h1 0x2F ∧ site.ring.session = none := by decide +kernel

/-- A session whose garment's swath unit has read its art, with a burst of the engine or of a pull at the port. -/
def aborting (r : Requester) : State :=
  { session 1 0 with
    engine := ⟨[], some ⟨.swath 1 .color 2 1, 3, 13, 640, 671, 640, 0, [], [(640, 0x7D00000)], false⟩⟩
    arbiter := ⟨0, .verify, some ⟨r, ⟨0x7D00000, .read⟩, .live⟩⟩ }

theorem witness_AbortedUnit (r : Requester) : Ready (aborting r) h1 0x2F ∧ (aborting r).ring.session = some ⟨3, 13, 2⟩ ∧
    ((aborting r).garment 3).isSome = true ∧
    (after (.printEndAbort h1) (aborting r)).arbiter.port =
      some ⟨r, ⟨0x7D00000, .read⟩, if r = .engine then .aborted else .live⟩ := by cases r <;> decide +kernel

theorem test_print_end_ok :
    ((after (.printEndOk h1) (session 2 2)).garment 3).map (fun g => (g.print.phase, g.stage)) = some (.complete, .cureWait) ∧
    result .head (after (.printEndOk h1) (session 2 1)) = some .incomplete := by decide +kernel

theorem test_print_end_abort :
    let s := after (.printEndAbort h1) (session 1 0)
    s.ring.slots[(0 : Fin 4)] = none ∧ s.ring.session = none ∧
    (s.garment 3).map (fun g => (g.print.phase, g.disposition, g.stage)) = some (.aborted, .reject, .printing) := by
  decide +kernel

/-! ### Curing -/

theorem witness_CureSampleIntegrates : Ready site o1 0x14 ∧ Ready site h1 0x15 ∧ Ready site c1 0x30 ∧
    site.place 4 = .station 4 ∧ site.garment 4 = some curing ∧ curing.binding = some (bound 77 0) ∧
    curing.stage = .curing ∧ curing.cure.result = .none ∧ site.place 0 ≠ .station 4 ∧
    rateAt site.cure.table 259 = 0 ∧ rateAt site.cure.table 260 = 1 := by decide +kernel

/-- 150 °C is rate 3: 3 × 333 + 7 = 1006 hundredths over 333 ms. -/
theorem test_cure_sample : body .cure (after (.cureSample c1 4 300) site) =
      [.u16 333, .u8 3, .u16 110, .u8 6, .u16 1000, .u16 0, .u8 0] ∧
    result .cure (after (.cureSample c1 0 300) site) = some .wrongPlaten := by decide +kernel

/-- R143, R144: a sample that scorches rejects the garment even where it also reaches the required credit. -/
theorem test_cure_scorch :
    let g : Garment := { curing with cure := { curing.cure with credit := 999, scorch := 60000 } }
    let s := after (.cureSample c1 4 800) (site.putGarment 4 (some g))
    (s.garment 4).map (fun g => (g.cure.result, g.disposition, g.stage)) = some (.scorched, .reject, .curing) ∧
    s.cure.slot = none := by decide +kernel

theorem test_rate_table_set :
    let band (z : Int) : RateBand := ⟨z, 1⟩
    let t : Vector RateBand 8 := Vector.ofFn fun i : Fin 8 => band (if i = 7 then 900 else if i = 0 then -300 else 100 * i.val)
    result .order (after (.rateTableSet o1 t) site) = some .ok ∧
    ((after (.rateTableSet o1 t) site).cure.table[(0 : Fin 8)]).threshold = -80 ∧
    result .order (after (.rateTableSet o1 (upd t 6 (band 850))) site) = some .malformed := by decide +kernel

theorem test_rate_table_get : body .head (after (.rateTableGet h1) site) =
    ([(260, 1), (280, 2), (300, 3), (310, 4), (320, 5), (330, 6), (340, 8), (350, 10)] : List (Int × Nat)).flatMap
      (fun x => [.s16 x.1, .u8 x.2]) := by decide +kernel

theorem witness_CuringEntryAndStaleTimer : (site.garment 5).map (fun g => (g.disposition, g.cure.result)) = some (.good, .released) ∧
    (site.garment 3).map (fun g => (g.disposition, g.cure.result, g.binding.isSome)) = some (.good, .none, true) ∧
    site.cure.slot = some (4, 14) ∧ (site.garment 4).map Garment.serial = some 14 := by decide +kernel

theorem test_stale_timer_expiry :
    let s := after .staleTimerExpiry { site with cure := { site.cure with stale := some 0 } }
    (s.garment 4).map (fun g => g.cure.stale) = some true ∧ s.cure.stale = none ∧
    notices s = [.cureStale 4 14 true 100 1000] := by decide +kernel

/-! ### The shelf -/

/-- Section 9.8's garment: sprayed, pressed, its print aborted after 6 swaths, REJECT and unsampled, at S5. -/
def aborted : Garment :=
  { pressed with
    serial := 5120, stage := .printing, disposition := .reject
    print := ⟨.aborted, 3, 2, 2, 6, 4, ⟨5000, 600, 700, 800, 4096⟩⟩ }

def atShelf : State := site.putGarment 5 (some aborted)

theorem witness_ShelveMovesGarment : Ready atShelf o1 0x16 ∧ Ready atShelf p1 0x1A ∧ atShelf.place 5 = .station 5 ∧
    (atShelf.garment 5).map (fun g => (g.disposition, g.binding.isSome, g.cls)) = some (.reject, true, some 3) ∧
    atShelf.shelfSlot 1 = none ∧ atShelf.shelfSlot 0 ≠ none ∧ (atShelf.garment 0).map Garment.binding = some none := by
  decide +kernel

theorem test_shelve :
    let s := after (.shelve p1 5) atShelf
    body .operator s = [.u32 5120, .u8 1, .u8 3] ∧ s.garment 5 = none ∧
    result .operator (after (.shelve p1 0) atShelf) = some .state := by decide +kernel

theorem test_shelf_permit_set :
    (after (.shelfPermitSet o1 7) site).shelf.permit = ⟨true, true, true, false⟩ ∧
    result .order (after (.shelfPermitSet o1 16) site) = some .malformed := by decide +kernel

theorem witness_UnshelveRestoresContext : Ready siteEmpty p1 0x1B ∧ siteEmpty.shelfSlot 0 = some shelved ∧
    siteEmpty.place 0 = .station 0 ∧ siteEmpty.garment 0 = none ∧ (siteEmpty.art 0).map Art.status = some .ready ∧
    siteEmpty.shelfSlot 1 = none ∧ siteEmpty.track.line = .running := by decide +kernel

/-- Section 9.8's restore: IDENT, PRETREAT and PRINT asked, the first two loaded, resumed at PRINT. IDENT with CURE
alone, CURE not permitted, would resume at PRETREAT. -/
theorem test_unshelve :
    let permitted : State := { siteEmpty with shelf := { siteEmpty.shelf with permit := ⟨true, true, true, false⟩ } }
    let s := after (.unshelve p1 0 0 7) permitted
    body .operator s = [.u32 16, .u8 3, .u8 (Stage.printWait).code] ∧
    (s.garment 0).map (fun g => (g.disposition, g.restored, g.stage, g.press)) = some (.good, true, .printWait, .done) ∧
    ((after (.unshelve p1 0 0 9) permitted).garment 0).map Garment.stage = some .matched ∧
    result .operator (after (.unshelve p1 0 0 2) permitted) = some .badMask := by decide +kernel

theorem witness_DropAndExportEmptySlot : Ready site p1 0x19 ∧ Ready site o1 0x17 ∧ site.shelfSlot 0 = some shelved ∧
    site.shelfSlot 7 = none ∧ RecordForm.ofCode 1 = some .compact := by decide +kernel

theorem test_shelf_drop :
    let s := after (.shelfDrop p1 0) site
    s.shelfSlot 0 = none ∧ (s.book.lines[(1 : Fin 512)]).map (fun l => (l.reserved, l.spoiled, l.status)) =
      some (0, 1, .opened) := by decide +kernel

/-- Section 9.8: the compact record of IDENT and PRETREAT is 36 bytes, with header 01h 03h 00h 24h. -/
theorem test_shelf_export :
    let s := after (.shelfExport o1 0 1) site
    (body .order s).head? = some (.u16 36) ∧ s.shelfSlot 0 = none ∧
    (encodeFields (shelved.context.record .compact false)).take 4 = [1, 3, 0, 0x24] := by decide +kernel

/-- The compact record of `shelved`. -/
def exported : List Byte := encodeFields (shelved.context.record .compact false)

/-- `site` after the export, the rematch's binding apart: line 1 is OPEN with nothing reserved. -/
def importing : State :=
  { site with
    shelf := Shelf.reset
    book := { books with lines := upd books.lines 1 (line 77 1 0 0 .opened) } }

theorem witness_ImportReadsExportedRecord : Ready importing o1 0x18 ∧ shelved.context.fits = true ∧
    (readRecord exported).map (fun r => (r.ident.line, r.length)) = some (1, 36) ∧ importing.book.lineStatus 1 = some .opened ∧
    (importing.book.find 77).map Order.status = some .opened ∧ importing.shelfSlot 0 = none ∧ readRecord [] = none := by
  decide +kernel

theorem test_shelf_import :
    let s := after (.shelfImport o1 exported) importing
    body .order s = [.u8 0, .u32 20] ∧ (s.book.lines[(1 : Fin 512)]).map (fun l => (l.reserved, l.status)) = some (1, .full) ∧
    result .order (after (.shelfImport o1 exported) site) = some .state := by decide +kernel

/-- R181: the bytes of the compact record, written out. -/
theorem test_record_layout : exported =
    [1, 3, 0, 36, 0, 0, 0, 16, 0x01, 0x2C, 2, 4, 3, 1, 0, 1, 0, 0, 0, 77, 0, 0, 0, 9,
      3, 1, 1, 0, 0, 5, 0, 0, 5, 0, 0, 0] := by decide +kernel

/-- R160: a line index above 511 is a value outside its field's range, MALFORMED and not UNKNOWN. -/
theorem test_shelf_import_line_range :
    let record := exported.set 14 2
    result .order (after (.shelfImport o1 record) importing) = some .malformed ∧
    ((after (.shelfImport o1 exported) importing).shelfSlot 0).map (fun x => x.context.length) = some 36 := by decide +kernel

/-! ### Records and line reset -/

theorem witness_ReadReportsRecords : Ready site c1 0x20 ∧ site.garment 0 = some loaded ∧ site.garment 15 = none ∧
    site.book.find (BitVec.ofNat 32 77) ≠ none ∧ site.book.find (BitVec.ofNat 32 82) = none ∧
    (site.book.lines[(4 : Fin 512)]).isSome = true ∧ site.book.lines[(511 : Fin 512)] = none ∧ site.art 63 = none ∧
    site.art 0 ≠ none ∧ site.shelfSlot 0 ≠ none ∧ site.shelfSlot 7 = none := by decide +kernel

theorem test_read : result .cure (after (.read c1 1 15 0) site) = some .unknown ∧
    result .cure (after (.read c1 1 0 2) site) = some .malformed ∧ result .cure (after (.read c1 0 16 0) site) = some .range ∧
    result .cure (after (.read c1 8 0 0) site) = some .malformed ∧ body .cure (after (.read c1 5 7 0) site) = [.u8 0] := by
  decide +kernel

theorem witness_LineResetClearsWork : Ready site o1 0x1C ∧ RequestInv site ∧ RequestInv moving ∧
    moving.seg (.exit 3) = .moving 3 0 ∧ (∀ h x, moving.seg h = .moving 3 x → h = .exit 3) :=
  ⟨by decide +kernel, witness_RequestInv,
    { handed := by intro l tag kind i h; cases l <;> cases h
      pull := by intro x h; exact absurd h (by simp [moving, site, State.reset, Ring.reset])
      write := by intro x h; exact absurd h (by simp [moving, site, State.reset, Store.reset])
      lineReset := by intro l h; exact absurd h (by simp [moving, site, State.reset])
      reply := by intro l f h; cases l <;> cases h },
    by decide +kernel, moving_alone⟩

/-- A pull still reading, with a burst of a unit that PRINT_END(ABORT) discarded granted. -/
def readingAborted : State :=
  { pulled with
    ring := { pulled.ring with pull := some ⟨.head, 0, 255, 0x7C00100, 0x7C00140, [7]⟩ }
    arbiter := ⟨0, .verify, some ⟨.engine, ⟨0x7C00000, .write 0x7C00000 [1]⟩, .aborted⟩⟩ }

theorem witness_LineResetAbandons : Ready readingAborted o1 0x1C ∧ RequestInv readingAborted ∧
    (readingAborted.link .head).slot = .inFlight 9 0x2D .working ∧
    readingAborted.ring.pull = some ⟨.head, 0, 255, 0x7C00100, 0x7C00140, [7]⟩ ∧
    readingAborted.arbiter.port = some ⟨.engine, ⟨0x7C00000, .write 0x7C00000 [1]⟩, .aborted⟩ :=
  ⟨by decide +kernel,
    { handed := by intro l tag kind i h; cases l <;> cases h
      pull := by
        intro x h
        cases h
        exact ⟨9, rfl⟩
      write := by intro x h; exact absurd h (by simp [readingAborted, pulled, session, site, State.reset, Store.reset])
      lineReset := by intro l h; exact absurd h (by simp [readingAborted, pulled, session, site, State.reset])
      reply := by intro l f h; cases l <;> cases h },
    rfl, rfl, rfl⟩

theorem test_line_reset_abandons :
    let s := after (.lineReset o1) readingAborted
    (result .head s, s.ring.pull, s.arbiter.port.map Granted.fate) = (some .stale, none, some .droppedByReset) := by
  decide +kernel

theorem test_line_reset :
    let s := after (.lineReset o1) (session 1 0)
    (s.book.orders.length, s.book.sequence, s.garment 3, s.shelfSlot 0, s.ring.session, s.track.line) =
      (0, 4, none, none, none, .stopped) ∧
    notices s = [.lineState .stopped false true, .printCancelled 3 13 2 1 0] := by decide +kernel

/-- A line reset whose reply waits for a granted burst, or for nothing. -/
def resetting (port : Option Granted) : State :=
  ({ site with lineReset := some .order, arbiter := ⟨0, .verify, port⟩ }).putLink .order
    { (site.link .order) with slot := .inFlight 1 0x1C .working }

theorem witness_LineResetComplete : (resetting none).lineReset = some .order ∧
    ((resetting none).link .order).slot = .inFlight 1 0x1C .working ∧ (resetting none).arbiter.port = none ∧
    (resetting (some ⟨.verify, ⟨8192, .read⟩, .droppedByReset⟩)).arbiter.port ≠ none := by decide +kernel

/-- R171: a write granted to a unit that PRINT_END(ABORT) discarded is waited for while the unit is in hand. -/
theorem test_line_reset_waits_for_aborted_write :
    let g : Granted := ⟨.engine, ⟨0x7C00000, .write 0x7C00000 [1]⟩, .aborted⟩
    let s := { finishing true with arbiter := ⟨0, .verify, some g⟩ }
    ((after (.lineReset o1) s).arbiter.port.map Granted.fate, (after .swathUnitEnd s).arbiter.port.map Granted.fate) =
      (some .droppedByReset, some .dropped) := by decide +kernel

theorem test_line_reset_complete :
    result .order (after .lineResetComplete (resetting none)) = some .ok ∧
    result .order (after .lineResetComplete (resetting (some ⟨.verify, ⟨8192, .read⟩, .droppedByReset⟩))) = none := by
  decide +kernel

/-! ### Invariants and the raster arithmetic -/

/-- `site` with a cure sample at the front of its queue. -/
def working : State := { site with pending := [.cureSample c1 4 300] }

theorem witness_EveryStepKeepsTrack : TrackInv working.track ∧ step working = .next (after (.cureSample c1 4 300) site) :=
  ⟨witness_TrackInv, rfl⟩

theorem witness_EveryStepKeepsStores : StoreInv working.store ∧ RingInv working.ring ∧ CatalogueInv working.book ∧ (∀ l, LinkInv (working.link l)) ∧
    working.mem.wf = true ∧ step working = .next (after (.cureSample c1 4 300) site) :=
  ⟨witness_StoreInv, witness_RingInv, witness_CatalogueInv, witness_LinkInv, by decide +kernel, rfl⟩

theorem witness_EveryStepKeepsReservations : ReservationInv site ∧ site.pending = [] ∧ step site = .next (ticked site) :=
  ⟨witness_ReservationInv, rfl, rfl⟩

theorem witness_RejectStandsAndCreditGrows : step working = .next (after (.cureSample c1 4 300) site) ∧
    working.garment 4 = some curing ∧ ((after (.cureSample c1 4 300) site).garment 4).isSome = true ∧
    curing.cure.credit ≤ 65535 ∧ (working.garment 5).map Garment.disposition = some .good :=
  ⟨rfl, by decide +kernel, by decide +kernel, by decide, by decide +kernel⟩

/-- An overlay at (−20, 40) whose last code is colour B. -/
def overlaid : PixelInputs :=
  ⟨dark, { spot with overlay := some ⟨4, -20, 40⟩ }, some image, Vector.replicate 256 Ink.zero,
    some (⟨4, -20, 40⟩, ⟨upd (Vector.replicate 64 (Vector.replicate 64 .transparent)) 63
      (upd (Vector.replicate 64 .transparent) 63 .colourB), ⟨1, 2, 3, 4⟩, ⟨5, 6, 7, 8⟩⟩), []⟩

/-- R86, R88, R89: the footprint of art of each format ends at the field's last column; a window outside the art has none. -/
theorem witness_PixelsAreFetchedFromArt (f : ArtFormat) : artFootprint label_ { image with format := f } = some ⟨2500, 3199, 100, 997⟩ ∧
    label_.overlay = some ⟨4, -20, 40⟩ ∧ overlayFootprint ⟨4, -20, 40⟩ = some ⟨0, 43, 40, 103⟩ ∧
    extentOf label_ (some { image with format := f }) = some ⟨0, 3199, 40, 997⟩ ∧
    extentOf { label_ with overlay := none, col0 := 1201 } (some { image with format := f }) = none := by
  cases f <;> decide

theorem witness_PixelStagesGiveDropLevels : (43 : Int) = -20 + (63 : Fin 64).val ∧ (103 : Int) = 40 + (63 : Fin 64).val ∧
    overlaid.overlay.isSome = true ∧ overlaid.extent.isSome = true ∧ (255 : Nat) ≤ 255 := by decide +kernel

/-- R93's last covered pixel takes colour B with full coverage. -/
theorem test_overlay_pixel : overlaid.stageA 43 103 = ⟨5, 6, 7, 8, 255⟩ := by decide +kernel

end Sys2Proof.Tests
end

