-- ==== Sys2Proof/Proofs/TrackFacts.lean ====
section
/-! PROOF. The track's invariant, and that each thing the Track Manager does keeps it (R4 to R22). -/

namespace Sys2Proof.Machine

open Function (update update_apply)

theorem nextStation_inj {m n : Fin 6} : nextStation m = nextStation n ↔ m = n := by
  simp [nextStation]

theorem nextStation_surj (m : Fin 6) : ∃ n, nextStation n = m := ⟨m - 1, by simp [nextStation]⟩

theorem Track.anyUnseen_iff (t : Track) : t.anyUnseen = true ↔ ∃ p : Fin 16, t.places[p] = .unseen := by
  simp only [Track.anyUnseen, List.any_eq_true, Vector.mem_toList_iff, Vector.mem_iff_getElem]
  constructor
  · rintro ⟨x, ⟨i, hi, rfl⟩, hx⟩
    exact ⟨⟨i, hi⟩, by cases h : t.places[i] <;> simp_all [Place.isUnseen]⟩
  · rintro ⟨p, hp⟩
    exact ⟨_, ⟨p.val, p.isLt, hp⟩, rfl⟩

/-- The platen of a MOVING segment. -/
def SegState.mover : SegState → Option (Fin 16)
  | .moving p _ => some p
  | _ => none

/-- The platen of a JAMMED segment. -/
def SegState.stuck : SegState → Option (Fin 16)
  | .jammed p _ _ => some p
  | _ => none

theorem SegState.mover_iff (x : SegState) (p : Fin 16) : x.mover = some p ↔ ∃ start, x = .moving p start := by
  cases x <;> simp [SegState.mover]

theorem SegState.stuck_iff (x : SegState) (p : Fin 16) : x.stuck = some p ↔ ∃ c late, x = .jammed p c late := by
  cases x <;> simp [SegState.stuck]

/-- A segment carries at most one platen, moving or jammed. -/
theorem SegState.carries_one {x : SegState} {p q : Fin 16} (hp : x.mover = some p ∨ x.stuck = some p)
    (hq : x.mover = some q ∨ x.stuck = some q) : q = p := by
  cases x <;> simp_all [SegState.mover, SegState.stuck]

/-- A segment that carries a platen counts in its lane's load (R4). -/
theorem SegState.load_of_carries {x : SegState} {p : Fin 16} (h : x.mover = some p ∨ x.stuck = some p) :
    x.load = 1 ∧ x ≠ .idle := by
  cases x <;> simp_all [SegState.mover, SegState.stuck, SegState.load]

/-- A fixed table read as a function of its index. -/
def column {α : Type} {n : Nat} (v : Vector α n) : Fin n → α := fun i => v[i]

@[simp] theorem column_apply {α : Type} {n : Nat} (v : Vector α n) (i : Fin n) : column v i = v[i] := rfl

@[simp] theorem column_upd {α : Type} {n : Nat} (v : Vector α n) (i : Fin n) (x : α) :
    column (upd v i x) = update (column v) i x := by
  funext j
  rw [column_apply, upd_get, update_apply, column_apply]
  simp only [eq_comm]

/-- The Track Manager's tables, read as functions. -/
structure Tables where
  place : Fin 16 → Place
  station : Fin 6 → Station
  lane : Fin 6 → List (Fin 16)
  exit : Fin 6 → SegState
  entry : Fin 6 → SegState
  line : LineState

def Track.tables (t : Track) : Tables :=
  ⟨column t.places, column t.stations, column t.lanes, column t.exits, column t.entries, t.line⟩

/-- The track's invariant, table by table: what `TrackInv` says of segments is said of the exits and of the entries. -/
structure TrackFacts (t : Tables) : Prop where
  load : ∀ n, (t.lane n).length + (t.exit n).load + (t.entry n).load ≤ laneCapacity n
  once : ∀ n, (t.lane n).Nodup
  lanes : ∀ n p, p ∈ t.lane n ↔ t.place p = .lane n
  apart : ∀ n, (t.station n).occupant = none ∨ (t.station n).reserved = false
  occupant : ∀ n p, (t.station n).occupant = some p ↔
    t.place p = .station n ∨ t.place p = .moving (.exit n) ∨ t.place p = .uncertain (.exit n)
  reserved : ∀ n, (t.station (nextStation n)).reserved = true ↔ t.entry n ≠ .idle
  leaving : ∀ p n, t.place p = .moving (.exit n) ↔ (t.exit n).mover = some p
  entering : ∀ p n, t.place p = .moving (.entry n) ↔ (t.entry n).mover = some p
  exitStuck : ∀ p n, t.place p = .uncertain (.exit n) ↔ (t.exit n).stuck = some p
  entryStuck : ∀ p n, t.place p = .uncertain (.entry n) ↔ (t.entry n).stuck = some p
  running : t.line = .running → ∀ p, t.place p ≠ .unseen
  census : ∀ p, t.place p = .unseen → ∀ n, t.exit n = .idle ∧ t.entry n = .idle

/-- A segment is an exit or an entry, so the two forms of the invariant say the same. -/
theorem trackInv_iff (t : Track) : TrackInv t ↔ TrackFacts t.tables := by
  constructor
  · rintro ⟨load, once, lanes, station, occupant, reserved, moving, uncertain, running, census⟩
    simp only [← SegState.mover_iff, ← SegState.stuck_iff] at moving uncertain
    refine ⟨load, once, lanes, station, occupant, reserved, fun p n => moving p (.exit n), fun p n => moving p (.entry n),
      fun p n => uncertain p (.exit n), fun p n => uncertain p (.entry n), fun r p e => ?_, fun p e n => ?_⟩
    · simpa [running r] using t.anyUnseen_iff.2 ⟨p, e⟩
    · have idle := census (t.anyUnseen_iff.2 ⟨p, e⟩)
      exact ⟨idle (.exit n), idle (.entry n)⟩
  · rintro ⟨load, once, lanes, station, occupant, reserved, leaving, entering, exitStuck, entryStuck, running, census⟩
    refine ⟨load, once, lanes, station, occupant, reserved, fun p g => ?_, fun p g => ?_, fun r => ?_, fun u g => ?_⟩
    · rw [← SegState.mover_iff]
      cases g with
      | exit n => exact leaving p n
      | entry n => exact entering p n
    · rw [← SegState.stuck_iff]
      cases g with
      | exit n => exact exitStuck p n
      | entry n => exact entryStuck p n
    · rw [Bool.eq_false_iff, ne_eq, t.anyUnseen_iff]
      exact fun ⟨p, e⟩ => running r p e
    · obtain ⟨p, e⟩ := t.anyUnseen_iff.1 u
      cases g with
      | exit n => exact (census p e n).1
      | entry n => exact (census p e n).2


/-- R7, R9: a move starts on an exit. -/
theorem TrackFacts.exitStarts {t : Tables} (h : TrackFacts t) {n : Fin 6} {p : Fin 16} (w : Word)
    (line : t.line = .running) (idle : t.exit n = .idle) (stands : t.place p = .station n)
    (room : (t.lane n).length + (t.exit n).load + (t.entry n).load < laneCapacity n) :
    TrackFacts { t with place := update t.place p (.moving (.exit n)), exit := update t.exit n (.moving p w) } := by
  obtain ⟨load, once, lanes, apart, occupant, reserved, leaving, entering, exitStuck, entryStuck, running, census⟩ := h
  constructor <;> grind [update_apply, SegState.load, SegState.mover, SegState.stuck]

/-- R8, R9: a move starts on an entry. -/
theorem TrackFacts.entryStarts {t : Tables} (h : TrackFacts t) {n : Fin 6} {p : Fin 16} {rest : List (Fin 16)} (w : Word)
    (line : t.line = .running) (idle : t.entry n = .idle) (head : t.lane n = p :: rest)
    (free : (t.station (nextStation n)).occupant = none) :
    TrackFacts { t with
      place := update t.place p (.moving (.entry n))
      entry := update t.entry n (.moving p w)
      lane := update t.lane n rest
      station := update t.station (nextStation n) { t.station (nextStation n) with reserved := true } } := by
  obtain ⟨load, once, lanes, apart, occupant, reserved, leaving, entering, exitStuck, entryStuck, running, census⟩ := h
  have fresh : p ∉ rest ∧ rest.Nodup := by simpa [head] using once n
  have inLane : t.place p = .lane n := (lanes n p).1 (by simp [head])
  constructor <;> grind [update_apply, SegState.load, SegState.mover, SegState.stuck, nextStation_inj]

/-- R10, R14: a platen on an exit, moving or jammed, ends at the lane's tail. -/
theorem TrackFacts.exitEnds {t : Tables} (h : TrackFacts t) {n : Fin 6} {p : Fin 16}
    (on : t.place p = .moving (.exit n) ∨ t.place p = .uncertain (.exit n)) :
    TrackFacts { t with
      place := update t.place p (.lane n)
      lane := update t.lane n (t.lane n ++ [p])
      station := update t.station n { t.station n with occupant := none }
      exit := update t.exit n .idle } := by
  obtain ⟨load, once, lanes, apart, occupant, reserved, leaving, entering, exitStuck, entryStuck, running, census⟩ := h
  have carries : (t.exit n).mover = some p ∨ (t.exit n).stuck = some p := by rwa [leaving, exitStuck] at on
  have alone (q : Fin 16) := SegState.carries_one (q := q) carries
  have carried := SegState.load_of_carries carries
  have out : p ∉ t.lane n := by grind
  have fresh : (t.lane n ++ [p]).Nodup := by grind
  constructor <;> grind [update_apply, SegState.load, SegState.mover, SegState.stuck]

/-- R10, R14: a platen on an entry, moving or jammed, ends at the next station. -/
theorem TrackFacts.entryEnds {t : Tables} (h : TrackFacts t) {n : Fin 6} {p : Fin 16}
    (on : t.place p = .moving (.entry n) ∨ t.place p = .uncertain (.entry n)) :
    TrackFacts { t with
      place := update t.place p (.station (nextStation n))
      station := update t.station (nextStation n)
        { t.station (nextStation n) with occupant := some p, reserved := false }
      entry := update t.entry n .idle } := by
  obtain ⟨load, once, lanes, apart, occupant, reserved, leaving, entering, exitStuck, entryStuck, running, census⟩ := h
  have carries : (t.entry n).mover = some p ∨ (t.entry n).stuck = some p := by rwa [entering, entryStuck] at on
  have carried := SegState.load_of_carries carries
  have alone (q : Fin 16) := SegState.carries_one (q := q) carries
  have free : (t.station (nextStation n)).occupant = none := by grind
  constructor <;> grind [update_apply, SegState.load, SegState.mover, SegState.stuck, nextStation_inj]

/-- R14: a platen jammed on an exit is found at its station. -/
theorem TrackFacts.exitReturns {t : Tables} (h : TrackFacts t) {n : Fin 6} {p : Fin 16}
    (on : t.place p = .uncertain (.exit n)) :
    TrackFacts { t with place := update t.place p (.station n), exit := update t.exit n .idle } := by
  obtain ⟨load, once, lanes, apart, occupant, reserved, leaving, entering, exitStuck, entryStuck, running, census⟩ := h
  have carried := SegState.load_of_carries (.inr ((exitStuck p n).1 on))
  have alone (q : Fin 16) := SegState.carries_one (q := q) (.inr ((exitStuck p n).1 on))
  constructor <;> grind [update_apply, SegState.load, SegState.mover, SegState.stuck]

/-- R14: a platen jammed on an entry is found back at its lane's head. -/
theorem TrackFacts.entryReturns {t : Tables} (h : TrackFacts t) {n : Fin 6} {p : Fin 16}
    (on : t.place p = .uncertain (.entry n)) :
    TrackFacts { t with
      place := update t.place p (.lane n)
      lane := update t.lane n (p :: t.lane n)
      station := update t.station (nextStation n) { t.station (nextStation n) with reserved := false }
      entry := update t.entry n .idle } := by
  obtain ⟨load, once, lanes, apart, occupant, reserved, leaving, entering, exitStuck, entryStuck, running, census⟩ := h
  have out : p ∉ t.lane n := by grind
  have carried := SegState.load_of_carries (.inr ((entryStuck p n).1 on))
  have alone (q : Fin 16) := SegState.carries_one (q := q) (.inr ((entryStuck p n).1 on))
  have fresh : (p :: t.lane n).Nodup := by grind
  constructor <;> grind [update_apply, SegState.load, SegState.mover, SegState.stuck, nextStation_inj]

/-- R11, R15, R25: a moving exit jams. -/
theorem TrackFacts.exitJams {t : Tables} (h : TrackFacts t) {n : Fin 6} {p : Fin 16} {w : Word} (c : JamCause)
    (on : t.exit n = .moving p w) :
    TrackFacts { t with place := update t.place p (.uncertain (.exit n)), exit := update t.exit n (.jammed p c false) } := by
  obtain ⟨load, once, lanes, apart, occupant, reserved, leaving, entering, exitStuck, entryStuck, running, census⟩ := h
  have on' : t.place p = .moving (.exit n) := by grind [SegState.mover]
  constructor <;> grind [update_apply, SegState.load, SegState.mover, SegState.stuck]

/-- R11, R15, R25: a moving entry jams. -/
theorem TrackFacts.entryJams {t : Tables} (h : TrackFacts t) {n : Fin 6} {p : Fin 16} {w : Word} (c : JamCause)
    (on : t.entry n = .moving p w) :
    TrackFacts { t with place := update t.place p (.uncertain (.entry n)), entry := update t.entry n (.jammed p c false) } := by
  obtain ⟨load, once, lanes, apart, occupant, reserved, leaving, entering, exitStuck, entryStuck, running, census⟩ := h
  have on' : t.place p = .moving (.entry n) := by grind [SegState.mover]
  constructor <;> grind [update_apply, SegState.load, SegState.mover, SegState.stuck, nextStation_inj]

/-- R12: a jammed exit is marked late. -/
theorem TrackFacts.exitLate {t : Tables} (h : TrackFacts t) {n : Fin 6} {p : Fin 16} {c : JamCause} {late : Bool}
    (on : t.exit n = .jammed p c late) : TrackFacts { t with exit := update t.exit n (.jammed p c true) } := by
  obtain ⟨load, once, lanes, apart, occupant, reserved, leaving, entering, exitStuck, entryStuck, running, census⟩ := h
  constructor <;> grind [update_apply, SegState.load, SegState.mover, SegState.stuck]

/-- R12: a jammed entry is marked late. -/
theorem TrackFacts.entryLate {t : Tables} (h : TrackFacts t) {n : Fin 6} {p : Fin 16} {c : JamCause} {late : Bool}
    (on : t.entry n = .jammed p c late) : TrackFacts { t with entry := update t.entry n (.jammed p c true) } := by
  obtain ⟨load, once, lanes, apart, occupant, reserved, leaving, entering, exitStuck, entryStuck, running, census⟩ := h
  constructor <;> grind [update_apply, SegState.load, SegState.mover, SegState.stuck]

/-- R18, R22: a platen that is off the track is put at a free station. -/
theorem TrackFacts.putAtStation {t : Tables} (h : TrackFacts t) {n : Fin 6} {p : Fin 16}
    (off : t.place p = .unseen ∨ t.place p = .service) (free : (t.station n).occupant = none)
    (unreserved : (t.station n).reserved = false) :
    TrackFacts { t with
      place := update t.place p (.station n)
      station := update t.station n { t.station n with occupant := some p, reserved := false } } := by
  obtain ⟨load, once, lanes, apart, occupant, reserved, leaving, entering, exitStuck, entryStuck, running, census⟩ := h
  constructor <;> grind [update_apply, SegState.load, SegState.mover, SegState.stuck]

/-- During the census no station is reserved, as nothing moves. -/
theorem TrackFacts.unreserved {t : Tables} (h : TrackFacts t) {p : Fin 16} (off : t.place p = .unseen) (n : Fin 6) :
    (t.station n).reserved = false := by
  obtain ⟨m, rfl⟩ := nextStation_surj n
  simpa [(h.census p off m).2] using h.reserved m

/-- R18: an UNSEEN platen is put at a lane's tail. -/
theorem TrackFacts.putInLane {t : Tables} (h : TrackFacts t) {n : Fin 6} {p : Fin 16} (off : t.place p = .unseen)
    (room : (t.lane n).length < laneCapacity n) :
    TrackFacts { t with place := update t.place p (.lane n), lane := update t.lane n (t.lane n ++ [p]) } := by
  obtain ⟨load, once, lanes, apart, occupant, reserved, leaving, entering, exitStuck, entryStuck, running, census⟩ := h
  have out : p ∉ t.lane n := by grind
  have fresh : (t.lane n ++ [p]).Nodup := by grind
  constructor <;> grind [update_apply, SegState.load, SegState.mover, SegState.stuck]

/-- R18: an UNSEEN platen is declared off the track. -/
theorem TrackFacts.putInService {t : Tables} (h : TrackFacts t) {p : Fin 16} (off : t.place p = .unseen) :
    TrackFacts { t with place := update t.place p .service } := by
  obtain ⟨load, once, lanes, apart, occupant, reserved, leaving, entering, exitStuck, entryStuck, running, census⟩ := h
  constructor <;> grind [update_apply]

/-- R21: a platen that stands at a station is taken off the track. -/
theorem TrackFacts.takenOff {t : Tables} (h : TrackFacts t) {n : Fin 6} {p : Fin 16} (stands : t.place p = .station n) :
    TrackFacts { t with
      place := update t.place p .service
      station := update t.station n { t.station n with occupant := none } } := by
  obtain ⟨load, once, lanes, apart, occupant, reserved, leaving, entering, exitStuck, entryStuck, running, census⟩ := h
  constructor <;> grind [update_apply]

/-- R6, R17: the line changes its state; it is RUNNING only with no platen UNSEEN. -/
theorem TrackFacts.setLine {t : Tables} (h : TrackFacts t) (x : LineState)
    (seen : x = .running → ∀ p : Fin 16, t.place p ≠ .unseen) : TrackFacts { t with line := x } := by
  obtain ⟨load, once, lanes, apart, occupant, reserved, leaving, entering, exitStuck, entryStuck, running, census⟩ := h
  exact ⟨load, once, lanes, apart, occupant, reserved, leaving, entering, exitStuck, entryStuck, seen, census⟩

/-- R20: the holds are no part of the invariant. -/
theorem TrackFacts.setStations {t : Tables} (h : TrackFacts t) (x : Fin 6 → Station)
    (same : ∀ n, (x n).occupant = (t.station n).occupant ∧ (x n).reserved = (t.station n).reserved) :
    TrackFacts { t with station := x } := by
  obtain ⟨load, once, lanes, apart, occupant, reserved, leaving, entering, exitStuck, entryStuck, running, census⟩ := h
  refine ⟨load, once, lanes, fun n => ?_, fun n => ?_, fun n => ?_, leaving, entering, exitStuck, entryStuck, running,
    census⟩
  · simpa only [same n] using apart n
  · simpa only [same n] using occupant n
  · simpa only [same] using reserved n

end Sys2Proof.Machine
end

