-- ==== Sys2Proof/Proofs/TrackFrame.lean ====
section
/-! PROOF. What every other block's operations leave alone: the track. -/

namespace Sys2Proof.Machine
variable (s : State)

@[simp] theorem State.refuse_fst (c : ResultCode) : (s.refuse c).1 = s := rfl
@[simp] theorem State.accept_fst (b : List Field) : (s.accept b).1 = s := rfl

@[simp] theorem State.putArt_track (h : Fin 64) (d : Option Art) : (s.putArt h d).track = s.track := by
  simp [State.putArt]

@[simp] theorem State.putShelf_track (i : Fin 8) (x : Option ShelfSlot) : (s.putShelf i x).track = s.track := by
  simp [State.putShelf]

@[simp] theorem State.putChannel_track (z : Fin 8) (c : Channel) : (s.putChannel z c).track = s.track := by
  simp [State.putChannel]

@[simp] theorem State.onLink_track (l : Link) (f : LinkState → LinkState) : (s.onLink l f).track = s.track := by
  simp [State.onLink]

/-! ### Order Book -/

@[simp] theorem State.deriveOrder_track (n : Word) : (s.deriveOrder n).track = s.track := by
  simp only [State.deriveOrder]
  repeat' split
  all_goals simp

@[simp] theorem State.changeLine_track (i : Fin 512) (l : Line) : (s.changeLine i l).track = s.track := by
  simp [State.changeLine]

@[simp] theorem State.count_track (c : Counter) (i : Fin 512) : (s.count c i).1.track = s.track := by
  simp only [State.count]
  repeat' split
  all_goals simp

@[simp] theorem State.setOrder_track (o : Order) (x : OrderStatus) : (s.setOrder o x).track = s.track := by
  simp [State.setOrder]

theorem State.reserve_track {i : Fin 512} {t : State} (h : s.reserve i = some t) : t.track = s.track := by
  revert h
  simp only [State.reserve]
  repeat' split
  all_goals simp +contextual [← eq_comm (a := t)]

@[simp] theorem State.markOrphans_track (n : Word) : (s.markOrphans n).track = s.track := by
  simp [State.markOrphans]

@[simp] theorem State.cancelOrder_track (o : Order) : (s.cancelOrder o).track = s.track := by
  simp [State.cancelOrder]

@[simp] theorem State.retireOrder_track (o : Order) : (s.retireOrder o).track = s.track := by
  simp [State.retireOrder]

@[simp] theorem State.postOrder_track (n : Word) (k : Nat) (ls : List (PostLine × Placement)) : (s.postOrder n k ls).1.track = s.track := by
  simp [State.postOrder]

/-! ### Match Unit -/

@[simp] theorem State.takeSerial_track : s.takeSerial.track = s.track := by
  simp [State.takeSerial]

@[simp] theorem State.appendJob_track (p : Fin 16) (w : Word) (c : Option Nat) : (s.appendJob p w c).track = s.track := by
  simp only [State.appendJob]
  repeat' split
  all_goals simp

@[simp] theorem State.withdrawJob_track (p : Fin 16) (g : Garment) : (s.withdrawJob p g).track = s.track := by
  simp only [State.withdrawJob]
  repeat' split
  all_goals simp

@[simp] theorem State.bind_track (p : Fin 16) (g : Garment) (c : Fin 16) (x : Candidate) (l : Line) : (s.bind p g c x l).track = s.track := by
  simp [State.bind]

theorem State.reserveAndBind_track {p : Fin 16} {g : Garment} {c : Fin 16} {x : Candidate} {t : State}
    (h : s.reserveAndBind p g c x = some t) : t.track = s.track := by
  revert h
  simp only [State.reserveAndBind]
  split
  next l u _ e =>
    rintro ⟨⟩
    simpa using State.reserve_track s e
  next => simp

@[simp] theorem State.holdNoLine_track (p : Fin 16) (g : Garment) : (s.holdNoLine p g).track = s.track := by
  simp only [State.holdNoLine]
  repeat' split
  all_goals simp

@[simp] theorem State.matchAttempt_track (p : Fin 16) : (s.matchAttempt p).track = s.track := by
  simp only [State.matchAttempt]
  repeat' split
  case h_2 e => exact (State.reserveAndBind_track s e).trans rfl
  all_goals simp

@[simp] theorem State.lookup_track (p : Fin 16) : (s.lookup p).track = s.track := by
  simp only [State.lookup]
  repeat' split
  all_goals simp

@[simp] theorem State.rematch_track (c : RematchCause) : (s.rematch c).track = s.track := by
  simp only [State.rematch]
  repeat' split
  all_goals simp

@[simp] theorem State.rematchIf_track (b : Bool) : (s.rematchIf b).track = s.track := by
  simp only [State.rematchIf]
  repeat' split
  all_goals simp

@[simp] theorem State.countBinding_track (c : Counter) (g : Garment) : (s.countBinding c g).1.track = s.track := by
  simp only [State.countBinding]
  repeat' split
  all_goals simp

@[simp] theorem State.endUnload_track (p : Fin 16) (g : Garment) (x : GarmentOutcome) : (s.endUnload p g x).track = s.track := by
  simp [State.endUnload]

/-! ### Art Store -/

@[simp] theorem State.artWriteComplete_track : s.artWriteComplete.track = s.track := by
  simp only [State.artWriteComplete]
  repeat' split
  all_goals simp

@[simp] theorem State.passStart_track : s.passStart.track = s.track := by
  simp only [State.passStart]
  repeat' split
  all_goals simp

@[simp] theorem State.passEnd_track : s.passEnd.track = s.track := by
  simp only [State.passEnd]
  repeat' split
  all_goals simp

@[simp] theorem State.leaveQueue_track (h : Fin 64) : (s.leaveQueue h).track = s.track := by
  simp only [State.leaveQueue]
  repeat' split
  all_goals simp

/-! ### Swath -/

@[simp] theorem State.beginSwath_track (x : Producing) (i : Fin 4) : (s.beginSwath x i).track = s.track := by
  simp [State.beginSwath]

@[simp] theorem State.swathUnitBegin_track : s.swathUnitBegin.track = s.track := by
  simp only [State.swathUnitBegin]
  repeat' split
  all_goals simp

@[simp] theorem State.handSwath_track (u : RasterUnit) (x : SwathPhase) (k : Nat) (i : Fin 4) : (s.handSwath u x k i).track = s.track := by
  simp only [State.handSwath]
  repeat' split
  all_goals simp

@[simp] theorem State.engineIdle_track : s.engineIdle.track = s.track := by
  simp [State.engineIdle]

@[simp] theorem State.swathUnitEnd_track : s.swathUnitEnd.track = s.track := by
  simp only [State.swathUnitEnd]
  repeat' split
  all_goals simp

@[simp] theorem State.beginBand_track (j : Job) (g : Garment) (b : Binding) (r : Rect) : (s.beginBand j g b r).track = s.track := by
  simp [State.beginBand]

@[simp] theorem State.bandUnitBegin_track : s.bandUnitBegin.track = s.track := by
  simp only [State.bandUnitBegin]
  repeat' split
  all_goals simp

@[simp] theorem State.handBand_track (u : RasterUnit) (k : Nat) : (s.handBand u k).track = s.track := by
  simp only [State.handBand]
  repeat' split
  all_goals simp

@[simp] theorem State.bandUnitEnd_track : s.bandUnitEnd.track = s.track := by
  simp only [State.bandUnitEnd]
  repeat' split
  all_goals simp

@[simp] theorem State.sessionOpen_track : s.sessionOpen.track = s.track := by
  simp only [State.sessionOpen]
  repeat' split
  all_goals simp

@[simp] theorem State.pullComplete_track : s.pullComplete.track = s.track := by
  simp only [State.pullComplete]
  repeat' split
  all_goals simp

@[simp] theorem State.discardSwathUnit_track (p : Fin 16) (w : Word) : (s.discardSwathUnit p w).track = s.track := by
  simp only [State.discardSwathUnit]
  repeat' split
  all_goals simp

/-! ### arbiter -/

@[simp] theorem State.deliverPull_track (k : Nat) : (s.deliverPull k).track = s.track := by
  simp only [State.deliverPull]
  repeat' split
  all_goals simp

@[simp] theorem State.deliverEngine_track (d : BurstData) : (s.deliverEngine d).track = s.track := by
  simp only [State.deliverEngine]
  repeat' split
  all_goals simp

@[simp] theorem State.deliverVerify_track (k : Nat) : (s.deliverVerify k).track = s.track := by
  simp only [State.deliverVerify]
  repeat' split
  all_goals simp

@[simp] theorem State.deliverWrite_track (l : List Byte) : (s.deliverWrite l).track = s.track := by
  simp only [State.deliverWrite]
  repeat' split
  all_goals simp

@[simp] theorem State.deliver_track (g : Granted) : (s.deliver g).track = s.track := by
  simp only [State.deliver]
  repeat' split
  all_goals simp

@[simp] theorem State.burstComplete_track : s.burstComplete.track = s.track := by
  simp only [State.burstComplete]
  repeat' split
  all_goals simp

/-! ### Cure -/

@[simp] theorem State.cureEntry_track (p : Fin 16) : (s.cureEntry p).track = s.track := by
  simp only [State.cureEntry]
  repeat' split
  all_goals simp

@[simp] theorem State.sampleGarment_track (p : Fin 16) (g : Garment) (b : Binding) (z : Int) : (s.sampleGarment p g b z).1.track = s.track := by
  simp only [State.sampleGarment]
  repeat' split
  all_goals simp

@[simp] theorem State.staleExpiry_track : s.staleExpiry.track = s.track := by
  simp only [State.staleExpiry]
  repeat' split
  all_goals simp

/-! ### Press, spray -/

@[simp] theorem State.setPressRecord_track (r : PressRecord) : (s.setPressRecord r).track = s.track := by
  simp only [State.setPressRecord]
  repeat' split
  all_goals simp

@[simp] theorem State.pressStart_track : s.pressStart.track = s.track := by
  simp only [State.pressStart]
  repeat' split
  all_goals simp

@[simp] theorem State.pressClosed_track : s.pressClosed.track = s.track := by
  simp only [State.pressClosed]
  repeat' split
  all_goals simp

@[simp] theorem State.dwellExpiry_track : s.dwellExpiry.track = s.track := by
  simp only [State.dwellExpiry]
  repeat' split
  all_goals simp

@[simp] theorem State.pressOpened_track : s.pressOpened.track = s.track := by
  simp only [State.pressOpened]
  repeat' split
  all_goals simp

@[simp] theorem State.interruptPress_track : s.interruptPress.track = s.track := by
  simp only [State.interruptPress]
  repeat' split
  all_goals simp

@[simp] theorem State.pressReleased_track : s.pressReleased.track = s.track := by
  simp only [State.pressReleased]
  repeat' split
  all_goals simp

@[simp] theorem State.sprayStart_track : s.sprayStart.track = s.track := by
  simp only [State.sprayStart]
  repeat' split
  all_goals simp

@[simp] theorem State.bandStrobe_track : s.bandStrobe.track = s.track := by
  simp only [State.bandStrobe]
  repeat' split
  all_goals simp

@[simp] theorem State.finishSpray_track : s.finishSpray.track = s.track := by
  simp only [State.finishSpray]
  repeat' split
  all_goals simp

@[simp] theorem State.interruptSpray_track : s.interruptSpray.track = s.track := by
  simp only [State.interruptSpray]
  repeat' split
  all_goals simp

@[simp] theorem State.valveClose_track (z : Fin 8) : (State.valveClose z s).track = s.track := by
  simp only [State.valveClose]
  repeat' split
  all_goals simp

@[simp] theorem State.pulseReload_track (z : Fin 8) : (State.pulseReload z s).track = s.track := by
  simp only [State.pulseReload]
  repeat' split
  all_goals simp

@[simp] theorem State.channelExhausted_track (z : Fin 8) : (State.channelExhausted z s).track = s.track := by
  simp only [State.channelExhausted]
  repeat' split
  all_goals simp

/-! ### Shelf -/

@[simp] theorem State.shelveGarment_track (p : Fin 16) (g : Garment) (c : Fin 16) (b : Binding) (i : Fin 8) : (s.shelveGarment p g c b i).track = s.track := by
  simp only [State.shelveGarment]
  repeat' split
  all_goals simp

@[simp] theorem State.restore_track (i : Fin 8) (x : ShelfSlot) (p : Fin 16) (c : Components) : (s.restore i x p c).track = s.track := by
  simp [State.restore]

@[simp] theorem State.takeOff_track (i : Fin 8) (x : ShelfSlot) (c : Counter) (e : ShelfEvent) : (s.takeOff i x c e).track = s.track := by
  simp [State.takeOff]

@[simp] theorem State.placeImport_track (i : Fin 8) (x : Context) (l : Line) : (s.placeImport i x l).track = s.track := by
  simp [State.placeImport]

/-! ### Owners -/

@[simp] theorem State.leavePress_track (p : Fin 16) : (s.leavePress p).track = s.track := by
  simp only [State.leavePress]
  repeat' split
  all_goals simp

@[simp] theorem State.arriveUnload_track (p : Fin 16) : (s.arriveUnload p).track = s.track := by
  simp only [State.arriveUnload]
  repeat' split
  all_goals simp

@[simp] theorem State.arrival_track (n : Fin 6) (p : Fin 16) : (s.arrival n p).track = s.track := by
  simp only [State.arrival]
  repeat' split
  all_goals simp

@[simp] theorem State.departure_track (n : Fin 6) (p : Fin 16) : (s.departure n p).track = s.track := by
  simp only [State.departure]
  repeat' split
  all_goals simp

@[simp] theorem State.platenMoved_track (p : Fin 16) (g : Option Segment) : (s.platenMoved p g).track = s.track := by
  simp [State.platenMoved]

/-! ### handlers -/

@[simp] theorem State.orderPost_track (n : Word) (k : Nat) (ls : List PostLine) : (State.orderPost n k ls s).1.track = s.track := by
  simp only [State.orderPost]
  repeat' split
  all_goals simp

@[simp] theorem State.lineAmend_track (n : Word) (a b : Nat) : (State.lineAmend n a b s).1.track = s.track := by
  simp only [State.lineAmend]
  repeat' split
  all_goals simp

@[simp] theorem State.orderHold_track (n : Word) : (State.orderHold n s).1.track = s.track := by
  simp only [State.orderHold]
  repeat' split
  all_goals simp

@[simp] theorem State.orderRelease_track (n : Word) : (State.orderRelease n s).1.track = s.track := by
  simp only [State.orderRelease]
  repeat' split
  all_goals simp

@[simp] theorem State.orderCancel_track (n : Word) : (State.orderCancel n s).1.track = s.track := by
  simp only [State.orderCancel]
  repeat' split
  all_goals simp

@[simp] theorem State.orderRetire_track (n : Word) : (State.orderRetire n s).1.track = s.track := by
  simp only [State.orderRetire]
  repeat' split
  all_goals simp

@[simp] theorem State.catalogueSet_track (b : BlankCode) (c : Nat) : (State.catalogueSet b c s).1.track = s.track := by
  simp only [State.catalogueSet]
  repeat' split
  all_goals simp

@[simp] theorem State.catalogueRemove_track (b : BlankCode) : (State.catalogueRemove b s).1.track = s.track := by
  simp only [State.catalogueRemove]
  repeat' split
  all_goals simp

@[simp] theorem State.catalogueGet_track (b : BlankCode) : (State.catalogueGet b s).1.track = s.track := by
  simp only [State.catalogueGet]
  repeat' split
  all_goals simp

@[simp] theorem State.classSet_track (c : Nat) (r : Recipe) : (State.classSet c r s).1.track = s.track := by
  simp only [State.classSet]
  repeat' split
  all_goals simp

@[simp] theorem State.classGet_track (c : Nat) : (State.classGet c s).1.track = s.track := by
  simp only [State.classGet]
  repeat' split
  all_goals simp

@[simp] theorem State.artOpen_track (f a w h t b : Nat) (c : Word) : (State.artOpen f a w h t b c s).1.track = s.track := by
  simp only [State.artOpen]
  repeat' split
  all_goals simp

@[simp] theorem State.artWrite_track (m : Link) (h o : Nat) (d : List Byte) : (State.artWrite m h o d s).1.track = s.track := by
  simp only [State.artWrite]
  repeat' split
  all_goals simp

@[simp] theorem State.artSeal_track (h : Nat) (c : Option Word) : (State.artSeal h c s).1.track = s.track := by
  simp only [State.artSeal]
  repeat' split
  all_goals simp

@[simp] theorem State.artFree_track (h : Nat) : (State.artFree h s).1.track = s.track := by
  simp only [State.artFree]
  repeat' split
  all_goals simp

@[simp] theorem State.paletteSet_track (p f : Nat) (e : List Ink) : (State.paletteSet p f e s).1.track = s.track := by
  simp only [State.paletteSet]
  repeat' split
  all_goals simp

@[simp] theorem State.paletteGet_track (p f c : Nat) : (State.paletteGet p f c s).1.track = s.track := by
  simp only [State.paletteGet]
  repeat' split
  all_goals simp

@[simp] theorem State.overlaySet_track (o : Nat) (c : Option (Cmyk × Cmyk)) (f : Nat) (r : List (Vector OverlayCode 64)) : (State.overlaySet o c f r s).1.track = s.track := by
  simp only [State.overlaySet]
  repeat' split
  all_goals simp

@[simp] theorem State.overlayGet_track (o f c : Nat) : (State.overlayGet o f c s).1.track = s.track := by
  simp only [State.overlayGet]
  repeat' split
  all_goals simp

@[simp] theorem State.rateTableSet_track (b : Vector RateBand 8) : (State.rateTableSet b s).1.track = s.track := by
  simp only [State.rateTableSet]
  repeat' split
  all_goals simp

@[simp] theorem State.rateTableGet_track : (State.rateTableGet s).1.track = s.track := by
  simp [State.rateTableGet]

@[simp] theorem State.shelfPermitSet_track (m : Nat) : (State.shelfPermitSet m s).1.track = s.track := by
  simp only [State.shelfPermitSet]
  repeat' split
  all_goals simp

@[simp] theorem State.shelfExport_track (a f : Nat) : (State.shelfExport a f s).1.track = s.track := by
  simp only [State.shelfExport]
  repeat' split
  all_goals simp

@[simp] theorem State.shelfImport_track (r : List Byte) : (State.shelfImport r s).1.track = s.track := by
  simp only [State.shelfImport]
  repeat' split
  case h_3 e => simpa using State.reserve_track s e
  all_goals simp

@[simp] theorem State.shelfDrop_track (a : Nat) : (State.shelfDrop a s).1.track = s.track := by
  simp only [State.shelfDrop]
  repeat' split
  all_goals simp

@[simp] theorem State.shelve_track (p : Nat) : (State.shelve p s).1.track = s.track := by
  simp only [State.shelve]
  repeat' split
  all_goals simp

@[simp] theorem State.unshelve_track (a p m : Nat) : (State.unshelve a p m s).1.track = s.track := by
  simp only [State.unshelve]
  repeat' split
  all_goals simp

@[simp] theorem State.clearPowerFlag_track : (State.clearPowerFlag s).1.track = s.track := by
  simp [State.clearPowerFlag]

@[simp] theorem State.assignIndicator_track (o : Nat) (c : Byte) (m a b : Nat) : (State.assignIndicator o c m a b s).1.track = s.track := by
  simp only [State.assignIndicator]
  repeat' split
  all_goals simp

@[simp] theorem State.setNoticeMask_track (m : Link) (y : Half) : (State.setNoticeMask m y s).1.track = s.track := by
  simp [State.setNoticeMask]

@[simp] theorem State.readPlaten_track (k : Nat) : (s.readPlaten k).1.track = s.track := by
  simp only [State.readPlaten]
  repeat' split
  all_goals simp

@[simp] theorem State.readGarment_track (k o : Nat) : (s.readGarment k o).1.track = s.track := by
  simp only [State.readGarment]
  repeat' split
  all_goals simp

@[simp] theorem State.readOrder_track (k : Nat) : (s.readOrder k).1.track = s.track := by
  simp only [State.readOrder]
  repeat' split
  all_goals simp

@[simp] theorem State.readLine_track (k : Nat) : (s.readLine k).1.track = s.track := by
  simp only [State.readLine]
  repeat' split
  all_goals simp

@[simp] theorem State.readArt_track (k : Nat) : (s.readArt k).1.track = s.track := by
  simp only [State.readArt]
  repeat' split
  all_goals simp

@[simp] theorem State.readShelf_track (k : Nat) : (s.readShelf k).1.track = s.track := by
  simp only [State.readShelf]
  repeat' split
  all_goals simp

@[simp] theorem State.readRecord_track (kind key option : Nat) : (State.readRecord kind key option s).1.track = s.track := by
  simp only [State.readRecord]
  repeat' split
  all_goals simp

@[simp] theorem State.garmentLoad_track (p : Nat) (b : BlankCode) : (State.garmentLoad p b s).1.track = s.track := by
  simp only [State.garmentLoad]
  repeat' split
  all_goals simp

@[simp] theorem State.garmentAssign_track (p : Nat) (n : Word) (k : Nat) : (State.garmentAssign p n k s).1.track = s.track := by
  simp only [State.garmentAssign]
  repeat' split
  case h_2 e => simpa using State.reserveAndBind_track s e
  all_goals simp

@[simp] theorem State.loadClear_track (p : Nat) : (State.loadClear p s).1.track = s.track := by
  simp only [State.loadClear]
  repeat' split
  all_goals simp

@[simp] theorem State.unloadGood_track (p : Nat) : (State.unloadGood p s).1.track = s.track := by
  simp only [State.unloadGood]
  repeat' split
  all_goals simp

@[simp] theorem State.unloadSpoil_track (p : Nat) : (State.unloadSpoil p s).1.track = s.track := by
  simp only [State.unloadSpoil]
  repeat' split
  all_goals simp

@[simp] theorem State.swathPull_track (m : Link) (q o : Nat) : (State.swathPull m q o s).1.track = s.track := by
  simp only [State.swathPull]
  repeat' split
  all_goals simp

@[simp] theorem State.swathRelease_track (q : Nat) : (State.swathRelease q s).1.track = s.track := by
  simp only [State.swathRelease]
  repeat' split
  all_goals simp

@[simp] theorem State.printEndOk_track : (State.printEndOk s).1.track = s.track := by
  simp only [State.printEndOk]
  repeat' split
  all_goals simp

@[simp] theorem State.printEndAbort_track : (State.printEndAbort s).1.track = s.track := by
  simp only [State.printEndAbort]
  repeat' split
  all_goals simp

@[simp] theorem State.cureSample_track (p : Nat) (z : Int) : (State.cureSample p z s).1.track = s.track := by
  simp only [State.cureSample]
  repeat' split
  all_goals simp

end Sys2Proof.Machine
end

