-- ==== Sys2Proof/Proofs/TrackOps.lean ====
section
/-! PROOF. What the Track Manager's operations write, and what a command keeps. -/

namespace Sys2Proof.Machine

/-! ### The operations of the Track Manager on its tables -/

section Tables

variable (s : State)

@[simp] theorem State.putPlace_track (p : Fin 16) (x : Place) :
    (s.putPlace p x).track = { s.track with places := upd s.track.places p x } := rfl

@[simp] theorem State.putStation_track (n : Fin 6) (x : Station) :
    (s.putStation n x).track = { s.track with stations := upd s.track.stations n x } := rfl

@[simp] theorem State.putLane_track (n : Fin 6) (x : List (Fin 16)) :
    (s.putLane n x).track = { s.track with lanes := upd s.track.lanes n x } := rfl

@[simp] theorem State.putSeg_exit_track (n : Fin 6) (x : SegState) :
    (s.putSeg (.exit n) x).track = { s.track with exits := upd s.track.exits n x } := rfl

@[simp] theorem State.putSeg_entry_track (n : Fin 6) (x : SegState) :
    (s.putSeg (.entry n) x).track = { s.track with entries := upd s.track.entries n x } := rfl

@[simp] theorem State.setLine_track (x : LineState) : (s.setLine x).track = { s.track with line := x } := by
  unfold State.setLine
  split
  next e => simp [← e]
  next => rfl

theorem State.stopLine_track : s.stopLine.track = s.track.stop := by
  unfold State.stopLine Track.stop
  split <;> simp

@[simp] theorem State.placeAt_track (n : Fin 6) (p : Fin 16) : (s.placeAt n p).track = { s.track with
    places := upd s.track.places p (.station n)
    stations := upd s.track.stations n { s.track.stations[n] with occupant := some p, reserved := false } } := by
  simp [State.placeAt, State.station]

@[simp] theorem State.joinLane_track (n : Fin 6) (p : Fin 16) : (s.joinLane n p).track = { s.track with
    places := upd s.track.places p (.lane n)
    lanes := upd s.track.lanes n (s.track.lanes[n] ++ [p]) } := rfl

@[simp] theorem State.vacate_track (n : Fin 6) (p : Fin 16) : (s.vacate n p).track = { s.track with
    stations := upd s.track.stations n { s.track.stations[n] with occupant := none } } := by
  simp [State.vacate, State.station]

@[simp] theorem State.pressFaulted_track (c : PressCause) : (s.pressFaulted c).track = { s.track with
    stations := upd s.track.stations 2 { s.track.stations[(2 : Fin 6)] with held := true } } := by
  simp only [State.pressFaulted]
  split <;> rfl

end Tables

/-! ### What holds after a command (R167, log 8) -/

section Keeps

variable (P : State → Prop) (links : ∀ s k, P s → P (s.setLinks k)) (lamps : ∀ s x, P s → P (s.setIndicators x))
include links lamps

/-- What no link and no lamp bears on is kept by a request where its handler keeps it. -/
theorem request_keeps {v : Via} {kind : Nat} {i : Instr} {h : State → Taken} (handler : ∀ s, P s → P (h s).1)
    {s t : State} (e : request v kind i h s = .next t) (p : P s) : P t := by
  have handled (u : State) (l : Link) (pu : P u) : P (u.handle l h) := by
    have q := handler u pu
    unfold State.handle
    split
    next e => simpa [e] using q
    next e => exact links _ _ (by simpa [e] using q)
  have settled (u : State) (pu : P u) : P u.settle := links _ _ (lamps _ _ pu)
  unfold request at e
  split at e
  · cases e; exact p
  · cases e
    refine settled _ ?_
    simp only [State.takeRequest]
    repeat' split
    all_goals first | exact p | exact links _ _ p | exact handled _ _ (links _ _ p)

/-- An event keeps what its effect keeps. -/
theorem event_keeps {f : State → State} (effect : ∀ s, P s → P (f s)) {s t : State} (e : event f s = .next t) (p : P s) :
    P t := by
  unfold event at e
  split at e
  · cases e; exact p
  · cases e; exact links _ _ (lamps _ _ (effect _ p))

/-- A change of a line input keeps what its effect and the input's wire keep. -/
theorem signal_keeps (inputs : ∀ s x, P s → P (s.setInputs x)) {drive : Inputs → Inputs} {f : State → State}
    (effect : ∀ s, P s → P (f s)) {s t : State} (e : signal drive f s = .next t) (p : P s) : P t := by
  unfold signal at e
  split at e
  · cases e; exact inputs _ _ p
  · exact event_keeps P links lamps effect e p

end Keeps
end Sys2Proof.Machine
end

