-- ==== Sys2Proof/Proofs/TrackSteps.lean ====
section
/-! PROOF. The handlers of the Track Manager keep the track consistent, and so does every step. -/

namespace Sys2Proof.Machine

/-- The state's track is consistent. -/
def State.trackStands (s : State) : Prop := TrackFacts s.track.tables

/-- The track is consistent wherever it is the same. -/
theorem State.trackStands_of_track {s t : State} (e : t.track = s.track) (h : s.trackStands) : t.trackStands := by
  rwa [State.trackStands, e]

theorem State.moveStart_stands (g : Segment) (s : State) (h : s.trackStands) : (State.moveStart g s).trackStands := by
  cases g with
  | exit n =>
    simp only [State.moveStart, State.exitReady]
    split
    · exact h
    next e =>
      split at e
      · cases e
      · split at e
        next c =>
          obtain ⟨line, idle, stands, -, room, -⟩ := c
          cases e
          have room' : (s.lane n).length + (s.seg (.exit n)).load + (s.seg (.entry n)).load < laneCapacity n := 
            of_decide_eq_true room
          simpa [State.trackStands, Track.tables, State.carry] using h.exitStarts s.clock.time line idle stands room'
        · cases e
  | entry n =>
    simp only [State.moveStart, State.entryReady]
    split
    · exact h
    next e =>
      split at e
      · cases e
      next q rest lane =>
        split at e
        next c =>
          obtain ⟨line, idle, free, -, -⟩ := c
          cases e
          have k := h.entryStarts s.clock.time line idle lane free
          rw [State.lane] at lane
          simpa [State.trackStands, Track.tables, State.carry, State.lane, lane, State.station] using k
        · cases e

theorem State.endMove_stands (s : State) (g : Segment) (p : Fin 16)
    (on : s.place p = .moving g ∨ s.place p = .uncertain g) (h : s.trackStands) : (s.endMove g p).trackStands := by
  cases g with
  | exit n => simpa [State.trackStands, Track.tables, State.endMove] using h.exitEnds on
  | entry n => simpa [State.trackStands, Track.tables, State.endMove] using h.entryEnds on

/-- R5: the platen of a MOVING segment is MOVING there. -/
theorem State.place_of_moving {s : State} (h : s.trackStands) {g : Segment} {p : Fin 16} {w : Word}
    (e : s.seg g = .moving p w) : s.place p = .moving g :=
  (((trackInv_iff _).2 h).moving p g).2 ⟨w, e⟩

theorem State.arrive_stands (g : Segment) (s : State) (h : s.trackStands) : (State.arrive g s).trackStands := by
  unfold State.arrive
  split
  next => exact h
  next p w e => exact s.endMove_stands g p (.inl (State.place_of_moving h e)) h
  next p c late e =>
    cases g with
    | exit n => simpa [State.trackStands, Track.tables] using h.exitLate e
    | entry n => simpa [State.trackStands, Track.tables] using h.entryLate e

theorem State.jamSeg_stands (s : State) (h : s.trackStands) {g : Segment} {p : Fin 16} {w : Word} (c : JamCause)
    (e : s.seg g = .moving p w) : (s.jamSeg g p c).trackStands := by
  cases g with
  | exit n => simpa [State.trackStands, Track.tables, State.jamSeg] using h.exitJams c e
  | entry n => simpa [State.trackStands, Track.tables, State.jamSeg] using h.entryJams c e

theorem State.jamMoving_stands (c : JamCause) (s : State) (g : Segment) (h : s.trackStands) :
    (State.jamMoving c s g).trackStands := by
  unfold State.jamMoving
  split
  next p w e => exact s.jamSeg_stands h c e
  next => exact h

theorem State.jamAll_stands (c : JamCause) (l : List Segment) (s : State) (h : s.trackStands) :
    (l.foldl (State.jamMoving c) s).trackStands :=
  List.foldlRecOn l _ h fun t ht g _ => State.jamMoving_stands c t g ht

theorem TrackFacts.stop {t : Track} (h : TrackFacts t.tables) : TrackFacts t.stop.tables := by
  unfold Track.stop
  split
  · exact h.setLine .stopped (by simp)
  · exact h

theorem TrackFacts.setHeld {t : Track} (h : TrackFacts t.tables) (n : Fin 6) (b : Bool) :
    TrackFacts ({ t with stations := upd t.stations n { t.stations[n] with held := b } } : Track).tables :=
  h.setStations _ fun m => by
    rw [column_apply, upd_get]
    split
    next e => subst e; exact ⟨rfl, rfl⟩
    next => exact ⟨rfl, rfl⟩

theorem TrackFacts.clearHolds {t : Track} (h : TrackFacts t.tables) :
    TrackFacts ({ t with stations := vmap (fun x => { x with held := false }) t.stations } : Track).tables :=
  h.setStations _ fun n => by
    rw [column_apply, vmap_get]
    exact ⟨rfl, rfl⟩

theorem State.moveTimeout_stands (g : Segment) (s : State) (h : s.trackStands) : (State.moveTimeout g s).trackStands := by
  unfold State.moveTimeout
  split
  next p w e =>
    split
    · simpa only [State.trackStands, State.stopLine_track, State.raise_track] using (s.jamSeg_stands h .timeout e).stop
    · exact h
  next => exact h

theorem State.emergencyStop_stands (s : State) (h : s.trackStands) : s.emergencyStop.trackStands := by
  unfold State.emergencyStop
  split
  · exact h
  · simpa [State.trackStands, Track.tables, State.stopTrack] using (State.jamAll_stands .eStop allSegments s h).stop

theorem State.emergencyRelease_stands (s : State) (h : s.trackStands) : s.emergencyRelease.trackStands := by
  unfold State.emergencyRelease
  split <;> exact h

/-- R19: the line may stop whatever the platens' places are. -/
theorem State.endDeclare_stands (s : State) (p : Fin 16) (h : s.trackStands) : (s.endDeclare p).1.trackStands := by
  have k : (s.platenMoved p none).trackStands := State.trackStands_of_track (by simp) h
  simp only [State.endDeclare, State.accept_fst]
  split
  · exact k
  · simpa [State.trackStands, Track.tables] using TrackFacts.setLine k .stopped (by simp)

theorem State.platenDeclare_stands (platen : Nat) (x : PlaceArg) (s : State) (h : s.trackStands) :
    (State.platenDeclare platen x s).1.trackStands := by
  unfold State.platenDeclare
  split
  · exact h
  · exact h
  next p d _ _ =>
    split
    · exact h
    next seen =>
      have off : s.track.places[p] = .unseen := Decidable.not_not.1 seen
      split
      next n _ =>
        split
        · exact h
        next c =>
          refine (s.placeAt n p).endDeclare_stands p ?_
          have free : s.track.stations[n].occupant = none := Decidable.not_not.1 fun k => c (.inr k)
          simpa [State.trackStands, Track.tables] using h.putAtStation (.inl off) free (h.unreserved off n)
      next n _ =>
        split
        · exact h
        next c =>
          refine (s.joinLane n p).endDeclare_stands p ?_
          simpa [State.trackStands, Track.tables] using h.putInLane off (Nat.lt_of_not_le c)
      next =>
        refine (s.putPlace p .service).endDeclare_stands p ?_
        simpa [State.trackStands, Track.tables] using h.putInService off

theorem State.confirm_stands (s : State) (g : Segment) (p : Fin 16) (c : Confirmed) (h : s.trackStands)
    (on : s.place p = .uncertain g) : ((s.confirm g p c).putSeg g .idle).trackStands := by
  cases g with
  | exit n =>
    cases c with
    | station m => simpa [State.trackStands, Track.tables, State.confirm] using h.exitReturns on
    | lane m => simpa [State.trackStands, Track.tables, State.confirm] using h.exitEnds (.inr on)
  | entry n =>
    cases c with
    | station m => simpa [State.trackStands, Track.tables, State.confirm] using h.entryEnds (.inr on)
    | lane m => simpa [State.trackStands, Track.tables, State.confirm, State.station, State.lane] using h.entryReturns on

theorem State.jamConfirm_stands (platen : Nat) (x : PlaceArg) (s : State) (h : s.trackStands) :
    (State.jamConfirm platen x s).1.trackStands := by
  unfold State.jamConfirm
  split
  · exact h
  · exact h
  next p c _ _ =>
    split
    next g on =>
      split
      · exact h
      · split
        · exact h
        · exact State.trackStands_of_track (by simp) (s.confirm_stands g p c h on)
    next => exact h

theorem State.lineResume_stands (s : State) (h : s.trackStands) : s.lineResume.1.trackStands := by
  unfold State.lineResume
  split
  · exact h
  · split
    · exact h
    next c =>
      have seen (p : Fin 16) : s.track.places[p] ≠ .unseen := fun e => c (.inl (s.track.anyUnseen_iff.2 ⟨p, e⟩))
      simpa [State.trackStands, Track.tables] using h.setLine .running fun _ => seen

theorem State.stationHold_stands (station : Nat) (s : State) (h : s.trackStands) :
    (State.stationHold station s).1.trackStands := by
  unfold State.stationHold
  split
  · exact h
  · exact h.setHeld _ true

theorem State.stationRelease_stands (station : Nat) (s : State) (h : s.trackStands) :
    (State.stationRelease station s).1.trackStands := by
  unfold State.stationRelease
  split
  · exact h
  next n _ =>
    split
    · refine State.trackStands_of_track (s := s.putStation n { s.station n with held := false }) ?_ (h.setHeld n false)
      dsimp only [State.accept_fst]
      split <;> simp
    · exact h

theorem State.serviceOut_stands (platen : Nat) (s : State) (h : s.trackStands) :
    (State.serviceOut platen s).1.trackStands := by
  unfold State.serviceOut
  split
  · exact h
  · split
    next n stands =>
      split
      · simpa [State.trackStands, Track.tables] using h.takenOff stands
      · exact h
    next => exact h

theorem State.serviceIn_stands (platen : Nat) (s : State) (h : s.trackStands) :
    (State.serviceIn platen s).1.trackStands := by
  unfold State.serviceIn
  split
  · exact h
  · split
    next c =>
      obtain ⟨off, free, unreserved, -⟩ := c
      simpa [State.trackStands, Track.tables] using h.putAtStation (.inr off) free unreserved
    next => exact h

theorem State.closeTimeout_stands (s : State) (h : s.trackStands) : s.closeTimeout.trackStands := by
  unfold State.closeTimeout
  split
  · simpa [State.trackStands, Track.tables] using h.setHeld 2 true
  · exact h

theorem State.openTimeout_stands (s : State) (h : s.trackStands) : s.openTimeout.trackStands := by
  unfold State.openTimeout
  split
  · simpa [State.trackStands, Track.tables] using h.setHeld 2 true
  · exact h

theorem State.resetTrack_stands (s : State) (h : s.trackStands) : s.resetTrack.trackStands := by
  have k := (State.jamAll_stands .lineReset allSegments s h).stop
  simpa only [State.trackStands, State.resetTrack, State.setTrack_track] using k.clearHolds

theorem State.stalePull_track (s : State) : s.stalePull.track = s.track := by
  simp only [State.stalePull]
  repeat' split
  all_goals simp

theorem State.clearLine_track (s : State) : s.clearLine.track = s.resetTrack.track := by
  simp [State.clearLine, State.resetBook, State.resetMatch, State.resetStore, State.resetEngine, State.resetPretreat,
    State.resetRing, State.resetCure, State.resetShelf, State.stalePull_track]

theorem State.takeLineReset_stands (l : Link) (s : State) (h : s.trackStands) :
    (State.takeLineReset l s).1.trackStands :=
  State.trackStands_of_track (by simp [State.takeLineReset, State.clearLine_track]) (s.resetTrack_stands h)

@[simp] theorem State.completeLineReset_track (s : State) : s.completeLineReset.track = s.track := by
  simp only [State.completeLineReset]
  repeat' split
  all_goals simp

theorem trackFacts_reset : TrackFacts Track.reset.tables := by
  constructor <;> decide

section

variable {s t : State}

theorem request_trackStands {v : Via} {kind : Nat} {i : Instr} {f : State → Taken}
    (handler : ∀ s : State, s.trackStands → (f s).1.trackStands) (e : request v kind i f s = .next t)
    (h : s.trackStands) : t.trackStands :=
  request_keeps State.trackStands (fun _ _ p => p) (fun _ _ p => p) handler e h

theorem event_trackStands {f : State → State} (effect : ∀ s : State, s.trackStands → (f s).trackStands)
    (e : event f s = .next t) (h : s.trackStands) : t.trackStands :=
  event_keeps State.trackStands (fun _ _ p => p) (fun _ _ p => p) effect e h

theorem signal_trackStands {drive : Inputs → Inputs} {f : State → State}
    (effect : ∀ s : State, s.trackStands → (f s).trackStands) (e : signal drive f s = .next t) (h : s.trackStands) :
    t.trackStands :=
  signal_keeps State.trackStands (fun _ _ p => p) (fun _ _ p => p) (fun _ _ p => p) effect e h

/-- A request whose handler leaves the track alone leaves it consistent. -/
theorem request_trackSame {v : Via} {kind : Nat} {i : Instr} {f : State → Taken}
    (e : request v kind i f s = .next t) (h : s.trackStands) (same : ∀ s : State, (f s).1.track = s.track) :
    t.trackStands :=
  request_trackStands (fun u p => State.trackStands_of_track (same u) p) e h

theorem event_trackSame {f : State → State} (e : event f s = .next t) (h : s.trackStands)
    (same : ∀ s : State, (f s).track = s.track) : t.trackStands :=
  event_trackStands (fun u p => State.trackStands_of_track (same u) p) e h

theorem arbiterGrant_track (e : execArbiterGrant s = .next t) : t.track = s.track := by
  unfold execArbiterGrant at e
  have k (f : State → State) (hf : (f s).track = s.track) (e : event f s = .next t) : t.track = s.track := by
    unfold event at e
    split at e <;> cases e
    · rfl
    · exact hf
  repeat' split at e
  · cases e; rfl
  · cases e
  · exact k _ rfl e
  · exact k _ rfl e

theorem exec_trackStands (i : Instr) (e : exec i s = .next t) (h : s.trackStands) : t.trackStands := by
  cases i
  case powerOnReset => cases e; exact trackFacts_reset
  case resetAsserted => cases e; exact h
  case moveStart g => exact event_trackStands (State.moveStart_stands g) e h
  case arrive g => exact event_trackStands (State.arrive_stands g) e h
  case moveTimeout g => exact event_trackStands (State.moveTimeout_stands g) e h
  case emergencyStopAsserted =>
    exact signal_trackStands (drive := fun i => { i with estop := i.estop.drive true }) State.emergencyStop_stands e h
  case emergencyStopReleased =>
    exact signal_trackStands (drive := fun i => { i with estop := i.estop.drive false }) State.emergencyRelease_stands e h
  case platenDeclare v p x => exact request_trackStands (State.platenDeclare_stands p x) e h
  case jamConfirm v p x => exact request_trackStands (State.jamConfirm_stands p x) e h
  case lineResume v => exact request_trackStands State.lineResume_stands e h
  case stationHold v n => exact request_trackStands (State.stationHold_stands n) e h
  case stationRelease v n => exact request_trackStands (State.stationRelease_stands n) e h
  case serviceOut v p => exact request_trackStands (State.serviceOut_stands p) e h
  case serviceIn v p => exact request_trackStands (State.serviceIn_stands p) e h
  case closeTimeout => exact event_trackStands State.closeTimeout_stands e h
  case openTimeout => exact event_trackStands State.openTimeout_stands e h
  case lineReset v => exact request_trackStands (State.takeLineReset_stands v.link) e h
  case arbiterGrant => exact State.trackStands_of_track (arbiterGrant_track e) h
  case pressClosed =>
    exact signal_trackStands (drive := fun i => { i with pressClosed := i.pressClosed.drive true })
      (fun u p => State.trackStands_of_track (by simp) p) e h
  case pressOpen =>
    exact signal_trackStands (drive := fun i => { i with pressOpen := i.pressOpen.drive true })
      (fun u p => State.trackStands_of_track (by simp) p) e h
  case orderPost | lineAmend | orderHold | orderRelease | orderCancel | orderRetire | catalogueSet | catalogueRemove
      | catalogueGet | classSet | classGet | artOpen | artWrite | artSeal | artFree | paletteSet | paletteGet | overlaySet
      | overlayGet | rateTableSet | rateTableGet | shelfPermitSet | shelfExport | shelfImport | shelfDrop | shelve
      | unshelve | powerFlagClear | indicatorSet | noticeMaskSet | read | garmentLoad | garmentAssign | loadClear
      | unloadGood | unloadSpoil | swathPull | swathRelease | printEndOk | printEndAbort | cureSample =>
    exact request_trackSame e h (by simp)
  case artWriteComplete | lineResetComplete | verifyPassStart | verifyPassEnd | burstComplete | swathUnitBegin
      | bandUnitBegin | swathUnitEnd | bandUnitEnd | sprayStart | band | sprayEnd | zoneValveClose | zonePulseReload
      | zoneChannelExhausted | pressStart | dwellExpiry | swathPullComplete | printSessionOpen | staleTimerExpiry =>
    exact event_trackSame e h (by simp)
  case frameReceived | frameAbandoned | frameSent | linkReset | breakEnd | startSymbol =>
    exact event_trackSame (f := fun u => u.onLink _ _) e h (by simp)
  case blinkTimerExpiry o =>
    exact event_trackSame (f := fun u => u.setIndicators (upd u.indicators o u.indicators[o].expire)) e h (by simp)

theorem step_trackStands (e : step s = .next t) (h : s.trackStands) : t.trackStands :=
  step_keeps State.trackStands (fun _ _ p => p) (fun u p => State.trackStands_of_track u.counted_track p)
    (fun i _ _ e p => exec_trackStands i e p) s t e h

end
end Sys2Proof.Machine

section
open Sys2Proof.Machine

/-- Settles O55: each command is a request, an event or a signal, and its handler keeps the track consistent. -/
theorem everyStepKeepsTrack : Obligations.EveryStepKeepsTrack := by
  intro s t h e
  exact (trackInv_iff _).2 (step_trackStands e ((trackInv_iff _).1 h))

end
end
-- ==== Sys2Proof/Proofs/MoveStart.lean ====
section
/-! PROOF. How an event leads to its effect, and MOVE_START (R4, R7 to R9). -/

namespace Sys2Proof.Machine

/-! ### Events -/

theorem State.keeps_settle (s : State) : s.keeps s.settle [] := by
  have k := s.keeps_slotted_settle .order (s.link .order).slot (s.link .order).silent
  rwa [State.slotted_same] at k

/-- A powered event whose effect changes no slot leads to its effect. -/
theorem leads_of {i : Instr} {f : State → State} {s u : State} (e : exec i s = event f s) (r : s.resetLow = false)
    (effect : f s = u) (slots : ∀ l, (u.link l).slot = (s.link l).slot) : Leads i s u := by
  refine ⟨u.settle, ⟨?_, fun l => ?_⟩, u.keeps_settle⟩
  · rw [e, event_powered f s r, effect]
  · simpa using slots l

@[simp] theorem State.setTrack_link (s : State) (x : Track) (l : Link) : (s.setTrack x).link l = s.link l := rfl

/-! ### The advance rule (R4, R7, R8) -/

theorem SegState.load_eq (x : SegState) : x.load = if x = .idle then 0 else 1 := by
  cases x <;> rfl

/-- R7's table of station conditions. -/
theorem State.mayLeave_iff (s : State) (n : Fin 6) (p : Fin 16) : s.mayLeave n p = true ↔ StationCondition s n p := by
  unfold State.mayLeave StationCondition
  cases s.garment p with
  | none => simp
  | some g =>
    fin_cases n
    · simp [Garment.workFinished, Option.isSome_iff_ne_none]
    · simp [Garment.workFinished, Garment.sprayFinished]
    · simp [Garment.workFinished, Garment.pressFinished, or_assoc]
    · simp [Garment.workFinished, Garment.printFinished, or_assoc]
    · cases h : g.cure.result <;> simp [Garment.workFinished, Garment.cureFinished, h]
    · simp [Garment.workFinished]

theorem State.exitReady_iff (s : State) (n : Fin 6) (p : Fin 16) : s.exitReady n = some p ↔ ExitMay s n p := by
  unfold State.exitReady ExitMay
  rw [← State.mayLeave_iff, Track.laneRoom.eq_1]
  change _ ↔ _ ∧ _ ∧ (s.station n).occupant = some p ∧ _
  cases (s.station n).occupant with
  | none => simp
  | some q =>
    simp only [Option.ite_none_right_eq_some, Option.some.injEq, decide_eq_true_eq]
    constructor
    · rintro ⟨⟨line, idle, stands, free, room, may⟩, rfl⟩
      exact ⟨line, idle, rfl, stands, free, room, may⟩
    · rintro ⟨line, idle, rfl, stands, free, room, may⟩
      exact ⟨⟨line, idle, stands, free, room, may⟩, rfl⟩

theorem State.entryReady_iff (s : State) (n : Fin 6) (p : Fin 16) : s.entryReady n = some p ↔ EntryMay s n p := by
  unfold State.entryReady EntryMay
  change _ ↔ _ ∧ _ ∧ (s.lane n).head? = some p ∧ _
  cases s.lane n with
  | nil => simp
  | cons q rest =>
    simp only [Option.ite_none_right_eq_some, List.head?_cons, Option.some.injEq]
    constructor
    · rintro ⟨⟨line, idle, free⟩, rfl⟩
      exact ⟨line, idle, rfl, free⟩
    · rintro ⟨line, idle, rfl, free⟩
      exact ⟨⟨line, idle, free⟩, rfl⟩

/-- MOVE_START does nothing where no platen is ready for the exit. -/
theorem State.moveStart_exit_none (s : State) (n : Fin 6) (h : ∀ p, ¬ExitMay s n p) :
    State.moveStart (.exit n) s = s := by
  have waits : s.exitReady n = none := Option.eq_none_iff_forall_ne_some.2 fun p e => h p ((s.exitReady_iff n p).1 e)
  simp [State.moveStart, waits]

theorem State.moveStart_entry_none (s : State) (n : Fin 6) (h : ∀ p, ¬EntryMay s n p) :
    State.moveStart (.entry n) s = s := by
  have waits : s.entryReady n = none := Option.eq_none_iff_forall_ne_some.2 fun p e => h p ((s.entryReady_iff n p).1 e)
  simp [State.moveStart, waits]

/-- R9: an exit that may start carries its platen. -/
theorem State.moveStart_exit (s : State) (n : Fin 6) (p : Fin 16) (h : ExitMay s n p) :
    State.moveStart (.exit n) s = s.carry (.exit n) p := by
  simp [State.moveStart, (s.exitReady_iff n p).2 h]

/-- R9: an entry that may start carries its lane's head and reserves the next station. -/
theorem State.moveStart_entry (s : State) (n : Fin 6) (p : Fin 16) (h : EntryMay s n p) :
    State.moveStart (.entry n) s = ((s.putLane n (s.lane n).tail).putStation (nextStation n)
      { s.station (nextStation n) with reserved := true }).carry (.entry n) p := by
  simp only [State.moveStart, (s.entryReady_iff n p).2 h]
  rfl

end Sys2Proof.Machine

section
open Sys2Proof.Machine

/-- Settles O27: the advance rule's conditions are those that `exitReady` and `entryReady` test. -/
theorem moveStartFollowsAdvanceRule : Obligations.MoveStartFollowsAdvanceRule := by
  refine ⟨by decide, fun t n => ?_, fun s n r => ⟨fun p h => ?_, fun h => ?_, fun p h => ?_, fun h => ?_⟩⟩
  · rw [Track.laneLoad, SegState.load_eq, SegState.load_eq]
  · exact leads_of (f := State.moveStart (.exit n)) rfl r (s.moveStart_exit n p h) fun _ => rfl
  · exact leads_of (f := State.moveStart (.exit n)) rfl r (s.moveStart_exit_none n h) fun _ => rfl
  · exact leads_of (f := State.moveStart (.entry n)) rfl r (s.moveStart_entry n p h) fun _ => rfl
  · exact leads_of (f := State.moveStart (.entry n)) rfl r (s.moveStart_entry_none n h) fun _ => rfl

end
end
-- ==== Sys2Proof/Proofs/MoveEnds.lean ====
section
/-! PROOF. What the owners of stations do, and how moves end: ARRIVE and MOVE_TIMEOUT (R2, R10 to R12). -/

namespace Sys2Proof.Machine

/-! ### The owners touch no link, and do not read the track -/

section Owners

variable (s : State) (n : Fin 6) (p : Fin 16)

theorem State.leavePress_of_good {g : Garment} (h : s.garment p = some g) (good : g.disposition = .good) :
    s.leavePress p = s.putGarment p (some { g with stage := .printWait }) := by
  simp [State.leavePress, h, good]

theorem State.leavePress_same (h : ∀ g, s.garment p = some g → g.disposition ≠ .good) : s.leavePress p = s := by
  cases e : s.garment p with
  | none => simp [State.leavePress, e]
  | some g => simp [State.leavePress, e, h g e]

theorem State.departure_same (h : ∀ g, s.garment p = some g → g.disposition ≠ .good) : s.departure n p = s := by
  unfold State.departure
  split
  · exact s.leavePress_same p h
  · rfl

theorem State.arriveUnload_released {g : Garment} (h : s.garment p = some g) (good : g.disposition = .good)
    (released : g.cure.result = .released) :
    s.arriveUnload p = s.putGarment p (some { g with stage := .released }) := by
  simp [State.arriveUnload, h, good, released]

theorem State.arriveUnload_same
    (h : ∀ g, s.garment p = some g → g.disposition ≠ .good ∨ g.cure.result ≠ .released) : s.arriveUnload p = s := by
  cases e : s.garment p with
  | none => simp [State.arriveUnload, e]
  | some g =>
    have other : ¬(g.cure.result = .released ∧ g.disposition = .good) := by
      rintro ⟨released, good⟩
      exact (h g e).elim (· good) (· released)
    simp [State.arriveUnload, e, other]

theorem State.arrival_other (four : n ≠ 4) (five : n ≠ 5) : s.arrival n p = s := by
  unfold State.arrival
  split
  · exact absurd rfl four
  · exact absurd rfl five
  · rfl

theorem State.departure_other (two : n ≠ 2) : s.departure n p = s := by
  unfold State.departure
  split
  · exact absurd rfl two
  · rfl

@[simp] theorem State.departure_links : (s.departure n p).links = s.links := by
  simp only [State.departure, State.leavePress]
  repeat' split
  all_goals rfl

@[simp] theorem State.arrival_links : (s.arrival n p).links = s.links := by
  simp only [State.arrival, State.cureEntry, State.arriveUnload]
  repeat' split
  all_goals rfl

@[simp] theorem State.arrival_inputs : (s.arrival n p).inputs = s.inputs := by
  simp only [State.arrival, State.cureEntry, State.arriveUnload]
  repeat' split
  all_goals rfl

@[simp] theorem State.arrival_powerFlag : (s.arrival n p).powerFlag = s.powerFlag := by
  simp only [State.arrival, State.cureEntry, State.arriveUnload]
  repeat' split
  all_goals rfl

theorem State.departure_setTrack (x : Track) : (s.setTrack x).departure n p = (s.departure n p).setTrack x := by
  have garment : (s.setTrack x).garment p = s.garment p := rfl
  simp only [State.departure, State.leavePress, garment]
  repeat' split
  all_goals rfl

theorem State.arrival_setTrack (x : Track) : (s.setTrack x).arrival n p = (s.arrival n p).setTrack x := by
  have garment : (s.setTrack x).garment p = s.garment p := rfl
  simp only [State.arrival, State.cureEntry, State.arriveUnload, garment]
  repeat' split
  all_goals rfl

theorem State.arrival_putSeg (g : Segment) (x : SegState) :
    (s.putSeg g x).arrival n p = (s.arrival n p).putSeg g x := by
  cases g <;> simp only [State.putSeg, State.arrival_setTrack, State.arrival_track]

theorem State.departure_putSeg (g : Segment) (x : SegState) :
    (s.putSeg g x).departure n p = (s.departure n p).putSeg g x := by
  cases g <;> simp only [State.putSeg, State.departure_setTrack, State.departure_track]

end Owners

/-! ### PLATEN_MOVED tells the place that the platen has come to -/

theorem State.platenMoved_at {s : State} {p : Fin 16} {x : Place} (h : s.place p = x) (g : Option Segment)
    (out : ∀ n, x ≠ .lane n) : s.platenMoved p g = s.raise (.platenMoved p g x 0) := by
  have head : s.lanePosition p = 0 := by
    unfold State.lanePosition
    split
    next n e => exact absurd (h.symm.trans e) (out n)
    next => rfl
  rw [State.platenMoved, h, head]

theorem State.platenMoved_inLane {s : State} {p : Fin 16} {n : Fin 6} (h : s.place p = .lane n) (g : Option Segment) :
    s.platenMoved p g = s.raise (.platenMoved p g (.lane n) ((s.lane n).idxOf p)) := by
  rw [State.platenMoved, State.lanePosition, h]

/-- R10: an exit's move ends at its lane's tail. -/
theorem State.endMove_exit (s : State) (n : Fin 6) (p : Fin 16) : s.endMove (.exit n) p =
    ((s.setTrack { s.track with
        places := upd s.track.places p (.lane n)
        lanes := upd s.track.lanes n (s.track.lanes[n] ++ [p])
        stations := upd s.track.stations n { s.track.stations[n] with occupant := none }
        exits := upd s.track.exits n .idle }).departure n p).raise
      (.platenMoved p (some (.exit n)) (.lane n) ((s.track.lanes[n] ++ [p]).idxOf p)) := by
  simp only [State.endMove, State.vacate]
  rw [← State.departure_putSeg, State.platenMoved_inLane (n := n)]
  · congr 3
    simp [State.lane, State.joinLane]
  · simp [State.place, State.joinLane]

/-- R10: an entry's move ends at the next station. -/
theorem State.endMove_entry (s : State) (n : Fin 6) (p : Fin 16) : s.endMove (.entry n) p =
    ((s.setTrack { s.track with
        places := upd s.track.places p (.station (nextStation n))
        stations := upd s.track.stations (nextStation n) ⟨some p, false, s.track.stations[nextStation n].held⟩
        entries := upd s.track.entries n .idle }).arrival (nextStation n) p).raise
      (.platenMoved p (some (.entry n)) (.station (nextStation n)) 0) := by
  simp only [State.endMove, State.placeAt]
  rw [← State.arrival_putSeg, State.platenMoved_at (x := .station (nextStation n))]
  · rfl
  · simp [State.place]
  · simp

/-! ### MOVE_TIMEOUT (R11) -/

theorem State.raise_slot (s : State) (x : Notice) (l : Link) : ((s.raise x).link l).slot = (s.link l).slot := by simp

@[simp] theorem State.putSeg_link (s : State) (g : Segment) (x : SegState) (l : Link) :
    (s.putSeg g x).link l = s.link l := by
  simp [State.link]

@[simp] theorem State.putPlace_link (s : State) (p : Fin 16) (x : Place) (l : Link) :
    (s.putPlace p x).link l = s.link l := rfl

/-- R5: a segment with no move in it takes no notice of MOVE_TIMEOUT. -/
theorem State.moveTimeout_still (s : State) (g : Segment) (h : ∀ p w, s.seg g ≠ .moving p w) :
    State.moveTimeout g s = s := by
  unfold State.moveTimeout
  split
  next p w e => exact absurd e (h p w)
  next => rfl

/-- R6: a line that changes its state says so. -/
theorem State.setLine_changed {s t : State} {x : LineState} (h : s.track.line ≠ x) (estop : s.inputs = t.inputs)
    (flag : s.powerFlag = t.powerFlag) : s.setLine x = ({ s with track := { s.track with line := x } } : State).raise
      (.lineState x t.inputs.estop.level t.powerFlag) := by
  simp only [State.setLine, h, if_false, ← estop, ← flag]
  rfl

theorem State.stopLine_running {s t : State} (h : s.track.line = .running) (estop : s.inputs = t.inputs)
    (flag : s.powerFlag = t.powerFlag) : s.stopLine = ({ s with track := { s.track with line := .stopped } } : State).raise
      (.lineState .stopped t.inputs.estop.level t.powerFlag) := by
  rw [State.stopLine, if_pos h]
  exact State.setLine_changed (by simp [h]) estop flag

theorem State.stopLine_other (s : State) (h : s.track.line ≠ .running) : s.stopLine = s := by
  simp [State.stopLine, h]

theorem State.stopLine_slot (s : State) (l : Link) : (s.stopLine.link l).slot = (s.link l).slot := by
  unfold State.stopLine State.setLine
  repeat' split
  all_goals simp

theorem State.moveTimeout_slot (s : State) (g : Segment) (l : Link) :
    ((State.moveTimeout g s).link l).slot = (s.link l).slot := by
  unfold State.moveTimeout
  repeat' split
  all_goals simp [State.stopLine_slot, State.jamSeg]

theorem State.arrive_slot (s : State) (g : Segment) (l : Link) :
    ((State.arrive g s).link l).slot = (s.link l).slot := by
  unfold State.arrive
  split
  · rfl
  next p w _ =>
    cases g with
    | exit n =>
      rw [State.endMove_exit, State.raise_slot]
      simp [State.link]
    | entry n =>
      rw [State.endMove_entry, State.raise_slot]
      simp [State.link]
  · simp

theorem leads_arrive {s : State} (g : Segment) (r : s.resetLow = false) : Leads (.arrive g) s (State.arrive g s) :=
  leads_of (f := State.arrive g) rfl r rfl (s.arrive_slot g)

theorem leads_moveTimeout {s : State} (g : Segment) (r : s.resetLow = false) :
    Leads (.moveTimeout g) s (State.moveTimeout g s) :=
  leads_of (f := State.moveTimeout g) rfl r rfl (s.moveTimeout_slot g)

theorem State.arrive_idle {s : State} {g : Segment} (h : s.seg g = .idle) : State.arrive g s = s := by
  simp [State.arrive, h]

theorem State.arrive_moving {s : State} {g : Segment} {p : Fin 16} {w : Word} (h : s.seg g = .moving p w) :
    State.arrive g s = s.endMove g p := by
  simp [State.arrive, h]

theorem State.arrive_jammed {s : State} {g : Segment} {p : Fin 16} {c : JamCause} {late : Bool}
    (h : s.seg g = .jammed p c late) : State.arrive g s = (s.putSeg g (.jammed p c true)).raise (.jam g p c true) := by
  simp [State.arrive, h]

theorem State.moveTimeout_early {s : State} {g : Segment} {p : Fin 16} {w : Word} (h : s.seg g = .moving p w)
    (early : (s.clock.time - w).toNat < 8000) : State.moveTimeout g s = s := by
  have early : ¬moveTime ≤ elapsed w s.clock.time := Nat.not_le.2 early
  simp [State.moveTimeout, h, early]

theorem State.moveTimeout_due {s : State} {g : Segment} {p : Fin 16} {w : Word} (h : s.seg g = .moving p w)
    (due : 8000 ≤ (s.clock.time - w).toNat) :
    State.moveTimeout g s = ((s.jamSeg g p .timeout).raise (.jam g p .timeout false)).stopLine := by
  have due : moveTime ≤ elapsed w s.clock.time := due
  simp [State.moveTimeout, h, due]

@[simp] theorem State.jamSeg_line (s : State) (g : Segment) (p : Fin 16) (c : JamCause) :
    (s.jamSeg g p c).track.line = s.track.line := by
  cases g <;> rfl

@[simp] theorem State.jamSeg_inputs (s : State) (g : Segment) (p : Fin 16) (c : JamCause) :
    (s.jamSeg g p c).inputs = s.inputs := by
  cases g <;> rfl

@[simp] theorem State.jamSeg_powerFlag (s : State) (g : Segment) (p : Fin 16) (c : JamCause) :
    (s.jamSeg g p c).powerFlag = s.powerFlag := by
  cases g <;> rfl

end Sys2Proof.Machine

section
open Sys2Proof.Machine

/-- Settles O28: a move's end is the record of R10 followed by what the station's owner does. -/
theorem arriveAndTimeoutEndMoves : Obligations.ArriveAndTimeoutEndMoves := by
  refine ⟨fun s n p => ⟨?_, ?_, ?_, s.arrival_other n p, ?_, ?_, s.departure_other n p⟩, fun s n r => ⟨?_, ?_, ?_⟩⟩
  · rintro rfl; rfl
  · rintro rfl g h; exact s.arriveUnload_released p h
  · rintro rfl; exact s.arriveUnload_same p
  · rintro rfl g h; exact s.leavePress_of_good p h
  · rintro rfl; exact s.leavePress_same p
  · intro p start moving
    have done := leads_arrive (.exit n) r
    rw [State.arrive_moving (g := .exit n) moving, State.endMove_exit] at done
    constructor
    · rintro rfl g h good
      rwa [State.departure_setTrack, State.departure, s.leavePress_of_good p h good] at done
    · rintro (two | other)
      · rwa [State.departure_other _ n p two] at done
      · rwa [State.departure_setTrack, s.departure_same n p other] at done
  · intro p start moving
    have done := leads_arrive (.entry n) r
    rwa [State.arrive_moving (g := .entry n) moving, State.endMove_entry] at done
  · intro g
    have arrives := leads_arrive g r
    have expires := leads_moveTimeout g r
    refine ⟨fun idle => ⟨?_, ?_⟩, fun p c late jam => ⟨?_, ?_⟩, fun p start moving => ⟨fun due => ?_, fun early => ?_⟩⟩
    · rwa [State.arrive_idle idle] at arrives
    · rwa [s.moveTimeout_still g (by simp [idle])] at expires
    · rwa [State.arrive_jammed jam] at arrives
    · rwa [s.moveTimeout_still g (by simp [jam])] at expires
    · rw [State.moveTimeout_due moving due] at expires
      constructor
      · intro line
        rwa [State.stopLine_other _ (by simpa using line)] at expires
      · intro line
        rwa [State.stopLine_running (t := s) (by simpa using line) (by simp) (by simp)] at expires
    · rwa [State.moveTimeout_early moving early] at expires

end
end
-- ==== Sys2Proof/Proofs/PlatenDeclare.lean ====
section
/-! PROOF. PLATEN_DECLARE (R18, R19). -/

namespace Sys2Proof.Machine

/-! ### Numbers in and out of range -/

@[simp] theorem inRange_val {n : Nat} (i : Fin n) : inRange n i.val = some i := by
  simp [inRange]

theorem inRange_out {n x : Nat} (h : n ≤ x) : inRange n x = none := by
  simp [inRange, h]

/-! ### The checks of PLATEN_DECLARE, in order -/

section Checks

variable {s : State} {platen : Nat} {p : Fin 16} {place : PlaceArg}

theorem State.platenDeclare_badPlaten (h : 16 ≤ platen) : State.platenDeclare platen place s = s.refuse .range := by
  simp [State.platenDeclare, inRange_out h]

theorem State.platenDeclare_badPlace (h : PlaceArg.declared place = none) :
    State.platenDeclare platen place s = s.refuse .range := by
  rw [State.platenDeclare, h]
  cases inRange 16 platen <;> rfl

theorem State.platenDeclare_seen {d : Declared} (h : PlaceArg.declared place = some d) (seen : s.place p ≠ .unseen) :
    State.platenDeclare p.val place s = s.refuse .state := by
  simp [State.platenDeclare, h, seen]

theorem State.platenDeclare_station {n : Fin 6} (h : s.place p = .unseen) (present : s.present n = true)
    (free : (s.station n).occupant = none) :
    State.platenDeclare p.val (.station n.val) s = (s.placeAt n p).endDeclare p := by
  simp [State.platenDeclare, PlaceArg.declared, h, present, free]

theorem State.platenDeclare_stationTaken {n : Fin 6} (h : s.place p = .unseen)
    (taken : s.present n = false ∨ (s.station n).occupant ≠ none) :
    State.platenDeclare p.val (.station n.val) s = s.refuse .state := by
  simp only [State.platenDeclare, PlaceArg.declared, inRange_val, Option.map_some, h, ne_eq, not_true_eq_false, if_false]
  exact if_pos taken

theorem State.platenDeclare_lane {n : Fin 6} (h : s.place p = .unseen) (room : (s.lane n).length < laneCapacity n) :
    State.platenDeclare p.val (.lane n.val) s = (s.joinLane n p).endDeclare p := by
  simp [State.platenDeclare, PlaceArg.declared, h, room]

theorem State.platenDeclare_laneFull {n : Fin 6} (h : s.place p = .unseen) (full : laneCapacity n ≤ (s.lane n).length) :
    State.platenDeclare p.val (.lane n.val) s = s.refuse .full := by
  simp [State.platenDeclare, PlaceArg.declared, h, full]

theorem State.platenDeclare_service (h : s.place p = .unseen) :
    State.platenDeclare p.val .service s = (s.putPlace p .service).endDeclare p := by
  simp [State.platenDeclare, PlaceArg.declared, h]

end Checks

/-! ### The end of a declaration (R19) -/

/-- Whether a platen is UNSEEN once `p` has come to a place that is not UNSEEN. -/
theorem State.anyUnseen_other {s u : State} {p : Fin 16} {x : Place} (places : u.track.places = upd s.track.places p x)
    (seen : x ≠ .unseen) : u.track.anyUnseen = true ↔ ∃ q, q ≠ p ∧ s.place q = .unseen := by
  rw [Track.anyUnseen_iff]
  refine exists_congr fun q => ?_
  rw [places, upd_get]
  by_cases e : p = q
  · simp [e, seen]
  · simp [e, State.place, Ne.symm e]

/-- What `endDeclare` comes to: PLATEN_MOVED, and with no other platen UNSEEN the line STOPPED. -/
theorem done_endDeclare {i : Instr} {v : Via} {s u : State} {p : Fin 16} {x : Place} {position : Nat} {h : State → Taken}
    (slotless : Slotless h) (ready : Ready s v 0x26) (command : exec i s = request v 0x26 i h s)
    (effect : h s = u.endDeclare p) (moved : u.platenMoved p none = u.raise (.platenMoved p none x position))
    (places : u.track.places = upd s.track.places p x) (seen : x ≠ .unseen) (line : u.track.line = s.track.line)
    (inputs : u.inputs = s.inputs) (flag : u.powerFlag = s.powerFlag) :
    let w := u.raise (.platenMoved p none x position)
    ((∃ q, q ≠ p ∧ s.place q = .unseen) → Done i v 0x26 s [] w) ∧
    ((∀ q, q ≠ p → s.place q ≠ .unseen) → s.track.line ≠ .stopped →
      Done i v 0x26 s [] (({ w with track := { w.track with line := .stopped } } : State).raise
        (.lineState .stopped s.inputs.estop.level s.powerFlag))) := by
  have unseen := State.anyUnseen_other places seen
  refine ⟨fun more => done_of slotless ready command ?_, fun last moves => done_of slotless ready command ?_⟩
  · simp [effect, State.endDeclare, moved, unseen.2 more]
  · have allSeen : u.track.anyUnseen = false :=
      Bool.eq_false_iff.2 fun e => (unseen.1 e).elim fun q ⟨ne, h⟩ => last q ne h
    have stops := State.setLine_changed (s := u.raise (.platenMoved p none x position)) (t := s) (x := .stopped)
      (by simpa [line] using moves) inputs flag
    rw [effect, State.endDeclare, moved]
    dsimp only
    rw [State.raise_track, allSeen, stops]
    rfl

theorem platenDeclare_slotless (platen : Nat) (place : PlaceArg) : Slotless (State.platenDeclare platen place) :=
  fun s l x mode => State.platenDeclare_slotted s l x mode platen place

end Sys2Proof.Machine

section
open Sys2Proof.Machine

/-- Settles O30: the checks one after another, then for each kind of place what it becomes and the declaration's end. -/
theorem platenDeclareEndsCensus : Obligations.PlatenDeclareEndsCensus := by
  intro v platen place s ready
  have refused {code} (h : State.platenDeclare platen place s = s.refuse code) :
      Refused (.platenDeclare v platen place) v 0x26 s code :=
    refused_of (platenDeclare_slotless platen place) ready rfl h
  refine ⟨fun h => refused (State.platenDeclare_badPlaten h), ?_, ?_, ?_, ?_⟩
  · rintro n rfl h
    exact refused (State.platenDeclare_badPlace (by simp [PlaceArg.declared, inRange_out h]))
  · rintro n rfl h
    exact refused (State.platenDeclare_badPlace (by simp [PlaceArg.declared, inRange_out h]))
  · rintro g (rfl | rfl | rfl) <;> exact refused (State.platenDeclare_badPlace rfl)
  rintro p rfl
  refine ⟨?_, ?_, ?_⟩
  · rintro n rfl
    refine ⟨fun seen => refused (State.platenDeclare_seen (by simp [PlaceArg.declared]; rfl) seen), fun unseen =>
      ⟨fun taken => refused (State.platenDeclare_stationTaken unseen taken), fun present free => ?_⟩⟩
    refine done_endDeclare (platenDeclare_slotless _ _) ready rfl (State.platenDeclare_station unseen present free)
      (State.platenMoved_at (by simp [State.place]) none (by simp)) (by simp) (by simp) (by simp) (by simp)
      (by simp)
  · rintro n rfl
    refine ⟨fun seen => refused (State.platenDeclare_seen (by simp [PlaceArg.declared]; rfl) seen), fun unseen =>
      ⟨fun full => refused (State.platenDeclare_laneFull unseen full), fun room => ?_⟩⟩
    refine done_endDeclare (platenDeclare_slotless _ _) ready rfl (State.platenDeclare_lane unseen room)
      ((State.platenMoved_inLane (n := n) (by simp [State.place]) none).trans ?_) rfl (by simp) rfl rfl rfl
    simp [State.lane]
  · rintro rfl
    refine ⟨fun seen => refused (State.platenDeclare_seen rfl seen), fun unseen => ?_⟩
    refine done_endDeclare (platenDeclare_slotless _ _) ready rfl (State.platenDeclare_service unseen)
      (State.platenMoved_at (by simp [State.place]) none (by simp)) rfl (by simp) rfl rfl rfl

end
end
-- ==== Sys2Proof/Proofs/JamConfirm.lean ====
section
/-! PROOF. JAM_CONFIRM (R13, R14). -/

namespace Sys2Proof.Machine

theorem jamConfirm_slotless (platen : Nat) (place : PlaceArg) : Slotless (State.jamConfirm platen place) :=
  fun s l x mode => State.jamConfirm_slotted s l x mode platen place

/-! ### The checks, in order (R13) -/

section Checks

variable {s : State} {platen : Nat} {p : Fin 16} {place : PlaceArg} {c : Confirmed} {g : Segment}

theorem State.jamConfirm_badPlaten (h : 16 ≤ platen) : State.jamConfirm platen place s = s.refuse .range := by
  simp [State.jamConfirm, inRange_out h]

theorem State.jamConfirm_badPlace (h : PlaceArg.confirmed place = none) :
    State.jamConfirm platen place s = s.refuse .range := by
  rw [State.jamConfirm, h]
  cases inRange 16 platen <;> rfl

theorem State.jamConfirm_settled (h : PlaceArg.confirmed place = some c) (settled : ∀ g, s.place p ≠ .uncertain g) :
    State.jamConfirm p.val place s = s.refuse .state := by
  simp only [State.jamConfirm, h, inRange_val]

theorem State.jamConfirm_elsewhere (h : PlaceArg.confirmed place = some c) (on : s.place p = .uncertain g)
    (elsewhere : c.endOf g = false) : State.jamConfirm p.val place s = s.refuse .range := by
  simp [State.jamConfirm, h, on, elsewhere]

theorem State.jamConfirm_unseen (h : PlaceArg.confirmed place = some c) (on : s.place p = .uncertain g)
    (there : c.endOf g = true) (dark : s.confirmSeen c = false) : State.jamConfirm p.val place s = s.refuse .state := by
  simp [State.jamConfirm, h, on, there, dark]

theorem State.jamConfirm_ends (h : PlaceArg.confirmed place = some c) (on : s.place p = .uncertain g)
    (there : c.endOf g = true) (seen : s.confirmSeen c = true) :
    State.jamConfirm p.val place s = (((s.confirm g p c).putSeg g .idle).platenMoved p (some g)).accept [] := by
  simp [State.jamConfirm, h, on, there, seen]

end Checks

theorem PlaceArg.confirmed_station (n : Fin 6) : PlaceArg.confirmed (.station n.val) = some (.station n) := by
  simp [PlaceArg.confirmed]

theorem PlaceArg.confirmed_lane (n : Fin 6) : PlaceArg.confirmed (.lane n.val) = some (.lane n) := by
  simp [PlaceArg.confirmed]

/-- R13 check 3 names the other end of the segment, or another segment's. -/
theorem Confirmed.endOf_station_false {n : Fin 6} {g : Segment} (h : n ≠ segStation g) :
    (Confirmed.station n).endOf g = false := by
  simpa [Confirmed.endOf] using h

theorem Confirmed.endOf_lane_false {n : Fin 6} {g : Segment} (h : n ≠ segLane g) : (Confirmed.lane n).endOf g = false := by
  simpa [Confirmed.endOf] using h

end Sys2Proof.Machine

section
open Sys2Proof.Machine

/-- Settles O31: after the checks, the four ways a jam ends. -/
theorem jamConfirmPlacesPlaten : Obligations.JamConfirmPlacesPlaten := by
  intro v platen place s ready
  have refused {code} (h : State.jamConfirm platen place s = s.refuse code) :
      Refused (.jamConfirm v platen place) v 0x27 s code :=
    refused_of (jamConfirm_slotless platen place) ready rfl h
  have done {u} (h : State.jamConfirm platen place s = u.accept []) : Done (.jamConfirm v platen place) v 0x27 s [] u :=
    done_of (jamConfirm_slotless platen place) ready rfl h
  refine ⟨fun h => refused (State.jamConfirm_badPlaten h), ?_, ?_, ?_, ?_⟩
  · rintro n rfl h
    exact refused (State.jamConfirm_badPlace (by simp [PlaceArg.confirmed, inRange_out h]))
  · rintro n rfl h
    exact refused (State.jamConfirm_badPlace (by simp [PlaceArg.confirmed, inRange_out h]))
  · rintro g (rfl | rfl | rfl | rfl) <;> exact refused (State.jamConfirm_badPlace rfl)
  rintro p n rfl
  have station := PlaceArg.confirmed_station n
  have lane := PlaceArg.confirmed_lane n
  refine ⟨?_, fun m => ⟨fun on => ⟨?_, ?_⟩, fun on => ⟨?_, ?_⟩⟩⟩
  · rintro (rfl | rfl) settled
    · exact refused (State.jamConfirm_settled station settled)
    · exact refused (State.jamConfirm_settled lane settled)
  · rintro rfl
    refine ⟨fun ne => refused (State.jamConfirm_elsewhere station on (Confirmed.endOf_station_false ne)), ?_, ?_⟩
    · rintro rfl dark
      exact refused (State.jamConfirm_unseen station on (by simp [Confirmed.endOf, segStation]) dark)
    · rintro rfl seen
      refine done ((State.jamConfirm_ends station on (by simp [Confirmed.endOf, segStation]) seen).trans ?_)
      rw [State.platenMoved_at (x := .station n) (by simp [State.place, State.confirm]) _ (by simp)]
      rfl
  · rintro rfl
    refine ⟨fun ne => refused (State.jamConfirm_elsewhere lane on (Confirmed.endOf_lane_false ne)), ?_⟩
    rintro rfl
    refine done ((State.jamConfirm_ends lane on (by simp [Confirmed.endOf, segLane]) rfl).trans ?_)
    rw [State.platenMoved_inLane (n := n) (by simp [State.place, State.confirm])]
    have tail : ((s.confirm (.exit n) p (.lane n)).putSeg (.exit n) .idle).lane n = s.lane n ++ [p] := by
      simp [State.lane, State.confirm]
    rw [tail]
    rfl
  · rintro rfl
    refine ⟨fun ne => refused (State.jamConfirm_elsewhere station on (Confirmed.endOf_station_false ne)), ?_, ?_⟩
    · rintro rfl dark
      exact refused (State.jamConfirm_unseen station on (by simp [Confirmed.endOf, segStation]) dark)
    · rintro rfl seen
      refine done ((State.jamConfirm_ends station on (by simp [Confirmed.endOf, segStation]) seen).trans ?_)
      rw [State.platenMoved_at (x := .station (nextStation m)) (by simp [State.place, State.confirm]) _ (by simp)]
      rfl
  · rintro rfl
    refine ⟨fun ne => refused (State.jamConfirm_elsewhere lane on (Confirmed.endOf_lane_false ne)), ?_⟩
    rintro rfl
    refine done ((State.jamConfirm_ends lane on (by simp [Confirmed.endOf, segLane]) rfl).trans ?_)
    rw [State.platenMoved_inLane (n := n) (by simp [State.place, State.confirm])]
    have head : ((s.confirm (.entry n) p (.lane n)).putSeg (.entry n) .idle).lane n = p :: s.lane n := by
      simp [State.lane, State.confirm]
    rw [head, List.idxOf_cons_self]
    rfl

end
end
-- ==== Sys2Proof/Proofs/ResumeAndService.lean ====
section
/-! PROOF. LINE_RESUME (R17), the holds (R20, R116) and the service places (R21, R22). -/

namespace Sys2Proof.Machine

/-! ### What keeps the line from running (R17) -/

theorem mem_allSegments (g : Segment) : g ∈ allSegments := by
  cases g with
  | exit n => fin_cases n <;> simp [allSegments]
  | entry n => fin_cases n <;> simp [allSegments]

theorem Track.anyUncertain_iff (t : Track) : t.anyUncertain = true ↔ ∃ (p : Fin 16) (g : Segment), t.places[p] = .uncertain g := by
  simp only [Track.anyUncertain, List.any_eq_true, Vector.mem_toList_iff, Vector.mem_iff_getElem]
  constructor
  · rintro ⟨x, ⟨i, hi, rfl⟩, hx⟩
    cases h : t.places[i] with
    | uncertain g => exact ⟨⟨i, hi⟩, g, h⟩
    | _ => simp [h, Place.isUncertain] at hx
  · rintro ⟨p, g, hp⟩
    exact ⟨_, ⟨p.val, p.isLt, hp⟩, rfl⟩

theorem Track.anyJammed_iff (t : Track) : t.anyJammed = true ↔ ∃ g p c late, t.seg g = .jammed p c late := by
  simp only [Track.anyJammed, List.any_eq_true]
  constructor
  · rintro ⟨g, -, hg⟩
    cases h : t.seg g with
    | jammed p c late => exact ⟨g, p, c, late, h⟩
    | _ => simp [h, SegState.isJammed] at hg
  · rintro ⟨g, p, c, late, h⟩
    exact ⟨g, mem_allSegments g, by simp [h, SegState.isJammed]⟩

/-- R17's second check, as the obligation says it. -/
theorem State.unsettled_iff (s : State) :
    (s.track.anyUnseen = true ∨ s.track.anyUncertain = true ∨ s.track.anyJammed = true) ↔
      (∃ p, s.place p = .unseen ∨ ∃ g, s.place p = .uncertain g) ∨ ∃ g p c late, s.seg g = .jammed p c late := by
  rw [Track.anyUnseen_iff, Track.anyUncertain_iff, Track.anyJammed_iff, ← or_assoc, exists_or]
  rfl

/-! ### LINE_RESUME -/

section Resume

variable {s : State}

theorem State.lineResume_estop (h : s.inputs.estop.level = true) : s.lineResume = s.refuse .stopped := by
  simp [State.lineResume, h]

theorem State.lineResume_unsettled (free : s.inputs.estop.level = false)
    (h : s.track.anyUnseen = true ∨ s.track.anyUncertain = true ∨ s.track.anyJammed = true) :
    s.lineResume = s.refuse .state := by
  simp only [State.lineResume, free, Bool.false_eq_true, if_false, h, if_true]

theorem State.lineResume_settled (free : s.inputs.estop.level = false)
    (h : ¬(s.track.anyUnseen = true ∨ s.track.anyUncertain = true ∨ s.track.anyJammed = true)) :
    s.lineResume = (s.setLine .running).accept [] := by
  simp only [State.lineResume, free, Bool.false_eq_true, if_false, h]

theorem State.setLine_same {x : LineState} (h : s.track.line = x) : s.setLine x = s := by
  simp [State.setLine, h]

end Resume

/-! ### The holds -/

section Holds

variable {s : State} {n : Fin 6}

theorem upd_self {α : Type} {n : Nat} (v : Vector α n) (i : Fin n) : upd v i v[i] = v :=
  Vector.set_getElem_self i.isLt

theorem State.putStation_self : s.putStation n (s.station n) = s := by
  simp only [State.putStation, State.station, upd_self]
  rfl

theorem State.putStation_unheld (h : (s.station n).held = false) : s.putStation n { s.station n with held := false } = s := by
  rw [← h]
  exact State.putStation_self

theorem State.stationHold_val : State.stationHold n.val s = (s.putStation n { s.station n with held := true }).accept [] := by
  simp [State.stationHold]

theorem State.stationHold_out {x : Nat} (h : 6 ≤ x) : State.stationHold x s = s.refuse .range := by
  simp [State.stationHold, inRange_out h]

theorem State.stationRelease_out {x : Nat} (h : 6 ≤ x) : State.stationRelease x s = s.refuse .range := by
  simp [State.stationRelease, inRange_out h]

theorem State.pressReleased_fault (h : s.press = .fault .close) : s.pressReleased = s.setPress .idle := by
  simp [State.pressReleased, h]

theorem State.pressReleased_other (h : s.press ≠ .fault .close) : s.pressReleased = s := by
  unfold State.pressReleased
  split
  next e => exact absurd e h
  next => rfl

theorem State.stationRelease_press (held : (s.station n).held = true) (two : n = 2) (faulted : s.press = .fault .close) :
    State.stationRelease n.val s = ((s.putStation n { s.station n with held := false }).setPress .idle).accept [] := by
  subst two
  rw [← State.pressReleased_fault (s := s.putStation 2 { s.station 2 with held := false }) faulted]
  simp only [State.stationRelease, inRange_val, held, if_true]

theorem State.stationRelease_other (h : (s.station n).held = false ∨ n ≠ 2 ∨ s.press ≠ .fault .close) :
    State.stationRelease n.val s = (s.putStation n { s.station n with held := false }).accept [] := by
  by_cases held : (s.station n).held = true
  · have keeps : (if n = 2 then (s.putStation n { s.station n with held := false }).pressReleased
        else s.putStation n { s.station n with held := false }) = s.putStation n { s.station n with held := false } := by
      split
      next two =>
        exact State.pressReleased_other ((h.resolve_left (by simp [held])).resolve_left (not_not_intro two))
      next => rfl
    simp only [State.stationRelease, inRange_val, held, if_true, keeps]
  · have free : (s.station n).held = false := by simpa using held
    rw [State.putStation_unheld free]
    simp only [State.stationRelease, inRange_val, free, Bool.false_eq_true, if_false]

end Holds

/-! ### The service places -/

section Service

variable {s : State} {p : Fin 16} {n : Fin 6} {x : Nat}

theorem State.isEmpty_iff : s.isEmpty p = true ↔ s.garment p = none := Option.isNone_iff_eq_none

theorem State.serviceOut_out (h : 16 ≤ x) : State.serviceOut x s = s.refuse .range := by
  simp [State.serviceOut, inRange_out h]

theorem State.serviceIn_out (h : 16 ≤ x) : State.serviceIn x s = s.refuse .range := by
  simp [State.serviceIn, inRange_out h]

theorem State.serviceOut_leaves (ends : n = 0 ∨ n = 5) (here : s.place p = .station n) (empty : s.garment p = none) :
    State.serviceOut p.val s = (((s.vacate n p).putPlace p .service).platenMoved p none).accept [] := by
  simp only [State.serviceOut, inRange_val, here, ends, State.isEmpty_iff, empty, and_self, if_true]

theorem State.serviceOut_state (h : (s.place p ≠ .station 0 ∧ s.place p ≠ .station 5) ∨ s.garment p ≠ none) :
    State.serviceOut p.val s = s.refuse .state := by
  simp only [State.serviceOut, inRange_val]
  split
  next n here =>
    refine if_neg fun ⟨ends, empty⟩ => ?_
    obtain ⟨not0, not5⟩ := h.resolve_right (not_not_intro (State.isEmpty_iff.1 empty))
    rcases ends with rfl | rfl
    · exact not0 here
    · exact not5 here
  next => rfl

end Service

end Sys2Proof.Machine

section
open Sys2Proof.Machine

/-- Settles O32: each of the five requests, check by check. -/
theorem resumeHoldsAndService : Obligations.ResumeHoldsAndService := by
  refine ⟨fun v s ready => ?_, fun v station s ready => ?_, fun v station s ready => ?_, fun v platen s ready => ?_,
    fun v platen s ready => ?_⟩
  · have slotless : Slotless State.lineResume := fun s l x mode => State.lineResume_slotted s l x mode
    refine ⟨fun h => refused_of slotless ready rfl (State.lineResume_estop h), fun free => ⟨fun unsettled => ?_, fun settled =>
      ⟨fun runs => ?_, fun stands => ?_⟩⟩⟩
    · exact refused_of slotless ready rfl (State.lineResume_unsettled free (s.unsettled_iff.2 unsettled))
    · refine done_of slotless ready rfl ?_
      rw [State.lineResume_settled free (mt s.unsettled_iff.1 settled), State.setLine_same runs]
    · refine done_of slotless ready rfl ?_
      rw [State.lineResume_settled free (mt s.unsettled_iff.1 settled),
        State.setLine_changed (t := s) stands rfl rfl, free]
  · have slotless : Slotless (State.stationHold station) := fun s l x mode => State.stationHold_slotted s l x mode station
    refine ⟨fun h => refused_of slotless ready rfl (State.stationHold_out h), ?_⟩
    rintro n rfl
    exact done_of slotless ready rfl State.stationHold_val
  · have slotless : Slotless (State.stationRelease station) :=
      fun s l x mode => State.stationRelease_slotted s l x mode station
    refine ⟨fun h => refused_of slotless ready rfl (State.stationRelease_out h), ?_⟩
    rintro n rfl
    exact ⟨fun held two faulted => done_of slotless ready rfl (State.stationRelease_press held two faulted),
      fun h => done_of slotless ready rfl (State.stationRelease_other h)⟩
  · have slotless : Slotless (State.serviceOut platen) := fun s l x mode => State.serviceOut_slotted s l x mode platen
    refine ⟨fun h => refused_of slotless ready rfl (State.serviceOut_out h), ?_⟩
    rintro p rfl
    refine ⟨fun h => refused_of slotless ready rfl (State.serviceOut_state h), fun n ends here empty => ?_⟩
    have notTwo : n ≠ 2 := by rcases ends with rfl | rfl <;> decide
    refine done_of slotless ready rfl ((State.serviceOut_leaves ends here empty).trans ?_)
    rw [State.vacate, State.departure_other _ _ _ notTwo,
      State.platenMoved_at (x := .service) (by simp [State.place]) none (by simp)]
  · have slotless : Slotless (State.serviceIn platen) := fun s l x mode => State.serviceIn_slotted s l x mode platen
    refine ⟨fun h => refused_of slotless ready rfl (State.serviceIn_out h), ?_⟩
    rintro p rfl
    refine ⟨fun h => refused_of slotless ready rfl ?_, fun h => done_of slotless ready rfl ?_⟩
    · rw [State.serviceIn, inRange_val]
      exact if_neg h
    · rw [State.serviceIn, inRange_val]
      refine (if_pos h).trans ?_
      rw [State.placeAt, State.arrival_other _ _ _ (by decide) (by decide),
        State.platenMoved_at (x := .station 0) (by simp [State.place]) none (by simp)]

end
end
-- ==== Sys2Proof/Proofs/EmergencyStop.lean ====
section
/-! PROOF. Jamming every moving segment (R15, R25), and the emergency stop with what it interrupts (R15, R16, R111, R117). -/

namespace Sys2Proof.Machine

/-! ### Every moving segment jams -/

/-- A segment as it is once it has been jammed where it was MOVING. -/
def SegState.jammedBy (c : JamCause) : SegState → SegState
  | .moving p _ => .jammed p c false
  | x => x

/-- What jamming the moving segments of a list makes of a state. -/
structure Jams (c : JamCause) (l : List Segment) (s t : State) : Prop where
  rest : t = s.setTrack t.track
  line : t.track.line = s.track.line
  stations : t.track.stations = s.track.stations
  lanes : t.track.lanes = s.track.lanes
  seg : ∀ g, t.seg g = if g ∈ l then (s.seg g).jammedBy c else s.seg g
  still : ∀ p, (∀ g ∈ l, (s.seg g).mover ≠ some p) → t.place p = s.place p
  moved : ∀ p g, g ∈ l → (s.seg g).mover = some p → (∀ h, (s.seg h).mover = some p → h = g) → t.place p = .uncertain g
  place : ∀ p, t.place p = s.place p ∨ ∃ g, t.place p = .uncertain g

theorem State.putSeg_seg (s : State) (g h : Segment) (x : SegState) :
    (s.putSeg g x).seg h = if g = h then x else s.seg h := by
  cases g with
  | exit m =>
    cases h with
    | exit n => simpa [State.putSeg, State.seg, Track.seg] using upd_get s.track.exits m n x
    | entry n => simp [State.putSeg, State.seg, Track.seg]
  | entry m =>
    cases h with
    | exit n => simp [State.putSeg, State.seg, Track.seg]
    | entry n => simpa [State.putSeg, State.seg, Track.seg] using upd_get s.track.entries m n x

theorem State.jamSeg_jams (s : State) {g : Segment} {p : Fin 16} {w : Word} (c : JamCause) (e : s.seg g = .moving p w) :
    Jams c [g] s (s.jamSeg g p c) := by
  have seg (h : Segment) : (s.jamSeg g p c).seg h = if g = h then .jammed p c false else s.seg h :=
    State.putSeg_seg s g h _
  have place (q : Fin 16) : (s.jamSeg g p c).place q = if p = q then .uncertain g else s.place q := by
    cases g <;> exact upd_get s.track.places p q _
  refine ⟨?_, ?_, ?_, ?_, fun h => ?_, fun q out => ?_, fun q h on out _ => ?_, fun q => ?_⟩
  · cases g <;> rfl
  · cases g <;> rfl
  · cases g <;> rfl
  · cases g <;> rfl
  · rw [seg]
    by_cases at_ : g = h
    · simp [← at_, e, SegState.jammedBy]
    · simp [at_, Ne.symm at_]
  · have other : p ≠ q := by simpa [e, SegState.mover] using out
    rw [place, if_neg other]
  · obtain rfl : h = g := by simpa using on
    have same : p = q := by simpa [e, SegState.mover] using out
    rw [place, if_pos same]
  · rw [place]
    split
    · exact .inr ⟨g, rfl⟩
    · exact .inl rfl

theorem State.jamMoving_jams (c : JamCause) (s : State) (g : Segment) : Jams c [g] s (State.jamMoving c s g) := by
  unfold State.jamMoving
  split
  next p w e => exact s.jamSeg_jams c e
  next still =>
    have stays : (s.seg g).jammedBy c = s.seg g := by
      cases e : s.seg g with
      | moving p w => exact absurd e (still p w)
      | _ => rfl
    refine ⟨rfl, rfl, rfl, rfl, fun h => ?_, fun _ _ => rfl, fun p h on out _ => ?_, fun _ => .inl rfl⟩
    · by_cases at_ : h = g <;> simp [at_, stays]
    · obtain rfl : h = g := by simpa using on
      obtain ⟨w, moves⟩ := (SegState.mover_iff _ _).1 out
      exact absurd moves (still p w)

theorem SegState.jammedBy_mover (c : JamCause) (x : SegState) : (x.jammedBy c).mover = none := by
  cases x <;> rfl

theorem SegState.jammedBy_twice (c : JamCause) (x : SegState) : (x.jammedBy c).jammedBy c = x.jammedBy c := by
  cases x <;> rfl

/-- Jamming one segment and then others jams them all. -/
theorem Jams.cons {c : JamCause} {g : Segment} {l : List Segment} {s t u : State} (one : Jams c [g] s t) (more : Jams c l t u) :
    Jams c (g :: l) s u := by
  have seg (h : Segment) : t.seg h = if h = g then (s.seg h).jammedBy c else s.seg h := by simpa using one.seg h
  have mover (h : Segment) : (t.seg h).mover = if h = g then none else (s.seg h).mover := by
    rw [seg]
    split
    · exact SegState.jammedBy_mover c _
    · rfl
  have frame : u = s.setTrack u.track := more.rest.trans (by rw [one.rest]; rfl)
  refine ⟨frame, more.line.trans one.line, more.stations.trans one.stations, more.lanes.trans one.lanes, fun h => ?_,
    fun p out => ?_, fun p h on out only => ?_, fun p => ?_⟩
  · rw [more.seg, seg]
    by_cases first : h = g <;> by_cases later : h ∈ l <;> simp [first, later, SegState.jammedBy_twice]
  · rw [more.still p fun h on => by grind, one.still p (by simpa using out g (by simp))]
  · by_cases first : h = g
    · subst first
      rw [more.still p fun h on => by grind]
      exact one.moved p h (by simp) out only
    · exact more.moved p h (by simpa [first] using on) (by grind) (by grind)
  · rcases more.place p with e | e
    · rw [e]
      exact one.place p
    · exact .inr e

theorem State.jamAll_jams (c : JamCause) (l : List Segment) (s : State) : Jams c l s (l.foldl (State.jamMoving c) s) := by
  induction l generalizing s with
  | nil => exact ⟨rfl, rfl, rfl, rfl, by simp, fun _ _ => rfl, by simp, fun _ => .inl rfl⟩
  | cons g l ih => exact (State.jamMoving_jams c s g).cons (ih _)

/-! ### Notices raised one after another -/

@[simp] theorem State.raiseAll_link (s : State) (ns : List Notice) (l : Link) :
    (s.raiseAll ns).link l = (s.link l).offerAll s.clock.time ns := by
  induction ns generalizing s with
  | nil => rfl
  | cons n ns ih =>
    rw [State.raiseAll_cons, ih, State.raise_link]
    rfl

section OfferAll

variable (k : LinkState) (time : Word)

theorem LinkState.offerAll_concat (ns : List Notice) (n : Notice) :
    (k.offerAll time ns).offer time n = k.offerAll time (ns ++ [n]) := by
  simp [LinkState.offerAll]

/-- What every offer keeps of a link, a list of offers keeps. -/
theorem LinkState.offerAll_keeps {α : Type} (f : LinkState → α) (one : ∀ k n, f (LinkState.offer time n k) = f k)
    (ns : List Notice) : f (k.offerAll time ns) = f k := by
  induction ns generalizing k with
  | nil => rfl
  | cons n ns ih => exact (ih _).trans (one k n)

@[simp] theorem LinkState.offerAll_slot (ns : List Notice) : (k.offerAll time ns).slot = k.slot :=
  k.offerAll_keeps time LinkState.slot (fun k n => k.offer_slot time n) ns

@[simp] theorem LinkState.offerAll_receiver (ns : List Notice) : (k.offerAll time ns).receiver = k.receiver :=
  k.offerAll_keeps time LinkState.receiver (fun k n => k.offer_receiver time n) ns

@[simp] theorem LinkState.offerAll_mask (ns : List Notice) : (k.offerAll time ns).mask = k.mask :=
  k.offerAll_keeps time LinkState.mask (fun k n => k.offer_mask time n) ns

@[simp] theorem LinkState.offerAll_discards (ns : List Notice) : (k.offerAll time ns).discards = k.discards :=
  k.offerAll_keeps time LinkState.discards (fun k n => k.offer_discards time n) ns

@[simp] theorem LinkState.offerAll_busy (ns : List Notice) : (k.offerAll time ns).busy = k.busy :=
  k.offerAll_keeps time LinkState.busy (fun k n => k.offer_busy time n) ns

end OfferAll

/-- A change of a line input whose effect changes no slot leads to its effect. -/
theorem leads_of_signal {i : Instr} {drive : Inputs → Inputs} {f : State → State} {s u : State}
    (e : exec i s = signal drive f s) (r : s.resetLow = false) (effect : f s = u)
    (slots : ∀ l, (u.link l).slot = (s.link l).slot) : Leads i s u := by
  refine ⟨u.settle, ⟨?_, fun l => ?_⟩, u.keeps_settle⟩
  · rw [e, signal_powered drive f s r, effect]
  · simpa using slots l

theorem State.settle_garment (s : State) (p : Fin 16) : s.settle.garment p = s.garment p := rfl

/-- The notices raised before a step settles are those `notified` speaks of. -/
theorem State.notified_settle {s u : State} {ns : List Notice}
    (h : ∀ l, u.link l = (s.link l).offerAll s.clock.time ns) : s.notified u.settle ns := by
  intro l
  rw [← h]
  exact u.keeps_settle .notices (by simp) l

theorem State.keeps_mono {s t : State} {parts more : List Part} (h : s.keeps t parts) (sub : parts ⊆ more) :
    s.keeps t more :=
  fun p out => h p fun on => out (sub on)

/-- Frames compose, the notices aside. -/
theorem State.keeps_trans {s u t : State} {parts : List Part} (h : s.keeps u parts) (k : u.keeps t parts)
    (n : Part.notices ∈ parts) : s.keeps t parts := by
  intro p out
  have before := h p out
  have after := k p out
  cases p with
  | notices => exact absurd n out
  | settings =>
    intro l
    obtain ⟨receiver, mask, discards, busy⟩ := before l
    obtain ⟨receiver', mask', discards', busy'⟩ := after l
    exact ⟨receiver'.trans receiver, mask'.trans mask, discards'.trans discards, busy'.trans busy⟩
  | outputs =>
    intro i
    obtain ⟨conditions, blink, on, off⟩ := before i
    obtain ⟨conditions', blink', on', off'⟩ := after i
    exact ⟨conditions'.trans conditions, blink'.trans blink, on'.trans on, off'.trans off⟩
  | _ => exact Eq.trans after before

/-- What a state keeps, with its notices aside, it keeps when it settles. -/
theorem State.keeps_settled {s u : State} {parts : List Part} (h : s.keeps u parts) (n : Part.notices ∈ parts) :
    s.keeps u.settle parts :=
  State.keeps_trans h (State.keeps_mono u.keeps_settle (by simp)) n

/-! ### The Track Manager's part (R15) -/

theorem Track.stop_line (t : Track) : t.stop.line = if t.line = .running then .stopped else t.line := by
  unfold Track.stop
  split <;> rfl

theorem Track.stop_seg (t : Track) (g : Segment) : t.stop.seg g = t.seg g := by
  unfold Track.stop
  split
  · cases g <;> rfl
  · rfl

@[simp] theorem Track.stop_places (t : Track) : t.stop.places = t.places := by
  unfold Track.stop
  split <;> rfl

@[simp] theorem Track.stop_stations (t : Track) : t.stop.stations = t.stations := by
  unfold Track.stop
  split <;> rfl

@[simp] theorem Track.stop_lanes (t : Track) : t.stop.lanes = t.lanes := by
  unfold Track.stop
  split <;> rfl

section Stop

variable (s : State)

/-- The line once every moving segment has jammed and the line has stopped. -/
def State.haltedTrack (c : JamCause) : Track := (allSegments.foldl (State.jamMoving c) s).track.stop

variable (c : JamCause)

theorem State.haltedTrack_line :
    (s.haltedTrack c).line = if s.track.line = .running then .stopped else s.track.line := by
  rw [State.haltedTrack, Track.stop_line, (s.jamAll_jams c allSegments).line]

theorem State.haltedTrack_stations : (s.haltedTrack c).stations = s.track.stations := by
  rw [State.haltedTrack, Track.stop_stations, (s.jamAll_jams c allSegments).stations]

theorem State.haltedTrack_lanes : (s.haltedTrack c).lanes = s.track.lanes := by
  rw [State.haltedTrack, Track.stop_lanes, (s.jamAll_jams c allSegments).lanes]

theorem State.haltedTrack_seg (g : Segment) : (s.haltedTrack c).seg g = (s.seg g).jammedBy c := by
  rw [State.haltedTrack, Track.stop_seg]
  exact ((s.jamAll_jams c allSegments).seg g).trans (if_pos (mem_allSegments g))

theorem State.haltedTrack_still {p : Fin 16} (h : ∀ g start, s.seg g ≠ .moving p start) :
    (s.haltedTrack c).places[p] = s.place p := by
  rw [State.haltedTrack, Track.stop_places]
  refine (s.jamAll_jams c allSegments).still p fun g _ e => ?_
  obtain ⟨w, moves⟩ := (SegState.mover_iff _ _).1 e
  exact h g w moves

theorem State.haltedTrack_moved {p : Fin 16} {g : Segment} {start : Word} (h : s.seg g = .moving p start)
    (only : ∀ h x, s.seg h = .moving p x → h = g) : (s.haltedTrack c).places[p] = .uncertain g := by
  rw [State.haltedTrack, Track.stop_places]
  refine (s.jamAll_jams c allSegments).moved p g (mem_allSegments g) ((SegState.mover_iff _ _).2 ⟨start, h⟩) fun h e => ?_
  obtain ⟨w, moves⟩ := (SegState.mover_iff _ _).1 e
  exact only h w moves

theorem State.haltedTrack_station {p : Fin 16} {n : Fin 6} (h : (s.haltedTrack c).places[p] = .station n) :
    s.place p = .station n := by
  rw [State.haltedTrack, Track.stop_places] at h
  rcases (s.jamAll_jams c allSegments).place p with e | ⟨g, e⟩
  · exact e.symm.trans h
  · exact absurd (e.symm.trans h) (by simp)

/-- R15 as one change: track, input and notices. -/
theorem State.stopTrack_eq :
    s.stopTrack = (((s.setInputs { s.inputs with estop := .settled true }).setTrack (s.haltedTrack .eStop)).raiseAll
      (s.jamNotices .eStop)).raise (.lineState (s.haltedTrack .eStop).line true s.powerFlag) := by
  rw [State.stopTrack, State.haltedTrack]
  generalize e : allSegments.foldl (State.jamMoving .eStop) s = t
  have rest : t = s.setTrack t.track := e ▸ (s.jamAll_jams .eStop allSegments).rest
  rw [rest]
  rfl

end Stop

/-! ### Who stands at a station after the stop -/

theorem State.garmentAt_iff {s : State} {n : Fin 6} {p : Fin 16} {g : Garment} :
    s.garmentAt n = some (p, g) ↔ (s.station n).occupant = some p ∧ s.place p = .station n ∧ s.garment p = some g := by
  unfold State.garmentAt
  cases (s.station n).occupant with
  | none => simp
  | some q =>
    dsimp only
    split
    next here =>
      constructor
      · intro e
        obtain ⟨x, on, same⟩ := Option.map_eq_some_iff.1 e
        obtain ⟨rfl, rfl⟩ := Prod.mk.inj same
        exact ⟨rfl, here, on⟩
      · rintro ⟨e, -, on⟩
        obtain rfl : q = p := Option.some.inj e
        simp [on]
    next away =>
      constructor
      · simp
      · rintro ⟨e, here, -⟩
        exact absurd (Option.some.inj e ▸ here) away

@[simp] theorem State.stopTrack_track (s : State) : s.stopTrack.track = s.haltedTrack .eStop := by simp [State.stopTrack_eq]

@[simp] theorem State.stopTrack_units (s : State) : s.stopTrack.units = s.units := by simp [State.stopTrack_eq]

@[simp] theorem State.stopTrack_spray (s : State) : s.stopTrack.spray = s.spray := by simp [State.stopTrack_eq]

@[simp] theorem State.stopTrack_press (s : State) : s.stopTrack.press = s.press := by simp [State.stopTrack_eq]

theorem State.stopTrack_garment (s : State) (p : Fin 16) : s.stopTrack.garment p = s.garment p := by simp [State.garment]

/-- A garment that no move carries still stands at its station. -/
theorem State.stopTrack_garmentAt {s : State} {n : Fin 6} {p : Fin 16} {g : Garment} (h : s.garmentAt n = some (p, g))
    (still : ∀ h x, s.seg h ≠ .moving p x) : s.stopTrack.garmentAt n = some (p, g) := by
  obtain ⟨occupant, place, garment⟩ := State.garmentAt_iff.1 h
  refine State.garmentAt_iff.2 ⟨?_, ?_, by rw [State.stopTrack_garment, garment]⟩
  · simpa [State.station, State.haltedTrack_stations] using occupant
  · rw [State.place, State.stopTrack_track, State.haltedTrack_still s .eStop still, place]

/-- No garment comes to a station by the stop. -/
theorem State.stopTrack_place {s : State} {n : Fin 6} {p : Fin 16} (h : s.stopTrack.place p = .station n) :
    s.place p = .station n := by
  rw [State.place, State.stopTrack_track] at h
  exact s.haltedTrack_station .eStop h

/-! ### The sequence interrupted (R111) -/

/-- The garment at S1 as the interrupted sequence leaves it. -/
def Garment.interrupted (g : Garment) (spray : Spray) (strobes : Nat) : Garment :=
  { g with
    pretreat := { g.pretreat.ended spray strobes with result := .interrupted }
    disposition := .reject }

@[simp] theorem State.setInputs_link (s : State) (x : Inputs) (l : Link) : (s.setInputs x).link l = s.link l := rfl

section Spray

variable {u : State}

@[simp] theorem State.setSpray_link (x : Spray) (l : Link) : (u.setSpray x).link l = u.link l := rfl

@[simp] theorem State.putGarment_link (p : Fin 16) (x : Option Garment) (l : Link) : (u.putGarment p x).link l = u.link l :=
  rfl

theorem State.interruptSpray_idle (h : u.spray.run = none) : u.interruptSpray = u := by
  simp [State.interruptSpray, h]

theorem State.interruptSpray_running {run : SprayRun} {p : Fin 16} {g : Garment} {r : Recipe} (running : u.spray.run = some run)
    (at_ : u.sprayed = some (p, g, r)) :
    u.interruptSpray = ((u.putGarment p (some (g.interrupted u.spray run.strobes))).setSpray Spray.reset).raise
      ((g.interrupted u.spray run.strobes).pretreatNotice p r run.strobes) := by
  simp only [State.interruptSpray, running, at_]
  rfl

theorem State.sprayed_garmentAt {p : Fin 16} {g : Garment} {r : Recipe} (h : u.sprayed = some (p, g, r)) :
    u.garmentAt 1 = some (p, g) ∧ g.binding.map (·.recipe) = some r := by
  unfold State.sprayed at h
  split at h
  next => simp at h
  next q x e =>
    obtain ⟨b, bound, same⟩ := Option.map_eq_some_iff.1 h
    obtain ⟨rfl, rfl, rfl⟩ : q = p ∧ x = g ∧ b.recipe = r := by simpa using same
    exact ⟨e, by rw [bound]; rfl⟩

theorem State.sprayed_of {p : Fin 16} {g : Garment} {r : Recipe} (h : u.garmentAt 1 = some (p, g))
    (bound : g.binding.map (·.recipe) = some r) : u.sprayed = some (p, g, r) := by
  obtain ⟨b, on, rfl⟩ := Option.map_eq_some_iff.1 bound
  simp [State.sprayed, h, on]

/-- What the interruption does: nothing, or the garment at S1 is rejected. -/
theorem State.interruptSpray_cases : u.interruptSpray = u ∨ ∃ run p g r, u.spray.run = some run ∧ u.sprayed = some (p, g, r) ∧
    u.interruptSpray = ((u.putGarment p (some (g.interrupted u.spray run.strobes))).setSpray Spray.reset).raise
      ((g.interrupted u.spray run.strobes).pretreatNotice p r run.strobes) := by
  cases run : u.spray.run with
  | none => exact .inl (State.interruptSpray_idle run)
  | some x =>
    cases at_ : u.sprayed with
    | none => exact .inl (by simp [State.interruptSpray, run, at_])
    | some y => exact .inr ⟨x, y.1, y.2.1, y.2.2, rfl, rfl, State.interruptSpray_running run at_⟩

@[simp] theorem State.interruptSpray_press : u.interruptSpray.press = u.press := by
  rcases u.interruptSpray_cases with e | ⟨run, p, g, r, -, -, e⟩ <;> simp [e]

@[simp] theorem State.interruptSpray_serial : u.interruptSpray.units.serial = u.units.serial := by
  rcases u.interruptSpray_cases with e | ⟨run, p, g, r, -, -, e⟩ <;> simp [e, State.putGarment]

theorem State.interruptSpray_elsewhere {p : Fin 16} (h : u.spray.run = none ∨ u.place p ≠ .station 1) :
    u.interruptSpray.garment p = u.garment p := by
  rcases u.interruptSpray_cases with e | ⟨run, q, g, r, running, at_, e⟩
  · rw [e]
  · obtain ⟨-, here, -⟩ := State.garmentAt_iff.1 (State.sprayed_garmentAt at_).1
    have other : q ≠ p := fun same => h.resolve_left (by simp [running]) (same ▸ here)
    rw [e]
    exact State.putGarment_garment_ne u q p _ other

theorem State.interruptSpray_empty {p : Fin 16} (h : u.garment p = none) : u.interruptSpray.garment p = none := by
  rcases u.interruptSpray_cases with e | ⟨run, q, g, r, -, at_, e⟩
  · rw [e, h]
  · obtain ⟨-, -, garment⟩ := State.garmentAt_iff.1 (State.sprayed_garmentAt at_).1
    have other : q ≠ p := fun same => by simp [← same, garment] at h
    rw [e, ← h]
    exact State.putGarment_garment_ne u q p _ other

theorem State.interruptSpray_keeps : u.keeps u.interruptSpray [.units, .spray, .notices] := by
  intro p out
  rcases u.interruptSpray_cases with e | ⟨run, q, g, r, -, -, e⟩ <;> rw [e] <;> cases p <;>
    simp [Part.same] at out ⊢

end Spray

/-! ### The press interrupted (R117) -/

/-- A press that is closing or dwelling. -/
def Press.pressing : Press → Bool
  | .closing _ => true
  | .dwell _ => true
  | _ => false

section Press

variable {u : State}

theorem State.interruptPress_pressing (h : u.press.pressing = true) :
    u.interruptPress = (u.setPressRecord .pending).setPress .idle := by
  cases e : u.press <;> simp [State.interruptPress, e, Press.pressing] at h ⊢

theorem State.interruptPress_other (h : u.press.pressing = false) : u.interruptPress = u := by
  cases e : u.press <;> simp [State.interruptPress, e, Press.pressing] at h ⊢

theorem State.setPressRecord_at {p : Fin 16} {g : Garment} (h : u.garmentAt 2 = some (p, g)) (x : PressRecord) :
    u.setPressRecord x = u.putGarment p (some { g with press := x }) := by
  simp [State.setPressRecord, h]

theorem State.setPressRecord_none (h : u.garmentAt 2 = none) (x : PressRecord) : u.setPressRecord x = u := by
  simp [State.setPressRecord, h]

theorem State.interruptPress_cases : u.interruptPress = u ∨ u.interruptPress = u.setPress .idle ∨
    ∃ p g, u.press.pressing = true ∧ u.garmentAt 2 = some (p, g) ∧
      u.interruptPress = (u.putGarment p (some { g with press := .pending })).setPress .idle := by
  by_cases h : u.press.pressing = true
  · rw [State.interruptPress_pressing h]
    cases at_ : u.garmentAt 2 with
    | none => exact .inr (.inl (by rw [State.setPressRecord_none at_]))
    | some x => exact .inr (.inr ⟨x.1, x.2, h, rfl, by rw [State.setPressRecord_at at_]⟩)
  · exact .inl (State.interruptPress_other (by simpa using h))

@[simp] theorem State.interruptPress_spray : u.interruptPress.spray = u.spray := by
  rcases u.interruptPress_cases with e | e | ⟨p, g, -, -, e⟩ <;> simp [e]

@[simp] theorem State.interruptPress_links : u.interruptPress.links = u.links := by
  rcases u.interruptPress_cases with e | e | ⟨p, g, -, -, e⟩ <;> simp [e]

@[simp] theorem State.interruptPress_serial : u.interruptPress.units.serial = u.units.serial := by
  rcases u.interruptPress_cases with e | e | ⟨p, g, -, -, e⟩ <;> simp [e, State.putGarment]

theorem State.interruptPress_elsewhere {p : Fin 16} (h : u.press.pressing = false ∨ u.place p ≠ .station 2) :
    u.interruptPress.garment p = u.garment p := by
  rcases u.interruptPress_cases with e | e | ⟨q, g, pressing, at_, e⟩
  · rw [e]
  · rw [e]
    rfl
  · obtain ⟨-, here, -⟩ := State.garmentAt_iff.1 at_
    have other : q ≠ p := fun same => h.resolve_left (by simp [pressing]) (same ▸ here)
    rw [e]
    exact State.putGarment_garment_ne u q p _ other

theorem State.interruptPress_empty {p : Fin 16} (h : u.garment p = none) : u.interruptPress.garment p = none := by
  rcases u.interruptPress_cases with e | e | ⟨q, g, -, at_, e⟩
  · rw [e, h]
  · rw [e]
    exact h
  · obtain ⟨-, -, garment⟩ := State.garmentAt_iff.1 at_
    have other : q ≠ p := fun same => by simp [← same, garment] at h
    rw [e, ← h]
    exact State.putGarment_garment_ne u q p _ other

theorem State.interruptPress_keeps : u.keeps u.interruptPress [.units, .press] := by
  intro p out
  rcases u.interruptPress_cases with e | e | ⟨q, g, -, -, e⟩ <;> rw [e] <;> cases p <;>
    simp [Part.same, State.link, LinkState.lostStands] at out ⊢

end Press

theorem State.exec_emergencyStop (s : State) : exec .emergencyStopAsserted s =
    signal (fun i => { i with estop := i.estop.drive true }) State.emergencyStop s := by
  rfl

theorem State.exec_emergencyRelease (s : State) : exec .emergencyStopReleased s =
    signal (fun i => { i with estop := i.estop.drive false }) State.emergencyRelease s := by
  rfl

theorem exitsAndEntries_eq : ((List.finRange 6).flatMap fun n => [Segment.exit n, .entry n]) = allSegments := by
  decide

/-! ### The three together -/

section Together

variable {s : State}

theorem State.stopTrack_keeps : s.keeps s.stopTrack [.inputs, .track, .notices] := by
  intro p out
  rw [State.stopTrack_eq]
  cases p <;> simp [Part.same] at out ⊢

/-- The emergency stop's notices but that of an interrupted sequence. -/
def State.stopNotices (s : State) : List Notice :=
  s.jamNotices .eStop ++ [.lineState (s.haltedTrack .eStop).line true s.powerFlag]

theorem State.stopTrack_link (l : Link) : s.stopTrack.link l = (s.link l).offerAll s.clock.time s.stopNotices := by
  rw [State.stopTrack_eq, State.raise_link, State.raiseAll_link, State.stopNotices, ← LinkState.offerAll_concat]
  simp

theorem State.interruptPress_link {u : State} (l : Link) : u.interruptPress.link l = u.link l := by
  simp only [State.link, State.interruptPress_links]

/-- The stop as the three blocks take it, one after another. -/
def State.stopped (s : State) : State := s.stopTrack.interruptSpray.interruptPress

theorem State.stopped_keeps : s.keeps s.stopped [.inputs, .track, .units, .spray, .press, .notices] := by
  have track := State.keeps_mono (more := [.inputs, .track, .units, .spray, .press, .notices]) s.stopTrack_keeps (by simp)
  have spray := State.keeps_mono (more := [.inputs, .track, .units, .spray, .press, .notices])
    s.stopTrack.interruptSpray_keeps (by simp)
  have press := State.keeps_mono (more := [.inputs, .track, .units, .spray, .press, .notices])
    s.stopTrack.interruptSpray.interruptPress_keeps (by simp)
  exact State.keeps_trans (State.keeps_trans track spray (by simp)) press (by simp)

@[simp] theorem State.stopped_track : s.stopped.track = s.haltedTrack .eStop := by
  simp [State.stopped]

theorem State.stopped_inputs : s.stopped.inputs = { s.inputs with estop := ⟨true, true, 0⟩ } := by
  have press := s.stopTrack.interruptSpray.interruptPress_keeps .inputs (by simp)
  have spray := s.stopTrack.interruptSpray_keeps .inputs (by simp)
  exact press.trans (spray.trans (by rw [State.stopTrack_eq]; simp [LevelInput.settled]))

theorem State.stopped_serial : s.stopped.units.serial = s.units.serial := by
  simp [State.stopped]

theorem State.stopped_link (h : s.spray.run = none) (l : Link) :
    s.stopped.link l = (s.link l).offerAll s.clock.time s.stopNotices := by
  rw [State.stopped, State.interruptPress_link, State.interruptSpray_idle (by simpa using h), State.stopTrack_link]

theorem State.stopped_spray (h : s.spray.run = none) : s.stopped.spray = s.spray := by
  rw [State.stopped, State.interruptPress_spray, State.interruptSpray_idle (by simpa using h), State.stopTrack_spray]

theorem State.stopped_slot (l : Link) : (s.stopped.link l).slot = (s.link l).slot := by
  rw [State.stopped, State.interruptPress_link]
  rcases s.stopTrack.interruptSpray_cases with e | ⟨run, p, g, r, -, -, e⟩ <;> rw [e] <;> simp [State.stopTrack_link]

theorem State.stopped_press :
    s.stopped.press = if s.press.pressing then .idle else s.press := by
  have same : s.stopTrack.interruptSpray.press = s.press := by simp
  rw [State.stopped]
  split
  next pressing =>
    rw [State.interruptPress_pressing (by rw [same, pressing])]
    rfl
  next other =>
    rw [State.interruptPress_other (by rw [same]; simpa using other), same]

theorem State.stopped_empty {p : Fin 16} (h : s.garment p = none) : s.stopped.garment p = none :=
  State.interruptPress_empty (State.interruptSpray_empty (s.stopTrack_garment p ▸ h))

theorem State.stopped_elsewhere {p : Fin 16} (one : s.spray.run = none ∨ s.place p ≠ .station 1)
    (two : s.press.pressing = false ∨ s.place p ≠ .station 2) : s.stopped.garment p = s.garment p := by
  have place : s.stopTrack.interruptSpray.place p = s.stopTrack.place p := by simp [State.place]
  rw [State.stopped, State.interruptPress_elsewhere, State.interruptSpray_elsewhere, State.stopTrack_garment]
  · exact one.imp (by simp) (mt State.stopTrack_place)
  · rw [place]
    exact two.imp (by simp) (mt State.stopTrack_place)

/-- The garment at S2, whatever the spray unit does. -/
theorem State.stopped_pressed {p : Fin 16} {g : Garment} (at_ : s.garmentAt 2 = some (p, g))
    (still : ∀ h x, s.seg h ≠ .moving p x) :
    s.stopped.garment p = some (if s.press.pressing then { g with press := .pending } else g) := by
  obtain ⟨occupant, place, garment⟩ := State.garmentAt_iff.1 (State.stopTrack_garmentAt at_ still)
  have notOne : s.stopTrack.place p ≠ .station 1 := by simp [place]
  have stays : s.stopTrack.interruptSpray.garment p = some g :=
    (State.interruptSpray_elsewhere (.inr notOne)).trans garment
  have here : s.stopTrack.interruptSpray.garmentAt 2 = some (p, g) :=
    State.garmentAt_iff.2 ⟨by simpa [State.station] using occupant, by simpa [State.place] using place, stays⟩
  have same : s.stopTrack.interruptSpray.press = s.press := by simp
  rw [State.stopped]
  split
  next pressing =>
    rw [State.interruptPress_pressing (by rw [same, pressing]), State.setPressRecord_at here]
    exact State.putGarment_garment_self _ p _
  next other =>
    rw [State.interruptPress_other (by rw [same]; simpa using other), stays]

/-- A running sequence whose garment no move carries: the notices, the garment, and the spray unit at rest. -/
theorem State.stopped_running {run : SprayRun} {p : Fin 16} {g : Garment} {r : Recipe} (running : s.spray.run = some run)
    (at_ : s.sprayed = some (p, g, r)) (still : ∀ h x, s.seg h ≠ .moving p x) :
    s.stopped.spray = Spray.reset ∧ s.stopped.garment p = some (g.interrupted s.spray run.strobes) ∧
      ∀ l, s.stopped.link l = (s.link l).offerAll s.clock.time
        (s.stopNotices ++ [(g.interrupted s.spray run.strobes).pretreatNotice p r run.strobes]) := by
  obtain ⟨here, bound⟩ := State.sprayed_garmentAt at_
  have there := State.stopTrack_garmentAt here still
  have e := State.interruptSpray_running (u := s.stopTrack) (by rw [State.stopTrack_spray, running])
    (State.sprayed_of there bound)
  rw [State.stopTrack_spray] at e
  obtain ⟨-, place, -⟩ := State.garmentAt_iff.1 there
  have notTwo : s.stopTrack.interruptSpray.place p ≠ .station 2 := by
    have same : s.stopTrack.interruptSpray.place p = s.stopTrack.place p := by simp [State.place]
    simp [same, place]
  refine ⟨?_, ?_, fun l => ?_⟩
  · rw [State.stopped, State.interruptPress_spray, e]
    rfl
  · rw [State.stopped, State.interruptPress_elsewhere (.inr notTwo), e]
    exact State.putGarment_garment_self _ p _
  · have time : s.stopTrack.clock = s.clock := s.stopTrack_keeps .clock (by simp)
    rw [State.stopped, State.interruptPress_link, e, State.raise_link, ← LinkState.offerAll_concat, ← State.stopTrack_link]
    simp [time]

end Together

end Sys2Proof.Machine

section
open Sys2Proof.Machine

/-- Settles O29: an active stop stands, and else what the Track Manager, the spray unit and the press each do. -/
theorem emergencyStopJamsLine : Obligations.EmergencyStopJamsLine := by
  refine ⟨fun s high active => ⟨?_, ?_⟩, fun s high free => ⟨?_, s.stopped.settle, ⟨?_, fun l => ?_⟩, ?_, ?_, ?_, ?_, ?_, ?_,
    fun g => ?_, fun p still => ?_, fun g p start moves only => ?_, ?_, fun idle => ?_, fun p empty => ?_,
    fun p g garment one two => ?_, fun p g at_ still => ?_, ?_⟩⟩
  · exact leads_of_signal s.exec_emergencyStop high (if_pos active) fun l => rfl
  · exact leads_of_signal s.exec_emergencyRelease high (if_pos active) fun l => State.raise_slot _ _ l
  · exact leads_of_signal s.exec_emergencyRelease high (if_neg (by simp [free])) fun l => rfl
  · have stops : s.emergencyStop = s.stopped := if_neg (by simp [free])
    rw [← stops, s.exec_emergencyStop, signal_powered _ _ s high]
  · simpa using State.stopped_slot l
  · exact State.keeps_settled State.stopped_keeps (by simp)
  · rw [State.settle_units, State.stopped_serial]
  · rw [State.settle_inputs, State.stopped_inputs]
  · simpa using s.haltedTrack_line .eStop
  · simpa using s.haltedTrack_stations .eStop
  · simpa using s.haltedTrack_lanes .eStop
  · have seg : s.stopped.settle.seg g = (s.seg g).jammedBy .eStop := by
      simpa [State.seg] using s.haltedTrack_seg .eStop g
    rw [seg]
    cases s.seg g <;> rfl
  · simpa [State.place] using s.haltedTrack_still .eStop still
  · simpa [State.place] using s.haltedTrack_moved .eStop moves only
  · rw [State.settle_press, State.stopped_press]
    cases s.press <;> rfl
  · rw [State.settle_spray, State.stopped_spray idle]
  · rw [State.settle_garment, State.stopped_empty empty]
  · rw [State.settle_garment, State.stopped_elsewhere one (two.imp_left fun open_ => ?_), garment]
    cases e : s.press with
    | closing left => exact absurd e (open_ left).1
    | dwell left => exact absurd e (open_ left).2
    | _ => rfl
  · rw [State.settle_garment, State.stopped_pressed at_ still]
    cases s.press <;> rfl
  intro segments notices
  have told : notices = s.stopNotices := by
    simp only [notices, segments, State.settle_track, State.stopped_track, exitsAndEntries_eq]
    rfl
  rw [told]
  refine ⟨fun idle => State.notified_settle (State.stopped_link idle), fun run p g r running at_ still => ?_⟩
  obtain ⟨spray, garment, links⟩ := State.stopped_running running at_ still
  refine ⟨?_, fun z => ?_, ?_, State.notified_settle links⟩
  · simp [spray, Spray.reset]
  · simp [spray, Spray.reset, Channel.off]
  · rw [State.settle_garment, garment]
    rfl

end
end
-- ==== Sys2Proof/Proofs/PowerOn.lean ====
section
/-! PROOF. Power-on reset, what it leaves and that it has the invariants; the outputs, and RESET_N low (R24, R182). -/

namespace Sys2Proof.Machine

/-! ### The tables of a reset -/

theorem replicate_get {α : Type} {n : Nat} (x : α) (i : Fin n) : (Vector.replicate n x)[i] = x := by simp

theorem Inputs.asDriven_arrive (x : Inputs) (g : Segment) : x.asDriven.arrive g = ⟨(x.arrive g).wire, (x.arrive g).wire, 0⟩ := by
  cases g with
  | exit n => exact vmap_get LevelInput.asDriven x.arriveExit n
  | entry n => exact vmap_get LevelInput.asDriven x.arriveEntry n

theorem Track.reset_seg (g : Segment) : Track.reset.seg g = .idle := by
  cases g with
  | exit n => exact replicate_get _ n
  | entry n => exact replicate_get _ n

theorem Links.reset_get (l : Link) : Links.reset.get l = LinkState.reset l := by
  cases l <;> rfl

theorem State.reset_bindings (i : Fin 512) : State.reset.bindings i = 0 := by
  simp [State.bindings, State.reset, Match.reset, Shelf.reset, boundTo, shelvedFor]

theorem storeInv_reset : StoreInv Store.reset := by
  have free (h : Fin 64) : Store.reset.arts[h] = none := replicate_get _ h
  refine ⟨fun h d e => ?_, fun h k d e _ on _ => ?_, fun h => ?_, List.nodup_nil⟩
  · exact absurd (e.symm.trans (free h)) (by simp)
  · exact absurd (on.symm.trans (free h)) (by simp)
  · rw [free]
    simp [Store.reset]

theorem ringInv_reset : RingInv Ring.reset := by
  refine ⟨fun i => ?_, List.nodup_nil⟩
  have free : Ring.reset.slots[i] = none := replicate_get _ i
  rw [free]
  simp [Ring.reset]

theorem catalogueInv_reset : CatalogueInv Book.reset :=
  ⟨List.nodup_nil, Nat.zero_le _, fun _ h => absurd h List.not_mem_nil⟩

theorem linkInv_reset (l : Link) : LinkInv (LinkState.reset l) :=
  ⟨Nat.zero_le _, Nat.zero_le _, fun _ => rfl⟩

theorem reservationInv_reset : ReservationInv State.reset := by
  have noLine (i : Fin 512) (l : Line) : State.reset.book.lines[i] ≠ some l := by
    rw [show State.reset.book.lines[i] = none from replicate_get _ i]
    simp
  have noOrder (o : Order) : o ∉ State.reset.book.orders := List.not_mem_nil
  have noGarment (p : Fin 16) (g : Garment) : State.reset.garment p ≠ some g := by
    rw [show State.reset.garment p = none from replicate_get _ p]
    simp
  exact {
    reserved := fun i l e => absurd e (noLine i l)
    free := fun i _ => State.reset_bindings i
    owner := fun i l e => absurd e (noLine i l)
    owned := fun o h => absurd h (noOrder o)
    numbers := List.nodup_nil
    once := fun o h => absurd h (noOrder o)
    within := fun i l e => absurd e (noLine i l)
    status := fun i l _ e => absurd e (noLine i l)
    finished := fun i l e => absurd e (noLine i l)
    complete := fun o h => absurd h (noOrder o)
    cancelled := fun o h => absurd h (noOrder o)
    loaded := fun p g e => absurd e (noGarment p g) }

theorem requestInv_reset : RequestInv State.reset := by
  have link (l : Link) : State.reset.link l = LinkState.reset l := Links.reset_get l
  refine ⟨fun l tag kind i e => ?_, fun x e => ?_, fun x e => ?_, fun l e => ?_, fun l f e => ?_⟩
  · simp [link, LinkState.reset] at e
  · simp [State.reset, Ring.reset] at e
  · simp [State.reset, Store.reset] at e
  · simp [State.reset] at e
  · simp [link, LinkState.reset] at e

/-! ### RESET_N low (R182, log 8) -/

theorem event_low (f : State → State) (s : State) (h : s.resetLow = true) : event f s = .next s := by
  simp [event, h]

theorem arbiterGrant_low (s : State) (h : s.resetLow = true) : exec .arbiterGrant s = .next s := by
  change execArbiterGrant s = _
  unfold execArbiterGrant
  split
  · simp [h]
  · exact event_low id s h

/-- Every command but the resets, the changes of an input and the grant is an event; a request's effect is its taking. -/
theorem exec_isEvent (c : Instr) (power : c ≠ .powerOnReset) (reset : c ≠ .resetAsserted)
    (stop : c ≠ .emergencyStopAsserted) (release : c ≠ .emergencyStopReleased) (closed : c ≠ .pressClosed)
    (opened : c ≠ .pressOpen) (grant : c ≠ .arbiterGrant) : ∃ f, ∀ s, exec c s = event f s := by
  cases c
  case powerOnReset => exact absurd rfl power
  case resetAsserted => exact absurd rfl reset
  case emergencyStopAsserted => exact absurd rfl stop
  case emergencyStopReleased => exact absurd rfl release
  case pressClosed => exact absurd rfl closed
  case pressOpen => exact absurd rfl opened
  case arbiterGrant => exact absurd rfl grant
  all_goals exact ⟨_, fun _ => rfl⟩

/-- While RESET_N is low nothing comes of a command but the resets and the changes of an input. -/
theorem exec_low {s : State} (low : s.resetLow = true) (c : Instr) (power : c ≠ .powerOnReset) (reset : c ≠ .resetAsserted)
    (stop : c ≠ .emergencyStopAsserted) (release : c ≠ .emergencyStopReleased) (closed : c ≠ .pressClosed)
    (opened : c ≠ .pressOpen) : exec c s = .next s := by
  by_cases grant : c = .arbiterGrant
  · rw [grant]
    exact arbiterGrant_low s low
  · obtain ⟨f, e⟩ := exec_isEvent c power reset stop release closed opened grant
    rw [e, event_low f s low]

theorem State.exec_pressClosed (s : State) : exec .pressClosed s =
    signal (fun i => { i with pressClosed := i.pressClosed.drive true }) State.pressClosed s := by
  rfl

theorem State.exec_pressOpen (s : State) : exec .pressOpen s =
    signal (fun i => { i with pressOpen := i.pressOpen.drive true }) State.pressOpened s := by
  rfl

theorem State.lowerReset_link (s : State) (l : Link) : s.lowerReset.link l = { (s.link l) with tx := .idle } :=
  Links.get_map LinkState.silence s.links l

theorem State.lowerReset_keeps (s : State) : s.keeps s.lowerReset [.resetLow] := by
  intro p out
  cases p with
  | resetLow => exact absurd (by simp) out
  | notices =>
    intro l
    rw [State.lowerReset_link]
    exact ⟨rfl, rfl, .inl rfl⟩
  | settings =>
    intro l
    rw [State.lowerReset_link]
    exact ⟨rfl, rfl, rfl, rfl⟩
  | outputs => exact fun i => ⟨rfl, rfl, rfl, rfl⟩
  | _ => rfl

theorem State.pins_low {s : State} (h : s.resetLow = true) : s.pins = Pins.low := if_pos h

/-! ### The outputs (R5, R107, R113, R169) -/

theorem SegState.go_iff (x : SegState) : x.go = true ↔ ∃ p start, x = .moving p start := by
  cases x <;> simp [SegState.go]

theorem Press.close_iff (x : Press) : x.close = true ↔ (∃ left, x = .closing left) ∨ ∃ left, x = .dwell left := by
  cases x <;> simp [Press.close]

theorem LinkState.pin_sends (k : LinkState) :
    (k.tx = .idle → k.pin = .quiet) ∧ ∀ source f, k.tx = .sending source f → k.pin = .frame f :=
  ⟨fun h => by simp [LinkState.pin, h], fun source f h => by simp [LinkState.pin, h]⟩

/-- What the part drives while RESET_N is high. -/
def State.driven (s : State) : Pins where
  goExit := vmap SegState.go s.track.exits
  goEntry := vmap SegState.go s.track.entries
  valve := vmap Channel.valve s.spray.channels
  sprayRun := s.spray.run.isSome
  pressClose := s.press.close
  ind := vmap (fun i => i.lamp.on) s.indicators
  orderLink := s.links.order.pin
  operatorLink := s.links.operator.pin
  headLink := s.links.head.pin
  cureLink := s.links.cure.pin

theorem State.pins_high {s : State} (h : s.resetLow = false) : s.pins = s.driven := if_neg (by simp [h])

/-! ### The power-on reset -/

/-- The line inputs, each read as it is driven (R24). -/
theorem Inputs.asDriven_levels (x : Inputs) (n : Fin 6) :
    x.asDriven.present[n] = ⟨x.present[n].wire, x.present[n].wire, 0⟩ :=
  vmap_get LevelInput.asDriven x.present n

theorem Overlay.reset_codes (r k : Fin 64) : Overlay.reset.codes[r][k] = .transparent := by
  simp [Overlay.reset]

theorem Store.reset_palettes (p : Fin 8) (i : Fin 256) : Store.reset.palettes[p][i] = ⟨0, 0, 0, 0, 0⟩ := by
  simp [Store.reset]

theorem Store.reset_overlays (o : Fin 16) : Store.reset.overlays[o] = Overlay.reset := replicate_get _ o

end Sys2Proof.Machine

section
open Sys2Proof.Machine

/-- Settles O3, block by block. -/
theorem powerOnResetLeaves : Obligations.PowerOnResetLeaves := by
  intro s
  refine ⟨s.powerOn, rfl, rfl, ?inputs, rfl, rfl, rfl, ?platens, rfl, ?stations, Track.reset_seg, rfl, rfl, rfl,
    replicate_get _, replicate_get _, rfl, replicate_get _, rfl, rfl, rfl, Store.reset_palettes, ?overlays, rfl, rfl, rfl,
    replicate_get _, rfl, replicate_get _, rfl, rfl, rfl, rfl, rfl, rfl, replicate_get _, rfl, ?links, rfl, rfl,
    Memory.ofCells_wf _⟩
  case inputs => exact ⟨Inputs.asDriven_levels s.inputs, Inputs.asDriven_arrive s.inputs, rfl, rfl, rfl, rfl, rfl⟩
  case platens => exact fun p => ⟨replicate_get _ p, replicate_get _ p⟩
  case stations => exact fun n => ⟨replicate_get _ n, replicate_get _ n⟩
  case overlays =>
    intro o
    have overlay : s.powerOn.store.overlays[o] = Overlay.reset := Store.reset_overlays o
    rw [overlay]
    exact ⟨rfl, rfl, Overlay.reset_codes⟩
  case links => exact fun l => by cases l <;> rfl

/-- Settles O4: the outputs while RESET_N is high, its fall, and what is taken while it is low. -/
theorem outputsFollowBlocks : Obligations.OutputsFollowBlocks := by
  refine ⟨fun s high => ?_, fun s => ?_, fun s low => ⟨exec_low low, ?_, ?_, ?_, ?_⟩⟩
  · rw [State.pins_high high]
    refine ⟨fun n => ⟨?_, ?_⟩, fun z => ?_, Option.isSome_iff_exists, Press.close_iff _, LinkState.pin_sends _,
      LinkState.pin_sends _, LinkState.pin_sends _, LinkState.pin_sends _⟩
    · exact (vmap_get SegState.go s.track.exits n) ▸ SegState.go_iff _
    · exact (vmap_get SegState.go s.track.entries n) ▸ SegState.go_iff _
    · exact (vmap_get Channel.valve s.spray.channels z) ▸ Iff.rfl
  · refine ⟨s.lowerReset, rfl, rfl, s.lowerReset_keeps, s.lowerReset_link, ?_⟩
    rw [State.pins_low rfl]
    exact ⟨fun n => ⟨replicate_get _ n, replicate_get _ n, replicate_get _ n⟩, replicate_get _, rfl, rfl, rfl, rfl, rfl, rfl⟩
  · exact s.exec_emergencyStop.trans (signal_low _ _ s low)
  · exact s.exec_emergencyRelease.trans (signal_low _ _ s low)
  · exact s.exec_pressClosed.trans (signal_low _ _ s low)
  · exact s.exec_pressOpen.trans (signal_low _ _ s low)

/-- Settles O5: the tables of a reset are empty, so that each invariant speaks of nothing. -/
theorem resetHasInvariants : Obligations.ResetHasInvariants :=
  ⟨(trackInv_iff _).2 trackFacts_reset, storeInv_reset, ringInv_reset, catalogueInv_reset, fun l => by
    rw [show State.reset.link l = LinkState.reset l from Links.reset_get l]
    exact linkInv_reset l, Memory.reset_wf, reservationInv_reset, requestInv_reset⟩

end
end
-- ==== Sys2Proof/Proofs/ReadRecords.lean ====
section
/-! PROOF. READ (R170): the model's records are the ones the rules list. -/

namespace Sys2Proof.Machine

/-! ### Codes (R179) -/

section Codes

theorem coded_stage (x : Stage) :
    Reported.coded [Stage.loaded, .matched, .spraying, .pressing, .printWait, .printing, .cureWait, .curing, .released] x = .u8 x.code := by
  cases x <;> rfl

theorem coded_holdReason (x : HoldReason) : Reported.coded [HoldReason.unknownBlank, .noLine] x = .u8 x.code := by
  cases x <;> rfl

theorem coded_disposition (x : Disposition) : Reported.coded [Disposition.good, .reject] x = .u8 x.code := by
  cases x <;> rfl

theorem coded_coverage (x : CoverageState) : Reported.coded [CoverageState.none, .queued, .scanning, .complete] x = .u8 x.code := by
  cases x <;> rfl

theorem coded_pretreatResult (x : PretreatResult) :
    Reported.coded [PretreatResult.pending, .done, .short, .interrupted, .waived] x = .u8 x.code := by
  cases x <;> rfl

theorem coded_pressRecord (x : PressRecord) : Reported.coded [PressRecord.pending, .done, .interrupted, .waived] x = .u8 x.code := by
  cases x <;> rfl

theorem coded_printPhase (x : PrintPhase) : Reported.coded [PrintPhase.none, .underbase, .color, .complete, .aborted] x = .u8 x.code := by
  cases x <;> rfl

theorem coded_cureResult (x : CureResult) : Reported.coded [CureResult.none, .released, .scorched] x = .u8 x.code := by
  cases x <;> rfl

theorem coded_orderStatus (x : OrderStatus) :
    Reported.coded [OrderStatus.opened, .held, .cancelling, .complete, .cancelled] x = .u8 x.code := by
  cases x <;> rfl

theorem coded_lineStatus (x : LineStatus) :
    Reported.coded [LineStatus.opened, .full, .done, .withdrawn, .closed] x = .u8 x.code := by
  cases x <;> rfl

theorem coded_artFormat (x : ArtFormat) : Reported.coded [ArtFormat.idx4, .idx8, .cmyka] x = .u8 x.code := by
  cases x <;> rfl

theorem coded_swathPhase (x : SwathPhase) : Reported.coded [SwathPhase.underbase, .color] x = .u8 x.code := by
  cases x <;> rfl

theorem coded_jamCause (x : JamCause) : Reported.coded [JamCause.timeout, .eStop, .lineReset] x = .u8 x.code := by
  cases x <;> rfl

theorem coded_lineState (x : LineState) : Reported.coded [LineState.census, .stopped, .running] x = .u8 x.code := by
  cases x <;> rfl

theorem coded_pressCause (x : PressCause) : Reported.coded [PressCause.close, .opening] x = .u8 x.code := by
  cases x <;> rfl

theorem mark_eq_flag (b : Bool) : Reported.mark b = .flag b := by
  cases b <;> rfl

theorem segment_eq_number (g : Segment) : Reported.segment g = .u8 (segNumber g) := by
  cases g <;> rfl

theorem recipe_eq_fields (r : Recipe) : Reported.recipe r = recipeFields r := by
  simp only [Reported.recipe, recipeFields, mark_eq_flag]

theorem placement_eq_fields (p : Placement) : Reported.placement p = placementFields p := rfl

theorem place_eq_fields (x : Place) (n : Nat) : Reported.place x n = placeFields x n := by
  cases x with
  | lane m => simp [Reported.place, placeFields, Nat.mul_comm]
  | moving g => simp [Reported.place, placeFields, segment_eq_number]
  | uncertain g => simp [Reported.place, placeFields, segment_eq_number]
  | _ => rfl

end Codes

/-! ### Tables as lists -/

theorem Vector.toList_eq_finRange {α : Type} {n : Nat} (v : Vector α n) : v.toList = (List.finRange n).map fun i => v[i] :=
  List.ext_getElem (by simp) (by simp)

/-! ### The records of R23, R31, R32, R64 and R82 -/

theorem State.platenRecord_reported (s : State) (p : Fin 16) : s.platenRecord p = Reported.platen s p := by
  unfold State.platenRecord Reported.platen
  rw [place_eq_fields]
  cases s.garment p <;> rfl

theorem Garment.fields_reported (g : Garment) : g.fields = Reported.garment g := by
  simp only [Garment.fields, Reported.garment, coded_stage, coded_holdReason, coded_disposition, coded_coverage,
    coded_pretreatResult, coded_pressRecord, coded_printPhase, coded_cureResult, mark_eq_flag, recipe_eq_fields,
    placement_eq_fields, blankFields, classField, PretreatRecord.fields, PrintRecord.fields, CureRecord.fields, Field.word,
    List.append_assoc, List.cons_append, List.nil_append]

theorem Garment.mapFields_reported (g : Garment) (p : Fin 16) : g.mapFields p = Reported.map p g := by
  simp only [Garment.mapFields, Reported.map, Field.word, Vector.toList_eq_finRange, List.flatMap_map, List.map_map]
  rfl

theorem Order.fields_reported (o : Order) : o.fields = Reported.order o := by
  simp only [Order.fields, Reported.order, coded_orderStatus, Field.word]

theorem Line.fields_reported (l : Line) : l.fields = Reported.line l := by
  simp only [Line.fields, Reported.line, coded_lineStatus, placement_eq_fields, Field.word, blankFields, List.cons_append,
    List.nil_append]

theorem Vector.countP_toList {α : Type} {n : Nat} (v : Vector α n) (f : α → Bool) :
    v.toList.countP f = (List.finRange n).countP fun i => f v[i] := by
  rw [Vector.toList_eq_finRange, List.countP_map]
  rfl

theorem Book.pins_eq (b : Book) (h : Fin 64) :
    b.pins h = (List.finRange 512).countP fun k =>
      match b.lines[k] with
      | none => false
      | some l => decide (l.placement.art = h ∧ (l.status = .opened ∨ l.status = .full ∨ l.status = .withdrawn)) := by
  rw [Book.pins, Vector.countP_toList]
  refine congrArg (fun f => List.countP f (List.finRange 512)) (funext fun k => ?_)
  cases b.lines[k] with
  | none => rfl
  | some l => cases e : l.status <;> simp [LineStatus.pins, e, beq_eq_decide]

theorem ArtFormat.rowBytes_eq (f : ArtFormat) (w : Nat) :
    f.rowBytes w = match f with | .idx4 => (w + 1) / 2 | .idx8 => w | .cmyka => 5 * w := by
  cases f with
  | idx4 =>
    simp only [ArtFormat.rowBytes, ceilDiv]
    omega
  | _ => rfl

theorem ArtStatus.code_eq (x : ArtStatus) :
    x.state.code = match x with | .loading => 1 | .verifying => 2 | .ready => 3 | .bad => 4 := by
  cases x <;> rfl

theorem State.artFields_reported (s : State) (h : Fin 64) :
    (match s.art h with | none => [.u8 ArtState.free.code] | some d => s.artFields h d) = Reported.art s h := by
  unfold Reported.art
  cases s.art h with
  | none => rfl
  | some d =>
    simp only [State.artFields, coded_artFormat, ArtStatus.code_eq, Book.pins_eq, Art.rowBytes, ArtFormat.rowBytes_eq, Art.stop,
      Field.word]
    all_goals rfl

/-! ### A shelf slot (R162) -/

theorem CtxPretreat.use_code (p : CtxPretreat) : p.use.code = Reported.pretreatUse p := by
  cases r : p.result <;> cases q : p.press <;> simp [CtxPretreat.use, pretreatUse, Reported.pretreatUse, r, q, Use.code]

theorem CtxPrint.use_code (p : CtxPrint) : p.use.code = Reported.printUse p := by
  cases r : p.phase <;> simp [CtxPrint.use, printUse, Reported.printUse, r, Use.code]

theorem CtxCure.use_code (c : CtxCure) : c.use.code = Reported.cureUse c := by
  cases r : c.result with
  | none =>
    simp only [CtxCure.use, cureUse, Reported.cureUse, r]
    split <;> rfl
  | _ => simp [CtxCure.use, cureUse, Reported.cureUse, r, Use.code]

/-- A set of flags in the bits of a byte, the first in bit 0. -/
theorem flagBits_eq (a b c : Bool) :
    a.toNat + 2 * b.toNat + 4 * c.toNat = (if a then 1 else 0) + (if b then 2 else 0) + (if c then 4 else 0) := by
  cases a <;> cases b <;> cases c <;> rfl

theorem Components.mask_eq (x : Components) : x.mask =
    (if x.ident then 1 else 0) + (if x.pretreat then 2 else 0) + (if x.print then 4 else 0) + (if x.cure then 8 else 0) := by
  rw [Components.mask, flagBits_eq]
  cases x.cure <;> rfl

theorem State.shelfFields_reported (s : State) (i : Fin 8) :
    (match s.shelfSlot i with | none => [.u8 0] | some x => .u8 1 :: s.shelfFields x) = Reported.shelf s i := by
  unfold Reported.shelf
  cases s.shelfSlot i with
  | none => rfl
  | some x =>
    simp only [State.shelfFields, Context.header, CtxIdent.fields, CtxPretreat.use_code, CtxPrint.use_code, CtxCure.use_code,
      coded_coverage, coded_pretreatResult, coded_pressRecord, coded_printPhase, coded_cureResult, recipe_eq_fields,
      placement_eq_fields, Context.present, Components.mask_eq, flagBits_eq, Field.word, blankFields,
      List.append_assoc, List.cons_append, List.nil_append, if_true]
    rfl

/-! ### The swath ring (R122, R123, R137) -/

theorem Ring.level_eq (r : Ring) :
    r.level = if r.occupied = 0 then 0 else if r.occupied = 1 then 1 else if r.occupied ≤ 3 then 2 else 3 := by
  unfold Ring.level
  match r.occupied with
  | 0 => rfl
  | 1 => rfl
  | 2 => rfl
  | 3 => rfl
  | n + 4 => simp

theorem Ring.occupied_eq (r : Ring) :
    r.occupied = (List.finRange 4).countP fun i =>
      match r.slots[i] with
      | none => false
      | some w => decide (w.status = .ready ∨ w.status = .handed) := by
  rw [Ring.occupied, Vector.countP_toList]
  refine congrArg (fun f => List.countP f (List.finRange 4)) (funext fun i => ?_)
  cases r.slots[i] with
  | none => rfl
  | some w => cases e : w.status <;> simp [Swath.produced, e]

theorem swathFields_eq (x : Option Swath) : swathFields x =
    match x with
    | none => [.u8 0]
    | some w =>
      [.u8 (match w.status with | .filling => 1 | .ready => 2 | .handed => 3), .u32 w.serial.toNat, .u8 w.sequence,
       Reported.coded [SwathPhase.underbase, .color] w.phase, .u16 w.rowStart, .u16 w.rows, .u16 w.xStart, .u16 w.width,
       .u32 w.length] := by
  cases x with
  | none => rfl
  | some w =>
    simp only [coded_swathPhase]
    cases e : w.status <;> simp [swathFields, SwathStatus.code, Field.word, e]

theorem unitFields_eq (x : Option RasterUnit) : unitFields x =
    match x with
    | none => [.u8 0]
    | some u =>
      (match u.kind with
        | .band k => [.u8 1, .u8 0, .u8 u.platen.val, .u32 u.serial.toNat, .u8 k]
        | .swath q x index _ =>
          [.u8 1, .u8 1, .u8 u.platen.val, .u32 u.serial.toNat, .u8 q, Reported.coded [SwathPhase.underbase, .color] x,
           .u8 index]) ++
      [.u16 u.first, .u16 u.last, .u16 u.next] := by
  cases x with
  | none => rfl
  | some u =>
    simp only [coded_swathPhase]
    cases e : u.kind <;> simp [unitFields, Field.word, e]

theorem State.sessionFields_eq (s : State) :
    (s.sessionGarment.map fun x =>
      [Field.u8 x.1.platen.val, .word x.1.serial, .u8 x.1.count, .u8 x.2.print.produced, .u8 x.2.print.released]) =
    match s.ring.session with
    | none => none
    | some x => (s.garment x.platen).map fun g =>
        [.u8 x.platen.val, .u32 x.serial.toNat, .u8 x.count, .u8 g.print.produced, .u8 g.print.released] := by
  unfold State.sessionGarment
  cases s.ring.session with
  | none => rfl
  | some x =>
    rw [Option.map_map]
    rfl

theorem State.ringRecord_reported (s : State) : s.ringRecord = Reported.ring s := by
  have slots : swathFields = _ := funext swathFields_eq
  rw [State.ringRecord, State.sessionFields_eq, unitFields_eq, Ring.level_eq, Ring.occupied_eq, slots]
  rfl

/-! ### The line status (R23, R120, R147, R170, R178) -/

theorem Vector.flatMap_toList {α β : Type} {n : Nat} (v : Vector α n) (f : α → List β) :
    v.toList.flatMap f = (List.finRange n).flatMap fun i => f v[i] := by
  rw [Vector.toList_eq_finRange, List.flatMap_map]

theorem State.trackStatus_reported (s : State) : s.trackStatus = Reported.track s := by
  have exits (n : Fin 6) : s.seg (.exit n) = s.track.exits[n] := rfl
  have entries (n : Fin 6) : s.seg (.entry n) = s.track.entries[n] := rfl
  simp only [State.trackStatus, Reported.track, State.segFields, coded_lineState, coded_jamCause, mark_eq_flag,
    Vector.flatMap_toList s.track.exits, Vector.flatMap_toList s.track.entries, exits, entries, Track.laneLoad,
    SegState.load_eq, Field.word]
  all_goals rfl

theorem vmap_toList {α β : Type} {n : Nat} (f : α → β) (v : Vector α n) : (vmap f v).toList = v.toList.map f := by
  simp [vmap, Vector.toList]

section Pretreatment

variable {s : State}

theorem State.pins_valve (high : s.resetLow = false) :
    s.pins.valve.toList.map Field.flag = s.spray.channels.toList.map fun c => Field.flag c.valve := by
  rw [State.pins_high high, State.driven, vmap_toList, List.map_map]
  rfl

theorem State.sprayStatus_idle (high : s.resetLow = false) (idle : s.spray.run = none) : s.sprayStatus =
    [.u8 s.sprayState, .u8 0, .u8 0, .bytes [0], .u8 0] ++ s.spray.channels.toList.map fun c => Field.flag c.valve := by
  rw [State.sprayStatus, State.pins_valve high, State.pins_high high, State.driven, idle]
  rfl

theorem State.sprayStatus_running {r : SprayRun} (high : s.resetLow = false) (runs : s.spray.run = some r) : s.sprayStatus =
    [.u8 2, .u8 r.strobes] ++ optional 1 (r.band.map fun k => [.u8 k]) ++ [.u8 1] ++
      s.spray.channels.toList.map fun c => Field.flag c.valve := by
  rw [State.sprayStatus, State.pins_valve high, State.pins_high high, State.driven, State.sprayState, runs]
  rfl

theorem State.sprayState_empty (idle : s.spray.run = none) (none_ : s.garmentAt 1 = none) : s.sprayState = 0 := by
  simp [State.sprayState, idle, none_]

theorem State.sprayState_here {x : Fin 16 × Garment} (idle : s.spray.run = none) (here : s.garmentAt 1 = some x) :
    s.sprayState = if decide (x.2.disposition = .good ∧ x.2.pretreat.result = .pending) then 1 else 0 := by
  simp [State.sprayState, idle, here, Garment.needsSpraying]

theorem State.pressStatus_eq (high : s.resetLow = false) : s.pressStatus = (match s.press with
    | .idle => [.u8 0, .u8 0]
    | .closing left => [.u8 1, .u16 left, .u8 1]
    | .dwell left => [.u8 2, .u16 left, .u8 1]
    | .opening left => [.u8 3, .u16 left, .u8 0]
    | .fault cause => [.u8 4, .u8 cause.code, .u8 0]) ++
    [.flag s.inputs.pressClosed.level, .flag s.inputs.pressOpen.level] := by
  rw [State.pressStatus, State.pins_high high, State.driven]
  cases s.press <;> rfl

theorem State.pretreatment_reported (high : s.resetLow = false) :
    s.sprayStatus ++ s.pressStatus = Reported.pretreatment s := by
  simp only [Reported.pretreatment, coded_pressCause, mark_eq_flag]
  rw [State.pressStatus_eq high]
  cases run : s.spray.run with
  | some r =>
    rw [State.sprayStatus_running high run]
    simp only [List.append_assoc]
    all_goals rfl
  | none =>
    rw [State.sprayStatus_idle high run]
    cases here : s.garmentAt 1 with
    | none =>
      rw [State.sprayState_empty run here]
      simp only [List.append_assoc]
      all_goals rfl
    | some x =>
      rw [State.sprayState_here run here]
      simp only [List.append_assoc]
      all_goals rfl

end Pretreatment

theorem Cure.fields_reported (c : Cure) : c.fields =
    optional 5 (c.slot.map fun x => [.u8 x.1.val, .u32 x.2.toNat]) ++ optional 2 (c.stale.map fun left => [.u16 left]) := rfl

theorem Indicator.fields_reported (x : Indicator) : x.fields =
    [.u8 x.conditions.toNat, .flag x.blink, .u8 x.onTime, .u8 x.offTime] ++
    (match x.lamp with
      | .off => [.u8 0, .u8 0, .bytes [0, 0, 0]]
      | .steady => [.u8 1, .u8 0, .bytes [0, 0, 0]]
      | .blinkOn left => [.u8 1, .u8 1, .u8 0, .u16 left]
      | .blinkOff left => [.u8 0, .u8 1, .u8 1, .u16 left]) := by
  unfold Indicator.fields
  cases x.lamp <;> rfl

theorem LinkState.fields_reported (k : LinkState) : k.fields =
    [.u8 (match k.receiver with | .hunting => 0 | .receiving _ => 1 | .inBreak => 2)] ++
    (match k.slot with
      | .free => [.u8 0, .bytes [0, 0]]
      | .inFlight tag kind _ => [.u8 1, .u8 tag, .u8 kind]) ++
    [.flag k.silent, .u16 k.discards, .u16 k.mask.toNat, .u8 k.queue.length, .flag k.lost] := by
  unfold LinkState.fields
  cases k.slot <;> cases k.receiver <;> rfl

theorem State.statusRecord_reported {s : State} (high : s.resetLow = false) : s.statusRecord = Reported.status s := by
  have outputs : Indicator.fields = _ := funext Indicator.fields_reported
  simp only [Reported.status, State.statusRecord, State.trackStatus_reported, ← State.pretreatment_reported high,
    Cure.fields_reported, outputs, LinkState.fields_reported, mark_eq_flag, Components.mask_eq, Field.word, List.append_assoc]
  all_goals rfl

/-! ### A READ, answered on the state that has taken it up -/

/-- A ready request is answered as its handler answers on the state that has taken it up, where that changes nothing. -/
theorem answered_unchanged {h : State → Taken} {i : Instr} {v : Via} {kind : Nat} {s : State} {a : Answer}
    (r : Ready s v kind) (e : exec i s = request v kind i h s) (hw : h (s.taken v kind) = (s.taken v kind, some a)) :
    ∃ t, Answered i v kind s t a.code a.body ∧ s.keeps t [] := by
  have constant : Slotless fun t => (t, some a) := fun s l x mode => rfl
  refine answered_of constant r ?_ rfl
  rw [e, request_ready v kind i h s r, request_ready v kind i _ s r]
  simp only [State.handle, hw]

end Sys2Proof.Machine

section
open Sys2Proof.Machine

/-- Settles O53: record kind by record kind. -/
theorem readReportsRecords : Obligations.ReadReportsRecords := by
  intro v kind key option s ready
  have refused {code} (h : State.readRecord kind key option (s.taken v 0x20) = (s.taken v 0x20).refuse code) :
      Refused (.read v kind key option) v 0x20 s code := answered_unchanged ready rfl h
  have replies {body} (h : State.readRecord kind key option (s.taken v 0x20) = (s.taken v 0x20).accept body) :
      Done (.read v kind key option) v 0x20 s body s := answered_unchanged ready rfl h
  have high : (s.taken v 0x20).resetLow = false := ready.1
  refine ⟨fun h => ?_, ?_, ?_, ?_, ?_, ?_, ?_, ?_, ?_⟩
  · refine refused ?_
    match kind, h with
    | n + 8, _ => rfl
  · rintro rfl
    refine ⟨fun h => refused ?_, ?_⟩
    · simp [State.readRecord, State.readPlaten, inRange_out h]
    · rintro p rfl
      refine replies ?_
      simp only [State.readRecord, State.readPlaten, inRange_val, State.platenRecord_reported]
      rfl
  · rintro rfl
    refine ⟨fun h => refused ?_, fun some_ => ⟨fun h => refused ?_, ?_⟩⟩
    · simp [State.readRecord, State.readGarment, h]
    · simp [State.readRecord, State.readGarment, inRange_out h, Nat.not_lt.2 some_]
    rintro p rfl
    have onTaken : (s.taken v 0x20).garment p = s.garment p := rfl
    refine ⟨fun none_ => refused ?_, fun g here => replies ?_⟩
    · simp [State.readRecord, State.readGarment, Nat.not_lt.2 some_, onTaken, none_]
    · simp only [State.readRecord, State.readGarment, inRange_val, Nat.not_lt.2 some_, if_false, onTaken, here,
        Garment.fields_reported, Garment.mapFields_reported]
  · rintro rfl
    have onTaken : (s.taken v 0x20).book = s.book := rfl
    refine ⟨fun none_ => refused ?_, fun o found => replies ?_⟩
    · simp only [State.readRecord, State.readOrder, onTaken, none_]
    · simp only [State.readRecord, State.readOrder, onTaken, found, Order.fields_reported]
  · rintro rfl
    refine ⟨fun h => refused ?_, ?_⟩
    · simp [State.readRecord, State.readLine, inRange_out h]
    rintro i rfl
    have onTaken : (s.taken v 0x20).book = s.book := rfl
    refine ⟨fun none_ => refused ?_, fun l here => replies ?_⟩
    · simp only [State.readRecord, State.readLine, inRange_val, onTaken, none_]
    · simp only [State.readRecord, State.readLine, inRange_val, onTaken, here, Line.fields_reported]
  · rintro rfl
    refine ⟨fun h => refused ?_, ?_⟩
    · simp [State.readRecord, State.readArt, inRange_out h]
    rintro h rfl
    refine replies (.trans ?_ (congrArg (s.taken v 0x20).accept ((s.taken v 0x20).artFields_reported h)))
    simp only [State.readRecord, State.readArt, inRange_val]
    cases (s.taken v 0x20).art h <;> rfl
  · rintro rfl
    refine ⟨fun h => refused ?_, ?_⟩
    · simp [State.readRecord, State.readShelf, inRange_out h]
    rintro i rfl
    refine replies (.trans ?_ (congrArg (s.taken v 0x20).accept ((s.taken v 0x20).shelfFields_reported i)))
    simp only [State.readRecord, State.readShelf, inRange_val]
    cases (s.taken v 0x20).shelfSlot i <;> rfl
  · rintro rfl
    exact replies (congrArg (s.taken v 0x20).accept (s.taken v 0x20).ringRecord_reported)
  · rintro rfl
    exact replies (congrArg (s.taken v 0x20).accept (State.statusRecord_reported high))

end
end
-- ==== Sys2Proof/Proofs/LineReset.lean ====
section
/-! PROOF. LINE_RESET and LINE_RESET_COMPLETE (R171): the reset as one change of the state, block by block. -/

namespace Sys2Proof.Machine

/-! ### What each block is after a line reset -/

/-- R25. -/
def State.clearedTrack (s : State) : Track :=
  { s.haltedTrack .lineReset with stations := vmap (fun x => { x with held := false }) s.track.stations }

/-- A pull with bursts outstanding, which the reset answers STALE (R129). -/
def State.cutPull (s : State) : Option Pull := s.ring.pull.filter fun x => decide (x.next < x.stop)

/-- R81, R101, R171: the bursts granted to abandoned work marked. -/
def Arbiter.cleared (a : Arbiter) (cut : Bool) : Arbiter :=
  let b := ((a.drop .verify .droppedByReset).drop .engine .droppedByReset).mark .engine .aborted .droppedByReset
  if cut then b.drop .pull .droppedByReset else b

/-- The reply STALE given to an abandoned pull. -/
def State.pullAnswered (s : State) : State :=
  match s.cutPull with
  | none => s
  | some x => s.answer x.link ⟨.stale, []⟩

/-- A line reset but for its notices, as one change of the state. -/
def State.cleared (s : State) : State where
  pending := s.pending
  resetLow := s.resetLow
  powerFlag := s.powerFlag
  clock := s.clock
  inputs := s.inputs
  track := s.clearedTrack
  book := { s.book with orders := [], lines := Vector.replicate 512 none }
  units := { s.units with garments := Vector.replicate 16 none }
  store := { s.store with arts := vmap (Option.map Art.unverified) s.store.arts, verifyQueue := [], verify := none }
  arbiter := s.arbiter.cleared s.cutPull.isSome
  mem := s.mem
  engine := ⟨[], none⟩
  spray := Spray.reset
  press := .idle
  ring := { Ring.reset with pull := if s.cutPull.isSome then none else s.ring.pull }
  cure := { s.cure with slot := none, stale := none }
  shelf := { s.shelf with slots := Vector.replicate 8 none }
  links := s.pullAnswered.links.map LinkState.emptyQueue
  lineReset := s.lineReset
  indicators := s.indicators

/-- R171 step 1: the notices a line reset leaves. -/
def State.resetNotices (s : State) : List Notice :=
  .lineState s.clearedTrack.line s.inputs.estop.level s.powerFlag :: s.cancelledNotice

theorem State.resetTrack_eq (s : State) : s.resetTrack = s.setTrack s.clearedTrack := by
  rw [State.resetTrack, State.clearedTrack, ← s.haltedTrack_stations .lineReset, State.haltedTrack]
  generalize e : allSegments.foldl (State.jamMoving .lineReset) s = t
  have rest : t = s.setTrack t.track := e ▸ (s.jamAll_jams .lineReset allSegments).rest
  rw [rest]
  rfl

theorem State.stalePull_eq (s : State) : s.stalePull =
    match s.cutPull with
    | none => s
    | some x => ((s.setRing { s.ring with pull := none }).setArbiter (s.arbiter.drop .pull .droppedByReset)).answer x.link
        ⟨.stale, []⟩ := by
  unfold State.stalePull State.cutPull
  cases s.ring.pull with
  | none => rfl
  | some x => by_cases h : x.next < x.stop <;> simp [h, Option.filter]

theorem State.eq_of_parts {s t : State} (pending : s.pending = t.pending) (resetLow : s.resetLow = t.resetLow)
    (powerFlag : s.powerFlag = t.powerFlag) (clock : s.clock = t.clock) (inputs : s.inputs = t.inputs)
    (track : s.track = t.track) (book : s.book = t.book) (units : s.units = t.units) (store : s.store = t.store)
    (arbiter : s.arbiter = t.arbiter) (mem : s.mem = t.mem) (engine : s.engine = t.engine) (spray : s.spray = t.spray)
    (press : s.press = t.press) (ring : s.ring = t.ring) (cure : s.cure = t.cure) (shelf : s.shelf = t.shelf)
    (links : s.links = t.links) (lineReset : s.lineReset = t.lineReset) (indicators : s.indicators = t.indicators) :
    s = t := by
  cases s
  cases t
  simp_all

/-- The parts of a line reset in their order, the links and their notices apart. -/
def State.emptied (s : State) : State :=
  s.resetTrack.resetBook.resetMatch.resetStore.resetEngine.resetPretreat.resetRing.resetCure.resetShelf

theorem State.emptied_cleared (s : State) : s.emptied.setLinks (s.emptied.links.map LinkState.emptyQueue) = s.cleared := by
  have cut : s.resetTrack.resetBook.resetMatch.resetStore.resetEngine.resetPretreat.cutPull = s.cutPull := by
    simp only [State.cutPull, State.resetTrack_eq, State.resetBook, State.resetMatch, State.resetStore, State.resetEngine,
      State.resetPretreat, State.setPress_ring, State.setSpray_ring, State.setArbiter_ring, State.setEngine_ring,
      State.setStore_ring, State.setUnits_ring, State.setBook_ring, State.setTrack_ring]
  rw [State.emptied, State.resetRing, State.stalePull_eq, cut]
  apply State.eq_of_parts
  all_goals
    cases answered : s.cutPull <;> simp [State.resetTrack_eq, State.resetBook, State.resetMatch, State.resetStore,
      State.resetEngine, State.resetPretreat, State.resetCure, State.resetShelf, State.cleared, State.pullAnswered, answered,
      Arbiter.cleared, State.answer, State.putLink, State.link]

/-- The reset, its blocks' parts taken together. -/
theorem State.clearLine_eq (s : State) : s.clearLine = s.cleared.raiseAll s.resetNotices := by
  have blocks : s.clearLine = (s.emptied.setLinks (s.emptied.links.map LinkState.emptyQueue)).raiseAll
      ((s.emptied.setLinks (s.emptied.links.map LinkState.emptyQueue)).lineStateNotice :: s.cancelledNotice) := by
    simp only [State.clearLine, State.emptied]
  have notices : s.cleared.lineStateNotice :: s.cancelledNotice = s.resetNotices := by
    simp only [State.lineStateNotice, State.resetNotices, State.cleared]
  rw [blocks, State.emptied_cleared, notices]

/-! ### The arbiter -/

/-- R171: the work a line reset abandons with a burst granted to it. -/
def Granted.abandoned (g : Granted) (cut : Bool) : Prop :=
  (g.requester = .engine ∧ (g.fate = .live ∨ g.fate = .aborted)) ∨ (g.requester = .verify ∧ g.fate = .live) ∨
    (g.requester = .pull ∧ g.fate = .live ∧ cut = true)

theorem Arbiter.cleared_none {a : Arbiter} (h : a.port = none) (cut : Bool) : (a.cleared cut).port = none := by
  cases cut <;> simp [Arbiter.cleared, Arbiter.drop, Arbiter.mark, h]

theorem Arbiter.cleared_abandoned {a : Arbiter} {g : Granted} (h : a.port = some g) {cut : Bool} (lost : g.abandoned cut) :
    (a.cleared cut).port = some { g with fate := .droppedByReset } := by
  obtain ⟨r, b, f⟩ := g
  rcases lost with ⟨e, f' | f'⟩ | ⟨e, f'⟩ | ⟨e, f', c⟩
  all_goals
    dsimp only at e f'
    subst e f'
  · cases cut <;> simp [Arbiter.cleared, Arbiter.drop, Arbiter.mark, h]
  · cases cut <;> simp [Arbiter.cleared, Arbiter.drop, Arbiter.mark, h]
  · cases cut <;> simp [Arbiter.cleared, Arbiter.drop, Arbiter.mark, h]
  · simp [Arbiter.cleared, Arbiter.drop, Arbiter.mark, h, c]

theorem Arbiter.cleared_other {a : Arbiter} {g : Granted} (h : a.port = some g) {cut : Bool} (kept : ¬g.abandoned cut) :
    (a.cleared cut).port = some g := by
  obtain ⟨r, b, f⟩ := g
  simp only [Granted.abandoned, not_or, not_and] at kept
  obtain ⟨engine, verify, pull⟩ := kept
  cases cut <;> cases r <;> simp_all [Arbiter.cleared, Arbiter.drop, Arbiter.mark]

@[simp] theorem Arbiter.cleared_fairness (a : Arbiter) (cut : Bool) : (a.cleared cut).fairness = a.fairness := by
  cases cut <;> rfl

@[simp] theorem Arbiter.cleared_turn (a : Arbiter) (cut : Bool) : (a.cleared cut).turn = a.turn := by
  cases cut <;> rfl

/-! ### The pull -/

section Pull

variable {s : State} {x : Pull}

theorem State.cutPull_none (h : s.ring.pull = none) : s.cutPull = none := by
  simp [State.cutPull, h]

theorem State.cutPull_cut (h : s.ring.pull = some x) (more : x.next < x.stop) : s.cutPull = some x := by
  simp [State.cutPull, h, more]

theorem State.cutPull_done (h : ∀ x, s.ring.pull = some x → x.stop ≤ x.next) : s.cutPull = none := by
  simpa [State.cutPull, Option.filter_eq_none_iff] using h

theorem State.cutPull_iff : s.cutPull = some x ↔ s.ring.pull = some x ∧ x.next < x.stop := by
  simp [State.cutPull, Option.filter_eq_some_iff]

theorem State.cutPull_isSome : s.cutPull.isSome = true ↔ ∃ x, s.ring.pull = some x ∧ x.next < x.stop := by
  simp only [Option.isSome_iff_exists, State.cutPull_iff]

theorem State.pullAnswered_none (h : s.cutPull = none) : s.pullAnswered = s := by
  simp [State.pullAnswered, h]

theorem State.pullAnswered_cut (h : s.cutPull = some x) : s.pullAnswered = s.answer x.link ⟨.stale, []⟩ := by
  simp [State.pullAnswered, h]

end Pull

/-! ### A completed request's link -/

theorem State.answer_eq_slotted (s : State) (l : Link) (a : Answer) :
    s.answer l a = s.slotted l ((s.link l).complete a).slot (s.link l).silent := by
  have same : (s.link l).complete a = { (s.link l) with slot := ((s.link l).complete a).slot } := by
    unfold LinkState.complete
    repeat' split
    all_goals rfl
  rw [State.answer, State.slotted, same]

theorem LinkState.complete_working {k : LinkState} {tag kind : Nat} (a : Answer) (h : k.slot = .inFlight tag kind .working) :
    (k.complete a).slot = if k.silent then .free else .inFlight tag kind (.ready a) := by
  simp only [LinkState.complete, h]
  split <;> rfl

section Links

variable (s : State) (l : Link)

/-- What an answered pull keeps of every link: all but its slot. -/
theorem State.pullAnswered_keeps {α : Type} (f : LinkState → α) (one : ∀ k a, f (LinkState.complete a k) = f k) :
    f (s.pullAnswered.link l) = f (s.link l) := by
  cases cut : s.cutPull with
  | none => rw [State.pullAnswered_none cut]
  | some x =>
    rw [State.pullAnswered_cut cut]
    by_cases h : x.link = l
    · rw [← h, State.answer, State.putLink_link_self, one]
    · rw [State.answer_link_ne s x.link l _ h]

theorem State.cleared_link : s.cleared.link l = (s.pullAnswered.link l).emptyQueue :=
  Links.get_map LinkState.emptyQueue s.pullAnswered.links l

@[simp] theorem State.cleared_receiver : (s.cleared.link l).receiver = (s.link l).receiver := by
  rw [State.cleared_link]
  exact s.pullAnswered_keeps l LinkState.receiver LinkState.complete_receiver

@[simp] theorem State.cleared_mask : (s.cleared.link l).mask = (s.link l).mask := by
  rw [State.cleared_link]
  exact s.pullAnswered_keeps l LinkState.mask LinkState.complete_mask

@[simp] theorem State.cleared_discards : (s.cleared.link l).discards = (s.link l).discards := by
  rw [State.cleared_link]
  exact s.pullAnswered_keeps l LinkState.discards LinkState.complete_discards

@[simp] theorem State.cleared_busy : (s.cleared.link l).busy = (s.link l).busy := by
  rw [State.cleared_link]
  exact s.pullAnswered_keeps l LinkState.busy LinkState.complete_busy

@[simp] theorem State.cleared_silent : (s.cleared.link l).silent = (s.link l).silent := by
  rw [State.cleared_link]
  exact s.pullAnswered_keeps l LinkState.silent LinkState.complete_silent

@[simp] theorem State.cleared_number : (s.cleared.link l).number = (s.link l).number := by
  rw [State.cleared_link]
  exact s.pullAnswered_keeps l LinkState.number LinkState.complete_number

@[simp] theorem State.cleared_queue : (s.cleared.link l).queue = [] := by
  rw [State.cleared_link]
  rfl

@[simp] theorem State.cleared_lost : (s.cleared.link l).lost = false := by
  rw [State.cleared_link]
  rfl

variable {s l}

/-- A link whose pull is not cut off keeps its slot. -/
theorem State.cleared_slot (h : ∀ x, s.cutPull = some x → x.link ≠ l) : (s.cleared.link l).slot = (s.link l).slot := by
  rw [State.cleared_link]
  cases cut : s.cutPull with
  | none =>
    rw [State.pullAnswered_none cut]
    rfl
  | some x =>
    rw [State.pullAnswered_cut cut, State.answer_link_ne s x.link l _ (h x cut)]
    rfl

theorem State.cleared_slot_cut {x : Pull} {tag kind : Nat} (cut : s.cutPull = some x)
    (works : (s.link x.link).slot = .inFlight tag kind .working) : (s.cleared.link x.link).slot =
      if (s.link x.link).silent then .free else .inFlight tag kind (.ready ⟨.stale, []⟩) := by
  rw [State.cleared_link, State.pullAnswered_cut cut, State.answer, State.putLink_link_self]
  exact LinkState.complete_working _ works

end Links

/-! ### Notices offered to a queue with room for them (R174) -/

/-- The notices of a list that a link takes. -/
def LinkState.takes (k : LinkState) (ns : List Notice) : List Notice :=
  ns.filter fun n => k.mask.getLsbD n.index && decide (k.receiver ≠ .inBreak)

section Offer

variable {k : LinkState} {n : Notice} (time : Word)

theorem LinkState.offer_taken (takes : (k.mask.getLsbD n.index && decide (k.receiver ≠ .inBreak)) = true)
    (room : k.queue.length < 16) : k.offer time n =
      { k with number := k.number + 1, queue := k.queue ++ [⟨k.number, time, n⟩] } := by
  obtain ⟨admits, out⟩ := by simpa using takes
  simp [LinkState.offer, admits, out, room]

theorem LinkState.offer_passed (passes : (k.mask.getLsbD n.index && decide (k.receiver ≠ .inBreak)) = false) :
    k.offer time n = k := by
  by_cases out : k.receiver = .inBreak
  · simp [LinkState.offer, out]
  · have masked : k.mask.getLsbD n.index = false := by simpa [out] using passes
    simp [LinkState.offer, out, masked]

/-- With room for them all, the notices that are taken are queued under the next numbers. -/
theorem LinkState.offerAll_room (ns : List Notice) (k : LinkState) (room : k.queue.length + ns.length ≤ 16) :
    (k.offerAll time ns).queue =
        k.queue ++ (k.takes ns).zipIdx.map (fun x => ⟨k.number + BitVec.ofNat 8 x.2, time, x.1⟩) ∧
      (k.offerAll time ns).number = k.number + BitVec.ofNat 8 (k.takes ns).length ∧ (k.offerAll time ns).lost = k.lost := by
  induction ns generalizing k with
  | nil => simp [LinkState.offerAll, LinkState.takes]
  | cons n ns ih =>
    have step : k.offerAll time (n :: ns) = (k.offer time n).offerAll time ns := rfl
    rw [List.length_cons] at room
    cases taken : k.mask.getLsbD n.index && decide (k.receiver ≠ .inBreak) with
    | true =>
      have takes : k.takes (n :: ns) = n :: k.takes ns := List.filter_cons_of_pos taken
      rw [step, k.offer_taken time taken (by omega), takes]
      obtain ⟨queue, number, lost⟩ := ih
        { k with number := k.number + 1, queue := k.queue ++ [⟨k.number, time, n⟩] } (by simp; omega)
      have next (i : Nat) : k.number + 1 + BitVec.ofNat 8 i = k.number + BitVec.ofNat 8 (i + 1) := by
        rw [BitVec.ofNat_add, BitVec.add_assoc, BitVec.add_comm 1]
        rfl
      refine ⟨?_, ?_, lost⟩
      · rw [queue]
        simp only [List.zipIdx_cons', List.map_cons, List.map_map, List.append_assoc, List.singleton_append,
          Function.comp_def, Prod.map_snd, Prod.map_fst, next]
        simp [LinkState.takes]
      · rw [number, List.length_cons, ← next]
        rfl
    | false =>
      have takes : k.takes (n :: ns) = k.takes ns := List.filter_cons_of_neg (by simpa using taken)
      rw [step, LinkState.offer_passed time taken, takes]
      exact ih k (by omega)

end Offer

/-! ### The whole step -/

/-- The state a line reset leaves before the step settles, on the state that has taken the request up. -/
def State.lineResetTaken (s : State) (v : Via) : State := (s.taken v 0x1C).clearLine.setLineReset (some v.link)

section Whole

variable {s : State} {v : Via}

theorem exec_lineReset_ready (r : Ready s v 0x1C) : exec (.lineReset v) s = .next (s.lineResetTaken v).settle :=
  request_ready v 0x1C (.lineReset v) (State.takeLineReset v.link) s r

/-- A line reset but for its notices, on the state that has taken the request up. -/
theorem State.lineResetTaken_eq : s.lineResetTaken v =
    ((s.taken v 0x1C).cleared.raiseAll (s.taken v 0x1C).resetNotices).setLineReset (some v.link) := by
  rw [State.lineResetTaken, State.clearLine_eq]

@[simp] theorem State.setLineReset_link (s : State) (x : Option Link) (l : Link) : (s.setLineReset x).link l = s.link l := rfl

theorem State.lineResetTaken_link (l : Link) : (s.lineResetTaken v).link l =
    ((s.taken v 0x1C).cleared.link l).offerAll s.clock.time (s.taken v 0x1C).resetNotices := by
  rw [State.lineResetTaken_eq, State.setLineReset_link, State.raiseAll_link]
  rfl

theorem State.taken_settings (l : Link) : ((s.taken v 0x1C).link l).receiver = (s.link l).receiver ∧
    ((s.taken v 0x1C).link l).mask = (s.link l).mask ∧ ((s.taken v 0x1C).link l).discards = (s.link l).discards ∧
    ((s.taken v 0x1C).link l).busy = (s.link l).busy ∧ ((s.taken v 0x1C).link l).number = (s.link l).number := by
  by_cases h : l = v.link
  · rw [h, State.taken_link_self]
    exact ⟨rfl, rfl, rfl, rfl, rfl⟩
  · rw [State.taken_link_ne s v 0x1C l h]
    exact ⟨rfl, rfl, rfl, rfl, rfl⟩

theorem State.lineResetTaken_keeps : s.keeps (s.lineResetTaken v) [.track, .book, .units, .store, .arbiter, .engine, .spray,
    .press, .ring, .cure, .shelf, .lineReset, .notices] := by
  intro p out
  cases p with
  | settings =>
    intro l
    obtain ⟨receiver, mask, discards, busy, -⟩ := State.taken_settings (s := s) (v := v) l
    rw [State.lineResetTaken_link]
    simp [receiver, mask, discards, busy]
  | outputs =>
    intro i
    simp [State.lineResetTaken_eq, State.cleared, State.taken_eq_slotted]
  | _ => simp_all [Part.same, State.lineResetTaken_eq, State.cleared, State.taken_eq_slotted]

/-- No pull waits on the link whose slot the reset's request has taken (R129, R167). -/
theorem RequestInv.pull_elsewhere (inv : RequestInv s) (r : Ready s v 0x1C) {x : Pull} (h : s.ring.pull = some x) :
    x.link ≠ v.link := by
  intro same
  obtain ⟨tag, slot⟩ := inv.pull x h
  have free : (s.link x.link).slot = .free := same ▸ r.2.2.1
  simp [free] at slot

@[simp] theorem State.slotted_cutPull (l : Link) (x : Slot) (mode : Bool) : (s.slotted l x mode).cutPull = s.cutPull := rfl

/-- The reset's own request goes on. -/
theorem State.lineResetTaken_slot (inv : RequestInv s) (r : Ready s v 0x1C) :
    ((s.lineResetTaken v).link v.link).slot = .inFlight v.tag 0x1C .working := by
  have elsewhere (x : Pull) (h : (s.taken v 0x1C).cutPull = some x) : x.link ≠ v.link :=
    inv.pull_elsewhere r (State.cutPull_iff.1 h).1
  rw [State.lineResetTaken_link, LinkState.offerAll_slot, State.cleared_slot elsewhere, State.taken_link_self]

/-- The slot of an abandoned pull is answered STALE. -/
theorem State.lineResetTaken_slot_cut (inv : RequestInv s) (r : Ready s v 0x1C) {x : Pull} {tag kind : Nat}
    (h : s.ring.pull = some x) (more : x.next < x.stop) (works : (s.link x.link).slot = .inFlight tag kind .working) :
    ((s.lineResetTaken v).link x.link).slot =
      if (s.link x.link).silent then .free else .inFlight tag kind (.ready ⟨.stale, []⟩) := by
  have cut : (s.taken v 0x1C).cutPull = some x := State.cutPull_cut h more
  have onTaken := State.taken_link_ne s v 0x1C x.link (inv.pull_elsewhere r h)
  rw [State.lineResetTaken_link, LinkState.offerAll_slot, State.cleared_slot_cut cut (by rw [onTaken, works]), onTaken]

/-- Every other slot stands. -/
theorem State.lineResetTaken_slot_other {m : Link} (other : m ≠ v.link)
    (uncut : ∀ x, s.ring.pull = some x → x.next < x.stop → x.link ≠ m) :
    ((s.lineResetTaken v).link m).slot = (s.link m).slot := by
  have elsewhere (x : Pull) (h : (s.taken v 0x1C).cutPull = some x) : x.link ≠ m :=
    uncut x (State.cutPull_iff.1 h).1 (State.cutPull_iff.1 h).2
  rw [State.lineResetTaken_link, LinkState.offerAll_slot, State.cleared_slot elsewhere, State.taken_link_ne s v 0x1C m other]

theorem State.lineResetTaken_silent {m : Link} (other : m ≠ v.link) :
    ((s.lineResetTaken v).link m).silent = (s.link m).silent := by
  rw [State.lineResetTaken_link, LinkState.offerAll_keeps _ _ LinkState.silent (fun k n => k.offer_silent _ n),
    State.cleared_silent, State.taken_link_ne s v 0x1C m other]

theorem State.resetNotices_length (s : State) : s.resetNotices.length ≤ 16 := by
  rw [State.resetNotices, State.cancelledNotice]
  cases s.sessionGarment <;> simp

/-- R171 step 1, R174: the queue holds the reset's notices under the next numbers. -/
theorem State.lineResetTaken_queue (l : Link) :
    let notices := (s.link l).takes (s.taken v 0x1C).resetNotices
    ((s.lineResetTaken v).settle.link l).lost = false ∧
      ((s.lineResetTaken v).settle.link l).number = (s.link l).number + BitVec.ofNat 8 notices.length ∧
      ((s.lineResetTaken v).settle.link l).queue =
        notices.zipIdx.map fun x => ⟨(s.link l).number + BitVec.ofNat 8 x.2, s.clock.time, x.1⟩ := by
  obtain ⟨receiver, mask, -, -, number⟩ := State.taken_settings (s := s) (v := v) l
  obtain ⟨queue', number', lost'⟩ := LinkState.offerAll_room s.clock.time (s.taken v 0x1C).resetNotices
    ((s.taken v 0x1C).cleared.link l) (by simpa using State.resetNotices_length _)
  rw [← State.lineResetTaken_link] at queue' number' lost'
  have taken : ((s.taken v 0x1C).cleared.link l).takes (s.taken v 0x1C).resetNotices =
      (s.link l).takes (s.taken v 0x1C).resetNotices := by
    simp only [LinkState.takes, State.cleared_mask, State.cleared_receiver, receiver, mask]
  rw [taken, State.cleared_number, number] at queue' number'
  rw [State.cleared_queue, List.nil_append] at queue'
  rw [State.cleared_lost] at lost'
  refine ⟨?_, ?_, ?_⟩
  · rw [State.settle_link]
    rcases LinkState.kick_lost ((s.lineResetTaken v).link l) with e | ⟨e, -⟩
    · rw [e, lost']
    · exact e
  · rw [State.settle_link, LinkState.kick_number, number']
  · rw [State.settle_link, LinkState.kick_queue, queue']

/-! ### The blocks after the step -/

@[simp] theorem State.lineResetTaken_track : (s.lineResetTaken v).track = (s.taken v 0x1C).clearedTrack := by
  simp [State.lineResetTaken_eq, State.cleared]

@[simp] theorem State.lineResetTaken_book :
    (s.lineResetTaken v).book = { s.book with orders := [], lines := Vector.replicate 512 none } := by
  simp [State.lineResetTaken_eq, State.cleared, State.taken_eq_slotted]

@[simp] theorem State.lineResetTaken_units :
    (s.lineResetTaken v).units = { s.units with garments := Vector.replicate 16 none } := by
  simp [State.lineResetTaken_eq, State.cleared, State.taken_eq_slotted]

@[simp] theorem State.lineResetTaken_store : (s.lineResetTaken v).store =
    { s.store with arts := vmap (Option.map Art.unverified) s.store.arts, verifyQueue := [], verify := none } := by
  simp [State.lineResetTaken_eq, State.cleared, State.taken_eq_slotted]

@[simp] theorem State.lineResetTaken_arbiter : (s.lineResetTaken v).arbiter = s.arbiter.cleared s.cutPull.isSome := by
  simp [State.lineResetTaken_eq, State.cleared, State.taken_eq_slotted]

@[simp] theorem State.lineResetTaken_engine : (s.lineResetTaken v).engine = ⟨[], none⟩ := by
  simp [State.lineResetTaken_eq, State.cleared]

@[simp] theorem State.lineResetTaken_spray : (s.lineResetTaken v).spray = Spray.reset := by
  simp [State.lineResetTaken_eq, State.cleared]

@[simp] theorem State.lineResetTaken_press : (s.lineResetTaken v).press = .idle := by
  simp [State.lineResetTaken_eq, State.cleared]

@[simp] theorem State.lineResetTaken_ring : (s.lineResetTaken v).ring =
    { Ring.reset with pull := if s.cutPull.isSome then none else s.ring.pull } := by
  simp only [State.lineResetTaken_eq, State.cleared, State.taken_eq_slotted, State.setLineReset_ring, State.raiseAll_ring,
    State.slotted_cutPull, State.slotted_ring]
  rfl

@[simp] theorem State.lineResetTaken_cure : (s.lineResetTaken v).cure = { s.cure with slot := none, stale := none } := by
  simp [State.lineResetTaken_eq, State.cleared, State.taken_eq_slotted]

@[simp] theorem State.lineResetTaken_shelf :
    (s.lineResetTaken v).shelf = { s.shelf with slots := Vector.replicate 8 none } := by
  simp [State.lineResetTaken_eq, State.cleared, State.taken_eq_slotted]

@[simp] theorem State.lineResetTaken_lineReset : (s.lineResetTaken v).lineReset = some v.link := by
  simp [State.lineResetTaken_eq]

theorem Track.seg_withStations (t : Track) (x : Vector Station 6) (g : Segment) :
    { t with stations := x }.seg g = t.seg g := by
  cases g <;> rfl

theorem State.clearedTrack_seg (u : State) (g : Segment) : u.clearedTrack.seg g = (u.seg g).jammedBy .lineReset := by
  rw [State.clearedTrack, Track.seg_withStations, State.haltedTrack_seg]

theorem State.clearedTrack_places (u : State) : u.clearedTrack.places = (u.haltedTrack .lineReset).places := by
  simp only [State.clearedTrack]

theorem State.clearedTrack_still {u : State} {p : Fin 16} (h : ∀ g start, u.seg g ≠ .moving p start) :
    u.clearedTrack.places[p] = u.place p := by
  rw [State.clearedTrack_places]
  exact u.haltedTrack_still .lineReset h

theorem State.clearedTrack_moved {u : State} {p : Fin 16} {g : Segment} {start : Word} (h : u.seg g = .moving p start)
    (only : ∀ h x, u.seg h = .moving p x → h = g) : u.clearedTrack.places[p] = .uncertain g := by
  rw [State.clearedTrack_places]
  exact u.haltedTrack_moved .lineReset h only

theorem State.clearedTrack_station (u : State) (n : Fin 6) :
    u.clearedTrack.stations[n] = { u.station n with held := false } :=
  vmap_get _ u.track.stations n

/-- The notices of a line reset as the rules name them. -/
theorem State.resetNotices_eq (u : State) : u.resetNotices =
    [.lineState u.clearedTrack.line u.inputs.estop.level u.powerFlag] ++
      match u.ring.session with
      | none => []
      | some x => match u.garment x.platen with
        | none => []
        | some g => [.printCancelled x.platen x.serial x.count g.print.produced g.print.released] := by
  rw [State.resetNotices, State.cancelledNotice, State.sessionGarment]
  cases u.ring.session with
  | none => rfl
  | some x => cases h : u.garment x.platen <;> simp [h]

end Whole

/-! ### The reply (R171) -/

theorem Arbiter.resetBurst_iff (a : Arbiter) :
    a.resetBurst = true ↔ ∃ r b, a.port = some ⟨r, b, .droppedByReset⟩ := by
  unfold Arbiter.resetBurst
  cases a.port with
  | none => simp
  | some g =>
    obtain ⟨r, b, f⟩ := g
    simp

section Complete

variable {s : State} {l : Link}

theorem State.completeLineReset_none (h : s.lineReset = none) : s.completeLineReset = s := by
  simp [State.completeLineReset, h]

theorem State.completeLineReset_waits (h : s.lineReset = some l) (waits : s.arbiter.resetBurst = true) :
    s.completeLineReset = s := by
  simp [State.completeLineReset, h, waits]

theorem State.completeLineReset_replies (h : s.lineReset = some l) (free : s.arbiter.resetBurst = false) :
    s.completeLineReset = (s.setLineReset none).answer l ⟨.ok, []⟩ := by
  simp [State.completeLineReset, h, free]

theorem exec_lineResetComplete (s : State) : exec .lineResetComplete s = event State.completeLineReset s := rfl

theorem State.keeps_lineReset_answer (a : Answer) : s.keeps ((s.setLineReset none).answer l a).settle [.lineReset] := by
  rw [State.answer_eq_slotted]
  intro p out
  have kept := (s.setLineReset none).keeps_slotted_settle l (((s.setLineReset none).link l).complete a).slot
    ((s.setLineReset none).link l).silent p (by simp)
  cases p with
  | lineReset => exact absurd (by simp) out
  | _ => exact kept

end Complete

end Sys2Proof.Machine

section
open Sys2Proof.Machine

/-- Settles O54: the reset block by block, the links, and its reply. -/
theorem lineResetClearsWork : Obligations.LineResetClearsWork := by
  refine ⟨fun v s ready inv => ?reset, fun s high => ⟨fun none_ => ?idle, fun l waits => ⟨?held, ?replies⟩⟩⟩
  case idle => exact leads_of (exec_lineResetComplete s) high (State.completeLineReset_none none_) fun _ => rfl
  case held =>
    intro burst
    exact leads_of (exec_lineResetComplete s) high
      (State.completeLineReset_waits waits ((Arbiter.resetBurst_iff _).2 burst)) fun _ => rfl
  case replies =>
    intro free tag kind works
    have none_ : s.arbiter.resetBurst = false := by
      rw [← Bool.not_eq_true, Arbiter.resetBurst_iff]
      exact fun ⟨r, b, e⟩ => free r b e
    refine ⟨((s.setLineReset none).answer l ⟨.ok, []⟩).settle, ?_, State.keeps_lineReset_answer _, by simp, ?_, fun m => ?_,
      fun m other => ?_⟩
    · rw [exec_lineResetComplete, event_powered _ s high, State.completeLineReset_replies waits none_]
    · rw [State.settle_link, LinkState.kick_slot, State.answer, State.putLink_link_self]
      exact LinkState.complete_working _ works
    · rw [State.settle_link, LinkState.kick_silent]
      by_cases h : m = l
      · rw [h, State.answer, State.putLink_link_self, LinkState.complete_silent, State.setLineReset_link]
      · rw [State.answer_link_ne _ l m _ (Ne.symm h), State.setLineReset_link]
    · rw [State.settle_link, LinkState.kick_slot, State.answer_link_ne _ l m _ (Ne.symm other), State.setLineReset_link]
  case reset =>
    refine ⟨(s.lineResetTaken v).settle, exec_lineReset_ready ready, by simp, ?slot,
      State.keeps_settled State.lineResetTaken_keeps (by simp), fun g => ?seg, fun p still => ?still,
      fun g p start moves only => ?moved, fun n => ⟨?station, ?lane⟩, ?line, by simp, fun i => by simp, by simp, by simp, by simp,
      fun p => ?garment, by simp, fun h d here => ?art, fun h none_ => ?free, by simp, by simp, by simp, by simp, by simp,
      by simp, by simp, fun none_ => ?noBurst, fun g granted => ?burst, by simp, by simp [Spray.reset], fun z => ?channel,
      by simp, fun i => by simp [Ring.reset], by simp [Ring.reset], by simp [Ring.reset], by simp, fun i => by simp, by simp,
      fun none_ => ?noPull, fun x pull more => ?cut, fun x tag kind pull more works => ?stale, fun done => ?done,
      fun m other => ⟨?silent, fun uncut => ?other⟩, fun l => ?notices⟩
    case slot => rw [State.settle_link, LinkState.kick_slot, State.lineResetTaken_slot inv ready]
    case seg =>
      rw [State.seg, State.settle_track, State.lineResetTaken_track, State.clearedTrack_seg]
      cases h : s.seg g <;> simp [State.taken_eq_slotted, h, SegState.jammedBy]
    case still =>
      rw [State.place, State.settle_track, State.lineResetTaken_track]
      exact State.clearedTrack_still (u := s.taken v 0x1C) still
    case moved =>
      rw [State.place, State.settle_track, State.lineResetTaken_track]
      exact State.clearedTrack_moved (u := s.taken v 0x1C) moves only
    case station =>
      rw [State.station, State.settle_track, State.lineResetTaken_track, State.clearedTrack_station]
      rfl
    case lane =>
      rw [State.lane, State.settle_track, State.lineResetTaken_track, State.clearedTrack, State.haltedTrack_lanes,
        State.taken_eq_slotted, State.slotted_track]
      rfl
    case line =>
      rw [State.settle_track, State.lineResetTaken_track, State.clearedTrack, State.haltedTrack_line,
        State.taken_eq_slotted, State.slotted_track]
    case garment => simp [State.garment]
    case art =>
      have one := vmap_get (Option.map Art.unverified) s.store.arts h
      rw [State.art] at here ⊢
      rw [State.settle_store, State.lineResetTaken_store, one, here]
      rfl
    case free =>
      have one := vmap_get (Option.map Art.unverified) s.store.arts h
      rw [State.art] at none_ ⊢
      rw [State.settle_store, State.lineResetTaken_store, one, none_]
      rfl
    case noBurst => rw [State.settle_arbiter, State.lineResetTaken_arbiter, Arbiter.cleared_none none_]
    case burst =>
      have same : g.abandoned s.cutPull.isSome ↔
          (g.requester = .engine ∧ (g.fate = .live ∨ g.fate = .aborted)) ∨ (g.requester = .verify ∧ g.fate = .live) ∨
          (g.requester = .pull ∧ g.fate = .live ∧ ∃ x, s.ring.pull = some x ∧ x.next < x.stop) := by
        rw [Granted.abandoned, State.cutPull_isSome]
      rw [State.settle_arbiter, State.lineResetTaken_arbiter]
      exact ⟨fun lost => Arbiter.cleared_abandoned granted (same.2 lost),
        fun kept => Arbiter.cleared_other granted (mt same.1 kept)⟩
    case channel => simp [Spray.reset, Channel.off]
    case noPull => simp [State.cutPull_none none_, none_]
    case cut => simp [State.cutPull_cut pull more]
    case done => simp [State.cutPull_done done]
    case stale => rw [State.settle_link, LinkState.kick_slot, State.lineResetTaken_slot_cut inv ready pull more works]
    case silent => rw [State.settle_link, LinkState.kick_silent, State.lineResetTaken_silent other]
    case other => rw [State.settle_link, LinkState.kick_slot, State.lineResetTaken_slot_other other uncut]
    case notices =>
      have queued := State.lineResetTaken_queue (s := s) (v := v) l
      rw [State.resetNotices_eq, ← State.lineResetTaken_track, ← State.settle_track] at queued
      exact queued

end
end

