-- ==== Sys2Proof/Proofs/Seen.lean ====
section
/-! PROOF. What the invariants of the Order Book, the stores and the links read of a state, and what each operation
leaves of it as it was. -/

namespace Sys2Proof.Machine

/-- What `ReservationInv` reads: orders, line records, each garment's binding, whether a garment is LOADED and bound all
the same, and the shelf's slots. -/
@[ext] structure Holdings where
  orders : List Order
  lines : Vector (Option Line) 512
  bound : Fin 16 → Option Binding
  loose : Fin 16 → Bool
  slots : Vector (Option ShelfSlot) 8

/-- What the invariants of `EveryStepKeepsStores` read, a link by its invariant, its slot and its transmitter. -/
@[ext] structure Stores where
  catalogue : List CatalogueEntry
  arts : Vector (Option Art) 64
  verifyQueue : List (Fin 64)
  ringSlots : Vector (Option Swath) 4
  ringOrder : List (Fin 4)
  mem : Memory
  pull : Option Link
  write : Option Link
  lineReset : Option Link
  links : Link → Prop × Slot × Transmitter

@[ext] structure Seen where
  holdings : Holdings
  stores : Stores

/-- A LOADED garment that is bound (R53 lets there be none). -/
def Garment.loose (g : Garment) : Bool := g.stage == .loaded && g.binding.isSome

/-- What the invariants read of one link. -/
def LinkState.seen (k : LinkState) : Prop × Slot × Transmitter := (LinkInv k, k.slot, k.tx)

/-- The binding in a platen's slot. -/
def bindingOf (x : Option Garment) : Option Binding := x.bind Garment.binding

def looseIn (x : Option Garment) : Bool := x.any Garment.loose

def State.holdings (s : State) : Holdings where
  orders := s.book.orders
  lines := s.book.lines
  bound := fun p => bindingOf (s.garment p)
  loose := fun p => looseIn (s.garment p)
  slots := s.shelf.slots

def State.stores (s : State) : Stores where
  catalogue := s.book.catalogue
  arts := s.store.arts
  verifyQueue := s.store.verifyQueue
  ringSlots := s.ring.slots
  ringOrder := s.ring.order
  mem := s.mem
  pull := s.ring.pull.map Pull.link
  write := s.store.write.map ArtWrite.link
  lineReset := s.lineReset
  links := fun l => (s.link l).seen

def State.seen (s : State) : Seen := ⟨s.holdings, s.stores⟩

@[simp] theorem bindingOf_some (g : Garment) : bindingOf (some g) = g.binding := (rfl)
@[simp] theorem bindingOf_none : bindingOf none = none := (rfl)
@[simp] theorem looseIn_some (g : Garment) : looseIn (some g) = (g.stage == .loaded && g.binding.isSome) := (rfl)
@[simp] theorem looseIn_none : looseIn none = false := (rfl)

/-! ### The projections -/

section Fields

variable (s : State)

@[simp] theorem State.holdings_orders : s.holdings.orders = s.book.orders := rfl
@[simp] theorem State.holdings_lines : s.holdings.lines = s.book.lines := rfl
@[simp] theorem State.holdings_slots : s.holdings.slots = s.shelf.slots := rfl
theorem State.holdings_bound (p : Fin 16) : s.holdings.bound p = bindingOf (s.garment p) := rfl
theorem State.holdings_loose (p : Fin 16) : s.holdings.loose p = looseIn (s.garment p) := rfl
@[simp] theorem State.stores_catalogue : s.stores.catalogue = s.book.catalogue := rfl
@[simp] theorem State.stores_arts : s.stores.arts = s.store.arts := rfl
@[simp] theorem State.stores_verifyQueue : s.stores.verifyQueue = s.store.verifyQueue := rfl
@[simp] theorem State.stores_ringSlots : s.stores.ringSlots = s.ring.slots := rfl
@[simp] theorem State.stores_ringOrder : s.stores.ringOrder = s.ring.order := rfl
@[simp] theorem State.stores_mem : s.stores.mem = s.mem := rfl
@[simp] theorem State.stores_pull : s.stores.pull = s.ring.pull.map Pull.link := rfl
@[simp] theorem State.stores_write : s.stores.write = s.store.write.map ArtWrite.link := rfl
@[simp] theorem State.stores_lineReset : s.stores.lineReset = s.lineReset := rfl
@[simp] theorem State.stores_links : s.stores.links = fun l => (s.link l).seen := rfl

end Fields

/-- Both halves of what is seen, from the whole. -/
theorem State.holdings_of_seen {s t : State} (h : t.seen = s.seen) : t.holdings = s.holdings :=
  congrArg Seen.holdings h

theorem State.stores_of_seen {s t : State} (h : t.seen = s.seen) : t.stores = s.stores :=
  congrArg Seen.stores h

/-! ### Notices (R174) -/

theorem LinkInv.offer_iff (k : LinkState) (time : Word) (n : Notice) : LinkInv (k.offer time n) ↔ LinkInv k := by
  have depth : (k.offer time n).queue.length ≤ 16 ↔ k.queue.length ≤ 16 := by
    unfold LinkState.offer
    repeat' split
    · rfl
    · rfl
    · simp; omega
    · rfl
  exact ⟨fun ⟨d, c, q⟩ => ⟨depth.1 d, by simpa using c, by simpa using q⟩,
    fun ⟨d, c, q⟩ => ⟨depth.2 d, by simpa using c, by simpa using q⟩⟩

@[simp] theorem LinkState.offer_seen (k : LinkState) (time : Word) (n : Notice) : (k.offer time n).seen = k.seen := by
  simp [LinkState.seen, LinkInv.offer_iff]

section Primitives

variable (s : State)

@[simp] theorem State.raise_seen (n : Notice) : (s.raise n).seen = s.seen := by
  simp only [State.seen, State.stores, State.raise_link, LinkState.offer_seen]
  rfl

@[simp] theorem State.raiseAll_seen (ns : List Notice) : (s.raiseAll ns).seen = s.seen := by
  induction ns generalizing s with
  | nil => rfl
  | cons n r ih => rw [State.raiseAll_cons, ih, State.raise_seen]

/-! ### Blocks that are not seen -/

@[simp] theorem State.setClock_seen (x : Clock) : (s.setClock x).seen = s.seen := rfl
@[simp] theorem State.setInputs_seen (x : Inputs) : (s.setInputs x).seen = s.seen := rfl
@[simp] theorem State.setTrack_seen (x : Track) : (s.setTrack x).seen = s.seen := rfl
@[simp] theorem State.setArbiter_seen (x : Arbiter) : (s.setArbiter x).seen = s.seen := rfl
@[simp] theorem State.setEngine_seen (x : Engine) : (s.setEngine x).seen = s.seen := rfl
@[simp] theorem State.setSpray_seen (x : Spray) : (s.setSpray x).seen = s.seen := rfl
@[simp] theorem State.setPress_seen (x : Press) : (s.setPress x).seen = s.seen := rfl
@[simp] theorem State.setCure_seen (x : Cure) : (s.setCure x).seen = s.seen := rfl
@[simp] theorem State.setIndicators_seen (x : Vector Indicator 6) : (s.setIndicators x).seen = s.seen := rfl
@[simp] theorem State.setPowerFlag_seen (x : Bool) : (s.setPowerFlag x).seen = s.seen := rfl
@[simp] theorem State.takeSerial_seen : s.takeSerial.seen = s.seen := rfl
@[simp] theorem State.putPlace_seen (p : Fin 16) (x : Place) : (s.putPlace p x).seen = s.seen := rfl
@[simp] theorem State.putStation_seen (n : Fin 6) (x : Station) : (s.putStation n x).seen = s.seen := rfl
@[simp] theorem State.putLane_seen (n : Fin 6) (x : List (Fin 16)) : (s.putLane n x).seen = s.seen := rfl
@[simp] theorem State.putSeg_seen (g : Segment) (x : SegState) : (s.putSeg g x).seen = s.seen := by cases g <;> rfl
@[simp] theorem State.putChannel_seen (z : Fin 8) (x : Channel) : (s.putChannel z x).seen = s.seen := rfl
@[simp] theorem State.setPermit_seen (x : Components) : (s.setShelf { s.shelf with permit := x }).seen = s.seen := rfl
@[simp] theorem State.setRecipes_seen (x : Vector Recipe 16) : (s.setBook { s.book with recipes := x }).seen = s.seen := rfl
@[simp] theorem State.setPalettes_seen (x : Vector (Vector Ink 256) 8) :
    (s.setStore { s.store with palettes := x }).seen = s.seen := rfl
@[simp] theorem State.setOverlays_seen (x : Vector Overlay 16) :
    (s.setStore { s.store with overlays := x }).seen = s.seen := rfl
@[simp] theorem State.setVerify_seen (x : Option VerifyPass) :
    (s.setStore { s.store with verify := x }).seen = s.seen := rfl
@[simp] theorem State.setSession_seen (x : Option Session) : (s.setRing { s.ring with session := x }).seen = s.seen := rfl

@[simp] theorem State.setArbiter_garment (x : Arbiter) (p : Fin 16) : (s.setArbiter x).garment p = s.garment p := rfl
@[simp] theorem State.setEngine_garment (x : Engine) (p : Fin 16) : (s.setEngine x).garment p = s.garment p := rfl
@[simp] theorem State.setRing_garment (x : Ring) (p : Fin 16) : (s.setRing x).garment p = s.garment p := rfl
@[simp] theorem State.setCure_garment (x : Cure) (p : Fin 16) : (s.setCure x).garment p = s.garment p := rfl
@[simp] theorem State.setBook_garment (x : Book) (p : Fin 16) : (s.setBook x).garment p = s.garment p := rfl
@[simp] theorem State.setStore_garment (x : Store) (p : Fin 16) : (s.setStore x).garment p = s.garment p := rfl
@[simp] theorem State.raise_garment (x : Notice) (p : Fin 16) : (s.raise x).garment p = s.garment p := rfl
@[simp] theorem State.raiseAll_garment (x : List Notice) (p : Fin 16) : (s.raiseAll x).garment p = s.garment p := by
  simp [State.garment]

/-! ### Halves -/

@[simp] theorem State.setStore_holdings (x : Store) : (s.setStore x).holdings = s.holdings := rfl
@[simp] theorem State.setRing_holdings (x : Ring) : (s.setRing x).holdings = s.holdings := rfl
@[simp] theorem State.setMem_holdings (x : Memory) : (s.setMem x).holdings = s.holdings := rfl
@[simp] theorem State.setLinks_holdings (x : Links) : (s.setLinks x).holdings = s.holdings := rfl
@[simp] theorem State.putArt_holdings (h : Fin 64) (x : Option Art) : (s.putArt h x).holdings = s.holdings := rfl
@[simp] theorem State.setUnits_stores (x : Match) : (s.setUnits x).stores = s.stores := rfl
@[simp] theorem State.setShelf_stores (x : Shelf) : (s.setShelf x).stores = s.stores := rfl
@[simp] theorem State.putGarment_stores (p : Fin 16) (x : Option Garment) : (s.putGarment p x).stores = s.stores := rfl
@[simp] theorem State.putShelf_stores (i : Fin 8) (x : Option ShelfSlot) : (s.putShelf i x).stores = s.stores := rfl

/-- A line or order written leaves the catalogue. -/
theorem State.setBook_stores (x : Book) (h : x.catalogue = s.book.catalogue) : (s.setBook x).stores = s.stores := by
  simp only [State.stores, State.setBook_book, h]
  rfl

/-! ### Garment records -/

open Function (update update_apply) in
theorem State.putGarment_bound (p q : Fin 16) (x : Option Garment) :
    (s.putGarment p x).garment q = update (s.garment) p x q := by
  by_cases e : p = q
  · subst e; simp
  · rw [State.putGarment_garment_ne s p q x e, update_apply, if_neg (Ne.symm e)]

open Function (update update_apply) in
/-- What a garment record written shows. -/
theorem State.putGarment_seen_update (p : Fin 16) (x : Option Garment) : (s.putGarment p x).seen =
    { s.seen with holdings := { s.holdings with
        bound := update s.holdings.bound p (bindingOf x), loose := update s.holdings.loose p (looseIn x) } } := by
  have bound : (fun q => bindingOf ((s.putGarment p x).garment q)) = update s.holdings.bound p (bindingOf x) := by
    funext q
    rw [State.putGarment_bound, update_apply, update_apply]
    split <;> rfl
  have loose : (fun q => looseIn ((s.putGarment p x).garment q)) = update s.holdings.loose p (looseIn x) := by
    funext q
    rw [State.putGarment_bound, update_apply, update_apply]
    split <;> rfl
  rw [← bound, ← loose]
  rfl

/-- A record written with the binding and the stage that stood there. -/
@[simp] theorem State.putGarment_seen (p : Fin 16) (x : Option Garment) (b : bindingOf x = bindingOf (s.garment p))
    (l : looseIn x = looseIn (s.garment p)) : (s.putGarment p x).seen = s.seen := by
  rw [State.putGarment_seen_update, b, l, ← State.holdings_bound, ← State.holdings_loose, Function.update_eq_self, Function.update_eq_self]
  rfl

end Primitives
end Sys2Proof.Machine
end

