-- ==== Sys2Proof/Proofs/SeenOps.lean ====
section
/-! PROOF. What the operations of the line's blocks leave of what the invariants read (`State.seen`). -/

namespace Sys2Proof.Machine

/-! ### Whose record a lookup returns -/

section Lookups

variable {s : State} {p : Fin 16} {g : Garment}

theorem State.garment_of_garmentAt {n : Fin 6} (h : s.garmentAt n = some (p, g)) : s.garment p = some g :=
  (State.garmentAt_iff.1 h).2.2

theorem State.garment_of_sprayed {r : Recipe} (h : s.sprayed = some (p, g, r)) : s.garment p = some g :=
  State.garment_of_garmentAt (State.sprayed_garmentAt h).1

theorem State.garment_of_pressed {r : Recipe} (h : s.pressed = some (p, g, r)) : s.garment p = some g := by
  unfold State.pressed at h
  split at h
  · cases h
  next q x e =>
    obtain ⟨b, -, same⟩ := Option.map_eq_some_iff.1 h
    obtain ⟨rfl, rfl, -⟩ : q = p ∧ x = g ∧ b.recipe = r := by simpa using same
    exact State.garment_of_garmentAt e

theorem State.garment_of_unitGarment {u : RasterUnit} {b : Binding} (h : s.unitGarment u = some (g, b)) :
    s.garment u.platen = some g := by
  unfold State.unitGarment at h
  split at h
  · cases h
  next x e =>
    split at h
    · obtain ⟨c, -, same⟩ := Option.map_eq_some_iff.1 h
      obtain ⟨rfl, -⟩ : x = g ∧ c = b := by simpa using same
      exact e
    · cases h

theorem State.garment_of_sessionGarment {x : Session} (h : s.sessionGarment = some (x, g)) :
    s.garment x.platen = some g := by
  unfold State.sessionGarment at h
  split at h
  · cases h
  next y e =>
    obtain ⟨c, here, same⟩ := Option.map_eq_some_iff.1 h
    obtain ⟨rfl, rfl⟩ : y = x ∧ c = g := by simpa using same
    exact here

theorem State.garment_of_sessionReady {b : Binding} (h : s.sessionReady = some (p, g, b)) : s.garment p = some g := by
  unfold State.sessionReady at h
  split at h
  · cases h
  next q x e =>
    repeat' split at h
    all_goals cases h
    exact State.garment_of_garmentAt e

end Lookups

section Same

variable (s : State)

@[simp] theorem State.withdrawJob_seen (p : Fin 16) (g : Garment) : (s.withdrawJob p g).seen = s.seen := by
  unfold State.withdrawJob
  split <;> simp

@[simp] theorem State.appendJob_seen (p : Fin 16) (w : Word) (c : Option Nat) : (s.appendJob p w c).seen = s.seen := by
  unfold State.appendJob
  split <;> simp

@[simp] theorem State.engineIdle_seen : s.engineIdle.seen = s.seen := rfl

@[simp] theorem State.holdNoLine_seen {p : Fin 16} {g : Garment} (h : s.garment p = some g) :
    (s.holdNoLine p g).seen = s.seen := by
  unfold State.holdNoLine
  split
  · rfl
  · simp [h]

/-! ### Spray and press -/

@[simp] theorem State.setPressRecord_seen (r : PressRecord) : (s.setPressRecord r).seen = s.seen := by
  unfold State.setPressRecord
  split
  · rfl
  next e => simp [State.garment_of_garmentAt e]

@[simp] theorem State.pressClosed_seen : s.pressClosed.seen = s.seen := by
  unfold State.pressClosed
  dsimp only
  split <;> rfl

@[simp] theorem State.dwellExpiry_seen : s.dwellExpiry.seen = s.seen := by
  unfold State.dwellExpiry
  split <;> simp

@[simp] theorem State.pressOpened_seen : s.pressOpened.seen = s.seen := by
  unfold State.pressOpened
  dsimp only
  split <;> simp

@[simp] theorem State.pressFaulted_seen (c : PressCause) : (s.pressFaulted c).seen = s.seen := by
  unfold State.pressFaulted
  dsimp only
  split <;> simp

@[simp] theorem State.closeTimeout_seen : s.closeTimeout.seen = s.seen := by
  unfold State.closeTimeout
  split <;> simp

@[simp] theorem State.openTimeout_seen : s.openTimeout.seen = s.seen := by
  unfold State.openTimeout
  split <;> simp

@[simp] theorem State.interruptPress_seen : s.interruptPress.seen = s.seen := by
  unfold State.interruptPress
  split <;> simp

@[simp] theorem State.pressReleased_seen : s.pressReleased.seen = s.seen := by
  unfold State.pressReleased
  split <;> simp

@[simp] theorem State.bandStrobe_seen : s.bandStrobe.seen = s.seen := by
  unfold State.bandStrobe
  split
  next e => split <;> simp [State.garment_of_sprayed e]
  · rfl

@[simp] theorem State.finishSpray_seen : s.finishSpray.seen = s.seen := by
  unfold State.finishSpray
  split
  next e => simp [State.garment_of_sprayed e]
  · rfl

@[simp] theorem State.interruptSpray_seen : s.interruptSpray.seen = s.seen := by
  unfold State.interruptSpray
  split
  next e => simp [State.garment_of_sprayed e]
  · rfl

@[simp] theorem State.valveClose_seen (z : Fin 8) : (State.valveClose z s).seen = s.seen := by
  unfold State.valveClose
  dsimp only
  repeat' split
  all_goals simp

@[simp] theorem State.pulseReload_seen (z : Fin 8) : (State.pulseReload z s).seen = s.seen := by
  unfold State.pulseReload
  split
  next e =>
    dsimp only
    split <;> simp [State.garment_of_sprayed e]
  · rfl

@[simp] theorem State.channelExhausted_seen (z : Fin 8) : (State.channelExhausted z s).seen = s.seen := by
  unfold State.channelExhausted
  dsimp only
  repeat' split
  all_goals simp

/-! ### Curing, band units -/

@[simp] theorem State.staleExpiry_seen : s.staleExpiry.seen = s.seen := by
  unfold State.staleExpiry
  split
  · dsimp only
    split
    · simp
    next e => split <;> simp [show s.garment _ = _ from e]
  · rfl

@[simp] theorem State.bandUnitBegin_seen : s.bandUnitBegin.seen = s.seen := by
  unfold State.bandUnitBegin State.beginBand
  split
  · split
    · rfl
    next e =>
      repeat' split
      all_goals simp [e]
  · rfl

@[simp] theorem State.handBand_seen (u : RasterUnit) (k : Nat) : (s.handBand u k).seen = s.seen := by
  unfold State.handBand
  split
  · rfl
  next e =>
    have e := State.garment_of_unitGarment e
    split
    · rfl
    · dsimp only
      split <;> simp [e]

@[simp] theorem State.bandUnitEnd_seen : s.bandUnitEnd.seen = s.seen := by
  unfold State.bandUnitEnd
  repeat' split
  all_goals simp

@[simp] theorem State.discardSwathUnit_seen (p : Fin 16) (w : Word) : (s.discardSwathUnit p w).seen = s.seen := by
  unfold State.discardSwathUnit
  dsimp only
  repeat' split
  all_goals simp

@[simp] theorem State.discardSwathUnit_garment (p q : Fin 16) (w : Word) :
    (s.discardSwathUnit p w).garment q = s.garment q := by
  unfold State.discardSwathUnit
  dsimp only
  repeat' split
  all_goals simp

@[simp] theorem State.deliverEngine_seen (d : BurstData) : (s.deliverEngine d).seen = s.seen := by
  unfold State.deliverEngine
  split <;> rfl

/-! ### The track -/

@[simp] theorem State.setLine_seen (x : LineState) : (s.setLine x).seen = s.seen := by
  unfold State.setLine
  split <;> simp

@[simp] theorem State.stopLine_seen : s.stopLine.seen = s.seen := by
  unfold State.stopLine
  split <;> simp

@[simp] theorem State.joinLane_seen (n : Fin 6) (p : Fin 16) : (s.joinLane n p).seen = s.seen := by
  simp [State.joinLane]

@[simp] theorem State.platenMoved_seen (p : Fin 16) (g : Option Segment) : (s.platenMoved p g).seen = s.seen := by
  simp [State.platenMoved]

@[simp] theorem State.endDeclare_seen (p : Fin 16) : (s.endDeclare p).1.seen = s.seen := by
  simp only [State.endDeclare, State.accept_fst]
  split <;> simp

@[simp] theorem State.moveStart_seen (g : Segment) : (State.moveStart g s).seen = s.seen := by
  unfold State.moveStart
  repeat' split
  all_goals simp [State.carry]

@[simp] theorem State.jamSeg_seen (g : Segment) (p : Fin 16) (c : JamCause) : (s.jamSeg g p c).seen = s.seen := by
  simp [State.jamSeg]

@[simp] theorem State.jamMoving_seen (c : JamCause) (g : Segment) : (State.jamMoving c s g).seen = s.seen := by
  unfold State.jamMoving
  split <;> simp

@[simp] theorem State.jamAll_seen (c : JamCause) (l : List Segment) :
    (l.foldl (State.jamMoving c) s).seen = s.seen := by
  induction l generalizing s with
  | nil => rfl
  | cons g l ih => rw [List.foldl_cons, ih, State.jamMoving_seen]

@[simp] theorem State.moveTimeout_seen (g : Segment) : (State.moveTimeout g s).seen = s.seen := by
  unfold State.moveTimeout
  repeat' split
  all_goals simp

@[simp] theorem State.emergencyStop_seen : s.emergencyStop.seen = s.seen := by
  unfold State.emergencyStop State.stopTrack
  split <;> simp

@[simp] theorem State.emergencyRelease_seen : s.emergencyRelease.seen = s.seen := by
  unfold State.emergencyRelease
  split <;> simp

@[simp] theorem State.resetTrack_seen : s.resetTrack.seen = s.seen := by
  simp [State.resetTrack]

@[simp] theorem State.lineResume_seen : s.lineResume.1.seen = s.seen := by
  unfold State.lineResume
  repeat' split
  all_goals simp

@[simp] theorem State.stationHold_seen (n : Nat) : (State.stationHold n s).1.seen = s.seen := by
  unfold State.stationHold
  split <;> simp

@[simp] theorem State.stationRelease_seen (n : Nat) : (State.stationRelease n s).1.seen = s.seen := by
  unfold State.stationRelease
  repeat' split
  all_goals simp

/-! ### Requests that read or set what is not seen -/

@[simp] theorem State.classSet_seen (c : Nat) (r : Recipe) : (State.classSet c r s).1.seen = s.seen := by
  unfold State.classSet
  split <;> simp

@[simp] theorem State.classGet_seen (c : Nat) : (State.classGet c s).1.seen = s.seen := by
  unfold State.classGet
  split <;> rfl

@[simp] theorem State.catalogueGet_seen (b : BlankCode) : (State.catalogueGet b s).1.seen = s.seen := by
  unfold State.catalogueGet
  split <;> rfl

@[simp] theorem State.paletteSet_seen (p f : Nat) (e : List Ink) : (State.paletteSet p f e s).1.seen = s.seen := by
  unfold State.paletteSet
  repeat' split
  all_goals simp

@[simp] theorem State.paletteGet_seen (p f c : Nat) : (State.paletteGet p f c s).1.seen = s.seen := by
  unfold State.paletteGet
  split <;> rfl

@[simp] theorem State.overlaySet_seen (o : Nat) (c : Option (Cmyk × Cmyk)) (f : Nat) (r : List (Vector OverlayCode 64)) :
    (State.overlaySet o c f r s).1.seen = s.seen := by
  unfold State.overlaySet
  repeat' split
  all_goals simp

@[simp] theorem State.overlayGet_seen (o f c : Nat) : (State.overlayGet o f c s).1.seen = s.seen := by
  unfold State.overlayGet
  split <;> rfl

@[simp] theorem State.rateTableSet_seen (b : Vector RateBand 8) : (State.rateTableSet b s).1.seen = s.seen := by
  unfold State.rateTableSet
  dsimp only
  split <;> simp

@[simp] theorem State.rateTableGet_seen : (State.rateTableGet s).1.seen = s.seen := rfl

@[simp] theorem State.shelfPermitSet_seen (m : Nat) : (State.shelfPermitSet m s).1.seen = s.seen := by
  unfold State.shelfPermitSet
  split <;> simp

@[simp] theorem State.clearPowerFlag_seen : (State.clearPowerFlag s).1.seen = s.seen := rfl

@[simp] theorem State.assignIndicator_seen (o : Nat) (c : Byte) (m a b : Nat) :
    (State.assignIndicator o c m a b s).1.seen = s.seen := by
  unfold State.assignIndicator
  repeat' split
  all_goals simp

/-- A READ changes nothing. -/
theorem State.readRecord_fst (kind key option : Nat) : (State.readRecord kind key option s).1 = s := by
  unfold State.readRecord
  repeat' split
  all_goals
    simp only [State.readPlaten, State.readGarment, State.readOrder, State.readLine, State.readArt, State.readShelf,
      State.refuse_fst, State.accept_fst]
    try repeat' split
    all_goals simp

@[simp] theorem State.readRecord_seen (kind key option : Nat) : (State.readRecord kind key option s).1.seen = s.seen := by
  rw [State.readRecord_fst]

end Same
end Sys2Proof.Machine
end

