-- ==== Sys2Proof/Proofs/SeenStages.lean ====
section
/-! PROOF. The operations that move a garment on to another stage: nothing else that the invariants read changes, and no
garment becomes LOADED. -/

namespace Sys2Proof.Machine

/-- `b` shows what `a` does, but for LOADED and bound garments that have come to another stage. -/
def Seen.calmer (a b : Seen) : Prop :=
  ∃ f : Fin 16 → Bool, b = { a with holdings := { a.holdings with loose := fun p => a.holdings.loose p && f p } }

@[simp] theorem Seen.calmer_refl (a : Seen) : a.calmer a := ⟨fun _ => true, by simp⟩

theorem Seen.calmer.stores {a b : Seen} (h : a.calmer b) : b.stores = a.stores := by
  obtain ⟨f, rfl⟩ := h
  rfl

/-- A garment comes to another stage than LOADED, its binding as it was. -/
theorem State.putGarment_calmer {s : State} {p : Fin 16} {g x : Garment} (h : s.garment p = some g)
    (b : x.binding = g.binding) (stage : x.stage ≠ .loaded) : s.seen.calmer (s.putGarment p (some x)).seen := by
  have bound : bindingOf (some x) = s.holdings.bound p := by simp [State.holdings_bound, h, b]
  have still : looseIn (some x) = false := by simp [stage]
  have loose : Function.update s.holdings.loose p false = fun q => s.holdings.loose q && decide (q ≠ p) := by
    funext q
    by_cases e : q = p <;> simp [e]
  refine ⟨fun q => decide (q ≠ p), ?_⟩
  rw [State.putGarment_seen_update, bound, still, Function.update_eq_self, loose]
  rfl

section Ops

variable (s : State)

theorem State.cureEntry_calmer (p : Fin 16) : s.seen.calmer (s.cureEntry p).seen := by
  unfold State.cureEntry
  split
  · simp
  next g here =>
    split
    · simp
    · split
      · exact State.putGarment_calmer here rfl (by simp)
      · simp

theorem State.arriveUnload_calmer (p : Fin 16) : s.seen.calmer (s.arriveUnload p).seen := by
  unfold State.arriveUnload
  split
  · simp
  next g here =>
    split
    · exact State.putGarment_calmer here rfl (by simp)
    · simp

theorem State.leavePress_calmer (p : Fin 16) : s.seen.calmer (s.leavePress p).seen := by
  unfold State.leavePress
  split
  · simp
  next g here =>
    split
    · exact State.putGarment_calmer here rfl (by simp)
    · simp

theorem State.arrival_calmer (n : Fin 6) (p : Fin 16) : s.seen.calmer (s.arrival n p).seen := by
  unfold State.arrival
  split
  · exact s.cureEntry_calmer p
  · exact s.arriveUnload_calmer p
  · simp

theorem State.departure_calmer (n : Fin 6) (p : Fin 16) : s.seen.calmer (s.departure n p).seen := by
  unfold State.departure
  split
  · exact s.leavePress_calmer p
  · simp

theorem State.placeAt_calmer (n : Fin 6) (p : Fin 16) : s.seen.calmer (s.placeAt n p).seen := by
  unfold State.placeAt
  simpa using State.arrival_calmer ((s.putStation n { s.station n with occupant := some p, reserved := false }).putPlace p
    (.station n)) n p

theorem State.vacate_calmer (n : Fin 6) (p : Fin 16) : s.seen.calmer (s.vacate n p).seen := by
  unfold State.vacate
  simpa using State.departure_calmer (s.putStation n { s.station n with occupant := none }) n p

theorem State.joinLane_vacate_calmer (n : Fin 6) (p : Fin 16) : s.seen.calmer ((s.joinLane n p).vacate n p).seen := by
  simpa using (s.joinLane n p).vacate_calmer n p

theorem State.endMove_calmer (g : Segment) (p : Fin 16) : s.seen.calmer (s.endMove g p).seen := by
  cases g with
  | exit n => simpa [State.endMove] using s.joinLane_vacate_calmer n p
  | entry n => simpa [State.endMove] using s.placeAt_calmer (nextStation n) p

theorem State.arrive_calmer (g : Segment) : s.seen.calmer (State.arrive g s).seen := by
  unfold State.arrive
  split
  · simp
  · exact s.endMove_calmer g _
  · simp

theorem State.platenDeclare_calmer (platen : Nat) (x : PlaceArg) :
    s.seen.calmer (State.platenDeclare platen x s).1.seen := by
  unfold State.platenDeclare
  repeat' split
  case h_1.isFalse p _ _ _ n _ _ => simpa using s.placeAt_calmer n p
  all_goals simp

theorem State.confirm_calmer (g : Segment) (p : Fin 16) (c : Confirmed) : s.seen.calmer (s.confirm g p c).seen := by
  cases g with
  | exit n =>
    cases c with
    | station m => simp [State.confirm]
    | lane m => exact s.joinLane_vacate_calmer n p
  | entry n =>
    cases c with
    | station m => exact s.placeAt_calmer (nextStation n) p
    | lane m => simp [State.confirm]

theorem State.jamConfirm_calmer (platen : Nat) (x : PlaceArg) : s.seen.calmer (State.jamConfirm platen x s).1.seen := by
  unfold State.jamConfirm
  repeat' split
  case h_1.isFalse.isFalse p c _ _ _ g _ _ _ => simpa using s.confirm_calmer g p c
  all_goals simp

theorem State.serviceOut_calmer (platen : Nat) : s.seen.calmer (State.serviceOut platen s).1.seen := by
  unfold State.serviceOut
  repeat' split
  case h_1.isTrue p _ _ n _ _ => simpa using s.vacate_calmer n p
  all_goals simp

theorem State.serviceIn_calmer (platen : Nat) : s.seen.calmer (State.serviceIn platen s).1.seen := by
  unfold State.serviceIn
  repeat' split
  case h_2.isTrue p _ _ => simpa using s.placeAt_calmer 0 p
  all_goals simp

theorem State.pressStart_calmer : s.seen.calmer s.pressStart.seen := by
  unfold State.pressStart
  split
  · simp
  next h =>
    split
    · exact State.putGarment_calmer (State.garment_of_pressed h) rfl (by simp)
    · simp

theorem State.sprayStart_calmer : s.seen.calmer s.sprayStart.seen := by
  unfold State.sprayStart
  split
  · simp
  next h =>
    have here := State.garment_of_sprayed h
    split
    · simp
    · split
      · simp [here]
      · exact State.putGarment_calmer here rfl (by simp)

theorem State.sessionOpen_calmer : s.seen.calmer s.sessionOpen.seen := by
  unfold State.sessionOpen
  split
  next h =>
    split
    · simp
    · rw [State.raise_seen, State.setSession_seen]
      exact State.putGarment_calmer (State.garment_of_sessionReady h) rfl (by simp)
  · simp

theorem State.printEndOk_calmer : s.seen.calmer s.printEndOk.1.seen := by
  unfold State.printEndOk
  split
  · simp
  next h =>
    split
    · simp
    · rw [State.accept_fst, State.setSession_seen]
      exact State.putGarment_calmer (State.garment_of_sessionGarment h) rfl (by simp)

/-- A verdict leaves the binding, and the stage or RELEASED. -/
theorem State.judged_calmer {p : Fin 16} {g : Garment} (here : s.garment p = some g) (c : CureRecord) (r : CureResult) :
    s.seen.calmer (s.putGarment p (some (g.judged c r))).seen := by
  cases r with
  | released => exact State.putGarment_calmer here rfl (by simp [Garment.judged])
  | none => simp [here, Garment.judged]
  | scorched => simp [here, Garment.judged]

theorem State.sampleGarment_calmer {p : Fin 16} {g : Garment} (here : s.garment p = some g) (b : Binding) (z : Int) :
    s.seen.calmer (s.sampleGarment p g b z).1.seen := by
  simp only [State.sampleGarment, State.accept_fst, State.raiseAll_seen]
  split <;> exact s.judged_calmer here _ _

theorem State.cureSample_calmer (platen : Nat) (z : Int) : s.seen.calmer (State.cureSample platen z s).1.seen := by
  unfold State.cureSample
  repeat' split
  case h_2 here _ _ _ _ => exact s.sampleGarment_calmer here _ z
  all_goals simp

end Ops
end Sys2Proof.Machine
end

