-- ==== Sys2Proof/Proofs/BookFacts.lean ====
section
/-! PROOF. The Order Book's operations, each as one change of the book and a list of notices (R33 to R45). -/

namespace Sys2Proof.Machine

/-! ### Orders by number -/

theorem Book.find_mem {b : Book} {n : Word} {o : Order} (h : b.find n = some o) : o ∈ b.orders ∧ o.number = n :=
  ⟨List.mem_of_find?_eq_some h, by simpa using List.find?_some h⟩

/-- Where no number stands twice, an order is found under its number. -/
theorem Book.find_of_mem {b : Book} (numbers : (b.orders.map Order.number).Nodup) {o : Order} (h : o ∈ b.orders) :
    b.find o.number = some o := by
  cases e : b.find o.number with
  | none => simpa using List.find?_eq_none.1 e o h
  | some x =>
    obtain ⟨here, same⟩ := Book.find_mem e
    rw [List.inj_on_of_nodup_map numbers here h same]

theorem Book.find_eq_none {b : Book} {n : Word} : b.find n = none ↔ ∀ o ∈ b.orders, o.number ≠ n := by
  simp [Book.find]

@[simp] theorem Book.find_putLine (b : Book) (i : Fin 512) (x : Option Line) (n : Word) :
    (b.putLine i x).find n = b.find n := rfl

/-! ### Records written -/

section Fields

variable (b : Book) (i : Fin 512) (x : Option Line) (o : Order)

@[simp] theorem Book.putLine_lines : (b.putLine i x).lines = upd b.lines i x := rfl
@[simp] theorem Book.putLine_orders : (b.putLine i x).orders = b.orders := rfl
@[simp] theorem Book.putLine_catalogue : (b.putLine i x).catalogue = b.catalogue := rfl
@[simp] theorem Book.putLine_recipes : (b.putLine i x).recipes = b.recipes := rfl
@[simp] theorem Book.putLine_sequence : (b.putLine i x).sequence = b.sequence := rfl
@[simp] theorem Book.putOrder_lines : (b.putOrder o).lines = b.lines := rfl
@[simp] theorem Book.putOrder_orders :
    (b.putOrder o).orders = b.orders.map fun y => if y.number = o.number then o else y := rfl
@[simp] theorem Book.putOrder_catalogue : (b.putOrder o).catalogue = b.catalogue := rfl
@[simp] theorem Book.putOrder_recipes : (b.putOrder o).recipes = b.recipes := rfl
@[simp] theorem Book.putOrder_sequence : (b.putOrder o).sequence = b.sequence := rfl

end Fields

/-- The notice of a line under the order that is found for it (R45). -/
theorem Book.lineProgress_eq {b : Book} {l : Line} {o : Order} (h : b.find l.order = some o) (i : Fin 512) :
    b.lineProgress i l =
      .lineProgress i l.order (o.lines.idxOf i) l.quantity l.done l.reserved l.spoiled l.status := by
  simp [Book.lineProgress, h]

/-! ### A line changed (R33, R34, R45) -/

/-- The line as it is stored, its state derived under its order's. -/
def Line.under (l : Line) (o : Order) : Line := { l with status := l.derived o.status }

/-- The order's state once line `i` is stored as `l`. -/
def Book.orderAfter (b : Book) (i : Fin 512) (l : Line) (o : Order) : OrderStatus :=
  (b.putLine i (some (l.under o))).derivedOrder o

/-- The book after line `i` of order `o` is changed to `l`. -/
def Book.changed (b : Book) (i : Fin 512) (l : Line) (o : Order) : Book :=
  let c := b.putLine i (some (l.under o))
  if b.orderAfter i l o = o.status then c else c.putOrder { o with status := b.orderAfter i l o }

/-- The notices of the change, LINE_PROGRESS first. -/
def Book.changeNotices (b : Book) (i : Fin 512) (l : Line) (o : Order) : List Notice :=
  .lineProgress i l.order (o.lines.idxOf i) l.quantity l.done l.reserved l.spoiled (l.derived o.status) ::
    if b.orderAfter i l o = o.status then [] else [.orderState o.number (some (b.orderAfter i l o)) o.sequence]

theorem State.raise_setBook (s : State) (n : Notice) (b : Book) : (s.raise n).setBook b = (s.setBook b).raise n := rfl

theorem State.setBook_setBook (s : State) (b c : Book) : (s.setBook b).setBook c = s.setBook c := rfl

/-- R34 taken on a book: an order whose state stays has no notice. -/
theorem State.deriveOrder_eq {s : State} {n : Word} {o : Order} (h : s.book.find n = some o) : s.deriveOrder n =
    if s.book.derivedOrder o = o.status then s
    else (s.setBook (s.book.putOrder { o with status := s.book.derivedOrder o })).raise
      (.orderState o.number (some (s.book.derivedOrder o)) o.sequence) := by
  simp only [State.deriveOrder, h]
  rfl

theorem State.changeLine_eq {s : State} {i : Fin 512} {l : Line} {o : Order} (h : s.book.find l.order = some o) :
    s.changeLine i l = (s.setBook (s.book.changed i l o)).raiseAll (s.book.changeNotices i l o) := by
  have derived : s.book.deriveLine l = l.under o := by simp [Book.deriveLine, h, Line.under]
  have notice := Book.lineProgress_eq (l := l.under o) (b := s.book) h i
  have found : (s.book.putLine i (some (l.under o))).find l.order = some o := h
  have after := State.deriveOrder_eq
    (s := (s.setBook (s.book.putLine i (some (l.under o)))).raise (s.book.lineProgress i (l.under o))) found
  rw [State.changeLine, derived]
  refine after.trans ?_
  rw [notice, State.raise_setBook, State.setBook_setBook]
  by_cases same : s.book.orderAfter i l o = o.status
  · simp only [Book.changed, Book.changeNotices, same, if_true]
    exact if_pos same
  · simp only [Book.changed, Book.changeNotices, same, if_false]
    exact if_neg same

@[simp] theorem Book.changed_lines (b : Book) (i : Fin 512) (l : Line) (o : Order) :
    (b.changed i l o).lines = upd b.lines i (some (l.under o)) := by
  unfold Book.changed
  dsimp only
  split <;> rfl

@[simp] theorem Book.changed_catalogue (b : Book) (i : Fin 512) (l : Line) (o : Order) :
    (b.changed i l o).catalogue = b.catalogue := by
  unfold Book.changed
  dsimp only
  split <;> rfl

@[simp] theorem Book.changed_recipes (b : Book) (i : Fin 512) (l : Line) (o : Order) :
    (b.changed i l o).recipes = b.recipes := by
  unfold Book.changed
  dsimp only
  split <;> rfl

@[simp] theorem Book.changed_sequence (b : Book) (i : Fin 512) (l : Line) (o : Order) :
    (b.changed i l o).sequence = b.sequence := by
  unfold Book.changed
  dsimp only
  split <;> rfl

theorem Book.changed_orders (b : Book) (i : Fin 512) (l : Line) (o : Order) : (b.changed i l o).orders =
    if b.orderAfter i l o = o.status then b.orders
    else b.orders.map fun y => if y.number = o.number then { o with status := b.orderAfter i l o } else y := by
  unfold Book.changed
  dsimp only
  split <;> rfl

/-- A line without an order is stored as it is. -/
theorem State.changeLine_orphan {s : State} {i : Fin 512} {l : Line} (h : s.book.find l.order = none) :
    s.changeLine i l = (s.setBook (s.book.putLine i (some l))).raise (s.book.lineProgress i l) := by
  have derived : s.book.deriveLine l = l := by simp [Book.deriveLine, h]
  have none_ : (s.book.putLine i (some l)).find l.order = none := h
  simp [State.changeLine, derived, State.deriveOrder, none_]

/-! ### Reservations and counters (R41, R42) -/

theorem State.reserve_eq {s t : State} {i : Fin 512} (h : s.reserve i = some t) :
    ∃ l o, s.book.lines[i] = some l ∧ s.book.find l.order = some o ∧ o.status = .opened ∧ l.status = .opened ∧
      t = s.changeLine i { l with reserved := l.reserved + 1 } := by
  unfold State.reserve at h
  split at h
  · cases h
  next l here =>
    split at h
    · cases h
    next o found =>
      split at h
      next open_ => exact ⟨l, o, here, found, open_.1, open_.2, (Option.some.inj h).symm⟩
      · cases h

theorem State.count_none {s : State} {c : Counter} {i : Fin 512} (h : s.book.lines[i] = none) : s.count c i = (s, false) := by
  unfold State.count
  split
  · rfl
  next e => simp [h] at e

theorem State.count_fst {s : State} {c : Counter} {i : Fin 512} {l : Line} (h : s.book.lines[i] = some l) :
    (s.count c i).1 = s.changeLine i (l.count c) := by
  unfold State.count
  split
  next e => simp [h] at e
  next e =>
    rw [h] at e
    cases e
    rfl

/-! ### Cancelling (R39) -/

/-- R39 step 1, for one line. -/
def Line.cancelled (l : Line) : Line := { l with status := l.derived .cancelling }

theorem Line.cancelled_cancelled (l : Line) : l.cancelled.cancelled = l.cancelled := by
  have status : l.cancelled.derived .cancelling = l.derived .cancelling := by
    by_cases done : l.status = .done
    · simp [Line.cancelled, Line.derived, OrderStatus.withdrawn, done]
    · by_cases free : l.reserved = 0 <;> simp [Line.cancelled, Line.derived, OrderStatus.withdrawn, done, free]
  simp only [Line.cancelled] at status ⊢
  rw [status]

theorem Book.cancelLine_eq (b : Book) (i : Fin 512) :
    b.cancelLine i = { b with lines := upd b.lines i (b.lines[i].map Line.cancelled) } := by
  unfold Book.cancelLine
  split
  next e =>
    have same : upd b.lines i none = b.lines := by
      rw [← e]
      exact upd_self b.lines i
    simp [e, same]
  next l e => simp [e, Book.putLine, Line.cancelled]

/-- Every line of an order cancelled. -/
theorem Book.cancelLines_eq (is : List (Fin 512)) (b : Book) : ∃ lines, is.foldl Book.cancelLine b = { b with lines := lines } ∧
    ∀ k : Fin 512, lines[k] = if k ∈ is then b.lines[k].map Line.cancelled else b.lines[k] := by
  induction is generalizing b with
  | nil => exact ⟨b.lines, rfl, by simp⟩
  | cons i is ih =>
    obtain ⟨lines, same, each⟩ := ih (b.cancelLine i)
    rw [Book.cancelLine_eq] at same each
    refine ⟨lines, ?_, fun k => ?_⟩
    · rw [List.foldl_cons, Book.cancelLine_eq]
      exact same
    · rw [each k]
      simp only [upd_get, List.mem_cons]
      by_cases e : i = k
      · subst e
        cases b.lines[i] <;> simp [Line.cancelled_cancelled]
      · simp [e, Ne.symm e]

/-! ### Retiring (R40) -/

theorem Book.freeLines_eq (is : List (Fin 512)) (b : Book) :
    ∃ lines, is.foldl (fun b i => b.putLine i none) b = { b with lines := lines } ∧
      ∀ k : Fin 512, lines[k] = if k ∈ is then none else b.lines[k] := by
  induction is generalizing b with
  | nil => exact ⟨b.lines, rfl, by simp⟩
  | cons i is ih =>
    obtain ⟨lines, same, each⟩ := ih (b.putLine i none)
    refine ⟨lines, same, fun k => ?_⟩
    rw [each k, Book.putLine_lines, upd_get]
    by_cases e : i = k
    · simp [e]
    · simp [e, Ne.symm e]

/-! ### Posting (R36) -/

/-- Posted lines fill their records and no other. -/
theorem Book.fill_eq (number : Word) (is : List (Fin 512)) (ls : List (PostLine × Placement)) (b : Book) (once : is.Nodup) :
    ∃ lines, b.fill number is ls = { b with lines := lines } ∧ (∀ k, k ∉ is → lines[k] = b.lines[k]) ∧
      ∀ (n : Nat) (k : Fin 512) (x : PostLine × Placement), is[n]? = some k → ls[n]? = some x →
        lines[k] = some (PostLine.record number x.1 x.2) := by
  induction is generalizing b ls with
  | nil =>
    refine ⟨b.lines, ?_, by simp, by simp⟩
    cases ls <;> rfl
  | cons i is ih =>
    obtain ⟨fresh, once⟩ := List.nodup_cons.1 once
    cases ls with
    | nil => exact ⟨b.lines, rfl, by simp, by simp⟩
    | cons x ls =>
      obtain ⟨lines, same, others, filled⟩ := ih ls (b.putLine i (some (PostLine.record number x.1 x.2))) once
      refine ⟨lines, same, fun k out => ?_, fun n k y at_ on => ?_⟩
      · obtain ⟨ne, out⟩ : k ≠ i ∧ k ∉ is := by simpa using out
        rw [others k out, Book.putLine_lines, upd_get_ne _ _ _ _ (Ne.symm ne)]
      · cases n with
        | zero =>
          obtain rfl : i = k := by simpa using at_
          obtain rfl : x = y := by simpa using on
          rw [others i fresh, Book.putLine_lines, upd_get_self]
        | succ n => exact filled n k y (by simpa using at_) (by simpa using on)

theorem Book.mem_freeLines {b : Book} {k : Fin 512} : k ∈ b.freeLines ↔ b.lines[k] = none := by
  simp [Book.freeLines]

theorem Book.freeLines_nodup (b : Book) : b.freeLines.Nodup := (List.nodup_finRange 512).filter _

end Sys2Proof.Machine
end

