-- ==== Sys2Proof/Proofs/Reservations.lean ====
section
/-! PROOF. R41's invariant on the Order Book's tables, and what a changed line, order or binding makes of it. -/

namespace Sys2Proof.Machine

open Function (update update_apply)

/-! ### Counting bindings -/

/-- How many entries of a table name line `i`. -/
def naming {n : Nat} (f : Fin n → Option (Fin 512)) (i : Fin 512) : Nat := ∑ p, if f p = some i then 1 else 0

theorem naming_update {n : Nat} (f : Fin n → Option (Fin 512)) (p : Fin n) (x : Option (Fin 512)) (i : Fin 512) :
    naming (update f p x) i + (if f p = some i then 1 else 0) = naming f i + if x = some i then 1 else 0 := by
  have rest : ∑ q ∈ Finset.univ.erase p, (if update f p x q = some i then 1 else 0) =
      ∑ q ∈ Finset.univ.erase p, if f q = some i then 1 else 0 :=
    Finset.sum_congr rfl fun q hq => by rw [update_apply, if_neg (Finset.ne_of_mem_erase hq)]
  have before := Finset.add_sum_erase Finset.univ (fun q => if f q = some i then 1 else 0) (Finset.mem_univ p)
  have after := Finset.add_sum_erase Finset.univ (fun q => if update f p x q = some i then 1 else 0) (Finset.mem_univ p)
  rw [rest, Function.update_self] at after
  unfold naming
  omega

/-- A table's count under a test is the number of its entries that name the line. -/
theorem countP_eq_naming {α : Type} {n : Nat} (v : Vector α n) (f : α → Option (Fin 512)) (test : α → Bool) (i : Fin 512)
    (same : ∀ x, test x = true ↔ f x = some i) : v.toList.countP test = naming (fun p => f v[p]) i := by
  have sum (l : List (Fin n)) : l.countP (fun p => test v[p]) = (l.map fun p => if f v[p] = some i then 1 else 0).sum := by
    induction l with
    | nil => rfl
    | cons p l ih =>
      rw [List.countP_cons, List.map_cons, List.sum_cons, ih, Nat.add_comm]
      simp only [same]
  rw [Vector.countP_toList, sum, naming, Fin.sum_univ_def]

/-- The line a binding names. -/
def lineOf (x : Option Binding) : Option (Fin 512) := x.map Binding.line

/-- The line a shelf slot's context names. -/
def shelfLine (x : Option ShelfSlot) : Option (Fin 512) := x.map fun x => x.context.ident.line

/-- R41's number of garments and contexts bound to a line. -/
def Holdings.bindings (h : Holdings) (i : Fin 512) : Nat :=
  naming (fun p => lineOf (h.bound p)) i + naming (fun k => shelfLine h.slots[k]) i

theorem State.bindings_eq (s : State) : s.bindings = s.holdings.bindings := by
  funext i
  refine congrArg₂ (· + ·) (countP_eq_naming _ (fun x => lineOf (bindingOf x)) _ i fun x => ?_)
    (countP_eq_naming _ shelfLine _ i fun x => ?_)
  · cases x with
    | none => simp [boundTo, lineOf]
    | some g => cases e : g.binding <;> simp [boundTo, lineOf, e]
  · cases x <;> simp [shelvedFor, shelfLine]

/-- A binding written over another: the one's line gains what the other's loses. -/
theorem Holdings.bindings_bound (h : Holdings) (p : Fin 16) (b : Option Binding) (l : Fin 16 → Bool) (i : Fin 512) :
    Holdings.bindings { h with bound := update h.bound p b, loose := l } i + (if lineOf (h.bound p) = some i then 1 else 0) =
      h.bindings i + if lineOf b = some i then 1 else 0 := by
  have lines : (fun q => lineOf (update h.bound p b q)) = update (fun q => lineOf (h.bound q)) p (lineOf b) := by
    funext q
    simp only [update_apply]
    split <;> rfl
  have moved := naming_update (fun q => lineOf (h.bound q)) p (lineOf b) i
  rw [← lines] at moved
  unfold Holdings.bindings
  dsimp only at moved ⊢
  omega

theorem Holdings.bindings_slots (h : Holdings) (k : Fin 8) (x : Option ShelfSlot) (i : Fin 512) :
    Holdings.bindings { h with slots := upd h.slots k x } i + (if shelfLine h.slots[k] = some i then 1 else 0) =
      h.bindings i + if shelfLine x = some i then 1 else 0 := by
  have lines : (fun j => shelfLine (upd h.slots k x)[j]) = update (fun j => shelfLine h.slots[j]) k (shelfLine x) := by
    funext j
    rw [upd_get, update_apply]
    by_cases e : k = j <;> simp [e, eq_comm]
  have moved := naming_update (fun j => shelfLine h.slots[j]) k (shelfLine x) i
  rw [← lines] at moved
  unfold Holdings.bindings
  dsimp only at moved ⊢
  omega

/-! ### The invariant on orders and lines -/

/-- `ReservationInv`'s clauses about orders and lines, where line `i` has `n i` bindings. -/
structure Reserved (orders : List Order) (lines : Vector (Option Line) 512) (n : Fin 512 → Nat) : Prop where
  reserved : ∀ (i : Fin 512) l, lines[i] = some l → l.reserved = n i
  free : ∀ i : Fin 512, lines[i] = none → n i = 0
  owner : ∀ (i : Fin 512) l, lines[i] = some l → ∃ o ∈ orders, o.number = l.order ∧ i ∈ o.lines
  owned : ∀ o ∈ orders, ∀ i ∈ o.lines, ∃ l, lines[i] = some l ∧ l.order = o.number
  numbers : (orders.map Order.number).Nodup
  once : ∀ o ∈ orders, o.lines.Nodup
  within : ∀ (i : Fin 512) l, lines[i] = some l → l.done + l.reserved ≤ l.quantity
  status : ∀ (i : Fin 512) l o, lines[i] = some l → o ∈ orders → o.number = l.order → l.status = l.derived o.status
  finished : ∀ (i : Fin 512) l, lines[i] = some l → l.status = .done → l.reserved = 0
  complete : ∀ o ∈ orders, o.status = .complete → ∀ i ∈ o.lines, lines[i].map Line.status = some .done
  cancelled : ∀ o ∈ orders, o.status = .cancelled → ∀ i ∈ o.lines, lines[i].map Line.status ≠ some .withdrawn

/-- R41's invariant, read of what is held. -/
structure Holdings.held (h : Holdings) : Prop where
  tables : Reserved h.orders h.lines h.bindings
  tidy : ∀ p, h.loose p = false

theorem reservationInv_iff (s : State) : ReservationInv s ↔ s.holdings.held := by
  have tidy : (∀ p, s.holdings.loose p = false) ↔
      ∀ (p : Fin 16) g, s.garment p = some g → g.stage = .loaded → g.binding = none := by
    refine forall_congr' fun p => ?_
    rw [State.holdings_loose]
    cases s.garment p with
    | none => simp
    | some g => simp
  constructor
  · rintro ⟨reserved, free, owner, owned, numbers, once, within, status, finished, complete, cancelled, loaded⟩
    rw [State.bindings_eq] at reserved free
    exact ⟨⟨reserved, free, owner, owned, numbers, once, within, status, finished, complete, cancelled⟩, tidy.2 loaded⟩
  · rintro ⟨⟨reserved, free, owner, owned, numbers, once, within, status, finished, complete, cancelled⟩, loose⟩
    rw [← State.bindings_eq] at reserved free
    exact ⟨reserved, free, owner, owned, numbers, once, within, status, finished, complete, cancelled, tidy.1 loose⟩

/-! ### Lines and orders changed -/

/-- R33: a derived state stays when it is derived again under a state of the order that is withdrawn where that was. -/
theorem Line.derived_again (l : Line) {x y : OrderStatus} (h : x.withdrawn = y.withdrawn) :
    ({ l with status := l.derived x } : Line).derived y = l.derived x := by
  unfold Line.derived
  rw [h]
  cases y.withdrawn with
  | false => rfl
  | true =>
    by_cases done : l.status = .done
    · simp [done]
    · by_cases free : l.reserved = 0 <;> simp [done, free]

theorem Line.derived_of_withdrawn {l : Line} {x y : OrderStatus} (h : x.withdrawn = y.withdrawn) :
    l.derived x = l.derived y := by
  simp [Line.derived, h]

/-- An order whose lines may still change (R34). -/
def OrderStatus.live (x : OrderStatus) : Prop := x ≠ .complete ∧ x ≠ .cancelled

namespace Reserved

variable {orders : List Order} {lines : Vector (Option Line) 512} {n : Fin 512 → Nat}

theorem same_order (h : Reserved orders lines n) {o x : Order} (ho : o ∈ orders) (hx : x ∈ orders)
    (same : o.number = x.number) : o = x :=
  List.inj_on_of_nodup_map h.numbers ho hx same

/-- The order of a line lists it. -/
theorem mem_lines (h : Reserved orders lines n) {i : Fin 512} {l : Line} {o : Order} (here : lines[i] = some l)
    (mem : o ∈ orders) (number : o.number = l.order) : i ∈ o.lines := by
  obtain ⟨x, hx, same, listed⟩ := h.owner i l here
  rwa [h.same_order mem hx (number.trans same.symm)]

/-- A line of one order is in no other's list. -/
theorem order_of_listed (h : Reserved orders lines n) {i : Fin 512} {l : Line} {o : Order} (here : lines[i] = some l)
    (mem : o ∈ orders) (listed : i ∈ o.lines) : o.number = l.order := by
  obtain ⟨k, at_, same⟩ := h.owned o mem i listed
  obtain rfl : l = k := Option.some.inj (here.symm.trans at_)
  exact same.symm

/-- R33, R42: a line of a live order with other counters, its state derived again. -/
theorem change (h : Reserved orders lines n) {i : Fin 512} {l x : Line} {o : Order} (here : lines[i] = some l)
    (mem : o ∈ orders) (number : o.number = l.order) (live : o.status.live) (same : x.order = l.order)
    (stored : x.status = l.status) (fits : x.done + x.reserved ≤ x.quantity)
    (less : o.status.withdrawn = true → x.reserved ≤ l.reserved) :
    Reserved orders (upd lines i (some (x.under o))) (update n i x.reserved) := by
  have listed := h.mem_lines here mem number
  have elsewhere {j : Fin 512} (ne : i ≠ j) : (upd lines i (some (x.under o)))[j] = lines[j] := upd_get_ne _ _ _ _ ne
  have self : (upd lines i (some (x.under o)))[i] = some (x.under o) := upd_get_self _ _ _
  obtain ⟨reserved, free, owner, owned, numbers, once, within, status, finished, complete, cancelled⟩ := h
  have other {y : Order} (hy : y ∈ orders) (le : ¬y.status.live) : i ∉ y.lines := fun hi => by
    obtain ⟨k, at_, eq⟩ := owned y hy i hi
    obtain rfl : l = k := Option.some.inj (here.symm.trans at_)
    exact le (List.inj_on_of_nodup_map numbers mem hy (number.trans eq) ▸ live)
  refine ⟨fun j k at_ => ?_, fun j at_ => ?_, fun j k at_ => ?_, fun y hy j hj => ?_, numbers, once, fun j k at_ => ?_,
    fun j k y at_ hy num => ?_, fun j k at_ fin => ?_, fun y hy st j hj => ?_, fun y hy st j hj => ?_⟩
  all_goals by_cases e : i = j
  all_goals first | subst e | rw [elsewhere e] at *
  all_goals try rw [self] at *
  · obtain rfl := Option.some.inj at_
    simp [Line.under]
  · rw [update_apply, if_neg (Ne.symm e)]
    exact reserved j k at_
  · cases at_
  · rw [update_apply, if_neg (Ne.symm e)]
    exact free j at_
  · obtain rfl := Option.some.inj at_
    exact ⟨o, mem, number.trans same.symm, listed⟩
  · exact owner j k at_
  · obtain ⟨k, at_, eq⟩ := owned y hy i hj
    obtain rfl : l = k := Option.some.inj (here.symm.trans at_)
    exact ⟨_, rfl, same.trans eq⟩
  · exact owned y hy j hj
  · obtain rfl := Option.some.inj at_
    exact fits
  · exact within j k at_
  · obtain rfl := Option.some.inj at_
    obtain rfl : o = y := List.inj_on_of_nodup_map numbers mem hy ((number.trans same.symm).trans num.symm)
    exact (Line.derived_again x rfl).symm
  · exact status j k y at_ hy num
  · obtain rfl := Option.some.inj at_
    have done : x.derived o.status = .done := fin
    unfold Line.derived at done
    cases w : o.status.withdrawn with
    | true =>
      have was : x.status = .done := by
        by_contra no
        simp only [w, if_true, no, if_false] at done
        split at done <;> cases done
      have none_ := finished i l here (stored ▸ was)
      have := less w
      exact Nat.le_zero.1 (none_ ▸ this)
    | false =>
      have full : x.done = x.quantity := by
        by_contra no
        simp only [w, Bool.false_eq_true, if_false, no] at done
        split at done <;> cases done
      show x.reserved = 0
      omega
  · exact finished j k at_ fin
  · exact absurd hj (other hy fun k => k.1 st)
  · exact complete y hy st j hj
  · exact absurd hj (other hy fun k => k.2 st)
  · exact cancelled y hy st j hj

/-- R34, R38: an order's state changed to one that is withdrawn where it was. -/
theorem setOrder (h : Reserved orders lines n) {o : Order} (mem : o ∈ orders) (x : OrderStatus)
    (withdrawn : x.withdrawn = o.status.withdrawn)
    (allDone : x = .complete → ∀ i ∈ o.lines, lines[i].map Line.status = some .done)
    (noneLeft : x = .cancelled → ∀ i ∈ o.lines, lines[i].map Line.status ≠ some .withdrawn) :
    Reserved (orders.map fun y => if y.number = o.number then { o with status := x } else y) lines n := by
  have written {y : Order} (hy : y ∈ orders.map fun y => if y.number = o.number then { o with status := x } else y) :
      y = { o with status := x } ∨ y ∈ orders := by
    obtain ⟨z, hz, rfl⟩ := List.mem_map.1 hy
    split
    · exact .inl rfl
    · exact .inr hz
  have numbers' : (orders.map fun y => if y.number = o.number then { o with status := x } else y).map Order.number =
      orders.map Order.number := by
    rw [List.map_map]
    refine List.map_congr_left fun y _ => ?_
    dsimp only [Function.comp]
    split <;> simp_all
  obtain ⟨reserved, free, owner, owned, numbers, once, within, status, finished, complete, cancelled⟩ := h
  refine ⟨reserved, free, fun i l here => ?_, fun y hy => ?_, numbers' ▸ numbers, fun y hy => ?_, within,
    fun i l y here hy num => ?_, finished, fun y hy st => ?_, fun y hy st => ?_⟩
  · obtain ⟨z, hz, num, listed⟩ := owner i l here
    refine ⟨_, List.mem_map_of_mem hz, ?_⟩
    split
    next e =>
      obtain rfl := List.inj_on_of_nodup_map numbers hz mem e
      exact ⟨num, listed⟩
    · exact ⟨num, listed⟩
  · rcases written hy with rfl | hy
    · exact owned o mem
    · exact owned y hy
  · rcases written hy with rfl | hy
    · exact once o mem
    · exact once y hy
  · rcases written hy with rfl | hy
    · exact (status i l o here mem num).trans (Line.derived_of_withdrawn withdrawn.symm)
    · exact status i l y here hy num
  · rcases written hy with rfl | hy
    · exact allDone st
    · exact complete y hy st
  · rcases written hy with rfl | hy
    · exact noneLeft st
    · exact cancelled y hy st

end Reserved
end Sys2Proof.Machine
end

