-- ==== Sys2Proof/Proofs/ReservationSteps.lean ====
section
/-! PROOF. Every command keeps the reserved counts equal to the bindings (R32 to R34, R41). -/

namespace Sys2Proof.Machine

open Function (update update_apply)

/-! ### What is held, operation by operation -/

/-- What is held with another book. -/
def Holdings.withBook (h : Holdings) (b : Book) : Holdings := { h with orders := b.orders, lines := b.lines }

/-- What is held with another garment record. -/
def Holdings.withGarment (h : Holdings) (p : Fin 16) (x : Option Garment) : Holdings :=
  { h with bound := update h.bound p (bindingOf x), loose := update h.loose p (looseIn x) }

/-- What is held with another shelf slot. -/
def Holdings.withSlot (h : Holdings) (k : Fin 8) (x : Option ShelfSlot) : Holdings := { h with slots := upd h.slots k x }

/-- R41's invariant of a state. -/
def State.held (s : State) : Prop := s.holdings.held

theorem State.held_of_holdings {s t : State} (e : t.holdings = s.holdings) (h : s.held) : t.held := by
  rwa [State.held, e]

theorem State.held_of_seen {s t : State} (e : t.seen = s.seen) (h : s.held) : t.held :=
  State.held_of_holdings (State.holdings_of_seen e) h

theorem State.held_of_calmer {s t : State} (c : s.seen.calmer t.seen) (h : s.held) : t.held := by
  obtain ⟨f, e⟩ := c
  have e : t.holdings = { s.holdings with loose := fun p => s.holdings.loose p && f p } := congrArg Seen.holdings e
  rw [State.held, e]
  exact ⟨h.tables, fun p => by simp [h.tidy p]⟩

section Holdings

variable (s : State)

@[simp] theorem State.raise_holdings (n : Notice) : (s.raise n).holdings = s.holdings :=
  State.holdings_of_seen (s.raise_seen n)

@[simp] theorem State.raiseAll_holdings (ns : List Notice) : (s.raiseAll ns).holdings = s.holdings :=
  State.holdings_of_seen (s.raiseAll_seen ns)

@[simp] theorem State.withdrawJob_holdings (p : Fin 16) (g : Garment) : (s.withdrawJob p g).holdings = s.holdings :=
  State.holdings_of_seen (s.withdrawJob_seen p g)

@[simp] theorem State.appendJob_holdings (p : Fin 16) (w : Word) (c : Option Nat) :
    (s.appendJob p w c).holdings = s.holdings :=
  State.holdings_of_seen (s.appendJob_seen p w c)

@[simp] theorem State.takeSerial_holdings : s.takeSerial.holdings = s.holdings := rfl
@[simp] theorem State.setArbiter_holdings (x : Arbiter) : (s.setArbiter x).holdings = s.holdings := rfl
@[simp] theorem State.setEngine_holdings (x : Engine) : (s.setEngine x).holdings = s.holdings := rfl
@[simp] theorem State.setBook_holdings (x : Book) : (s.setBook x).holdings = s.holdings.withBook x := rfl
@[simp] theorem State.putShelf_holdings (k : Fin 8) (x : Option ShelfSlot) :
    (s.putShelf k x).holdings = s.holdings.withSlot k x := rfl

@[simp] theorem State.putGarment_holdings (p : Fin 16) (x : Option Garment) :
    (s.putGarment p x).holdings = s.holdings.withGarment p x :=
  congrArg Seen.holdings (s.putGarment_seen_update p x)

/-- A record written with the binding and the stage that stood there. -/
theorem State.putGarment_holdings_same {p : Fin 16} {g x : Garment} (here : s.garment p = some g)
    (b : x.binding = g.binding) (st : x.stage = g.stage) : (s.putGarment p (some x)).holdings = s.holdings :=
  State.holdings_of_seen (by simp [here, b, st])

end Holdings

/-- A changed line touches the book and the links alone. -/
theorem State.changeLine_frame (s : State) (i : Fin 512) (l : Line) :
    ∃ b ns, s.changeLine i l = (s.setBook b).raiseAll ns ∧ b.catalogue = s.book.catalogue := by
  cases h : s.book.find l.order with
  | none => exact ⟨_, [_], State.changeLine_orphan h, rfl⟩
  | some o => exact ⟨_, _, State.changeLine_eq h, by simp⟩

theorem State.changeLine_holdings (s : State) (i : Fin 512) (l : Line) :
    (s.changeLine i l).holdings = s.holdings.withBook (s.changeLine i l).book := by
  obtain ⟨b, ns, e, -⟩ := s.changeLine_frame i l
  simp [e]

@[simp] theorem State.changeLine_units (s : State) (i : Fin 512) (l : Line) : (s.changeLine i l).units = s.units := by
  obtain ⟨b, ns, e, -⟩ := s.changeLine_frame i l
  simp [e]

@[simp] theorem State.changeLine_shelf (s : State) (i : Fin 512) (l : Line) : (s.changeLine i l).shelf = s.shelf := by
  obtain ⟨b, ns, e, -⟩ := s.changeLine_frame i l
  simp [e]

theorem State.count_frame (s : State) (c : Counter) (i : Fin 512) : (s.count c i).1 = s ∨
    ∃ l, s.book.lines[i] = some l ∧ (s.count c i).1 = s.changeLine i (l.count c) := by
  cases h : s.book.lines[i] with
  | none => exact .inl (by rw [State.count_none h])
  | some l => exact .inr ⟨l, rfl, State.count_fst h⟩

theorem State.count_holdings (s : State) (c : Counter) (i : Fin 512) :
    (s.count c i).1.holdings = s.holdings.withBook (s.count c i).1.book := by
  rcases s.count_frame c i with e | ⟨l, -, e⟩
  · rw [e]
    rfl
  · rw [e, State.changeLine_holdings]

/-! ### R34 under a live order -/

theorem Book.derivedOrder_withdrawn (b : Book) (o : Order) : (b.derivedOrder o).withdrawn = o.status.withdrawn := by
  unfold Book.derivedOrder
  split
  next e => rw [e]; split <;> rfl
  next e => rw [e]; split <;> rfl
  next e => rw [e]; split <;> rfl
  next e => rw [e]
  next e => rw [e]

theorem Book.derivedOrder_complete {b : Book} {o : Order} (live : o.status.live) (h : b.derivedOrder o = .complete) :
    ∀ i ∈ o.lines, b.lines[i].map Line.status = some .done := by
  unfold Book.derivedOrder at h
  split at h
  next => split at h
          next all => exact fun i hi => by simpa [Book.lineStatus] using List.all_eq_true.1 all i hi
          next => cases h
  next => split at h
          next all => exact fun i hi => by simpa [Book.lineStatus] using List.all_eq_true.1 all i hi
          next => cases h
  next => split at h <;> cases h
  next e => exact absurd e live.1
  next => cases h

theorem Book.derivedOrder_cancelled {b : Book} {o : Order} (live : o.status.live) (h : b.derivedOrder o = .cancelled) :
    ∀ i ∈ o.lines, b.lines[i].map Line.status ≠ some .withdrawn := by
  unfold Book.derivedOrder at h
  split at h
  next => split at h <;> cases h
  next => split at h <;> cases h
  next =>
    split at h
    next => cases h
    next some_ => exact fun i hi e => some_ (List.any_eq_true.2 ⟨i, hi, beq_iff_eq.2 e⟩)
  next => cases h
  next e => exact absurd e live.2

namespace Reserved

variable {b : Book} {n : Fin 512 → Nat}

theorem find_order (h : Reserved b.orders b.lines n) {i : Fin 512} {l : Line} (here : b.lines[i] = some l) :
    ∃ o ∈ b.orders, o.number = l.order ∧ i ∈ o.lines ∧ b.find l.order = some o := by
  obtain ⟨o, mem, number, listed⟩ := h.owner i l here
  exact ⟨o, mem, number, listed, number ▸ Book.find_of_mem h.numbers mem⟩

/-- R33, R34: the book after a line of a live order is changed. -/
theorem changed (h : Reserved b.orders b.lines n) {i : Fin 512} {l x : Line} {o : Order} (here : b.lines[i] = some l)
    (mem : o ∈ b.orders) (number : o.number = l.order) (live : o.status.live) (same : x.order = l.order)
    (stored : x.status = l.status) (fits : x.done + x.reserved ≤ x.quantity)
    (less : o.status.withdrawn = true → x.reserved ≤ l.reserved) :
    Reserved (b.changed i x o).orders (b.changed i x o).lines (update n i x.reserved) := by
  have line := h.change here mem number live same stored fits less
  rw [Book.changed_orders, Book.changed_lines]
  split
  · exact line
  · exact line.setOrder mem _ (Book.derivedOrder_withdrawn _ o) (Book.derivedOrder_complete live)
      (Book.derivedOrder_cancelled live)

/-- A line with a unit reserved is of a live order. -/
theorem live_of_reserved (h : Reserved b.orders b.lines n) {i : Fin 512} {l : Line} {o : Order}
    (here : b.lines[i] = some l) (mem : o ∈ b.orders) (number : o.number = l.order) (unit_ : 0 < l.reserved) :
    o.status.live := by
  have listed := h.mem_lines here mem number
  have notDone : l.status ≠ .done := fun e => by
    have := h.finished i l here e
    omega
  refine ⟨fun e => ?_, fun e => ?_⟩
  · have done := h.complete o mem e i listed
    rw [here] at done
    exact notDone (Option.some.inj done)
  · refine h.cancelled o mem e i listed ?_
    have derived := h.status i l o here mem number
    rw [here, Option.map_some, derived, e]
    simp [Line.derived, OrderStatus.withdrawn, notDone, Nat.pos_iff_ne_zero.1 unit_]

end Reserved

theorem Line.count_reserved (l : Line) (c : Counter) : (l.count c).reserved = l.reserved - 1 := by
  cases c <;> rfl

/-- R42: a counter request takes one from the reserved count of a line that is bound. -/
theorem State.count_tables {s : State} {n : Fin 512 → Nat} (h : Reserved s.book.orders s.book.lines n) (c : Counter)
    {i : Fin 512} (bound : 0 < n i) :
    Reserved (s.count c i).1.book.orders (s.count c i).1.book.lines (update n i (n i - 1)) := by
  cases here : s.book.lines[i] with
  | none =>
    have := h.free i here
    omega
  | some l =>
    have unit_ := h.reserved i l here
    obtain ⟨o, mem, number, -, found⟩ := h.find_order here
    have within := h.within i l here
    have live := h.live_of_reserved here mem number (unit_ ▸ bound)
    have line : s.book.find (l.count c).order = some o := by cases c <;> exact found
    have table := h.changed (x := l.count c) here mem number live (by cases c <;> rfl) (by cases c <;> rfl)
      (by cases c <;> simp only [Line.count] <;> omega) (by rw [Line.count_reserved]; omega)
    rw [State.count_fst here, State.changeLine_eq line, ← unit_, ← l.count_reserved c]
    simpa using table

/-- R41: a reservation adds one to the reserved count of the line. -/
theorem State.reserve_tables {s t : State} {n : Fin 512 → Nat} (h : Reserved s.book.orders s.book.lines n) {i : Fin 512}
    (granted : s.reserve i = some t) :
    Reserved t.book.orders t.book.lines (update n i (n i + 1)) ∧ t.holdings = s.holdings.withBook t.book := by
  obtain ⟨l, o, here, found, orderOpen, lineOpen, rfl⟩ := State.reserve_eq granted
  obtain ⟨mem, number⟩ := Book.find_mem found
  have derived := h.status i l o here mem number
  have room : l.done + l.reserved < l.quantity := by
    have within := h.within i l here
    rw [lineOpen, orderOpen] at derived
    unfold Line.derived at derived
    by_contra full
    have e : l.done + l.reserved = l.quantity := by omega
    simp only [OrderStatus.withdrawn, Bool.false_eq_true, if_false, e, if_true] at derived
    split at derived <;> cases derived
  have table := h.changed (x := { l with reserved := l.reserved + 1 }) here mem number (by simp [OrderStatus.live, orderOpen])
    rfl rfl (by dsimp only; omega) (by simp [orderOpen, OrderStatus.withdrawn])
  refine ⟨?_, State.changeLine_holdings _ _ _⟩
  have line : s.book.find ({ l with reserved := l.reserved + 1 } : Line).order = some o := found
  rw [State.changeLine_eq line, ← h.reserved i l here]
  simpa using table

/-! ### Bindings made and unmade -/

namespace Holdings

variable {h : Holdings}

/-- A garment's record with its binding is removed from tables that have one binding fewer. -/
theorem held.unbind (k : h.held) {b : Book} {n : Fin 512 → Nat} (table : Reserved b.orders b.lines n) (p : Fin 16)
    (fewer : ∀ i, n i + (if lineOf (h.bound p) = some i then 1 else 0) = h.bindings i) :
    ((h.withBook b).withGarment p none).held := by
  have same : n = ((h.withBook b).withGarment p none).bindings := by
    funext i
    have moved : ((h.withBook b).withGarment p none).bindings i + (if lineOf (h.bound p) = some i then 1 else 0) =
      h.bindings i + if lineOf (bindingOf none) = some i then 1 else 0 := (h.withBook b).bindings_bound p _ _ i
    have := fewer i
    simp only [bindingOf_none, lineOf, Option.map_none, reduceCtorEq, if_false] at moved this
    omega
  refine ⟨same ▸ table, fun q => ?_⟩
  show update h.loose p false q = false
  rw [update_apply]
  split
  · rfl
  · exact k.tidy q

/-- An unbound platen's garment is bound in tables that have one binding more. -/
theorem held.bind (k : h.held) {b : Book} {n : Fin 512 → Nat} (table : Reserved b.orders b.lines n) {p : Fin 16}
    (was : h.bound p = none) {g : Garment} (stage : g.stage ≠ .loaded)
    (more : ∀ i, n i = h.bindings i + if lineOf g.binding = some i then 1 else 0) :
    ((h.withBook b).withGarment p (some g)).held := by
  have same : n = ((h.withBook b).withGarment p (some g)).bindings := by
    funext i
    have moved : ((h.withBook b).withGarment p (some g)).bindings i + (if lineOf (h.bound p) = some i then 1 else 0) =
      h.bindings i + if lineOf g.binding = some i then 1 else 0 := (h.withBook b).bindings_bound p _ _ i
    have := more i
    simp only [was, show lineOf none = none from rfl, reduceCtorEq, if_false] at moved
    omega
  refine ⟨same ▸ table, fun q => ?_⟩
  show update h.loose p (looseIn (some g)) q = false
  rw [update_apply]
  split
  · simp [stage]
  · exact k.tidy q

/-- A record without a binding takes the place of one without. -/
theorem held.unbound (k : h.held) {p : Fin 16} (was : h.bound p = none) {x : Option Garment} (free : bindingOf x = none) :
    (h.withGarment p x).held := by
  have same : (h.withGarment p x).bindings = h.bindings := by
    funext i
    have moved : (h.withGarment p x).bindings i + (if lineOf (h.bound p) = some i then 1 else 0) =
      h.bindings i + if lineOf (bindingOf x) = some i then 1 else 0 := h.bindings_bound p _ _ i
    simpa [was, free, lineOf] using moved
  refine ⟨same.symm ▸ k.tables, fun q => ?_⟩
  show update h.loose p (looseIn x) q = false
  rw [update_apply]
  split
  · cases x with
    | none => rfl
    | some g => simp_all
  · exact k.tidy q

end Holdings
end Sys2Proof.Machine
end

