-- ==== Sys2Proof/Proofs/ReservationMatch.lean ====
section
/-! PROOF. Matching, unloading and the shelf keep the reserved counts equal to the bindings (R41, R42, R53). -/

namespace Sys2Proof.Machine

open Function (update update_apply)

/-! ### Slots filled and emptied -/

namespace Holdings

variable (h : Holdings)

theorem withGarment_bindings (p : Fin 16) (x : Option Garment) (i : Fin 512) :
    (h.withGarment p x).bindings i + (if lineOf (h.bound p) = some i then 1 else 0) =
      h.bindings i + if lineOf (bindingOf x) = some i then 1 else 0 := h.bindings_bound p _ _ i

theorem withSlot_bindings (k : Fin 8) (x : Option ShelfSlot) (i : Fin 512) :
    (h.withSlot k x).bindings i + (if shelfLine h.slots[k] = some i then 1 else 0) =
      h.bindings i + if shelfLine x = some i then 1 else 0 := h.bindings_slots k x i

variable {h}

theorem held.withSlot (k : h.held) {b : Book} {n : Fin 512 → Nat} (table : Reserved b.orders b.lines n) (i : Fin 8)
    (x : Option ShelfSlot) (same : ∀ j, n j = ((h.withBook b).withSlot i x).bindings j) :
    ((h.withBook b).withSlot i x).held :=
  ⟨(funext same : n = _) ▸ table, k.tidy⟩

/-- R161: an empty slot takes the binding that was reserved. -/
theorem held.imported (k : h.held) {b : Book} {i : Fin 8} {x : ShelfSlot} {l : Fin 512} (empty : h.slots[i] = none)
    (table : Reserved b.orders b.lines (update h.bindings l (h.bindings l + 1))) (line : x.context.ident.line = l) :
    ((h.withBook b).withSlot i (some x)).held := by
  refine Holdings.held.withSlot k table i _ fun j => ?_
  have slot : ((h.withBook b).withSlot i (some x)).bindings j + (if shelfLine h.slots[i] = some j then 1 else 0) =
    h.bindings j + if shelfLine (some x) = some j then 1 else 0 := (h.withBook b).withSlot_bindings i (some x) j
  rw [empty, show shelfLine none = none from rfl, show shelfLine (some x) = some l from congrArg some line] at slot
  rw [update_apply]
  by_cases at_ : j = l
  · simpa [at_] using slot.symm
  · simpa [at_, Ne.symm at_] using slot.symm

/-- R153: a garment's binding goes to an empty slot. -/
theorem held.shelve (k : h.held) {p : Fin 16} {i : Fin 8} {x : ShelfSlot} (empty : h.slots[i] = none)
    (same : lineOf (h.bound p) = some x.context.ident.line) : ((h.withSlot i (some x)).withGarment p none).held := by
  have bindings : ((h.withSlot i (some x)).withGarment p none).bindings = h.bindings := by
    funext j
    have slot := h.withSlot_bindings i (some x) j
    have garment : _ + (if lineOf (h.bound p) = some j then 1 else 0) = _ :=
      (h.withSlot i (some x)).withGarment_bindings p none j
    rw [empty] at slot
    rw [same, bindingOf_none] at garment
    simp only [show lineOf none = none from rfl, show shelfLine none = none from rfl, reduceCtorEq, if_false] at slot garment
    rw [show shelfLine (some x) = some x.context.ident.line from rfl] at slot
    omega
  refine ⟨bindings.symm ▸ k.tables, fun q => ?_⟩
  show update h.loose p false q = false
  rw [update_apply]
  split
  · rfl
  · exact k.tidy q

/-- R156: a slot's binding goes to an unbound platen. -/
theorem held.restore (k : h.held) {p : Fin 16} {i : Fin 8} {g : Garment} (was : h.bound p = none)
    (stage : g.stage ≠ .loaded) (same : shelfLine h.slots[i] = lineOf g.binding) :
    ((h.withGarment p (some g)).withSlot i none).held := by
  have bindings : ((h.withGarment p (some g)).withSlot i none).bindings = h.bindings := by
    funext j
    have garment := h.withGarment_bindings p (some g) j
    have slot : _ + (if shelfLine h.slots[i] = some j then 1 else 0) = _ :=
      (h.withGarment p (some g)).withSlot_bindings i none j
    rw [bindingOf_some, was] at garment
    rw [same] at slot
    simp only [show lineOf none = none from rfl, show shelfLine none = none from rfl, reduceCtorEq, if_false] at slot garment
    omega
  refine ⟨bindings.symm ▸ k.tables, fun q => ?_⟩
  show update h.loose p (looseIn (some g)) q = false
  rw [update_apply]
  split
  · simp [stage]
  · exact k.tidy q

end Holdings

section Match

variable {s t : State} {p : Fin 16} {g : Garment}

/-- R53: a LOADED garment is unbound. -/
theorem State.held.unbound (k : s.held) (here : s.garment p = some g) (loaded : g.stage = .loaded) : g.binding = none := by
  have := k.tidy p
  rw [State.holdings_loose, here] at this
  simpa [loaded] using this

theorem State.held.bound_none (k : s.held) (here : s.garment p = some g) (loaded : g.stage = .loaded) :
    s.holdings.bound p = none := by
  rw [State.holdings_bound, here, bindingOf_some, k.unbound here loaded]

/-! ### Match, lookup, rematch -/

@[simp] theorem State.bind_holdings (s : State) (p : Fin 16) (g : Garment) (c : Fin 16) (x : Candidate) (l : Line) :
    ∃ y : Garment, (s.bind p g c x l).holdings = s.holdings.withGarment p (some y) ∧ y.stage = .matched ∧
      lineOf y.binding = some x.line :=
  ⟨_, by simp only [State.bind, State.raise_holdings, State.appendJob_holdings, State.putGarment_holdings]; rfl, rfl, rfl⟩

theorem State.reserveAndBind_held (k : s.held) (here : s.garment p = some g) (loaded : g.stage = .loaded) {c : Fin 16}
    {x : Candidate} (e : s.reserveAndBind p g c x = some t) : t.held := by
  unfold State.reserveAndBind at e
  split at e
  next l r _ granted =>
    obtain rfl := Option.some.inj e
    obtain ⟨table, book⟩ := State.reserve_tables k.tables granted
    obtain ⟨y, same, matched, line⟩ := r.bind_holdings p g c x l
    rw [State.held, same, book]
    refine Holdings.held.bind k table (k.bound_none here loaded) (by simp [matched]) fun i => ?_
    rw [line, update_apply]
    by_cases at_ : i = x.line
    · simp [at_]
    · simp [at_, Ne.symm at_]
  · cases e

theorem State.matchAttempt_held (k : s.held) (here : s.garment p = some g) (loaded : g.stage = .loaded) :
    (s.matchAttempt p).held := by
  unfold State.matchAttempt
  split
  · exact k
  next x at_ =>
    obtain rfl : g = x := Option.some.inj (here.symm.trans at_)
    split
    · exact k
    next c _ =>
      have held := State.held_of_seen (s.holdNoLine_seen here) k
      split
      · exact held
      · split
        · exact held
        next e => exact State.reserveAndBind_held k here loaded e

theorem State.lookup_held (k : s.held) (here : s.garment p = some g) (loaded : g.stage = .loaded) : (s.lookup p).held := by
  unfold State.lookup
  split
  · exact k
  next x at_ =>
    obtain rfl : g = x := Option.some.inj (here.symm.trans at_)
    split
    next c _ =>
      have same := s.putGarment_holdings_same (x := { g with cls := some c }) here rfl rfl
      exact State.matchAttempt_held (State.held_of_holdings same k) (s.putGarment_garment_self p _) loaded
    · dsimp only
      split
      · exact State.held_of_holdings (State.putGarment_holdings_same _ here rfl rfl) k
      · exact State.held_of_holdings ((State.raise_holdings _ _).trans (State.putGarment_holdings_same _ here rfl rfl)) k

theorem State.rematch_held (k : s.held) (cause : RematchCause) : (s.rematch cause).held := by
  unfold State.rematch
  split
  · exact k
  next at0 =>
    split
    · exact k
    next loaded =>
      have here := State.garment_of_garmentAt at0
      have loaded := not_not.1 loaded
      cases cause with
      | catalogueWrite => exact State.lookup_held k here loaded
      | other =>
        dsimp only
        split
        · exact State.matchAttempt_held k here loaded
        · exact k

theorem State.rematchIf_held (k : s.held) (raised : Bool) : (s.rematchIf raised).held := by
  unfold State.rematchIf
  split
  · exact State.rematch_held k _
  · exact k

theorem State.garmentLoad_held (platen : Nat) (blank : BlankCode) (k : s.held) :
    (State.garmentLoad platen blank s).1.held := by
  unfold State.garmentLoad
  repeat' split
  any_goals exact k
  next q _ _ _ _ empty =>
    have none_ : s.garment q = none := by simpa using empty
    refine State.lookup_held (g := Garment.fresh s.freshSerial blank) ?_ (by simp) rfl
    rw [State.held, State.putGarment_holdings, State.takeSerial_holdings]
    exact Holdings.held.unbound k (by rw [State.holdings_bound, none_, bindingOf_none]) rfl

theorem State.assignable_ok {platen : Nat} {c : Fin 16} (e : s.assignable platen = .ok (p, g, c)) :
    s.garment p = some g ∧ g.stage = .loaded := by
  unfold State.assignable at e
  repeat' split at e
  any_goals cases e
  next no here _ => exact ⟨here, not_not.1 fun h => no (.inl h)⟩

theorem State.garmentAssign_held (platen : Nat) (order : Word) (position : Nat) (k : s.held) :
    (State.garmentAssign platen order position s).1.held := by
  unfold State.garmentAssign
  repeat' split
  any_goals exact k
  next ok _ _ _ _ _ _ _ _ _ bound =>
    obtain ⟨here, loaded⟩ := State.assignable_ok ok
    exact State.reserveAndBind_held k here loaded bound

/-! ### Removal (R59 to R63) -/

theorem State.countBinding_holdings (s : State) (c : Counter) (g : Garment) :
    (s.countBinding c g).1.holdings = s.holdings.withBook (s.countBinding c g).1.book := by
  unfold State.countBinding
  split
  · rfl
  · exact s.count_holdings c _

/-- R42, R63: the record of a garment removed whose binding has been counted. -/
theorem State.countBinding_held (k : s.held) (here : s.garment p = some g) (c : Counter) :
    ((s.countBinding c g).1.holdings.withGarment p none).held := by
  have bound : s.holdings.bound p = g.binding := by rw [State.holdings_bound, here, bindingOf_some]
  rw [State.countBinding_holdings]
  unfold State.countBinding
  cases binding : g.binding with
  | none => exact Holdings.held.unbound k (bound.trans binding) rfl
  | some b =>
    have line : lineOf (s.holdings.bound p) = some b.line := by rw [bound, binding]; rfl
    have counted := s.holdings.withGarment_bindings p none
    simp only [bindingOf_none, show lineOf none = none from rfl, reduceCtorEq, if_false] at counted
    have one : 0 < s.holdings.bindings b.line := by
      have := counted b.line
      rw [line, if_pos rfl] at this
      omega
    refine Holdings.held.unbind k (State.count_tables k.tables c one) p fun i => ?_
    rw [line, update_apply]
    by_cases at_ : i = b.line
    · subst at_
      simp
      omega
    · simp [at_, Ne.symm at_]

theorem State.loadClear_held (platen : Nat) (k : s.held) : (State.loadClear platen s).1.held := by
  unfold State.loadClear
  repeat' split
  any_goals exact k
  next g here _ _ _ e =>
    have gone := State.countBinding_held k here .release
    rw [e] at gone
    refine State.rematchIf_held ?_ _
    rw [State.held, State.raise_holdings, State.putGarment_holdings, State.withdrawJob_holdings]
    exact gone

theorem State.garment_of_unloadable {platen : Nat} (e : s.unloadable platen = .ok (p, g)) : s.garment p = some g := by
  unfold State.unloadable at e
  repeat' split at e
  any_goals cases e
  next here => exact here

theorem State.endUnload_holdings (s : State) (p : Fin 16) (g : Garment) (o : GarmentOutcome) :
    (s.endUnload p g o).holdings = s.holdings.withGarment p none := by
  simp [State.endUnload]

theorem State.unloadGood_held (platen : Nat) (k : s.held) : (State.unloadGood platen s).1.held := by
  unfold State.unloadGood
  repeat' split
  any_goals exact k
  next ok _ _ _ _ e =>
    have gone := State.countBinding_held k (State.garment_of_unloadable ok) .done
    rw [e, ← State.endUnload_holdings] at gone
    exact gone

theorem State.unloadSpoil_held (platen : Nat) (k : s.held) : (State.unloadSpoil platen s).1.held := by
  unfold State.unloadSpoil
  split
  · exact k
  next ok =>
    refine State.rematchIf_held ?_ _
    rw [State.held, State.endUnload_holdings]
    exact State.countBinding_held k (State.garment_of_unloadable ok) .spoil

/-! ### The shelf (R153, R156, R158 to R161) -/

theorem State.freeShelf_empty {i : Fin 8} (e : s.freeShelf = some i) : s.shelf.slots[i] = none := by
  simpa [State.shelfSlot] using List.find?_some e

theorem State.shelve_held (platen : Nat) (k : s.held) : (State.shelve platen s).1.held := by
  unfold State.shelve
  repeat' split
  any_goals exact k
  next q _ _ _ g here _ _ _ _ i b c free binding _ =>
    have shelved : (s.shelveGarment q g c b i).holdings =
        (s.holdings.withSlot i (some ⟨g.context c b s.clock.time, b.recipe, b.placement⟩)).withGarment q none := by
      unfold State.shelveGarment
      dsimp only
      split <;> simp
    show (s.shelveGarment q g c b i).holdings.held
    rw [shelved]
    refine Holdings.held.shelve k (State.freeShelf_empty free) ?_
    rw [State.holdings_bound, here, bindingOf_some, binding]
    rfl

theorem resumeStage_ne_loaded (c : Components) : resumeStage c ≠ .loaded := by
  unfold resumeStage
  repeat' split
  all_goals simp

theorem State.unshelve_held (slot platen mask : Nat) (k : s.held) : (State.unshelve slot platen mask s).1.held := by
  unfold State.unshelve
  dsimp only
  repeat' split
  any_goals exact k
  next i q _ _ _ _ _ _ _ x filled _ no _ =>
    have empty : s.garment q = none := by simpa using fun h => no (.inl h)
    show (s.restore i x q _).holdings.held
    simp only [State.restore, State.raise_holdings, State.putShelf_holdings, State.appendJob_holdings,
      State.putGarment_holdings]
    refine Holdings.held.restore k (by rw [State.holdings_bound, empty, bindingOf_none]) (resumeStage_ne_loaded _) ?_
    rw [State.holdings_slots, show s.shelf.slots[i] = some x from filled]
    rfl

theorem State.takeOff_held (k : s.held) {i : Fin 8} {x : ShelfSlot} (filled : s.shelfSlot i = some x) (c : Counter)
    (e : ShelfEvent) : (s.takeOff i x c e).held := by
  refine State.rematchIf_held ?_ _
  rw [State.held, State.raise_holdings, State.putShelf_holdings, State.count_holdings]
  have line : shelfLine s.holdings.slots[i] = some x.context.ident.line := by
    rw [State.holdings_slots, show s.shelf.slots[i] = some x from filled]
    rfl
  have emptied := s.holdings.withSlot_bindings i none
  simp only [line, show shelfLine none = none from rfl, reduceCtorEq, if_false] at emptied
  have one : 0 < s.holdings.bindings x.context.ident.line := by
    have := emptied x.context.ident.line
    rw [if_pos rfl] at this
    omega
  refine Holdings.held.withSlot k (State.count_tables k.tables c one) i none fun j => ?_
  have less : (Holdings.withSlot (s.holdings.withBook (s.count c x.context.ident.line).1.book) i none).bindings j + _ = _ :=
    emptied j
  rw [update_apply]
  by_cases at_ : j = x.context.ident.line
  · subst at_
    rw [if_pos rfl] at less ⊢
    omega
  · rw [if_neg at_]
    rw [if_neg fun h => at_ (Option.some.inj h).symm] at less
    omega

theorem State.shelfDrop_held (slot : Nat) (k : s.held) : (State.shelfDrop slot s).1.held := by
  unfold State.shelfDrop
  repeat' split
  any_goals exact k
  next filled => exact State.takeOff_held k filled _ _

theorem State.shelfExport_held (slot form : Nat) (k : s.held) : (State.shelfExport slot form s).1.held := by
  unfold State.shelfExport
  repeat' split
  any_goals exact k
  next filled => exact State.takeOff_held k filled _ _

theorem State.namedLine_line {r : ReadRecord} {i : Fin 512} {l : Line} (e : s.namedLine r = some (i, l)) :
    i = r.ident.line := by
  unfold State.namedLine at e
  split at e
  · cases e
  · split at e
    · obtain ⟨m, -, same⟩ := Option.map_eq_some_iff.1 e
      exact (congrArg Prod.fst same).symm
    · cases e

theorem State.shelfImport_held (record : List Byte) (k : s.held) : (State.shelfImport record s).1.held := by
  unfold State.shelfImport
  repeat' split
  any_goals exact k
  next r _ _ line l named _ _ _ i t free granted =>
    obtain rfl := State.namedLine_line named
    obtain ⟨table, book⟩ := State.reserve_tables k.tables granted
    refine State.held_of_holdings (s := (t.placeImport i (r.context t.freshSerial) l)) rfl ?_
    simp only [State.held, State.placeImport, State.raise_holdings, State.putShelf_holdings, State.takeSerial_holdings, book]
    exact Holdings.held.imported k (State.freeShelf_empty free) table rfl

end Match
end Sys2Proof.Machine
end

