-- ==== Sys2Proof/Proofs/ReservationBook.lean ====
section
/-! PROOF. The Order Book's commands keep the reserved counts equal to the bindings (R35 to R40). -/

namespace Sys2Proof.Machine

open Function (update update_apply)

namespace Reserved

variable {orders : List Order} {lines : Vector (Option Line) 512} {n : Fin 512 → Nat}

/-- R39: an order with its lines cancelled. -/
theorem cancel (h : Reserved orders lines n) {o : Order} (mem : o ∈ orders) {x : OrderStatus} (gone : x.withdrawn = true)
    (unfinished : x ≠ .complete) {after : Vector (Option Line) 512}
    (each : ∀ i : Fin 512, after[i] = if i ∈ o.lines then lines[i].map Line.cancelled else lines[i])
    (none_ : x = .cancelled → ∀ i ∈ o.lines, after[i].map Line.status ≠ some .withdrawn) :
    Reserved (orders.map fun y => if y.number = o.number then { o with status := x } else y) after n := by
  have written {y : Order} (hy : y ∈ orders.map fun y => if y.number = o.number then { o with status := x } else y) :
      y = { o with status := x } ∨ y ∈ orders ∧ y.number ≠ o.number := by
    obtain ⟨z, hz, rfl⟩ := List.mem_map.1 hy
    split
    · exact .inl rfl
    next ne => exact .inr ⟨hz, ne⟩
  have numbers' : (orders.map fun y => if y.number = o.number then { o with status := x } else y).map Order.number =
      orders.map Order.number := by
    rw [List.map_map]
    refine List.map_congr_left fun y _ => ?_
    dsimp only [Function.comp]
    split <;> simp_all
  have elsewhere {y : Order} (hy : y ∈ orders) (ne : y.number ≠ o.number) {i : Fin 512} (hi : i ∈ y.lines) :
      after[i] = lines[i] := by
    rw [each, if_neg fun listed => ?_]
    obtain ⟨l, here, of_y⟩ := h.owned y hy i hi
    exact ne (of_y.symm.trans (h.order_of_listed here mem listed).symm)
  have line (i : Fin 512) : ∀ k, after[i] = some k → (i ∈ o.lines ∧ ∃ l, lines[i] = some l ∧ k = l.cancelled) ∨
      (i ∉ o.lines ∧ lines[i] = some k) := by
    intro k at_
    rw [each] at at_
    split at at_
    next listed =>
      obtain ⟨l, here, same⟩ := Option.map_eq_some_iff.1 at_
      exact .inl ⟨listed, l, here, same.symm⟩
    next out => exact .inr ⟨out, at_⟩
  have before (i : Fin 512) (k : Line) (at_ : after[i] = some k) : ∃ l, lines[i] = some l ∧ k.order = l.order ∧
      k.reserved = l.reserved ∧ k.done = l.done ∧ k.quantity = l.quantity := by
    rcases line i k at_ with ⟨-, l, here, rfl⟩ | ⟨-, here⟩
    · exact ⟨l, here, rfl, rfl, rfl, rfl⟩
    · exact ⟨k, here, rfl, rfl, rfl, rfl⟩
  refine ⟨fun i k at_ => ?_, fun i at_ => h.free i ?_, fun i k at_ => ?_, fun y hy i hi => ?_, numbers' ▸ h.numbers,
    fun y hy => ?_, fun i k at_ => ?_, fun i k y at_ hy num => ?_, fun i k at_ done => ?_, fun y hy st => ?_, fun y hy st => ?_⟩
  · obtain ⟨l, here, -, same, -, -⟩ := before i k at_
    exact same.trans (h.reserved i l here)
  · rw [each] at at_
    split at at_
    · exact Option.map_eq_none_iff.1 at_
    · exact at_
  · obtain ⟨l, here, same, -⟩ := before i k at_
    obtain ⟨z, hz, num, listed⟩ := h.owner i l here
    refine ⟨_, List.mem_map_of_mem hz, ?_⟩
    split
    next e =>
      obtain rfl := h.same_order hz mem e
      exact ⟨num.trans same.symm, listed⟩
    · exact ⟨num.trans same.symm, listed⟩
  · rcases written hy with rfl | ⟨hy, ne⟩
    · obtain ⟨l, here, same⟩ := h.owned o mem i hi
      exact ⟨l.cancelled, by rw [each, if_pos hi, here]; rfl, same⟩
    · rw [elsewhere hy ne hi]
      exact h.owned y hy i hi
  · rcases written hy with rfl | ⟨hy, -⟩
    · exact h.once o mem
    · exact h.once y hy
  · obtain ⟨l, here, -, reserved, done, quantity⟩ := before i k at_
    rw [reserved, done, quantity]
    exact h.within i l here
  · rcases line i k at_ with ⟨listed, l, here, rfl⟩ | ⟨out, here⟩
    · rcases written hy with rfl | ⟨hy, ne⟩
      · exact (Line.derived_again l (x := .cancelling) gone.symm).symm
      · exact absurd (num.trans (h.order_of_listed here mem listed).symm) ne
    · rcases written hy with rfl | ⟨hy, ne⟩
      · exact absurd (h.mem_lines here mem num) out
      · exact h.status i k y here hy num
  · rcases line i k at_ with ⟨listed, l, here, rfl⟩ | ⟨out, here⟩
    · refine h.finished i l here ?_
      by_contra no
      have derived : l.derived .cancelling = .done := done
      simp only [Line.derived, OrderStatus.withdrawn, if_true, no, if_false] at derived
      split at derived <;> cases derived
    · exact h.finished i k here done
  · rcases written hy with rfl | ⟨hy, ne⟩
    · exact absurd st unfinished
    · intro i hi
      rw [elsewhere hy ne hi]
      exact h.complete y hy st i hi
  · rcases written hy with rfl | ⟨hy, ne⟩
    · exact none_ st
    · intro i hi
      rw [elsewhere hy ne hi]
      exact h.cancelled y hy st i hi

/-- A COMPLETE or CANCELLED order's lines have nothing reserved. -/
theorem idle (h : Reserved orders lines n) {o : Order} (mem : o ∈ orders)
    (ended : o.status = .complete ∨ o.status = .cancelled) {i : Fin 512} (listed : i ∈ o.lines) : n i = 0 := by
  obtain ⟨l, here, same⟩ := h.owned o mem i listed
  rw [← h.reserved i l here]
  rcases ended with st | st
  · have done := h.complete o mem st i listed
    rw [here] at done
    exact h.finished i l here (Option.some.inj done)
  · have left := h.cancelled o mem st i listed
    have derived := h.status i l o here mem same.symm
    rw [here, Option.map_some, derived, st] at left
    by_cases done : l.status = .done
    · exact h.finished i l here done
    · by_contra some_
      exact left (by simp [Line.derived, OrderStatus.withdrawn, done, some_])

/-- R40: an order removed with its lines. -/
theorem retire (h : Reserved orders lines n) {o : Order} (mem : o ∈ orders)
    (ended : o.status = .complete ∨ o.status = .cancelled) {after : Vector (Option Line) 512}
    (each : ∀ i : Fin 512, after[i] = if i ∈ o.lines then none else lines[i]) :
    Reserved (orders.filter fun y => y.number != o.number) after n := by
  have kept {y : Order} : y ∈ orders.filter (fun y => y.number != o.number) ↔ y ∈ orders ∧ y.number ≠ o.number := by
    simp [List.mem_filter]
  have left (i : Fin 512) (k : Line) (at_ : after[i] = some k) : i ∉ o.lines ∧ lines[i] = some k := by
    rw [each] at at_
    split at at_
    · cases at_
    next out => exact ⟨out, at_⟩
  have elsewhere {y : Order} (hy : y ∈ orders) (ne : y.number ≠ o.number) {i : Fin 512} (hi : i ∈ y.lines) :
      after[i] = lines[i] := by
    rw [each, if_neg fun listed => ?_]
    obtain ⟨l, here, of_y⟩ := h.owned y hy i hi
    exact ne (of_y.symm.trans (h.order_of_listed here mem listed).symm)
  refine ⟨fun i k at_ => h.reserved i k (left i k at_).2, fun i at_ => ?_, fun i k at_ => ?_, fun y hy i hi => ?_, ?_,
    fun y hy => h.once y (kept.1 hy).1, fun i k at_ => h.within i k (left i k at_).2,
    fun i k y at_ hy => h.status i k y (left i k at_).2 (kept.1 hy).1, fun i k at_ => h.finished i k (left i k at_).2,
    fun y hy st i hi => ?_, fun y hy st i hi => ?_⟩
  · rw [each] at at_
    split at at_
    next listed => exact h.idle mem ended listed
    · exact h.free i at_
  · obtain ⟨out, here⟩ := left i k at_
    obtain ⟨y, hy, num, listed⟩ := h.owner i k here
    refine ⟨y, kept.2 ⟨hy, fun e => out ?_⟩, num, listed⟩
    rwa [← h.same_order hy mem e]
  · obtain ⟨hy, ne⟩ := kept.1 hy
    rw [elsewhere hy ne hi]
    exact h.owned y hy i hi
  · exact h.numbers.sublist (List.filter_sublist.map _)
  · obtain ⟨hy, ne⟩ := kept.1 hy
    rw [elsewhere hy ne hi]
    exact h.complete y hy st i hi
  · obtain ⟨hy, ne⟩ := kept.1 hy
    rw [elsewhere hy ne hi]
    exact h.cancelled y hy st i hi

/-- R36: an OPEN order posted with fresh lines. -/
theorem post (h : Reserved orders lines n) {o : Order} (fresh : ∀ y ∈ orders, y.number ≠ o.number) (opened : o.status = .opened)
    (once : o.lines.Nodup) (free : ∀ i ∈ o.lines, lines[i] = none) {after : Vector (Option Line) 512}
    (others : ∀ i, i ∉ o.lines → after[i] = lines[i])
    (filled : ∀ i ∈ o.lines, ∃ l, after[i] = some l ∧ l.order = o.number ∧ l.done = 0 ∧ l.reserved = 0 ∧ l.quantity ≠ 0 ∧
      l.status = .opened) : Reserved (orders ++ [o]) after n := by
  have split_ {y : Order} : y ∈ orders ++ [o] ↔ y ∈ orders ∨ y = o := by simp
  have old {y : Order} (hy : y ∈ orders) {i : Fin 512} (hi : i ∈ y.lines) : after[i] = lines[i] := by
    refine others i fun listed => ?_
    obtain ⟨l, here, -⟩ := h.owned y hy i hi
    rw [free i listed] at here
    cases here
  have new (i : Fin 512) (k : Line) (at_ : after[i] = some k) : (i ∈ o.lines ∧ lines[i] = none ∧ k.order = o.number ∧
      k.done = 0 ∧ k.reserved = 0 ∧ k.quantity ≠ 0 ∧ k.status = .opened) ∨ lines[i] = some k := by
    by_cases listed : i ∈ o.lines
    · obtain ⟨l, here, facts⟩ := filled i listed
      obtain rfl : l = k := Option.some.inj (here.symm.trans at_)
      exact .inl ⟨listed, free i listed, facts⟩
    · exact .inr ((others i listed).symm.trans at_)
  refine ⟨fun i k at_ => ?_, fun i at_ => ?_, fun i k at_ => ?_, fun y hy i hi => ?_, ?_, fun y hy => ?_, fun i k at_ => ?_,
    fun i k y at_ hy num => ?_, fun i k at_ done => ?_, fun y hy st i hi => ?_, fun y hy st i hi => ?_⟩
  · rcases new i k at_ with ⟨-, none_, -, -, reserved, -⟩ | here
    · rw [reserved, h.free i none_]
    · exact h.reserved i k here
  · refine h.free i ?_
    by_cases listed : i ∈ o.lines
    · exact free i listed
    · exact (others i listed).symm.trans at_
  · rcases new i k at_ with ⟨listed, -, num, -⟩ | here
    · exact ⟨o, split_.2 (.inr rfl), num.symm, listed⟩
    · obtain ⟨y, hy, facts⟩ := h.owner i k here
      exact ⟨y, split_.2 (.inl hy), facts⟩
  · rcases split_.1 hy with hy | rfl
    · rw [old hy hi]
      exact h.owned y hy i hi
    · obtain ⟨l, here, num, -⟩ := filled i hi
      exact ⟨l, here, num⟩
  · rw [List.map_append, List.map_singleton, List.nodup_append]
    refine ⟨h.numbers, by simp, fun x hx y hy e => ?_⟩
    obtain ⟨z, hz, rfl⟩ := List.mem_map.1 hx
    rw [List.mem_singleton] at hy
    exact fresh z hz (e.trans hy)
  · rcases split_.1 hy with hy | rfl
    · exact h.once y hy
    · exact once
  · rcases new i k at_ with ⟨-, -, -, done, reserved, -⟩ | here
    · omega
    · exact h.within i k here
  · rcases new i k at_ with ⟨listed, none_, order, done, reserved, quantity, status⟩ | here
    · rcases split_.1 hy with hy | rfl
      · exact absurd (num.trans order) (fresh y hy)
      · rw [status, opened]
        simp [Line.derived, OrderStatus.withdrawn, done, reserved, Ne.symm quantity]
    · rcases split_.1 hy with hy | rfl
      · exact h.status i k y here hy num
      · obtain ⟨z, hz, same, -⟩ := h.owner i k here
        exact absurd (same.trans num.symm) (fresh z hz)
  · rcases new i k at_ with ⟨-, -, -, -, reserved, -⟩ | here
    · exact reserved
    · exact h.finished i k here done
  · rcases split_.1 hy with hy | rfl
    · rw [old hy hi]
      exact h.complete y hy st i hi
    · rw [opened] at st
      cases st
  · rcases split_.1 hy with hy | rfl
    · rw [old hy hi]
      exact h.cancelled y hy st i hi
    · rw [opened] at st
      cases st

end Reserved

/-- A book written whose orders and lines fit the bindings as they are. -/
theorem State.setBook_held {s : State} (k : s.held) {b : Book} (table : Reserved b.orders b.lines s.holdings.bindings) :
    (s.setBook b).held := ⟨table, k.tidy⟩

section Commands

variable {s : State}

theorem State.catalogueSet_held (blank : BlankCode) (cls : Nat) (k : s.held) : (State.catalogueSet blank cls s).1.held := by
  unfold State.catalogueSet
  dsimp only
  repeat' split
  any_goals exact k
  all_goals
    refine State.rematch_held (s := s.setBook _) ?_ _
    exact k

theorem State.catalogueRemove_held (blank : BlankCode) (k : s.held) : (State.catalogueRemove blank s).1.held := by
  unfold State.catalogueRemove
  split
  · exact k
  · refine State.rematch_held (s := s.setBook _) ?_ _
    exact k

theorem State.setOrder_held (k : s.held) {n : Word} {o : Order} (found : s.book.find n = some o) (x : OrderStatus)
    (live : o.status = .opened ∨ o.status = .held) (goal_ : x = .opened ∨ x = .held) : (s.setOrder o x).held := by
  refine State.held_of_holdings (State.raise_holdings _ _) (State.setBook_held k ?_)
  refine k.tables.setOrder (Book.find_mem found).1 x ?_ ?_ ?_
  · rcases live with e | e <;> rcases goal_ with rfl | rfl <;> rw [e] <;> rfl
  · rcases goal_ with rfl | rfl <;> intro h <;> cases h
  · rcases goal_ with rfl | rfl <;> intro h <;> cases h

theorem State.orderHold_held (order : Word) (k : s.held) : (State.orderHold order s).1.held := by
  unfold State.orderHold
  split
  · exact k
  next found =>
    split
    next st => exact State.setOrder_held k found .held (.inl st) (.inr rfl)
    · exact k
    · exact k

theorem State.orderRelease_held (order : Word) (k : s.held) : (State.orderRelease order s).1.held := by
  unfold State.orderRelease
  split
  · exact k
  next found =>
    split
    next st => exact State.rematch_held (State.setOrder_held k found .opened (.inr st) (.inl rfl)) _
    · exact k
    · exact k

theorem State.lineAmend_held (order : Word) (position quantity : Nat) (k : s.held) :
    (State.lineAmend order position quantity s).1.held := by
  unfold State.lineAmend
  repeat' split
  any_goals exact k
  next o found _ i at_ _ live _ l here fits _ =>
    obtain ⟨mem, -⟩ := Book.find_mem found
    have number := k.tables.order_of_listed here mem (List.mem_of_getElem? at_)
    have line : s.book.find ({ l with quantity := quantity } : Line).order = some o :=
      number ▸ Book.find_of_mem k.tables.numbers mem
    have live : o.status = .opened ∨ o.status = .held := by
      by_contra no
      exact live (not_or.1 no)
    have table := k.tables.changed (x := { l with quantity := quantity }) here mem number
      (by rcases live with e | e <;> simp [OrderStatus.live, e]) rfl rfl (not_lt.1 fits) fun _ => le_rfl
    have same : update s.holdings.bindings i l.reserved = s.holdings.bindings := by
      rw [k.tables.reserved i l here]
      exact Function.update_eq_self _ _
    refine State.rematchIf_held ?_ _
    rw [State.changeLine_eq line]
    exact State.held_of_holdings (State.raiseAll_holdings _ _) (State.setBook_held k (same ▸ table))

/-- R39: the orphan mark is all that changes. -/
theorem State.markOrphans_holdings (s : State) (n : Word) : (s.markOrphans n).holdings = s.holdings := by
  have each (p : Fin 16) : bindingOf ((s.markOrphans n).garment p) = bindingOf (s.garment p) ∧
      looseIn ((s.markOrphans n).garment p) = looseIn (s.garment p) := by
    simp only [State.markOrphans, State.garment, State.setUnits_units, vmap_get]
    cases s.units.garments[p] with
    | none => exact ⟨rfl, rfl⟩
    | some g =>
      cases e : g.binding with
      | none => simp [e]
      | some b => by_cases o : b.order = n <;> simp [e, o]
  exact Holdings.ext rfl rfl (funext fun p => (each p).1) (funext fun p => (each p).2) rfl

theorem Book.derivedOrder_cancelling (b : Book) (o : Order) (h : o.status = .cancelling) :
    b.derivedOrder o = .cancelling ∨ b.derivedOrder o = .cancelled ∧
      ∀ i ∈ o.lines, b.lines[i].map Line.status ≠ some .withdrawn := by
  unfold Book.derivedOrder
  simp only [h]
  split
  · exact .inl rfl
  next none_ => exact .inr ⟨rfl, fun i hi e => none_ (List.any_eq_true.2 ⟨i, hi, beq_iff_eq.2 e⟩)⟩

theorem State.cancelOrder_held (k : s.held) {n : Word} {o : Order} (found : s.book.find n = some o) :
    (s.cancelOrder o).held := by
  obtain ⟨lines, book, each⟩ := Book.cancelLines_eq o.lines s.book
  refine State.held_of_holdings ((State.raiseAll_holdings _ _).trans (State.markOrphans_holdings _ _)) (State.setBook_held k ?_)
  have status := Book.derivedOrder_cancelling { s.book with lines := lines } { o with status := .cancelling } rfl
  rw [book]
  refine k.tables.cancel (Book.find_mem found).1 ?_ ?_ each ?_
  · rcases status with e | ⟨e, -⟩ <;> rw [e] <;> rfl
  · rcases status with e | ⟨e, -⟩ <;> rw [e] <;> simp
  · rcases status with e | ⟨-, none_⟩
    · intro h
      rw [e] at h
      cases h
    · exact fun _ => none_

theorem State.orderCancel_held (order : Word) (k : s.held) : (State.orderCancel order s).1.held := by
  unfold State.orderCancel
  split
  · exact k
  next found =>
    split
    · exact k
    · exact k
    · exact k
    · exact State.cancelOrder_held k found
    · exact State.cancelOrder_held k found

theorem State.retireOrder_held (k : s.held) {n : Word} {o : Order} (found : s.book.find n = some o)
    (ended : o.status = .complete ∨ o.status = .cancelled) : (s.retireOrder o).held := by
  obtain ⟨lines, book, each⟩ := Book.freeLines_eq o.lines s.book
  refine State.held_of_holdings (State.raise_holdings _ _) (State.setBook_held k ?_)
  rw [book]
  exact k.tables.retire (Book.find_mem found).1 ended each

theorem State.orderRetire_held (order : Word) (k : s.held) : (State.orderRetire order s).1.held := by
  unfold State.orderRetire
  split
  · exact k
  next found =>
    split
    next st => exact State.retireOrder_held k found (.inl st)
    next st => exact State.retireOrder_held k found (.inr st)
    · exact k

/-! ### ORDER_POST -/

theorem State.postPlacements_mem {ls : List PostLine} {placed : List (PostLine × Placement)}
    (h : s.postPlacements ls = some placed) : ∀ x ∈ placed, x.1 ∈ ls := by
  induction ls generalizing placed with
  | nil => obtain rfl := Option.some.inj h; simp
  | cons l r ih =>
    unfold State.postPlacements at h
    split at h
    next p ps _ rest =>
      obtain rfl := Option.some.inj h
      intro x hx
      rcases List.mem_cons.1 hx with rfl | hx
      · exact List.mem_cons_self
      · exact List.mem_cons_of_mem _ (ih rest x hx)
    · cases h

theorem State.postOrder_held (k : s.held) {number : Word} (priority : Nat) {placed : List (PostLine × Placement)}
    (absent : s.book.find number = none) (room : placed.length ≤ s.book.freeLines.length)
    (sound : ∀ x ∈ placed, x.1.quantity ≠ 0) : (s.postOrder number priority placed).1.held := by
  have once : (s.book.freeLines.take placed.length).Nodup := s.book.freeLines_nodup.sublist (List.take_sublist _ _)
  obtain ⟨lines, book, others, filled⟩ := Book.fill_eq number (s.book.freeLines.take placed.length) placed s.book once
  refine State.held_of_holdings (State.raise_holdings _ _) (State.setBook_held k ?_)
  rw [book]
  refine k.tables.post (Book.find_eq_none.1 absent) rfl once (fun i hi => Book.mem_freeLines.1 (List.mem_of_mem_take hi)) others
    fun i hi => ?_
  obtain ⟨m, short, at_⟩ := List.getElem_of_mem hi
  have short' : m < placed.length := by
    rw [List.length_take] at short
    omega
  refine ⟨_, filled m i placed[m] (by rw [List.getElem?_eq_getElem short, at_]) (List.getElem?_eq_getElem short'), rfl, rfl, rfl,
    sound _ (List.getElem_mem _), rfl⟩

theorem State.orderPost_held (order : Word) (priority : Nat) (lines : List PostLine) (k : s.held) :
    (State.orderPost order priority lines s).1.held := by
  unfold State.orderPost
  dsimp only
  repeat' split
  any_goals exact k
  next fine known _ placed named full =>
    refine State.rematch_held (State.postOrder_held k priority ?_ ?_ ?_) _
    · simpa using known
    · simp only [not_or, not_lt] at full
      exact full.2
    · intro x hx
      have good : ¬lines.any PostLine.malformed = true := fun bad => fine (.inr (.inr (.inr bad)))
      have := fun bad => good (List.any_eq_true.2 ⟨x.1, State.postPlacements_mem named x hx, bad⟩)
      intro zero
      exact this (by simp [PostLine.malformed, zero])

end Commands
end Sys2Proof.Machine
end

