-- ==== Sys2Proof/Proofs/ReservationExec.lean ====
section
/-! PROOF. What the stores, the ring and the links do leaves orders, lines, bindings and shelf slots; so every step keeps
R41's invariant. -/

namespace Sys2Proof.Machine

/-- The head-of-line garment stands on its platen. -/
theorem State.garment_of_eligible {s : State} {p : Fin 16} {x : Producing} (h : s.eligible p = some x) :
    s.garment x.platen = some x.garment := by
  unfold State.eligible at h
  repeat' split at h
  any_goals cases h
  assumption

theorem State.garment_of_headOfLine {s : State} {x : Producing} (h : s.headOfLine = some x) :
    s.garment x.platen = some x.garment := by
  have found {y : Option (Fin 16)} (e : y.bind s.eligible = some x) : s.garment x.platen = some x.garment := by
    obtain ⟨p, -, here⟩ := Option.bind_eq_some_iff.1 e
    exact State.garment_of_eligible here
  unfold State.headOfLine at h
  split at h
  next e => exact found (e.trans h)
  · exact found h

theorem State.garment_of_swathPossible {s : State} {x : Producing} {i : Fin 4} (h : s.swathPossible = some (x, i)) :
    s.garment x.platen = some x.garment := by
  unfold State.swathPossible at h
  split at h
  next e _ =>
    obtain ⟨rfl, -⟩ := Prod.mk.inj (Option.some.inj h)
    exact State.garment_of_headOfLine e
  · cases h

theorem State.pullable_session {s : State} {q : Nat} {x : Session} {g : Garment} {i : Fin 4} {w : Swath}
    (h : s.pullable q = .ok (x, g, i, w)) : s.sessionGarment = some (x, g) := by
  unfold State.pullable at h
  repeat' split at h
  any_goals cases h
  assumption

section Same

variable (s : State)

/-! ### The Art Store and the arbiter -/

@[simp] theorem State.answer_holdings (l : Link) (a : Answer) : (s.answer l a).holdings = s.holdings := rfl

@[simp] theorem State.setLineReset_holdings (x : Option Link) : (s.setLineReset x).holdings = s.holdings := rfl

@[simp] theorem State.onLink_holdings (l : Link) (f : LinkState → LinkState) : (s.onLink l f).holdings = s.holdings := rfl

@[simp] theorem State.artOpen_holdings (f p w h d b : Nat) (c : Word) :
    (State.artOpen f p w h d b c s).1.holdings = s.holdings := by
  unfold State.artOpen
  dsimp only
  repeat' split
  all_goals simp

@[simp] theorem State.artWrite_holdings (l : Link) (h o : Nat) (d : List Byte) :
    (State.artWrite l h o d s).1.holdings = s.holdings := by
  unfold State.artWrite
  repeat' split
  all_goals simp

@[simp] theorem State.artWriteComplete_holdings : s.artWriteComplete.holdings = s.holdings := by
  unfold State.artWriteComplete
  split <;> simp

@[simp] theorem State.artSeal_holdings (h : Nat) (c : Option Word) : (State.artSeal h c s).1.holdings = s.holdings := by
  unfold State.artSeal
  dsimp only
  repeat' split
  all_goals simp

@[simp] theorem State.leaveQueue_holdings (h : Fin 64) : (s.leaveQueue h).holdings = s.holdings := by
  unfold State.leaveQueue
  dsimp only
  split <;> simp

@[simp] theorem State.artFree_holdings (h : Nat) : (State.artFree h s).1.holdings = s.holdings := by
  unfold State.artFree
  repeat' split
  all_goals simp

@[simp] theorem State.passStart_holdings : s.passStart.holdings = s.holdings := by
  unfold State.passStart
  dsimp only
  repeat' split
  all_goals simp

theorem State.passEnd_held {s : State} (k : s.held) : s.passEnd.held := by
  unfold State.passEnd
  dsimp only
  repeat' split
  any_goals exact k
  all_goals
    refine State.rematchIf_held (State.held_of_holdings ?_ k) _
    simp

@[simp] theorem State.deliver_holdings (g : Granted) : (s.deliver g).holdings = s.holdings := by
  unfold State.deliver
  split
  · unfold State.deliverPull
    split <;> simp
  · exact State.holdings_of_seen (s.deliverEngine_seen _)
  · unfold State.deliverVerify
    dsimp only
    split <;> simp
  · unfold State.deliverWrite
    split <;> simp
  · rfl

@[simp] theorem State.burstComplete_holdings : s.burstComplete.holdings = s.holdings := by
  unfold State.burstComplete
  dsimp only
  repeat' split
  all_goals simp

/-! ### The ring -/

@[simp] theorem State.swathUnitBegin_holdings : s.swathUnitBegin.holdings = s.holdings := by
  unfold State.swathUnitBegin
  split
  next h =>
    rw [State.beginSwath, State.setEngine_holdings, State.setRing_holdings]
    exact State.putGarment_holdings_same _ (State.garment_of_swathPossible h) rfl rfl
  · rfl

@[simp] theorem State.handSwath_holdings (u : RasterUnit) (f : SwathPhase) (i : Nat) (k : Fin 4) :
    (s.handSwath u f i k).holdings = s.holdings := by
  unfold State.handSwath
  dsimp only
  split
  · rfl
  next h =>
    split
    · rfl
    · exact State.putGarment_holdings_same _ (State.garment_of_unitGarment h) rfl rfl

@[simp] theorem State.swathUnitEnd_holdings : s.swathUnitEnd.holdings = s.holdings := by
  unfold State.swathUnitEnd State.engineIdle
  repeat' split
  all_goals simp

@[simp] theorem State.swathPull_holdings (l : Link) (q o : Nat) : (State.swathPull l q o s).1.holdings = s.holdings := by
  unfold State.swathPull
  repeat' split
  all_goals simp

@[simp] theorem State.pullComplete_holdings : s.pullComplete.holdings = s.holdings := by
  unfold State.pullComplete
  repeat' split
  all_goals simp

@[simp] theorem State.swathRelease_holdings (q : Nat) : (State.swathRelease q s).1.holdings = s.holdings := by
  unfold State.swathRelease
  split
  · rfl
  next h =>
    have here := State.garment_of_sessionGarment (State.pullable_session h)
    exact State.putGarment_holdings_same (s.setRing _) here rfl rfl

@[simp] theorem State.printEndAbort_holdings : s.printEndAbort.1.holdings = s.holdings := by
  unfold State.printEndAbort
  split
  · rfl
  next x g h =>
    rw [State.accept_fst, State.setRing_holdings]
    refine (State.putGarment_holdings_same _ (g := g) ?_ (by rfl) (by rfl)).trans (State.holdings_of_seen (s.discardSwathUnit_seen _ _))
    exact (s.discardSwathUnit_garment _ _ _).trans (State.garment_of_sessionGarment h)

/-! ### The line and the part -/

theorem State.cleared_garment (p : Fin 16) : s.cleared.garment p = none := replicate_get _ p

theorem State.reset_garment (p : Fin 16) : State.reset.garment p = none := replicate_get _ p

theorem State.cleared_holdings : s.cleared.holdings = State.reset.holdings := by
  refine Holdings.ext rfl ?_ (funext fun p => ?_) (funext fun p => ?_) ?_
  · rw [State.holdings_lines, State.holdings_lines]
    simp [State.cleared, State.reset, Book.reset]
  · rw [State.holdings_bound, State.holdings_bound, State.cleared_garment, State.reset_garment]
  · rw [State.holdings_loose, State.holdings_loose, State.cleared_garment, State.reset_garment]
  · rw [State.holdings_slots, State.holdings_slots]
    simp [State.cleared, State.reset, Shelf.reset]

theorem State.takeLineReset_held (l : Link) : (State.takeLineReset l s).1.held := by
  refine State.held_of_holdings (s := State.reset) ?_ ((reservationInv_iff _).1 reservationInv_reset)
  rw [State.takeLineReset, State.setLineReset_holdings, State.clearLine_eq, State.raiseAll_holdings, State.cleared_holdings]

@[simp] theorem State.completeLineReset_holdings : s.completeLineReset.holdings = s.holdings := by
  unfold State.completeLineReset
  repeat' split
  all_goals rfl

theorem State.counted_held {s : State} (k : s.held) : s.counted.held := by
  refine State.held_of_holdings ?_ k
  unfold State.counted
  dsimp only
  split <;> rfl

end Same

/-! ### Every command -/

section

variable {s t : State}

theorem request_held {v : Via} {kind : Nat} {i : Instr} {f : State → Taken} (e : request v kind i f s = .next t)
    (h : s.held) (handler : ∀ s : State, s.held → (f s).1.held) : t.held :=
  request_keeps State.held (fun _ _ p => p) (fun _ _ p => p) handler e h

theorem event_held {f : State → State} (e : event f s = .next t) (h : s.held)
    (effect : ∀ s : State, s.held → (f s).held) : t.held :=
  event_keeps State.held (fun _ _ p => p) (fun _ _ p => p) effect e h

theorem signal_held {drive : Inputs → Inputs} {f : State → State} (e : signal drive f s = .next t) (h : s.held)
    (effect : ∀ s : State, s.held → (f s).held) : t.held :=
  signal_keeps State.held (fun _ _ p => p) (fun _ _ p => p) (fun _ _ p => p) effect e h

theorem arbiterGrant_held (e : execArbiterGrant s = .next t) (h : s.held) : t.held := by
  unfold execArbiterGrant at e
  repeat' split at e
  · cases e
    exact h
  · cases e
  · exact event_held e h fun _ p => p
  · exact event_held e h fun _ p => p

theorem exec_held (i : Instr) (e : exec i s = .next t) (h : s.held) : t.held := by
  cases i
  case powerOnReset =>
    cases e
    exact State.held_of_holdings (s := State.reset) rfl ((reservationInv_iff _).1 reservationInv_reset)
  case resetAsserted => cases e; exact h
  case orderPost v o p l => exact request_held e h fun _ => State.orderPost_held o p l
  case lineAmend v o p q => exact request_held e h fun _ => State.lineAmend_held o p q
  case orderHold v o => exact request_held e h fun _ => State.orderHold_held o
  case orderRelease v o => exact request_held e h fun _ => State.orderRelease_held o
  case orderCancel v o => exact request_held e h fun _ => State.orderCancel_held o
  case orderRetire v o => exact request_held e h fun _ => State.orderRetire_held o
  case catalogueSet v b c => exact request_held e h fun _ => State.catalogueSet_held b c
  case catalogueRemove v b => exact request_held e h fun _ => State.catalogueRemove_held b
  case shelfExport v k f => exact request_held e h fun _ => State.shelfExport_held k f
  case shelfImport v r => exact request_held e h fun _ => State.shelfImport_held r
  case shelfDrop v k => exact request_held e h fun _ => State.shelfDrop_held k
  case shelve v p => exact request_held e h fun _ => State.shelve_held p
  case unshelve v k p m => exact request_held e h fun _ => State.unshelve_held k p m
  case garmentLoad v p b => exact request_held e h fun _ => State.garmentLoad_held p b
  case garmentAssign v p o q => exact request_held e h fun _ => State.garmentAssign_held p o q
  case loadClear v p => exact request_held e h fun _ => State.loadClear_held p
  case unloadGood v p => exact request_held e h fun _ => State.unloadGood_held p
  case unloadSpoil v p => exact request_held e h fun _ => State.unloadSpoil_held p
  case lineReset v => exact request_held e h fun s _ => s.takeLineReset_held v.link
  case verifyPassEnd => exact event_held e h fun _ => State.passEnd_held
  case arbiterGrant => exact arbiterGrant_held e h
  case platenDeclare v p x => exact request_held e h fun s => State.held_of_calmer (s.platenDeclare_calmer p x)
  case jamConfirm v p x => exact request_held e h fun s => State.held_of_calmer (s.jamConfirm_calmer p x)
  case serviceOut v p => exact request_held e h fun s => State.held_of_calmer (s.serviceOut_calmer p)
  case serviceIn v p => exact request_held e h fun s => State.held_of_calmer (s.serviceIn_calmer p)
  case printEndOk v => exact request_held e h fun s => State.held_of_calmer s.printEndOk_calmer
  case cureSample v p z => exact request_held e h fun s => State.held_of_calmer (s.cureSample_calmer p z)
  case arrive g => exact event_held e h fun s => State.held_of_calmer (s.arrive_calmer g)
  case pressStart => exact event_held e h fun s => State.held_of_calmer s.pressStart_calmer
  case sprayStart => exact event_held e h fun s => State.held_of_calmer s.sprayStart_calmer
  case printSessionOpen => exact event_held e h fun s => State.held_of_calmer s.sessionOpen_calmer
  case emergencyStopAsserted =>
    exact signal_held (drive := fun i => { i with estop := i.estop.drive true }) e h fun s =>
      State.held_of_seen s.emergencyStop_seen
  case emergencyStopReleased =>
    exact signal_held (drive := fun i => { i with estop := i.estop.drive false }) e h fun s =>
      State.held_of_seen s.emergencyRelease_seen
  case pressClosed =>
    exact signal_held (drive := fun i => { i with pressClosed := i.pressClosed.drive true }) e h fun s =>
      State.held_of_seen s.pressClosed_seen
  case pressOpen =>
    exact signal_held (drive := fun i => { i with pressOpen := i.pressOpen.drive true }) e h fun s =>
      State.held_of_seen s.pressOpened_seen
  case frameReceived | frameAbandoned | frameSent | linkReset | breakEnd | startSymbol =>
    exact event_held (f := fun u => u.onLink _ _) e h fun s => State.held_of_holdings (by simp)
  case blinkTimerExpiry o =>
    exact event_held (f := fun u => u.setIndicators (upd u.indicators o u.indicators[o].expire)) e h fun _ p => p
  case artOpen | artWrite | artSeal | artFree | noticeMaskSet | swathPull | swathRelease | printEndAbort =>
    exact request_held e h fun s => State.held_of_holdings (by simp [State.setNoticeMask])
  case artWriteComplete | lineResetComplete | verifyPassStart | burstComplete | swathUnitBegin | swathUnitEnd
      | swathPullComplete =>
    exact event_held e h fun s => State.held_of_holdings (by simp)
  case catalogueGet | classSet | classGet | paletteSet | paletteGet | overlaySet | overlayGet | rateTableSet | rateTableGet
      | shelfPermitSet | powerFlagClear | indicatorSet | read | lineResume | stationHold | stationRelease =>
    exact request_held e h fun s => State.held_of_seen (by simp)
  case moveStart | moveTimeout | bandUnitBegin | bandUnitEnd | band | sprayEnd | zoneValveClose | zonePulseReload
      | zoneChannelExhausted | dwellExpiry | closeTimeout | openTimeout | staleTimerExpiry =>
    exact event_held e h fun s => State.held_of_seen (by simp)

theorem step_held (e : step s = .next t) (h : s.held) : t.held :=
  step_keeps State.held (fun _ _ p => p) (fun _ p => State.counted_held p) (fun i _ _ e p => exec_held i e p) s t e h

end
end Sys2Proof.Machine

section
open Sys2Proof.Machine

/-- Settles O57: the invariant is read off what is held, and each command's handler keeps it. -/
theorem everyStepKeepsReservations : Obligations.EveryStepKeepsReservations := by
  intro s t h e
  exact (reservationInv_iff t).2 (step_held e ((reservationInv_iff s).1 h))

end
end

