-- ==== Sys2Proof/Proofs/StoresSeen.lean ====
section
/-! PROOF. The Order Book, the Match Unit and the shelf leave stores, ring, memory and links' slots as they were; the
catalogue changes by its own commands alone. -/

namespace Sys2Proof.Machine

section Same

variable (s : State)

@[simp] theorem State.raise_stores (n : Notice) : (s.raise n).stores = s.stores := State.stores_of_seen (s.raise_seen n)

@[simp] theorem State.raiseAll_stores (ns : List Notice) : (s.raiseAll ns).stores = s.stores :=
  State.stores_of_seen (s.raiseAll_seen ns)

@[simp] theorem State.withdrawJob_stores (p : Fin 16) (g : Garment) : (s.withdrawJob p g).stores = s.stores :=
  State.stores_of_seen (s.withdrawJob_seen p g)

@[simp] theorem State.appendJob_stores (p : Fin 16) (w : Word) (c : Option Nat) : (s.appendJob p w c).stores = s.stores :=
  State.stores_of_seen (s.appendJob_seen p w c)

@[simp] theorem State.takeSerial_stores : s.takeSerial.stores = s.stores := rfl
@[simp] theorem State.setArbiter_stores (x : Arbiter) : (s.setArbiter x).stores = s.stores := rfl
@[simp] theorem State.setEngine_stores (x : Engine) : (s.setEngine x).stores = s.stores := rfl

@[simp] theorem State.changeLine_stores (i : Fin 512) (l : Line) : (s.changeLine i l).stores = s.stores := by
  obtain ⟨b, ns, e, same⟩ := s.changeLine_frame i l
  rw [e, State.raiseAll_stores, s.setBook_stores b same]

@[simp] theorem State.count_stores (c : Counter) (i : Fin 512) : (s.count c i).1.stores = s.stores := by
  rcases s.count_frame c i with e | ⟨l, -, e⟩
  · rw [e]
  · rw [e, State.changeLine_stores]

theorem State.reserve_stores {s t : State} {i : Fin 512} (h : s.reserve i = some t) : t.stores = s.stores := by
  obtain ⟨l, o, -, -, -, -, rfl⟩ := State.reserve_eq h
  exact State.changeLine_stores _ _ _

/-! ### Match -/

@[simp] theorem State.bind_stores (p : Fin 16) (g : Garment) (c : Fin 16) (x : Candidate) (l : Line) :
    (s.bind p g c x l).stores = s.stores := by
  simp [State.bind]

theorem State.reserveAndBind_stores {s t : State} {p : Fin 16} {g : Garment} {c : Fin 16} {x : Candidate}
    (h : s.reserveAndBind p g c x = some t) : t.stores = s.stores := by
  unfold State.reserveAndBind at h
  split at h
  next granted =>
    obtain rfl := Option.some.inj h
    rw [State.bind_stores, State.reserve_stores granted]
  · cases h

@[simp] theorem State.holdNoLine_stores (p : Fin 16) (g : Garment) : (s.holdNoLine p g).stores = s.stores := by
  unfold State.holdNoLine
  split <;> simp

@[simp] theorem State.matchAttempt_stores (p : Fin 16) : (s.matchAttempt p).stores = s.stores := by
  unfold State.matchAttempt
  repeat' split
  any_goals simp
  next e => exact State.reserveAndBind_stores e

@[simp] theorem State.lookup_stores (p : Fin 16) : (s.lookup p).stores = s.stores := by
  unfold State.lookup
  dsimp only
  repeat' split
  all_goals simp

@[simp] theorem State.rematch_stores (c : RematchCause) : (s.rematch c).stores = s.stores := by
  unfold State.rematch
  repeat' split
  all_goals simp

@[simp] theorem State.rematchIf_stores (b : Bool) : (s.rematchIf b).stores = s.stores := by
  unfold State.rematchIf
  split <;> simp

@[simp] theorem State.garmentLoad_stores (p : Nat) (b : BlankCode) : (State.garmentLoad p b s).1.stores = s.stores := by
  unfold State.garmentLoad
  repeat' split
  all_goals simp

@[simp] theorem State.garmentAssign_stores (p : Nat) (o : Word) (q : Nat) : (State.garmentAssign p o q s).1.stores = s.stores := by
  unfold State.garmentAssign
  repeat' split
  any_goals rfl
  next e => exact State.reserveAndBind_stores e

@[simp] theorem State.countBinding_stores (c : Counter) (g : Garment) : (s.countBinding c g).1.stores = s.stores := by
  unfold State.countBinding
  split <;> simp

@[simp] theorem State.loadClear_stores (p : Nat) : (State.loadClear p s).1.stores = s.stores := by
  unfold State.loadClear
  repeat' split
  any_goals rfl
  next g _ _ _ _ e =>
    have counted := s.countBinding_stores .release g
    rw [e] at counted
    simpa using counted

@[simp] theorem State.endUnload_stores (p : Fin 16) (g : Garment) (o : GarmentOutcome) :
    (s.endUnload p g o).stores = s.stores := by
  simp [State.endUnload]

@[simp] theorem State.unloadGood_stores (p : Nat) : (State.unloadGood p s).1.stores = s.stores := by
  unfold State.unloadGood
  repeat' split
  any_goals rfl
  next g _ _ _ _ _ e =>
    have counted := s.countBinding_stores .done g
    rw [e] at counted
    simpa using counted

@[simp] theorem State.unloadSpoil_stores (p : Nat) : (State.unloadSpoil p s).1.stores = s.stores := by
  unfold State.unloadSpoil
  split
  · rfl
  · simp

/-! ### The shelf -/

@[simp] theorem State.shelve_stores (p : Nat) : (State.shelve p s).1.stores = s.stores := by
  unfold State.shelve
  repeat' split
  any_goals rfl
  simp only [State.accept_fst, State.shelveGarment]
  split <;> simp

@[simp] theorem State.unshelve_stores (k p m : Nat) : (State.unshelve k p m s).1.stores = s.stores := by
  unfold State.unshelve
  dsimp only
  repeat' split
  any_goals rfl
  simp [State.restore]

@[simp] theorem State.takeOff_stores (i : Fin 8) (x : ShelfSlot) (c : Counter) (e : ShelfEvent) :
    (s.takeOff i x c e).stores = s.stores := by
  simp [State.takeOff]

@[simp] theorem State.shelfDrop_stores (k : Nat) : (State.shelfDrop k s).1.stores = s.stores := by
  unfold State.shelfDrop
  repeat' split
  all_goals simp

@[simp] theorem State.shelfExport_stores (k f : Nat) : (State.shelfExport k f s).1.stores = s.stores := by
  unfold State.shelfExport
  repeat' split
  all_goals simp

@[simp] theorem State.shelfImport_stores (r : List Byte) : (State.shelfImport r s).1.stores = s.stores := by
  unfold State.shelfImport
  repeat' split
  any_goals rfl
  next granted => simpa [State.placeImport] using State.reserve_stores granted

/-! ### The Order Book -/

@[simp] theorem State.lineAmend_stores (o : Word) (q n : Nat) : (State.lineAmend o q n s).1.stores = s.stores := by
  unfold State.lineAmend
  repeat' split
  all_goals simp

@[simp] theorem State.setOrder_stores (o : Order) (x : OrderStatus) : (s.setOrder o x).stores = s.stores := by
  rw [State.setOrder, State.raise_stores]
  exact s.setBook_stores _ rfl

@[simp] theorem State.orderHold_stores (o : Word) : (State.orderHold o s).1.stores = s.stores := by
  unfold State.orderHold
  repeat' split
  all_goals simp

@[simp] theorem State.orderRelease_stores (o : Word) : (State.orderRelease o s).1.stores = s.stores := by
  unfold State.orderRelease
  repeat' split
  all_goals simp

@[simp] theorem State.cancelOrder_stores (o : Order) : (s.cancelOrder o).stores = s.stores := by
  obtain ⟨lines, book, -⟩ := Book.cancelLines_eq o.lines s.book
  rw [State.cancelOrder, State.raiseAll_stores, State.markOrphans, State.setUnits_stores, book]
  exact s.setBook_stores _ rfl

@[simp] theorem State.orderCancel_stores (o : Word) : (State.orderCancel o s).1.stores = s.stores := by
  unfold State.orderCancel
  repeat' split
  all_goals simp

@[simp] theorem State.retireOrder_stores (o : Order) : (s.retireOrder o).stores = s.stores := by
  obtain ⟨lines, book, -⟩ := Book.freeLines_eq o.lines s.book
  simp [State.retireOrder, book, State.setBook_stores]

@[simp] theorem State.orderRetire_stores (o : Word) : (State.orderRetire o s).1.stores = s.stores := by
  unfold State.orderRetire
  repeat' split
  all_goals simp

@[simp] theorem Book.fill_catalogue (n : Word) (is : List (Fin 512)) (ls : List (PostLine × Placement)) (b : Book) :
    (b.fill n is ls).catalogue = b.catalogue := by
  induction is generalizing b ls with
  | nil => cases ls <;> rfl
  | cons i is ih =>
    cases ls with
    | nil => rfl
    | cons x ls => exact ih ls _

@[simp] theorem State.postOrder_stores (n : Word) (p : Nat) (ls : List (PostLine × Placement)) :
    (s.postOrder n p ls).1.stores = s.stores := by
  simp [State.postOrder, State.setBook_stores]

@[simp] theorem State.orderPost_stores (n : Word) (p : Nat) (ls : List PostLine) :
    (State.orderPost n p ls s).1.stores = s.stores := by
  unfold State.orderPost
  repeat' split
  any_goals rfl
  next placed _ _ _ _ _ e =>
    have posted := s.postOrder_stores n p placed
    rw [e] at posted
    simpa using posted

@[simp] theorem State.counted_stores : s.counted.stores = s.stores := by
  unfold State.counted
  dsimp only
  split <;> rfl

/-! ### Link settings -/

/-- A mask is no part of a link's invariant. -/
@[simp] theorem State.setNoticeMask_stores (l : Link) (m : Half) : (State.setNoticeMask l m s).1.stores = s.stores := by
  have links : (fun k => ((s.onLink l fun x => { x with mask := m }).link k).seen) = fun k => (s.link k).seen := by
    funext k
    by_cases e : l = k
    · subst e
      have same : LinkInv { s.link l with mask := m } ↔ LinkInv (s.link l) := ⟨fun ⟨d, c, q⟩ => ⟨d, c, q⟩, fun ⟨d, c, q⟩ => ⟨d, c, q⟩⟩
      simp [State.onLink, LinkState.seen, same]
    · rw [State.onLink, State.putLink_link_ne _ _ _ _ e]
  exact Stores.ext rfl rfl rfl rfl rfl rfl rfl rfl rfl links

end Same
end Sys2Proof.Machine
end

