-- ==== Sys2Proof/Proofs/Stored.lean ====
section
/-! PROOF. The invariants of stores, ring, catalogue, links and memory, and which operations keep them (R26, R68, R73, R122,
R164, R175). -/

namespace Sys2Proof.Machine

/-! ### What one state keeps of another -/

/-- The invariants that hold in `s` hold in `t`. -/
structure Kept (s t : State) : Prop where
  store : StoreInv s.store → StoreInv t.store
  ring : RingInv s.ring → RingInv t.ring
  catalogue : CatalogueInv s.book → CatalogueInv t.book
  links : (∀ l, LinkInv (s.link l)) → ∀ l, LinkInv (t.link l)
  mem : s.mem.wf = true → t.mem.wf = true

/-- Nothing has changed for the requests in flight. -/
structure Quiet (s t : State) : Prop where
  pull : t.ring.pull.map Pull.link = s.ring.pull.map Pull.link
  write : t.store.write.map ArtWrite.link = s.store.write.map ArtWrite.link
  lineReset : t.lineReset = s.lineReset
  slot : ∀ l, (t.link l).slot = (s.link l).slot
  tx : ∀ l, (t.link l).tx = (s.link l).tx

structure Still (s t : State) : Prop where
  kept : Kept s t
  quiet : Quiet s t

theorem Kept.refl (s : State) : Kept s s := ⟨id, id, id, id, id⟩

theorem Kept.trans {s t u : State} (a : Kept s t) (b : Kept t u) : Kept s u :=
  ⟨b.store ∘ a.store, b.ring ∘ a.ring, b.catalogue ∘ a.catalogue, b.links ∘ a.links, b.mem ∘ a.mem⟩

theorem Quiet.trans {s t u : State} (a : Quiet s t) (b : Quiet t u) : Quiet s u :=
  ⟨b.pull.trans a.pull, b.write.trans a.write, b.lineReset.trans a.lineReset, fun l => (b.slot l).trans (a.slot l),
    fun l => (b.tx l).trans (a.tx l)⟩

theorem Still.trans {s t u : State} (a : Still s t) (b : Still t u) : Still s u :=
  ⟨a.kept.trans b.kept, a.quiet.trans b.quiet⟩

/-- Extents and verification queue are all that the Art Store's invariant reads. -/
theorem StoreInv.of_same {x y : Store} (arts : y.arts = x.arts) (queue : y.verifyQueue = x.verifyQueue) (h : StoreInv x) :
    StoreInv y := by
  obtain ⟨area, apart, members, once⟩ := h
  exact ⟨by rw [arts]; exact area, by rw [arts]; exact apart, by rw [arts, queue]; exact members, by rw [queue]; exact once⟩

theorem RingInv.of_same {x y : Ring} (slots : y.slots = x.slots) (order : y.order = x.order) (h : RingInv x) : RingInv y := by
  obtain ⟨members, once⟩ := h
  exact ⟨by rw [slots, order]; exact members, by rw [order]; exact once⟩

theorem CatalogueInv.of_same {x y : Book} (same : y.catalogue = x.catalogue) (h : CatalogueInv x) : CatalogueInv y := by
  obtain ⟨once, room, named⟩ := h
  exact ⟨by rwa [same], by rwa [same], by rwa [same]⟩

/-- An operation that shows the same stores. -/
theorem Still.of_stores {s t : State} (h : t.stores = s.stores) : Still s t := by
  have links (l : Link) : (t.link l).seen = (s.link l).seen := congrFun (congrArg Stores.links h) l
  have inv (l : Link) : LinkInv (t.link l) = LinkInv (s.link l) := congrArg Prod.fst (links l)
  exact ⟨⟨.of_same (congrArg Stores.arts h) (congrArg Stores.verifyQueue h),
      .of_same (congrArg Stores.ringSlots h) (congrArg Stores.ringOrder h), .of_same (congrArg Stores.catalogue h),
      fun k l => (inv l).symm ▸ k l, fun k => (congrArg Memory.wf (congrArg Stores.mem h)).trans k⟩,
    ⟨congrArg Stores.pull h, congrArg Stores.write h, congrArg Stores.lineReset h,
      fun l => congrArg (fun x => x.2.1) (links l), fun l => congrArg (fun x => x.2.2) (links l)⟩⟩

theorem Still.of_seen {s t : State} (h : t.seen = s.seen) : Still s t := .of_stores (State.stores_of_seen h)

theorem Still.of_calmer {s t : State} (h : s.seen.calmer t.seen) : Still s t := .of_stores h.stores

theorem Still.refl (s : State) : Still s s := .of_stores rfl

section Blocks

variable {s : State}

theorem Kept.setStore {x : Store} (inv : StoreInv s.store → StoreInv x) : Kept s (s.setStore x) := ⟨inv, id, id, id, id⟩

theorem Still.setStore {x : Store} (inv : StoreInv s.store → StoreInv x)
    (write : x.write.map ArtWrite.link = s.store.write.map ArtWrite.link) : Still s (s.setStore x) :=
  ⟨.setStore inv, ⟨rfl, write, rfl, fun _ => rfl, fun _ => rfl⟩⟩

theorem Kept.setRing {x : Ring} (inv : RingInv s.ring → RingInv x) : Kept s (s.setRing x) := ⟨id, inv, id, id, id⟩

theorem Still.setRing {x : Ring} (inv : RingInv s.ring → RingInv x)
    (pull : x.pull.map Pull.link = s.ring.pull.map Pull.link) : Still s (s.setRing x) :=
  ⟨.setRing inv, ⟨pull, rfl, rfl, fun _ => rfl, fun _ => rfl⟩⟩

theorem Still.setBook {x : Book} (inv : CatalogueInv s.book → CatalogueInv x) : Still s (s.setBook x) :=
  ⟨⟨id, id, inv, id, id⟩, ⟨rfl, rfl, rfl, fun _ => rfl, fun _ => rfl⟩⟩

theorem Still.setMem {x : Memory} (inv : s.mem.wf = true → x.wf = true) : Still s (s.setMem x) :=
  ⟨⟨id, id, id, id, inv⟩, ⟨rfl, rfl, rfl, fun _ => rfl, fun _ => rfl⟩⟩

theorem Kept.setLineReset (x : Option Link) : Kept s (s.setLineReset x) := ⟨id, id, id, id, id⟩

theorem Kept.putLink {l : Link} {k : LinkState} (inv : LinkInv (s.link l) → LinkInv k) : Kept s (s.putLink l k) := by
  refine ⟨id, id, id, fun h m => ?_, id⟩
  by_cases e : l = m
  · subst e
    rw [State.putLink_link_self]
    exact inv (h l)
  · rw [State.putLink_link_ne _ _ _ _ e]
    exact h m

theorem Kept.mapLinks {f : LinkState → LinkState} (inv : ∀ k, LinkInv k → LinkInv (f k)) : Kept s (s.setLinks (s.links.map f)) := by
  refine ⟨id, id, id, fun h l => ?_, id⟩
  rw [show (s.setLinks (s.links.map f)).link l = f (s.link l) from Links.get_map f s.links l]
  exact inv _ (h l)

end Blocks

/-! ### Links -/

theorem LinkInv.of_fields {k m : LinkState} (h : LinkInv k) (queue : m.queue.length ≤ k.queue.length)
    (discards : m.discards ≤ 65535) (quiet : m.receiver = .inBreak → m.tx = .idle) : LinkInv m :=
  ⟨queue.trans h.depth, discards, quiet⟩

theorem LinkInv.discard {k : LinkState} (h : LinkInv k) : LinkInv k.discard :=
  h.of_fields le_rfl (Nat.min_le_left _ _) h.quiet

theorem LinkInv.complete {k : LinkState} (h : LinkInv k) (a : Answer) : LinkInv (k.complete a) :=
  h.of_fields (by simp) (by simpa using h.discards) (by simpa using h.quiet)

theorem LinkInv.kick {k : LinkState} (h : LinkInv k) : LinkInv k.kick := by
  refine h.of_fields (by simp) (by simpa using h.discards) fun broken => ?_
  rw [LinkState.kick_receiver] at broken
  rw [LinkState.kick_inBreak k broken]
  exact h.quiet broken

theorem LinkInv.takeUp {k : LinkState} (h : LinkInv k) (tag kind : Nat) : LinkInv (k.takeUp tag kind) :=
  h.of_fields le_rfl h.discards h.quiet

theorem LinkInv.answerAtOnce {k : LinkState} (h : LinkInv k) (tag kind : Nat) (c : ResultCode) :
    LinkInv (k.answerAtOnce tag kind c) := h.of_fields le_rfl h.discards h.quiet

theorem LinkInv.refuseBusy {k : LinkState} (h : LinkInv k) (tag kind : Nat) : LinkInv (k.refuseBusy tag kind) := by
  unfold LinkState.refuseBusy
  split
  · exact h.of_fields le_rfl h.discards h.quiet
  · exact h.discard

theorem LinkInv.emptyQueue {k : LinkState} (h : LinkInv k) : LinkInv k.emptyQueue := by
  refine h.of_fields (Nat.zero_le _) h.discards fun broken => ?_
  simp [LinkState.emptyQueue, h.quiet broken]

theorem LinkInv.silence {k : LinkState} (h : LinkInv k) : LinkInv k.silence := h.of_fields le_rfl h.discards fun _ => rfl

theorem LinkInv.receiveRequest {k : LinkState} (h : LinkInv k) (l : Link) (x : FrameHeader) (p : List Byte) :
    LinkInv (k.receiveRequest l x p) := by
  unfold LinkState.receiveRequest
  repeat' split
  · exact h.refuseBusy _ _
  · exact h.answerAtOnce _ _ _
  · exact h.answerAtOnce _ _ _
  · exact h.answerAtOnce _ _ _
  · exact h.of_fields le_rfl h.discards h.quiet

/-- A receiver that leaves BREAK or is not in it. -/
theorem LinkInv.listening {k : LinkState} (h : LinkInv k) {r : Receiver} (open_ : r ≠ .inBreak) :
    LinkInv { k with receiver := r } := h.of_fields le_rfl h.discards fun e => absurd e open_

theorem LinkInv.receive {k : LinkState} (h : LinkInv k) (l : Link) (bytes : List Byte) : LinkInv (k.receive l bytes) := by
  unfold LinkState.receive
  split
  · dsimp only
    split
    · exact h.listening (by simp)
    · split
      · exact h.discard.listening (by simp)
      · split
        · exact h.listening (by simp)
        · have hunting : LinkInv { k with receiver := .hunting } := h.listening (by simp)
          unfold LinkState.receiveFrame
          dsimp only
          split
          · exact hunting.receiveRequest _ _ _
          · exact hunting.discard
  · exact h

theorem LinkInv.abandon {k : LinkState} (h : LinkInv k) (c : AbandonCause) : LinkInv (k.abandon c) := by
  unfold LinkState.abandon
  split
  · cases c <;> exact h.discard.listening (by simp)
  · exact h

theorem LinkInv.start {k : LinkState} (h : LinkInv k) : LinkInv k.start := by
  unfold LinkState.start
  split
  · exact h.listening (by simp)
  · exact h.abandon _
  · exact h

theorem LinkInv.sent {k : LinkState} (h : LinkInv k) : LinkInv k.sent := by
  unfold LinkState.sent
  split
  · exact h
  · exact h.of_fields le_rfl h.discards fun _ => rfl
  · exact h.of_fields le_rfl h.discards fun _ => rfl
  · exact h.of_fields (by simp) h.discards fun _ => rfl
  · exact h.of_fields le_rfl h.discards fun _ => rfl

theorem LinkInv.broken {k : LinkState} (l : Link) : LinkInv (k.broken l) := ⟨Nat.zero_le _, Nat.zero_le _, fun _ => rfl⟩

theorem LinkInv.breakEnded {k : LinkState} (h : LinkInv k) : LinkInv k.breakEnded := by
  unfold LinkState.breakEnded
  split
  · exact h.listening (by simp)
  · exact h

/-! ### The catalogue (R26, R27) -/

theorem Book.classOf_eq_none {b : Book} {x : BlankCode} (h : b.classOf x = none) : ∀ e ∈ b.catalogue, e.blank ≠ x := by
  unfold Book.classOf at h
  simpa using h

theorem State.catalogueSet_still (s : State) (x : BlankCode) (cls : Nat) : Still s (State.catalogueSet x cls s).1 := by
  have written (l : List CatalogueEntry) (inv : CatalogueInv s.book → CatalogueInv { s.book with catalogue := l }) :
      Still s ((s.setBook { s.book with catalogue := l }).rematch .catalogueWrite) :=
    (Still.setBook inv).trans (.of_stores (State.rematch_stores _ _))
  unfold State.catalogueSet
  dsimp only
  split
  · exact .refl s
  next named =>
    split
    · exact .refl s
    next c _ =>
      split
      · refine written _ fun ⟨once, room, fine⟩ => ?_
        have blanks : (s.book.catalogue.map fun e => if e.blank = x then ⟨x, c⟩ else e).map CatalogueEntry.blank =
            s.book.catalogue.map CatalogueEntry.blank := by
          rw [List.map_map]
          refine List.map_congr_left fun e _ => ?_
          dsimp only [Function.comp]
          split
          next same => exact same.symm
          · rfl
        refine ⟨blanks ▸ once, by simpa using room, fun e he => ?_⟩
        have mem : e.blank ∈ s.book.catalogue.map CatalogueEntry.blank := blanks ▸ List.mem_map_of_mem he
        obtain ⟨f, hf, same⟩ := List.mem_map.1 mem
        exact same ▸ fine f hf
      next fresh =>
        split
        · exact .refl s
        next room' =>
          have absent := Book.classOf_eq_none (Option.not_isSome_iff_eq_none.1 fresh)
          refine written _ fun ⟨once, room, fine⟩ => ⟨?_, ?_, fun e he => ?_⟩
          · rw [List.map_append, List.map_singleton, List.nodup_append]
            refine ⟨once, by simp, fun a ha b hb e => ?_⟩
            obtain ⟨f, hf, rfl⟩ := List.mem_map.1 ha
            rw [List.mem_singleton] at hb
            exact absent f hf (e.trans hb)
          · simp only [List.length_append, List.length_singleton]
            omega
          · rcases List.mem_append.1 he with he | he
            · exact fine e he
            · obtain rfl := List.mem_singleton.1 he
              intro null
              exact named (by rw [show x = _ from null]; rfl)

theorem State.catalogueRemove_still (s : State) (x : BlankCode) : Still s (State.catalogueRemove x s).1 := by
  unfold State.catalogueRemove
  split
  · exact .refl s
  · refine Still.trans (Still.setBook fun ⟨once, room, fine⟩ => ⟨?_, ?_, ?_⟩) (.of_stores (State.rematch_stores _ _))
    · exact once.sublist (List.filter_sublist.map _)
    · exact (List.length_filter_le _ _).trans room
    · exact fun e he => fine e (List.mem_filter.1 he).1

end Sys2Proof.Machine
end

