-- ==== Sys2Proof/Proofs/StoredArt.lean ====
section
/-! PROOF. The Art Store's, the ring's and the arbiter's operations keep their invariants (R68 to R77, R122 to R132). -/

namespace Sys2Proof.Machine

/-! ### Art descriptors -/

/-- Descriptors that keep their extents, with the queue made to agree with their states. -/
theorem StoreInv.restate {x y : Store} (h : StoreInv x)
    (extents : ∀ (k : Fin 64) d, y.arts[k] = some d → ∃ e, x.arts[k] = some e ∧ d.base = e.base ∧ d.stop = e.stop)
    (queue : ∀ k : Fin 64, k ∈ y.verifyQueue ↔ y.arts[k].map Art.status = some .verifying) (once : y.verifyQueue.Nodup) :
    StoreInv y := by
  refine ⟨fun k d at_ => ?_, fun k j d e ne at_ on => ?_, queue, once⟩
  · obtain ⟨e, here, -, stop⟩ := extents k d at_
    exact stop ▸ h.area k e here
  · obtain ⟨d', here, base, stop⟩ := extents k d at_
    obtain ⟨e', there, base', stop'⟩ := extents j e on
    rw [base, stop, base', stop']
    exact h.apart k j d' e' ne here there

/-- One descriptor rewritten in place. -/
theorem StoreInv.rewritten {x y : Store} (h : StoreInv x) {i : Fin 64} {d : Art} (here : x.arts[i] = some d) {e : Art}
    (base : e.base = d.base) (stop : e.stop = d.stop) (arts : y.arts = upd x.arts i (some e))
    (queue : ∀ k : Fin 64, k ∈ y.verifyQueue ↔ if i = k then e.status = .verifying else k ∈ x.verifyQueue)
    (once : y.verifyQueue.Nodup) : StoreInv y := by
  refine h.restate (fun k f at_ => ?_) (fun k => ?_) once
  · rw [arts, upd_get] at at_
    split at at_
    next same =>
      subst same
      obtain rfl := Option.some.inj at_
      exact ⟨d, here, base, stop⟩
    · exact ⟨f, at_, rfl, rfl⟩
  · rw [queue, arts, upd_get]
    split
    · simp
    · exact h.queue k

theorem rangesShare_comm (a b c d : Nat) : rangesShare a b c d = rangesShare c d a b := by
  simp [rangesShare, and_comm]

theorem State.artOverlaps_false {s : State} {a b : Nat} (h : s.artOverlaps a b = false) (k : Fin 64) (e : Art)
    (here : s.store.arts[k] = some e) : rangesShare a b e.base e.stop = false := by
  have none_ := List.any_eq_false.1 h (some e) (by rw [Vector.mem_toList_iff, ← here]; exact Vector.getElem_mem _)
  simpa using none_

theorem State.freeArt_empty {s : State} {h : Fin 64} (e : s.freeArt = some h) : s.store.arts[h] = none := by
  simpa using List.find?_some e

/-- R70: a LOADING descriptor in a FREE one's place. -/
theorem StoreInv.opened {s : State} (h : StoreInv s.store) {i : Fin 64} {d : Art} (free : s.store.arts[i] = none)
    (loading : d.status = .loading) (area : d.stop ≤ artAreaStop) (apart : s.artOverlaps d.base d.stop = false) :
    StoreInv { s.store with arts := upd s.store.arts i (some d) } := by
  have each (k : Fin 64) (e : Art) (at_ : (upd s.store.arts i (some d))[k] = some e) :
      (i = k ∧ d = e) ∨ i ≠ k ∧ s.store.arts[k] = some e := by
    rw [upd_get] at at_
    split at at_
    next same => exact .inl ⟨same, Option.some.inj at_⟩
    next ne => exact .inr ⟨ne, at_⟩
  refine ⟨fun k e at_ => ?_, fun k j e f ne at_ on => ?_, fun k => ?_, h.once⟩
  · rcases each k e at_ with ⟨-, rfl⟩ | ⟨-, here⟩
    · exact area
    · exact h.area k e here
  · rcases each k e at_ with ⟨rfl, rfl⟩ | ⟨-, here⟩
    · rcases each j f on with ⟨rfl, -⟩ | ⟨-, there⟩
      · exact absurd rfl ne
      · exact State.artOverlaps_false apart j f there
    · rcases each j f on with ⟨rfl, rfl⟩ | ⟨-, there⟩
      · rw [rangesShare_comm]
        exact State.artOverlaps_false apart k e here
      · exact h.apart k j e f ne here there
  · have queue := h.queue k
    rw [upd_get]
    split
    next same =>
      subst same
      simpa [free, loading] using queue
    · exact queue

theorem artInRange_stop {f : ArtFormat} {p w h d b : Nat} (r : artInRange f p w h d b = true) : b + d * h ≤ artAreaStop := by
  simp only [artInRange, decide_eq_true_eq] at r
  exact r.2.2.2.2.2.2.2.2

theorem State.artOpen_still (s : State) (format palette width height stride base : Nat) (crc : Word) :
    Still s (State.artOpen format palette width height stride base crc s).1 := by
  unfold State.artOpen
  split
  · exact .refl s
  · split
    · exact .refl s
    next inside =>
      split
      · exact .refl s
      next free =>
        extract_lets _ d
        split
        · exact .refl s
        next apart =>
          refine Still.trans ?_ (.of_stores (State.raise_stores _ _))
          refine Still.setStore (fun h => ?_) rfl
          exact h.opened (d := d) (State.freeArt_empty free) rfl (artInRange_stop (by simpa using inside))
            (by simpa using apart)

/-- R72: a sealed descriptor joins the queue. -/
theorem State.artSeal_still (s : State) (handle : Nat) (crc : Option Word) : Still s (State.artSeal handle crc s).1 := by
  unfold State.artSeal
  dsimp only
  repeat' split
  any_goals exact .refl s
  next i _ _ d here loading =>
    have here : s.store.arts[i] = some d := here
    have loading : d.status = .loading := not_not.1 loading
    refine Still.trans ?_ (.of_stores (State.raise_stores _ _))
    refine Still.setStore (fun h => ?_) rfl
    have fresh : i ∉ s.store.verifyQueue := fun mem => by
      have := (h.queue i).1 mem
      rw [here, Option.map_some, loading] at this
      cases this
    refine h.rewritten here (e := { d with expected := crc.getD d.expected, status := .verifying }) rfl rfl rfl (fun k => ?_) ?_
    · rw [List.mem_append, List.mem_singleton, show (s.putArt i _).store.verifyQueue = s.store.verifyQueue from rfl]
      by_cases e : i = k
      · simp [e]
      · simp [e, Ne.symm e]
    · rw [List.nodup_append]
      refine ⟨h.once, by simp, fun a ha b hb e => fresh ?_⟩
      rw [List.mem_singleton] at hb
      exact hb ▸ e ▸ ha

theorem StoreInv.freed {x y : Store} (h : StoreInv x) {i : Fin 64} (arts : y.arts = upd x.arts i none)
    (queue : y.verifyQueue = x.verifyQueue.filter fun k => k != i) : StoreInv y := by
  refine h.restate (fun k d at_ => ?_) (fun k => ?_) (queue ▸ h.once.sublist List.filter_sublist)
  · rw [arts, upd_get] at at_
    split at at_
    · cases at_
    · exact ⟨d, at_, rfl, rfl⟩
  · rw [queue, arts, upd_get, List.mem_filter]
    split
    next same => simp [same]
    next ne => simpa [Ne.symm ne] using h.queue k

theorem State.artFree_still (s : State) (handle : Nat) : Still s (State.artFree handle s).1 := by
  unfold State.artFree
  repeat' split
  any_goals exact .refl s
  next i _ _ d here free =>
    refine Still.trans (t := (s.leaveQueue i).putArt i none) ?_ (.of_stores (State.raise_stores _ _))
    unfold State.leaveQueue
    dsimp only
    split
    · exact Still.trans (Still.setStore (x := { s.store with
          arts := upd s.store.arts i none, verifyQueue := s.store.verifyQueue.filter fun k => k != i, verify := none })
        (fun h => h.freed rfl rfl) rfl) (.of_stores rfl)
    · exact Still.setStore (x := { s.store with
        arts := upd s.store.arts i none, verifyQueue := s.store.verifyQueue.filter fun k => k != i })
        (fun h => h.freed rfl rfl) rfl

/-- R73, R75: rows checked is no part of the invariant. -/
theorem StoreInv.checked {x y : Store} (h : StoreInv x) {i : Fin 64} {d : Art} (here : x.arts[i] = some d) (n : Nat)
    (arts : y.arts = upd x.arts i (some { d with rowsChecked := n })) (queue : y.verifyQueue = x.verifyQueue) : StoreInv y := by
  refine h.rewritten here (e := { d with rowsChecked := n }) rfl rfl arts (fun k => ?_) (queue ▸ h.once)
  rw [queue]
  split
  next same =>
    subst same
    rw [h.queue, here]
    simp
  · rfl

theorem State.passStart_still (s : State) : Still s s.passStart := by
  unfold State.passStart
  split
  next h _ _ _ =>
    split
    · exact .refl s
    next d here =>
      exact Still.setStore (x := { (s.putArt h (some { d with rowsChecked := 0 })).store with verify := some ⟨0, 0, crc32Start⟩ })
        (fun inv => inv.checked here 0 rfl rfl) rfl
  · exact .refl s

theorem State.passEnd_still (s : State) : Still s s.passEnd := by
  unfold State.passEnd
  split
  next i rest _ queued =>
    split
    · exact .refl s
    next d here =>
      split
      · exact .refl s
      · extract_lets _ good done _
        have here : s.store.arts[i] = some d := here
        have judged : done.status ≠ .verifying := by
          show (if good then ArtStatus.ready else .bad) ≠ _
          cases good <;> simp
        refine Still.trans ?_ (.of_stores ((State.rematchIf_stores _ _).trans (State.raise_stores _ _)))
        refine Still.setStore (fun h => ?_) rfl
        have once := h.once
        rw [queued] at once
        obtain ⟨out, once⟩ := List.nodup_cons.1 once
        refine h.rewritten (e := done) here rfl rfl rfl (fun k => ?_) once
        rw [queued, List.mem_cons]
        by_cases same : i = k
        · rw [if_pos same, ← same]
          exact ⟨fun mem => absurd mem out, fun e => absurd e judged⟩
        · simp [same, Ne.symm same]
  · exact .refl s

/-- R84: no descriptor is VERIFYING after a line reset. -/
theorem StoreInv.unverified {x y : Store} (h : StoreInv x) (arts : y.arts = vmap (Option.map Art.unverified) x.arts)
    (queue : y.verifyQueue = []) : StoreInv y := by
  have extent (d : Art) : d.unverified.base = d.base ∧ d.unverified.stop = d.stop := by
    unfold Art.unverified
    split <;> exact ⟨rfl, rfl⟩
  refine h.restate (fun k d at_ => ?_) (fun k => ?_) (queue ▸ List.nodup_nil)
  · rw [arts, vmap_get] at at_
    obtain ⟨e, here, rfl⟩ := Option.map_eq_some_iff.1 at_
    exact ⟨e, here, (extent e).1, (extent e).2⟩
  · rw [queue, arts, vmap_get]
    cases x.arts[k] with
    | none => simp
    | some d =>
      by_cases v : d.status = .verifying <;> simp [Art.unverified, v]

/-! ### Bursts -/

theorem State.deliver_still (s : State) (g : Granted) : Still s (s.deliver g) := by
  unfold State.deliver
  split
  · unfold State.deliverPull
    split
    · exact .refl s
    next e => exact Still.setRing (fun h => .of_same (by rfl) (by rfl) h) (by rw [e]; rfl)
  · exact .of_seen (s.deliverEngine_seen _)
  · unfold State.deliverVerify
    split
    next v i d _ at_ =>
      have here : s.store.arts[i] = some d := by
        unfold State.verifying at at_
        split at at_
        · cases at_
        · obtain ⟨e, there, same⟩ := Option.map_eq_some_iff.1 at_
          obtain ⟨rfl, rfl⟩ := Prod.mk.inj same
          exact there
      exact Still.setStore (x := { (s.putArt i (some { d with rowsChecked := _ })).store with verify := some _ })
        (fun h => h.checked here _ rfl rfl) rfl
    · exact .refl s
  · unfold State.deliverWrite
    split
    · exact .refl s
    next e => exact Still.setStore (fun h => .of_same (by rfl) (by rfl) h) (by rw [e]; rfl)
  · exact .refl s

theorem State.burstComplete_still (s : State) : Still s s.burstComplete := by
  unfold State.burstComplete
  split
  · exact .refl s
  next g _ =>
    have written : Still s (match g.burst.data with
        | .read => s.setArbiter { s.arbiter with port := none }
        | .write start bytes =>
          (s.setArbiter { s.arbiter with port := none }).setMem ((s.setArbiter { s.arbiter with port := none }).mem.writeRun
            start bytes)) := by
      split
      · exact .of_stores rfl
      · exact Still.trans (t := s.setArbiter { s.arbiter with port := none }) (.of_stores rfl)
          (Still.setMem fun h => Memory.writeRun_wf _ _ _ h)
    dsimp only
    split
    · exact written.trans (State.deliver_still _ g)
    · exact written

/-! ### The ring -/

theorem RingInv.taken {r x : Ring} (h : RingInv r) {i : Fin 4} {w : Swath} (free : r.slots[i] = none)
    (slots : x.slots = upd r.slots i (some w)) (order : x.order = r.order ++ [i]) : RingInv x := by
  have fresh : i ∉ r.order := fun mem => by
    have := (h.slots i).1 mem
    rw [free] at this
    cases this
  refine ⟨fun k => ?_, ?_⟩
  · rw [slots, order, upd_get, List.mem_append, List.mem_singleton]
    by_cases e : i = k
    · simp [e]
    · simpa [e, Ne.symm e] using h.slots k
  · rw [order, List.nodup_append]
    refine ⟨h.once, by simp, fun a ha b hb e => fresh ?_⟩
    rw [List.mem_singleton] at hb
    exact hb ▸ e ▸ ha

/-- A slot rewritten that stays taken or stays FREE. -/
theorem RingInv.rewritten {r x : Ring} (h : RingInv r) {i : Fin 4} {w : Option Swath} (same : w.isSome = r.slots[i].isSome)
    (slots : x.slots = upd r.slots i w) (order : x.order = r.order) : RingInv x := by
  refine ⟨fun k => ?_, order ▸ h.once⟩
  rw [slots, order, upd_get]
  split
  next e =>
    subst e
    rw [same]
    exact h.slots i
  · exact h.slots k

theorem RingInv.freed {r x : Ring} (h : RingInv r) {i : Fin 4} (slots : x.slots = upd r.slots i none)
    (order : x.order = r.order.filter fun k => k != i) : RingInv x := by
  refine ⟨fun k => ?_, order ▸ h.once.sublist List.filter_sublist⟩
  rw [slots, order, upd_get, List.mem_filter]
  by_cases e : i = k
  · simp [e]
  · simpa [e, Ne.symm e] using h.slots k

theorem RingInv.release {r : Ring} (h : RingInv r) (f : Swath → Bool) : RingInv (r.release f) := by
  refine ⟨fun k => ?_, h.once.sublist List.filter_sublist⟩
  have slot : (r.release f).slots[k] = if r.slots[k].any f then none else r.slots[k] := Vector.getElem_ofFn _
  have order : k ∈ (r.release f).order ↔ k ∈ r.order ∧ r.slots[k].any f = false := by
    simp [Ring.release, List.mem_filter]
  rw [slot, order, h.slots k]
  cases r.slots[k].any f <;> simp

theorem Ring.freeSlot_empty {r : Ring} {i : Fin 4} (h : r.freeSlot = some i) : r.slots[i] = none := by
  simpa using List.find?_some h

theorem State.freeSlot_of_swathPossible {s : State} {x : Producing} {i : Fin 4} (h : s.swathPossible = some (x, i)) :
    s.ring.freeSlot = some i := by
  unfold State.swathPossible at h
  split at h
  next e =>
    obtain ⟨-, rfl⟩ := Prod.mk.inj (Option.some.inj h)
    exact e
  · cases h

theorem State.swathUnitBegin_still (s : State) : Still s s.swathUnitBegin := by
  unfold State.swathUnitBegin
  split
  next x i _ possible =>
    have free := Ring.freeSlot_empty (State.freeSlot_of_swathPossible possible)
    unfold State.beginSwath
    refine Still.trans ?_ (.of_stores (State.setEngine_stores _ _))
    refine Still.trans ?_ (Still.setRing (fun h => ?_) ?_)
    · exact .of_stores (State.putGarment_stores _ _ _)
    · exact RingInv.taken h free rfl rfl
    · rfl
  · exact .refl s

theorem State.handSwath_still (s : State) (u : RasterUnit) (f : SwathPhase) (i : Nat) (k : Fin 4) :
    Still s (s.handSwath u f i k) := by
  have ring : Still s (s.setRing { s.ring with
      slots := upd s.ring.slots k (s.ring.slots[k].map fun w => { w with status := .ready }) }) :=
    Still.setRing (fun h => RingInv.rewritten h (by rw [Option.isSome_map]) rfl rfl) rfl
  unfold State.handSwath
  dsimp only
  repeat' split
  · exact ring
  · exact ring
  · exact ring.trans (.of_stores (State.putGarment_stores _ _ _))

theorem State.swathUnitEnd_still (s : State) : Still s s.swathUnitEnd := by
  unfold State.swathUnitEnd
  repeat' split
  any_goals exact .refl s
  · exact .of_stores rfl
  · exact (State.handSwath_still s _ _ _ _).trans (.of_stores rfl)

theorem Ring.holding_slot {r : Ring} {x : Word} {q : Nat} {i : Fin 4} {w : Swath} (h : r.holding x q = some (i, w)) :
    r.slots[i] = some w := by
  obtain ⟨j, -, found⟩ := List.exists_of_findSome?_eq_some h
  split at found
  · cases found
  next here =>
    split at found
    · obtain ⟨rfl, rfl⟩ := Prod.mk.inj (Option.some.inj found)
      exact here
    · cases found

theorem State.pullable_slot {s : State} {q : Nat} {x : Session} {g : Garment} {i : Fin 4} {w : Swath}
    (h : s.pullable q = .ok (x, g, i, w)) : s.ring.slots[i] = some w := by
  unfold State.pullable at h
  repeat' split at h
  any_goals cases h
  next held => exact Ring.holding_slot held

theorem State.swathRelease_still (s : State) (q : Nat) : Still s (State.swathRelease q s).1 := by
  unfold State.swathRelease
  split
  · exact .refl s
  · refine Still.trans ?_ (.of_stores (State.putGarment_stores _ _ _))
    exact Still.setRing (fun h => h.freed (by rfl) (by rfl)) rfl

theorem State.printEndAbort_still (s : State) : Still s s.printEndAbort.1 := by
  unfold State.printEndAbort
  split
  · exact .refl s
  next x g _ =>
    refine Still.trans ?_ (Still.setRing (fun h => ?_) ?_)
    · exact .of_stores ((State.putGarment_stores _ _ _).trans (State.stores_of_seen (s.discardSwathUnit_seen x.platen x.serial)))
    · exact .of_same (by rfl) (by rfl) (h.release fun w => w.serial == x.serial)
    · rfl

end Sys2Proof.Machine
end

