-- ==== Sys2Proof/Proofs/RequestsInFlight.lean ====
section
/-! PROOF. The requests in flight: what a pull, a write and a line reset at work wait for, through every symbol, frame,
break and request (R129, R71, R167 to R172). -/

namespace Sys2Proof.Machine

/-! ### What a parsed request is -/

/-- Whatever a reader reads has a property. -/
def Gives {α : Type} (p : Parse α) (P : α → Prop) : Prop := ∀ bytes x rest, p bytes = some (x, rest) → P x

theorem Gives.pure {α : Type} {P : α → Prop} {x : α} (h : P x) : Gives (pure x) P := by
  intro bytes y rest e
  cases e
  exact h

theorem Gives.failure {α : Type} {P : α → Prop} : Gives (failure : Parse α) P := by
  intro bytes y rest e
  cases e

theorem Gives.bind {α β : Type} {P : β → Prop} {p : Parse α} {f : α → Parse β} (h : ∀ a, Gives (f a) P) :
    Gives (p >>= f) P := by
  intro bytes y rest e
  obtain ⟨⟨a, left⟩, -, e⟩ := Option.bind_eq_some_iff.1 e
  exact h a left y rest e

/-- R179: every payload reader reads a request of its kind. -/
theorem requestPayload_gives (v : Via) (kind : Nat) :
    Gives (requestPayload v kind) fun i => Instr.asRequest i = some (v, kind) := by
  unfold requestPayload
  split
  case h_47 =>
    refine .bind fun result => ?_
    split
    · exact .pure rfl
    · exact .pure rfl
    · exact .failure
  case h_49 => exact .failure
  all_goals
    repeat refine .bind fun _ => ?_
    exact .pure rfl

theorem asRequest_of_parse {v : Via} {kind : Nat} {payload : List Byte} {i : Instr}
    (h : parseRequest v kind payload = some i) : Instr.asRequest i = some (v, kind) := by
  unfold parseRequest Parse.whole at h
  split at h
  next e =>
    obtain rfl := Option.some.inj h
    exact requestPayload_gives v kind _ _ _ e
  · cases h

/-! ### The invariant, link by link -/

/-- Nothing at work waits for this link's slot. -/
structure Idle (s : State) (l : Link) : Prop where
  pull : ∀ x, s.ring.pull = some x → x.link ≠ l
  write : ∀ x, s.store.write = some x → x.link ≠ l
  lineReset : s.lineReset ≠ some l

namespace RequestInv

variable {s t : State}

theorem idle (h : RequestInv s) {l : Link} (notWorking : ∀ tag kind, (s.link l).slot ≠ .inFlight tag kind .working) :
    Idle s l := by
  refine ⟨fun x e same => ?_, fun x e same => ?_, fun e => ?_⟩
  · obtain ⟨tag, slot⟩ := h.pull x e
    exact notWorking _ _ (same ▸ slot)
  · obtain ⟨tag, slot⟩ := h.write x e
    exact notWorking _ _ (same ▸ slot)
  · obtain ⟨tag, slot⟩ := h.lineReset l e
    exact notWorking _ _ slot

theorem quiet (q : Quiet s t) (h : RequestInv s) : RequestInv t := by
  obtain ⟨pull, write, lineReset, slot, tx⟩ := q
  refine ⟨fun l tag kind i e => h.handed l tag kind i ((slot l).symm.trans e), fun x e => ?_, fun x e => ?_, fun l e => ?_,
    fun l f e => ?_⟩
  · rw [e] at pull
    obtain ⟨y, there, same⟩ := Option.map_eq_some_iff.1 pull.symm
    rw [slot, ← same]
    exact h.pull y there
  · rw [e] at write
    obtain ⟨y, there, same⟩ := Option.map_eq_some_iff.1 write.symm
    rw [slot, ← same]
    exact h.write y there
  · rw [slot]
    exact h.lineReset l (lineReset.symm.trans e)
  · rw [slot]
    exact h.reply l f ((tx l).symm.trans e)

/-- One link rewritten: its slot stays, or nothing waits for it. -/
theorem putLink (h : RequestInv s) {l : Link} {k : LinkState} (idle : k.slot = (s.link l).slot ∨ Idle s l)
    (handed : ∀ tag kind i, k.slot = .inFlight tag kind (.handed i) → Instr.asRequest i = some (⟨l, tag⟩, kind))
    (reply : ∀ f, k.tx = .sending .reply f → ∃ tag kind a, k.slot = .inFlight tag kind (.ready a)) :
    RequestInv (s.putLink l k) := by
  have waits {m : Link} {kind : Nat} (busy : Idle s l → m ≠ l) (at_ : ∃ tag, (s.link m).slot = .inFlight tag kind .working) :
      ∃ tag, ((s.putLink l k).link m).slot = .inFlight tag kind .working := by
    by_cases e : l = m
    · subst e
      rw [State.putLink_link_self]
      rcases idle with same | free
      · rwa [same]
      · exact absurd rfl (busy free)
    · rwa [State.putLink_link_ne _ _ _ _ e]
  refine ⟨fun m tag kind i e => ?_, fun x e => waits (fun free => free.pull x e) (h.pull x e),
    fun x e => waits (fun free => free.write x e) (h.write x e),
    fun m e => waits (fun free same => free.lineReset (same ▸ e)) (h.lineReset m e), fun m f e => ?_⟩
  · by_cases same : l = m
    · subst same
      rw [State.putLink_link_self] at e
      exact handed tag kind i e
    · rw [State.putLink_link_ne _ _ _ _ same] at e
      exact h.handed m tag kind i e
  · by_cases same : l = m
    · subst same
      rw [State.putLink_link_self] at e ⊢
      exact reply f e
    · rw [State.putLink_link_ne _ _ _ _ same] at e ⊢
      exact h.reply m f e

/-- A link rewritten but for its slot; no reply is begun. -/
theorem putLink_same (h : RequestInv s) {l : Link} {k : LinkState} (slot : k.slot = (s.link l).slot)
    (tx : ∀ f, k.tx = .sending .reply f → (s.link l).tx = .sending .reply f) : RequestInv (s.putLink l k) := by
  refine h.putLink (.inl slot) (fun tag kind i e => h.handed l tag kind i (slot ▸ e)) fun f e => ?_
  rw [slot]
  exact h.reply l f (tx f e)

/-- No reply is being sent while the slot holds none. -/
theorem not_replying (h : RequestInv s) {l : Link} (none_ : ∀ tag kind a, (s.link l).slot ≠ .inFlight tag kind (.ready a))
    (f : List Byte) : (s.link l).tx ≠ .sending .reply f := fun e => by
  obtain ⟨tag, kind, a, slot⟩ := h.reply l f e
  exact none_ tag kind a slot

/-- R167: a completed request, for which nothing waits any more. -/
theorem answer (h : RequestInv s) {l : Link} (free : Idle s l) (a : Answer) : RequestInv (s.answer l a) := by
  unfold State.answer
  refine h.putLink (.inr free) (fun tag kind i e => ?_) fun f e => ?_
  · unfold LinkState.complete at e
    split at e
    · split at e <;> cases e
    · exact h.handed l tag kind i e
  · rw [LinkState.complete_tx] at e
    obtain ⟨tag, kind, b, slot⟩ := h.reply l f e
    exact ⟨tag, kind, b, by simp [LinkState.complete, slot]⟩

/-- The links started at the end of a step. -/
theorem settle (h : RequestInv s) : RequestInv s.settle := by
  refine ⟨fun l tag kind i e => ?_, fun x e => ?_, fun x e => ?_, fun l e => ?_, fun l f e => ?_⟩
  · rw [State.settle_link, LinkState.kick_slot] at e
    exact h.handed l tag kind i e
  · rw [State.settle_link, LinkState.kick_slot]
    exact h.pull x e
  · rw [State.settle_link, LinkState.kick_slot]
    exact h.write x e
  · rw [State.settle_link, LinkState.kick_slot]
    exact h.lineReset l e
  · rw [State.settle_link] at e ⊢
    rw [LinkState.kick_slot]
    have begun {tag kind : Nat} {a : Answer} (r : (s.link l).readyReply = some (tag, kind, a)) :
        ∃ tag kind a, (s.link l).slot = .inFlight tag kind (.ready a) := by
      unfold LinkState.readyReply at r
      split at r
      next slot => exact ⟨_, _, _, slot⟩
      · cases r
    unfold LinkState.kick at e
    split at e
    · exact h.reply l f e
    · split at e
      · exact h.reply l f e
      · split at e
        next r => exact begun r
        next r => exact begun r
        · cases e
        · split at e
          · exact h.reply l f e
          · cases e

/-! ### Requests taken -/

theorem takeUp (h : RequestInv s) {l : Link} {tag kind : Nat} (waiting : ∀ tag kind, (s.link l).slot ≠ .inFlight tag kind .working)
    (unready : ∀ tag kind a, (s.link l).slot ≠ .inFlight tag kind (.ready a)) (mode : Bool) :
    RequestInv (s.putLink l { (s.link l).takeUp tag kind with silent := mode }) :=
  h.putLink (.inr (h.idle waiting)) (fun _ _ _ e => by cases e) fun f e => absurd e (h.not_replying unready f)

theorem refuseBusy (h : RequestInv s) (l : Link) (tag kind : Nat) : RequestInv (s.putLink l ((s.link l).refuseBusy tag kind)) := by
  unfold LinkState.refuseBusy
  split
  · exact h.putLink_same rfl fun _ e => e
  · exact h.putLink_same rfl fun _ e => e

theorem answerAtOnce (h : RequestInv s) {l : Link} (free : (s.link l).slot = .free) (tag kind : Nat) (c : ResultCode) :
    RequestInv (s.putLink l ((s.link l).answerAtOnce tag kind c)) :=
  h.putLink (.inr (h.idle (by simp [free]))) (fun _ _ _ e => by cases e)
    fun f e => absurd e (h.not_replying (by simp [free]) f)

end RequestInv

/-! ### A request command -/

theorem Idle.quiet {s t : State} {l : Link} (q : Quiet s t) (h : Idle s l) : Idle t l := by
  obtain ⟨pull, write, lineReset, -, -⟩ := q
  refine ⟨fun x e => ?_, fun x e => ?_, lineReset ▸ h.lineReset⟩
  · rw [e] at pull
    obtain ⟨y, there, same⟩ := Option.map_eq_some_iff.1 pull.symm
    exact same ▸ h.pull y there
  · rw [e] at write
    obtain ⟨y, there, same⟩ := Option.map_eq_some_iff.1 write.symm
    exact same ▸ h.write y there

/-- Where a link is rewritten, what waits for its slot does so as before. -/
theorem Idle.putLink {s : State} {l : Link} (h : Idle s l) (k : LinkState) : Idle (s.putLink l k) l :=
  ⟨h.pull, h.write, h.lineReset⟩

/-- A handler keeps the requests in flight consistent, its own at work. -/
def KeepsRequests (l : Link) (kind : Nat) (h : State → Taken) : Prop :=
  ∀ s tag, RequestInv s → Idle s l → (s.link l).slot = .inFlight tag kind .working → RequestInv (s.handle l h)

theorem KeepsRequests.of_still {h : State → Taken} (still : ∀ s, Still s (h s).1) (l : Link) (kind : Nat) :
    KeepsRequests l kind h := by
  intro s tag inv free _
  have q := (still s).quiet
  unfold State.handle
  split
  next e => simpa [e] using inv.quiet q
  next e =>
    rw [e] at q
    exact (inv.quiet q).answer (free.quiet q) _

section Request

variable {v : Via} {kind : Nat} {i : Instr} {h : State → Taken} {s t : State}

/-- R167, log 3: a request command taken keeps what its handler keeps. -/
theorem takeRequest_keepsRequests (kinds : Instr.asRequest i = some (v, kind)) (handler : KeepsRequests v.link kind h)
    (inv : RequestInv s) : RequestInv (s.takeRequest v kind i h) := by
  unfold State.takeRequest
  dsimp only
  split
  next tag kd j slot =>
    split
    next same =>
      subst same
      obtain rfl : kd = kind := congrArg Prod.snd (Option.some.inj ((inv.handed v.link tag kd j slot).symm.trans kinds))
      have taken := inv.takeUp (l := v.link) (tag := tag) (kind := kd) (by simp [slot]) (by simp [slot]) (s.link v.link).silent
      exact handler _ tag taken ((inv.idle (by simp [slot])).putLink _) (by simp [LinkState.takeUp])
    · split
      · exact inv
      · exact inv.refuseBusy _ _ _
  · split
    · exact inv
    · exact inv.refuseBusy _ _ _
  next slot =>
    split
    · exact inv
    · split
      · exact handler _ v.tag (inv.takeUp (by simp [slot]) (by simp [slot]) false) ((inv.idle (by simp [slot])).putLink _)
          (by simp [State.taken, LinkState.takeUp])
      · exact inv.answerAtOnce slot _ _ _

theorem handle_kept (handler : ∀ s, Kept s (h s).1) (s : State) (l : Link) : Kept s (s.handle l h) := by
  have k := handler s
  unfold State.handle
  split
  next e => simpa [e] using k
  next e =>
    rw [e] at k
    exact k.trans (.putLink fun inv => inv.complete _)

theorem settle_kept (s : State) : Kept s s.settle :=
  Kept.trans (t := s.judgeIndicators) (Still.of_seen (State.setIndicators_seen s _)).kept (.mapLinks fun _ inv => inv.kick)

theorem takeRequest_kept (handler : ∀ s, Kept s (h s).1) : Kept s (s.takeRequest v kind i h) := by
  unfold State.takeRequest
  dsimp only
  repeat' split
  any_goals exact .refl s
  · exact (Kept.putLink fun inv => inv.takeUp _ _).trans (handle_kept handler _ _)
  · exact .putLink fun inv => inv.refuseBusy _ _
  · exact .putLink fun inv => inv.refuseBusy _ _
  · refine Kept.trans ?_ (handle_kept handler _ _)
    exact .putLink fun inv => inv.of_fields le_rfl inv.discards inv.quiet
  · exact .putLink fun inv => inv.answerAtOnce _ _ _

/-- What a command makes of the invariants, those of the requests in flight included. -/
def Stored (s t : State) : Prop := Kept s t ∧ (RequestInv s → RequestInv t)

theorem request_stored (kinds : Instr.asRequest i = some (v, kind)) (kept : ∀ s, Kept s (h s).1)
    (handler : KeepsRequests v.link kind h) (e : request v kind i h s = .next t) : Stored s t := by
  unfold request at e
  split at e <;> cases e
  · exact ⟨.refl s, id⟩
  · exact ⟨(takeRequest_kept kept).trans (settle_kept _), fun inv => (takeRequest_keepsRequests kinds handler inv).settle⟩

theorem request_still (e : request v kind i h s = .next t) (kinds : Instr.asRequest i = some (v, kind))
    (still : ∀ s, Still s (h s).1) : Stored s t :=
  request_stored kinds (fun s => (still s).kept) (.of_still still _ _) e

theorem event_stored {f : State → State} (e : event f s = .next t) (stored : ∀ s, Stored s (f s)) : Stored s t := by
  unfold event at e
  split at e <;> cases e
  · exact ⟨.refl s, id⟩
  · exact ⟨(stored s).1.trans (settle_kept _), fun inv => ((stored s).2 inv).settle⟩

theorem Still.stored (k : Still s t) : Stored s t := ⟨k.kept, fun inv => inv.quiet k.quiet⟩

theorem signal_stored {drive : Inputs → Inputs} {f : State → State} (e : signal drive f s = .next t)
    (stored : ∀ s, Stored s (f s)) : Stored s t := by
  unfold signal at e
  split at e
  · cases e
    exact (Still.of_seen (s.setInputs_seen _)).stored
  · exact event_stored e stored

end Request
end Sys2Proof.Machine
end

