-- ==== Sys2Proof/Proofs/StoredExec.lean ====
section
/-! PROOF. Every step keeps stores, catalogue, ring, links, memory and requests in flight consistent. -/

namespace Sys2Proof.Machine

/-! ### Symbols, frames and breaks (R165, R169, R172) -/

section Link

variable {s : State}

theorem onLink_kept (l : Link) (f : LinkState → LinkState) (inv : ∀ k, LinkInv k → LinkInv (f k)) : Kept s (s.onLink l f) :=
  .putLink (inv _)

/-- R167 step 4: a request handed on is of its link, tag and kind. -/
theorem receiveRequest_keepsRequests (inv : RequestInv s) (l : Link) (x : FrameHeader) (p : List Byte) {k : LinkState}
    (slot : k.slot = (s.link l).slot) (tx : k.tx = (s.link l).tx) :
    RequestInv (s.putLink l (k.receiveRequest l x p)) := by
  have still {m : LinkState} (slot' : m.slot = k.slot) (tx' : m.tx = k.tx) : RequestInv (s.putLink l m) :=
    inv.putLink_same (slot'.trans slot) fun f e => by rwa [tx', tx] at e
  have fresh {m : LinkState} (free : k.slot = .free) (tx' : m.tx = k.tx)
      (handed : ∀ tag kind i, m.slot = .inFlight tag kind (.handed i) → Instr.asRequest i = some (⟨l, tag⟩, kind)) :
      RequestInv (s.putLink l m) := by
    have free : (s.link l).slot = .free := slot.symm.trans free
    exact inv.putLink (.inr (inv.idle (by simp [free]))) handed fun f e =>
      absurd (by rwa [tx', tx] at e) (inv.not_replying (by simp [free]) f)
  unfold LinkState.receiveRequest
  split
  · unfold LinkState.refuseBusy
    split <;> exact still rfl rfl
  next free =>
    split
    · exact fresh free rfl fun _ _ _ e => by cases e
    · split
      · exact fresh free rfl fun _ _ _ e => by cases e
      · split
        · exact fresh free rfl fun _ _ _ e => by cases e
        next read =>
          refine fresh free rfl fun tag kind i e => ?_
          cases e
          exact asRequest_of_parse read

theorem receive_keepsRequests (inv : RequestInv s) (l : Link) (bytes : List Byte) :
    RequestInv (s.onLink l (LinkState.receive l bytes)) := by
  have still {m : LinkState} (slot : m.slot = (s.link l).slot) (tx : m.tx = (s.link l).tx) : RequestInv (s.putLink l m) :=
    inv.putLink_same slot fun f e => tx ▸ e
  unfold State.onLink LinkState.receive
  split
  · dsimp only
    split
    · exact still rfl rfl
    · split
      · exact still rfl rfl
      · split
        · exact still rfl rfl
        · unfold LinkState.receiveFrame
          dsimp only
          split
          · exact receiveRequest_keepsRequests inv l _ _ rfl rfl
          · exact still rfl rfl
  · exact still rfl rfl

theorem abandon_slot (k : LinkState) (c : AbandonCause) : (k.abandon c).slot = k.slot ∧ (k.abandon c).tx = k.tx := by
  unfold LinkState.abandon
  split
  · cases c <;> exact ⟨rfl, rfl⟩
  · exact ⟨rfl, rfl⟩

theorem start_slot (k : LinkState) : k.start.slot = k.slot ∧ k.start.tx = k.tx := by
  unfold LinkState.start
  split
  · exact ⟨rfl, rfl⟩
  · exact abandon_slot k _
  · exact ⟨rfl, rfl⟩

theorem breakEnded_slot (k : LinkState) : k.breakEnded.slot = k.slot ∧ k.breakEnded.tx = k.tx := by
  unfold LinkState.breakEnded
  split <;> exact ⟨rfl, rfl⟩

theorem onLink_stored (l : Link) {f : LinkState → LinkState} (inv : ∀ k, LinkInv k → LinkInv (f k))
    (same : ∀ k, (f k).slot = k.slot ∧ (f k).tx = k.tx) : Stored s (s.onLink l f) :=
  ⟨onLink_kept l f inv, fun h => h.putLink_same (same _).1 fun _ e => (same _).2 ▸ e⟩

/-- R169: with a reply's frame sent, the slot is FREE; nothing waited for a slot with a ready reply. -/
theorem sent_keepsRequests (inv : RequestInv s) (l : Link) : RequestInv (s.onLink l LinkState.sent) := by
  have still {m : LinkState} (slot : m.slot = (s.link l).slot) (idle : m.tx = .idle) : RequestInv (s.putLink l m) :=
    inv.putLink_same slot fun f e => by
      rw [idle] at e
      cases e
  unfold State.onLink LinkState.sent
  split
  next tx => exact still rfl tx
  next tx =>
    obtain ⟨tag, kind, a, slot⟩ := inv.reply l _ tx
    exact inv.putLink (.inr (inv.idle (by simp [slot]))) (fun _ _ _ e => by cases e) fun _ e => by cases e
  · exact still rfl rfl
  · exact still rfl rfl
  · exact still rfl rfl

/-- R172: a break frees a slot whose reply was ready, which nothing waits for. -/
theorem broken_keepsRequests (inv : RequestInv s) (l : Link) : RequestInv (s.onLink l (LinkState.broken l)) := by
  have slot (k : LinkState) : (k.broken l).slot = k.slot ∨
      (k.broken l).slot = .free ∧ ∃ tag kind a, k.slot = .inFlight tag kind (.ready a) := by
    unfold LinkState.broken
    dsimp only
    split
    next e => exact .inr ⟨rfl, _, _, _, e⟩
    · exact .inl rfl
  refine inv.putLink ?_ (fun tag kind i e => ?_) fun f e => by cases e
  · rcases slot (s.link l) with same | ⟨-, tag, kind, a, ready⟩
    · exact .inl same
    · exact .inr (inv.idle (by simp [ready]))
  · rcases slot (s.link l) with same | ⟨free, -⟩
    · exact inv.handed l tag kind i (same.symm.trans e)
    · rw [free] at e
      cases e

end Link

/-! ### Work that begins and ends -/

section Work

variable {s : State}

theorem State.artWrite_cases (l : Link) (h o : Nat) (d : List Byte) (s : State) :
    (∃ c, State.artWrite l h o d s = s.refuse c) ∨
      ∃ n, State.artWrite l h o d s = (s.setStore { s.store with write := some ⟨l, n, d⟩ }, none) := by
  unfold State.artWrite
  repeat' split
  any_goals exact .inl ⟨_, rfl⟩
  exact .inr ⟨_, rfl⟩

theorem State.artWrite_kept (l : Link) (h o : Nat) (d : List Byte) (s : State) : Kept s (State.artWrite l h o d s).1 := by
  rcases s.artWrite_cases l h o d with ⟨c, e⟩ | ⟨n, e⟩ <;> rw [e]
  · exact .refl s
  · exact .setStore fun inv => .of_same (by rfl) (by rfl) inv

theorem State.handle_refused {s : State} {l : Link} {h : State → Taken} {c : ResultCode} (e : h s = s.refuse c) :
    s.handle l h = s.answer l ⟨c, []⟩ := by
  rw [State.handle, e]
  rfl

theorem State.handle_begun {s t : State} {l : Link} {h : State → Taken} (e : h s = (t, none)) : s.handle l h = t := by
  rw [State.handle, e]

theorem artWrite_keepsRequests (l : Link) (h o : Nat) (d : List Byte) : KeepsRequests l 0x0D (State.artWrite l h o d) := by
  intro s tag inv free slot
  rcases s.artWrite_cases l h o d with ⟨c, e⟩ | ⟨n, e⟩
  · rw [State.handle_refused e]
    exact inv.answer free _
  · rw [State.handle_begun e]
    refine ⟨inv.handed, inv.pull, fun x begun => ?_, inv.lineReset, inv.reply⟩
    obtain rfl := Option.some.inj begun
    exact ⟨tag, slot⟩

theorem State.swathPull_cases (l : Link) (q o : Nat) (s : State) :
    (∃ c, State.swathPull l q o s = s.refuse c) ∨
      ∃ (i : Fin 4) (w : Swath) (x : Pull), s.ring.slots[i] = some w ∧ x.link = l ∧ State.swathPull l q o s =
        (s.setRing { s.ring with slots := upd s.ring.slots i (some { w with status := .handed }), pull := some x }, none) := by
  unfold State.swathPull
  split
  · exact .inl ⟨_, rfl⟩
  next held =>
    split
    · exact .inl ⟨_, rfl⟩
    · exact .inr ⟨_, _, _, State.pullable_slot held, rfl, rfl⟩

theorem State.swathPull_kept (l : Link) (q o : Nat) (s : State) : Kept s (State.swathPull l q o s).1 := by
  rcases s.swathPull_cases l q o with ⟨c, e⟩ | ⟨i, w, x, slot, -, e⟩ <;> rw [e]
  · exact .refl s
  · exact .setRing fun inv => inv.rewritten (by rw [slot]; rfl) rfl rfl

theorem swathPull_keepsRequests (l : Link) (q o : Nat) : KeepsRequests l 0x2D (State.swathPull l q o) := by
  intro s tag inv free slot
  rcases s.swathPull_cases l q o with ⟨c, e⟩ | ⟨i, w, x, -, own, e⟩
  · rw [State.handle_refused e]
    exact inv.answer free _
  · rw [State.handle_begun e]
    refine ⟨inv.handed, fun y begun => ?_, inv.write, inv.lineReset, inv.reply⟩
    obtain rfl := Option.some.inj begun
    exact ⟨tag, own ▸ slot⟩

/-- Two requests of different kinds at work stand in different links' slots. -/
theorem working_apart {l m : Link} {tag kind kind' : Nat}
    (here : (s.link l).slot = .inFlight tag kind .working) (ne : kind ≠ kind')
    (there : ∃ tag, (s.link m).slot = .inFlight tag kind' .working) : m ≠ l := by
  rintro rfl
  obtain ⟨tag', there⟩ := there
  rw [here] at there
  cases there
  exact ne rfl

/-- R71: the write is over and its reply is ready. -/
theorem artWriteComplete_stored (s : State) : Stored s s.artWriteComplete := by
  unfold State.artWriteComplete
  split
  next l n done =>
    refine ⟨Kept.trans (t := s.setStore { s.store with write := none }) (.setStore fun inv => .of_same (by rfl) (by rfl) inv)
      (.putLink fun inv => inv.complete _), fun inv => ?_⟩
    obtain ⟨tag, slot⟩ := inv.write _ done
    have ended : RequestInv (s.setStore { s.store with write := none }) :=
      ⟨inv.handed, inv.pull, fun x e => (by cases e), inv.lineReset, inv.reply⟩
    refine ended.answer ⟨fun x e => ?_, fun x e => (by cases e), fun e => ?_⟩ _
    · exact working_apart slot (by simp) (inv.pull x e)
    · exact working_apart slot (by simp) (inv.lineReset l e) rfl
  · exact (Still.refl s).stored

/-- R129: the pull is over and its reply is ready. -/
theorem pullComplete_stored (s : State) : Stored s s.pullComplete := by
  unfold State.pullComplete
  split
  · exact (Still.refl s).stored
  next x at_ =>
    split
    · exact (Still.refl s).stored
    · refine ⟨Kept.trans (t := s.setRing { s.ring with pull := none }) (.setRing fun inv => .of_same (by rfl) (by rfl) inv)
        (.putLink fun inv => inv.complete _), fun inv => ?_⟩
      obtain ⟨tag, slot⟩ := inv.pull x at_
      have ended : RequestInv (s.setRing { s.ring with pull := none }) :=
        ⟨inv.handed, fun y e => (by cases e), inv.write, inv.lineReset, inv.reply⟩
      refine ended.answer ⟨fun y e => (by cases e), fun y e => ?_, fun e => ?_⟩ _
      · exact working_apart slot (by simp) (inv.write y e)
      · exact working_apart slot (by simp) (inv.lineReset _ e) rfl

/-- R171: the line reset is over and its reply is ready. -/
theorem completeLineReset_stored (s : State) : Stored s s.completeLineReset := by
  unfold State.completeLineReset
  split
  · exact (Still.refl s).stored
  next l at_ =>
    split
    · exact (Still.refl s).stored
    · refine ⟨(Kept.setLineReset none).trans (.putLink fun inv => inv.complete _), fun inv => ?_⟩
      obtain ⟨tag, slot⟩ := inv.lineReset l at_
      have ended : RequestInv (s.setLineReset none) := ⟨inv.handed, inv.pull, inv.write, fun l e => (by cases e), inv.reply⟩
      refine ended.answer ⟨fun y e => ?_, fun y e => ?_, fun e => by cases e⟩ _
      · exact working_apart slot (by simp) (inv.pull y e)
      · exact working_apart slot (by simp) (inv.write y e)

/-! ### The line reset (R171) -/

theorem State.cutPull_pull {x : Pull} (h : s.cutPull = some x) : s.ring.pull = some x :=
  (Option.filter_eq_some_iff.1 h).1

theorem pullAnswered_kept (s : State) : Kept s s.pullAnswered := by
  cases cut : s.cutPull with
  | none =>
    rw [State.pullAnswered_none cut]
    exact .refl s
  | some x =>
    rw [State.pullAnswered_cut cut]
    exact .putLink fun inv => inv.complete _

@[simp] theorem State.cleared_mem (s : State) : s.cleared.mem = s.mem := by simp [State.cleared]

@[simp] theorem State.cleared_write (s : State) : s.cleared.store.write = s.store.write := by simp [State.cleared]

@[simp] theorem State.cleared_lineReset (s : State) : s.cleared.lineReset = s.lineReset := by simp [State.cleared]

theorem takeLineReset_kept (l : Link) (s : State) : Kept s (State.takeLineReset l s).1 := by
  have cleared : Kept s s.cleared := by
    refine ⟨fun h => ?_, fun _ => ?_, fun h => ?_, fun h m => ?_, fun h => ?_⟩
    · exact h.unverified (y := s.cleared.store) (by rfl) (by rfl)
    · exact .of_same (y := s.cleared.ring) (by rfl) (by rfl) ringInv_reset
    · exact .of_same (y := s.cleared.book) (by rfl) h
    · rw [State.cleared_link]
      exact ((pullAnswered_kept s).links h m).emptyQueue
    · rwa [State.cleared_mem]
  have reset : Kept s s.clearLine := by
    rw [State.clearLine_eq]
    exact cleared.trans (Still.of_stores (State.raiseAll_stores _ _)).kept
  exact reset.trans (.setLineReset _)

/-- A pull that a line reset cuts off has its reply; one whose bursts are complete stays. -/
theorem pullAnswered_keepsRequests (inv : RequestInv s) :
    RequestInv (s.pullAnswered.setRing { Ring.reset with pull := if s.cutPull.isSome then none else s.ring.pull }) := by
  cases cut : s.cutPull with
  | none =>
    rw [State.pullAnswered_none cut]
    exact ⟨inv.handed, fun x e => inv.pull x e, inv.write, inv.lineReset, inv.reply⟩
  | some x =>
    rw [State.pullAnswered_cut cut]
    have at_ := State.cutPull_pull cut
    obtain ⟨tag, slot⟩ := inv.pull x at_
    have ended : RequestInv (s.setRing { Ring.reset with pull := none }) :=
      ⟨inv.handed, fun y e => (by cases e), inv.write, inv.lineReset, inv.reply⟩
    refine RequestInv.answer ended (l := x.link) ⟨fun y e => (by cases e), fun y e => ?_, fun e => ?_⟩ ⟨.stale, []⟩
    · exact working_apart slot (by simp) (inv.write y e)
    · exact working_apart slot (by simp) (inv.lineReset _ e) rfl

theorem emptyQueue_tx {k : LinkState} {f : List Byte} (h : k.emptyQueue.tx = .sending .reply f) : k.tx = .sending .reply f := by
  unfold LinkState.emptyQueue at h
  dsimp only at h
  split at h
  · cases h
  · exact h

theorem cleared_keepsRequests (inv : RequestInv s) : RequestInv s.cleared := by
  obtain ⟨handed, pull, write, lineReset, reply⟩ := pullAnswered_keepsRequests inv
  have slot (l : Link) : (s.cleared.link l).slot = (s.pullAnswered.link l).slot := by
    rw [State.cleared_link]
    rfl
  refine ⟨fun l tag kind i e => handed l tag kind i ((slot l).symm.trans e), fun x e => ?_, fun x e => ?_, fun l e => ?_,
    fun l f e => ?_⟩
  · rw [slot]
    exact pull x e
  · have store : s.pullAnswered.store = s.store := by
      unfold State.pullAnswered
      split <;> rfl
    rw [slot]
    rw [State.cleared_write] at e
    exact write x (by rw [State.setRing_store, store, e])
  · have same : s.pullAnswered.lineReset = s.lineReset := by
      unfold State.pullAnswered
      split <;> rfl
    rw [slot]
    rw [State.cleared_lineReset] at e
    exact lineReset l (by rw [State.setRing_lineReset, same, e])
  · rw [slot]
    rw [State.cleared_link] at e
    exact reply l f (emptyQueue_tx e)

theorem RequestInv.begun (h : RequestInv s) {l : Link} {tag : Nat} (slot : (s.link l).slot = .inFlight tag 0x1C .working) :
    RequestInv (s.setLineReset (some l)) := by
  refine ⟨h.handed, h.pull, h.write, fun m e => ?_, h.reply⟩
  obtain rfl := Option.some.inj e
  exact ⟨tag, slot⟩

theorem takeLineReset_keepsRequests (l : Link) : KeepsRequests l 0x1C (State.takeLineReset l) := by
  intro s tag inv free slot
  have begun : State.takeLineReset l s = (s.clearLine.setLineReset (some l), none) := rfl
  rw [State.handle_begun begun, State.clearLine_eq]
  have cleared := (cleared_keepsRequests inv).quiet (Still.of_stores (s.cleared.raiseAll_stores s.resetNotices)).quiet
  have mine : (((s.cleared.raiseAll s.resetNotices)).link l).slot = .inFlight tag 0x1C .working := by
    rw [(Still.of_stores (s.cleared.raiseAll_stores s.resetNotices)).quiet.slot, State.cleared_link]
    show (s.pullAnswered.link l).slot = _
    cases cut : s.cutPull with
    | none => rw [State.pullAnswered_none cut, slot]
    | some x =>
      rw [State.pullAnswered_cut cut, State.answer_link_ne _ _ _ _ (free.pull x (State.cutPull_pull cut)), slot]
  exact cleared.begun mine

/-! ### The part -/

theorem powerOn_stored (s : State) : Stored s s.powerOn := by
  have link (l : Link) : s.powerOn.link l = State.reset.link l := rfl
  refine ⟨⟨fun _ => storeInv_reset, fun _ => ringInv_reset, fun _ => catalogueInv_reset, fun _ l => ?_, fun _ => Memory.ofCells_wf _⟩,
    fun _ => ?_⟩
  · rw [link]
    cases l <;> exact linkInv_reset _
  · obtain ⟨handed, pull, write, lineReset, reply⟩ := requestInv_reset
    exact ⟨handed, pull, write, lineReset, reply⟩

theorem lowerReset_stored (s : State) : Stored s s.lowerReset := by
  have link (l : Link) : s.lowerReset.link l = (s.link l).silence := Links.get_map LinkState.silence s.links l
  refine ⟨⟨id, id, id, fun h l => ?_, id⟩, fun inv => ⟨fun l tag kind i e => ?_, fun x e => ?_, fun x e => ?_, fun l e => ?_,
    fun l f e => ?_⟩⟩
  · rw [link]
    exact (h l).silence
  · rw [link] at e
    exact inv.handed l tag kind i e
  · rw [link]
    exact inv.pull x e
  · rw [link]
    exact inv.write x e
  · rw [link]
    exact inv.lineReset l e
  · rw [link] at e
    cases e

end Work

/-! ### Every command -/

section

variable {s t : State}

theorem arbiterGrant_stored (e : execArbiterGrant s = .next t) : Stored s t := by
  unfold execArbiterGrant at e
  repeat' split at e
  · cases e
    exact (Still.refl s).stored
  · cases e
  · exact event_stored e fun u => (Still.of_stores (u.setArbiter_stores _)).stored
  · exact event_stored e fun u => (Still.refl u).stored

theorem event_still {f : State → State} (e : event f s = .next t) (still : ∀ s, Still s (f s)) : Stored s t :=
  event_stored e fun u => (still u).stored

theorem exec_stored (i : Instr) (e : exec i s = .next t) : Stored s t := by
  cases i
  case powerOnReset => cases e; exact powerOn_stored s
  case resetAsserted => cases e; exact lowerReset_stored s
  case arbiterGrant => exact arbiterGrant_stored e
  case artWrite v h o d => exact request_stored rfl (State.artWrite_kept v.link h o d) (artWrite_keepsRequests v.link h o d) e
  case swathPull v q o => exact request_stored rfl (State.swathPull_kept v.link q o) (swathPull_keepsRequests v.link q o) e
  case lineReset v => exact request_stored rfl (takeLineReset_kept v.link) (takeLineReset_keepsRequests v.link) e
  case artWriteComplete => exact event_stored e artWriteComplete_stored
  case swathPullComplete => exact event_stored e pullComplete_stored
  case lineResetComplete => exact event_stored e completeLineReset_stored
  case frameReceived l b =>
    exact event_stored (f := fun u => u.onLink l (LinkState.receive l b)) e fun u => ⟨onLink_kept l _ fun _ h => h.receive l b, fun h => receive_keepsRequests h l b⟩
  case frameAbandoned l c => exact event_stored (f := fun u => u.onLink l (LinkState.abandon c)) e fun u => onLink_stored l (fun _ h => h.abandon c) fun k => abandon_slot k c
  case frameSent l => exact event_stored (f := fun u => u.onLink l (LinkState.sent)) e fun u => ⟨onLink_kept l _ fun _ h => h.sent, fun h => sent_keepsRequests h l⟩
  case linkReset l =>
    exact event_stored (f := fun u => u.onLink l (LinkState.broken l)) e fun u => ⟨onLink_kept l _ fun _ _ => .broken l, fun h => broken_keepsRequests h l⟩
  case breakEnd l => exact event_stored (f := fun u => u.onLink l (LinkState.breakEnded)) e fun u => onLink_stored l (fun _ h => h.breakEnded) breakEnded_slot
  case startSymbol l => exact event_stored (f := fun u => u.onLink l (LinkState.start)) e fun u => onLink_stored l (fun _ h => h.start) start_slot
  case blinkTimerExpiry o =>
    exact event_still (f := fun u => u.setIndicators (upd u.indicators o u.indicators[o].expire)) e fun u => .of_stores rfl
  case catalogueSet v b c => exact request_still e rfl fun u => u.catalogueSet_still b c
  case catalogueRemove v b => exact request_still e rfl fun u => u.catalogueRemove_still b
  case artOpen v f p w h d b c => exact request_still e rfl fun u => u.artOpen_still f p w h d b c
  case artSeal v h c => exact request_still e rfl fun u => u.artSeal_still h c
  case artFree v h => exact request_still e rfl fun u => u.artFree_still h
  case swathRelease v q => exact request_still e rfl fun u => u.swathRelease_still q
  case printEndAbort v => exact request_still e rfl State.printEndAbort_still
  case verifyPassStart => exact event_still e State.passStart_still
  case verifyPassEnd => exact event_still e State.passEnd_still
  case burstComplete => exact event_still e State.burstComplete_still
  case swathUnitBegin => exact event_still e State.swathUnitBegin_still
  case swathUnitEnd => exact event_still e State.swathUnitEnd_still
  case platenDeclare v p x => exact request_still e rfl fun u => .of_calmer (u.platenDeclare_calmer p x)
  case jamConfirm v p x => exact request_still e rfl fun u => .of_calmer (u.jamConfirm_calmer p x)
  case serviceOut v p => exact request_still e rfl fun u => .of_calmer (u.serviceOut_calmer p)
  case serviceIn v p => exact request_still e rfl fun u => .of_calmer (u.serviceIn_calmer p)
  case printEndOk v => exact request_still e rfl fun u => .of_calmer u.printEndOk_calmer
  case cureSample v p z => exact request_still e rfl fun u => .of_calmer (u.cureSample_calmer p z)
  case arrive g => exact event_still e fun u => .of_calmer (u.arrive_calmer g)
  case pressStart => exact event_still e fun u => .of_calmer u.pressStart_calmer
  case sprayStart => exact event_still e fun u => .of_calmer u.sprayStart_calmer
  case printSessionOpen => exact event_still e fun u => .of_calmer u.sessionOpen_calmer
  case emergencyStopAsserted =>
    exact signal_stored (drive := fun i => { i with estop := i.estop.drive true }) e fun u =>
      (Still.of_seen u.emergencyStop_seen).stored
  case emergencyStopReleased =>
    exact signal_stored (drive := fun i => { i with estop := i.estop.drive false }) e fun u =>
      (Still.of_seen u.emergencyRelease_seen).stored
  case pressClosed =>
    exact signal_stored (drive := fun i => { i with pressClosed := i.pressClosed.drive true }) e fun u =>
      (Still.of_seen u.pressClosed_seen).stored
  case pressOpen =>
    exact signal_stored (drive := fun i => { i with pressOpen := i.pressOpen.drive true }) e fun u =>
      (Still.of_seen u.pressOpened_seen).stored
  case orderPost | lineAmend | orderHold | orderRelease | orderCancel | orderRetire | shelfExport | shelfImport | shelfDrop
      | shelve | unshelve | garmentLoad | garmentAssign | loadClear | unloadGood | unloadSpoil | noticeMaskSet =>
    exact request_still e rfl fun u => .of_stores (by simp)
  case catalogueGet | classSet | classGet | paletteSet | paletteGet | overlaySet | overlayGet | rateTableSet | rateTableGet
      | shelfPermitSet | powerFlagClear | indicatorSet | read | lineResume | stationHold | stationRelease =>
    exact request_still e rfl fun u => .of_seen (by simp)
  case moveStart | moveTimeout | bandUnitBegin | bandUnitEnd | band | sprayEnd | zoneValveClose | zonePulseReload
      | zoneChannelExhausted | dwellExpiry | closeTimeout | openTimeout | staleTimerExpiry =>
    exact event_still e fun u => .of_seen (by simp)

theorem Stored.trans {u : State} (a : Stored s t) (b : Stored t u) : Stored s u := ⟨a.1.trans b.1, b.2 ∘ a.2⟩

theorem step_stored (e : step s = .next t) : Stored s t :=
  step_keeps (Stored s) (fun _ _ k => k.trans ⟨⟨id, id, id, id, id⟩, fun ⟨a, b, c, d, f⟩ => ⟨a, b, c, d, f⟩⟩)
    (fun u k => k.trans (Still.of_stores u.counted_stores).stored) (fun i _ _ e k => k.trans (exec_stored i e)) s t e
    (Still.refl s).stored

end
end Sys2Proof.Machine

section
open Sys2Proof.Machine

/-- Settles O56: each command keeps the five local invariants whatever else holds, and the requests in flight with them. -/
theorem everyStepKeepsStores : Obligations.EveryStepKeepsStores := by
  intro s t e
  obtain ⟨⟨store, ring, catalogue, links, mem⟩, requests⟩ := step_stored e
  exact ⟨store, ring, catalogue, links, mem, requests⟩

end
end

