-- ==== Sys2Proof/Proofs/Catalogue.lean ====
section
/-! PROOF. The catalogue as a map, and the class recipes (R26 to R29). -/

namespace Sys2Proof.Machine

/-! ### What a finished command leaves -/

section Frames

variable {s w t : State}

/-- The notices that a state's links have taken are those of the state it settles to. -/
theorem State.notified_of_keeps {ns : List Notice} (h : ∀ l, w.link l = (s.link l).offerAll s.clock.time ns)
    (k : w.keeps t []) : s.notified t ns := fun l => h l ▸ k .notices (by simp) l

/-- The frame of a state that the settled state keeps. -/
theorem State.keeps_done {parts : List Part} (h : s.keeps w parts) (k : w.keeps t []) (n : Part.notices ∈ parts) :
    s.keeps t parts :=
  State.keeps_trans h (State.keeps_mono k (by simp)) n

theorem State.raiseAll_notified (s : State) (ns : List Notice) : s.notified (s.raiseAll ns) ns := fun l => by
  rw [State.raiseAll_link]
  exact ⟨rfl, rfl, .inl rfl⟩

@[simp] theorem State.setBook_link (s : State) (b : Book) (l : Link) : (s.setBook b).link l = s.link l := rfl
@[simp] theorem State.setUnits_link (s : State) (x : Match) (l : Link) : (s.setUnits x).link l = s.link l := rfl
@[simp] theorem State.setStore_link (s : State) (x : Store) (l : Link) : (s.setStore x).link l = s.link l := rfl
@[simp] theorem State.setArbiter_link (s : State) (x : Arbiter) (l : Link) : (s.setArbiter x).link l = s.link l := rfl
@[simp] theorem State.setEngine_link (s : State) (x : Engine) (l : Link) : (s.setEngine x).link l = s.link l := rfl

theorem State.raiseAll_keeps (s : State) (ns : List Notice) : s.keeps (s.raiseAll ns) [.notices] := by
  intro p out
  cases p with
  | notices => simp at out
  | settings => exact fun l => by simp
  | outputs => exact fun i => by simp
  | _ => simp [Part.same]

/-- Notices raised on top of other changes. -/
theorem State.keeps_raiseAll {parts : List Part} (h : s.keeps w parts) (n : Part.notices ∈ parts) (ns : List Notice) :
    s.keeps (w.raiseAll ns) parts :=
  State.keeps_trans h (State.keeps_mono (w.raiseAll_keeps ns) (by simpa using n)) n

theorem State.setBook_keeps (s : State) (b : Book) : s.keeps (s.setBook b) [.book] := by
  intro p out
  cases p with
  | book => simp at out
  | notices => exact fun l => ⟨rfl, rfl, .inl rfl⟩
  | settings => exact fun l => ⟨rfl, rfl, rfl, rfl⟩
  | outputs => exact fun i => ⟨rfl, rfl, rfl, rfl⟩
  | _ => rfl

/-- A change of the book, with its notices. -/
theorem State.setBook_raiseAll_keeps (s : State) (b : Book) (ns : List Notice) :
    s.keeps ((s.setBook b).raiseAll ns) [.book, .notices] :=
  State.keeps_raiseAll (State.keeps_mono (s.setBook_keeps b) (by simp)) (by simp) ns

end Frames

/-! ### The catalogue as a map -/

theorem Book.classOf_eq (b : Book) (x : BlankCode) :
    b.classOf x = ((b.catalogue.filter fun e => e.blank = x).head?).map CatalogueEntry.cls := by
  rw [List.head?_filter, Book.classOf]
  rfl

/-- The class that a list of entries gives a code. -/
def classIn (l : List CatalogueEntry) (x : BlankCode) : Option (Fin 16) := (l.find? fun e => e.blank == x).map CatalogueEntry.cls

theorem Book.classOf_classIn (b : Book) (x : BlankCode) : b.classOf x = classIn b.catalogue x := rfl

theorem classIn_cons (e : CatalogueEntry) (l : List CatalogueEntry) (x : BlankCode) :
    classIn (e :: l) x = if e.blank = x then some e.cls else classIn l x := by
  by_cases h : e.blank = x <;> simp [classIn, h]

/-- R26: a code's entries rewritten. -/
theorem classIn_rewritten (l : List CatalogueEntry) (b x : BlankCode) (c : Fin 16) :
    classIn (l.map fun e => if e.blank = b then ⟨b, c⟩ else e) x =
      if b = x then (classIn l x).map fun _ => c else classIn l x := by
  induction l with
  | nil => simp [classIn]
  | cons e l ih =>
    rw [List.map_cons, classIn_cons, classIn_cons, ih]
    by_cases mine : e.blank = b
    · subst mine
      by_cases same : e.blank = x <;> simp [same]
    · by_cases same : b = x
      · subst same
        simp [mine]
      · simp [mine, same]

/-- R26: an entry appended for a code that has none. -/
theorem classIn_appended (l : List CatalogueEntry) (b x : BlankCode) (c : Fin 16) (fresh : classIn l b = none) :
    classIn (l ++ [⟨b, c⟩]) x = if b = x then some c else classIn l x := by
  induction l with
  | nil => simp [classIn]
  | cons e l ih =>
    rw [classIn_cons] at fresh
    split at fresh
    · cases fresh
    next other =>
      rw [List.cons_append, classIn_cons, classIn_cons, ih fresh]
      by_cases same : b = x
      · subst same
        simp [other]
      · simp [same]

/-- R27: a code's entries removed. -/
theorem classIn_removed (l : List CatalogueEntry) (b x : BlankCode) :
    classIn (l.filter fun e => e.blank != b) x = if b = x then none else classIn l x := by
  induction l with
  | nil => simp [classIn]
  | cons e l ih =>
    by_cases mine : e.blank = b
    · subst mine
      rw [List.filter_cons_of_neg (by simp), ih, classIn_cons]
      by_cases same : e.blank = x <;> simp [same]
    · rw [List.filter_cons_of_pos (by simpa using mine), classIn_cons, ih, classIn_cons]
      by_cases same : b = x
      · subst same
        simp [mine]
      · simp [same]

/-- Where no code stands twice, exactly one entry is removed. -/
theorem length_removed {l : List CatalogueEntry} (once : (l.map CatalogueEntry.blank).Nodup) {b : BlankCode}
    (here : classIn l b ≠ none) : (l.filter fun e => e.blank != b).length + 1 = l.length := by
  induction l with
  | nil => exact absurd rfl here
  | cons e l ih =>
    rw [List.map_cons, List.nodup_cons] at once
    obtain ⟨fresh, once⟩ := once
    by_cases mine : e.blank = b
    · have rest : l.filter (fun e => e.blank != b) = l :=
        List.filter_eq_self.2 fun f hf => by
          have : f.blank ≠ b := fun same => fresh (List.mem_map.2 ⟨f, hf, same.trans mine.symm⟩)
          simpa using this
      rw [List.filter_cons_of_neg (by simpa using mine), rest, List.length_cons]
    · rw [classIn_cons, if_neg mine] at here
      rw [List.filter_cons_of_pos (by simpa using mine), List.length_cons, List.length_cons, ih once here]

theorem BlankCode.isNull_iff (b : BlankCode) : b.isNull = true ↔ b = ⟨0, 0, 0⟩ := by
  cases b
  simp [BlankCode.isNull, and_assoc]

/-! ### CATALOGUE_SET, CATALOGUE_REMOVE, CATALOGUE_GET -/

section Commands

variable {v : Via} {blank : BlankCode} {s : State}

theorem catalogueSet_slotless (blank : BlankCode) (cls : Nat) : Slotless (State.catalogueSet blank cls) :=
  fun s l x mode => State.catalogueSet_slotted s l x mode blank cls

theorem catalogueSet_refused {cls : Nat} (r : Ready s v 0x07) {c : ResultCode}
    (h : State.catalogueSet blank cls s = s.refuse c) : Refused (.catalogueSet v blank cls) v 0x07 s c :=
  refused_of (catalogueSet_slotless blank cls) r rfl h

/-- R26's write of a code that has an entry, or for which there is room. -/
theorem catalogueSet_written (r : Ready s v 0x07) (named : blank ≠ ⟨0, 0, 0⟩) (c : Fin 16)
    (room : s.book.classOf blank ≠ none ∨ s.book.catalogue.length < 256) :
    ∃ l : List CatalogueEntry,
      let b := { s.book with catalogue := l }
      b.classOf blank = some c ∧ (∀ x, x ≠ blank → b.classOf x = s.book.classOf x) ∧
      l.length = (if s.book.classOf blank = none then s.book.catalogue.length + 1 else s.book.catalogue.length) ∧
      Done (.catalogueSet v blank c.val) v 0x07 s [] ({ s with book := b }.rematch .catalogueWrite) := by
  have notNull : blank.isNull = false := Bool.eq_false_iff.2 fun h => named ((BlankCode.isNull_iff _).1 h)
  have done {l : List CatalogueEntry} (h : State.catalogueSet blank c.val s =
      (({ s with book := { s.book with catalogue := l } }).rematch .catalogueWrite).accept []) :=
    done_of (i := .catalogueSet v blank c.val) (catalogueSet_slotless blank c.val) r rfl h
  cases known : s.book.classOf blank with
  | some d =>
    refine ⟨s.book.catalogue.map fun e => if e.blank = blank then ⟨blank, c⟩ else e, ?_, fun x other => ?_, by simp, done ?_⟩
    · rw [Book.classOf_classIn, classIn_rewritten, if_pos rfl, ← Book.classOf_classIn, known]
      rfl
    · rw [Book.classOf_classIn, classIn_rewritten, if_neg (Ne.symm other)]
      rfl
    · simp only [State.catalogueSet, notNull, inRange_val, known, Option.isSome_some, if_true, Bool.false_eq_true, if_false]
      rfl
  | none =>
    have short : s.book.catalogue.length < 256 := room.resolve_left fun h => h known
    refine ⟨s.book.catalogue ++ [⟨blank, c⟩], ?_, fun x other => ?_, by simp, done ?_⟩
    · rw [Book.classOf_classIn, classIn_appended _ _ _ _ known, if_pos rfl]
    · rw [Book.classOf_classIn, classIn_appended _ _ _ _ known, if_neg (Ne.symm other)]
      rfl
    · simp only [State.catalogueSet, notNull, inRange_val, known, Option.isSome_none, Bool.false_eq_true, if_false,
        Nat.not_le.2 short]
      rfl

theorem catalogueRemove_slotless (blank : BlankCode) : Slotless (State.catalogueRemove blank) :=
  fun s l x mode => State.catalogueRemove_slotted s l x mode blank

theorem catalogueGet_slotless (blank : BlankCode) : Slotless (State.catalogueGet blank) :=
  fun s l x mode => State.catalogueGet_slotted s l x mode blank

theorem classSet_slotless (cls : Nat) (r : Recipe) : Slotless (State.classSet cls r) :=
  fun s l x mode => State.classSet_slotted s l x mode cls r

theorem classGet_slotless (cls : Nat) : Slotless (State.classGet cls) :=
  fun s l x mode => State.classGet_slotted s l x mode cls

end Commands
end Sys2Proof.Machine

section
open Sys2Proof.Machine

/-- Settles O15: `classIn` follows each of the three ways the list of entries is written. -/
theorem catalogueIsMap : Obligations.CatalogueIsMap := by
  refine ⟨Book.classOf_eq, fun v blank cls s r => ⟨fun null => ?_, fun named => ⟨fun out => ?_, ?_⟩⟩,
    fun v blank s r => ⟨fun absent => ?_, fun known => ?_⟩, fun v blank s r => ⟨fun absent => ?_, fun c known => ?_⟩⟩
  · subst null
    exact catalogueSet_refused r rfl
  · have notNull : blank.isNull = false := Bool.eq_false_iff.2 fun h => named ((BlankCode.isNull_iff _).1 h)
    exact catalogueSet_refused r (by simp [State.catalogueSet, notNull, inRange_out out])
  · rintro c rfl
    have notNull : blank.isNull = false := Bool.eq_false_iff.2 fun h => named ((BlankCode.isNull_iff _).1 h)
    refine ⟨fun absent full => catalogueSet_refused r ?_, catalogueSet_written r named c⟩
    simp [State.catalogueSet, notNull, absent, full]
  · exact refused_of (catalogueRemove_slotless blank) r rfl (by simp [State.catalogueRemove, absent])
  · obtain ⟨c, known⟩ := Option.ne_none_iff_exists'.1 known
    refine ⟨s.book.catalogue.filter fun e => e.blank != blank, ?_, fun x other => ?_, fun inv => ?_,
      done_of (catalogueRemove_slotless blank) r rfl ?_⟩
    · rw [Book.classOf_classIn, classIn_removed, if_pos rfl]
    · rw [Book.classOf_classIn, classIn_removed, if_neg (Ne.symm other)]
      rfl
    · exact length_removed inv.once (by rw [← Book.classOf_classIn, known]; simp)
    · simp only [State.catalogueRemove, known]
      rfl
  · exact refused_of (catalogueGet_slotless blank) r rfl (by simp [State.catalogueGet, absent])
  · exact done_of (catalogueGet_slotless blank) r rfl (by simp [State.catalogueGet, known])

end

namespace Sys2Proof.Machine

theorem min_eq_ite (a b : Nat) : min a b = if b < a then b else a := by
  split <;> omega

/-- R29's table of clamps. -/
theorem Recipe.clamped_eq (r : Recipe) :
    let period := if r.period = 0 then 1 else r.period
    Recipe.clamped r = { r with
      period := period
      duty := if period - 1 < r.duty then period - 1 else r.duty
      dwell := if r.dwell = 0 then 1 else if 600 < r.dwell then 600 else r.dwell
      inkLimit := if r.inkLimit < 255 then 255 else if 1020 < r.inkLimit then 1020 else r.inkLimit
      choke := if 3 < r.choke then 3 else r.choke
      scorchLimit := if r.scorchLimit < -80 then -80 else if 800 < r.scorchLimit then 800 else r.scorchLimit
      scorchAllowance := if 60000 < r.scorchAllowance then 60000 else r.scorchAllowance } := by
  simp only [Recipe.clamped, clampNat, clampInt, Nat.lt_one_iff, min_eq_ite]

end Sys2Proof.Machine

section
open Sys2Proof.Machine

/-- Settles O16: the stored recipe is `Recipe.clamped`, which is the statement's table. -/
theorem classSetClampsRecipe : Obligations.ClassSetClampsRecipe := by
  refine ⟨fun v cls x s r => ⟨fun out => ?_, ?_⟩, fun v cls s r => ⟨fun out => ?_, ?_⟩⟩
  · exact refused_of (classSet_slotless cls x) r rfl (by simp [State.classSet, inRange_out out])
  · rintro c rfl
    refine done_of (classSet_slotless c.val x) r rfl ?_
    rw [recipe_eq_fields, ← Recipe.clamped_eq x]
    simp only [State.classSet, inRange_val]
    rfl
  · exact refused_of (classGet_slotless cls) r rfl (by simp [State.classGet, inRange_out out])
  · rintro c rfl
    refine done_of (classGet_slotless c.val) r rfl ?_
    rw [recipe_eq_fields]
    simp only [State.classGet, inRange_val]

end
end

