-- ==== Sys2Proof/Proofs/Orders.lean ====
section
/-! PROOF. Orders held, released, retired and cancelled (R38 to R40). -/

namespace Sys2Proof.Machine

/-! ### ORDER_HOLD, ORDER_RELEASE, ORDER_RETIRE -/

section Commands

variable {v : Via} {number : Word} {s : State} {o : Order}

theorem orderHold_slotless (number : Word) : Slotless (State.orderHold number) :=
  fun s l x mode => State.orderHold_slotted s l x mode number

theorem orderRelease_slotless (number : Word) : Slotless (State.orderRelease number) :=
  fun s l x mode => State.orderRelease_slotted s l x mode number

theorem orderRetire_slotless (number : Word) : Slotless (State.orderRetire number) :=
  fun s l x mode => State.orderRetire_slotted s l x mode number

theorem orderCancel_slotless (number : Word) : Slotless (State.orderCancel number) :=
  fun s l x mode => State.orderCancel_slotted s l x mode number

/-- R40: what a retired order leaves. -/
theorem retired_of (r : Ready s v 0x06) (found : s.book.find number = some o)
    (finished : o.status = .complete ∨ o.status = .cancelled) :
    ∃ t, Answered (.orderRetire v number) v 0x06 s t .ok [] ∧ s.keeps t [.book, .notices] ∧
      t.book.orders = s.book.orders.filter (fun x => x.number != number) ∧
      t.book.catalogue = s.book.catalogue ∧ t.book.recipes = s.book.recipes ∧ t.book.sequence = s.book.sequence ∧
      (∀ k, k ∈ o.lines → t.book.lines[k] = none) ∧ (∀ k, k ∉ o.lines → t.book.lines[k] = s.book.lines[k]) ∧
      s.notified t [.orderState o.number none o.sequence] := by
  have retired : State.orderRetire number s = (s.retireOrder o).accept [] := by
    rcases finished with e | e <;> simp only [State.orderRetire, found, e]
  obtain ⟨t, answered, kept⟩ := answered_of (i := .orderRetire v number) (orderRetire_slotless number) r rfl retired
  obtain ⟨lines, fold, each⟩ := Book.freeLines_eq o.lines s.book
  have left : s.retireOrder o = (s.setBook { s.book with
      lines := lines, orders := s.book.orders.filter fun x => x.number != o.number }).raiseAll
      [.orderState o.number none o.sequence] := by
    rw [State.retireOrder, fold]
    rfl
  have book : t.book = { s.book with lines := lines, orders := s.book.orders.filter fun x => x.number != o.number } :=
    (kept .book (by simp)).trans (by simp [left])
  refine ⟨t, answered, State.keeps_done (left ▸ s.setBook_raiseAll_keeps _ _) kept (by simp), ?_, by rw [book], by rw [book],
    by rw [book], fun k on => ?_, fun k off => ?_, ?_⟩
  · rw [book, (Book.find_mem found).2]
  · rw [book]
    exact (each k).trans (if_pos on)
  · rw [book]
    exact (each k).trans (if_neg off)
  · exact State.notified_of_keeps (fun l => by simp [left]) kept

end Commands
end Sys2Proof.Machine

section
open Sys2Proof.Machine

/-- Settles O19: the three handlers by the state of the order that is found. -/
theorem orderHoldReleaseAndRetire : Obligations.OrderHoldReleaseAndRetire := by
  intro v number s
  refine ⟨fun r => ⟨fun absent => ?_, fun o found => ⟨fun st => ?_, fun st => ?_, fun no no' => ?_⟩⟩,
    fun r => ⟨fun absent => ?_, fun o found => ⟨fun st => ?_, fun st => ?_, fun no no' => ?_⟩⟩,
    fun r => ⟨fun absent => ?_, fun o found => ⟨fun no no' => ?_, fun finished => retired_of r found finished⟩⟩⟩
  · exact refused_of (orderHold_slotless number) r rfl (by simp [State.orderHold, absent])
  · exact done_of (orderHold_slotless number) r rfl (by simp only [State.orderHold, found, st]; rfl)
  · exact done_of (orderHold_slotless number) r rfl (by simp only [State.orderHold, found, st])
  · exact refused_of (orderHold_slotless number) r rfl (by simp only [State.orderHold, found])
  · exact refused_of (orderRelease_slotless number) r rfl (by simp [State.orderRelease, absent])
  · exact done_of (orderRelease_slotless number) r rfl (by simp only [State.orderRelease, found, st]; rfl)
  · exact done_of (orderRelease_slotless number) r rfl (by simp only [State.orderRelease, found, st])
  · exact refused_of (orderRelease_slotless number) r rfl (by simp only [State.orderRelease, found])
  · exact refused_of (orderRetire_slotless number) r rfl (by simp [State.orderRetire, absent])
  · exact refused_of (orderRetire_slotless number) r rfl (by simp only [State.orderRetire, found])

end

namespace Sys2Proof.Machine

section Cancel

variable {v : Via} {number : Word} {s : State} {o : Order}

/-- R57: the orphan mark. -/
theorem State.markOrphans_garment (s : State) (n : Word) (p : Fin 16) : (s.markOrphans n).garment p =
    (s.garment p).map fun g => { g with orphan := g.orphan || (g.binding.map Binding.order == some n) } := by
  simp only [State.markOrphans, State.garment, State.setUnits_units, vmap_get]
  cases s.units.garments[p] with
  | none => rfl
  | some g =>
    simp only [Option.map_some]
    split
    next h =>
      cases g
      simp_all
    next b h =>
      cases g
      by_cases same : b.order = n <;> simp_all

theorem State.markOrphans_keeps (s : State) (n : Word) : s.keeps (s.markOrphans n) [.units] := by
  intro p out
  cases p with
  | units => simp at out
  | notices => exact fun l => ⟨rfl, rfl, .inl rfl⟩
  | settings => exact fun l => ⟨rfl, rfl, rfl, rfl⟩
  | outputs => exact fun i => ⟨rfl, rfl, rfl, rfl⟩
  | _ => rfl

/-- R33 under a cancelled order. -/
theorem Line.cancelled_eq (l : Line) : l.cancelled =
    { l with status := if l.status = .done then .done else if l.reserved = 0 then .closed else .withdrawn } := by
  simp [Line.cancelled, Line.derived, OrderStatus.withdrawn]

/-- R34: what a cancelled order becomes. -/
theorem Book.cancelled_status (b : Book) (o : Order) :
    (b.derivedOrder { o with status := .cancelling } = .cancelling ↔ ∃ k ∈ o.lines, b.lines[k].map Line.status = some .withdrawn) ∧
    (b.derivedOrder { o with status := .cancelling } = .cancelling ∨ b.derivedOrder { o with status := .cancelling } = .cancelled) := by
  simp only [Book.derivedOrder]
  split
  next some_ => exact ⟨⟨fun _ => by simpa [Book.lineStatus] using List.any_eq_true.1 some_, fun _ => rfl⟩, .inl rfl⟩
  next none_ =>
    exact ⟨⟨fun e => (by cases e), fun ⟨k, on, w⟩ => (none_ (List.any_eq_true.2 ⟨k, on, beq_iff_eq.2 w⟩)).elim⟩, .inr rfl⟩

/-- R39, R57: what a cancelled order leaves. -/
theorem cancelled_of (r : Ready s v 0x05) (found : s.book.find number = some o)
    (open_ : o.status = .opened ∨ o.status = .held) :
    ∃ (t : State) (x : OrderStatus), Answered (.orderCancel v number) v 0x05 s t .ok [] ∧ s.keeps t [.book, .units, .notices] ∧
      (x = .cancelling ↔ ∃ k ∈ o.lines, (t.book.lines[k]).map Line.status = some .withdrawn) ∧ (x = .cancelling ∨ x = .cancelled) ∧
      t.book.orders = s.book.orders.map (fun y => if y.number = o.number then { o with status := x } else y) ∧
      t.book.catalogue = s.book.catalogue ∧ t.book.recipes = s.book.recipes ∧ t.book.sequence = s.book.sequence ∧
      (∀ k, k ∉ o.lines → t.book.lines[k] = s.book.lines[k]) ∧
      (∀ k ∈ o.lines, t.book.lines[k] = (s.book.lines[k]).map fun l =>
        { l with status := if l.status = .done then .done else if l.reserved = 0 then .closed else .withdrawn }) ∧
      t.units.serial = s.units.serial ∧
      (∀ p : Fin 16, t.garment p = (s.garment p).map fun g =>
        { g with orphan := g.orphan || (g.binding.map Binding.order == some o.number) }) ∧
      s.notified t (.orderState o.number (some x) o.sequence ::
        o.lines.flatMap fun k =>
          match t.book.lines[k] with
          | none => []
          | some l => if (s.book.lines[k]).map Line.status = some l.status then [] else
              [.lineProgress k l.order (t.book.position l.order k) l.quantity l.done l.reserved l.spoiled l.status]) := by
  have cancelled : State.orderCancel number s = (s.cancelOrder o).accept [] := by
    rcases open_ with e | e <;> simp only [State.orderCancel, found, e]
  obtain ⟨t, answered, kept⟩ := answered_of (i := .orderCancel v number) (orderCancel_slotless number) r rfl cancelled
  obtain ⟨lines, fold, each⟩ := Book.cancelLines_eq o.lines s.book
  have status := Book.cancelled_status { s.book with lines := lines } o
  generalize hx : ({ s.book with lines := lines } : Book).derivedOrder { o with status := .cancelling } = x at status
  generalize hb : ({ s.book with lines := lines } : Book).putOrder { o with status := x } = b
  have left : s.cancelOrder o = ((s.setBook b).markOrphans o.number).raiseAll
      (.orderState o.number (some x) o.sequence :: o.lines.flatMap (s.book.cancelNotice b)) := by
    rw [← hb, ← hx, State.cancelOrder, fold]
    rfl
  have book : t.book = b := (kept .book (by simp)).trans (by simp [left, State.markOrphans])
  have units : t.units = (s.markOrphans o.number).units := (kept .units (by simp)).trans (by simp [left, State.markOrphans])
  have frame : s.keeps (s.cancelOrder o) [.book, .units, .notices] := by
    rw [left]
    refine State.keeps_raiseAll (State.keeps_trans (u := s.setBook b) ?_ ?_ (by simp)) (by simp) _
    · exact State.keeps_mono (s.setBook_keeps b) (by simp)
    · exact State.keeps_mono ((s.setBook b).markOrphans_keeps o.number) (by simp)
  refine ⟨t, x, answered, State.keeps_done frame kept (by simp), by rw [book, ← hb]; exact status.1, status.2, by rw [book, ← hb]; rfl,
    by rw [book, ← hb]; rfl, by rw [book, ← hb]; rfl, by rw [book, ← hb]; rfl, fun k off => ?_, fun k on => ?_, by rw [units]; rfl,
    fun p => ?_, ?_⟩
  · rw [book, ← hb]
    exact (each k).trans (if_neg off)
  · rw [book, ← hb]
    simp only [← Line.cancelled_eq]
    exact (each k).trans (if_pos on)
  · rw [State.garment, units]
    exact s.markOrphans_garment o.number p
  · have notices : ∀ k, s.book.cancelNotice b k =
        match t.book.lines[k] with
        | none => []
        | some l => if (s.book.lines[k]).map Line.status = some l.status then [] else
            [.lineProgress k l.order (t.book.position l.order k) l.quantity l.done l.reserved l.spoiled l.status] := by
      intro k
      rw [book]
      rfl
    simp only [← notices]
    exact State.notified_of_keeps (fun l => by simp [left, State.markOrphans]) kept

end Cancel
end Sys2Proof.Machine

section
open Sys2Proof.Machine

/-- Settles O20: the handler by the state of the order that is found. -/
theorem orderCancelWithdrawsLines : Obligations.OrderCancelWithdrawsLines := by
  intro v number s r
  refine ⟨fun absent => ?_, fun o found => ⟨fun st => ?_, fun st => ?_, fun open_ => cancelled_of r found open_⟩⟩
  · exact refused_of (orderCancel_slotless number) r rfl (by simp [State.orderCancel, absent])
  · exact refused_of (orderCancel_slotless number) r rfl (by simp only [State.orderCancel, found, st])
  · exact done_of (orderCancel_slotless number) r rfl (by rcases st with e | e <;> simp only [State.orderCancel, found, e])

end
end

