-- ==== Sys2Proof/Proofs/ArtSeals.lean ====
section
/-! PROOF. Seals, verification passes and ART_FREE (R44, R72 to R77). -/

namespace Sys2Proof.Machine

section Seals

variable {v : Via} {s : State}

theorem artSeal_slotless (handle : Nat) (crc : Option Word) : Slotless (State.artSeal handle crc) :=
  fun s l x mode => State.artSeal_slotted s l x mode handle crc

theorem artFree_slotless (handle : Nat) : Slotless (State.artFree handle) :=
  fun s l x mode => State.artFree_slotted s l x mode handle

/-- R72: what a sealed descriptor leaves. -/
theorem State.artSeal_of {h : Fin 64} {d : Art} (here : s.art h = some d) (loading : d.status = .loading) (crc : Option Word) :
    State.artSeal h.val crc s =
      ({ s with store := { s.store with
          arts := upd s.store.arts h (some { d with status := .verifying, expected := crc.getD d.expected })
          verifyQueue := s.store.verifyQueue ++ [h] } }.raise (.artState h .verifying (crc.getD d.expected) d.computed)).accept [] := by
  simp only [State.artSeal, inRange_val, here, loading, ne_eq, not_true_eq_false, if_false]
  rfl

/-! ### Verification passes -/

theorem State.passStart_busy (busy : s.store.verify ≠ none ∨ s.store.verifyQueue = []) : s.passStart = s := by
  unfold State.passStart
  split
  next idle queued =>
    rcases busy with h | h
    · exact absurd idle h
    · simp [queued] at h
  · rfl

theorem State.passStart_of {h : Fin 64} {rest : List (Fin 64)} {d : Art} (queued : s.store.verifyQueue = h :: rest)
    (here : s.art h = some d) (idle : s.store.verify = none) : s.passStart =
      { s with store := { s.store with
          arts := upd s.store.arts h (some { d with rowsChecked := 0 })
          verify := some ⟨0, 0, 0xFFFFFFFF⟩ } } := by
  simp only [State.passStart, idle, queued, here]
  rw [← queued]
  rfl

theorem State.passEnd_idle (idle : s.store.verify = none ∨ s.store.verifyQueue = []) : s.passEnd = s := by
  unfold State.passEnd
  split
  next running queued =>
    rcases idle with h | h
    · simp [running] at h
    · simp [queued] at h
  · rfl

variable {h : Fin 64} {rest : List (Fin 64)} {d : Art} {pass : VerifyPass}

theorem State.passEnd_short (queued : s.store.verifyQueue = h :: rest) (here : s.art h = some d)
    (running : s.store.verify = some pass) (short : pass.row < d.height) : s.passEnd = s := by
  simp only [State.passEnd, running, queued, here, short, if_true]

/-- The Art Store when a pass ends (R75). -/
def State.judgedArt (s : State) (h : Fin 64) (rest : List (Fin 64)) (d : Art) (crc : Word) (x : ArtStatus) (y : ArtState) : State :=
  { s with store := { s.store with
    arts := upd s.store.arts h (some { d with computed := some crc, rowsChecked := d.height, status := x })
    verifyQueue := rest
    verify := none } }.raise (.artState h y d.expected (some crc))

theorem State.passEnd_ready (queued : s.store.verifyQueue = h :: rest) (here : s.art h = some d)
    (running : s.store.verify = some pass) (fed : d.height ≤ pass.row) (same : ~~~pass.crc = d.expected) :
    s.passEnd = (s.judgedArt h rest d (~~~pass.crc) .ready .ready).rematch .other := by
  have good : (crc32Result pass.crc == d.expected) = true := beq_iff_eq.2 same
  simp only [State.passEnd, running, queued, here, Nat.not_lt.2 fed, if_false, good, if_true]
  rfl

theorem State.passEnd_bad (queued : s.store.verifyQueue = h :: rest) (here : s.art h = some d)
    (running : s.store.verify = some pass) (fed : d.height ≤ pass.row) (other : ~~~pass.crc ≠ d.expected) :
    s.passEnd = s.judgedArt h rest d (~~~pass.crc) .bad .bad := by
  have bad : (crc32Result pass.crc == d.expected) = false := beq_eq_false_iff_ne.2 other
  simp only [State.passEnd, running, queued, here, Nat.not_lt.2 fed, if_false, bad, Bool.false_eq_true]
  rfl

theorem State.judgedArt_slot (s : State) (h : Fin 64) (rest : List (Fin 64)) (d : Art) (crc : Word) (x : ArtStatus) (y : ArtState)
    (l : Link) : ((s.judgedArt h rest d crc x y).link l).slot = (s.link l).slot := by
  rw [State.judgedArt, State.raise_link, LinkState.offer_slot]
  rfl

/-- A rematch leaves the slots as they are. -/
theorem State.rematch_slot (s : State) (c : RematchCause) (l : Link) : ((s.rematch c).link l).slot = (s.link l).slot :=
  (Still.of_stores (s.rematch_stores c)).quiet.slot l

end Seals
end Sys2Proof.Machine

section
open Sys2Proof.Machine

/-- Settles O35: the seal's handler by the descriptor's state, the passes by the head of the queue. -/
theorem sealedArtIsVerified : Obligations.SealedArtIsVerified := by
  refine ⟨fun v handle crc s r => ⟨fun out => ?_, ?_⟩, fun s high => ⟨fun busy => ?_, fun idle => ?_, fun h rest d queued here =>
    ⟨fun idle => ?_, fun pass running => ⟨fun short => ?_, fun fed => ⟨fun same => ?_, fun other => ?_⟩⟩⟩⟩⟩
  · exact refused_of (artSeal_slotless handle crc) r rfl (by simp [State.artSeal, inRange_out out])
  · rintro h rfl
    refine ⟨fun no => refused_of (artSeal_slotless h.val crc) r rfl ?_, fun d here loading => ?_⟩
    · unfold State.artSeal
      rw [inRange_val]
      dsimp only
      split
      · rfl
      next d here => exact if_pos (no d here)
    · have done := done_of (i := .artSeal v h.val crc) (artSeal_slotless h.val crc) r rfl (State.artSeal_of here loading crc)
      cases crc <;> exact done
  · exact leads_of rfl high (State.passStart_busy busy) fun _ => rfl
  · exact leads_of rfl high (State.passEnd_idle idle) fun _ => rfl
  · exact leads_of rfl high (State.passStart_of queued here idle) fun _ => rfl
  · exact leads_of rfl high (State.passEnd_short queued here running short) fun _ => rfl
  · exact leads_of rfl high (State.passEnd_ready queued here running fed same) fun l =>
      (State.rematch_slot _ _ l).trans (s.judgedArt_slot h rest d _ _ _ l)
  · exact leads_of rfl high (State.passEnd_bad queued here running fed other) fun l => s.judgedArt_slot h rest d _ _ _ l

end

namespace Sys2Proof.Machine

section Free

variable {v : Via} {s : State} {h : Fin 64} {d : Art}

theorem LineStatus.pins_iff (x : LineStatus) : x.pins = true ↔ x = .opened ∨ x = .full ∨ x = .withdrawn := by
  cases x <;> simp [LineStatus.pins]

/-- R44: a descriptor is pinned by a line that names it in OPEN, FULL or WITHDRAWN. -/
theorem Book.pins_pos (b : Book) (h : Fin 64) : 0 < b.pins h ↔ ∃ (k : Fin 512) (l : Line), b.lines[k] = some l ∧
    l.placement.art = h ∧ (l.status = .opened ∨ l.status = .full ∨ l.status = .withdrawn) := by
  rw [Book.pins_eq, List.countP_pos_iff]
  constructor
  · rintro ⟨k, -, pinned⟩
    split at pinned
    · cases pinned
    next l here =>
      obtain ⟨art, status⟩ := of_decide_eq_true pinned
      exact ⟨k, l, here, art, status⟩
  · rintro ⟨k, l, here, art, status⟩
    refine ⟨k, List.mem_finRange k, ?_⟩
    rw [here]
    exact decide_eq_true ⟨art, status⟩

theorem State.leaveQueue_keeps (s : State) (h : Fin 64) : s.keeps ((s.leaveQueue h).putArt h none) [.store, .arbiter] := by
  intro p out
  unfold State.leaveQueue
  cases p with
  | store => simp at out
  | arbiter => simp at out
  | notices =>
    intro l
    split <;> exact ⟨rfl, rfl, .inl rfl⟩
  | settings =>
    intro l
    split <;> exact ⟨rfl, rfl, rfl, rfl⟩
  | outputs =>
    intro i
    split <;> exact ⟨rfl, rfl, rfl, rfl⟩
  | _ => dsimp only; split <;> rfl

theorem State.leaveQueue_store (s : State) (h : Fin 64) : ((s.leaveQueue h).putArt h none).store = { s.store with
    arts := upd s.store.arts h none, verifyQueue := s.store.verifyQueue.filter fun x => x != h,
    verify := if s.store.verify.isSome ∧ s.store.verifyQueue.head? = some h then none else s.store.verify } := by
  unfold State.leaveQueue
  dsimp only
  split <;> rfl

theorem State.leaveQueue_arbiter (s : State) (h : Fin 64) : ((s.leaveQueue h).putArt h none).arbiter =
    if s.store.verify.isSome ∧ s.store.verifyQueue.head? = some h then s.arbiter.drop .verify .dropped else s.arbiter := by
  unfold State.leaveQueue
  dsimp only
  split <;> rfl

theorem State.leaveQueue_link (s : State) (h : Fin 64) (l : Link) : ((s.leaveQueue h).putArt h none).link l = s.link l := by
  unfold State.leaveQueue
  dsimp only
  split <;> rfl

/-- R81: only a live burst of the requester is marked. -/
theorem Arbiter.drop_other (a : Arbiter) (r : Requester) (x : Fate) (h : ∀ b, a.port ≠ some ⟨r, b, .live⟩) :
    (a.drop r x).port = a.port := by
  unfold Arbiter.drop Arbiter.mark
  cases e : a.port with
  | none => rfl
  | some g =>
    simp only [Option.map_some]
    rw [if_neg]
    rintro ⟨rfl, live⟩
    refine h g.burst (e.trans ?_)
    rw [← live]

theorem Arbiter.drop_live (a : Arbiter) (r : Requester) (x : Fate) {b : Burst} (h : a.port = some ⟨r, b, .live⟩) :
    (a.drop r x).port = some ⟨r, b, x⟩ := by
  simp [Arbiter.drop, Arbiter.mark, h]

/-- R77: what a freed descriptor leaves. -/
theorem artFreed_of (r : Ready s v 0x0F) (here : s.art h = some d) (free : ¬0 < s.book.pins h) :
    ∃ t, Answered (.artFree v h.val) v 0x0F s t .ok [] ∧ s.keeps t [.store, .arbiter, .notices] ∧
      s.notified t [.artState h .free d.expected d.computed] ∧
      t.store = ((s.leaveQueue h).putArt h none).store ∧ t.arbiter = ((s.leaveQueue h).putArt h none).arbiter := by
  have freed : State.artFree h.val s =
      (((s.leaveQueue h).putArt h none).raiseAll [.artState h .free d.expected d.computed]).accept [] := by
    simp only [State.artFree, inRange_val, here, free, if_false]
    rfl
  obtain ⟨t, answered, kept⟩ := answered_of (i := .artFree v h.val) (artFree_slotless h.val) r rfl freed
  have clock : ((s.leaveQueue h).putArt h none).clock = s.clock := s.leaveQueue_keeps h .clock (by simp)
  refine ⟨t, answered, ?_, State.notified_of_keeps (fun l => by rw [State.raiseAll_link, State.leaveQueue_link, clock]) kept,
    (kept .store (by simp)).trans (by simp), (kept .arbiter (by simp)).trans (by simp)⟩
  exact State.keeps_done (State.keeps_raiseAll (State.keeps_mono (s.leaveQueue_keeps h) (by simp)) (by simp) _) kept (by simp)

end Free
end Sys2Proof.Machine

section
open Sys2Proof.Machine

/-- Settles O36: by R44's count, and by whether the verifier's pass is on the handle. -/
theorem artFreeSparesPinnedArt : Obligations.ArtFreeSparesPinnedArt := by
  intro v handle s r
  refine ⟨fun out => ?_, ?_⟩
  · exact refused_of (artFree_slotless handle) r rfl (by simp [State.artFree, inRange_out out])
  rintro h rfl
  refine ⟨fun none_ => ?_, fun d here => ⟨fun pinned => ?_, fun spared => ?_⟩⟩
  · exact refused_of (artFree_slotless h.val) r rfl (by simp [State.artFree, none_])
  · have inUse := (s.book.pins_pos h).2 pinned
    exact refused_of (artFree_slotless h.val) r rfl (by simp [State.artFree, here, inUse])
  · obtain ⟨t, answered, kept, notified, store, arbiter⟩ := artFreed_of r here fun pos => spared ((s.book.pins_pos h).1 pos)
    rw [State.leaveQueue_store] at store
    rw [State.leaveQueue_arbiter] at arbiter
    refine ⟨t, answered, kept, by rw [store], by rw [store], by rw [store], by rw [store], by rw [store], notified,
      fun apart => ?_, fun head => ?_⟩
    · have no : ¬(s.store.verify.isSome ∧ s.store.verifyQueue.head? = some h) := by
        rintro ⟨running, head⟩
        rcases apart with e | e
        · exact e head
        · simp [e] at running
      rw [if_neg no] at store arbiter
      exact ⟨by rw [store], arbiter⟩
    · refine ⟨?_, ?_, ?_, fun b running live => ?_, fun still => ?_⟩
      · rw [store]
        by_cases running : s.store.verify.isSome
        · rw [if_pos ⟨running, head⟩]
        · rw [if_neg fun both => running both.1]
          exact Option.not_isSome_iff_eq_none.1 running
      · rw [arbiter]
        split <;> rfl
      · rw [arbiter]
        split <;> rfl
      · rw [arbiter, if_pos ⟨Option.isSome_iff_ne_none.2 running, head⟩]
        exact Arbiter.drop_live _ _ _ live
      · rw [arbiter]
        split
        next both =>
          rcases still with e | e
          · simp [e] at both
          · exact Arbiter.drop_other _ _ _ e
        · rfl

end
end

