-- ==== Sys2Proof/Proofs/Removals.lean ====
section
/-! PROOF. Garments removed and counted (R42, R59 to R63, R105), and shelf slots emptied (R158, R159). -/

namespace Sys2Proof.Machine

section Withdraw

/-- R105: a queued coverage job is withdrawn. -/
theorem State.withdrawJob_of (s : State) {p : Fin 16} {g : Garment}
    (queued : g.pretreat.coverage = .queued ∨ g.pretreat.coverage = .scanning) :
    WithdrawsJob p g.serial s (s.withdrawJob p g) := by
  unfold State.withdrawJob
  rw [if_pos queued]
  refine ⟨rfl, ?_, fun none_ => ?_, fun u running => ⟨?_, ?_⟩⟩
  · refine List.filter_congr fun j _ => ?_
    by_cases mine : j.platen = p <;> by_cases same : j.serial = g.serial <;> simp [mine, same]
  · simp [none_]
  · rintro ⟨⟨k, kind⟩, platen, serial⟩
    simp [running, RasterUnit.isBandOf, kind, platen, serial]
  · intro other
    have no : u.isBandOf p g.serial = false := by
      unfold RasterUnit.isBandOf
      split
      next k kind =>
        by_contra yes
        obtain ⟨platen, serial⟩ : u.platen = p ∧ u.serial = g.serial := by simpa using yes
        exact other ⟨⟨k, kind⟩, platen, serial⟩
      · rfl
    simp [running, no]

theorem State.withdrawJob_none (s : State) {p : Fin 16} {g : Garment} (queued : g.pretreat.coverage ≠ .queued)
    (scanning : g.pretreat.coverage ≠ .scanning) : s.withdrawJob p g = s := by
  unfold State.withdrawJob
  exact if_neg fun h => h.elim queued scanning

end Withdraw

/-! ### LOAD_CLEAR, UNLOAD_GOOD, UNLOAD_SPOIL -/

section Unload

variable {v : Via} {s : State} {p : Fin 16} {g : Garment}

theorem loadClear_slotless (platen : Nat) : Slotless (State.loadClear platen) :=
  fun s l x mode => State.loadClear_slotted s l x mode platen

theorem unloadGood_slotless (platen : Nat) : Slotless (State.unloadGood platen) :=
  fun s l x mode => State.unloadGood_slotted s l x mode platen

theorem unloadSpoil_slotless (platen : Nat) : Slotless (State.unloadSpoil platen) :=
  fun s l x mode => State.unloadSpoil_slotted s l x mode platen

/-- R60: the checks that the unload requests share. -/
theorem State.unloadable_wrongPlaten (away : s.place p ≠ .station 5) : s.unloadable p.val = .error .wrongPlaten := by
  simp [State.unloadable, away]

theorem State.unloadable_empty (at_ : s.place p = .station 5) (empty : s.garment p = none) : s.unloadable p.val = .error .state := by
  simp [State.unloadable, at_, empty]

theorem State.unloadable_of (at_ : s.place p = .station 5) (here : s.garment p = some g) :
    s.unloadable p.val = if g.stage = .released ∨ g.disposition = .reject then .ok (p, g) else .error .state := by
  simp [State.unloadable, at_, here]

theorem State.loadClear_of (at_ : s.place p = .station 0) (here : s.garment p = some g) : State.loadClear p.val s =
    (((((s.countBinding .release g).1.withdrawJob p g).raise (g.doneNotice p .cleared)).putGarment p none).rematchIf
      (s.countBinding .release g).2).accept [.word g.serial] := by
  simp only [State.loadClear, inRange_val, at_, here, ne_eq, not_true_eq_false, if_false]
  rfl

theorem State.unloadGood_of (ok : s.unloadable p.val = .ok (p, g)) : State.unloadGood p.val s =
    if g.stage ≠ .released ∨ g.disposition ≠ .good then s.refuse .state
    else ((s.countBinding .done g).1.endUnload p g .good).accept [.word g.serial] := by
  simp only [State.unloadGood, ok]

theorem State.unloadSpoil_of (ok : s.unloadable p.val = .ok (p, g)) : State.unloadSpoil p.val s =
    (((s.countBinding .spoil g).1.endUnload p g .spoiled).rematchIf (s.countBinding .spoil g).2).accept [.word g.serial] := by
  simp only [State.unloadSpoil, ok]

end Unload
end Sys2Proof.Machine

section
open Sys2Proof.Machine

/-- Settles O26: each handler's effect is the counter request, then GARMENT_DONE and the removal. -/
theorem removedGarmentIsCounted : Obligations.RemovedGarmentIsCounted := by
  refine ⟨fun s p g => ⟨s.withdrawJob_of, s.withdrawJob_none⟩, fun v platen s => ?_⟩
  intro gone counted
  have count (c : Counter) (g : Garment) : s.countBinding c g = counted c g := rfl
  refine ⟨fun r => ⟨fun out => ?_, ?_⟩, fun r => ⟨fun out => ?_, ?_⟩, fun r => ⟨fun out => ?_, ?_⟩⟩
  · exact refused_of (loadClear_slotless platen) r rfl (by simp [State.loadClear, inRange_out out])
  · rintro p rfl
    refine ⟨fun away => ?_, fun at_ empty => ?_, fun at_ g here => ?_⟩
    · exact refused_of (loadClear_slotless p.val) r rfl (by simp [State.loadClear, away])
    · exact refused_of (loadClear_slotless p.val) r rfl (by simp [State.loadClear, at_, empty])
    · exact done_of (loadClear_slotless p.val) r rfl (State.loadClear_of at_ here)
  · exact refused_of (unloadGood_slotless platen) r rfl (by simp [State.unloadGood, State.unloadable, inRange_out out])
  · rintro p rfl
    refine ⟨fun away => ?_, fun at_ empty => ?_, fun at_ g here => ⟨fun unfit => ?_, fun released good => ?_⟩⟩
    · exact refused_of (unloadGood_slotless p.val) r rfl (by simp [State.unloadGood, State.unloadable_wrongPlaten away])
    · exact refused_of (unloadGood_slotless p.val) r rfl (by simp [State.unloadGood, State.unloadable_empty at_ empty])
    · refine refused_of (unloadGood_slotless p.val) r rfl ?_
      have ok := State.unloadable_of at_ here
      by_cases fit : g.stage = .released ∨ g.disposition = .reject
      · rw [if_pos fit] at ok
        rw [State.unloadGood_of ok, if_pos (unfit.imp id fun e => by simp [e])]
      · rw [if_neg fit] at ok
        simp [State.unloadGood, ok]
    · have ok := State.unloadable_of at_ here
      rw [if_pos (.inl released)] at ok
      refine done_of (unloadGood_slotless p.val) r rfl ((State.unloadGood_of ok).trans ?_)
      rw [if_neg (by simp [released, good])]
      rfl
  · exact refused_of (unloadSpoil_slotless platen) r rfl (by simp [State.unloadSpoil, State.unloadable, inRange_out out])
  · rintro p rfl
    refine ⟨fun away => ?_, fun at_ empty => ?_, fun at_ g here => ⟨fun stage good => ?_, fun fit => ?_⟩⟩
    · exact refused_of (unloadSpoil_slotless p.val) r rfl (by simp [State.unloadSpoil, State.unloadable_wrongPlaten away])
    · exact refused_of (unloadSpoil_slotless p.val) r rfl (by simp [State.unloadSpoil, State.unloadable_empty at_ empty])
    · have ok := State.unloadable_of at_ here
      rw [if_neg (by simp [stage, good])] at ok
      exact refused_of (unloadSpoil_slotless p.val) r rfl (by simp [State.unloadSpoil, ok])
    · have ok := State.unloadable_of at_ here
      rw [if_pos fit] at ok
      exact done_of (unloadSpoil_slotless p.val) r rfl (State.unloadSpoil_of ok)

end
end

