-- ==== Sys2Proof/Proofs/ShelfExports.lean ====
section
/-! PROOF. Shelf records written out (R181), and slots emptied by SHELF_DROP and SHELF_EXPORT (R158, R159). -/

namespace Sys2Proof.Machine

/-! ### The bytes of a record -/

theorem encodeFields_nil : encodeFields [] = [] := rfl

theorem encodeFields_cons (x : Field) (xs : List Field) : encodeFields (x :: xs) = x.encode ++ encodeFields xs := by
  simp [encodeFields]

theorem encodeFields_append (xs ys : List Field) : encodeFields (xs ++ ys) = encodeFields xs ++ encodeFields ys := by
  simp [encodeFields]

theorem encode_u8 (n : Nat) : (Field.u8 n).encode = [BitVec.ofNat 8 n] := rfl

theorem encode_u16 (n : Nat) : (Field.u16 n).encode = [BitVec.ofNat 8 (n / 256), BitVec.ofNat 8 n] := rfl

theorem encode_u24 (n : Nat) :
    (Field.u24 n).encode = [BitVec.ofNat 8 (n / 65536), BitVec.ofNat 8 (n / 256), BitVec.ofNat 8 n] := by
  simp [Field.encode, bigEndian, Nat.div_div_eq_div_mul]

theorem encode_u32 (n : Nat) : (Field.u32 n).encode =
    [BitVec.ofNat 8 (n / 16777216), BitVec.ofNat 8 (n / 65536), BitVec.ofNat 8 (n / 256), BitVec.ofNat 8 n] := by
  simp [Field.encode, bigEndian, Nat.div_div_eq_div_mul]

theorem CoverageState.code_eq (x : CoverageState) :
    x.code = [CoverageState.none, .queued, .scanning, .complete].idxOf x := by cases x <;> rfl

theorem PretreatResult.code_eq (x : PretreatResult) :
    x.code = [PretreatResult.pending, .done, .short, .interrupted, .waived].idxOf x := by cases x <;> rfl

theorem PressRecord.code_eq (x : PressRecord) :
    x.code = [PressRecord.pending, .done, .interrupted, .waived].idxOf x := by cases x <;> rfl

theorem PrintPhase.code_eq (x : PrintPhase) :
    x.code = [PrintPhase.none, .underbase, .color, .complete, .aborted].idxOf x := by cases x <;> rfl

theorem CureResult.code_eq (x : CureResult) : x.code = [CureResult.none, .released, .scorched].idxOf x := by
  cases x <;> rfl

theorem toNat_mul_eq_ite (b : Bool) (n : Nat) : n * b.toNat = if b then n else 0 := by cases b <;> simp

@[simp] theorem RecordForm.part_some (f : RecordForm) (size : Nat) (fs : List Field) : f.part size (some fs) = fs := rfl

theorem RecordForm.encode_absent (f : RecordForm) (size : Nat) :
    encodeFields (f.part size none) = match f with | .full => List.replicate size 0 | .compact => [] := by
  cases f
  · exact List.append_nil _
  · rfl

theorem Context.mask_eq (c : Context) : c.present.mask = 1 + (if c.pretreat.isSome then 2 else 0) +
    (if c.print.isSome then 4 else 0) + (if c.cure.isSome then 8 else 0) := by
  simp [Components.mask, Context.present, toNat_mul_eq_ite]

theorem Context.compact_length (c : Context) : RecordForm.compact.length c.present = 24 + (if c.pretreat.isSome then 12 else 0) +
    (if c.print.isSome then 16 else 0) + (if c.cure.isSome then 8 else 0) := by
  simp [RecordForm.length, Context.present, toNat_mul_eq_ite]

/-- R181: the fields of a record encode to its byte layout. -/
theorem encode_record (c : Context) (f : RecordForm) (orphan : Bool) : encodeFields (c.record f orphan) = c.layout f orphan := by
  have marks : c.ident.reject.toNat + 2 * orphan.toNat + 4 * c.ident.restored.toNat =
      (if c.ident.reject then 1 else 0) + (if orphan then 2 else 0) + (if c.ident.restored then 4 else 0) := by
    rw [toNat_mul_eq_ite, toNat_mul_eq_ite, ← toNat_mul_eq_ite c.ident.reject 1, Nat.one_mul]
  unfold Context.record Context.layout
  simp only [encodeFields_append]
  refine congrArg₂ _ (congrArg₂ _ (congrArg₂ _ ?_ ?_) ?_) ?_
  · simp only [RecordForm.part_some, Context.header, CtxIdent.fields, marks, c.mask_eq, blankFields, Field.word, List.cons_append,
      List.nil_append, encodeFields_cons, encodeFields_nil, encode_u8, encode_u16, encode_u32]
    cases f with
    | full => simp [RecordForm.length, fullLength, RecordForm.code, Nat.div_div_eq_div_mul]
    | compact => simp [c.compact_length, RecordForm.code, Nat.div_div_eq_div_mul]
  · cases c.pretreat with
    | none => exact f.encode_absent 12
    | some p =>
      simp [CtxPretreat.fields, encodeFields_cons, encodeFields_nil, encode_u8, encode_u24,
        CoverageState.code_eq, PretreatResult.code_eq, PressRecord.code_eq]
  · cases c.print with
    | none => exact f.encode_absent 16
    | some p =>
      simp [CtxPrint.fields, encodeFields_cons, encodeFields_nil, encode_u8, encode_u16, encode_u32,
        PrintPhase.code_eq, Nat.div_div_eq_div_mul]
  · cases c.cure with
    | none => exact f.encode_absent 8
    | some p =>
      simp [CtxCure.fields, encodeFields_cons, encodeFields_nil, encode_u8, encode_u16, CureResult.code_eq]

/-! ### SHELF_DROP and SHELF_EXPORT -/

section Off

variable {v : Via} {s : State} {k : Fin 8} {x : ShelfSlot}

theorem shelfDrop_slotless (slot : Nat) : Slotless (State.shelfDrop slot) :=
  fun s l x mode => State.shelfDrop_slotted s l x mode slot

theorem shelfExport_slotless (slot form : Nat) : Slotless (State.shelfExport slot form) :=
  fun s l x mode => State.shelfExport_slotted s l x mode slot form

@[simp] theorem State.count_shelf (s : State) (c : Counter) (i : Fin 512) : (s.count c i).1.shelf = s.shelf := by
  obtain e | ⟨l, -, e⟩ := s.count_frame c i <;> simp [e]

/-- R158, R159: a slot emptied, in the shelf the request found. -/
theorem State.takeOff_eq (s : State) (k : Fin 8) (x : ShelfSlot) (c : Counter) (e : ShelfEvent) : s.takeOff k x c e =
    (({ (s.count c x.context.ident.line).1 with shelf := { s.shelf with slots := upd s.shelf.slots k none } }.raise
      (x.context.notice k e none)).rematchIf (s.count c x.context.ident.line).2) := by
  rw [← State.count_shelf s c x.context.ident.line]
  rfl

theorem State.exportOrphan_iff (s : State) (c : Context) : s.exportOrphan c = true ↔ c.ident.orphan = true ∨
    ∃ o, s.book.find c.ident.order = some o ∧ o.status = .cancelling := by
  unfold State.exportOrphan
  split
  next none_ => simp [none_]
  next o found => simp [found, or_comm]

end Off
end Sys2Proof.Machine

section
open Sys2Proof.Machine

/-- Settles O51: both handlers take the context off by one function; an exported record has R181's bytes. -/
theorem dropAndExportEmptySlot : Obligations.DropAndExportEmptySlot := by
  intro v slot s off
  have taken (k : Fin 8) (x : ShelfSlot) (c : Counter) (e : ShelfEvent) : s.takeOff k x c e = off k x c e := s.takeOff_eq k x c e
  refine ⟨fun r => ⟨fun out => ?_, ?_⟩, fun form r => ⟨fun out => ?_, ?_⟩⟩
  · exact refused_of (shelfDrop_slotless slot) r rfl (by simp [State.shelfDrop, inRange_out out])
  · rintro k rfl
    refine ⟨fun empty => ?_, fun x here => ?_⟩
    · exact refused_of (shelfDrop_slotless k.val) r rfl (by simp [State.shelfDrop, empty])
    · exact done_of (shelfDrop_slotless k.val) r rfl (by simp [State.shelfDrop, here, taken])
  · exact refused_of (shelfExport_slotless slot form) r rfl (by simp [State.shelfExport, inRange_out out])
  · rintro k rfl
    refine ⟨fun unknown => ?_, fun f code => ?_⟩
    · have none_ : RecordForm.ofCode form = none := by
        unfold RecordForm.ofCode
        split
        · omega
        · omega
        · rfl
      exact refused_of (shelfExport_slotless k.val form) r rfl (by simp [State.shelfExport, none_])
    · have read : RecordForm.ofCode form = some f := by
        cases f <;> subst code <;> rfl
      refine ⟨fun empty => ?_, fun x here orphan mark => ?_⟩
      · exact refused_of (shelfExport_slotless k.val form) r rfl (by simp [State.shelfExport, read, empty])
      · have same : s.exportOrphan x.context = orphan := Bool.eq_iff_iff.2 ((s.exportOrphan_iff x.context).trans mark.symm)
        refine done_of (shelfExport_slotless k.val form) r rfl ?_
        simp only [State.shelfExport, inRange_val, read, here, same, encode_record, taken]
        rfl

end
end

