-- ==== Sys2Proof/Proofs/LineChanges.lean ====
section
/-! PROOF. A line changed by a counter request, a reservation or LINE_AMEND (R33, R34, R37, R41, R42, R45). -/

namespace Sys2Proof.Machine

section Changes

variable {s : State} {i : Fin 512} {l : Line} {o : Order}

theorem OrderStatus.withdrawn_iff (x : OrderStatus) : x.withdrawn = true ↔ x = .cancelling ∨ x = .cancelled := by
  cases x <;> simp [OrderStatus.withdrawn]

/-- R33: the state a line of an order derives. -/
theorem Line.derived_eq (x : OrderStatus) (l : Line) : l.derived x =
    if x = .cancelling ∨ x = .cancelled then
      if l.status = .done then .done else if l.reserved = 0 then .closed else .withdrawn
    else if l.done = l.quantity then .done
    else if l.done + l.reserved = l.quantity then .full
    else .opened := by
  unfold Line.derived
  simp only [x.withdrawn_iff]

theorem Line.derived_standing {x : OrderStatus} (standing : x = .opened ∨ x = .held) (l : Line) : l.derived x =
    if l.done = l.quantity then .done else if l.done + l.reserved = l.quantity then .full else .opened := by
  rw [Line.derived_eq, if_neg (by rcases standing with e | e <;> simp [e])]

/-- R34: the state that an OPEN or HELD order derives. -/
theorem Book.derivedOrder_standing (standing : o.status = .opened ∨ o.status = .held) (b : Book) :
    b.derivedOrder o = o.over b.lines := by
  unfold Book.derivedOrder Order.over Book.lineStatus
  rcases standing with e | e <;> rw [e]

theorem Book.orderAfter_standing (standing : o.status = .opened ∨ o.status = .held) (b : Book) (i : Fin 512) (l : Line) :
    b.orderAfter i l o = o.over (upd b.lines i (some (l.under o))) := Book.derivedOrder_standing standing _

theorem State.changeLine_book (found : s.book.find l.order = some o) : (s.changeLine i l).book = s.book.changed i l o := by
  rw [State.changeLine_eq found, State.raiseAll_book]
  rfl

theorem State.changeLine_keeps (found : s.book.find l.order = some o) : s.keeps (s.changeLine i l) [.book, .notices] := by
  rw [State.changeLine_eq found]
  exact s.setBook_raiseAll_keeps _ _

theorem State.changeLine_notified (found : s.book.find l.order = some o) :
    s.notified (s.changeLine i l) (s.book.changeNotices i l o) := by
  rw [State.changeLine_eq found]
  exact (s.setBook _).raiseAll_notified _

theorem State.count_snd {c : Counter} (here : s.book.lines[i] = some l) (found : s.book.find l.order = some o) :
    (s.count c i).2 = true ↔ c ≠ .done ∧ l.status = .full ∧ (l.count c).derived o.status = .opened := by
  have order : (l.count c).order = l.order := by cases c <;> rfl
  have stored : (s.changeLine i (l.count c)).book.lineStatus i = some ((l.count c).derived o.status) := by
    rw [State.changeLine_book (o := o) (by rw [order, found]), Book.lineStatus, Book.changed_lines]
    simp [Line.under]
  unfold State.count
  split
  next e => simp [here] at e
  next e =>
    rw [here] at e
    cases e
    simp [stored]

end Changes
end Sys2Proof.Machine

section
open Sys2Proof.Machine

/-- Settles O21: the request stores the counted line under its order, and the change's notices follow. -/
theorem counterRequestsDeriveStates : Obligations.CounterRequestsDeriveStates := by
  intro s c k l o here found done spoiled reserved status x book order t
  have number : (l.count c).order = l.order := by cases c <;> rfl
  have found' : s.book.find (l.count c).order = some o := by rw [number, found]
  have counted : l.count c = { l with done := done, reserved := reserved, spoiled := spoiled } := by cases c <;> rfl
  have derived : (l.count c).derived o.status = status := by
    rw [Line.derived_eq, counted]
  have stored : (l.count c).under o = x := by
    rw [Line.under, derived, counted]
  have after : s.book.orderAfter k (l.count c) o = order := by
    rw [Book.orderAfter, stored]
    rfl
  have notices : s.book.changeNotices k (l.count c) o = .lineProgress k l.order (o.lines.idxOf k) l.quantity done reserved spoiled status ::
      (if order = o.status then [] else [.orderState o.number (some order) o.sequence]) := by
    rw [Book.changeNotices, after, derived, counted]
  have orders := s.book.changed_orders k (l.count c) o
  rw [after] at orders
  have changed : t = s.changeLine k (l.count c) := State.count_fst here
  rw [changed, State.changeLine_book found', ← notices, ← derived]
  refine ⟨State.changeLine_keeps found', ?_, s.book.changed_catalogue _ _ _, s.book.changed_recipes _ _ _,
    s.book.changed_sequence _ _ _, fun same => orders.trans (if_pos same), fun other => orders.trans (if_neg other),
    State.changeLine_notified found', State.count_snd here found⟩
  rw [Book.changed_lines, stored]

end
end

