-- ==== Sys2Proof/Proofs/Bindings.lean ====
section
/-! PROOF. A garment bound to a line (R41, R45, R52, R53, R102). -/

namespace Sys2Proof.Machine

/-! ### One more unit reserved -/

section Reserve

variable {s t : State} {i : Fin 512} {l : Line} {o : Order}

/-- A line of an OPEN order with one more unit reserved is stored as R41 says. -/
theorem Line.under_reserved (open_ : o.status = .opened) : { l with reserved := l.reserved + 1 }.under o = l.withOneMore := by
  rw [Line.under, Line.derived_standing (.inl open_)]
  rfl

theorem Book.changed_reserved (open_ : o.status = .opened) (b : Book) :
    b.changed i { l with reserved := l.reserved + 1 } o = b.withOneMore i l o := by
  unfold Book.changed
  rw [Book.orderAfter_standing (.inl open_), Line.under_reserved open_]
  unfold Book.withOneMore
  dsimp only
  split <;> rfl

theorem Book.changeNotices_reserved (open_ : o.status = .opened) (b : Book) :
    b.changeNotices i { l with reserved := l.reserved + 1 } o = b.noticesOfOneMore i l o := by
  have derived : { l with reserved := l.reserved + 1 }.derived o.status = l.withOneMore.status :=
    congrArg Line.status (Line.under_reserved open_)
  rw [Book.changeNotices, Book.orderAfter_standing (.inl open_), Line.under_reserved open_, derived]
  rfl

/-- R41: what a granted reservation does. -/
theorem State.reserve_of (here : s.book.lines[i] = some l) (found : s.book.find l.order = some o) (granted : s.reserve i = some t) :
    o.status = .opened ∧ l.status = .opened ∧
      t = (s.setBook (s.book.withOneMore i l o)).raiseAll (s.book.noticesOfOneMore i l o) := by
  obtain ⟨m, q, here', found', order, line, e⟩ := State.reserve_eq granted
  obtain rfl : l = m := Option.some.inj (here.symm.trans here')
  obtain rfl : o = q := Option.some.inj (found.symm.trans found')
  refine ⟨order, line, e.trans ?_⟩
  rw [State.changeLine_eq (o := o) (by exact found), Book.changed_reserved order, Book.changeNotices_reserved order]

end Reserve

/-! ### The garment's record -/

section Bind

variable (s : State) (p : Fin 16) (g : Garment) (c : Fin 16) (x : Candidate) (l : Line)

/-- R53: the garment with a class's recipe and a line's placement latched. -/
def State.latched (s : State) (g : Garment) (c : Fin 16) (x : Candidate) (l : Line) : Garment :=
  let r := s.book.recipes[c]
  { g with
    binding := some ⟨x.order.number, x.line, r, l.placement⟩
    hold := none
    stage := .matched
    press := if r.pretreat then .pending else .waived
    pretreat :=
      { coverage := if r.pretreat = false then .none else if s.extent l.placement = none then .complete else .queued
        map := Vector.replicate 63 (Vector.replicate 8 0), planned := 0, issued := 0, shortfall := 0
        result := if r.pretreat then .pending else .waived } }

/-- R102: the first band of a bound garment's coverage job, where it has one. -/
def State.firstBand (s : State) (c : Fin 16) (l : Line) : Option Nat :=
  if s.book.recipes[c].pretreat then (s.extent l.placement).map fun e => e.top / 64 else none

theorem State.settledPretreat_eq (r : Recipe) (q : Placement) : s.settledPretreat r q =
    ({ coverage := if r.pretreat = false then .none else if s.extent q = none then .complete else .queued
       map := Vector.replicate 63 (Vector.replicate 8 0), planned := 0, issued := 0, shortfall := 0
       result := if r.pretreat then .pending else .waived },
      if r.pretreat then .pending else .waived, if r.pretreat then (s.extent q).map fun e => e.top / 64 else none) := by
  unfold State.settledPretreat
  cases r.pretreat with
  | false => rfl
  | true => cases s.extent q <;> rfl

/-- R53, R102: a binding puts the latched record and appends the coverage job. -/
theorem State.bind_eq : s.bind p g c x l =
    ((s.putGarment p (some (s.latched g c x l))).appendJob p g.serial (s.firstBand c l)).raise
      (.garmentMatched p g.serial x.order.number x.position x.line c (!s.book.recipes[c].pretreat)) := by
  unfold State.bind
  simp only [State.settledPretreat_eq]
  rfl

theorem State.appendJob_eq (w : Word) (cursor : Option Nat) : s.appendJob p w cursor =
    s.setEngine { s.engine with jobs := s.engine.jobs ++ cursor.toList.map fun k => ⟨p, w, k⟩ } := by
  cases cursor with
  | none => simp [State.appendJob, State.setEngine]
  | some k => rfl

theorem State.firstBand_dry (dry : s.book.recipes[c].pretreat = false ∨ s.extent l.placement = none) : s.firstBand c l = none := by
  unfold State.firstBand
  rcases dry with dry | dry
  · rw [dry]
    rfl
  · rw [dry]
    exact ite_self _

theorem State.firstBand_wet {e : Rect} (wet : s.book.recipes[c].pretreat = true) (extent : s.extent l.placement = some e) :
    s.firstBand c l = some (e.top / 64) := by
  rw [State.firstBand, if_pos wet, extent]
  rfl

theorem State.bind_keeps : s.keeps (s.bind p g c x l) [.units, .engine, .notices] := by
  rw [State.bind_eq, State.appendJob_eq]
  intro part out
  cases part with
  | units => simp at out
  | engine => simp at out
  | notices => simp at out
  | settings => exact fun k => by simp
  | outputs => exact fun k => ⟨rfl, rfl, rfl, rfl⟩
  | _ => rfl

@[simp] theorem State.bind_link (k : Link) : (s.bind p g c x l).link k =
    (s.link k).offer s.clock.time
      (.garmentMatched p g.serial x.order.number x.position x.line c (!s.book.recipes[c].pretreat)) := by
  rw [State.bind_eq, State.appendJob_eq, State.raise_link]
  rfl

@[simp] theorem State.bind_garment_self : (s.bind p g c x l).garment p = some (s.latched g c x l) := by
  rw [State.bind_eq, State.appendJob_eq]
  exact s.putGarment_garment_self p _

theorem State.bind_garment_ne {q : Fin 16} (other : p ≠ q) : (s.bind p g c x l).garment q = s.garment q := by
  rw [State.bind_eq, State.appendJob_eq]
  exact s.putGarment_garment_ne p q _ other

@[simp] theorem State.bind_serial : (s.bind p g c x l).units.serial = s.units.serial := by
  rw [State.bind_eq, State.appendJob_eq]
  rfl

@[simp] theorem State.bind_engine : (s.bind p g c x l).engine =
    { s.engine with jobs := s.engine.jobs ++ (s.firstBand c l).toList.map fun k => ⟨p, g.serial, k⟩ } := by
  rw [State.bind_eq, State.appendJob_eq]
  rfl

end Bind
end Sys2Proof.Machine

section
open Sys2Proof.Machine

/-- Settles O24: the reservation changes the book, the binding the garment and the coverage queue. -/
theorem bindingLatchesLine : Obligations.BindingLatchesLine := by
  intro s w p g c x l o here found granted r e
  unfold State.reserveAndBind at granted
  rw [here] at granted
  split at granted
  next m t same reserved =>
    obtain rfl : l = m := Option.some.inj same
    obtain ⟨order, line, after⟩ := State.reserve_of here found reserved
    obtain rfl := Option.some.inj granted
    have book : t.book = s.book.withOneMore x.line l o := by simp [after]
    have recipes : t.book.recipes = s.book.recipes := by rw [book, Book.withOneMore]
    have art : t.extent l.placement = s.extent l.placement := congrArg (extentOf l.placement) (by simp [after, State.art])
    have record : t.latched g c x l = s.latched g c x l := by simp only [State.latched, art, recipes]
    have band : t.firstBand c l = s.firstBand c l := by simp only [State.firstBand, art, recipes]
    have engine : t.engine = s.engine := by simp [after]
    have jobs : (t.bind p g c x l).engine.jobs = s.engine.jobs ++ (s.firstBand c l).toList.map fun k => ⟨p, g.serial, k⟩ := by
      rw [State.bind_engine, band, engine]
    refine ⟨order, line, ?_, ?_, fun k => ?_, ?_, fun q other => ?_, ?_, fun dry => ?_, fun wet b extent => ?_, ?_⟩
    · exact (State.bind_keeps t p g c x l .book (by simp)).trans book
    · simp [after]
    · have link : (t.bind p g c x l).link k = (s.link k).offerAll s.clock.time (s.book.noticesOfOneMore x.line l o ++
          [.garmentMatched p g.serial x.order.number x.position x.line c (!r.pretreat)]) := by
        rw [State.bind_link, recipes, ← LinkState.offerAll_concat]
        simp [after, r]
      exact link ▸ ⟨rfl, rfl, .inl rfl⟩
    · rw [State.bind_garment_self, record]
      rfl
    · rw [State.bind_garment_ne _ _ _ _ _ _ other.symm]
      simp [after]
    · rw [State.bind_engine, engine]
    · rw [jobs, s.firstBand_dry c l dry]
      exact List.append_nil _
    · rw [jobs, s.firstBand_wet c l wet extent]
      rfl
    · exact State.keeps_trans (after ▸ State.keeps_mono (State.setBook_raiseAll_keeps _ _ _) (by simp))
        (State.keeps_mono (t.bind_keeps p g c x l) (by simp)) (by simp)
  · cases granted

end
end

