-- ==== Sys2Proof/Proofs/Amends.lean ====
section
/-! PROOF. LINE_AMEND (R37). -/

namespace Sys2Proof.Machine

section Amend

variable {s : State} {number : Word} {position quantity : Nat} {o : Order} {k : Fin 512} {l : Line}

theorem lineAmend_slotless (number : Word) (position quantity : Nat) : Slotless (State.lineAmend number position quantity) :=
  fun s l x mode => State.lineAmend_slotted s l x mode number position quantity

/-- R37: LINE_AMEND on a line of an order, its later checks in order. -/
theorem State.lineAmend_of (found : s.book.find number = some o) (at_ : o.lines[position]? = some k)
    (here : s.book.lines[k] = some l) : State.lineAmend number position quantity s =
      if quantity = 0 ∨ 999 < quantity then s.refuse .malformed
      else if o.status ≠ .opened ∧ o.status ≠ .held then s.refuse .state
      else if quantity < l.done + l.reserved then s.refuse .state
      else if quantity = l.quantity then s.accept []
      else ((s.changeLine k { l with quantity := quantity }).rematchIf (decide (l.quantity < quantity))).accept [] := by
  simp only [State.lineAmend, found, at_, here]

theorem State.rematchIf_decide (s : State) (c : Prop) [Decidable c] :
    s.rematchIf (decide c) = if c then s.rematch .other else s := by
  simp [State.rematchIf]

end Amend
end Sys2Proof.Machine

section
open Sys2Proof.Machine

/-- Settles O18: an accepted amend is a change of the line in an order that stands. -/
theorem lineAmendSetsQuantity : Obligations.LineAmendSetsQuantity := by
  intro v number position quantity s r i
  refine ⟨fun absent => ?_, fun o found => ⟨fun beyond => ?_, fun k l at_ here => ?_⟩⟩
  · exact refused_of (lineAmend_slotless number position quantity) r rfl (by simp only [State.lineAmend, absent])
  · refine refused_of (lineAmend_slotless number position quantity) r rfl ?_
    simp only [State.lineAmend, found, List.getElem?_eq_none beyond]
  have amend := State.lineAmend_of (quantity := quantity) found at_ here
  refine ⟨fun wrong => ?_, fun low high => ⟨fun ended => ?_, fun standing => ⟨fun short => ?_, fun enough => ⟨fun same => ?_,
    fun other of_ => ?_⟩⟩⟩⟩
  · rw [if_pos wrong] at amend
    exact refused_of (lineAmend_slotless number position quantity) r rfl amend
  all_goals rw [if_neg (by omega)] at amend
  · rw [if_pos (by rcases ended with e | e | e <;> simp [e])] at amend
    exact refused_of (lineAmend_slotless number position quantity) r rfl amend
  all_goals rw [if_neg (by rcases standing with e | e <;> simp [e])] at amend
  · rw [if_pos short] at amend
    exact refused_of (lineAmend_slotless number position quantity) r rfl amend
  all_goals rw [if_neg (by omega)] at amend
  · rw [if_pos same] at amend
    exact done_of (lineAmend_slotless number position quantity) r rfl amend
  · rw [if_neg other, State.rematchIf_decide] at amend
    intro status lines order
    have found' : s.book.find { l with quantity := quantity }.order = some o := of_ ▸ found
    have stored : { l with quantity := quantity }.under o = { l with quantity := quantity, status := status } := by
      rw [Line.under, Line.derived_standing standing]
    have after : s.book.orderAfter k { l with quantity := quantity } o = order := by
      rw [Book.orderAfter_standing standing, stored]
      rfl
    have orders := s.book.changed_orders k { l with quantity := quantity } o
    rw [after] at orders
    have notices : s.book.changeNotices k { l with quantity := quantity } o =
        .lineProgress k number (o.lines.idxOf k) quantity l.done l.reserved l.spoiled status ::
          (if order = o.status then [] else [.orderState o.number (some order) o.sequence]) := by
      rw [Book.changeNotices, after, Line.derived_standing standing, ← of_]
    refine ⟨s.changeLine k { l with quantity := quantity }, done_of (lineAmend_slotless number position quantity) r rfl amend,
      State.changeLine_keeps found', ?_⟩
    rw [State.changeLine_book found', ← notices]
    refine ⟨?_, s.book.changed_catalogue _ _ _, s.book.changed_recipes _ _ _, s.book.changed_sequence _ _ _,
      fun same => orders.trans (if_pos same), fun other => orders.trans (if_neg other), State.changeLine_notified found'⟩
    rw [Book.changed_lines, stored]

end
end

