-- ==== Sys2Proof/Proofs/OrderPosts.lean ====
section
/-! PROOF. ORDER_POST (R35, R36). -/

namespace Sys2Proof.Machine

/-! ### The placement of a posted line -/

section Placements

variable {s : State} {l : PostLine} {p : Placement}

/-- R35: a posted line names a descriptor and, where it has one, an overlay. -/
def PostLine.inTables (l : PostLine) : Prop := l.art < 64 ∧ ∀ o, l.overlay = some o → o.index < 16

/-- R35, R36: a placement is the posted one, clamped. -/
def PostLine.places (l : PostLine) (p : Placement) : Prop :=
  p.art.val = l.art ∧ p.col0 = min l.col0 8191 ∧ p.row0 = min l.row0 8191 ∧ p.width = min l.width 8192 ∧
  p.height = min l.height 8192 ∧ p.ox = min l.ox 3199 ∧ p.oy = min l.oy 3999 ∧ (l.overlay = none → p.overlay = none) ∧
  ∀ o, l.overlay = some o → ∃ a, p.overlay = some a ∧ a.index.val = o.index ∧
    a.vx = max (-63) (min o.vx 3199) ∧ a.vy = max (-63) (min o.vy 3999)

theorem inRange_of_lt {n x : Nat} (h : x < n) : inRange n x = some ⟨x, h⟩ := inRange_val ⟨x, h⟩

theorem clampInt_eq {lo hi : Int} (bounds : lo ≤ hi) (z : Int) : clampInt lo hi z = max lo (min z hi) := by
  unfold clampInt
  split
  · omega
  · split <;> omega

theorem PostLine.placement_of (named : PostLine.inTables l) : ∃ p, PostLine.placement l = some p ∧ PostLine.places l p := by
  obtain ⟨art, overlay⟩ := named
  unfold PostLine.placement
  rw [inRange_of_lt art]
  cases at_ : l.overlay with
  | none => exact ⟨_, rfl, rfl, rfl, rfl, rfl, rfl, rfl, rfl, fun _ => rfl, fun o e => by simp [at_] at e⟩
  | some o =>
    simp only [inRange_of_lt (overlay o at_)]
    refine ⟨_, rfl, rfl, rfl, rfl, rfl, rfl, rfl, rfl, fun e => by simp [at_] at e, fun q e => ?_⟩
    obtain rfl : o = q := Option.some.inj (at_.symm.trans e)
    exact ⟨_, rfl, rfl, clampInt_eq (by decide) _, clampInt_eq (by decide) _⟩

theorem PostLine.placement_none (unnamed : ¬PostLine.inTables l) : PostLine.placement l = none := by
  unfold PostLine.placement
  by_cases art : l.art < 64
  · rw [inRange_of_lt art]
    cases at_ : l.overlay with
    | none => exact absurd ⟨art, by simp [at_]⟩ unnamed
    | some o =>
      have out : 16 ≤ o.index := by
        by_contra low
        refine unnamed ⟨art, fun q e => ?_⟩
        obtain rfl : o = q := Option.some.inj (at_.symm.trans e)
        omega
      simp only [inRange_out out]
  · rw [inRange_out (Nat.le_of_not_lt art)]

theorem State.artUsable_iff (s : State) (h : Fin 64) : s.artUsable h = true ↔ ∃ d, s.art h = some d ∧ d.status ≠ .bad := by
  unfold State.artUsable State.art
  split
  next none_ => simp [none_]
  next d here => simp [here]

/-- R35 check 3: a posted line is placed where its art is usable and its overlay exists. -/
theorem State.postPlacement_some : s.postPlacement l = some p ↔ PostLine.placement l = some p ∧ s.artUsable p.art = true := by
  unfold State.postPlacement
  cases placed : PostLine.placement l with
  | none => simp
  | some q =>
    by_cases usable : s.artUsable q.art = true
    · simp only [usable, if_true, Option.some.injEq]
      exact ⟨fun e => ⟨e, e ▸ usable⟩, fun e => e.1⟩
    · simp only [usable, Bool.false_eq_true, if_false, Option.some.injEq, reduceCtorEq, false_iff]
      rintro ⟨rfl, yes⟩
      exact usable yes

/-- R35 check 3: what a posted line may name. -/
def State.nameable (s : State) (l : PostLine) : Prop :=
  (∃ h : Fin 64, l.art = h.val ∧ ∃ d, s.art h = some d ∧ d.status ≠ .bad) ∧ ∀ o, l.overlay = some o → o.index < 16

theorem State.postPlacement_of (named : s.nameable l) : ∃ p, s.postPlacement l = some p := by
  obtain ⟨⟨h, art, usable⟩, overlay⟩ := named
  obtain ⟨p, placed, at_⟩ := PostLine.placement_of ⟨art ▸ h.isLt, overlay⟩
  have same : p.art = h := Fin.ext (at_.1.trans art)
  exact ⟨p, State.postPlacement_some.2 ⟨placed, (s.artUsable_iff p.art).2 (same ▸ usable)⟩⟩

theorem State.postPlacement_places (h : s.postPlacement l = some p) : s.nameable l ∧ PostLine.places l p := by
  obtain ⟨placed, usable⟩ := State.postPlacement_some.1 h
  by_cases named : PostLine.inTables l
  · obtain ⟨q, placed', at_⟩ := PostLine.placement_of named
    obtain rfl : p = q := Option.some.inj (placed.symm.trans placed')
    exact ⟨⟨⟨p.art, at_.1.symm, (s.artUsable_iff p.art).1 usable⟩, named.2⟩, at_⟩
  · rw [PostLine.placement_none named] at placed
    cases placed

theorem State.postPlacements_none {ls : List PostLine} (h : ∃ l ∈ ls, s.postPlacement l = none) : s.postPlacements ls = none := by
  induction ls with
  | nil => simp at h
  | cons l ls ih =>
    obtain ⟨m, on, none_⟩ := h
    rcases List.mem_cons.1 on with rfl | rest
    · simp [State.postPlacements, none_]
    · simp [State.postPlacements, ih ⟨m, rest, none_⟩]

theorem State.postPlacements_of {ls : List PostLine} (h : ∀ l ∈ ls, ∃ p, s.postPlacement l = some p) :
    ∃ placed, s.postPlacements ls = some placed ∧ placed.map Prod.fst = ls ∧ ∀ x ∈ placed, s.postPlacement x.1 = some x.2 := by
  induction ls with
  | nil => exact ⟨[], rfl, rfl, by simp⟩
  | cons l ls ih =>
    obtain ⟨p, first⟩ := h l List.mem_cons_self
    obtain ⟨placed, rest, same, all⟩ := ih fun m on => h m (List.mem_cons_of_mem _ on)
    refine ⟨(l, p) :: placed, by simp [State.postPlacements, first, rest], by simp [same], fun x on => ?_⟩
    rcases List.mem_cons.1 on with rfl | on
    · exact first
    · exact all x on

end Placements

/-! ### ORDER_POST -/

section Post

variable {s : State} {number : Word} {priority : Nat} {lines : List PostLine}

theorem orderPost_slotless (number : Word) (priority : Nat) (lines : List PostLine) :
    Slotless (State.orderPost number priority lines) :=
  fun s l x mode => State.orderPost_slotted s l x mode number priority lines

/-- R35 check 1. -/
def wrongPost (priority : Nat) (lines : List PostLine) : Prop :=
  lines = [] ∨ 8 < lines.length ∨ 3 < priority ∨
    ∃ l ∈ lines, l.blank = ⟨0, 0, 0⟩ ∨ l.quantity = 0 ∨ 999 < l.quantity ∨ l.width = 0 ∨ l.height = 0

theorem wrongPost_iff : wrongPost priority lines ↔
    (lines.length = 0 ∨ 8 < lines.length ∨ 3 < priority ∨ lines.any PostLine.malformed = true) := by
  simp [wrongPost, PostLine.malformed, BlankCode.isNull_iff, or_assoc]

theorem State.orderPost_wrong (wrong : wrongPost priority lines) : State.orderPost number priority lines s = s.refuse .malformed :=
  if_pos (wrongPost_iff.1 wrong)

theorem State.orderPost_known (right : ¬wrongPost priority lines) (known : s.book.find number ≠ none) :
    State.orderPost number priority lines s = s.refuse .duplicate := by
  unfold State.orderPost
  rw [if_neg fun h => right (wrongPost_iff.2 h), if_pos (Option.isSome_iff_ne_none.2 known)]

theorem State.orderPost_unnamed (right : ¬wrongPost priority lines) (new : s.book.find number = none)
    (unnamed : s.postPlacements lines = none) : State.orderPost number priority lines s = s.refuse .unknown := by
  unfold State.orderPost
  rw [if_neg fun h => right (wrongPost_iff.2 h), if_neg (by simp [new]), unnamed]

/-- R35's last check, and R36's effect. -/
theorem State.orderPost_placed (right : ¬wrongPost priority lines) (new : s.book.find number = none)
    {placed : List (PostLine × Placement)} (named : s.postPlacements lines = some placed) :
    State.orderPost number priority lines s =
      if 128 ≤ s.book.orders.length ∨ s.book.freeLines.length < placed.length then s.refuse .full
      else ((s.postOrder number priority placed).1.rematch .other).accept
        (.word (s.postOrder number priority placed).2.sequence ::
          listed ((s.postOrder number priority placed).2.lines.map fun i => [.u16 i.val])) := by
  unfold State.orderPost
  rw [if_neg fun h => right (wrongPost_iff.2 h), if_neg (by simp [new]), named]

end Post
end Sys2Proof.Machine

section
open Sys2Proof.Machine

/-- Settles O17: the placements settle check 3, and the post fills the lowest free records. -/
theorem orderPostFillsBook : Obligations.OrderPostFillsBook := by
  refine ⟨fun b number => ?_, fun b number k => rfl, fun v number priority lines s r => ?_⟩
  · rw [List.head?_filter]
    rfl
  intro i wrong usable nameable free
  refine ⟨fun bad => ?_, fun good known => ?_, fun good new ⟨l, on, unnamed⟩ => ?_, fun good new named => ?_⟩
  · exact refused_of (orderPost_slotless number priority lines) r rfl (State.orderPost_wrong bad)
  · exact refused_of (orderPost_slotless number priority lines) r rfl (State.orderPost_known good known)
  · refine refused_of (orderPost_slotless number priority lines) r rfl ?_
    have none_ : s.postPlacement l = none := by
      by_contra some_
      obtain ⟨p, placed⟩ := Option.ne_none_iff_exists'.1 some_
      exact unnamed (State.postPlacement_places placed).1
    exact State.orderPost_unnamed good new (State.postPlacements_none ⟨l, on, none_⟩)
  · obtain ⟨placed, all, same, each⟩ := State.postPlacements_of fun l on => State.postPlacement_of (named l on)
    have count : placed.length = lines.length := by rw [← same, List.length_map]
    have post := State.orderPost_placed good new all
    rw [count] at post
    refine ⟨fun full => ?_, fun room enough => ?_⟩
    · exact refused_of (orderPost_slotless number priority lines) r rfl (post.trans (if_pos full))
    · intro taken
      have enough' : lines.length ≤ s.book.freeLines.length := enough
      rw [if_neg (by omega)] at post
      have once : (s.book.freeLines.take placed.length).Nodup := s.book.freeLines_nodup.sublist (List.take_sublist _ _)
      obtain ⟨after, filled, others, records⟩ := Book.fill_eq number (s.book.freeLines.take placed.length) placed s.book once
      have records_taken : s.book.freeLines.take placed.length = taken := by
        rw [count]
        rfl
      rw [records_taken] at filled others records
      have left : s.postOrder number priority placed =
          ((s.setBook { s.book with
              lines := after
              orders := s.book.orders ++ [⟨number, priority, s.book.sequence, .opened, taken⟩]
              sequence := s.book.sequence + 1 }).raiseAll [.orderState number (some .opened) s.book.sequence],
            ⟨number, priority, s.book.sequence, .opened, taken⟩) := by
        unfold State.postOrder
        dsimp only
        rw [records_taken, filled]
        rfl
      rw [left] at post
      refine ⟨_, done_of (orderPost_slotless number priority lines) r rfl post, s.setBook_raiseAll_keeps _ _,
        (s.setBook _).raiseAll_notified _, ?_⟩
      rw [State.raiseAll_book]
      refine ⟨rfl, rfl, rfl, rfl, others, fun n k l at_ on => ?_⟩
      rw [← same, List.getElem?_map] at on
      obtain ⟨⟨m, p⟩, here, rfl⟩ := Option.map_eq_some_iff.1 on
      exact ⟨_, records n k _ at_ here, rfl, rfl, rfl, rfl, rfl, rfl, rfl,
        (State.postPlacement_places (each _ (List.mem_of_getElem? here))).2⟩

end
end

