-- ==== Sys2Proof/Proofs/Matching.lean ====
section
/-! PROOF. Candidates and their choice (R52), and the rematch signal (R43, R51, R54, R55). -/

namespace Sys2Proof.Machine

/-! ### Candidates -/

section Candidates

variable {s : State} {blank : BlankCode}

theorem State.isCandidate_iff {o : Order} {i : Fin 512} : s.isCandidate blank o i = true ↔ o.status = .opened ∧
    ∃ l, s.book.lines[i] = some l ∧ l.order = o.number ∧ l.status = .opened ∧ l.blank = blank ∧
      (s.art l.placement.art).map Art.status = some .ready := by
  unfold State.isCandidate
  split
  next none_ => simp [none_]
  next l here =>
    simp only [here, Bool.and_eq_true, beq_iff_eq, Option.some.injEq, exists_eq_left']
    exact ⟨fun ⟨⟨⟨⟨line, order⟩, of_⟩, blank⟩, ready⟩ => ⟨order, of_, line, blank, ready⟩,
      fun ⟨order, of_, line, blank, ready⟩ => ⟨⟨⟨⟨line, order⟩, of_⟩, blank⟩, ready⟩⟩

/-- R52: the candidates are the lines that pass, each at its place in its order. -/
theorem State.mem_candidates {x : Candidate} : x ∈ s.candidates blank ↔ x.order ∈ s.book.orders ∧
    x.order.lines[x.position]? = some x.line ∧ s.isCandidate blank x.order x.line = true := by
  simp only [State.candidates, List.mem_flatMap, List.mem_filterMap, Prod.exists, List.mem_zipIdx_iff_getElem?]
  constructor
  · rintro ⟨o, on, k, n, at_, chosen⟩
    split at chosen
    next fit =>
      obtain rfl := Option.some.inj chosen
      exact ⟨on, at_, fit⟩
    · cases chosen
  · rintro ⟨on, at_, fit⟩
    exact ⟨x.order, on, x.line, x.position, at_, if_pos fit⟩

/-! ### The choice -/

/-- R52: `x` comes no later than `y`. -/
def Candidate.leads (x y : Candidate) : Prop :=
  y.order.priority ≤ x.order.priority ∧
  (y.order.priority = x.order.priority → x.order.sequence ≤ y.order.sequence ∧
    (y.order.sequence = x.order.sequence → x.order.number ≤ y.order.number ∧
      (y.order.number = x.order.number → x.position ≤ y.position)))

theorem Candidate.leads_iff {x y : Candidate} : x.leads y ↔ y.order.priority ≤ x.order.priority ∧
    (y.order.priority = x.order.priority → x.order.sequence.toNat ≤ y.order.sequence.toNat ∧
      (y.order.sequence.toNat = x.order.sequence.toNat → x.order.number.toNat ≤ y.order.number.toNat ∧
        (y.order.number.toNat = x.order.number.toNat → x.position ≤ y.position))) := by
  simp only [Candidate.leads, BitVec.le_def, BitVec.toNat_inj]

theorem Candidate.leads_refl (x : Candidate) : x.leads x :=
  Candidate.leads_iff.2 ⟨le_rfl, fun _ => ⟨le_rfl, fun _ => ⟨le_rfl, fun _ => le_rfl⟩⟩⟩

theorem Candidate.leads_trans {x y z : Candidate} (h : x.leads y) (k : y.leads z) : x.leads z := by
  rw [Candidate.leads_iff] at *
  omega

theorem Candidate.before_iff {x y : Candidate} : x.before y = true ↔ y.order.priority < x.order.priority ∨
    y.order.priority = x.order.priority ∧ (x.order.sequence.toNat < y.order.sequence.toNat ∨
      y.order.sequence.toNat = x.order.sequence.toNat ∧ (x.order.number.toNat < y.order.number.toNat ∨
        y.order.number.toNat = x.order.number.toNat ∧ x.position < y.position)) := by
  simp only [Candidate.before, ne_eq, ← BitVec.toNat_inj, BitVec.lt_def]
  split
  · simp only [decide_eq_true_eq]
    omega
  · split
    · simp only [decide_eq_true_eq]
      omega
    · split <;> simp only [decide_eq_true_eq] <;> omega

theorem Candidate.leads_of_before {x y : Candidate} (h : x.before y = true) : x.leads y := by
  rw [Candidate.before_iff] at h
  rw [Candidate.leads_iff]
  omega

theorem Candidate.leads_of_not_before {x y : Candidate} (h : ¬y.before x = true) : x.leads y := by
  rw [Candidate.before_iff] at h
  rw [Candidate.leads_iff]
  omega

theorem chooseCandidate_eq_none {cs : List Candidate} : chooseCandidate cs = none ↔ cs = [] := by
  cases cs with
  | nil => simp [chooseCandidate]
  | cons c cs =>
    simp only [chooseCandidate]
    split
    · simp
    · split <;> simp

/-- R52: the chosen candidate is one of the list and comes before every other. -/
theorem chooseCandidate_best {cs : List Candidate} {x : Candidate} (h : chooseCandidate cs = some x) :
    x ∈ cs ∧ ∀ y ∈ cs, x.leads y := by
  induction cs generalizing x with
  | nil => cases h
  | cons c cs ih =>
    simp only [chooseCandidate] at h
    split at h
    next none_ =>
      obtain rfl := Option.some.inj h
      simp [chooseCandidate_eq_none.1 none_, Candidate.leads_refl]
    next d best =>
      obtain ⟨on, first⟩ := ih best
      split at h
      next before =>
        obtain rfl := Option.some.inj h
        refine ⟨List.mem_cons_of_mem _ on, List.forall_mem_cons.2 ⟨Candidate.leads_of_before before, first⟩⟩
      next not_ =>
        obtain rfl := Option.some.inj h
        have leads : c.leads d := Candidate.leads_of_not_before not_
        refine ⟨List.mem_cons_self, List.forall_mem_cons.2 ⟨c.leads_refl, fun y on => Candidate.leads_trans leads (first y on)⟩⟩

end Candidates

/-! ### The rematch signal -/

section Signal

variable {s : State} {p : Fin 16} {g : Garment} {c : Fin 16}

theorem State.putGarment_putGarment (s : State) (p : Fin 16) (x y : Option Garment) :
    (s.putGarment p x).putGarment p y = s.putGarment p y := by
  have garments : upd (upd s.units.garments p x) p y = upd s.units.garments p y := by
    refine Vector.ext fun i h => ?_
    by_cases same : p.val = i <;> simp [upd, same]
  exact congrArg (fun z => s.setUnits { s.units with garments := z }) garments

theorem State.matchAttempt_none (here : s.garment p = some g) (known : g.cls = some c) (no : s.candidates g.blank = []) :
    s.matchAttempt p = s.holdNoLine p g := by
  simp only [State.matchAttempt, here, known, no, chooseCandidate]

theorem State.matchAttempt_of {x : Candidate} {w : State} (here : s.garment p = some g) (known : g.cls = some c)
    (chosen : chooseCandidate (s.candidates g.blank) = some x) (bound : s.reserveAndBind p g c x = some w) :
    s.matchAttempt p = w := by
  simp only [State.matchAttempt, here, known, chosen, bound]

/-- R55: a catalogue write has a LOADED garment at S0 looked up again. -/
theorem State.rematch_write (at_ : s.garmentAt 0 = some (p, g)) (loaded : g.stage = .loaded) :
    s.rematch .catalogueWrite = s.lookup p := by
  simp only [State.rematch, at_, loaded, ne_eq, not_true_eq_false, if_false]

/-- R55: any other signal reaches a LOADED garment at S0 that has no line. -/
theorem State.rematch_other (at_ : s.garmentAt 0 = some (p, g)) (loaded : g.stage = .loaded) :
    s.rematch .other = if g.hold = some .noLine then s.matchAttempt p else s := by
  simp only [State.rematch, at_, loaded, ne_eq, not_true_eq_false, if_false]

theorem State.lookup_none (here : s.garment p = some g) (unknown : s.book.classOf g.blank = none) : s.lookup p =
    if g.hold = some .unknownBlank then s.putGarment p (some { g with cls := none, hold := some .unknownBlank })
    else (s.putGarment p (some { g with cls := none, hold := some .unknownBlank })).raise
      (.garmentHeld p g.serial g.blank none .unknownBlank) := by
  simp only [State.lookup, here, unknown]

theorem State.lookup_some (here : s.garment p = some g) (known : s.book.classOf g.blank = some c) :
    s.lookup p = (s.putGarment p (some { g with cls := some c })).matchAttempt p := by
  simp only [State.lookup, here, known]

end Signal
end Sys2Proof.Machine

section
open Sys2Proof.Machine

/-- Settles O25: the candidates by their conditions, the choice by R52's order, the signal by cause and lookup. -/
theorem matchingAndRematch : Obligations.MatchingAndRematch := by
  refine ⟨fun s blank => ⟨fun x => ?_, chooseCandidate_eq_none, fun x => chooseCandidate_best⟩, fun s n p g => State.garmentAt_iff,
    fun s cause => ⟨fun nobody => ?_, fun p g at_ => ⟨fun away => ?_, fun loaded => ?_⟩⟩⟩
  · rw [State.mem_candidates, State.isCandidate_iff]
  · simp only [State.rematch, nobody]
  · simp only [State.rematch, at_, if_pos away]
  obtain ⟨-, -, here⟩ := State.garmentAt_iff.1 at_
  have other := State.rematch_other at_ loaded
  have write := State.rematch_write at_ loaded
  refine ⟨fun held => ?_, fun c held known => ⟨fun no => ?_, fun x w chosen bound => ?_⟩, fun unknown => ?_, fun c known => ?_⟩
  · rw [other, held]
    rfl
  · rw [other]
    simp only [held, if_true, State.matchAttempt_none here known no, State.holdNoLine]
  · rw [other]
    simp only [held, if_true, State.matchAttempt_of here known chosen bound]
  · have looked := write.trans (State.lookup_none here unknown)
    exact ⟨fun held => looked.trans (if_pos held), fun held => looked.trans (if_neg held)⟩
  · have looked := write.trans (State.lookup_some here known)
    have put := s.putGarment_garment_self p (some { g with cls := some c })
    refine ⟨fun no => ?_, fun x w chosen bound => looked.trans (State.matchAttempt_of put rfl chosen bound)⟩
    have held := looked.trans (State.matchAttempt_none put rfl no)
    refine ⟨fun noLine => held.trans (if_pos noLine), fun free => held.trans ((if_neg free).trans ?_)⟩
    rw [State.putGarment_putGarment]

end
end

