-- ==== Sys2Proof/Proofs/Tables.lean ====
section
/-! PROOF. Palettes and overlays (R44, R78, R79). -/

namespace Sys2Proof.Machine

/-! ### A run put into a table -/

section Runs

variable {α : Type} {n first : Nat} {v : Vector α n} {run : List α}

theorem putRun_get (v : Vector α n) (first : Nat) (run : List α) (i : Fin n) :
    (putRun v first run)[i] = if first ≤ i.val then run.getD (i.val - first) v[i] else v[i] := by
  simp [putRun]

/-- Outside the run the table is as it was. -/
theorem putRun_outside {i : Fin n} (out : i.val < first ∨ first + run.length ≤ i.val) : (putRun v first run)[i] = v[i] := by
  rw [putRun_get]
  split
  next from_ => exact List.getD_eq_default _ _ (by omega)
  · rfl

theorem putRun_inside {i : Fin n} {x : α} (from_ : first ≤ i.val) (on : run[i.val - first]? = some x) :
    (putRun v first run)[i] = x := by
  rw [putRun_get, if_pos from_, List.getD_eq_getElem?_getD, on]
  rfl

/-- A run read inside a table is as long as asked. -/
theorem run_length {count : Nat} (fits : first + count ≤ n) : ((v.toList.drop first).take count).length = count := by
  simp
  omega

end Runs

/-! ### The checks of R78 and R79 in order -/

section Checks

variable {first count : Nat} {r : ResultCode → Prop} {k : Prop}

/-- R78 checks 1 to 3. -/
theorem paletteRun_checks {palette : Nat} (refused : ∀ c, paletteRun palette first count = .error c → r c)
    (passed : first + count ≤ 256 → (∀ p : Fin 8, palette = p.val → paletteRun palette first count = .ok p) → k) :
    (8 ≤ palette ∨ 255 < first → r .range) ∧
    (palette < 8 → first ≤ 255 →
      (count = 0 ∨ 96 < count → r .malformed) ∧ (1 ≤ count → count ≤ 96 → (256 < first + count → r .range) ∧
        (first + count ≤ 256 → k))) := by
  refine ⟨fun out => refused _ ?_, fun low from_ => ⟨fun size => refused _ ?_, fun one most => ⟨fun past => refused _ ?_,
    fun fits => passed fits ?_⟩⟩⟩
  · by_cases low : palette < 8
    · rw [paletteRun, inRange_of_lt low]
      exact if_pos (by omega)
    · rw [paletteRun, inRange_out (Nat.le_of_not_lt low)]
  · rw [paletteRun, inRange_of_lt low]
    dsimp only
    rw [if_neg (by omega), if_pos size]
  · rw [paletteRun, inRange_of_lt low]
    dsimp only
    rw [if_neg (by omega), if_neg (by omega), if_pos past]
  · rintro p rfl
    rw [paletteRun, inRange_val]
    dsimp only
    rw [if_neg (by omega), if_neg (by omega), if_neg (by omega)]

/-- R79 checks 1 to 3. -/
theorem overlayRun_checks {overlay : Nat} {malformed : Bool} {short : Prop} (iff_ : malformed = true ↔ 24 < count ∨ short)
    (refused : ∀ c, overlayRun overlay first count malformed = .error c → r c)
    (passed : first + count ≤ 64 → (∀ o : Fin 16, overlay = o.val → overlayRun overlay first count malformed = .ok o) → k) :
    (16 ≤ overlay ∨ 63 < first → r .range) ∧
    (overlay < 16 → first ≤ 63 →
      (24 < count ∨ short → r .malformed) ∧
      (count ≤ 24 → ¬short → (64 < first + count → r .range) ∧ (first + count ≤ 64 → k))) := by
  refine ⟨fun out => refused _ ?_, fun low from_ => ⟨fun size => refused _ ?_, fun most enough => ?_⟩⟩
  · by_cases low : overlay < 16
    · rw [overlayRun, inRange_of_lt low]
      exact if_pos (by omega)
    · rw [overlayRun, inRange_out (Nat.le_of_not_lt low)]
  · rw [overlayRun, inRange_of_lt low]
    dsimp only
    rw [if_neg (by omega), if_pos (iff_.2 size)]
  · have right : ¬malformed = true := fun wrong => (iff_.1 wrong).elim (by omega) enough
    refine ⟨fun past => refused _ ?_, fun fits => passed fits ?_⟩
    · rw [overlayRun, inRange_of_lt low]
      dsimp only
      rw [if_neg (by omega), if_neg right, if_pos past]
    · rintro o rfl
      rw [overlayRun, inRange_val]
      dsimp only
      rw [if_neg (by omega), if_neg right, if_neg (by omega)]

end Checks

/-! ### Tables in use -/

/-- R44, R78: an indexed descriptor that a line pins uses its palette. -/
theorem State.paletteInUse_iff (s : State) (p : Fin 8) : s.paletteInUse p = true ↔
    ∃ (h : Fin 64) (d : Art) (k : Fin 512) (l : Line), s.art h = some d ∧ d.format ≠ .cmyka ∧ d.palette = p ∧
      s.book.lines[k] = some l ∧ l.placement.art = h ∧ (l.status = .opened ∨ l.status = .full ∨ l.status = .withdrawn) := by
  simp only [State.paletteInUse, List.any_eq_true, List.mem_finRange, true_and]
  constructor
  · rintro ⟨h, uses⟩
    split at uses
    · cases uses
    next d here =>
      obtain ⟨⟨format, palette⟩, pinned⟩ : (d.format ≠ .cmyka ∧ d.palette = p) ∧ 0 < s.book.pins h := by simpa using uses
      obtain ⟨k, l, line⟩ := (s.book.pins_pos h).1 pinned
      exact ⟨h, d, k, l, here, format, palette, line⟩
  · rintro ⟨h, d, k, l, here, format, palette, line⟩
    have pinned := (s.book.pins_pos h).2 ⟨k, l, line⟩
    exact ⟨h, by simp [here, format, palette, pinned]⟩

theorem Book.overlayInUse_iff (b : Book) (o : Fin 16) : b.overlayInUse o = true ↔
    ∃ (k : Fin 512) (l : Line) (a : OverlayAt), b.lines[k] = some l ∧ l.placement.overlay = some a ∧ a.index = o ∧
      (l.status = .opened ∨ l.status = .full ∨ l.status = .withdrawn) := by
  rw [Book.overlayInUse, Vector.toList_eq_finRange]
  simp only [List.any_map, List.any_eq_true, List.mem_finRange, true_and, Function.comp_apply]
  constructor
  · rintro ⟨k, uses⟩
    split at uses
    · cases uses
    next l here =>
      obtain ⟨pins, a, named, index⟩ : l.status.pins = true ∧ ∃ a, l.placement.overlay = some a ∧ a.index = o := by
        simpa using uses
      exact ⟨k, l, a, here, named, index, l.status.pins_iff.1 pins⟩
  · rintro ⟨k, l, a, here, named, index, pins⟩
    exact ⟨k, by simp [here, named, index, l.status.pins_iff.2 pins]⟩

/-! ### The four handlers -/

section Handlers

variable {s : State} {first count : Nat} {c : ResultCode}

theorem paletteSet_slotless (palette first : Nat) (entries : List Ink) : Slotless (State.paletteSet palette first entries) :=
  fun s l x mode => State.paletteSet_slotted s l x mode palette first entries

theorem paletteGet_slotless (palette first count : Nat) : Slotless (State.paletteGet palette first count) :=
  fun s l x mode => State.paletteGet_slotted s l x mode palette first count

theorem overlaySet_slotless (overlay : Nat) (colours : Option (Cmyk × Cmyk)) (first : Nat) (rows : List (Vector OverlayCode 64)) :
    Slotless (State.overlaySet overlay colours first rows) :=
  fun s l x mode => State.overlaySet_slotted s l x mode overlay colours first rows

theorem overlayGet_slotless (overlay first count : Nat) : Slotless (State.overlayGet overlay first count) :=
  fun s l x mode => State.overlayGet_slotted s l x mode overlay first count

theorem overlayRowBytes_eq (row : Vector OverlayCode 64) : overlayRowBytes row =
    (List.finRange 16).map fun j => BitVec.ofNat 8 (64 * OverlayCode.bits row[4 * j.val] +
      16 * OverlayCode.bits row[4 * j.val + 1] + 4 * OverlayCode.bits row[4 * j.val + 2] +
      OverlayCode.bits row[4 * j.val + 3]) := by
  have code (n : Nat) (h : n < 64) : row.toList.getD n .transparent = row[n] := by
    rw [List.getD_eq_getElem _ _ (by simpa using h), Vector.getElem_toList]
  rw [overlayRowBytes, ← List.map_coe_finRange_eq_range, List.map_map]
  refine List.map_congr_left fun j _ => ?_
  have low := j.isLt
  dsimp only [Function.comp_apply]
  rw [code _ (by omega), code _ (by omega), code _ (by omega), code _ (by omega)]
  rfl

end Handlers
end Sys2Proof.Machine

section
open Sys2Proof.Machine

/-- Settles O37: the shared checks, then the run put into its table or read out of it. -/
theorem palettesAndOverlays : Obligations.PalettesAndOverlays := by
  refine ⟨fun v palette first count s => ⟨fun entries size r => ?_, fun r => ?_⟩,
    fun v overlay first count s => ⟨fun colours rows size r => ?_, fun r => ?_⟩⟩
  · subst size
    refine paletteRun_checks (fun c wrong => ?_) fun fits run p at_ => ⟨fun used => ?_, fun free => ?_⟩
    · exact refused_of (paletteSet_slotless palette first entries) r rfl (by simp only [State.paletteSet, wrong])
    · refine refused_of (paletteSet_slotless palette first entries) r rfl ?_
      simp only [State.paletteSet, run p at_, (s.paletteInUse_iff p).2 used, if_true]
    · refine ⟨putRun s.store.palettes[p] first entries, fun n => ⟨putRun_outside, fun e => putRun_inside⟩, ?_⟩
      refine done_of (paletteSet_slotless palette first entries) r rfl ?_
      simp only [State.paletteSet, run p at_, mt (s.paletteInUse_iff p).1 free]
      rfl
  · refine paletteRun_checks (fun c wrong => ?_) fun fits run p at_ => ?_
    · exact refused_of (paletteGet_slotless palette first count) r rfl (by simp only [State.paletteGet, wrong])
    · refine done_of (paletteGet_slotless palette first count) r rfl ?_
      simp only [State.paletteGet, run p at_, listed, List.length_map, run_length fits, List.flatMap_def]
      rfl
  · subst size
    refine overlayRun_checks (malformed := decide (24 < rows.length) || (rows.isEmpty && colours.isNone)) (by simp)
      (fun c wrong => ?_) fun fits run o at_ => ⟨fun used => ?_, fun free => ?_⟩
    · exact refused_of (overlaySet_slotless overlay colours first rows) r rfl (by simp only [State.overlaySet, wrong])
    · refine refused_of (overlaySet_slotless overlay colours first rows) r rfl ?_
      simp only [State.overlaySet, run o at_, (s.book.overlayInUse_iff o).2 used, if_true]
    · let old := s.store.overlays[o]
      let pair := colours.getD (old.a, old.b)
      refine ⟨⟨putRun old.codes first rows, pair.1, pair.2⟩, fun n => ⟨putRun_outside, fun e => putRun_inside⟩, ?_, ?_, ?_⟩
      · rintro rfl
        exact ⟨rfl, rfl⟩
      · rintro a b rfl
        exact ⟨rfl, rfl⟩
      · refine done_of (overlaySet_slotless overlay colours first rows) r rfl ?_
        simp only [State.overlaySet, run o at_, mt (s.book.overlayInUse_iff o).1 free]
        rfl
  · refine overlayRun_checks (malformed := decide (24 < count)) (by simp) (fun c wrong => ?_) fun fits run o at_ => ?_
    · exact refused_of (overlayGet_slotless overlay first count) r rfl (by simp only [State.overlayGet, wrong])
    · intro x code row
      have bytes : overlayRowBytes = row := funext overlayRowBytes_eq
      refine done_of (overlayGet_slotless overlay first count) r rfl ?_
      simp only [State.overlayGet, run o at_, listed, List.length_map, run_length fits, bytes, ← List.flatMap_def, ← List.map_eq_flatMap]
      rfl

end
end

