-- ==== Sys2Proof/Proofs/RecordsAge.lean ====
section
/-! PROOF. What may become of a garment record while it stands on its platen (R48, R142): it only ages. -/

namespace Sys2Proof.Machine

/-! ### Ageing -/

/-- What a standing record can become: REJECT stays, the cure credit does not fall and stays within 65535, serial and
blank stay. -/
structure Garment.Ages (g h : Garment) : Prop where
  reject : g.disposition = .reject → h.disposition = .reject
  credit : g.cure.credit ≤ 65535 → g.cure.credit ≤ h.cure.credit ∧ h.cure.credit ≤ 65535
  serial : h.serial = g.serial
  blank : h.blank = g.blank

theorem Garment.Ages.trans {f g h : Garment} (a : f.Ages g) (b : g.Ages h) : f.Ages h where
  reject r := b.reject (a.reject r)
  credit low :=
    have ⟨up, top⟩ := a.credit low
    have ⟨up', top'⟩ := b.credit top
    ⟨up.trans up', top'⟩
  serial := b.serial.trans a.serial
  blank := b.blank.trans a.blank

/-- A record that keeps disposition, credit, serial and blank. -/
theorem Garment.ages_of_same {g h : Garment} (d : h.disposition = g.disposition) (c : h.cure.credit = g.cure.credit)
    (serial : h.serial = g.serial) (blank : h.blank = g.blank) : g.Ages h :=
  ⟨fun r => d.trans r, fun low => ⟨c.ge, c ▸ low⟩, serial, blank⟩

/-- A record that keeps credit, serial and blank and becomes REJECT. -/
theorem Garment.ages_of_reject {g h : Garment} (d : h.disposition = .reject) (c : h.cure.credit = g.cure.credit)
    (serial : h.serial = g.serial) (blank : h.blank = g.blank) : g.Ages h :=
  ⟨fun _ => d, fun low => ⟨c.ge, c ▸ low⟩, serial, blank⟩

@[simp] theorem Garment.ages_refl (g : Garment) : g.Ages g := Garment.ages_of_same rfl rfl rfl rfl

/-- R142, R143: a sample never takes credit away. -/
theorem Garment.ages_judged (g : Garment) (now : Word) (dt rate : Nat) (hot : Bool) (r : CureResult) :
    g.Ages (g.judged (g.cure.sample now dt rate hot) r) := by
  have credit : (g.judged (g.cure.sample now dt rate hot) r).cure.credit =
      satAdd 65535 g.cure.credit ((rate * dt + g.cure.carry) / 100) := by cases r <;> rfl
  refine ⟨fun rejected => ?_, fun low => ?_, ?_, ?_⟩
  · cases r with
    | scorched => rfl
    | none => exact rejected
    | released => exact rejected
  · rw [credit, satAdd]
    omega
  · cases r <;> rfl
  · cases r <;> rfl

/-- Every record of `n` stood in its slot in `m` and has aged. -/
def Match.Ages (m n : Match) : Prop :=
  ∀ (p : Fin 16) (h : Garment), n.garments[p] = some h → ∃ g, m.garments[p] = some g ∧ g.Ages h

@[simp] theorem Match.ages_refl (m : Match) : m.Ages m := fun _ h here => ⟨h, here, h.ages_refl⟩

theorem Match.Ages.trans {l m n : Match} (a : l.Ages m) (b : m.Ages n) : l.Ages n := fun p h here =>
  have ⟨_, there, old⟩ := b p h here
  have ⟨f, first, older⟩ := a p _ there
  ⟨f, first, older.trans old⟩

section Records

variable {s : State} {p : Fin 16} {g h : Garment}

/-- A standing record replaced by one it can become. -/
theorem State.putGarment_ages (here : s.garment p = some g) (a : g.Ages h) : s.units.Ages (s.putGarment p (some h)).units := by
  intro q k there
  change (s.putGarment p (some h)).garment q = some k at there
  by_cases same : p = q
  · subst same
    obtain rfl := Option.some.inj ((s.putGarment_garment_self p _).symm.trans there)
    exact ⟨g, here, a⟩
  · exact ⟨k, (s.putGarment_garment_ne p q _ same).symm.trans there, k.ages_refl⟩

/-- A record rewritten with disposition, credit, serial and blank as they stood. -/
theorem State.putGarment_ages_same (here : s.garment p = some g) (d : h.disposition = g.disposition)
    (c : h.cure.credit = g.cure.credit) (serial : h.serial = g.serial) (blank : h.blank = g.blank) :
    s.units.Ages (s.putGarment p (some h)).units :=
  State.putGarment_ages here (Garment.ages_of_same d c serial blank)

/-- A record removed. -/
theorem State.removeGarment_ages (s : State) (p : Fin 16) : s.units.Ages (s.putGarment p none).units := by
  intro q k there
  change (s.putGarment p none).garment q = some k at there
  by_cases same : p = q
  · subst same
    rw [s.putGarment_garment_self] at there
    cases there
  · exact ⟨k, (s.putGarment_garment_ne p q _ same).symm.trans there, k.ages_refl⟩

theorem Match.ages_of_eq {m n : Match} (e : n = m) : m.Ages n := e ▸ m.ages_refl

end Records

/-! ### Operations that leave the records -/

section Same

variable (s : State)

@[simp] theorem State.withdrawJob_units (p : Fin 16) (g : Garment) : (s.withdrawJob p g).units = s.units := by
  unfold State.withdrawJob
  split <;> rfl

@[simp] theorem State.appendJob_units (p : Fin 16) (w : Word) (c : Option Nat) : (s.appendJob p w c).units = s.units := by
  rw [State.appendJob_eq]
  rfl

@[simp] theorem State.count_units (c : Counter) (i : Fin 512) : (s.count c i).1.units = s.units := by
  obtain e | ⟨l, -, e⟩ := s.count_frame c i <;> simp [e]

@[simp] theorem State.countBinding_units (c : Counter) (g : Garment) : (s.countBinding c g).1.units = s.units := by
  unfold State.countBinding
  split <;> simp

theorem State.reserve_units {i : Fin 512} {t : State} (granted : s.reserve i = some t) : t.units = s.units := by
  obtain ⟨_, _, -, -, -, -, rfl⟩ := State.reserve_eq granted
  simp

@[simp] theorem State.setLine_units (x : LineState) : (s.setLine x).units = s.units := by
  unfold State.setLine
  split <;> simp

@[simp] theorem State.stopLine_units : s.stopLine.units = s.units := by
  unfold State.stopLine
  split <;> simp

theorem State.moveTimeout_units (g : Segment) : (State.moveTimeout g s).units = s.units := by
  unfold State.moveTimeout
  repeat' split
  all_goals simp [State.jamSeg]

@[simp] theorem State.platenMoved_units (p : Fin 16) (g : Option Segment) : (s.platenMoved p g).units = s.units := by
  simp [State.platenMoved]

@[simp] theorem State.joinLane_units (n : Fin 6) (p : Fin 16) : (s.joinLane n p).units = s.units := by
  simp [State.joinLane]

@[simp] theorem State.endDeclare_units (p : Fin 16) : (s.endDeclare p).1.units = s.units := by
  simp only [State.endDeclare, State.accept_fst]
  split <;> simp

@[simp] theorem State.pressFaulted_units (c : PressCause) : (s.pressFaulted c).units = s.units := by
  unfold State.pressFaulted
  dsimp only
  split <;> simp

@[simp] theorem State.discardSwathUnit_units (p : Fin 16) (w : Word) : (s.discardSwathUnit p w).units = s.units := by
  unfold State.discardSwathUnit
  dsimp only
  repeat' split
  all_goals simp

end Same

/-! ### Lookup and match -/

section Matching

variable {s t : State} {p : Fin 16} {g : Garment} {c : Fin 16}

/-- A binding latches recipe and placement into the record that stands. -/
theorem State.bind_ages (here : s.garment p = some g) (x : Candidate) (l : Line) : s.units.Ages (s.bind p g c x l).units := by
  rw [State.bind_eq, State.raise_units, State.appendJob_units]
  exact State.putGarment_ages_same here rfl rfl rfl rfl

theorem State.reserveAndBind_ages (here : s.garment p = some g) {x : Candidate} (e : s.reserveAndBind p g c x = some t) :
    s.units.Ages t.units := by
  unfold State.reserveAndBind at e
  split at e
  next l u _ granted =>
    obtain rfl := Option.some.inj e
    have same := State.reserve_units s granted
    have stands : u.garment p = some g := (congrArg (fun m : Match => m.garments[p]) same).trans here
    exact same ▸ State.bind_ages stands x l
  · cases e

theorem State.holdNoLine_ages (here : s.garment p = some g) : s.units.Ages (s.holdNoLine p g).units := by
  unfold State.holdNoLine
  split
  · exact s.units.ages_refl
  · exact State.putGarment_ages_same here rfl rfl rfl rfl

theorem State.matchAttempt_ages (s : State) (p : Fin 16) : s.units.Ages (s.matchAttempt p).units := by
  unfold State.matchAttempt
  split
  · exact s.units.ages_refl
  next here =>
    repeat' split
    · exact s.units.ages_refl
    · exact State.holdNoLine_ages here
    · exact State.holdNoLine_ages here
    next bound => exact State.reserveAndBind_ages here bound

theorem State.lookup_ages (s : State) (p : Fin 16) : s.units.Ages (s.lookup p).units := by
  unfold State.lookup
  split
  · exact s.units.ages_refl
  next g here =>
    split
    next c _ =>
      have classed : s.units.Ages (s.putGarment p (some { g with cls := some c })).units :=
        State.putGarment_ages_same here rfl rfl rfl rfl
      exact classed.trans (State.matchAttempt_ages _ p)
    · dsimp only
      split
      · exact State.putGarment_ages_same here rfl rfl rfl rfl
      · exact State.putGarment_ages_same here rfl rfl rfl rfl

theorem State.rematch_ages (s : State) (cause : RematchCause) : s.units.Ages (s.rematch cause).units := by
  unfold State.rematch
  repeat' split
  · exact s.units.ages_refl
  · exact s.units.ages_refl
  · exact s.lookup_ages _
  · exact s.matchAttempt_ages _
  · exact s.units.ages_refl

theorem State.rematchIf_ages (s : State) (b : Bool) : s.units.Ages (s.rematchIf b).units := by
  unfold State.rematchIf
  split
  · exact s.rematch_ages _
  · exact s.units.ages_refl

/-- What ages up to a rematch ages through it. -/
theorem Match.Ages.rematch {m : Match} (a : m.Ages t.units) (cause : RematchCause) : m.Ages (t.rematch cause).units :=
  a.trans (t.rematch_ages cause)

theorem Match.Ages.rematchIf {m : Match} (a : m.Ages t.units) (b : Bool) : m.Ages (t.rematchIf b).units :=
  a.trans (t.rematchIf_ages b)

end Matching

/-! ### Garments removed, assigned and counted -/

section Requests

variable (s : State)

theorem State.garmentAssign_ages (platen : Nat) (o : Word) (k : Nat) :
    s.units.Ages (State.garmentAssign platen o k s).1.units := by
  unfold State.garmentAssign
  split
  · exact s.units.ages_refl
  next p g c ok =>
    have here : s.garment p = some g := by
      unfold State.assignable at ok
      repeat' split at ok
      all_goals cases ok
      assumption
    repeat' split
    any_goals exact s.units.ages_refl
    next bound => exact State.reserveAndBind_ages here bound

theorem State.loadClear_ages (platen : Nat) : s.units.Ages (State.loadClear platen s).1.units := by
  unfold State.loadClear
  split
  · exact s.units.ages_refl
  next p _ =>
    repeat' split
    · exact s.units.ages_refl
    · exact s.units.ages_refl
    next g _ _ t reopened counted =>
      have same : (t.withdrawJob p g).units = s.units := by
        simpa [counted] using s.countBinding_units .release g
      have gone : s.units.Ages (((t.withdrawJob p g).putGarment p none).raise (g.doneNotice p .cleared)).units :=
        same ▸ State.removeGarment_ages (t.withdrawJob p g) p
      exact gone.rematchIf reopened

theorem State.endUnload_ages (p : Fin 16) (g : Garment) (x : GarmentOutcome) : s.units.Ages (s.endUnload p g x).units :=
  State.removeGarment_ages (s.raise _) p

theorem State.unloadGood_ages (platen : Nat) : s.units.Ages (State.unloadGood platen s).1.units := by
  unfold State.unloadGood
  split
  · exact s.units.ages_refl
  next p g _ =>
    split
    · exact s.units.ages_refl
    · exact s.countBinding_units .done g ▸ State.endUnload_ages _ p g .good

theorem State.unloadSpoil_ages (platen : Nat) : s.units.Ages (State.unloadSpoil platen s).1.units := by
  unfold State.unloadSpoil
  split
  · exact s.units.ages_refl
  next p g _ =>
    exact (s.countBinding_units .spoil g ▸ State.endUnload_ages (s.countBinding .spoil g).1 p g .spoiled).rematchIf _

theorem State.shelveGarment_ages (p : Fin 16) (g : Garment) (c : Fin 16) (b : Binding) (i : Fin 8) :
    s.units.Ages (s.shelveGarment p g c b i).units := by
  unfold State.shelveGarment
  dsimp only
  split
  · exact State.withdrawJob_units (s.putShelf i _) p g ▸ State.removeGarment_ages _ p
  · exact s.removeGarment_ages p

theorem State.shelve_ages (platen : Nat) : s.units.Ages (State.shelve platen s).1.units := by
  unfold State.shelve
  split
  · exact s.units.ages_refl
  next p _ =>
    repeat' split
    any_goals exact s.units.ages_refl
    exact s.shelveGarment_ages p _ _ _ _

theorem State.takeOff_ages (i : Fin 8) (x : ShelfSlot) (c : Counter) (e : ShelfEvent) : s.units.Ages (s.takeOff i x c e).units :=
  Match.Ages.rematchIf (Match.ages_of_eq (by exact s.count_units c x.context.ident.line)) _

theorem State.shelfDrop_ages (slot : Nat) : s.units.Ages (State.shelfDrop slot s).1.units := by
  unfold State.shelfDrop
  repeat' split
  any_goals exact s.units.ages_refl
  exact s.takeOff_ages _ _ _ _

theorem State.shelfExport_ages (slot form : Nat) : s.units.Ages (State.shelfExport slot form s).1.units := by
  unfold State.shelfExport
  repeat' split
  any_goals exact s.units.ages_refl
  exact s.takeOff_ages _ _ _ _

/-- An import moves the serial counter and no record. -/
theorem State.shelfImport_ages (r : List Byte) : s.units.Ages (State.shelfImport r s).1.units := by
  unfold State.shelfImport
  repeat' split
  any_goals exact s.units.ages_refl
  next granted => exact State.reserve_units s granted ▸ fun _ h here => ⟨h, here, h.ages_refl⟩

/-! ### The Order Book -/

theorem State.markOrphans_ages (n : Word) : s.units.Ages (s.markOrphans n).units := by
  intro p h there
  change (s.markOrphans n).garment p = some h at there
  rw [State.markOrphans_garment] at there
  obtain ⟨g, here, rfl⟩ := Option.map_eq_some_iff.1 there
  exact ⟨g, here, Garment.ages_of_same rfl rfl rfl rfl⟩

theorem State.orderCancel_ages (o : Word) : s.units.Ages (State.orderCancel o s).1.units := by
  have cancelled (x : Order) : s.units.Ages (s.cancelOrder x).units := by
    rw [State.cancelOrder, State.raiseAll_units]
    exact State.markOrphans_ages (s.setBook _) x.number
  unfold State.orderCancel
  repeat' split
  any_goals exact s.units.ages_refl
  all_goals exact cancelled _

theorem State.orderPost_ages (n : Word) (k : Nat) (ls : List PostLine) : s.units.Ages (State.orderPost n k ls s).1.units := by
  unfold State.orderPost
  repeat' split
  any_goals exact s.units.ages_refl
  next placed _ _ t _ posted =>
    have same : t.units = s.units := (congrArg (fun x => x.1.units) posted).symm.trans (by simp [State.postOrder])
    exact (Match.ages_of_eq same).rematch _

theorem State.lineAmend_ages (o : Word) (k n : Nat) : s.units.Ages (State.lineAmend o k n s).1.units := by
  unfold State.lineAmend
  repeat' split
  any_goals exact s.units.ages_refl
  exact (Match.ages_of_eq (s.changeLine_units _ _)).rematchIf _

theorem State.orderRelease_ages (o : Word) : s.units.Ages (State.orderRelease o s).1.units := by
  unfold State.orderRelease
  repeat' split
  any_goals exact s.units.ages_refl
  exact Match.Ages.rematch (Match.ages_of_eq rfl) _

theorem State.catalogueSet_ages (b : BlankCode) (c : Nat) : s.units.Ages (State.catalogueSet b c s).1.units := by
  unfold State.catalogueSet
  dsimp only
  repeat' split
  any_goals exact s.units.ages_refl
  all_goals exact Match.Ages.rematch (Match.ages_of_eq rfl) _

theorem State.catalogueRemove_ages (b : BlankCode) : s.units.Ages (State.catalogueRemove b s).1.units := by
  unfold State.catalogueRemove
  repeat' split
  any_goals exact s.units.ages_refl
  exact Match.Ages.rematch (Match.ages_of_eq rfl) _

theorem State.passEnd_ages : s.units.Ages s.passEnd.units := by
  unfold State.passEnd
  repeat' split
  any_goals exact s.units.ages_refl
  exact Match.Ages.rematchIf (Match.ages_of_eq rfl) _

end Requests

/-! ### The stations' work -/

section Stations

variable (s : State)

theorem State.setPressRecord_ages (r : PressRecord) : s.units.Ages (s.setPressRecord r).units := by
  unfold State.setPressRecord
  split
  · exact s.units.ages_refl
  next e => exact State.putGarment_ages_same (State.garment_of_garmentAt e) rfl rfl rfl rfl

theorem State.pressStart_ages : s.units.Ages s.pressStart.units := by
  unfold State.pressStart
  split
  · exact s.units.ages_refl
  next e =>
    split
    · exact State.putGarment_ages_same (State.garment_of_pressed e) rfl rfl rfl rfl
    · exact s.units.ages_refl

theorem State.pressOpened_ages : s.units.Ages s.pressOpened.units := by
  unfold State.pressOpened
  dsimp only
  split
  · exact State.setPressRecord_ages (s.setInputs _) .done
  · exact State.setPressRecord_ages (s.setInputs _) .done
  · exact s.units.ages_refl

theorem State.openTimeout_ages : s.units.Ages s.openTimeout.units := by
  unfold State.openTimeout
  split
  · rw [State.pressFaulted_units]
    exact s.setPressRecord_ages _
  · exact s.units.ages_refl

theorem State.interruptPress_ages : s.units.Ages s.interruptPress.units := by
  unfold State.interruptPress
  split
  · exact s.setPressRecord_ages _
  · exact s.setPressRecord_ages _
  · exact s.units.ages_refl

theorem State.sprayStart_ages : s.units.Ages s.sprayStart.units := by
  unfold State.sprayStart
  split
  · exact s.units.ages_refl
  next e =>
    have here := State.garment_of_sprayed e
    repeat' split
    · exact s.units.ages_refl
    · exact State.putGarment_ages_same here rfl rfl rfl rfl
    · exact State.putGarment_ages_same here rfl rfl rfl rfl

theorem State.bandStrobe_ages : s.units.Ages s.bandStrobe.units := by
  unfold State.bandStrobe
  split
  next e =>
    split
    · exact s.units.ages_refl
    · exact State.putGarment_ages_same (State.garment_of_sprayed e) rfl rfl rfl rfl
  · exact s.units.ages_refl

theorem State.finishSpray_ages : s.units.Ages s.finishSpray.units := by
  unfold State.finishSpray
  split
  next e => exact State.putGarment_ages_same (State.garment_of_sprayed e) rfl rfl rfl rfl
  · exact s.units.ages_refl

/-- R111: an interrupted garment is REJECT. -/
theorem State.interruptSpray_ages : s.units.Ages s.interruptSpray.units := by
  unfold State.interruptSpray
  split
  next e => exact State.putGarment_ages (State.garment_of_sprayed e) (Garment.ages_of_reject rfl rfl rfl rfl)
  · exact s.units.ages_refl

theorem State.pulseReload_ages (z : Fin 8) : s.units.Ages (State.pulseReload z s).units := by
  unfold State.pulseReload
  split
  next e =>
    dsimp only
    split
    · exact State.putGarment_ages_same (State.garment_of_sprayed e) rfl rfl rfl rfl
    · exact s.units.ages_refl
  · exact s.units.ages_refl

/-! ### Raster units and the print session -/

theorem State.swathUnitBegin_ages : s.units.Ages s.swathUnitBegin.units := by
  unfold State.swathUnitBegin
  split
  next e => exact State.putGarment_ages_same (State.garment_of_swathPossible e) rfl rfl rfl rfl
  · exact s.units.ages_refl

theorem State.swathUnitEnd_ages : s.units.Ages s.swathUnitEnd.units := by
  have handed (u : RasterUnit) (f : SwathPhase) (i : Nat) (k : Fin 4) : s.units.Ages (s.handSwath u f i k).units := by
    unfold State.handSwath
    dsimp only
    repeat' split
    · exact s.units.ages_refl
    · exact s.units.ages_refl
    next e _ _ _ => exact State.putGarment_ages_same (State.garment_of_unitGarment e) rfl rfl rfl rfl
  unfold State.swathUnitEnd
  repeat' split
  any_goals exact s.units.ages_refl
  exact handed _ _ _ _

theorem State.bandUnitBegin_ages : s.units.Ages s.bandUnitBegin.units := by
  unfold State.bandUnitBegin
  split
  · split
    · exact s.units.ages_refl
    next here =>
      repeat' split
      any_goals exact s.units.ages_refl
      exact State.putGarment_ages_same here rfl rfl rfl rfl
  · exact s.units.ages_refl

theorem State.bandUnitEnd_ages : s.units.Ages s.bandUnitEnd.units := by
  have handed (u : RasterUnit) (k : Nat) : s.units.Ages (s.handBand u k).units := by
    unfold State.handBand
    split
    · exact s.units.ages_refl
    next e =>
      have here := State.garment_of_unitGarment e
      split
      · exact s.units.ages_refl
      · dsimp only
        split
        · exact State.putGarment_ages_same here rfl rfl rfl rfl
        · exact State.putGarment_ages_same here rfl rfl rfl rfl
  unfold State.bandUnitEnd
  repeat' split
  any_goals exact s.units.ages_refl
  exact handed _ _

theorem State.sessionOpen_ages : s.units.Ages s.sessionOpen.units := by
  unfold State.sessionOpen
  split
  next e =>
    split
    · exact s.units.ages_refl
    · exact State.putGarment_ages_same (State.garment_of_sessionReady e) rfl rfl rfl rfl
  · exact s.units.ages_refl

theorem State.swathRelease_ages (q : Nat) : s.units.Ages (State.swathRelease q s).1.units := by
  unfold State.swathRelease
  split
  · exact s.units.ages_refl
  next e =>
    exact State.putGarment_ages_same (s := s.setRing _) (State.garment_of_sessionGarment (State.pullable_session e))
      rfl rfl rfl rfl

theorem State.printEndOk_ages : s.units.Ages s.printEndOk.1.units := by
  unfold State.printEndOk
  split
  · exact s.units.ages_refl
  next e =>
    split
    · exact s.units.ages_refl
    · exact State.putGarment_ages_same (State.garment_of_sessionGarment e) rfl rfl rfl rfl

/-- R132: an aborted garment is REJECT. -/
theorem State.printEndAbort_ages : s.units.Ages s.printEndAbort.1.units := by
  unfold State.printEndAbort
  split
  · exact s.units.ages_refl
  next x g e =>
    have here : (s.discardSwathUnit x.platen x.serial).garment x.platen = some g :=
      (s.discardSwathUnit_garment _ _ _).trans (State.garment_of_sessionGarment e)
    exact s.discardSwathUnit_units x.platen x.serial ▸ State.putGarment_ages here (Garment.ages_of_reject rfl rfl rfl rfl)

/-! ### Curing -/

theorem State.cureEntry_ages (p : Fin 16) : s.units.Ages (s.cureEntry p).units := by
  unfold State.cureEntry
  split
  · exact s.units.ages_refl
  next here =>
    repeat' split
    · exact s.units.ages_refl
    · exact State.putGarment_ages_same here rfl rfl rfl rfl
    · exact s.units.ages_refl

theorem State.cureSample_ages (platen : Nat) (z : Int) : s.units.Ages (State.cureSample platen z s).1.units := by
  unfold State.cureSample
  repeat' split
  any_goals exact s.units.ages_refl
  next here _ _ _ _ =>
    simp only [State.sampleGarment, State.accept_fst, State.raiseAll_units]
    split
    · exact State.putGarment_ages here (Garment.ages_judged _ _ _ _ _ _)
    · exact State.putGarment_ages here (Garment.ages_judged _ _ _ _ _ _)

theorem State.staleExpiry_ages : s.units.Ages s.staleExpiry.units := by
  unfold State.staleExpiry
  split
  · dsimp only
    split
    · exact s.units.ages_refl
    next here =>
      split
      · exact State.putGarment_ages_same (s := s.setCure _) here rfl rfl rfl rfl
      · exact s.units.ages_refl
  · exact s.units.ages_refl

/-! ### The track -/

theorem State.arrival_ages (n : Fin 6) (p : Fin 16) : s.units.Ages (s.arrival n p).units := by
  unfold State.arrival
  split
  · exact s.cureEntry_ages p
  · unfold State.arriveUnload
    split
    · exact s.units.ages_refl
    next here =>
      split
      · exact State.putGarment_ages_same here rfl rfl rfl rfl
      · exact s.units.ages_refl
  · exact s.units.ages_refl

theorem State.placeAt_ages (n : Fin 6) (p : Fin 16) : s.units.Ages (s.placeAt n p).units :=
  State.arrival_ages ((s.putStation n _).putPlace p _) n p

theorem State.vacate_ages (n : Fin 6) (p : Fin 16) : s.units.Ages (s.vacate n p).units := by
  unfold State.vacate State.departure
  split
  · unfold State.leavePress
    split
    · exact s.units.ages_refl
    next here =>
      split
      · exact State.putGarment_ages_same (s := s.putStation _ _) here rfl rfl rfl rfl
      · exact s.units.ages_refl
  · exact s.units.ages_refl

theorem State.joinLane_vacate_ages (n : Fin 6) (p : Fin 16) : s.units.Ages ((s.joinLane n p).vacate n p).units :=
  State.vacate_ages (s.joinLane n p) n p

theorem State.arrive_ages (g : Segment) : s.units.Ages (State.arrive g s).units := by
  unfold State.arrive
  split
  · exact s.units.ages_refl
  · unfold State.endMove
    split
    · simpa using s.joinLane_vacate_ages _ _
    · simpa using s.placeAt_ages _ _
  · simp

theorem State.platenDeclare_ages (platen : Nat) (x : PlaceArg) : s.units.Ages (State.platenDeclare platen x s).1.units := by
  unfold State.platenDeclare
  repeat' split
  case h_1.isFalse p _ _ _ n _ _ => simpa using s.placeAt_ages n p
  all_goals simp

theorem State.jamConfirm_ages (platen : Nat) (x : PlaceArg) : s.units.Ages (State.jamConfirm platen x s).1.units := by
  have confirmed (g : Segment) (p : Fin 16) (c : Confirmed) : s.units.Ages (s.confirm g p c).units := by
    unfold State.confirm
    split
    · exact s.units.ages_refl
    · exact s.joinLane_vacate_ages _ p
    · exact s.units.ages_refl
    · exact s.placeAt_ages _ p
  unfold State.jamConfirm
  repeat' split
  any_goals exact s.units.ages_refl
  simpa using confirmed _ _ _

theorem State.serviceOut_ages (platen : Nat) : s.units.Ages (State.serviceOut platen s).1.units := by
  unfold State.serviceOut
  repeat' split
  any_goals exact s.units.ages_refl
  simpa using s.vacate_ages _ _

/-- R58: S0's owner does nothing with a record. -/
theorem State.serviceIn_ages (platen : Nat) : s.units.Ages (State.serviceIn platen s).1.units := by
  unfold State.serviceIn
  repeat' split
  all_goals exact s.units.ages_refl

theorem State.emergencyStop_ages : s.units.Ages s.emergencyStop.units := by
  unfold State.emergencyStop
  split
  · exact s.units.ages_refl
  · exact s.stopTrack_units ▸ s.stopTrack.interruptSpray_ages.trans (State.interruptPress_ages _)

/-- R66: a line reset leaves no record. -/
theorem State.takeLineReset_ages (l : Link) : s.units.Ages (State.takeLineReset l s).1.units := fun p h there => by
  change s.clearLine.garment p = some h at there
  rw [State.clearLine_eq, State.raiseAll_garment, State.cleared_garment] at there
  cases there

end Stations

/-! ### The two requests that make a record (R50, R156) -/

section Fresh

variable {s : State} {p q : Fin 16} {g h : Garment}

/-- What an aged slot holds now has come of what it held. -/
theorem Match.Ages.standing {m n : Match} (a : m.Ages n) (here : m.garments[p] = some g) :
    ∀ h, n.garments[p] = some h → g.Ages h := fun h there => by
  obtain ⟨f, first, old⟩ := a p h there
  obtain rfl : g = f := Option.some.inj (here.symm.trans first)
  exact old

theorem State.ne_of_empty (empty : s.garment q = none) (here : s.garment p = some g) : q ≠ p := by
  rintro rfl
  simp [here] at empty

theorem State.garmentLoad_ages (platen : Nat) (blank : BlankCode) (here : s.garment p = some g)
    (there : (State.garmentLoad platen blank s).1.garment p = some h) : g.Ages h := by
  have stands : (State.garmentLoad platen blank s).1 = s ∨ ∃ q x, s.garment q = none ∧
      (State.garmentLoad platen blank s).1 = (s.takeSerial.putGarment q (some x)).lookup q := by
    unfold State.garmentLoad
    repeat' split
    any_goals exact .inl rfl
    next empty => exact .inr ⟨_, _, by simpa using empty, rfl⟩
  obtain same | ⟨q, x, empty, made⟩ := stands
  · exact s.units.ages_refl.standing here h (same ▸ there)
  · rw [made] at there
    refine (State.lookup_ages _ q).standing ?_ h there
    exact (State.putGarment_garment_ne s.takeSerial q p _ (State.ne_of_empty empty here)).trans here

theorem State.unshelve_ages (slot platen mask : Nat) (here : s.garment p = some g)
    (there : (State.unshelve slot platen mask s).1.garment p = some h) : g.Ages h := by
  have stands : (State.unshelve slot platen mask s).1 = s ∨ ∃ q x, s.garment q = none ∧
      (State.unshelve slot platen mask s).1.units = (s.putGarment q (some x)).units := by
    unfold State.unshelve
    dsimp only
    repeat' split
    any_goals exact .inl rfl
    next busy _ =>
      exact .inr ⟨_, _, Option.not_isSome_iff_eq_none.1 fun some_ => busy (.inl some_), State.appendJob_units _ _ _ _⟩
  obtain same | ⟨q, x, empty, made⟩ := stands
  · exact s.units.ages_refl.standing here h (same ▸ there)
  · change (State.unshelve slot platen mask s).1.units.garments[p] = some h at there
    rw [made] at there
    refine s.units.ages_refl.standing here h (.trans ?_ there)
    exact (State.putGarment_garment_ne s q p _ (State.ne_of_empty empty here)).symm

end Fresh

/-! ### Every command -/

section Commands

variable {s t : State}

theorem State.handle_units (u : State) (l : Link) (f : State → Taken) : (u.handle l f).units = (f u).1.units := by
  unfold State.handle
  split
  next e => rw [e]
  next e => rw [e, State.answer_units]

/-- A request leaves the Match Unit, or its handler has changed it as the request found it. -/
theorem request_units {v : Via} {kind : Nat} {i : Instr} {f : State → Taken} (e : request v kind i f s = .next t) :
    t.units = s.units ∨ ∃ u : State, u.units = s.units ∧ t.units = (f u).1.units := by
  unfold request at e
  split at e
  · cases e
    exact .inl rfl
  · cases e
    rw [State.settle_units]
    unfold State.takeRequest
    dsimp only
    repeat' split
    any_goals exact .inl rfl
    · exact .inr ⟨_, by simp, State.handle_units _ _ _⟩
    · exact .inr ⟨_, by simp, State.handle_units _ _ _⟩

theorem request_ages {v : Via} {kind : Nat} {i : Instr} {f : State → Taken} (e : request v kind i f s = .next t)
    (handler : ∀ s : State, s.units.Ages (f s).1.units) : s.units.Ages t.units := by
  obtain same | ⟨u, same, after⟩ := request_units e
  · exact Match.ages_of_eq same
  · exact after ▸ same ▸ handler u

/-- A request whose handler lets a standing record age. -/
theorem request_standing {v : Via} {kind : Nat} {i : Instr} {f : State → Taken} (e : request v kind i f s = .next t)
    {p : Fin 16} {g h : Garment} (here : s.garment p = some g) (there : t.garment p = some h)
    (handler : ∀ u : State, u.garment p = some g → (f u).1.garment p = some h → g.Ages h) : g.Ages h := by
  unfold State.garment at here there
  obtain same | ⟨u, same, after⟩ := request_units e
  · exact (Match.ages_of_eq same).standing here h there
  · exact handler u (by rw [State.garment, same, here]) (by rw [State.garment, ← after, there])

theorem event_ages {f : State → State} (e : event f s = .next t) (effect : ∀ s : State, s.units.Ages (f s).units) :
    s.units.Ages t.units :=
  event_keeps (fun u => s.units.Ages u.units) (fun _ _ a => a) (fun _ _ a => a) (fun u a => a.trans (effect u)) e
    s.units.ages_refl

theorem signal_ages {drive : Inputs → Inputs} {f : State → State} (e : signal drive f s = .next t)
    (effect : ∀ s : State, s.units.Ages (f s).units) : s.units.Ages t.units :=
  signal_keeps (fun u => s.units.Ages u.units) (fun _ _ a => a) (fun _ _ a => a) (fun _ _ a => a)
    (fun u a => a.trans (effect u)) e s.units.ages_refl

theorem arbiterGrant_ages (e : execArbiterGrant s = .next t) : s.units.Ages t.units := by
  unfold execArbiterGrant at e
  repeat' split at e
  · cases e
    exact s.units.ages_refl
  · cases e
  · exact event_ages e fun s => s.units.ages_refl
  · exact event_ages e fun s => s.units.ages_refl

/-- GARMENT_LOAD and UNSHELVE, which make a record. -/
def Instr.makesRecord : Instr → Bool
  | .garmentLoad _ _ _ => true
  | .unshelve _ _ _ _ => true
  | _ => false

theorem exec_ages (i : Instr) (e : exec i s = .next t) (old : Instr.makesRecord i = false) : s.units.Ages t.units := by
  cases i
  case garmentLoad => cases old
  case unshelve => cases old
  case powerOnReset => 
    cases e
    exact fun p h there => by cases (State.reset_garment p).symm.trans there
  case resetAsserted => cases e; exact s.units.ages_refl
  case orderPost v o p l => exact request_ages e fun s => s.orderPost_ages o p l
  case lineAmend v o p q => exact request_ages e fun s => s.lineAmend_ages o p q
  case orderRelease v o => exact request_ages e fun s => s.orderRelease_ages o
  case orderCancel v o => exact request_ages e fun s => s.orderCancel_ages o
  case catalogueSet v b c => exact request_ages e fun s => s.catalogueSet_ages b c
  case catalogueRemove v b => exact request_ages e fun s => s.catalogueRemove_ages b
  case shelfExport v k f => exact request_ages e fun s => s.shelfExport_ages k f
  case shelfImport v r => exact request_ages e fun s => s.shelfImport_ages r
  case shelfDrop v k => exact request_ages e fun s => s.shelfDrop_ages k
  case shelve v p => exact request_ages e fun s => s.shelve_ages p
  case garmentAssign v p o q => exact request_ages e fun s => s.garmentAssign_ages p o q
  case loadClear v p => exact request_ages e fun s => s.loadClear_ages p
  case unloadGood v p => exact request_ages e fun s => s.unloadGood_ages p
  case unloadSpoil v p => exact request_ages e fun s => s.unloadSpoil_ages p
  case lineReset v => exact request_ages e fun s => s.takeLineReset_ages v.link
  case platenDeclare v p x => exact request_ages e fun s => s.platenDeclare_ages p x
  case jamConfirm v p x => exact request_ages e fun s => s.jamConfirm_ages p x
  case serviceOut v p => exact request_ages e fun s => s.serviceOut_ages p
  case serviceIn v p => exact request_ages e fun s => s.serviceIn_ages p
  case swathRelease v q => exact request_ages e fun s => s.swathRelease_ages q
  case printEndOk v => exact request_ages e fun s => s.printEndOk_ages
  case printEndAbort v => exact request_ages e fun s => s.printEndAbort_ages
  case cureSample v p z => exact request_ages e fun s => s.cureSample_ages p z
  case verifyPassEnd => exact event_ages e State.passEnd_ages
  case arrive g => exact event_ages e fun s => s.arrive_ages g
  case pressStart => exact event_ages e State.pressStart_ages
  case openTimeout => exact event_ages e State.openTimeout_ages
  case sprayStart => exact event_ages e State.sprayStart_ages
  case band => exact event_ages e State.bandStrobe_ages
  case sprayEnd => exact event_ages e State.finishSpray_ages
  case zonePulseReload z => exact event_ages e fun s => s.pulseReload_ages z
  case swathUnitBegin => exact event_ages e State.swathUnitBegin_ages
  case swathUnitEnd => exact event_ages e State.swathUnitEnd_ages
  case bandUnitBegin => exact event_ages e State.bandUnitBegin_ages
  case bandUnitEnd => exact event_ages e State.bandUnitEnd_ages
  case printSessionOpen => exact event_ages e State.sessionOpen_ages
  case staleTimerExpiry => exact event_ages e State.staleExpiry_ages
  case emergencyStopAsserted => exact signal_ages (drive := fun i => { i with estop := i.estop.drive true }) e State.emergencyStop_ages
  case pressOpen => exact signal_ages (drive := fun i => { i with pressOpen := i.pressOpen.drive true }) e State.pressOpened_ages
  case emergencyStopReleased =>
    refine signal_ages (drive := fun i => { i with estop := i.estop.drive false }) e fun s => Match.ages_of_eq ?_
    unfold State.emergencyRelease
    split <;> rfl
  case pressClosed =>
    refine signal_ages (drive := fun i => { i with pressClosed := i.pressClosed.drive true }) e fun s => Match.ages_of_eq ?_
    unfold State.pressClosed
    dsimp only
    split <;> rfl
  case arbiterGrant => exact arbiterGrant_ages e
  case frameReceived | frameAbandoned | frameSent | linkReset | breakEnd | startSymbol =>
    exact event_ages (f := fun u => u.onLink _ _) e fun s => s.units.ages_refl
  case blinkTimerExpiry o =>
    exact event_ages (f := fun u => u.setIndicators (upd u.indicators o u.indicators[o].expire)) e fun s => s.units.ages_refl
  case read => exact request_ages e fun s => Match.ages_of_eq (by rw [State.readRecord_fst])
  case catalogueGet | rateTableGet | powerFlagClear | noticeMaskSet | orderHold | orderRetire | classSet | classGet | artOpen
      | artWrite | artSeal | artFree | paletteSet | paletteGet | overlaySet | overlayGet | rateTableSet | shelfPermitSet
      | indicatorSet | lineResume | stationHold | stationRelease | swathPull =>
    refine request_ages e fun s => Match.ages_of_eq ?_
    simp only [State.orderHold, State.orderRetire, State.catalogueGet, State.classSet, State.classGet, State.artOpen, State.artWrite,
      State.artSeal, State.artFree, State.leaveQueue, State.paletteSet, State.paletteGet, State.overlaySet, State.overlayGet,
      State.rateTableSet, State.rateTableGet, State.shelfPermitSet, State.clearPowerFlag, State.assignIndicator,
      State.setNoticeMask, State.lineResume, State.setLine, State.stationHold, State.stationRelease, State.pressReleased,
      State.swathPull]
    repeat' split
    all_goals rfl
  case moveTimeout => exact event_ages e fun s => Match.ages_of_eq (s.moveTimeout_units _)
  case artWriteComplete | lineResetComplete | verifyPassStart | burstComplete | swathPullComplete | moveStart
      | zoneValveClose | zoneChannelExhausted | dwellExpiry | closeTimeout =>
    refine event_ages e fun s => Match.ages_of_eq ?_
    simp only [State.artWriteComplete, State.completeLineReset, State.passStart, State.burstComplete, State.deliver,
      State.deliverPull, State.deliverEngine, State.deliverVerify, State.deliverWrite, State.pullComplete, State.moveStart,
      State.carry, State.valveClose, State.channelExhausted,
      State.dwellExpiry, State.closeTimeout, State.pressFaulted]
    repeat' split
    all_goals rfl

/-- A record that stands before and after a command has aged; one that the command makes is in another slot. -/
theorem exec_standing (i : Instr) (e : exec i s = .next t) {p : Fin 16} {g h : Garment} (here : s.garment p = some g)
    (there : t.garment p = some h) : g.Ages h := by
  by_cases old : Instr.makesRecord i = false
  · exact (exec_ages i e old).standing here h there
  · cases i
    case garmentLoad v n b => exact request_standing e here there fun u => State.garmentLoad_ages n b
    case unshelve v k n m => exact request_standing e here there fun u => State.unshelve_ages k n m
    all_goals exact absurd rfl old

/-- None of the commands that a tick's input changes stand for makes a record. -/
theorem Inputs.changes_old (x : Inputs) : ∀ i ∈ x.changes, Instr.makesRecord i = false := by
  have due {b : Bool} {c i : Instr} (on : i ∈ whenDue b c) : i = c := by
    unfold whenDue at on
    split at on
    · exact List.mem_singleton.1 on
    · cases on
  intro i on
  simp only [Inputs.changes, List.mem_append, List.mem_flatMap] at on
  obtain ((((stop | ⟨g, -, arrive⟩) | band) | done) | closed) | open_ := on
  · rw [due stop]
    split <;> rfl
  · rw [due arrive]
    rfl
  · rw [due band]
    rfl
  · rw [due done]
    rfl
  · rw [due closed]
    rfl
  · rw [due open_]
    rfl

theorem runAll_ages : ∀ (l : List Instr) (s t : State), (∀ i ∈ l, Instr.makesRecord i = false) → runAll l s = .next t →
    s.units.Ages t.units
  | [], s, t, _, e => by
    cases e
    exact s.units.ages_refl
  | i :: rest, s, t, old, e => by
    obtain ⟨u, first, others⟩ := runAll_cons_inv i rest s t e
    obtain ⟨old, olds⟩ := List.forall_mem_cons.1 old
    exact (exec_ages i first old).trans (runAll_ages rest u t olds others)

theorem step_standing (e : step s = .next t) {p : Fin 16} {g h : Garment} (here : s.garment p = some g)
    (there : t.garment p = some h) : g.Ages h := by
  obtain ⟨c, rest, -, e⟩ | ⟨-, -, same⟩ | ⟨-, -, e⟩ := step_cases s t e
  · exact exec_standing c e here there
  · exact s.units.ages_refl.standing here h (same ▸ there)
  · exact (s.counted_units ▸ runAll_ages _ _ t s.inputs.changes_old e).standing here h there

end Commands
end Sys2Proof.Machine

section
open Sys2Proof.Machine

/-- Settles O58: every operation only ages the records that stand, and a step is a run of such operations; the two requests
that make a record make it where none stood. -/
theorem rejectStandsAndCreditGrows : Obligations.RejectStandsAndCreditGrows := by
  intro s t p g h e here there low
  have aged := step_standing e here there
  obtain ⟨up, top⟩ := aged.credit low
  exact ⟨aged.reject, up, top, aged.serial.symm, aged.blank.symm⟩

end
end

