-- ==== Sys2Proof/Proofs/GarmentLoads.lean ====
section
/-! PROOF. Serials (R49), GARMENT_LOAD (R48, R50, R51) and GARMENT_ASSIGN (R56). -/

namespace Sys2Proof.Machine

/-! ### The serial allocated (R49) -/

section Serials

/-- The allocation stops at a value that passes, or has passed over as many as it may. -/
theorem allocFrom_spec (held : List Word) (n : Nat) (c : Word) : ∃ k ≤ n, allocFrom held n c = c + BitVec.ofNat 32 k ∧
    (k < n → c + BitVec.ofNat 32 k ∉ 0 :: held) ∧ ∀ m < k, c + BitVec.ofNat 32 m ∈ 0 :: held := by
  induction n generalizing c with
  | zero => exact ⟨0, le_rfl, by simp [allocFrom], by simp, by simp⟩
  | succ n ih =>
    unfold allocFrom
    split
    next taken =>
      obtain ⟨k, low, value, free, before⟩ := ih (c + 1)
      have next (m : Nat) : c + 1 + BitVec.ofNat 32 m = c + BitVec.ofNat 32 (m + 1) := by
        rw [BitVec.add_assoc, BitVec.add_comm 1, BitVec.ofNat_add]
        rfl
      refine ⟨k + 1, by omega, value.trans (next k), fun h => next k ▸ free (by omega), fun m h => ?_⟩
      cases m with
      | zero => simpa using taken
      | succ m => exact next m ▸ before m (by omega)
    next free => exact ⟨0, by omega, by simp, fun _ => by simpa using free, by simp⟩

/-- Successive values, fewer than 2^32, are distinct. -/
theorem nodup_successive (c : Word) {n : Nat} (low : n ≤ 4294967296) :
    ((List.range n).map fun k => c + BitVec.ofNat 32 k).Nodup := by
  refine List.Nodup.map_on (fun a ha b hb same => ?_) List.nodup_range
  have same : BitVec.ofNat 32 a = BitVec.ofNat 32 b := (BitVec.add_right_inj c).1 same
  rw [List.mem_range] at ha hb
  simpa [← BitVec.toNat_inj, Nat.mod_eq_of_lt (lt_of_lt_of_le ha low), Nat.mod_eq_of_lt (lt_of_lt_of_le hb low)] using same

theorem State.serialTaken_iff (s : State) (w : Word) : s.serialTaken w ↔ w ∈ 0 :: s.heldSerials := by
  have held {α : Type} {n : Nat} (v : Vector (Option α) n) (f : α → Word) :
      w ∈ v.toList.filterMap (fun x => x.map f) ↔ ∃ (i : Fin n) (x : α), v[i] = some x ∧ f x = w := by
    rw [Vector.toList_eq_finRange]
    simp only [List.mem_filterMap, List.mem_map, List.mem_finRange, true_and, exists_exists_eq_and, Option.map_eq_some_iff]
  rw [List.mem_cons, State.heldSerials, List.mem_append, held, held]
  rfl

theorem State.heldSerials_length (s : State) : s.heldSerials.length ≤ 24 := by
  have garments := List.length_filterMap_le (fun g => g.map Garment.serial) s.units.garments.toList
  have slots := List.length_filterMap_le (fun x => x.map fun x : ShelfSlot => x.context.serial) s.shelf.slots.toList
  rw [Vector.length_toList] at garments slots
  rw [State.heldSerials, List.length_append]
  omega

/-- R49: 24 holders and 0 are passed over at most, so the allocation finds a value that passes. -/
theorem State.freshSerial_first (s : State) : s.firstSerial s.freshSerial := by
  obtain ⟨k, low, value, free, before⟩ := allocFrom_spec s.heldSerials 25 s.units.serial
  refine ⟨k, value, fun taken => ?_, fun m h => (s.serialTaken_iff _).2 (before m h)⟩
  rw [State.serialTaken_iff] at taken
  change allocFrom s.heldSerials 25 s.units.serial ∈ _ at taken
  rw [value] at taken
  have all : k = 25 := by
    by_contra other
    exact free (by omega) taken
  subst all
  have within : ((List.range 26).map fun k => s.units.serial + BitVec.ofNat 32 k) ⊆ 0 :: s.heldSerials := by
    intro w on
    obtain ⟨m, h, rfl⟩ := List.mem_map.1 on
    rw [List.mem_range] at h
    obtain h | rfl : m < 25 ∨ m = 25 := by omega
    · exact before m h
    · exact taken
  have crowd := (nodup_successive s.units.serial (n := 26) (by omega)).subperm within |>.length_le
  have room := s.heldSerials_length
  simp only [List.length_map, List.length_range, List.length_cons] at crowd
  omega

end Serials

/-! ### Reserving and binding -/

section Bound

variable {s w : State} {p : Fin 16} {g : Garment} {c : Fin 16} {x : Candidate} {l : Line} {o : Order}

/-- R41: what grants a reservation. -/
theorem State.reserve_granted {i : Fin 512} (here : s.book.lines[i] = some l) (found : s.book.find l.order = some o)
    (order : o.status = .opened) (line : l.status = .opened) :
    s.reserve i = some (s.changeLine i { l with reserved := l.reserved + 1 }) := by
  simp only [State.reserve, here, found, order, line, and_self, if_true]

theorem State.reserveAndBind_granted (here : s.book.lines[x.line] = some l) (found : s.book.find l.order = some o)
    (order : o.status = .opened) (line : l.status = .opened) : ∃ w, s.reserveAndBind p g c x = some w :=
  ⟨(s.changeLine x.line { l with reserved := l.reserved + 1 }).bind p g c x l,
    by simp only [State.reserveAndBind, here, State.reserve_granted here found order line]⟩

/-- The record that a binding leaves on the platen. -/
theorem State.reserveAndBind_garment (e : s.reserveAndBind p g c x = some w) :
    ∃ (t : State) (l : Line), w.garment p = some (t.latched g c x l) := by
  unfold State.reserveAndBind at e
  split at e
  next l t _ _ =>
    obtain rfl := Option.some.inj e
    exact ⟨t, l, t.bind_garment_self p g c x l⟩
  · cases e

theorem State.loadReply_of (here : s.garment p = some g) : s.loadReply p = [.word g.serial, .u8 g.stage.code] ++
    optional 7 (g.binding.map fun b => [.word b.order, .u8 (s.book.position b.order b.line), .u16 b.line.val]) ++
    optional 1 (g.hold.map fun h => [.u8 h.code]) := by
  simp only [State.loadReply, here]

end Bound

/-! ### GARMENT_LOAD -/

section Load

variable {s : State} {p : Fin 16} {blank : BlankCode} {c : Fin 16}

theorem garmentLoad_slotless (platen : Nat) (blank : BlankCode) : Slotless (State.garmentLoad platen blank) :=
  fun s l x mode => State.garmentLoad_slotted s l x mode platen blank

variable {g : Garment}

/-- R50: an accepted load replies from the record that its lookup leaves. -/
theorem State.garmentLoad_of {w : State} (fit : ¬blank.isNull = true) (line : s.track.line ≠ .census)
    (at_ : s.place p = .station 0) (empty : s.garment p = none)
    (looked : (s.takeSerial.putGarment p (some (Garment.fresh s.freshSerial blank))).lookup p = w) (here : w.garment p = some g) :
    State.garmentLoad p.val blank s = w.accept ([.word g.serial, .u8 g.stage.code] ++
      optional 7 (g.binding.map fun b => [.word b.order, .u8 (w.book.position b.order b.line), .u16 b.line.val]) ++
      optional 1 (g.hold.map fun h => [.u8 h.code])) := by
  rw [← State.loadReply_of here, ← looked]
  simp only [State.garmentLoad, inRange_val, fit, line, at_, empty, Option.isSome_none, ne_eq, not_true_eq_false,
    Bool.false_eq_true, if_false]

/-- R51: the lookup of a waiting record whose blank the catalogue does not name. -/
theorem State.putGarment_lookup_unknown (waits : g.hold = none) (unknown : s.book.classOf g.blank = none) :
    (s.putGarment p (some g)).lookup p = (s.putGarment p (some { g with cls := none, hold := some .unknownBlank })).raise
      (.garmentHeld p g.serial g.blank none .unknownBlank) := by
  have here := s.putGarment_garment_self p (some g)
  rw [State.lookup_none here unknown, State.putGarment_putGarment, waits]
  exact if_neg nofun

/-- R54: no line can take it. -/
theorem State.putGarment_lookup_noLine (waits : g.hold = none) (known : s.book.classOf g.blank = some c)
    (no : s.candidates g.blank = []) : (s.putGarment p (some g)).lookup p =
    (s.putGarment p (some { g with cls := some c, hold := some .noLine })).raise
      (.garmentHeld p g.serial g.blank (some c) .noLine) := by
  have here := s.putGarment_garment_self p (some g)
  have classed := s.putGarment_garment_self p (some { g with cls := some c })
  rw [State.lookup_some here known, State.putGarment_putGarment, State.matchAttempt_none classed rfl no, State.holdNoLine,
    State.putGarment_putGarment, waits]
  exact if_neg nofun

/-- R52: a candidate is chosen for it. -/
theorem State.putGarment_lookup_bound {x : Candidate} {w : State} (known : s.book.classOf g.blank = some c)
    (chosen : chooseCandidate (s.candidates g.blank) = some x)
    (bound : (s.putGarment p (some { g with cls := some c })).reserveAndBind p { g with cls := some c } c x = some w) :
    (s.putGarment p (some g)).lookup p = w := by
  have here := s.putGarment_garment_self p (some g)
  have classed := s.putGarment_garment_self p (some { g with cls := some c })
  rw [State.lookup_some here known, State.putGarment_putGarment]
  exact State.matchAttempt_of classed rfl chosen bound

end Load

/-! ### GARMENT_ASSIGN -/

section Assign

variable {s : State} {p : Fin 16} {g : Garment} {c : Fin 16}

theorem garmentAssign_slotless (platen : Nat) (number : Word) (position : Nat) :
    Slotless (State.garmentAssign platen number position) :=
  fun s l x mode => State.garmentAssign_slotted s l x mode platen number position

/-- R56: a garment that waits for a line. -/
theorem State.assignable_of (at_ : s.place p = .station 0) (here : s.garment p = some g) (loaded : g.stage = .loaded)
    (hold : g.hold ≠ some .unknownBlank) (known : g.cls = some c) : s.assignable p.val = .ok (p, g, c) := by
  simp [State.assignable, at_, here, loaded, hold, known]

theorem State.garmentAssign_refused {platen : Nat} {number : Word} {position : Nat} {code : ResultCode}
    (wrong : s.assignable platen = .error code) : State.garmentAssign platen number position s = s.refuse code := by
  simp only [State.garmentAssign, wrong]

end Assign
end Sys2Proof.Machine

section
open Sys2Proof.Machine

/-- Settles O22: after the checks the fresh record is looked up, and each of the lookup's three ends is one of the cases. -/
theorem garmentLoadLooksUp : Obligations.GarmentLoadLooksUp := by
  intro v platen blank s r i
  refine ⟨fun out => refused_of (garmentLoad_slotless platen blank) r rfl (by simp [State.garmentLoad, inRange_out out]), ?_⟩
  rintro p rfl
  have slotless := garmentLoad_slotless p.val blank
  refine ⟨fun null => ?_, fun fit => ?_⟩
  · exact refused_of slotless r rfl (by simp [State.garmentLoad, (BlankCode.isNull_iff blank).2 null])
  have fit := mt (BlankCode.isNull_iff blank).1 fit
  refine ⟨fun line => ?_, fun line => ⟨fun away => ?_, fun at_ busy => ?_, fun at_ empty => ?_⟩⟩
  · exact refused_of slotless r rfl (by simp [State.garmentLoad, fit, line])
  · exact refused_of slotless r rfl (by simp [State.garmentLoad, fit, line, away])
  · exact refused_of slotless r rfl (by simp [State.garmentLoad, fit, line, at_, Option.isSome_iff_ne_none.2 busy])
  let g := Garment.fresh s.freshSerial blank
  refine ⟨s.freshSerial, s.freshSerial_first, fun unknown => ?_, fun c known => ⟨fun no => ?_, fun x w chosen bound => ?_⟩⟩
  · have looked := State.putGarment_lookup_unknown (s := s.takeSerial) (p := p) (g := g) rfl unknown
    exact done_of slotless r rfl (State.garmentLoad_of fit line at_ empty looked (State.putGarment_garment_self _ p _))
  · have looked := State.putGarment_lookup_noLine (s := s.takeSerial) (p := p) (g := g) rfl known no
    exact done_of slotless r rfl (State.garmentLoad_of fit line at_ empty looked (State.putGarment_garment_self _ p _))
  · have looked := State.putGarment_lookup_bound (s := s.takeSerial) (p := p) (g := g) known chosen bound
    obtain ⟨t, l, here⟩ := State.reserveAndBind_garment bound
    exact done_of slotless r rfl (State.garmentLoad_of fit line at_ empty looked here)

/-- Settles O23: after R56's checks 1 to 3 the named line is tested as a candidate and bound. -/
theorem garmentAssignBindsNamedLine : Obligations.GarmentAssignBindsNamedLine := by
  intro v platen number position s r i
  have refused {platen : Nat} {code : ResultCode} (wrong : s.assignable platen = .error code) :
      Refused (.garmentAssign v platen number position) v 0x22 s code :=
    refused_of (garmentAssign_slotless platen number position) r rfl (State.garmentAssign_refused wrong)
  refine ⟨fun out => refused (by simp [State.assignable, inRange_out out]), ?_⟩
  rintro p rfl
  refine ⟨fun away => refused (by simp [State.assignable, away]),
    fun at_ => ⟨fun empty => refused (by simp [State.assignable, at_, empty]),
      fun g here => ⟨fun waits => ?_, fun c loaded hold known => ?_⟩⟩⟩
  · exact refused (by simp [State.assignable, at_, here, waits])
  have ok := State.assignable_of at_ here loaded hold known
  have slotless := garmentAssign_slotless p.val number position
  refine ⟨fun nowhere => ?_, fun o found => ⟨fun past => ?_, fun k l named line order => ?_⟩⟩
  · exact refused_of slotless r rfl (by simp [State.garmentAssign, ok, nowhere])
  · exact refused_of slotless r rfl (by simp [State.garmentAssign, ok, found, List.getElem?_eq_none past])
  intro fit
  have same : o.number = number := (Book.find_mem found).2
  have candidate : s.isCandidate g.blank o k = true ↔ fit := by
    rw [State.isCandidate_iff]
    constructor
    · rintro ⟨opened, m, here, -, open_, blank, ready⟩
      obtain rfl := Option.some.inj (line.symm.trans here)
      exact ⟨open_, opened, blank, ready⟩
    · rintro ⟨open_, opened, blank, ready⟩
      exact ⟨opened, l, line, order.trans same.symm, open_, blank, ready⟩
  refine ⟨fun unfit => ?_, fun fit => ?_⟩
  · have not_ : s.isCandidate g.blank o k = false := by simpa using mt candidate.1 unfit
    exact refused_of slotless r rfl (by simp [State.garmentAssign, ok, found, named, not_])
  · have passes := candidate.2 fit
    obtain ⟨open_, opened, -, -⟩ := fit
    obtain ⟨w, bound⟩ := State.reserveAndBind_granted (p := p) (g := g) (c := c) (x := ⟨o, position, k⟩) line (order ▸ found)
      opened open_
    exact ⟨w, bound, done_of slotless r rfl (by simp [State.garmentAssign, ok, found, named, passes, bound])⟩

end
end

