-- ==== Sys2Proof/Proofs/Shelving.lean ====
section
/-! PROOF. SHELF_PERMIT_SET (R154) and SHELVE (R150 to R153). -/

namespace Sys2Proof.Machine

/-! ### The lowest empty slot -/

section Slots

variable {s : State} {k : Fin 8}

theorem State.freeShelf_lowest (empty : s.shelfSlot k = none) (lowest : ∀ j : Fin 8, j < k → s.shelfSlot j ≠ none) :
    s.freeShelf = some k := by
  refine List.find?_eq_some_iff_getElem.2 ⟨by simp [empty], k.val, by simp, by simp, fun j below => ?_⟩
  simpa [Option.isSome_iff_ne_none] using lowest ⟨j, by omega⟩ below

theorem State.freeShelf_full (full : ∀ j : Fin 8, s.shelfSlot j ≠ none) : s.freeShelf = none :=
  List.find?_eq_none.2 fun j _ => by simpa using full j

end Slots

/-! ### Components in use (R151) -/

section InUse

theorem pretreatUse_eq_notInUse (result : PretreatResult) (press : PressRecord) : pretreatUse result press = .notInUse ↔
    ¬(result = .interrupted ∨ result = .done ∨ result = .short ∨
      (result = .waived ∧ (press = .done ∨ press = .waived))) := by
  cases result <;> cases press <;> simp [pretreatUse]

theorem printUse_eq_notInUse (phase : PrintPhase) :
    printUse phase = .notInUse ↔ ¬(phase = .underbase ∨ phase = .color ∨ phase = .complete) := by
  cases phase <;> simp [printUse]

theorem cureUse_eq_notInUse (result : CureResult) (credit carry scorch : Nat) : cureUse result credit carry scorch = .notInUse ↔
    ¬(result ≠ .none ∨ 0 < credit ∨ 0 < carry ∨ 0 < scorch) := by
  cases result with
  | none => simp only [cureUse, ne_eq, not_true_eq_false, false_or]; split <;> simp_all
  | released => simp [cureUse]
  | scorched => simp [cureUse]

/-- R150: the context of a garment, each component where R151 has it in use. -/
theorem Garment.context_eq (g : Garment) (c : Fin 16) (b : Binding) (now : Word) : g.context c b now =
    { length := 60
      serial := g.serial
      ident := ⟨g.blank, c, b.order, b.line, decide (g.disposition = .reject), g.orphan, g.restored, now⟩
      pretreat :=
        if g.pretreat.result = .interrupted ∨ g.pretreat.result = .done ∨ g.pretreat.result = .short ∨
            (g.pretreat.result = .waived ∧ (g.press = .done ∨ g.press = .waived))
        then some ⟨g.pretreat.coverage, g.pretreat.result, g.press, g.pretreat.planned, g.pretreat.issued,
          g.pretreat.shortfall⟩
        else none
      print :=
        if g.print.phase = .underbase ∨ g.print.phase = .color ∨ g.print.phase = .complete
        then some ⟨g.print.phase, g.print.count, g.print.produced, g.print.released, g.print.tallies.w,
          tallyUnits g.print.tallies.c, tallyUnits g.print.tallies.m, tallyUnits g.print.tallies.y,
          tallyUnits g.print.tallies.k⟩
        else none
      cure :=
        if g.cure.result ≠ .none ∨ 0 < g.cure.credit ∨ 0 < g.cure.carry ∨ 0 < g.cure.scorch
        then some ⟨g.cure.result, g.cure.carry, g.cure.credit, g.cure.required, g.cure.scorch⟩
        else none } := by
  unfold Garment.context
  simp only [pretreatUse_eq_notInUse, printUse_eq_notInUse, cureUse_eq_notInUse, ite_not]
  rfl

theorem Reported.components_eq (x : Components) : Reported.components x = .u8 x.mask := by
  simp only [Reported.components, Components.mask, ← toNat_mul_eq_ite, Nat.one_mul]

end InUse

/-! ### The two handlers -/

section Handlers

variable {s : State} {p : Fin 16} {g : Garment} {c : Fin 16} {b : Binding} {k : Fin 8}

theorem shelfPermitSet_slotless (mask : Nat) : Slotless (State.shelfPermitSet mask) :=
  fun s l x mode => State.shelfPermitSet_slotted s l x mode mask

theorem shelve_slotless (platen : Nat) : Slotless (State.shelve platen) :=
  fun s l x mode => State.shelve_slotted s l x mode platen

/-- Withdrawing a job and writing a shelf slot touch different parts. -/
theorem State.putShelf_withdrawJob (s : State) (k : Fin 8) (x : Option ShelfSlot) (p : Fin 16) (g : Garment) :
    (s.putShelf k x).withdrawJob p g = (s.withdrawJob p g).setShelf { s.shelf with slots := upd s.shelf.slots k x } := by
  unfold State.withdrawJob
  split <;> rfl

/-- R153: the slot filled, the job withdrawn at S0, the record removed and the two notices raised. -/
theorem State.shelveGarment_eq (s : State) (p : Fin 16) (g : Garment) (c : Fin 16) (b : Binding) (k : Fin 8)
    (bound : g.binding = some b) : s.shelveGarment p g c b k =
    (((({ (if s.place p = .station 0 then s.withdrawJob p g else s) with
          shelf := { s.shelf with slots := upd s.shelf.slots k (some ⟨g.context c b s.clock.time, b.recipe, b.placement⟩) } } :
            State).putGarment p none).raise ((g.context c b s.clock.time).notice k .saved none)).raise
      (.garmentDone p g.serial (some (b.order, b.line)) .shelved g.disposition g.orphan g.restored
        g.pretreat.result g.pretreat.shortfall g.press g.print.phase g.cure.result g.cure.credit)) := by
  have done : g.doneNotice p .shelved = .garmentDone p g.serial (some (b.order, b.line)) .shelved g.disposition g.orphan
      g.restored g.pretreat.result g.pretreat.shortfall g.press g.print.phase g.cure.result g.cure.credit := by
    rw [Garment.doneNotice, bound]
    rfl
  unfold State.shelveGarment
  dsimp only
  rw [done, State.putShelf_withdrawJob]
  split <;> rfl

/-- R152 check 4. -/
theorem Garment.shelvable_iff (g : Garment) (x : Place) : g.shelvable x = true ↔ x = .station 0 ∧ g.binding ≠ none ∨
    x = .station 5 ∧ (g.stage = .released ∨ g.disposition = .reject) := by
  unfold Garment.shelvable
  split <;> simp_all [Option.isSome_iff_ne_none]

/-- R152: a garment that fails check 4. -/
theorem State.shelve_unfit (at_ : s.place p = .station 0 ∨ s.place p = .station 5) (here : s.garment p = some g)
    (unfit : ¬g.shelvable (s.place p) = true) : State.shelve p.val s = s.refuse .state := by
  rcases at_ with e | e <;> rw [e] at unfit <;> simp [State.shelve, e, here, unfit]

/-- R152 check 5: no slot is empty. -/
theorem State.shelve_full (at_ : s.place p = .station 0 ∨ s.place p = .station 5) (here : s.garment p = some g)
    (fit : g.shelvable (s.place p) = true) (full : s.freeShelf = none) : State.shelve p.val s = s.refuse .full := by
  rcases at_ with e | e <;> rw [e] at fit <;> simp [State.shelve, e, here, fit, full]

/-- R153: an accepted SHELVE. -/
theorem State.shelve_of (at_ : s.place p = .station 0 ∨ s.place p = .station 5) (here : s.garment p = some g)
    (fit : g.shelvable (s.place p) = true) (free : s.freeShelf = some k) (bound : g.binding = some b) (known : g.cls = some c) :
    State.shelve p.val s = (s.shelveGarment p g c b k).accept
      [.word g.serial, .u8 k.val, Reported.components (g.context c b s.clock.time).present] := by
  rw [Reported.components_eq]
  rcases at_ with e | e <;> rw [e] at fit <;> simp [State.shelve, e, here, fit, free, bound, known]

end Handlers
end Sys2Proof.Machine

section
open Sys2Proof.Machine

/-- Settles O49: the mask's bits; then SHELVE's checks, and the context and the removal as R150 to R153 write them out. -/
theorem shelveMovesGarment : Obligations.ShelveMovesGarment := by
  refine ⟨fun v mask s r => ⟨fun high => ?_, fun low => ?_⟩, fun s p g => ⟨s.withdrawJob_of, s.withdrawJob_none⟩,
    fun v platen s r => ?_⟩
  · have none_ : Components.ofMask mask = none := if_neg (by omega)
    exact refused_of (shelfPermitSet_slotless mask) r rfl (by simp [State.shelfPermitSet, none_])
  · have bits : Components.ofMask mask = some ⟨mask.testBit 0, mask.testBit 1, mask.testBit 2, mask.testBit 3⟩ := if_pos low
    exact done_of (shelfPermitSet_slotless mask) r rfl (by simp only [State.shelfPermitSet, bits]; rfl)
  intro i
  refine ⟨fun out => refused_of (shelve_slotless platen) r rfl (by simp [State.shelve, inRange_out out]), ?_⟩
  rintro p rfl
  have slotless := shelve_slotless p.val
  refine ⟨fun not0 not5 => ?_, fun at_ empty => ?_, fun g here => ⟨fun at_ loose => ?_, fun at_ stage good => ?_,
    fun b c bound known at_ => ?_⟩⟩
  · exact refused_of slotless r rfl (by simp [State.shelve, not0, not5])
  · exact refused_of slotless r rfl (by rcases at_ with e | e <;> simp [State.shelve, e, empty])
  · refine refused_of slotless r rfl (State.shelve_unfit (.inl at_) here ?_)
    simp [Garment.shelvable_iff, at_, loose]
  · refine refused_of slotless r rfl (State.shelve_unfit (.inr at_) here ?_)
    simp [Garment.shelvable_iff, at_, stage, good]
  have fit : g.shelvable (s.place p) = true := (g.shelvable_iff _).2 (at_.imp (fun e => ⟨e, by simp [bound]⟩) id)
  have place := at_.imp id And.left
  refine ⟨fun full => ?_, fun k empty lowest => ?_⟩
  · exact refused_of slotless r rfl (State.shelve_full place here fit (State.freeShelf_full full))
  · have done := State.shelve_of place here fit (State.freeShelf_lowest empty lowest) bound known
    rw [State.shelveGarment_eq _ _ _ _ _ _ bound, g.context_eq c b s.clock.time] at done
    exact done_of slotless r rfl done

end
end

