-- ==== Sys2Proof/Proofs/ShelfRecords.lean ====
section
/-! PROOF. Context records read (R160, R181): a reader accepts exactly the bytes of the values it can give. -/

namespace Sys2Proof.Machine

/-! ### Readers, step by step -/

section Readers

variable {α β : Type} {l rest : List Byte}

theorem Parse.bind_eq_some {p : Parse α} {f : α → Parse β} {y : β} : (p >>= f) l = some (y, rest) ↔
    ∃ x m, p l = some (x, m) ∧ f x m = some (y, rest) := by
  change (p l).bind (fun z => f z.1 z.2) = some (y, rest) ↔ _
  simp [Option.bind_eq_some_iff]

theorem Parse.pure_eq_some {x y : α} : (pure x : Parse α) l = some (y, rest) ↔ x = y ∧ l = rest := by
  change some (x, l) = some (y, rest) ↔ _
  simp

theorem Parse.failure_eq_some {y : α} : (failure : Parse α) l = some (y, rest) ↔ False := by
  change none = some (y, rest) ↔ _
  simp

/-- What is read is given only where nothing is wrong with it. -/
theorem Parse.guard_eq_some {c : Prop} [Decidable c] {p : Parse α} {y : α} :
    (if c then failure else p) l = some (y, rest) ↔ ¬c ∧ p l = some (y, rest) := by
  split <;> simp_all [Parse.failure_eq_some]

/-! ### Numbers -/

theorem Parse.u8_eq_some {n : Nat} : Parse.u8 l = some (n, rest) ↔ n < 256 ∧ l = (Field.u8 n).encode ++ rest := by
  cases l with
  | nil => simp [Parse.u8, encode_u8]
  | cons b r =>
    simp only [Parse.u8, encode_u8, Option.some.injEq, Prod.mk.injEq, List.cons_append, List.nil_append, List.cons.injEq]
    constructor
    · rintro ⟨rfl, rfl⟩
      exact ⟨b.isLt, by simp, rfl⟩
    · rintro ⟨low, rfl, rfl⟩
      exact ⟨by simp [Nat.mod_eq_of_lt low], rfl⟩

/-- A number read in two parts, the second of `2^k` values. -/
theorem Parse.parts_eq_some {p q : Parse Nat} (f g h : Nat → Field) {a b : Nat}
    (first : ∀ {l rest n}, p l = some (n, rest) ↔ n < a ∧ l = (f n).encode ++ rest)
    (second : ∀ {l rest n}, q l = some (n, rest) ↔ n < b ∧ l = (g n).encode ++ rest)
    (joined : ∀ x y, x < a → y < b → (h (b * x + y)).encode = (f x).encode ++ (g y).encode) {n : Nat} :
    (p >>= fun x => q >>= fun y => pure (b * x + y)) l = some (n, rest) ↔ n < a * b ∧ l = (h n).encode ++ rest := by
  simp only [Parse.bind_eq_some, Parse.pure_eq_some, first, second]
  constructor
  · rintro ⟨x, _, ⟨low, rfl⟩, y, _, ⟨low', rfl⟩, rfl, rfl⟩
    refine ⟨?_, by rw [joined x y low low', List.append_assoc]⟩
    calc b * x + y < b * x + b := by omega
      _ = (x + 1) * b := by ring
      _ ≤ a * b := Nat.mul_le_mul_right b low
  · rintro ⟨low, rfl⟩
    have pos : 0 < b := Nat.pos_of_ne_zero (by rintro rfl; simp at low)
    have x : n / b < a := (Nat.div_lt_iff_lt_mul pos).2 low
    have y : n % b < b := Nat.mod_lt _ pos
    have whole : b * (n / b) + n % b = n := Nat.div_add_mod n b
    have split : (h n).encode ++ rest = (f (n / b)).encode ++ ((g (n % b)).encode ++ rest) := by
      rw [← List.append_assoc, ← joined _ _ x y, whole]
    exact ⟨n / b, _, ⟨x, split⟩, n % b, _, ⟨y, rfl⟩, whole, rfl⟩

theorem encode_u16_parts {x y : Nat} (low : y < 256) :
    (Field.u16 (256 * x + y)).encode = (Field.u8 x).encode ++ (Field.u8 y).encode := by
  have high : (256 * x + y) / 256 = x := by omega
  have same : BitVec.ofNat 8 (256 * x + y) = BitVec.ofNat 8 y := BitVec.eq_of_toNat_eq (by simp)
  simp [encode_u8, encode_u16, high, same]

theorem encode_u24_parts {x y : Nat} (low : y < 65536) :
    (Field.u24 (65536 * x + y)).encode = (Field.u8 x).encode ++ (Field.u16 y).encode := by
  have high : (65536 * x + y) / 65536 = x := by omega
  have middle : BitVec.ofNat 8 ((65536 * x + y) / 256) = BitVec.ofNat 8 (y / 256) :=
    BitVec.eq_of_toNat_eq (by simp; omega)
  have same : BitVec.ofNat 8 (65536 * x + y) = BitVec.ofNat 8 y := BitVec.eq_of_toNat_eq (by simp; omega)
  simp [encode_u8, encode_u16, encode_u24, high, middle, same]

theorem encode_u32_parts {x y : Nat} (low : y < 65536) :
    (Field.u32 (65536 * x + y)).encode = (Field.u16 x).encode ++ (Field.u16 y).encode := by
  have top : (65536 * x + y) / 16777216 = x / 256 := by omega
  have high : (65536 * x + y) / 65536 = x := by omega
  have middle : BitVec.ofNat 8 ((65536 * x + y) / 256) = BitVec.ofNat 8 (y / 256) :=
    BitVec.eq_of_toNat_eq (by simp; omega)
  have same : BitVec.ofNat 8 (65536 * x + y) = BitVec.ofNat 8 y := BitVec.eq_of_toNat_eq (by simp; omega)
  simp [encode_u16, encode_u32, top, high, middle, same]

theorem Parse.u16_eq_some {n : Nat} : Parse.u16 l = some (n, rest) ↔ n < 65536 ∧ l = (Field.u16 n).encode ++ rest :=
  Parse.parts_eq_some .u8 .u8 .u16 (a := 256) (b := 256) Parse.u8_eq_some Parse.u8_eq_some (fun _ _ _ low => encode_u16_parts low)

theorem parse24_eq_some {n : Nat} : parse24 l = some (n, rest) ↔ n < 16777216 ∧ l = (Field.u24 n).encode ++ rest :=
  Parse.parts_eq_some .u8 .u16 .u24 (a := 256) (b := 65536) Parse.u8_eq_some Parse.u16_eq_some
    (fun _ _ _ low => encode_u24_parts low)

theorem Parse.u32_eq_some {n : Nat} : Parse.u32 l = some (n, rest) ↔ n < 4294967296 ∧ l = (Field.u32 n).encode ++ rest :=
  Parse.parts_eq_some .u16 .u16 .u32 (a := 65536) (b := 65536) Parse.u16_eq_some Parse.u16_eq_some
    (fun _ _ _ low => encode_u32_parts low)

theorem Parse.word_eq_some {w : Word} : Parse.word l = some (w, rest) ↔ l = (Field.word w).encode ++ rest := by
  simp only [Parse.word, Parse.bind_eq_some, Parse.pure_eq_some, Parse.u32_eq_some]
  constructor
  · rintro ⟨n, _, ⟨low, rfl⟩, rfl, rfl⟩
    simp [Field.word, Nat.mod_eq_of_lt low]
  · rintro rfl
    exact ⟨w.toNat, _, ⟨w.isLt, rfl⟩, by simp, rfl⟩

/-! ### Parts of a component -/

theorem Parse.blank_eq_some {b : BlankCode} : Parse.blank l = some (b, rest) ↔
    BlankCode.wf b = true ∧ l = encodeFields (blankFields b) ++ rest := by
  simp only [Parse.blank, Parse.bind_eq_some, Parse.pure_eq_some, Parse.u8_eq_some, Parse.u16_eq_some]
  constructor
  · rintro ⟨style, _, ⟨low, rfl⟩, colour, _, ⟨low', rfl⟩, size, _, ⟨low'', rfl⟩, rfl, rfl⟩
    exact ⟨by simp [BlankCode.wf, fits8, fits16, low, low', low''], by simp [blankFields, encodeFields_cons, encodeFields_nil]⟩
  · rintro ⟨wf, rfl⟩
    simp only [BlankCode.wf, fits8, fits16, Bool.and_eq_true, decide_eq_true_eq] at wf
    obtain ⟨⟨low, low'⟩, low''⟩ := wf
    exact ⟨_, _, ⟨low, by simp only [blankFields, encodeFields_cons, encodeFields_nil, List.append_assoc,
      List.nil_append]⟩, _, _, ⟨low', rfl⟩,
      _, _, ⟨low'', rfl⟩, rfl, rfl⟩

/-- A coded value is read from its place's byte. -/
theorem coded_eq_some [DecidableEq α] {values : List α} {x : α} (nodup : values.Nodup) (all : ∀ x, x ∈ values)
    (few : values.length ≤ 256) : coded values l = some (x, rest) ↔ l = (Field.u8 (values.idxOf x)).encode ++ rest := by
  have place (n : Nat) (y : α) : values[n]? = some y ↔ n = values.idxOf y := by
    rw [List.getElem?_eq_some_iff]
    constructor
    · rintro ⟨low, rfl⟩
      exact (nodup.idxOf_getElem n low).symm
    · rintro rfl
      exact ⟨List.idxOf_lt_length_of_mem (all y), List.getElem_idxOf _⟩
  simp only [coded, Parse.bind_eq_some, Parse.u8_eq_some]
  constructor
  · rintro ⟨n, m, ⟨-, rfl⟩, read⟩
    cases at_ : values[n]? with
    | none => simp [at_, Parse.failure_eq_some] at read
    | some y =>
      simp only [at_, Parse.pure_eq_some] at read
      obtain ⟨rfl, rfl⟩ := read
      rw [(place n y).1 at_]
  · rintro rfl
    have low := List.idxOf_lt_length_of_mem (all x)
    exact ⟨values.idxOf x, _, ⟨by omega, rfl⟩, by simp [(place _ x).2 rfl, Parse.pure_eq_some]⟩

/-! ### Components -/

/-- The bytes of IDENT as it is read. -/
def ReadIdent.fields (r : ReadIdent) : List Field :=
  blankFields r.blank ++ [.u8 r.cls.val, .u8 r.marks, .u16 r.line.val, .word r.order, .word r.time]

def ReadIdent.fits (r : ReadIdent) : Prop := BlankCode.wf r.blank = true ∧ ¬r.blank.isNull = true ∧ r.marks < 8

def CtxPretreat.fits (p : CtxPretreat) : Prop := p.planned < 16777216 ∧ p.issued < 16777216 ∧ p.shortfall < 16777216

def CtxPrint.fits (p : CtxPrint) : Prop :=
  p.count < 256 ∧ p.produced < 256 ∧ p.released < 256 ∧ p.w < 4294967296 ∧ p.c < 65536 ∧ p.m < 65536 ∧ p.y < 65536 ∧ p.k < 65536

def CtxCure.fits (p : CtxCure) : Prop := p.carry < 100 ∧ p.credit < 65536 ∧ p.required < 65536 ∧ p.scorch < 65536

theorem inRange_eq_some {n x : Nat} {i : Fin n} : inRange n x = some i ↔ x = i.val := by
  constructor
  · intro e
    unfold inRange at e
    split at e
    · exact congrArg Fin.val (Option.some.inj e)
    · cases e
  · rintro rfl
    exact inRange_val i

theorem parseIdent_eq_some {r : ReadIdent} : parseIdent l = some (r, rest) ↔ r.fits ∧ l = encodeFields r.fields ++ rest := by
  simp only [parseIdent, Parse.bind_eq_some, Parse.blank_eq_some, Parse.u8_eq_some, Parse.u16_eq_some, Parse.word_eq_some,
    ReadIdent.fields, encodeFields_append, encodeFields_cons, encodeFields_nil, List.append_assoc, List.nil_append]
  constructor
  · rintro ⟨blank, _, ⟨wf, rfl⟩, cls, _, ⟨-, rfl⟩, marks, _, ⟨-, rfl⟩, line, _, ⟨-, rfl⟩, order, _, rfl, time, m, rfl, kept⟩
    cases hc : inRange 16 cls with
    | none => simp [hc, Parse.failure_eq_some] at kept
    | some c =>
      cases hk : inRange 512 line with
      | none => simp [hc, hk, Parse.failure_eq_some] at kept
      | some k =>
        simp only [hc, hk, Parse.guard_eq_some, Parse.pure_eq_some, not_or, Nat.not_le] at kept
        obtain ⟨⟨full, low⟩, rfl, rfl⟩ := kept
        obtain rfl := inRange_eq_some.1 hc
        obtain rfl := inRange_eq_some.1 hk
        exact ⟨⟨wf, full, low⟩, rfl⟩
  · rintro ⟨⟨wf, full, marks⟩, rfl⟩
    refine ⟨r.blank, _, ⟨wf, rfl⟩, r.cls.val, _, ⟨by omega, rfl⟩, r.marks, _, ⟨by omega, rfl⟩, r.line.val, _, ⟨by omega, rfl⟩,
      r.order, _, rfl, r.time, _, rfl, ?_⟩
    simp only [inRange_val, Parse.guard_eq_some, Parse.pure_eq_some]
    exact ⟨by simp [full, marks], trivial, trivial⟩

theorem parsePretreat_eq_some {x : CtxPretreat} : parsePretreat l = some (x, rest) ↔
    x.fits ∧ l = encodeFields x.fields ++ rest := by
  have coverage {l rest x} := coded_eq_some (l := l) (rest := rest) (x := x)
    (values := [CoverageState.none, .queued, .scanning, .complete]) (by decide) (fun x => by cases x <;> decide) (by decide)
  have result {l rest x} := coded_eq_some (l := l) (rest := rest) (x := x)
    (values := [PretreatResult.pending, .done, .short, .interrupted, .waived]) (by decide) (fun x => by cases x <;> decide)
    (by decide)
  have press {l rest x} := coded_eq_some (l := l) (rest := rest) (x := x)
    (values := [PressRecord.pending, .done, .interrupted, .waived]) (by decide) (fun x => by cases x <;> decide) (by decide)
  simp only [parsePretreat, Parse.bind_eq_some, coverage, result, press, parse24_eq_some, Parse.pure_eq_some,
    CtxPretreat.fields, CoverageState.code_eq, PretreatResult.code_eq, PressRecord.code_eq, encodeFields_cons, encodeFields_nil,
    List.append_assoc, List.nil_append]
  constructor
  · rintro ⟨_, _, rfl, _, _, rfl, _, _, rfl, _, _, ⟨planned, rfl⟩, _, _, ⟨issued, rfl⟩, _, _, ⟨shortfall, rfl⟩, rfl, rfl⟩
    exact ⟨⟨planned, issued, shortfall⟩, rfl⟩
  · rintro ⟨⟨planned, issued, shortfall⟩, rfl⟩
    exact ⟨_, _, rfl, _, _, rfl, _, _, rfl, _, _, ⟨planned, rfl⟩, _, _, ⟨issued, rfl⟩, _, _, ⟨shortfall, rfl⟩, rfl, rfl⟩

theorem parsePrint_eq_some {x : CtxPrint} : parsePrint l = some (x, rest) ↔
    x.fits ∧ l = encodeFields x.fields ++ rest := by
  have phase {l rest x} := coded_eq_some (l := l) (rest := rest) (x := x)
    (values := [PrintPhase.none, .underbase, .color, .complete, .aborted]) (by decide) (fun x => by cases x <;> decide)
    (by decide)
  simp only [parsePrint, Parse.bind_eq_some, phase, Parse.u8_eq_some, Parse.u16_eq_some, Parse.u32_eq_some, Parse.pure_eq_some,
    CtxPrint.fields, PrintPhase.code_eq, encodeFields_cons, encodeFields_nil, List.append_assoc, List.nil_append]
  constructor
  · rintro ⟨_, _, rfl, _, _, ⟨count, rfl⟩, _, _, ⟨produced, rfl⟩, _, _, ⟨released, rfl⟩, _, _, ⟨w, rfl⟩, _, _, ⟨c, rfl⟩,
      _, _, ⟨m, rfl⟩, _, _, ⟨y, rfl⟩, _, _, ⟨k, rfl⟩, rfl, rfl⟩
    exact ⟨⟨count, produced, released, w, c, m, y, k⟩, rfl⟩
  · rintro ⟨⟨count, produced, released, w, c, m, y, k⟩, rfl⟩
    exact ⟨_, _, rfl, _, _, ⟨count, rfl⟩, _, _, ⟨produced, rfl⟩, _, _, ⟨released, rfl⟩, _, _, ⟨w, rfl⟩, _, _, ⟨c, rfl⟩,
      _, _, ⟨m, rfl⟩, _, _, ⟨y, rfl⟩, _, _, ⟨k, rfl⟩, rfl, rfl⟩

theorem parseCure_eq_some {x : CtxCure} : parseCure l = some (x, rest) ↔
    x.fits ∧ l = encodeFields x.fields ++ rest := by
  have result {l rest x} := coded_eq_some (l := l) (rest := rest) (x := x)
    (values := [CureResult.none, .released, .scorched]) (by decide) (fun x => by cases x <;> decide) (by decide)
  simp only [parseCure, Parse.bind_eq_some, result, Parse.u8_eq_some, Parse.u16_eq_some, Parse.guard_eq_some,
    Parse.pure_eq_some, CtxCure.fields, CureResult.code_eq, encodeFields_cons, encodeFields_nil, List.append_assoc,
    List.nil_append, Nat.not_lt]
  constructor
  · rintro ⟨_, _, rfl, _, _, ⟨-, rfl⟩, _, _, ⟨credit, rfl⟩, _, _, ⟨required, rfl⟩, _, _, ⟨scorch, rfl⟩, carry, rfl, rfl⟩
    exact ⟨⟨Nat.lt_succ_of_le carry, credit, required, scorch⟩, rfl⟩
  · rintro ⟨⟨carry, credit, required, scorch⟩, rfl⟩
    exact ⟨_, _, rfl, _, _, ⟨lt_trans carry (by decide), rfl⟩, _, _, ⟨credit, rfl⟩, _, _, ⟨required, rfl⟩, _, _, ⟨scorch, rfl⟩,
      Nat.le_of_lt_succ carry, rfl, rfl⟩

/-! ### A part that may be absent -/

theorem Parse.many_u8_eq_some {n : Nat} {xs : List Nat} : Parse.many Parse.u8 n l = some (xs, rest) ↔
    ∃ bs : List Byte, bs.length = n ∧ l = bs ++ rest ∧ xs = bs.map BitVec.toNat := by
  induction n generalizing l rest xs with
  | zero =>
    simp only [Parse.many, Parse.pure_eq_some, List.length_eq_zero_iff, exists_eq_left, List.nil_append, List.map_nil]
    exact ⟨fun ⟨e, same⟩ => ⟨same, e.symm⟩, fun ⟨same, e⟩ => ⟨e.symm, same⟩⟩
  | succ n ih =>
    simp only [Parse.many, Parse.bind_eq_some, Parse.pure_eq_some, Parse.u8_eq_some, ih, encode_u8]
    constructor
    · rintro ⟨x, _, ⟨low, rfl⟩, _, _, ⟨bs, size, rfl, rfl⟩, rfl, rfl⟩
      exact ⟨BitVec.ofNat 8 x :: bs, by simp [size], by simp, by simp [Nat.mod_eq_of_lt low]⟩
    · rintro ⟨bs, size, rfl, rfl⟩
      cases bs with
      | nil => simp at size
      | cons b bs =>
        exact ⟨b.toNat, _, ⟨b.isLt, by simp⟩, bs.map BitVec.toNat, _, ⟨bs, by simpa using size, rfl, rfl⟩, rfl, rfl⟩

theorem all_zero_iff (bs : List Byte) : ((bs.map BitVec.toNat).all fun b => b == 0) = true ↔ bs = List.replicate bs.length 0 := by
  simp [List.eq_replicate_iff, ← BitVec.toNat_inj]

theorem RecordForm.parsePart_eq_some {f : RecordForm} {size : Nat} {present : Bool} {p : Parse α} {ok : α → Prop}
    {fields : α → List Field} (reads : ∀ {l rest x}, p l = some (x, rest) ↔ ok x ∧ l = encodeFields (fields x) ++ rest)
    {y : Option α} : f.parsePart size present p l = some (y, rest) ↔
      y.isSome = present ∧ (∀ x, y = some x → ok x) ∧ l = encodeFields (f.part size (y.map fields)) ++ rest := by
  cases present with
  | true =>
    simp only [RecordForm.parsePart, if_true, Parse.bind_eq_some, Parse.pure_eq_some, reads]
    constructor
    · rintro ⟨x, m, ⟨good, rfl⟩, rfl, rfl⟩
      simp [good]
    · rintro ⟨some_, good, rfl⟩
      obtain ⟨x, rfl⟩ := Option.isSome_iff_exists.1 some_
      exact ⟨x, _, ⟨good x rfl, rfl⟩, rfl, rfl⟩
  | false =>
    have none_ : y.isSome = false ∧ (∀ x, y = some x → ok x) ↔ none = y := by cases y <;> simp
    rw [← and_assoc, none_]
    cases f with
    | compact =>
      simp only [RecordForm.parsePart, Bool.false_eq_true, if_false, Parse.pure_eq_some]
      refine and_congr_right fun e => ?_
      subst e
      rfl
    | full =>
      simp only [RecordForm.parsePart, Bool.false_eq_true, if_false, Parse.bind_eq_some, Parse.many_u8_eq_some]
      constructor
      · rintro ⟨_, m, ⟨bs, size_, rfl, rfl⟩, kept⟩
        split at kept
        next zero =>
          simp only [Parse.pure_eq_some] at kept
          obtain ⟨rfl, rfl⟩ := kept
          have same := (all_zero_iff bs).1 zero
          rw [size_] at same
          exact ⟨rfl, by rw [Option.map_none, RecordForm.encode_absent, ← same]⟩
        next => simp [Parse.failure_eq_some] at kept
      · rintro ⟨rfl, rfl⟩
        have zero := (all_zero_iff (List.replicate size 0)).2 (by simp)
        exact ⟨_, _, ⟨_, List.length_replicate, by rw [Option.map_none, RecordForm.encode_absent], rfl⟩,
          by simp only [zero, if_true, Parse.pure_eq_some, true_and]⟩

end Readers

/-! ### Records -/

section Records

variable {l rest record : List Byte} {r : ReadRecord} {f : RecordForm}

theorem RecordForm.ofCode_code (f : RecordForm) : RecordForm.ofCode f.code = some f := by cases f <;> rfl

theorem RecordForm.ofCode_eq_some {n : Nat} : RecordForm.ofCode n = some f ↔ n = f.code := by
  constructor
  · intro e
    unfold RecordForm.ofCode at e
    split at e <;> cases e <;> rfl
  · rintro rfl
    exact f.ofCode_code

theorem Components.ofMask_mask (c : Components) : Components.ofMask c.mask = some c := by
  obtain ⟨ident, pretreat, print, cure⟩ := c
  revert ident pretreat print cure
  decide

theorem Components.ofMask_eq_some {n : Nat} {c : Components} : Components.ofMask n = some c ↔ n = c.mask := by
  constructor
  · intro e
    unfold Components.ofMask at e
    split at e
    next low =>
      obtain rfl := Option.some.inj e
      revert n
      decide
    · cases e
  · rintro rfl
    exact c.ofMask_mask

theorem Components.mask_lt (c : Components) : c.mask < 16 := by
  obtain ⟨ident, pretreat, print, cure⟩ := c
  revert ident pretreat print cure
  decide

theorem RecordForm.length_le (f : RecordForm) (c : Components) : f.length c ≤ 60 := by
  obtain ⟨ident, pretreat, print, cure⟩ := c
  cases f <;> revert ident pretreat print cure <;> decide

theorem marks_eq_bits {n : Nat} (low : n < 8) :
    n = (n.testBit 0).toNat + 2 * (n.testBit 1).toNat + 4 * (n.testBit 2).toNat := by
  revert n
  decide

/-- IDENT in a record is IDENT as it is read. -/
theorem ReadRecord.context_ident_fields (r : ReadRecord) (serial : Word) (low : r.ident.marks < 8) :
    (r.context serial).ident.fields (r.context serial).ident.orphan = r.ident.fields := by
  simp only [CtxIdent.fields, ReadRecord.context, ReadIdent.fields, ← marks_eq_bits low]

/-- What is read fits the fields of its record. -/
def ReadRecord.fits (r : ReadRecord) : Prop :=
  r.ident.fits ∧ (∀ x, r.pretreat = some x → x.fits) ∧ (∀ x, r.print = some x → x.fits) ∧ ∀ x, r.cure = some x → x.fits

/-- The components that are read. -/
def ReadRecord.present (r : ReadRecord) : Components := ⟨true, r.pretreat.isSome, r.print.isSome, r.cure.isSome⟩

/-- The bytes of a record, component by component. -/
theorem ReadRecord.encode_record_append (r : ReadRecord) (f : RecordForm) (serial : Word) (low : r.ident.marks < 8)
    (rest : List Byte) : encodeFields ((r.context serial).record f (r.context serial).ident.orphan) ++ rest =
      (Field.u8 f.code).encode ++ ((Field.u8 r.present.mask).encode ++ ((Field.u16 (f.length r.present)).encode ++
      ((Field.word serial).encode ++ (encodeFields r.ident.fields ++
      (encodeFields (f.part 12 (r.pretreat.map CtxPretreat.fields)) ++
      (encodeFields (f.part 16 (r.print.map CtxPrint.fields)) ++
      (encodeFields (f.part 8 (r.cure.map CtxCure.fields)) ++ rest))))))) := by
  simp only [Context.record, RecordForm.part_some, r.context_ident_fields serial low, Context.header, encodeFields_append,
    encodeFields_cons, encodeFields_nil, List.append_assoc, List.nil_append]
  rfl

/-- R160 check 1, R181: a record is accepted where it has the bytes of values that fit, in one of the two forms. -/
theorem parseRecord_eq_some {received : Nat} : parseRecord received l = some (r, rest) ↔
    r.fits ∧ ∃ (f : RecordForm) (serial : Word), r.length = f.length r.present ∧ received = f.length r.present ∧
      l = encodeFields ((r.context serial).record f (r.context serial).ident.orphan) ++ rest := by
  simp only [parseRecord, Parse.bind_eq_some, Parse.u8_eq_some, Parse.u16_eq_some, Parse.word_eq_some]
  constructor
  · rintro ⟨format, _, ⟨-, rfl⟩, mask, _, ⟨-, rfl⟩, length, _, ⟨-, rfl⟩, serial, m, rfl, kept⟩
    cases hf : RecordForm.ofCode format with
    | none => simp [hf, Parse.failure_eq_some] at kept
    | some f =>
      cases hc : Components.ofMask mask with
      | none => simp [hf, hc, Parse.failure_eq_some] at kept
      | some c =>
        obtain ⟨_, _, _, _⟩ := c
        simp only [hf, hc, Parse.guard_eq_some, Parse.bind_eq_some, parseIdent_eq_some,
          RecordForm.parsePart_eq_some parsePretreat_eq_some, RecordForm.parsePart_eq_some parsePrint_eq_some,
          RecordForm.parsePart_eq_some parseCure_eq_some, Parse.pure_eq_some, not_or, ne_eq, not_not, Bool.not_eq_false] at kept
        obtain ⟨⟨rfl, rfl, rfl⟩, ident, _, ⟨fits, rfl⟩, pretreat, _, ⟨rfl, fits', rfl⟩, print, _, ⟨rfl, fits'', rfl⟩, cure, _,
          ⟨rfl, fits''', rfl⟩, rfl, rfl⟩ := kept
        obtain rfl := RecordForm.ofCode_eq_some.1 hf
        obtain rfl := Components.ofMask_eq_some.1 hc
        obtain ⟨-, -, low⟩ := id fits
        refine ⟨⟨fits, fits', fits'', fits'''⟩, f, serial, rfl, rfl, ?_⟩
        rw [ReadRecord.encode_record_append _ _ _ low]
        rfl
  · rintro ⟨⟨fits, fits', fits'', fits'''⟩, f, serial, length, rfl, rfl⟩
    obtain ⟨-, -, low⟩ := id fits
    rw [r.encode_record_append f serial low]
    refine ⟨_, _, ⟨?_, rfl⟩, _, _, ⟨?_, rfl⟩, _, _, ⟨?_, rfl⟩, serial, _, rfl, ?_⟩
    · cases f <;> decide
    · exact lt_trans r.present.mask_lt (by decide)
    · exact lt_of_le_of_lt (f.length_le _) (by decide)
    simp only [f.ofCode_code, Components.ofMask_mask, Parse.guard_eq_some, Parse.bind_eq_some, parseIdent_eq_some,
      RecordForm.parsePart_eq_some parsePretreat_eq_some, RecordForm.parsePart_eq_some parsePrint_eq_some,
      RecordForm.parsePart_eq_some parseCure_eq_some, Parse.pure_eq_some]
    refine ⟨by simp [ReadRecord.present], r.ident, _, ⟨fits, rfl⟩, r.pretreat, _, ⟨rfl, fits', rfl⟩, r.print, _, ⟨rfl, fits'', rfl⟩,
      r.cure, _, ⟨rfl, fits''', rfl⟩, by rw [← length], rfl⟩

theorem Parse.whole_eq_some {α : Type} {p : Parse α} {x : α} : Parse.whole p l = some x ↔ p l = some (x, []) := by
  unfold Parse.whole
  split <;> simp_all

theorem readRecord_eq_some : readRecord record = some r ↔ r.fits ∧ ∃ (f : RecordForm) (serial : Word),
    r.length = f.length r.present ∧ record.length = f.length r.present ∧
      record = encodeFields ((r.context serial).record f (r.context serial).ident.orphan) := by
  simp only [readRecord, Parse.whole_eq_some, parseRecord_eq_some, List.append_nil]

/-! ### A record's own context read back -/

theorem encode_ident_length (x : CtxIdent) (orphan : Bool) : (encodeFields (x.fields orphan)).length = 16 := by
  simp [CtxIdent.fields, blankFields, Field.word, encodeFields_cons, encodeFields_nil, encode_u8, encode_u16, encode_u32]

theorem RecordForm.encode_part_length {α : Type} (f : RecordForm) {size : Nat} {fields : α → List Field}
    (sized : ∀ x, (encodeFields (fields x)).length = size) (x : Option α) :
    (encodeFields (f.part size (x.map fields))).length = if x.isSome ∨ f = .full then size else 0 := by
  cases x with
  | some x => simp [sized]
  | none => rw [Option.map_none, f.encode_absent]; cases f <;> simp

/-- R159: a record's length is the one its header states. -/
theorem encode_record_length (c : Context) (f : RecordForm) (orphan : Bool) :
    (encodeFields (c.record f orphan)).length = f.length c.present := by
  have header : (encodeFields (c.header f (f.length c.present))).length = 8 := by
    simp [Context.header, Field.word, encodeFields_cons, encodeFields_nil, encode_u8, encode_u16, encode_u32]
  have pretreat (x : CtxPretreat) : (encodeFields x.fields).length = 12 := by
    simp [CtxPretreat.fields, encodeFields_cons, encodeFields_nil, encode_u8, encode_u24]
  have print (x : CtxPrint) : (encodeFields x.fields).length = 16 := by
    simp [CtxPrint.fields, encodeFields_cons, encodeFields_nil, encode_u8, encode_u16, encode_u32]
  have cure (x : CtxCure) : (encodeFields x.fields).length = 8 := by
    simp [CtxCure.fields, encodeFields_cons, encodeFields_nil, encode_u8, encode_u16]
  simp only [Context.record, encodeFields_append, List.length_append, header, RecordForm.part_some, encode_ident_length,
    f.encode_part_length pretreat, f.encode_part_length print, f.encode_part_length cure]
  cases f with
  | full => simp [RecordForm.length, fullLength]
  | compact => simp [c.compact_length]

/-- What is read from a context's own record. -/
def Context.read (c : Context) (f : RecordForm) (orphan : Bool) : ReadRecord where
  length := f.length c.present
  ident := ⟨c.ident.blank, c.ident.cls, c.ident.reject.toNat + 2 * orphan.toNat + 4 * c.ident.restored.toNat, c.ident.line,
    c.ident.order, c.ident.time⟩
  pretreat := c.pretreat
  print := c.print
  cure := c.cure

theorem testBit_bits (a b c : Bool) : (a.toNat + 2 * b.toNat + 4 * c.toNat).testBit 0 = a ∧
    (a.toNat + 2 * b.toNat + 4 * c.toNat).testBit 1 = b ∧ (a.toNat + 2 * b.toNat + 4 * c.toNat).testBit 2 = c ∧
    a.toNat + 2 * b.toNat + 4 * c.toNat < 8 := by
  revert a b c
  decide

theorem Context.read_context (c : Context) (f : RecordForm) (orphan : Bool) : (c.read f orphan).context c.serial =
    { c with length := f.length c.present, ident := { c.ident with orphan := orphan } } := by
  obtain ⟨reject, mark, restored, -⟩ := testBit_bits c.ident.reject orphan c.ident.restored
  simp only [ReadRecord.context, Context.read, reject, mark, restored]

theorem Context.read_fits {c : Context} (f : RecordForm) (orphan : Bool) (fits : c.fits = true) : (c.read f orphan).fits := by
  obtain ⟨-, -, -, low⟩ := testBit_bits c.ident.reject orphan c.ident.restored
  simp only [Context.fits, Bool.and_eq_true] at fits
  obtain ⟨⟨⟨⟨wf, full⟩, pretreat⟩, print⟩, cure⟩ := fits
  refine ⟨⟨wf, by simpa [Context.read] using full, low⟩, fun x e => ?_, fun x e => ?_, fun x e => ?_⟩
  · simpa [show c.pretreat = some x from e, CtxPretreat.fits] using pretreat
  · simpa [show c.print = some x from e, CtxPrint.fits] using print
  · simpa [show c.cure = some x from e, CtxCure.fits] using cure

/-- R160, R181: the record of a context that fits reads back as that context. -/
theorem readRecord_record {c : Context} (f : RecordForm) (orphan : Bool) (fits : c.fits = true) :
    readRecord (encodeFields (c.record f orphan)) = some (c.read f orphan) := by
  refine readRecord_eq_some.2 ⟨Context.read_fits f orphan fits, f, c.serial, rfl, encode_record_length c f orphan, ?_⟩
  rw [c.read_context]
  rfl

end Records
end Sys2Proof.Machine
end

