-- ==== Sys2Proof/Proofs/MalformedRecords.lean ====
section
/-! PROOF. MALFORMED records (R160 check 1): what a reader refuses, byte by byte. -/

namespace Sys2Proof.Machine

/-! ### Readers, byte by byte -/

section Readers

variable {α β : Type} {p : Parse α} {q : α → Parse β} {n m : Nat}

/-- The byte at a place, as a number; 0 past the end. -/
def byteAt (l : List Byte) (n : Nat) : Nat := (l.getD n 0).toNat

theorem byteAt_drop (l : List Byte) (n k : Nat) : byteAt (l.drop n) k = byteAt l (n + k) := by
  simp [byteAt, List.getD_eq_getElem?_getD]

theorem byteAt_tail (l : List Byte) (k : Nat) : byteAt l.tail k = byteAt l (1 + k) := by
  rw [← List.drop_one, byteAt_drop]

/-- From `n` bytes or more, the reader takes `n` and gives their value. -/
def Parse.Gives (p : Parse α) (n : Nat) (value : List Byte → α) : Prop :=
  ∀ l, n ≤ l.length → p l = some (value l, l.drop n)

/-- From `n` bytes or more, the reader takes `n` where they pass, and nothing otherwise. -/
def Parse.Takes (p : Parse α) (n : Nat) (ok : List Byte → Prop) : Prop :=
  ∀ l, n ≤ l.length → (∃ y, p l = some (y, l.drop n)) ∧ ok l ∨ p l = none ∧ ¬ok l

theorem Parse.gives_pure (x : α) : Parse.Gives (pure x) 0 fun _ => x := fun _ _ => rfl

theorem Parse.gives_u8 : Parse.Gives Parse.u8 1 fun l => byteAt l 0 := by
  intro l long
  cases l with
  | nil => simp at long
  | cons b r => rfl

theorem Parse.bind_of_some {x : α} {l r : List Byte} (e : p l = some (x, r)) : (p >>= q) l = q x r := by
  change (p l).bind (fun z => q z.1 z.2) = _
  rw [e]
  rfl

theorem Parse.bind_of_none {l : List Byte} (e : p l = none) : (p >>= q) l = none := by
  change (p l).bind (fun z => q z.1 z.2) = _
  rw [e]
  rfl

theorem Parse.Gives.bind {value : List Byte → α} {value' : α → List Byte → β} (first : Parse.Gives p n value)
    (second : ∀ x, Parse.Gives (q x) m (value' x)) : Parse.Gives (p >>= q) (n + m) fun l => value' (value l) (l.drop n) := by
  intro l long
  rw [Parse.bind_of_some (first l (by omega)), second _ _ (by rw [List.length_drop]; omega), List.drop_drop]

theorem Parse.Gives.takes {value : List Byte → α} (h : Parse.Gives p n value) : Parse.Takes p n fun _ => True :=
  fun l long => .inl ⟨⟨value l, h l long⟩, trivial⟩

theorem Parse.Gives.bind_takes {value : List Byte → α} {ok : α → List Byte → Prop} (first : Parse.Gives p n value)
    (second : ∀ x, Parse.Takes (q x) m (ok x)) : Parse.Takes (p >>= q) (n + m) fun l => ok (value l) (l.drop n) := by
  intro l long
  rw [Parse.bind_of_some (first l (by omega)), ← List.drop_drop]
  exact second _ _ (by rw [List.length_drop]; omega)

theorem Parse.Takes.bind {ok ok' : List Byte → Prop} (first : Parse.Takes p n ok) (second : ∀ x, Parse.Takes (q x) m ok') :
    Parse.Takes (p >>= q) (n + m) fun l => ok l ∧ ok' (l.drop n) := by
  intro l long
  obtain ⟨⟨x, e⟩, good⟩ | ⟨e, bad⟩ := first l (by omega)
  · rw [Parse.bind_of_some e, ← List.drop_drop]
    simpa [good] using second x (l.drop n) (by rw [List.length_drop]; omega)
  · exact .inr ⟨Parse.bind_of_none e, fun good => bad good.1⟩

theorem Parse.Takes.guard {ok : List Byte → Prop} {c : Prop} [Decidable c] (h : Parse.Takes p n ok) :
    Parse.Takes (if c then failure else p) n fun l => ¬c ∧ ok l := by
  intro l long
  split
  next bad => exact .inr ⟨rfl, fun good => good.1 bad⟩
  next good => simpa [good] using h l long

theorem Parse.Takes.congr {ok ok' : List Byte → Prop} (h : Parse.Takes p n ok) (same : ∀ l, ok l ↔ ok' l) :
    Parse.Takes p n ok' := by
  intro l long
  rw [← same]
  exact h l long

theorem coded_takes (values : List α) : Parse.Takes (coded values) 1 fun l => byteAt l 0 < values.length := by
  intro l long
  rw [coded, Parse.bind_of_some (Parse.gives_u8 l long)]
  cases at_ : values[byteAt l 0]? with
  | none => exact .inr ⟨rfl, by simpa using at_⟩
  | some x => exact .inl ⟨⟨x, rfl⟩, (List.getElem?_eq_some_iff.1 at_).1⟩

theorem Parse.gives_u16 : Parse.Gives Parse.u16 2 fun l => 256 * byteAt l 0 + byteAt (l.drop 1) 0 :=
  Parse.gives_u8.bind fun _ => Parse.gives_u8.bind fun _ => Parse.gives_pure _

theorem Parse.gives_u32 : ∃ value, Parse.Gives Parse.u32 4 value :=
  ⟨_, Parse.gives_u16.bind fun _ => Parse.gives_u16.bind fun _ => Parse.gives_pure _⟩

theorem Parse.gives_word : ∃ value, Parse.Gives Parse.word 4 value :=
  let ⟨_, h⟩ := Parse.gives_u32
  ⟨_, h.bind fun _ => Parse.gives_pure _⟩

theorem parse24_takes : Parse.Takes parse24 3 fun _ => True :=
  (Parse.gives_u8.bind fun _ => Parse.gives_u16.bind fun _ => Parse.gives_pure _).takes

theorem Parse.gives_blank : Parse.Gives Parse.blank 4 fun l =>
    ⟨256 * byteAt l 0 + byteAt (l.drop 1) 0, byteAt (l.drop 2) 0, byteAt ((l.drop 2).drop 1) 0⟩ :=
  Parse.gives_u16.bind fun _ => Parse.gives_u8.bind fun _ => Parse.gives_u8.bind fun _ => Parse.gives_pure _

/-! ### Components -/

theorem inRange_cases (n x : Nat) : inRange n x = none ∧ ¬x < n ∨ ∃ i, inRange n x = some i ∧ x < n := by
  by_cases low : x < n
  · exact .inr ⟨⟨x, low⟩, inRange_of_lt low, low⟩
  · exact .inl ⟨inRange_out (Nat.le_of_not_lt low), low⟩

theorem BlankCode.isNull_mk (style colour size : Nat) :
    (BlankCode.mk style colour size).isNull = true ↔ style = 0 ∧ colour = 0 ∧ size = 0 := by
  simp [BlankCode.isNull, and_assoc]

theorem parseIdent_takes : Parse.Takes parseIdent 16 fun l =>
    ¬(∀ n < 4, byteAt l n = 0) ∧ byteAt l 4 < 16 ∧ byteAt l 5 < 8 ∧ 256 * byteAt l 6 + byteAt l 7 < 512 := by
  obtain ⟨word, gives_word⟩ := Parse.gives_word
  refine Parse.Takes.congr (p := parseIdent) (n := 4 + (1 + (1 + (2 + (4 + (4 + 0))))))
    (Parse.gives_blank.bind_takes fun blank => Parse.gives_u8.bind_takes fun cls => Parse.gives_u8.bind_takes fun marks =>
      Parse.gives_u16.bind_takes fun line => gives_word.bind_takes fun order =>
      gives_word.bind_takes (ok := fun _ _ => ¬blank.isNull = true ∧ cls < 16 ∧ marks < 8 ∧ line < 512) fun time l _ => ?_)
    fun l => ?_
  · obtain ⟨hc, out⟩ | ⟨c, hc, low⟩ := inRange_cases 16 cls
    · simp only [hc, out, false_and, and_false]
      exact .inr ⟨rfl, not_false⟩
    obtain ⟨hi, out⟩ | ⟨i, hi, low'⟩ := inRange_cases 512 line
    · simp only [hc, hi, out, and_false]
      exact .inr ⟨rfl, not_false⟩
    simp only [hc, hi, low, low', true_and, and_true]
    split
    next bad => exact .inr ⟨rfl, fun ⟨full, low⟩ => bad.elim full (Nat.not_le.2 low)⟩
    next good => exact .inl ⟨⟨_, rfl⟩, by simpa using good⟩
  · have null : (∀ n < 4, byteAt l n = 0) ↔ (256 * byteAt l 0 + byteAt l 1 = 0 ∧ byteAt l 2 = 0 ∧ byteAt l 3 = 0) := by
      constructor
      · intro zero
        simp [zero 0, zero 1, zero 2, zero 3]
      · rintro ⟨style, colour, size⟩ n low
        interval_cases n <;> omega
    rw [null]
    simp [byteAt_drop, byteAt_tail, BlankCode.isNull_mk]

theorem parsePretreat_takes : Parse.Takes parsePretreat 12 fun l => byteAt l 0 < 4 ∧ byteAt l 1 < 5 ∧ byteAt l 2 < 4 := by
  have all : Parse.Takes parsePretreat (1 + (1 + (1 + (3 + (3 + (3 + 0)))))) _ :=
    (coded_takes _).bind fun _ => (coded_takes _).bind fun _ => (coded_takes _).bind fun _ =>
    parse24_takes.bind fun _ => parse24_takes.bind fun _ => parse24_takes.bind fun _ => (Parse.gives_pure _).takes
  refine all.congr fun l => ?_
  simp [byteAt_drop, byteAt_tail]

theorem parsePrint_takes : Parse.Takes parsePrint 16 fun l => byteAt l 0 < 5 := by
  obtain ⟨_, gives_u32⟩ := Parse.gives_u32
  have all : Parse.Takes parsePrint (1 + (1 + (1 + (1 + (4 + (2 + (2 + (2 + (2 + 0))))))))) _ :=
    (coded_takes _).bind fun _ => (Parse.gives_u8.bind fun _ => Parse.gives_u8.bind fun _ => Parse.gives_u8.bind fun _ =>
    gives_u32.bind fun _ => Parse.gives_u16.bind fun _ => Parse.gives_u16.bind fun _ => Parse.gives_u16.bind fun _ =>
    Parse.gives_u16.bind fun _ => Parse.gives_pure _).takes
  refine all.congr fun l => ?_
  simp

theorem parseCure_takes : Parse.Takes parseCure 8 fun l => byteAt l 0 < 3 ∧ byteAt l 1 < 100 := by
  have all : Parse.Takes parseCure (1 + (1 + (2 + (2 + (2 + 0))))) _ :=
    (coded_takes _).bind fun _ => Parse.gives_u8.bind_takes fun _ => Parse.gives_u16.bind_takes fun _ =>
    Parse.gives_u16.bind_takes fun _ => Parse.gives_u16.bind_takes fun _ => (Parse.gives_pure _).takes.guard
  refine all.congr fun l => ?_
  simp [byteAt_tail, Nat.lt_succ_iff]

/-! ### A part that may be absent -/

theorem Parse.gives_many_u8 (n : Nat) : Parse.Gives (Parse.many Parse.u8 n) n fun l => (l.take n).map BitVec.toNat :=
  fun l long => Parse.many_u8_eq_some.2 ⟨l.take n, by simpa using long, (List.take_append_drop n l).symm, rfl⟩

theorem take_zero_iff {l : List Byte} (long : n ≤ l.length) :
    (((l.take n).map BitVec.toNat).all fun b => b == 0) = true ↔ ∀ k < n, byteAt l k = 0 := by
  rw [List.all_map, List.all_eq_true, List.forall_mem_iff_getElem]
  simp only [List.length_take, Nat.min_eq_left long, Function.comp_apply, beq_iff_eq, List.getElem_take, byteAt]
  exact forall₂_congr fun k low => by rw [List.getD_eq_getElem _ _ (by omega)]

/-- R160: a present part's bytes pass its reader; an absent one's are zero in FULL, and not there in COMPACT. -/
theorem RecordForm.parsePart_takes {ok : List Byte → Prop} (f : RecordForm) (present : Bool) (h : Parse.Takes p n ok) :
    Parse.Takes (f.parsePart n present p) (if present = true ∨ f = .full then n else 0) fun l =>
      (present = true → ok l) ∧ (present = false → f = .full → ∀ k < n, byteAt l k = 0) := by
  cases present with
  | true =>
    refine Parse.Takes.congr (n := n) (h.bind fun x => (Parse.gives_pure (some x)).takes) fun l => ?_
    simp
  | false =>
    cases f with
    | compact => exact (Parse.gives_pure none).takes.congr fun l => by simp
    | full =>
      intro l long
      replace long : n ≤ l.length := by simpa using long
      have e : RecordForm.full.parsePart n false p l = _ := Parse.bind_of_some (Parse.gives_many_u8 n l long)
      rw [e]
      split
      next zero => exact .inl ⟨⟨none, by simp; rfl⟩, by simpa using (take_zero_iff long).1 zero⟩
      next some_ => exact .inr ⟨rfl, by simpa using mt (take_zero_iff long).2 some_⟩

end Readers

/-! ### Records -/

section Records

variable {record : List Byte}

/-- R160 check 1 on the components of a record, byte by byte. -/
def Components.sound (c : Components) (f : RecordForm) (record : List Byte) : Prop :=
  let print := 24 + if c.pretreat = true ∨ f = .full then 12 else 0
  let cure := print + if c.print = true ∨ f = .full then 16 else 0
  (¬(∀ n < 4, byteAt record (8 + n) = 0) ∧ byteAt record 12 < 16 ∧ byteAt record 13 < 8 ∧
    256 * byteAt record 14 + byteAt record 15 < 512) ∧
  ((c.pretreat = true → byteAt record 24 < 4 ∧ byteAt record 25 < 5 ∧ byteAt record 26 < 4) ∧
    (c.pretreat = false → f = .full → ∀ n < 12, byteAt record (24 + n) = 0)) ∧
  ((c.print = true → byteAt record print < 5) ∧ (c.print = false → f = .full → ∀ n < 16, byteAt record (print + n) = 0)) ∧
  ((c.cure = true → byteAt record cure < 3 ∧ byteAt record (cure + 1) < 100) ∧
    (c.cure = false → f = .full → ∀ n < 8, byteAt record (cure + n) = 0))

/-- R160 check 1 on a record. -/
def Components.soundRecord (c : Components) (f : RecordForm) (record : List Byte) : Prop :=
  byteAt record 0 = f.code ∧ byteAt record 1 = c.mask ∧ c.ident = true ∧
  256 * byteAt record 2 + byteAt record 3 = f.length c ∧ record.length = f.length c ∧ c.sound f record

theorem Components.sizes_eq (c : Components) (f : RecordForm) (ident : c.ident = true) :
    8 + (16 + ((if c.pretreat = true ∨ f = .full then 12 else 0) + ((if c.print = true ∨ f = .full then 16 else 0) +
      ((if c.cure = true ∨ f = .full then 8 else 0) + 0)))) = f.length c := by
  cases f with
  | full => simp [RecordForm.length, fullLength]
  | compact => simp [RecordForm.length, ident, toNat_mul_eq_ite, Nat.add_assoc]; omega

/-- The components of a record read where they are sound, and nothing is then left over. -/
theorem parseComponents_iff {c : Components} {f : RecordForm} (length : Nat) (ident : c.ident = true)
    (size : record.length = f.length c) : (∃ y, (do
      let ident ← parseIdent
      let pretreat ← f.parsePart 12 c.pretreat parsePretreat
      let print ← f.parsePart 16 c.print parsePrint
      let cure ← f.parsePart 8 c.cure parseCure
      pure (ReadRecord.mk length ident pretreat print cure) : Parse ReadRecord) (record.drop 8) = some (y, [])) ↔
    c.sound f record := by
  have sizes := c.sizes_eq f ident
  have takes := parseIdent_takes.bind fun ident => (f.parsePart_takes c.pretreat parsePretreat_takes).bind fun pretreat =>
    (f.parsePart_takes c.print parsePrint_takes).bind fun print => (f.parsePart_takes c.cure parseCure_takes).bind fun cure =>
    (Parse.gives_pure (ReadRecord.mk length ident pretreat print cure)).takes
  specialize takes (record.drop 8) (by rw [List.length_drop]; omega)
  rw [List.drop_drop, sizes, ← size, List.drop_length] at takes
  simp only [byteAt_drop, List.drop_drop, and_true] at takes
  obtain ⟨⟨y, e⟩, ok⟩ | ⟨e, bad⟩ := takes
  · exact ⟨fun _ => ok, fun _ => ⟨y, e⟩⟩
  · exact ⟨fun ⟨y, e'⟩ => absurd (e.symm.trans e') nofun, fun ok => absurd ok bad⟩

theorem RecordForm.le_length {f : RecordForm} {c : Components} (ident : c.ident = true) : 24 ≤ f.length c := by
  rw [← c.sizes_eq f ident]
  omega

theorem readRecord_long {r : ReadRecord} (e : readRecord record = some r) : 24 ≤ record.length := by
  obtain ⟨-, f, -, -, size, -⟩ := readRecord_eq_some.1 e
  exact size ▸ RecordForm.le_length rfl

/-- R160 check 1: the records that read. -/
theorem readRecord_isSome_iff : (∃ r, readRecord record = some r) ↔ ∃ c f, Components.soundRecord c f record := by
  by_cases long : 8 ≤ record.length
  · obtain ⟨serial, gives_word⟩ := Parse.gives_word
    have read : parseRecord record.length record = _ :=
      (Parse.bind_of_some (Parse.gives_u8 record (by omega))).trans
      ((Parse.bind_of_some (Parse.gives_u8 _ (by rw [List.length_drop]; omega))).trans
      ((Parse.bind_of_some (Parse.gives_u16 _ (by simp only [List.length_drop]; omega))).trans
      (Parse.bind_of_some (gives_word _ (by simp only [List.length_drop]; omega)))))
    simp only [byteAt_drop, List.drop_drop, Nat.reduceAdd, Nat.add_zero] at read
    simp only [readRecord, Parse.whole_eq_some, read, Components.soundRecord, ← RecordForm.ofCode_eq_some,
      ← Components.ofMask_eq_some]
    cases hf : RecordForm.ofCode (byteAt record 0) with
    | none => simp [Parse.failure_eq_some]
    | some f =>
      cases hc : Components.ofMask (byteAt record 1) with
      | none => simp [Parse.failure_eq_some]
      | some c =>
        simp only [Parse.guard_eq_some, exists_and_left, not_or, not_not, ne_eq, Bool.not_eq_false, Option.some.injEq,
          exists_eq_left']
        constructor
        · rintro ⟨⟨ident, length, size⟩, read⟩
          exact ⟨ident, length, size, (parseComponents_iff _ ident size).1 read⟩
        · rintro ⟨ident, length, size, sound⟩
          exact ⟨⟨ident, length, size⟩, (parseComponents_iff _ ident size).2 sound⟩
  · constructor
    · rintro ⟨r, e⟩
      have := readRecord_long e
      omega
    · rintro ⟨c, f, -, -, ident, -, size, -⟩
      have := RecordForm.le_length (f := f) ident
      omega

theorem RecordForm.code_injective {f f' : RecordForm} (same : f.code = f'.code) : f = f' := by
  simpa [f.ofCode_code, f'.ofCode_code] using congrArg RecordForm.ofCode same

theorem soundRecord_iff {c : Components} {f : RecordForm} (code : byteAt record 0 = f.code) (mask : byteAt record 1 = c.mask) :
    (∃ c f, Components.soundRecord c f record) ↔
      c.ident = true ∧ 256 * byteAt record 2 + byteAt record 3 = f.length c ∧ record.length = f.length c ∧ c.sound f record := by
  constructor
  · rintro ⟨c', f', code', mask', sound⟩
    obtain rfl := RecordForm.code_injective (code.symm.trans code')
    obtain rfl := Option.some.inj (c.ofMask_mask.symm.trans ((congrArg _ (mask.symm.trans mask')).trans c'.ofMask_mask))
    exact sound
  · exact fun sound => ⟨c, f, code, mask, sound⟩

/-- R160, R181: the faults listed are those of a record that is sound for no form and components. -/
theorem malformedRecord_iff : MalformedRecord record ↔ ¬∃ c f, Components.soundRecord c f record := by
  by_cases form : 1 < byteAt record 0
  · refine iff_of_true (.inl form) ?_
    rintro ⟨c, f, code, -⟩
    cases f <;> simp only [code, RecordForm.code] at form <;> omega
  by_cases high : 16 ≤ byteAt record 1
  · refine iff_of_true (.inr (.inl high)) ?_
    rintro ⟨c, f, -, mask, -⟩
    have := c.mask_lt
    omega
  obtain ⟨f, code⟩ : ∃ f : RecordForm, byteAt record 0 = f.code := by
    obtain e | e : byteAt record 0 = 0 ∨ byteAt record 0 = 1 := by omega
    exacts [⟨.full, e⟩, ⟨.compact, e⟩]
  have mask := Components.ofMask_eq_some.1 (if_pos (Nat.lt_of_not_le high))
  rw [soundRecord_iff code mask]
  unfold MalformedRecord
  change (1 < byteAt record 0 ∨ 16 ≤ byteAt record 1 ∨ _) ↔ _
  simp only [form, high, false_or]
  have at_ : ∀ k, byteAt record k = (record.getD k 0).toNat := fun _ => rfl
  simp only [← at_]
  cases f with
  | full =>
    simp only [code, RecordForm.code, Components.sound, RecordForm.length, fullLength, or_true, if_true, true_and, Nat.reduceAdd,
      forall_const]
    grind
  | compact =>
    simp only [code, RecordForm.code, Components.sound, RecordForm.length, reduceCtorEq, or_false, if_false,
      one_ne_zero, false_and, false_or, toNat_mul_eq_ite]
    grind

end Records
end Sys2Proof.Machine
end

