-- ==== Sys2Proof/Proofs/ShelfImports.lean ====
section
/-! PROOF. SHELF_IMPORT (R160, R161). -/

namespace Sys2Proof.Machine

section Imports

variable {s t : State} {record : List Byte} {r : ReadRecord} {k : Fin 512} {l : Line} {o : Order} {j : Fin 8}

theorem shelfImport_slotless (record : List Byte) : Slotless (State.shelfImport record) :=
  fun s l x mode => State.shelfImport_slotted s l x mode record

/-- R160 check 2. -/
theorem State.namedLine_eq_some : s.namedLine r = some (k, l) ↔ r.ident.line = k ∧ s.book.lines[k] = some l ∧
    ∃ o, s.book.find r.ident.order = some o ∧ k ∈ o.lines := by
  unfold State.namedLine
  split
  next nowhere => simp [nowhere]
  next o found =>
    simp only [found, Option.some.injEq, exists_eq_left']
    split
    next on =>
      simp only [Option.map_eq_some_iff, Prod.mk.injEq]
      constructor
      · rintro ⟨l, here, rfl, rfl⟩
        exact ⟨rfl, here, on⟩
      · rintro ⟨rfl, here, -⟩
        exact ⟨l, here, rfl, rfl⟩
    next off =>
      refine iff_of_false nofun ?_
      rintro ⟨rfl, -, on⟩
      exact off on

theorem State.reserve_eq_none (found : s.book.find l.order = some o) (here : s.book.lines[k] = some l)
    (closed : o.status ≠ .opened ∨ l.status ≠ .opened) : s.reserve k = none := by
  cases e : s.reserve k with
  | none => rfl
  | some t =>
    obtain ⟨order, line, -⟩ := State.reserve_of here found e
    exact absurd line (closed.resolve_left (not_not.2 order))

@[simp] theorem State.setShelf_link (s : State) (x : Shelf) (m : Link) : (s.setShelf x).link m = s.link m := rfl

/-- R161: an import placed in its slot. -/
theorem State.placeImport_eq (t : State) (j : Fin 8) (x : Context) (l : Line) : t.placeImport j x l =
    ((t.setUnits { t.units with serial := t.freshSerial + 1 }).setShelf { t.shelf with
      slots := upd t.shelf.slots j (some ⟨x, t.book.recipes[x.ident.cls], l.placement⟩) }).raise (x.notice j .imported none) := rfl

theorem State.placeImport_keeps (t : State) (j : Fin 8) (x : Context) (l : Line) :
    t.keeps (t.placeImport j x l) [.units, .shelf, .notices] := by
  rw [State.placeImport_eq]
  intro part out
  cases part with
  | units => simp at out
  | shelf => simp at out
  | notices => simp at out
  | settings => exact fun k => by simp
  | outputs => exact fun k => ⟨rfl, rfl, rfl, rfl⟩
  | _ => rfl

/-- R161: the state after a granted import: the reservation, then the context placed. -/
def State.imported (s : State) (j : Fin 8) (r : ReadRecord) (k : Fin 512) (l : Line) (o : Order) : State :=
  ((s.setBook (s.book.withOneMore k l o)).raiseAll (s.book.noticesOfOneMore k l o)).placeImport j (r.context s.freshSerial) l

theorem State.imported_keeps : s.keeps (s.imported j r k l o) [.book, .units, .shelf, .notices] :=
  State.keeps_trans
    (State.keeps_mono (s.setBook_raiseAll_keeps (s.book.withOneMore k l o) (s.book.noticesOfOneMore k l o)) (by simp))
    (State.keeps_mono (State.placeImport_keeps _ j _ l) (by simp)) (by simp)

theorem State.reserved_freshSerial (s : State) (b : Book) (ns : List Notice) :
    ((s.setBook b).raiseAll ns).freshSerial = s.freshSerial := by
  simp [State.freshSerial, State.heldSerials]

theorem State.imported_book : (s.imported j r k l o).book = s.book.withOneMore k l o := by
  simp [State.imported, State.placeImport_eq]

theorem State.imported_units : (s.imported j r k l o).units = { s.units with serial := s.freshSerial + 1 } := by
  simp [State.imported, State.placeImport_eq, State.reserved_freshSerial]

theorem State.imported_shelf : (s.imported j r k l o).shelf = { s.shelf with
    slots := upd s.shelf.slots j
      (some ⟨r.context s.freshSerial, s.book.recipes[(r.context s.freshSerial).ident.cls], l.placement⟩) } := by
  simp [State.imported, State.placeImport_eq, Book.withOneMore]

theorem State.imported_link (named : r.ident.line = k) (m : Link) : (s.imported j r k l o).link m =
    (s.link m).offerAll s.clock.time (s.book.noticesOfOneMore k l o ++ [.shelfChange j .imported s.freshSerial
      ⟨true, r.pretreat.isSome, r.print.isSome, r.cure.isSome⟩ r.ident.order k none]) := by
  rw [State.imported, State.placeImport_eq, State.raise_link, ← LinkState.offerAll_concat]
  simp [Context.notice, ReadRecord.context, Context.present, named]

/-- R161: a granted import. -/
theorem State.shelfImport_of (read : Machine.readRecord record = some r) (named : s.namedLine r = some (k, l))
    (blank : l.blank = r.ident.blank) (free : s.freeShelf = some j) (found : s.book.find l.order = some o)
    (order : o.status = .opened) (line : l.status = .opened) : State.shelfImport record s =
      (s.imported j r k l o).accept [.u8 j.val, .word s.freshSerial] := by
  obtain ⟨-, here, -⟩ := State.namedLine_eq_some.1 named
  have granted := State.reserve_granted here found order line
  obtain ⟨-, -, after⟩ := State.reserve_of here found granted
  rw [after] at granted
  simp only [State.shelfImport, read, named, blank, ne_eq, not_true_eq_false, if_false, free, granted,
    State.reserved_freshSerial, State.imported]

end Imports
end Sys2Proof.Machine

section
open Sys2Proof.Machine

/-- Settles O52: the readers accept exactly the bytes of what they give, and an accepted import is placed after its line's
reservation. -/
theorem importReadsExportedRecord : Obligations.ImportReadsExportedRecord := by
  refine ⟨fun c f orphan fits => ⟨encode_record_length c f orphan, c.read f orphan, readRecord_record f orphan fits,
    c.read_context f orphan⟩, encode_record, fun record => ⟨?_, fun r read => ?_⟩, fun v record s ready => ?_⟩
  · rw [malformedRecord_iff, ← readRecord_isSome_iff, Option.eq_none_iff_forall_ne_some, not_exists]
  · obtain ⟨-, f, serial, length, size, bytes⟩ := readRecord_eq_some.1 read
    exact ⟨f, serial, bytes.trans (encode_record _ _ _), length.trans size.symm⟩
  have slotless := shelfImport_slotless record
  refine ⟨fun bad => refused_of slotless ready rfl (by simp only [State.shelfImport, bad]), fun r read => ?_⟩
  refine ⟨fun unnamed => ?_, fun k l named => ?_⟩
  · have none_ : s.namedLine r = none := by
      rw [Option.eq_none_iff_forall_ne_some]
      exact fun ⟨k, l⟩ e => unnamed k l (State.namedLine_eq_some.1 e)
    exact refused_of slotless ready rfl (by simp only [State.shelfImport, read, none_])
  obtain ⟨line, here, -⟩ := id named
  have named := State.namedLine_eq_some.2 named
  refine ⟨fun other => ?_, fun blank => ⟨fun full => ?_, fun j empty lowest o found => ⟨fun closed => ?_, fun order opened => ?_⟩⟩⟩
  · exact refused_of slotless ready rfl (by simp [State.shelfImport, read, named, other])
  · exact refused_of slotless ready rfl (by simp [State.shelfImport, read, named, blank, State.freeShelf_full full])
  · exact refused_of slotless ready rfl (by simp [State.shelfImport, read, named, blank, State.freeShelf_lowest empty lowest,
      State.reserve_eq_none found here closed])
  have done := State.shelfImport_of read named blank (State.freeShelf_lowest empty lowest) found order opened
  obtain ⟨t, answered, kept⟩ := answered_of (i := .shelfImport v record) slotless ready rfl done
  exact ⟨s.freshSerial, s.freshSerial_first, t, answered, State.keeps_done State.imported_keeps kept (by simp),
    (kept .book (by simp)).trans State.imported_book, (kept .units (by simp)).trans State.imported_units,
    (kept .shelf (by simp)).trans State.imported_shelf, State.notified_of_keeps (State.imported_link line) kept⟩

end
end

