-- ==== Sys2Proof/Proofs/ArtOpens.lean ====
section
/-! PROOF. ART_OPEN (R68 to R70). -/

namespace Sys2Proof.Machine

section Opens

variable {s : State} {f : ArtFormat} {format palette width height stride base : Nat} {crc : Word} {h : Fin 64}

theorem artOpen_slotless (format palette width height stride base : Nat) (crc : Word) :
    Slotless (State.artOpen format palette width height stride base crc) :=
  fun s l x mode => State.artOpen_slotted s l x mode format palette width height stride base crc

/-- R69 check 1. -/
theorem ArtFormat.ofCode_out (out : 3 ≤ format) : ArtFormat.ofCode format = none := by
  obtain ⟨n, rfl⟩ := Nat.exists_eq_add_of_le' out
  rfl

/-- R68: two pixels of a four-bit format share a byte. -/
theorem ArtFormat.rowBytes_idx4 (width : Nat) : ArtFormat.idx4.rowBytes width = (width + 1) / 2 := by
  simp only [ArtFormat.rowBytes, ceilDiv]
  omega

theorem ArtFormat.rowBytes_pos (f : ArtFormat) (wide : 0 < width) : 0 < f.rowBytes width := by
  cases f with
  | idx4 => rw [ArtFormat.rowBytes_idx4]; omega
  | idx8 => exact wide
  | cmyka => exact Nat.mul_pos (by decide) wide

/-- R69 check 2, each way that it fails. -/
theorem artInRange_eq_false : artInRange f palette width height stride base = false ↔
    width = 0 ∨ 8192 < width ∨ height = 0 ∨ 8192 < height ∨ (f ≠ .cmyka ∧ 8 ≤ palette) ∨ base % 16 ≠ 0 ∨
      stride < f.rowBytes width ∨ 65535 < stride ∨ 0x7BFFFFF < base + stride * height - 1 := by
  rw [artInRange, decide_eq_false_iff_not, artAreaStop, ringBase]
  by_cases direct : f = .cmyka <;> simp only [direct, ne_eq, not_true_eq_false, not_false_eq_true, true_or, false_or,
    true_and, false_and] <;> omega

/-- An extent in range is not empty. -/
theorem artInRange_pos (inside : artInRange f palette width height stride base = true) : 0 < stride * height := by
  obtain ⟨wide, -, high, -, -, -, row, -⟩ := of_decide_eq_true inside
  exact Nat.mul_pos ((f.rowBytes_pos wide).trans_le row) high

/-- R69 check 4. -/
theorem State.artOverlaps_iff {first stop : Nat} : s.artOverlaps first stop = true ↔
    ∃ (k : Fin 64) (d : Art), s.art k = some d ∧ first < d.stop ∧ d.base < stop := by
  rw [State.artOverlaps, List.any_eq_true]
  constructor
  · rintro ⟨o, mem, shares⟩
    obtain ⟨k, bound, rfl⟩ := Vector.getElem_of_mem (Vector.mem_toList_iff.1 mem)
    split at shares
    · cases shares
    next d here => exact ⟨⟨k, bound⟩, d, here, of_decide_eq_true shares⟩
  · rintro ⟨k, d, here, shares⟩
    refine ⟨some d, ?_, decide_eq_true shares⟩
    rw [Vector.mem_toList_iff, ← here]
    exact Vector.getElem_mem _

/-- Where an index is the least that passes a test, the search over all indices finds it. -/
theorem finRange_find?_least {n : Nat} {p : Fin n → Bool} {k : Fin n} (passes : p k = true)
    (least : ∀ j < k, p j = false) : (List.finRange n).find? p = some k := by
  refine List.find?_eq_some_iff_getElem.2 ⟨passes, k.val, by simp, by simp, fun j below => ?_⟩
  simpa using least ⟨j, below.trans k.isLt⟩ below

theorem State.freeArt_lowest (free : s.art h = none) (lowest : ∀ k < h, s.art k ≠ none) : s.freeArt = some h :=
  finRange_find?_least (Option.isNone_iff_eq_none.2 free) fun k below => Option.isNone_eq_false_iff.2
    (Option.isSome_iff_ne_none.2 (lowest k below))

theorem State.freeArt_full (full : ∀ k, s.art k ≠ none) : s.freeArt = none :=
  List.find?_eq_none.2 fun k _ => by simpa [State.art] using full k

/-- R69 checks 3 and 4, and R70. -/
theorem State.artOpen_of (read : ArtFormat.ofCode format = some f)
    (inside : artInRange f palette width height stride base = true) (free : s.freeArt = some h) {p : Fin 8}
    (inks : p.val = if f = .cmyka then 0 else palette) : State.artOpen format palette width height stride base crc s =
      if s.artOverlaps base (base + stride * height) then s.refuse .overlap
      else ((s.putArt h (some ⟨.loading, f, p, width, height, stride, base, crc, none, 0⟩)).raise
        (.artState h .loading crc none)).accept [.u8 h.val, .u32 (base + stride * height - 1)] := by
  cases f with
  | cmyka =>
    obtain rfl : p = 0 := Fin.ext inks
    simp only [State.artOpen, read, inside, free]
    rfl
  | idx4 | idx8 =>
    obtain rfl : p.val = palette := inks
    simp only [State.artOpen, read, inside, free, inRange_val]
    rfl

end Opens
end Sys2Proof.Machine

section
open Sys2Proof.Machine

/-- Settles O33: R69's checks in their order, each as the handler makes it. -/
theorem artOpenTakesLowestFree : Obligations.ArtOpenTakesLowestFree := by
  intro v format palette width height stride base crc s r
  have slotless := artOpen_slotless format palette width height stride base crc
  refine ⟨fun out => refused_of slotless r rfl (by simp only [State.artOpen, ArtFormat.ofCode_out out]), fun f read => ?_⟩
  intro rowBytes wrong
  have row : rowBytes = f.rowBytes width := by
    cases f with
    | idx4 => exact (ArtFormat.rowBytes_idx4 width).symm
    | idx8 | cmyka => rfl
  have range : artInRange f palette width height stride base = false ↔ wrong := by rw [artInRange_eq_false, ← row]
  refine ⟨fun bad => refused_of slotless r rfl (by simp only [State.artOpen, read, range.2 bad, if_true]),
    fun good full => ?_, fun good h free lowest => ?_⟩
  all_goals have inside : artInRange f palette width height stride base = true := by simpa using mt range.1 good
  · exact refused_of slotless r rfl (by simp [State.artOpen, read, inside, State.freeArt_full full])
  intro meets
  have free := State.freeArt_lowest free lowest
  have filled := artInRange_pos inside
  refine ⟨fun ⟨k, d, there, before, after, some_⟩ => ?_, fun apart sound p inks => ?_⟩
  · have overlap : s.artOverlaps base (base + stride * height) = true :=
      State.artOverlaps_iff.2 ⟨k, d, there, by rw [Art.stop]; omega, by omega⟩
    exact refused_of slotless r rfl (by simp [State.artOpen, read, inside, free, Art.stop, overlap])
  · have clear : s.artOverlaps base (base + stride * height) ≠ true := fun overlap => by
      obtain ⟨k, d, there, before, after⟩ := State.artOverlaps_iff.1 overlap
      rw [Art.stop] at before
      exact apart ⟨k, d, there, by omega, by omega, sound k d there⟩
    exact done_of slotless r rfl ((State.artOpen_of read inside free inks).trans (if_neg clear))

end
end

