-- ==== Sys2Proof/Proofs/ArtWrites.lean ====
section
/-! PROOF. ART_WRITE and the end of its bursts (R71, R172). -/

namespace Sys2Proof.Machine

section Writes

variable {s : State} {h : Fin 64} {d : Art} {data : List Byte}

theorem artWrite_slotless (link : Link) (handle offset : Nat) (data : List Byte) :
    Slotless (State.artWrite link handle offset data) :=
  fun s l x mode => State.artWrite_slotted s l x mode link handle offset data

theorem State.artWrite_length (link : Link) (h : Fin 64) (offset : Nat) (bad : data = [] ∨ 480 < data.length) :
    State.artWrite link h.val offset data s = s.refuse .malformed := by
  simp only [State.artWrite, inRange_val, List.length_eq_zero_iff, bad, if_true]

/-- R71: only a LOADING descriptor is written. -/
theorem State.artWrite_state (link : Link) (offset : Nat) (some_ : data ≠ []) (fits : data.length ≤ 480)
    (no : ∀ d, s.art h = some d → d.status ≠ .loading) : State.artWrite link h.val offset data s = s.refuse .state := by
  have good : ¬(data.length = 0 ∨ 480 < data.length) := by simp [some_, fits]
  simp only [State.artWrite, inRange_val, good, if_false]
  split
  · rfl
  next d here => exact if_pos (no d here)

theorem State.artWrite_of (link : Link) (offset : Nat) (some_ : data ≠ []) (fits : data.length ≤ 480)
    (here : s.art h = some d) (loading : d.status = .loading) : State.artWrite link h.val offset data s =
      if d.stride * d.height < offset + data.length then s.refuse .range
      else ({ s with store := { s.store with write := some ⟨link, d.base + offset, data⟩ } }, none) := by
  have good : ¬(data.length = 0 ∨ 480 < data.length) := by simp [some_, fits]
  simp only [State.artWrite, inRange_val, good, if_false, here, loading, ne_eq, not_true_eq_false]
  rfl

/-- R71: while bytes are left there is no reply. -/
theorem State.artWriteComplete_waits (left : ∀ l a, s.store.write ≠ some ⟨l, a, []⟩) : s.artWriteComplete = s := by
  unfold State.artWriteComplete
  split
  next l a spent => exact absurd spent (left l a)
  · rfl

theorem State.artWriteComplete_of {l : Link} {a : Nat} (spent : s.store.write = some ⟨l, a, []⟩) : s.artWriteComplete =
    { s with store := { s.store with write := none } }.answer l ⟨.ok, []⟩ := by
  simp only [State.artWriteComplete, spent]
  rfl

/-- R172: a powered event that answers a request being worked on leaves the reply ready, or in reply mode SILENT the slot
FREE, and nothing else changes. -/
theorem answers_of {i : Instr} {f : State → State} {u : State} {l : Link} {a : Answer} {tag kind : Nat}
    (e : exec i s = event f s) (powered : s.resetLow = false) (effect : f s = u.answer l a) (links : u.links = s.links)
    (works : (s.link l).slot = .inFlight tag kind .working) :
    ∃ t, exec i s = .next t ∧ u.keeps t [] ∧
      (t.link l).slot = (if (s.link l).silent then .free else .inFlight tag kind (.ready a)) ∧
      ∀ m, m ≠ l → (t.link m).slot = (s.link m).slot := by
  have same (m : Link) : u.link m = s.link m := by rw [State.link, State.link, links]
  refine ⟨(u.answer l a).settle, by rw [e, event_powered f s powered, effect], ?_, ?_, fun m other => ?_⟩
  · rw [State.answer_eq_slotted]
    exact u.keeps_slotted_settle _ _ _
  · rw [State.settle_link, LinkState.kick_slot, State.answer, State.putLink_link_self, same]
    exact LinkState.complete_working a works
  · rw [State.settle_link, LinkState.kick_slot, State.answer_link_ne u l m a other.symm, same]

end Writes
end Sys2Proof.Machine

section
open Sys2Proof.Machine

/-- Settles O34: R71's checks in their order; the end of the write by whether bytes are left. -/
theorem artWriteRunsToItsReply : Obligations.ArtWriteRunsToItsReply := by
  refine ⟨fun v handle offset data s r => ⟨fun out => ?_, ?_⟩, fun s high => ⟨fun left => ?_, fun l a tag kind spent works => ?_⟩⟩
  · exact refused_of (artWrite_slotless v.link handle offset data) r rfl (by simp only [State.artWrite, inRange_out out])
  · rintro h rfl
    have slotless := artWrite_slotless v.link h.val offset data
    refine ⟨fun bad => refused_of slotless r rfl (State.artWrite_length v.link h offset bad), fun some_ fits =>
      ⟨fun no => refused_of slotless r rfl (State.artWrite_state v.link offset some_ fits no), fun d here loading => ?_⟩⟩
    have write := State.artWrite_of v.link offset some_ fits here loading
    exact ⟨fun long => refused_of slotless r rfl (write.trans (if_pos long)),
      fun within => begun_of slotless r rfl (write.trans (if_neg (Nat.not_lt.2 within)))⟩
  · exact leads_of rfl high (State.artWriteComplete_waits left) fun _ => rfl
  · exact answers_of rfl high (State.artWriteComplete_of spent) rfl works

end
end

