-- ==== Sys2Proof/Proofs/ArbiterGrants.lean ====
section
/-! PROOF. What the four requesters ask for, and the arbiter's grants (R71, R73, R80, R126, R129). -/

namespace Sys2Proof.Machine

/-! ### Waiting requests -/

section Requests

variable {s : State} {u : RasterUnit} {g : Garment} {b : Binding} {e : Rect}

theorem State.pullBurst_none (h : s.ring.pull = none) : s.pullBurst = none := by
  simp only [State.pullBurst, h]

theorem State.pullBurst_of {x : Pull} (h : s.ring.pull = some x) :
    s.pullBurst = if x.next < x.stop then some ⟨x.next / 64 * 64, .read⟩ else none := by
  simp only [State.pullBurst, h, blockOf]

theorem State.verifying_of {h : Fin 64} {rest : List (Fin 64)} {d : Art} (queued : s.store.verifyQueue = h :: rest)
    (here : s.art h = some d) : s.verifying = some (h, d) := by
  simp only [State.verifying, queued, here, Option.map_some]

theorem State.verifyBurst_none (h : s.store.verify = none ∨ s.store.verifyQueue = []) : s.verifyBurst = none := by
  unfold State.verifyBurst
  split
  next running head =>
    rcases h with idle | empty
    · simp [idle] at running
    · simp [State.verifying, empty] at head
  · rfl

theorem State.verifyBurst_of {v : VerifyPass} {h : Fin 64} {d : Art} (running : s.store.verify = some v)
    (head : s.verifying = some (h, d)) : s.verifyBurst =
      if v.row < d.height then some ⟨(d.base + v.row * d.stride + v.pos) / 64 * 64, .read⟩ else none := by
  simp only [State.verifyBurst, running, head, VerifyPass.at]
  split <;> rfl

theorem State.writeBurst_none (h : s.store.write = none) : s.writeBurst = none := by
  simp only [State.writeBurst, h]

theorem State.writeBurst_of {x : ArtWrite} (h : s.store.write = some x) : s.writeBurst =
    if x.data = [] then none else some ⟨x.next / 64 * 64, .write x.next (x.data.take (64 - x.next % 64))⟩ := by
  simp only [State.writeBurst, h]
  cases data : x.data with
  | nil => rfl
  | cons c r => rfl

theorem State.engineBurst_none (h : s.engine.unit = none) : s.engineBurst = none := by
  simp only [State.engineBurst, h]

theorem State.engineBurst_read {row block : Nat} {r : List (Nat × Nat)} (h : s.engine.unit = some u)
    (reads : u.reads = (row, block) :: r) : s.engineBurst = some ⟨block, .read⟩ := by
  simp only [State.engineBurst, h, reads]

theorem State.engineBurst_finished (h : s.engine.unit = some u) (reads : u.reads = []) (writes : u.writes = []) :
    s.engineBurst = none := by
  simp only [State.engineBurst, h, reads, writes]

theorem State.unitGarment_of (here : s.garment u.platen = some g) (same : g.serial = u.serial) (bound : g.binding = some b) :
    s.unitGarment u = some (g, b) := by
  simp only [State.unitGarment, here, same, if_true, bound, Option.map_some]

/-- R126: the bytes of a swath that lie in a block. -/
theorem State.swathBlock_of (unit : s.unitGarment u = some (g, b)) (extent : s.extent b.placement = some e)
    (phase : SwathPhase) (index : Nat) (slot : Fin 4) (block : Nat) :
    ∃ bytes, s.swathBlock u phase index slot block = .write (max block (slotBase slot)) bytes ∧
      bytes.length = min (block + 64) (slotBase slot + (swathShape e phase index).length) - max block (slotBase slot) ∧
      ∀ n, n < bytes.length → bytes[n]? = some ((s.pixelInputs b.recipe b.placement).swathByte (swathShape e phase index)
        (max block (slotBase slot) - slotBase slot + n)) := by
  simp only [State.swathBlock, unit, extent]
  refine ⟨_, rfl, by simp, fun n below => ?_⟩
  rw [List.length_map, List.length_range] at below
  simp [below]

theorem State.engineBurst_write {row block : Nat} {r : List (Nat × Nat)} {q : Nat} {phase : SwathPhase} {index : Nat}
    {slot : Fin 4} (h : s.engine.unit = some u) (reads : u.reads = []) (writes : u.writes = (row, block) :: r)
    (kind : u.kind = .swath q phase index slot) : s.engineBurst = some ⟨block, s.swathBlock u phase index slot block⟩ := by
  simp only [State.engineBurst, h, reads, writes, kind]

end Requests

/-! ### The choice (R80) -/

section Choice

variable {s : State} {b : Burst} {x : Requester × Burst}

theorem State.classOneTwo_pull (h : s.pullBurst = some b) : s.classOneTwo = some (.pull, b) := by
  simp only [State.classOneTwo, h]

theorem State.classOneTwo_engine (pull : s.pullBurst = none) (h : s.engineBurst = some b) :
    s.classOneTwo = some (.engine, b) := by
  simp only [State.classOneTwo, pull, h]

theorem State.classOneTwo_none (pull : s.pullBurst = none) (engine : s.engineBurst = none) : s.classOneTwo = none := by
  simp only [State.classOneTwo, pull, engine]

theorem State.classThree_none (h : ¬(s.verifyBurst ≠ none ∨ s.writeBurst ≠ none)) : s.classThree = none := by
  obtain ⟨verify, write⟩ := not_or.1 h
  simp only [State.classThree, not_not.1 verify, not_not.1 write]

/-- R80: the turn mark decides where both of class 3 wait. -/
theorem State.classThree_verify (h : s.verifyBurst = some b) (turn : s.writeBurst = none ∨ s.arbiter.turn = .verify) :
    s.classThree = some (.verify, b) := by
  cases write : s.writeBurst with
  | none => simp only [State.classThree, h, write]
  | some w =>
    have mine := turn.resolve_left (by simp [write])
    simp only [State.classThree, h, write, mine]

theorem State.classThree_write (h : s.writeBurst = some b) (turn : s.verifyBurst = none ∨ s.arbiter.turn = .write) :
    s.classThree = some (.write, b) := by
  cases verify : s.verifyBurst with
  | none => simp only [State.classThree, h, verify]
  | some w =>
    have mine := turn.resolve_left (by simp [verify])
    simp only [State.classThree, h, verify, mine]

/-- R80 steps 2 and 3: class 3 does not wait, or has not waited long enough. -/
theorem State.chosen_oneTwo (h : s.classOneTwo = some x) (first : s.arbiter.fairness < 64 ∨ s.classThree = none) :
    s.chosen = some x := by
  cases three : s.classThree with
  | none => simp only [State.chosen, h, three]
  | some y =>
    have fair := first.resolve_right (by simp [three])
    simp only [State.chosen, h, three, fairnessLimit, Nat.not_le.2 fair, if_false]

/-- R80 steps 1 and 4: nothing else waits, or class 3 has waited long enough. -/
theorem State.chosen_three (h : s.classThree = some x) (first : 64 ≤ s.arbiter.fairness ∨ s.classOneTwo = none) :
    s.chosen = some x := by
  cases others : s.classOneTwo with
  | none => simp only [State.chosen, h, others]
  | some y =>
    have unfair := first.resolve_right (by simp [others])
    simp only [State.chosen, h, others, fairnessLimit, unfair, if_true]

end Choice

/-! ### The grant (R80, log 20) -/

section Grants

variable {s : State} {r : Requester} {b : Burst}

theorem execArbiterGrant_idle (h : s.arbiter.port ≠ none ∨ s.chosen = none) : execArbiterGrant s = event id s := by
  unfold execArbiterGrant
  split
  next free chosen => exact absurd chosen (by simp [h.resolve_left (not_not.2 free)])
  · rfl

/-- What is chosen is granted, unless its block lies beyond the art memory. -/
theorem arbiterGrant_of (high : s.resetLow = false) (free : s.arbiter.port = none) (chosen : s.chosen = some (r, b)) :
    (0x8000000 < b.block + 64 → exec .arbiterGrant s = .fault (.noSuchArtAddress b.block)) ∧
    (b.block + 64 ≤ 0x8000000 → Leads .arbiterGrant s { s with arbiter := s.arbiter.granted r b }) := by
  have grant : exec .arbiterGrant s = if artMemorySize < b.block + 64 then .fault (.noSuchArtAddress b.block)
      else event (fun s => s.setArbiter (s.arbiter.granted r b)) s := by
    show execArbiterGrant s = _
    simp only [execArbiterGrant, free, chosen, high, Bool.false_eq_true, if_false]
  exact ⟨fun beyond => grant.trans (if_pos beyond),
    fun within => leads_of (grant.trans (if_neg (Nat.not_lt.2 within))) high rfl fun _ => rfl⟩

end Grants
end Sys2Proof.Machine

section
open Sys2Proof.Machine

/-- Settles O38: each requester by its transfer, and R80's steps by the class that waits. -/
theorem arbiterGrantsByClass : Obligations.ArbiterGrantsByClass := by
  refine ⟨fun s => ⟨State.pullBurst_none, fun _ => State.pullBurst_of, State.verifyBurst_none,
    fun v h rest d running queued here => State.verifyBurst_of running (State.verifying_of queued here),
    State.writeBurst_none, fun _ => State.writeBurst_of, State.engineBurst_none, fun u unit =>
    ⟨fun _ _ _ => State.engineBurst_read unit, State.engineBurst_finished unit, ?_⟩⟩, fun s high => ?_⟩
  · intro row block r q phase index slot g b e reads writes kind here same bound extent
    obtain ⟨bytes, swath, rest⟩ := State.swathBlock_of (State.unitGarment_of here same bound) extent phase index slot block
    exact ⟨bytes, swath ▸ State.engineBurst_write unit reads writes kind, rest⟩
  · refine ⟨fun busy => leads_of (execArbiterGrant_idle (.inl busy)) high rfl fun _ => rfl, fun pull engine three => ?_,
      fun free => ⟨fun first => ⟨fun b pull => ?_, fun b pull engine => ?_⟩,
        fun first => ⟨fun b verify turn => ?_, fun b write turn => ?_⟩⟩⟩
    · have nothing : s.chosen = none := by
        simp only [State.chosen, State.classOneTwo_none pull engine, State.classThree_none three]
      exact leads_of (execArbiterGrant_idle (.inr nothing)) high rfl fun _ => rfl
    · exact arbiterGrant_of high free (State.chosen_oneTwo (State.classOneTwo_pull pull) (first.imp_right State.classThree_none))
    · exact arbiterGrant_of high free
        (State.chosen_oneTwo (State.classOneTwo_engine pull engine) (first.imp_right State.classThree_none))
    all_goals have first := first.imp_right fun ⟨pull, engine⟩ => State.classOneTwo_none pull engine
    · exact arbiterGrant_of high free (State.chosen_three (State.classThree_verify verify turn) first)
    · exact arbiterGrant_of high free (State.chosen_three (State.classThree_write write turn) first)

end
end

