-- ==== Sys2Proof/Proofs/Bursts.lean ====
section
/-! PROOF. The CRC-32 and the bursts completed (R71, R73, R74, R80, R81, R101, R129). -/

namespace Sys2Proof.Machine

/-! ### The CRC-32 (R74) -/

theorem crc32Feed_concat (r : Word) (bytes : List Byte) (b : Byte) :
    crc32Feed r (bytes ++ [b]) = crc32Step^[8] (crc32Feed r bytes ^^^ b.setWidth 32) := by
  rw [crc32Feed, List.foldl_concat]
  rfl

theorem crc32_check : ~~~crc32Feed 0xFFFFFFFF [0x31, 0x32, 0x33, 0x34, 0x35, 0x36, 0x37, 0x38, 0x39] = 0xCBF43926 := by
  decide +kernel

/-! ### Frames of work that touches no link -/

/-- Where no link changes first, frames compose, the notices included. -/
theorem State.keeps_trans_of_links {s u t : State} {parts : List Part} (links : u.links = s.links) (h : s.keeps u parts)
    (k : u.keeps t parts) : s.keeps t parts := by
  intro p out
  by_cases n : p = .notices
  · subst n
    intro l
    have same : u.link l = s.link l := congrArg (Links.get · l) links
    exact same ▸ k .notices out l
  · exact State.keeps_trans (State.keeps_mono h (List.subset_cons_self .notices parts))
      (State.keeps_mono k (List.subset_cons_self _ _)) List.mem_cons_self p (by simp [n, out])

/-! ### What a burst moves (R80, R81) -/

section Moves

variable {s : State} {d : BurstData} {g : Granted}

/-- The memory after a burst. -/
def BurstData.stored : BurstData → Memory → Memory
  | .read, m => m
  | .write start bytes, m => m.writeRun start bytes

theorem BurstData.stored_wf (d : BurstData) {m : Memory} (h : m.wf = true) : (d.stored m).wf = true := by
  cases d with
  | read => exact h
  | write start bytes => exact Memory.writeRun_wf bytes m start h

/-- R81: the port is free and written bytes stand in memory, whatever became of the work. -/
def State.moved (s : State) (d : BurstData) : State :=
  { s with arbiter := { s.arbiter with port := none }, mem := d.stored s.mem }

theorem State.burstComplete_free (h : s.arbiter.port = none) : s.burstComplete = s := by
  simp only [State.burstComplete, h]

theorem State.burstComplete_of (h : s.arbiter.port = some g) : s.burstComplete =
    if g.fate = .live then (s.moved g.burst.data).deliver g else s.moved g.burst.data := by
  simp only [State.burstComplete, h]
  cases g.burst.data <;> rfl

@[simp] theorem State.moved_links (s : State) (d : BurstData) : (s.moved d).links = s.links := rfl

theorem State.moved_keeps (s : State) (d : BurstData) : s.keeps (s.moved d) [.arbiter, .mem] := by
  intro p out
  cases p with
  | arbiter | mem => simp at out
  | notices => exact fun l => ⟨rfl, rfl, .inl rfl⟩
  | settings => exact fun l => ⟨rfl, rfl, rfl, rfl⟩
  | outputs => exact fun i => ⟨rfl, rfl, rfl, rfl⟩
  | _ => rfl

end Moves

/-! ### What a burst brings its requester (R71, R73, R101, R129) -/

section Delivers

variable {s : State} {g : Granted}

/-- A delivery changes its requester's work alone. -/
theorem State.deliver_cases (s : State) (g : Granted) : ∃ store ring engine,
    s.deliver g = { s with store := store, ring := ring, engine := engine } ∧
    (g.requester ≠ .pull → ring = s.ring) ∧ (g.requester ≠ .engine → engine = s.engine) ∧
    (g.requester = .pull ∨ g.requester = .engine → store = s.store) := by
  unfold State.deliver
  split
  next pull =>
    refine ⟨s.store, (s.deliverPull g.burst.block).ring, s.engine, ?_, fun no => absurd pull no, fun _ => rfl, fun _ => rfl⟩
    unfold State.deliverPull
    split <;> rfl
  next engine =>
    refine ⟨s.store, s.ring, (s.deliverEngine g.burst.data).engine, ?_, fun _ => rfl, fun no => absurd engine no, fun _ => rfl⟩
    unfold State.deliverEngine
    split <;> rfl
  next verify =>
    refine ⟨(s.deliverVerify g.burst.block).store, s.ring, s.engine, ?_, fun _ => rfl, fun _ => rfl, by simp [verify]⟩
    unfold State.deliverVerify
    split <;> rfl
  next bytes write _ =>
    refine ⟨(s.deliverWrite bytes).store, s.ring, s.engine, ?_, fun _ => rfl, fun _ => rfl, by simp [write]⟩
    unfold State.deliverWrite
    split <;> rfl
  · exact ⟨s.store, s.ring, s.engine, rfl, fun _ => rfl, fun _ => rfl, fun _ => rfl⟩

theorem State.deliver_links (s : State) (g : Granted) : (s.deliver g).links = s.links := by
  obtain ⟨store, ring, engine, e, -⟩ := s.deliver_cases g
  rw [e]

theorem State.deliver_arbiter (s : State) (g : Granted) : (s.deliver g).arbiter = s.arbiter := by
  obtain ⟨store, ring, engine, e, -⟩ := s.deliver_cases g
  rw [e]

theorem State.deliver_mem (s : State) (g : Granted) : (s.deliver g).mem = s.mem := by
  obtain ⟨store, ring, engine, e, -⟩ := s.deliver_cases g
  rw [e]

theorem State.deliver_keeps (s : State) (g : Granted) : s.keeps (s.deliver g) [.store, .ring, .engine] := by
  obtain ⟨store, ring, engine, e, -⟩ := s.deliver_cases g
  rw [e]
  intro p out
  cases p with
  | store | ring | engine => simp at out
  | notices => exact fun l => ⟨rfl, rfl, .inl rfl⟩
  | settings => exact fun l => ⟨rfl, rfl, rfl, rfl⟩
  | outputs => exact fun i => ⟨rfl, rfl, rfl, rfl⟩
  | _ => rfl

theorem State.deliver_ring (no : g.requester ≠ .pull) : (s.deliver g).ring = s.ring := by
  obtain ⟨store, ring, engine, e, same, -⟩ := s.deliver_cases g
  rw [e]
  exact same no

theorem State.deliver_engine (no : g.requester ≠ .engine) : (s.deliver g).engine = s.engine := by
  obtain ⟨store, ring, engine, e, -, same, -⟩ := s.deliver_cases g
  rw [e]
  exact same no

theorem State.deliver_store (other : g.requester = .pull ∨ g.requester = .engine) : (s.deliver g).store = s.store := by
  obtain ⟨store, ring, engine, e, -, -, same⟩ := s.deliver_cases g
  rw [e]
  exact same other

/-- R129: the pull takes the bytes of its block. -/
theorem State.deliver_pull {x : Pull} (pull : g.requester = .pull) (here : s.ring.pull = some x) : (s.deliver g).ring =
    { s.ring with pull := some { x with
      next := min (g.burst.block + 64) x.stop
      bytes := x.bytes ++ s.mem.readRun x.next (min (g.burst.block + 64) x.stop - x.next) } } := by
  simp only [State.deliver, pull, State.deliverPull, here]
  rfl

/-- R71: the write drops the bytes that stand in memory. -/
theorem State.deliver_write {x : ArtWrite} {start : Nat} {bytes : List Byte} (write : g.requester = .write)
    (data : g.burst.data = .write start bytes) (here : s.store.write = some x) : (s.deliver g).store =
      { s.store with write := some { x with next := x.next + bytes.length, data := x.data.drop bytes.length } } := by
  simp only [State.deliver, write, data, State.deliverWrite, here]
  rfl

/-- R101: the engine's unit drops the read at the head of its plan. -/
theorem State.deliver_engine_read {u : RasterUnit} (engine : g.requester = .engine) (data : g.burst.data = .read)
    (here : s.engine.unit = some u) : (s.deliver g).engine =
      { s.engine with unit := some (u.after u.reads.tail u.writes) } := by
  simp only [State.deliver, engine, data, State.deliverEngine, here]
  rfl

/-- R101: the engine's unit drops the write at the head of its plan. -/
theorem State.deliver_engine_write {u : RasterUnit} {start : Nat} {bytes : List Byte} (engine : g.requester = .engine)
    (data : g.burst.data = .write start bytes) (here : s.engine.unit = some u) : (s.deliver g).engine =
      { s.engine with unit := some (u.after u.reads u.writes.tail) } := by
  simp only [State.deliver, engine, data, State.deliverEngine, here]
  rfl

/-- R73: the pass takes the bytes of its row that lie in the block. -/
theorem VerifyPass.feed_of (v : VerifyPass) (d : Art) (block : Nat) (m : Memory) (left : v.row < d.height) :
    v.feed d block m =
      let first := d.base + v.row * d.stride + v.pos
      let rowStop := d.base + v.row * d.stride + d.rowBytes
      let stop := min (block + 64) rowStop
      let crc := crc32Feed v.crc (m.readRun first (stop - first))
      if stop = rowStop then ⟨v.row + 1, 0, crc⟩ else ⟨v.row, v.pos + (stop - first), crc⟩ := by
  simp only [VerifyPass.feed, VerifyPass.at, left, if_true]

theorem State.deliver_verify {v : VerifyPass} {h : Fin 64} {d : Art} (verify : g.requester = .verify)
    (running : s.store.verify = some v) (head : s.verifying = some (h, d)) : (s.deliver g).store =
      { s.store with
        arts := upd s.store.arts h (some { d with rowsChecked := (v.feed d g.burst.block s.mem).row })
        verify := some (v.feed d g.burst.block s.mem) } := by
  simp only [State.deliver, verify, State.deliverVerify, running, head]
  rfl

end Delivers

/-! ### The completed burst -/

section Completes

variable {s : State} {g : Granted}

theorem State.burstComplete_links (h : s.arbiter.port = some g) : s.burstComplete.links = s.links := by
  rw [State.burstComplete_of h]
  split
  · exact State.deliver_links _ g
  · rfl

theorem State.burstComplete_arbiter (h : s.arbiter.port = some g) :
    s.burstComplete.arbiter = { s.arbiter with port := none } := by
  rw [State.burstComplete_of h]
  split
  · exact State.deliver_arbiter _ g
  · rfl

theorem State.burstComplete_mem (h : s.arbiter.port = some g) : s.burstComplete.mem = g.burst.data.stored s.mem := by
  rw [State.burstComplete_of h]
  split
  · exact State.deliver_mem _ g
  · rfl

theorem State.burstComplete_keeps (h : s.arbiter.port = some g) :
    s.keeps s.burstComplete [.arbiter, .mem, .store, .ring, .engine] := by
  have moved : s.keeps (s.moved g.burst.data) [.arbiter, .mem, .store, .ring, .engine] :=
    State.keeps_mono (s.moved_keeps _) (by simp)
  rw [State.burstComplete_of h]
  split
  · exact State.keeps_trans_of_links (s.moved_links _) moved (State.keeps_mono (State.deliver_keeps _ g) (by simp))
  · exact moved

theorem State.burstComplete_dead (h : s.arbiter.port = some g) (dead : g.fate ≠ .live) :
    s.burstComplete = s.moved g.burst.data := by
  rw [State.burstComplete_of h, if_neg dead]

theorem State.burstComplete_live (h : s.arbiter.port = some g) (live : g.fate = .live) :
    s.burstComplete = (s.moved g.burst.data).deliver g := by
  rw [State.burstComplete_of h, if_pos live]

theorem State.moved_read {d : BurstData} (h : d = .read) : (s.moved d).mem = s.mem := by
  rw [h]
  rfl

end Completes
end Sys2Proof.Machine

section
open Sys2Proof.Machine

/-- Settles O39: the memory by the burst's own bytes, then what follows by the burst's fate and requester. -/
theorem burstMovesItsBytes : Obligations.BurstMovesItsBytes := by
  refine ⟨⟨fun r => rfl, crc32Feed_concat, crc32_check⟩, fun s high => ?_⟩
  intro next
  refine ⟨fun free => leads_of rfl high (State.burstComplete_free free) fun _ => rfl, fun g port form => ?_⟩
  obtain ⟨t, happened, kept⟩ := leads_of (i := .burstComplete) (u := s.burstComplete) rfl high rfl
    fun l => congrArg (fun k => (Links.get k l).slot) (State.burstComplete_links port)
  have mem : t.mem = g.burst.data.stored s.mem := (kept .mem (by simp)).trans (State.burstComplete_mem port)
  refine ⟨t, happened, (kept .arbiter (by simp)).trans (State.burstComplete_arbiter port), mem ▸ g.burst.data.stored_wf form,
    State.keeps_trans_of_links (State.burstComplete_links port) (State.burstComplete_keeps port)
      (State.keeps_mono kept (by simp)), fun read => by rw [mem, read]; rfl, fun start bytes write => ?_, fun dead => ?_,
    fun live => ?_⟩
  · rw [mem, write]
    refine ⟨fun a away => ?_, fun n b at_ => ?_⟩
    · rw [BurstData.stored, Memory.read_writeRun bytes s.mem start a form]
      split
      · rw [List.getElem?_eq_none (by omega), Option.getD_none]
      · rfl
    · rw [BurstData.stored, Memory.read_writeRun bytes s.mem start _ form]
      simp [at_]
  · rw [State.burstComplete_dead port dead] at kept
    exact State.keeps_trans_of_links (s.moved_links _) (s.moved_keeps _) (State.keeps_mono kept (by simp))
  have store := kept .store (by simp)
  have ring := kept .ring (by simp)
  have engine := kept .engine (by simp)
  simp only [Part.same, State.burstComplete_live port live] at store ring engine
  refine ⟨fun no => ring.trans (State.deliver_ring no), fun no => engine.trans (State.deliver_engine no),
    fun other => store.trans (State.deliver_store other), fun x pull read here => ?_, fun x start bytes write data here => ?_,
    fun u mine read here => ?_, fun u start bytes mine data here => ?_, fun v h d verify read running head left => ?_⟩
  · exact ring.trans (State.moved_read read ▸ State.deliver_pull (s := s.moved g.burst.data) pull here)
  · exact store.trans (State.deliver_write (s := s.moved g.burst.data) write data here)
  · exact engine.trans (State.deliver_engine_read (s := s.moved g.burst.data) mine read here)
  · exact engine.trans (State.deliver_engine_write (s := s.moved g.burst.data) mine data here)
  · have fed := State.deliver_verify (s := s.moved g.burst.data) verify running head
    rw [State.moved_read read, VerifyPass.feed_of v d _ s.mem left] at fed
    exact store.trans fed

end
end

