-- ==== Sys2Proof/Proofs/PrintEnds.lean ====
section
/-! PROOF. PRINT_END(OK) and PRINT_END(ABORT) (R81, R131, R132). -/

namespace Sys2Proof.Machine

section Ends

variable {s : State} {x : Session} {g : Garment}

theorem printEndOk_slotless : Slotless State.printEndOk := fun s l x mode => State.printEndOk_slotted s l x mode

theorem printEndAbort_slotless : Slotless State.printEndAbort := fun s l x mode => State.printEndAbort_slotted s l x mode

theorem State.sessionGarment_none (h : s.ring.session = none) : s.sessionGarment = none := by
  simp only [State.sessionGarment, h]

theorem State.sessionGarment_of (session : s.ring.session = some x) (here : s.garment x.platen = some g) :
    s.sessionGarment = some (x, g) := by
  simp only [State.sessionGarment, session, here, Option.map_some]

/-- R131: the check, then the session closed. -/
theorem State.printEndOk_of (session : s.ring.session = some x) (here : s.garment x.platen = some g) : s.printEndOk =
    if g.print.produced ≠ x.count ∨ g.print.released ≠ x.count then s.refuse .incomplete
    else ({ s with ring := { s.ring with session := none } }.putGarment x.platen
      (some { g with print := { g.print with phase := .complete }, stage := .cureWait })).accept [] := by
  simp only [State.printEndOk, State.sessionGarment_of session here]
  rfl

end Ends

/-! ### The unit discarded (R81, R132 step 2) -/

section Discard

variable {s : State} {p : Fin 16} {serial : Word} {u : RasterUnit}

theorem RasterUnit.isSwathOf_iff : u.isSwathOf p serial = true ↔
    (∃ q phase index slot, u.kind = .swath q phase index slot) ∧ u.platen = p ∧ u.serial = serial := by
  unfold RasterUnit.isSwathOf
  split
  next band => simp [band]
  next swath => simp [swath]

theorem State.discardSwathUnit_other (other : ∀ u, s.engine.unit = some u → ¬u.isSwathOf p serial = true) :
    s.discardSwathUnit p serial = s := by
  unfold State.discardSwathUnit
  split
  · rfl
  next u unit => exact if_neg (other u unit)

theorem State.discardSwathUnit_of (unit : s.engine.unit = some u) (mine : u.isSwathOf p serial = true) :
    s.discardSwathUnit p serial =
      { s with
        engine := { s.engine with unit := some { u with discarded := true, writes := [] } }
        arbiter := if u.reads = [] then s.arbiter.drop .engine .aborted else s.arbiter } := by
  simp only [State.discardSwathUnit, unit, mine, if_true]
  cases u.reads <;> rfl

/-- R132: the unit and its granted burst are all that a discarding touches. -/
theorem State.discardSwathUnit_changes (s : State) (p : Fin 16) (serial : Word) : ∃ engine arbiter,
    s.discardSwathUnit p serial = { s with engine := engine, arbiter := arbiter } ∧ engine.jobs = s.engine.jobs ∧
    arbiter.fairness = s.arbiter.fairness ∧ arbiter.turn = s.arbiter.turn := by
  unfold State.discardSwathUnit
  dsimp only
  repeat' split
  all_goals exact ⟨_, _, rfl, rfl, rfl, rfl⟩

/-- R81: where the requester has no live burst granted, nothing is marked. -/
theorem Arbiter.drop_same {a : Arbiter} {r : Requester} (x : Fate) (h : ∀ b, a.port ≠ some ⟨r, b, .live⟩) : a.drop r x = a := by
  show { a with port := (a.drop r x).port } = a
  rw [Arbiter.drop_other a r x h]

end Discard

/-! ### The slots freed (R122, R132) -/

section Release

variable {r : Ring} {serial : Word}

theorem Ring.release_slot (r : Ring) (f : Swath → Bool) (i : Fin 4) :
    (r.release f).slots[i] = if r.slots[i].any f then none else r.slots[i] := Vector.getElem_ofFn _

/-- Whether a slot holds a swath of a garment. -/
theorem anySerial_iff (o : Option Swath) (serial : Word) :
    (o.any fun w => w.serial == serial) = true ↔ ∃ w, o = some w ∧ w.serial = serial := by
  simp only [Option.any_eq_true, beq_iff_eq]

theorem Ring.release_free {i : Fin 4} (mine : ∃ w, r.slots[i] = some w ∧ w.serial = serial) :
    (r.release fun w => w.serial == serial).slots[i] = none :=
  (r.release_slot _ i).trans (if_pos ((anySerial_iff _ _).2 mine))

theorem Ring.release_other {i : Fin 4} (other : ¬∃ w, r.slots[i] = some w ∧ w.serial = serial) :
    (r.release fun w => w.serial == serial).slots[i] = r.slots[i] :=
  (r.release_slot _ i).trans (if_neg (mt (anySerial_iff _ _).1 other))

theorem Ring.release_order (r : Ring) (serial : Word) : (r.release fun w => w.serial == serial).order =
    r.order.filter fun i => r.slots[i].map Swath.serial != some serial := by
  have other (o : Option Swath) : (!o.any fun w => w.serial == serial) = (o.map Swath.serial != some serial) := by
    cases o with
    | none => rfl
    | some w => simp [bne]
  exact List.filter_congr fun i _ => other _

end Release

/-! ### PRINT_END(ABORT) -/

section Abort

variable {s : State} {x : Session} {g : Garment}

/-- R132: the state after an aborted session. -/
def State.printAborted (s : State) (x : Session) (g : Garment) : State :=
  { s.discardSwathUnit x.platen x.serial with
    units := { s.units with
      garments := upd s.units.garments x.platen
        (some { g with print := { g.print with phase := .aborted }, disposition := .reject }) }
    ring := { s.ring.release fun w => w.serial == x.serial with session := none } }

theorem State.printEndAbort_of (session : s.ring.session = some x) (here : s.garment x.platen = some g) :
    s.printEndAbort = (s.printAborted x g).accept [] := by
  obtain ⟨engine, arbiter, discard, -⟩ := s.discardSwathUnit_changes x.platen x.serial
  simp only [State.printEndAbort, State.sessionGarment_of session here, State.printAborted, discard]
  rfl

theorem State.printAborted_links : (s.printAborted x g).links = s.links := by
  obtain ⟨engine, arbiter, discard, -⟩ := s.discardSwathUnit_changes x.platen x.serial
  rw [State.printAborted, discard]

theorem State.printAborted_keeps : s.keeps (s.printAborted x g) [.units, .ring, .engine, .arbiter] := by
  obtain ⟨engine, arbiter, discard, -⟩ := s.discardSwathUnit_changes x.platen x.serial
  rw [State.printAborted, discard]
  intro p out
  cases p with
  | units | ring | engine | arbiter => simp at out
  | notices => exact fun l => ⟨rfl, rfl, .inl rfl⟩
  | settings => exact fun l => ⟨rfl, rfl, rfl, rfl⟩
  | outputs => exact fun i => ⟨rfl, rfl, rfl, rfl⟩
  | _ => rfl

/-- R132: what an accepted PRINT_END(ABORT) makes of the four blocks that it changes. -/
theorem printAborted_of {v : Via} (r : Ready s v 0x2F) (session : s.ring.session = some x)
    (here : s.garment x.platen = some g) : ∃ t, Answered (.printEndAbort v) v 0x2F s t .ok [] ∧
      s.keeps t [.units, .ring, .engine, .arbiter] ∧ t.units = (s.printAborted x g).units ∧
      t.ring = (s.printAborted x g).ring ∧ t.engine = (s.discardSwathUnit x.platen x.serial).engine ∧
      t.arbiter = (s.discardSwathUnit x.platen x.serial).arbiter := by
  obtain ⟨t, answered, kept⟩ := answered_of (i := .printEndAbort v) printEndAbort_slotless r rfl
    (State.printEndAbort_of session here)
  exact ⟨t, answered,
    State.keeps_trans_of_links State.printAborted_links State.printAborted_keeps (State.keeps_mono kept (by simp)),
    kept .units (by simp), kept .ring (by simp), kept .engine (by simp), kept .arbiter (by simp)⟩

end Abort
end Sys2Proof.Machine

section
open Sys2Proof.Machine

/-- Settles O46: the checks as the handlers make them; an abort block by block, the unit by whether it is the session's. -/
theorem printEndClosesSession : Obligations.PrintEndClosesSession := by
  intro v s r
  refine ⟨fun idle => ⟨?_, ?_⟩, fun x g session here => ⟨fun short => ?_, fun produced released => ?_, ?_⟩⟩
  · exact refused_of printEndOk_slotless r rfl (by simp only [State.printEndOk, State.sessionGarment_none idle])
  · exact refused_of printEndAbort_slotless r rfl (by simp only [State.printEndAbort, State.sessionGarment_none idle])
  · exact refused_of printEndOk_slotless r rfl ((State.printEndOk_of session here).trans (if_pos short))
  · exact done_of printEndOk_slotless r rfl ((State.printEndOk_of session here).trans (if_neg (by simp [produced, released])))
  intro mine
  obtain ⟨t, answered, kept, units, ring, engine, arbiter⟩ := printAborted_of r session here
  obtain ⟨_, _, discard, jobs, fairness, turn⟩ := s.discardSwathUnit_changes x.platen x.serial
  have garment (p : Fin 16) : t.garment p = if x.platen = p
      then some { g with print := { g.print with phase := .aborted }, disposition := .reject } else s.garment p := by
    rw [State.garment, units]
    exact upd_get _ _ _ _
  refine ⟨t, answered, kept, by rw [units]; rfl, by rw [ring]; rfl, by rw [ring]; rfl, fun i => ?_, ?_, fun p other => ?_, ?_,
    by rw [engine, discard]; exact jobs, by rw [arbiter, discard]; exact fairness, by rw [arbiter, discard]; exact turn,
    fun none_ => ?_, fun u unit => ?_⟩
  · rw [ring]
    exact ⟨Ring.release_free, Ring.release_other⟩
  · rw [ring]
    exact s.ring.release_order x.serial
  · rw [garment, if_neg other.symm]
  · rw [garment, if_pos rfl]
  · rw [State.discardSwathUnit_other (by simp [none_])] at engine arbiter
    exact ⟨engine ▸ none_, arbiter⟩
  intro swath
  refine ⟨fun other => ?_, fun kind platen serial => ?_⟩
  · have no : ¬u.isSwathOf x.platen x.serial = true := by
      rw [RasterUnit.isSwathOf_iff]
      rintro ⟨kind, platen, serial⟩
      exact other.elim (· kind) fun other => other.elim (· platen) (· serial)
    rw [State.discardSwathUnit_other fun w here => Option.some.inj (unit.symm.trans here) ▸ no] at engine arbiter
    exact ⟨engine ▸ unit, arbiter⟩
  · rw [State.discardSwathUnit_of unit (RasterUnit.isSwathOf_iff.2 ⟨kind, platen, serial⟩)] at engine arbiter
    refine ⟨by rw [engine], fun left => arbiter.trans (if_neg left), fun b done live => ?_, fun still => ?_⟩
    · rw [arbiter, if_pos done]
      exact Arbiter.drop_live _ _ _ live
    · rw [arbiter]
      split
      · exact Arbiter.drop_same _ still
      · rfl

end
end

