-- ==== Sys2Proof/Proofs/Footprints.lean ====
section
/-! PROOF. The footprints, the extent and the value fetched from the art (R86 to R90, R92). -/

namespace Sys2Proof.Machine

/-! ### Rectangles (R85) -/

section Rects

variable {r q a b : Rect} {x y : Nat}

/-- A field pixel lies in a rectangle. -/
def Rect.Holds (r : Rect) (x y : Nat) : Prop := r.left ≤ x ∧ x ≤ r.right ∧ r.top ≤ y ∧ y ≤ r.bottom

/-- A rectangle that holds a pixel at all. -/
def Rect.Proper (r : Rect) : Prop := r.left ≤ r.right ∧ r.top ≤ r.bottom

/-- A rectangle lies within another, edge by edge. -/
def Rect.Within (r q : Rect) : Prop := q.left ≤ r.left ∧ r.right ≤ q.right ∧ q.top ≤ r.top ∧ r.bottom ≤ q.bottom

theorem Rect.has_iff : r.has x y = true ↔ r.Holds x y := decide_eq_true_iff

theorem Rect.Proper.corners (h : r.Proper) : r.Holds r.left r.top ∧ r.Holds r.right r.bottom :=
  ⟨⟨le_rfl, h.1, le_rfl, h.2⟩, ⟨h.1, le_rfl, h.2, le_rfl⟩⟩

theorem Rect.Within.holds (h : r.Within q) (here : r.Holds x y) : q.Holds x y := by
  obtain ⟨left, right, top, bottom⟩ := h
  obtain ⟨l, r, t, b⟩ := here
  exact ⟨left.trans l, r.trans right, top.trans t, b.trans bottom⟩

theorem Rect.Within.trans (h : a.Within b) (k : b.Within q) : a.Within q := by
  obtain ⟨left, right, top, bottom⟩ := h
  obtain ⟨left', right', top', bottom'⟩ := k
  exact ⟨left'.trans left, right.trans right', top'.trans top, bottom.trans bottom'⟩

/-- Whatever rectangle holds a proper rectangle's pixels has it within. -/
theorem Rect.Proper.within (h : r.Proper) (holds : ∀ x y, r.Holds x y → q.Holds x y) : r.Within q := by
  obtain ⟨left, -, top, -⟩ := holds _ _ h.corners.1
  obtain ⟨-, right, -, bottom⟩ := holds _ _ h.corners.2
  exact ⟨left, right, top, bottom⟩

theorem Rect.within_union_left : a.Within (a.union b) :=
  ⟨Nat.min_le_left _ _, Nat.le_max_left _ _, Nat.min_le_left _ _, Nat.le_max_left _ _⟩

theorem Rect.within_union_right : b.Within (a.union b) :=
  ⟨Nat.min_le_right _ _, Nat.le_max_right _ _, Nat.min_le_right _ _, Nat.le_max_right _ _⟩

theorem Rect.union_within (ha : a.Within q) (hb : b.Within q) : (a.union b).Within q := by
  obtain ⟨left, right, top, bottom⟩ := ha
  obtain ⟨left', right', top', bottom'⟩ := hb
  exact ⟨Nat.le_min.2 ⟨left, left'⟩, Nat.max_le.2 ⟨right, right'⟩, Nat.le_min.2 ⟨top, top'⟩, Nat.max_le.2 ⟨bottom, bottom'⟩⟩

end Rects

/-! ### The two footprints (R86, R88) -/

section Footprints

variable {p : Placement} {d : Art} {o : OverlayAt} {r : Rect} {x y : Nat}

/-- R86: the footprint's edges: the window from its origin, cut off at the art's and the field's far edges. -/
theorem artFootprint_eq_some : artFootprint p d = some r ↔
    r.Proper ∧ r.left = p.ox ∧ r.right + 1 = p.ox + min (min p.width (d.width - p.col0)) (3200 - p.ox) ∧
    r.top = p.oy ∧ r.bottom + 1 = p.oy + min (min p.height (d.height - p.row0)) (4000 - p.oy) := by
  obtain ⟨left, right, top, bottom⟩ := r
  simp only [artFootprint, Rect.Proper]
  split
  · simp only [reduceCtorEq, false_iff]
    omega
  · split
    · simp only [reduceCtorEq, false_iff]
      omega
    · simp only [Option.some.injEq, Rect.mk.injEq]
      omega

theorem artFootprint_holds_iff : (∃ r, artFootprint p d = some r ∧ r.Holds x y) ↔
    ∃ i j, i < p.width ∧ j < p.height ∧ p.col0 + i < d.width ∧ p.row0 + j < d.height ∧ x = p.ox + i ∧ y = p.oy + j ∧
      x < 3200 ∧ y < 4000 := by
  simp only [artFootprint_eq_some, Rect.Proper, Rect.Holds]
  constructor
  · rintro ⟨r, edges, here⟩
    refine ⟨x - p.ox, y - p.oy, ?_, ?_, ?_, ?_, ?_, ?_, ?_⟩ <;> omega
  · rintro ⟨i, j, here⟩
    refine ⟨⟨p.ox, p.ox + min (min p.width (d.width - p.col0)) (3200 - p.ox) - 1,
      p.oy, p.oy + min (min p.height (d.height - p.row0)) (4000 - p.oy) - 1⟩, ?_⟩
    simp only [true_and]
    omega

/-- R88: the footprint's edges: 64 columns and rows, cut off at the field's edges. -/
theorem overlayFootprint_eq_some : overlayFootprint o = some r ↔
    r.Proper ∧ (r.left : Int) = max o.vx 0 ∧ (r.right : Int) = min (o.vx + 63) 3199 ∧
    (r.top : Int) = max o.vy 0 ∧ (r.bottom : Int) = min (o.vy + 63) 3999 := by
  obtain ⟨left, right, top, bottom⟩ := r
  simp only [overlayFootprint, Rect.Proper]
  split
  · simp only [reduceCtorEq, false_iff]
    omega
  · simp only [Option.some.injEq, Rect.mk.injEq]
    omega

theorem overlayFootprint_holds_iff : (∃ r, overlayFootprint o = some r ∧ r.Holds x y) ↔
    o.vx ≤ x ∧ (x : Int) ≤ o.vx + 63 ∧ x < 3200 ∧ o.vy ≤ y ∧ (y : Int) ≤ o.vy + 63 ∧ y < 4000 := by
  simp only [overlayFootprint_eq_some, Rect.Proper, Rect.Holds]
  constructor
  · rintro ⟨r, edges, here⟩
    omega
  · intro here
    refine ⟨⟨(max o.vx 0).toNat, (min (o.vx + 63) 3199).toNat, (max o.vy 0).toNat, (min (o.vy + 63) 3999).toNat⟩, ?_⟩
    simp only
    omega

end Footprints

/-! ### The extent (R89) -/

section Extents

variable {p : Placement} {art : Option Art} {r e q : Rect} {x y : Nat}

/-- The rectangle is one of a placement's two footprints over its art. -/
def IsFootprint (p : Placement) (art : Option Art) (r : Rect) : Prop :=
  art.bind (artFootprint p) = some r ∨ p.overlay.bind overlayFootprint = some r

theorem IsFootprint.proper (h : IsFootprint p art r) : r.Proper := by
  rcases h with h | h
  · obtain ⟨d, -, h⟩ := Option.bind_eq_some_iff.1 h
    exact (artFootprint_eq_some.1 h).1
  · obtain ⟨o, -, h⟩ := Option.bind_eq_some_iff.1 h
    exact (overlayFootprint_eq_some.1 h).1

theorem isFootprint_holds_iff : (∃ r, IsFootprint p art r ∧ r.Holds x y) ↔
    (∃ d r, art = some d ∧ artFootprint p d = some r ∧ r.Holds x y) ∨
      ∃ o r, p.overlay = some o ∧ overlayFootprint o = some r ∧ r.Holds x y := by
  simp only [IsFootprint, Option.bind_eq_some_iff]
  constructor
  · rintro ⟨r, ⟨d, here, foot⟩ | ⟨o, here, foot⟩, holds⟩
    · exact .inl ⟨d, r, here, foot, holds⟩
    · exact .inr ⟨o, r, here, foot, holds⟩
  · rintro (⟨d, r, here, foot, holds⟩ | ⟨o, r, here, foot, holds⟩)
    · exact ⟨r, .inl ⟨d, here, foot⟩, holds⟩
    · exact ⟨r, .inr ⟨o, here, foot⟩, holds⟩

/-- R89, footprint by footprint. -/
theorem extentOf_cases (p : Placement) (art : Option Art) :
    (extentOf p art = none ∧ ∀ r, ¬IsFootprint p art r) ∨
    (∃ a, extentOf p art = some a ∧ ∀ r, IsFootprint p art r ↔ r = a) ∨
    ∃ a b, extentOf p art = some (a.union b) ∧ ∀ r, IsFootprint p art r ↔ r = a ∨ r = b := by
  unfold extentOf IsFootprint
  cases hart : art.bind (artFootprint p) <;> cases hoverlay : p.overlay.bind overlayFootprint
  case none.none => exact .inl ⟨rfl, by simp⟩
  case some.none a => exact .inr (.inl ⟨a, rfl, by simp [eq_comm]⟩)
  case none.some b => exact .inr (.inl ⟨b, rfl, by simp [eq_comm]⟩)
  case some.some a b => exact .inr (.inr ⟨a, b, rfl, by simp [eq_comm]⟩)

theorem extentOf_eq_none : extentOf p art = none ↔ ∀ r, ¬IsFootprint p art r := by
  obtain ⟨none_, no⟩ | ⟨a, some_, only⟩ | ⟨a, b, some_, only⟩ := extentOf_cases p art
  · simp [none_, no]
  · simp [some_, only]
  · exact iff_of_false (by simp [some_]) fun no => no a ((only a).2 (.inl rfl))

/-- R89: the extent lies within exactly the rectangles that the footprints lie within. -/
theorem extentOf_within_iff (h : extentOf p art = some e) : e.Within q ↔ ∀ r, IsFootprint p art r → r.Within q := by
  obtain ⟨none_, -⟩ | ⟨a, some_, only⟩ | ⟨a, b, some_, only⟩ := extentOf_cases p art
  · simp [none_] at h
  · obtain rfl : a = e := by simpa [some_] using h
    simp [only]
  · obtain rfl : a.union b = e := by simpa [some_] using h
    simp only [only, forall_eq_or_imp, forall_eq]
    exact ⟨fun h => ⟨Rect.within_union_left.trans h, Rect.within_union_right.trans h⟩, fun h => Rect.union_within h.1 h.2⟩

end Extents

/-! ### The fetched value (R87, R92) -/

section Fetch

variable {e : PixelInputs} {d : Art} {r : Rect} {x y : Nat}

theorem PixelInputs.entry_val (e : PixelInputs) (i : Fin 256) : e.entry i.val = e.palette[i] := by
  simp [PixelInputs.entry]

theorem PixelInputs.artPixel_idx4 (f : d.format = .idx4) (col row : Nat) : e.artPixel d col row =
    e.entry (if col % 2 = 0 then (e.mem.read (d.base + row * d.stride + col / 2)).toNat / 16
      else (e.mem.read (d.base + row * d.stride + col / 2)).toNat % 16) := by
  simp only [PixelInputs.artPixel, f, ArtFormat.columnByte]

theorem PixelInputs.artPixel_idx8 (f : d.format = .idx8) (col row : Nat) : e.artPixel d col row =
    e.entry (e.mem.read (d.base + row * d.stride + col)).toNat := by
  simp only [PixelInputs.artPixel, f, ArtFormat.columnByte]

theorem PixelInputs.artPixel_cmyka (f : d.format = .cmyka) (col row : Nat) :
    let at_ (n : Nat) : Nat := (e.mem.read (d.base + row * d.stride + n)).toNat
    e.artPixel d col row = ⟨at_ (5 * col), at_ (5 * col + 1), at_ (5 * col + 2), at_ (5 * col + 3), at_ (5 * col + 4)⟩ := by
  simp only [PixelInputs.artPixel, f, ArtFormat.columnByte, Nat.add_assoc]

/-- R86: a field pixel lies in the art footprint. -/
def PixelInputs.OnArt (e : PixelInputs) (x y : Nat) : Prop :=
  ∃ d r, e.art = some d ∧ artFootprint e.placement d = some r ∧ r.Holds x y

theorem PixelInputs.fetch_on (on : e.OnArt x y) (here : e.art = some d) : e.fetch x y =
    e.artPixel d (e.placement.col0 + (x - e.placement.ox)) (e.placement.row0 + (y - e.placement.oy)) := by
  obtain ⟨d', r, here', foot, holds⟩ := on
  obtain rfl : d = d' := Option.some.inj (here.symm.trans here')
  simp only [PixelInputs.fetch, here, foot, Rect.has_iff.2 holds, if_true]

theorem PixelInputs.fetch_off (off : ¬e.OnArt x y) : e.fetch x y = ⟨0, 0, 0, 0, 0⟩ := by
  unfold PixelInputs.fetch
  split
  · rfl
  next d here =>
    split
    · rfl
    next r foot => exact if_neg fun on => off ⟨d, r, here, foot, Rect.has_iff.1 on⟩

end Fetch
end Sys2Proof.Machine

section
open Sys2Proof.Machine

/-- Settles O59: the footprints by their edges, the extent by what lies within it, the fetched value by the art's format. -/
theorem pixelsAreFetchedFromArt : Obligations.PixelsAreFetchedFromArt := by
  refine ⟨fun s r p => ⟨rfl, rfl, rfl, rfl, rfl, fun d here => ?_, rfl⟩, fun p d x y => artFootprint_holds_iff,
    fun p d r foot => (artFootprint_eq_some.1 foot).1.corners, fun o x y => overlayFootprint_holds_iff,
    fun o r foot => (overlayFootprint_eq_some.1 foot).1.corners, fun e => ?_⟩
  · simp only [State.pixelInputs, here]
  intro art covered
  have covered_iff (x y : Nat) : covered x y ↔ ∃ r, IsFootprint e.placement e.art r ∧ r.Holds x y := isFootprint_holds_iff.symm
  refine ⟨?_, fun r extent => ⟨fun x y on => ?_, fun q holds => ?_⟩, fun x y => ⟨PixelInputs.fetch_off, fun d here on => ?_⟩⟩
  · simp only [covered_iff]
    refine extentOf_eq_none.trans ⟨fun none_ x y ⟨r, foot, _⟩ => none_ r foot, fun none_ r foot => ?_⟩
    exact none_ _ _ ⟨r, foot, foot.proper.corners.1⟩
  · obtain ⟨f, foot, here⟩ := (covered_iff x y).1 on
    exact ((extentOf_within_iff extent).1 ⟨le_rfl, le_rfl, le_rfl, le_rfl⟩ f foot).holds here
  · exact (extentOf_within_iff extent).2 fun f foot =>
      foot.proper.within fun x y here => holds x y ((covered_iff x y).2 ⟨f, foot, here⟩)
  · intro col row at_
    rw [PixelInputs.fetch_on on here]
    refine ⟨fun f i index => ?_, fun f i index => ?_, fun f => PixelInputs.artPixel_cmyka f col row⟩
    · rw [PixelInputs.artPixel_idx4 f, ← e.entry_val, index]
    · rw [PixelInputs.artPixel_idx8 f, ← e.entry_val, index]

end
end

