-- ==== Sys2Proof/Proofs/PixelStages.lean ====
section
/-! PROOF. The stages of a pixel: overlay, coverage, ink limit, underbase, choke and drop level (R93 to R98). -/

namespace Sys2Proof.Machine

/-! ### Stage A (R93) -/

section StageA

variable {e : PixelInputs} {o : OverlayAt} {v : Overlay} {x y : Nat}

theorem Overlay.code_val (v : Overlay) (col row : Fin 64) : v.code col.val row.val = v.codes[row][col] := by
  simp [Overlay.code]

theorem PixelInputs.stageA_plain (h : e.overlay = none) : e.stageA x y = e.fetch x y := by
  simp only [PixelInputs.stageA, h]

theorem PixelInputs.stageA_outside (h : e.overlay = some (o, v))
    (out : ¬∃ r, overlayFootprint o = some r ∧ r.Holds x y) : e.stageA x y = e.fetch x y := by
  simp only [PixelInputs.stageA, h]
  split
  · rfl
  next r foot => exact if_neg fun on => out ⟨r, foot, Rect.has_iff.1 on⟩

theorem PixelInputs.stageA_inside (h : e.overlay = some (o, v)) (col row : Fin 64) (hx : (x : Int) = o.vx + col.val)
    (hy : (y : Int) = o.vy + row.val) (on : ∃ r, overlayFootprint o = some r ∧ r.Holds x y) : e.stageA x y =
      match v.codes[row][col] with
      | .transparent => e.fetch x y
      | .colourA => ⟨v.a.c, v.a.m, v.a.y, v.a.k, 255⟩
      | .colourB => ⟨v.b.c, v.b.m, v.b.y, v.b.k, 255⟩
      | .knockout => ⟨0, 0, 0, 0, 0⟩ := by
  obtain ⟨r, foot, here⟩ := on
  have hcol : ((x : Int) - o.vx).toNat = col.val := by omega
  have hrow : ((y : Int) - o.vy).toNat = row.val := by omega
  simp only [PixelInputs.stageA, h, foot, Rect.has_iff.2 here, if_true, hcol, hrow, Overlay.code_val]
  rfl

end StageA

/-! ### Stages B to D (R94 to R96) -/

section Inks

theorem premultiply_le {x a : Nat} (h : a ≤ 255) : premultiply x a ≤ x := by
  have scaled : x * a ≤ x * 255 := Nat.mul_le_mul_left x h
  unfold premultiply
  omega

theorem premultiply_full (x : Nat) : premultiply x 255 = x := by
  unfold premultiply
  omega

theorem premultiply_zero (x : Nat) : premultiply x 0 = 0 := by
  simp [premultiply]

theorem stageB_full {i : Ink} (h : i.a = 255) : stageB i = i := by
  obtain ⟨c, m, y, k, a⟩ := i
  obtain rfl : a = 255 := h
  simp only [stageB, premultiply_full]

theorem stageB_zero {i : Ink} (h : i.a = 0) : stageB i = ⟨0, 0, 0, 0, 0⟩ := by
  simp [stageB, h, premultiply_zero]

theorem stageC_within {limit : Nat} {i : Ink} (h : i.c + i.m + i.y + i.k ≤ limit) : stageC limit i = i := if_pos h

theorem stageC_beyond {limit : Nat} {i : Ink} (h : limit < i.c + i.m + i.y + i.k) :
    let t := i.c + i.m + i.y + i.k
    stageC limit i = ⟨i.c * limit / t, i.m * limit / t, i.y * limit / t, i.k * limit / t, i.a⟩ :=
  if_neg (Nat.not_le.2 h)

/-- Shares of a limit in proportion to amounts that add up to more lose less than one each by rounding down. -/
theorem scaled_sum_bounds {a b c d limit : Nat} (h : limit < a + b + c + d) :
    let t := a + b + c + d
    let sum := a * limit / t + b * limit / t + c * limit / t + d * limit / t
    sum ≤ limit ∧ limit ≤ sum + 3 := by
  intro t sum
  have positive : 0 < t := by omega
  have share (x : Nat) : t * (x * limit / t) ≤ x * limit ∧ x * limit < t * (x * limit / t) + t :=
    ⟨Nat.mul_div_le _ _, Nat.lt_mul_div_succ _ positive |>.trans_eq (Nat.mul_succ _ _)⟩
  have whole : a * limit + b * limit + c * limit + d * limit = t * limit := by simp only [t, Nat.add_mul]
  have parts : t * sum = t * (a * limit / t) + t * (b * limit / t) + t * (c * limit / t) + t * (d * limit / t) := by
    simp only [sum, Nat.mul_add]
  obtain ⟨a_le, a_lt⟩ := share a
  obtain ⟨b_le, b_lt⟩ := share b
  obtain ⟨c_le, c_lt⟩ := share c
  obtain ⟨d_le, d_lt⟩ := share d
  have above : t * sum ≤ t * limit := by omega
  have below : t * limit < t * (sum + 4) := by
    rw [Nat.mul_add]
    omega
  have := Nat.lt_of_mul_lt_mul_left below
  exact ⟨Nat.le_of_mul_le_mul_left above positive, by omega⟩

theorem scaled_le {x limit t : Nat} (h : limit ≤ t) : x * limit / t ≤ x :=
  Nat.div_le_of_le_mul (by rw [Nat.mul_comm t]; exact Nat.mul_le_mul_left x h)

theorem stageD_light {r : Recipe} (h : r.dark = false) (i : Ink) : stageD r i = 0 := by
  simp [stageD, h]

theorem stageD_dark {r : Recipe} (h : r.dark = true) (i : Ink) :
    stageD r i = (i.a * r.underbase + 127) / 255 - i.k * r.knockout / 255 := by
  simp [stageD, h, premultiply]

end Inks

/-! ### Stage E (R97) -/

section Choke

variable {e : PixelInputs} {x y : Nat}

/-- A position lies in the extent. -/
def PixelInputs.Inside (e : PixelInputs) (x y : Int) : Prop :=
  ∃ r, e.extent = some r ∧ r.left ≤ x ∧ x ≤ r.right ∧ r.top ≤ y ∧ y ≤ r.bottom

theorem PixelInputs.w1_outside {x y : Int} (out : ¬e.Inside x y) : e.w1 x y = 0 := by
  unfold PixelInputs.w1
  split
  · rfl
  next r extent =>
    refine if_neg fun ⟨hx, hy, here⟩ => out ⟨r, extent, ?_⟩
    obtain ⟨left, right, top, bottom⟩ := Rect.has_iff.1 here
    omega

theorem PixelInputs.w1_inside (here : e.Inside x y) : e.w1 x y = stageD e.recipe (e.limited x y) := by
  obtain ⟨r, extent, inside⟩ := here
  have held : r.has x y = true := Rect.has_iff.2 (by unfold Rect.Holds; omega)
  simp [PixelInputs.w1, extent, held]

theorem least_le {n k : Nat} {l : List Nat} (h : k ∈ n :: l) : least n l ≤ k := by
  induction l generalizing n k with
  | nil => exact (List.mem_singleton.1 h).ge
  | cons m l ih =>
    show least (min n m) l ≤ k
    rcases List.mem_cons.1 h with rfl | h
    · exact (ih List.mem_cons_self).trans (Nat.min_le_left _ _)
    · rcases List.mem_cons.1 h with rfl | h
      · exact (ih List.mem_cons_self).trans (Nat.min_le_right _ _)
      · exact ih (List.mem_cons_of_mem _ h)

theorem least_mem (n : Nat) (l : List Nat) : least n l ∈ n :: l := by
  induction l generalizing n with
  | nil => exact List.mem_singleton.2 rfl
  | cons m l ih =>
    show least (min n m) l ∈ n :: m :: l
    rcases List.mem_cons.1 (ih (min n m)) with h | h
    · rw [h]
      rcases Nat.le_total n m with le | le
      · simp [le]
      · simp [le]
    · exact List.mem_cons_of_mem _ (List.mem_cons_of_mem _ h)

/-- R97: w1 over the square of the choke radius around a pixel. -/
def PixelInputs.square (e : PixelInputs) (x y : Nat) : List Nat :=
  let side := List.range (2 * e.recipe.choke + 1)
  side.flatMap fun j => side.map fun i => e.w1 ((x : Int) + i - e.recipe.choke) ((y : Int) + j - e.recipe.choke)

theorem PixelInputs.w_eq (e : PixelInputs) (x y : Nat) : e.w x y = least (e.w1 x y) (e.square x y) := rfl

theorem PixelInputs.mem_square {n : Nat} : n ∈ e.square x y ↔
    ∃ u v : Int, |u - x| ≤ e.recipe.choke ∧ |v - y| ≤ e.recipe.choke ∧ n = e.w1 u v := by
  simp only [PixelInputs.square, List.bind_eq_flatMap, List.pure_def, List.mem_flatMap, List.mem_map, List.mem_range,
    List.mem_singleton, abs_le]
  constructor
  · rintro ⟨j, ⟨m, hm, rfl⟩, i, ⟨n, hn, rfl⟩, rfl⟩
    exact ⟨_, _, by omega, by omega, rfl⟩
  · rintro ⟨u, v, hu, hv, rfl⟩
    refine ⟨v - y + e.recipe.choke, ⟨(v - y + e.recipe.choke).toNat, by omega, by omega⟩,
      u - x + e.recipe.choke, ⟨(u - x + e.recipe.choke).toNat, by omega, by omega⟩, ?_⟩
    congr 1 <;> omega

theorem PixelInputs.w_le {u v : Int} (hu : |u - x| ≤ e.recipe.choke) (hv : |v - y| ≤ e.recipe.choke) :
    e.w x y ≤ e.w1 u v :=
  e.w_eq x y ▸ least_le (List.mem_cons_of_mem _ (PixelInputs.mem_square.2 ⟨u, v, hu, hv, rfl⟩))

theorem PixelInputs.w_attained (e : PixelInputs) (x y : Nat) :
    ∃ u v : Int, |u - x| ≤ e.recipe.choke ∧ |v - y| ≤ e.recipe.choke ∧ e.w x y = e.w1 u v := by
  rcases List.mem_cons.1 (least_mem (e.w1 x y) (e.square x y)) with h | h
  · exact ⟨x, y, by simp, by simp, h⟩
  · exact PixelInputs.mem_square.1 h

end Choke

/-! ### Stage F (R98) -/

section Drops

theorem PixelInputs.level_of {e : PixelInputs} {g : SwathShape} {x : Nat} (h : x < g.xStart + g.width) (plane y : Nat) :
    e.level g plane x y = dropLevel (e.planeValue g.phase plane x y) x y := if_pos h

theorem PixelInputs.level_right {e : PixelInputs} {g : SwathShape} {x : Nat} (h : g.xStart + g.width ≤ x) (plane y : Nat) :
    e.level g plane x y = 0 := if_neg (Nat.not_lt.2 h)

/-- R98's matrix, entry by entry. -/
theorem ditherIndex_eq (x y : Nat) : ditherIndex x y =
    match y % 4, x % 4 with
      | 0, 0 => 0 | 0, 1 => 8 | 0, 2 => 2 | 0, _ => 10
      | 1, 0 => 12 | 1, 1 => 4 | 1, 2 => 14 | 1, _ => 6
      | 2, 0 => 3 | 2, 1 => 11 | 2, 2 => 1 | 2, _ => 9
      | _, 0 => 15 | _, 1 => 7 | _, 2 => 13 | _, _ => 5 := by
  have table : ∀ i j : Fin 4, ([0, 8, 2, 10, 12, 4, 14, 6, 3, 11, 1, 9, 15, 7, 13, 5] : List Nat).getD (4 * i.val + j.val) 0 =
      match i.val, j.val with
      | 0, 0 => 0 | 0, 1 => 8 | 0, 2 => 2 | 0, _ => 10
      | 1, 0 => 12 | 1, 1 => 4 | 1, 2 => 14 | 1, _ => 6
      | 2, 0 => 3 | 2, 1 => 11 | 2, 2 => 1 | 2, _ => 9
      | _, 0 => 15 | _, 1 => 7 | _, 2 => 13 | _, _ => 5 := by decide
  exact table ⟨y % 4, Nat.mod_lt _ (by decide)⟩ ⟨x % 4, Nat.mod_lt _ (by decide)⟩

theorem dropLevel_le {v : Nat} (h : v ≤ 255) (x y : Nat) : dropLevel v x y ≤ 3 := by
  unfold dropLevel
  dsimp only
  split_ifs <;> omega

end Drops
end Sys2Proof.Machine

section
open Sys2Proof.Machine

/-- Settles O60, stage by stage. -/
theorem pixelStagesGiveDropLevels : Obligations.PixelStagesGiveDropLevels := by
  refine ⟨fun e x y => ⟨PixelInputs.stageA_plain, fun o v overlay => ⟨fun out => ?_, fun col row hx hy field field' => ?_⟩⟩,
    fun i => ⟨rfl, fun h => ?_, stageB_full, stageB_zero⟩, fun limit i => ?_,
    fun r i => ⟨fun light => stageD_light light i, fun dark => ?_⟩,
    fun e => ⟨fun x y => PixelInputs.w1_outside, fun x y => ⟨PixelInputs.w1_inside, fun u v => PixelInputs.w_le,
      e.w_attained x y, ⟨rfl, rfl, rfl, rfl, rfl⟩, fun g plane here => PixelInputs.level_of here plane y⟩⟩,
    fun v x y byte => ?_⟩
  · exact PixelInputs.stageA_outside overlay (mt overlayFootprint_holds_iff.1 out)
  · exact PixelInputs.stageA_inside overlay col row hx hy (overlayFootprint_holds_iff.2 (by omega))
  · exact ⟨premultiply_le h, premultiply_le h, premultiply_le h, premultiply_le h⟩
  · intro o t
    rcases Nat.lt_or_ge limit t with beyond | within
    · have scaled : o = _ := stageC_beyond beyond
      obtain ⟨sum, loss⟩ := scaled_sum_bounds beyond
      have le (x : Nat) : x * limit / t ≤ x := scaled_le beyond.le
      rw [scaled]
      exact ⟨sum, le _, le _, le _, le _, rfl, fun within => absurd within (Nat.not_le.2 beyond), fun _ => ⟨rfl, loss⟩⟩
    · have same : o = i := stageC_within within
      rw [same]
      exact ⟨within, le_rfl, le_rfl, le_rfl, le_rfl, rfl, fun _ => rfl, fun beyond => absurd within (Nat.not_le.2 beyond)⟩
  · intro w0 knockout
    rw [stageD_dark dark]
    refine ⟨?_, fun full => ⟨Nat.sub_le _ _, premultiply_le full⟩⟩
    split <;> omega
  · intro base b t
    have index : ditherIndex x y = b := ditherIndex_eq x y
    refine ⟨?_, dropLevel_le byte x y, by omega⟩
    rw [dropLevel, index]
    rfl

end
end

