-- ==== Sys2Proof/Proofs/UnitEnds.lean ====
section
/-! PROOF. A swath's weights, a band's doses, and the ends of the raster units (R99 to R101, R104, R127, R132). -/

namespace Sys2Proof.Machine

/-! ### Weights and doses (R99, R100, R104) -/

section Sums

theorem foldl_add_eq {α : Type} (f : α → Nat) (l : List α) (n : Nat) : l.foldl (fun acc x => acc + f x) n = n + (l.map f).sum := by
  induction l generalizing n with
  | nil => rfl
  | cons x l ih =>
    rw [List.foldl_cons, ih, List.map_cons, List.sum_cons, Nat.add_assoc]

theorem sumOver_eq (x0 w y0 h : Nat) (f : Nat → Nat → Nat) : sumOver x0 w y0 h f =
    ((List.range h).map fun j => ((List.range w).map fun i => f (x0 + i) (y0 + j)).sum).sum := by
  simp only [sumOver, foldl_add_eq, Nat.zero_add]

/-- A sum over a window that counts only what lies between two bounds runs over the window clipped to them. -/
theorem sum_clipped (x0 n a b : Nat) (f : Nat → Nat) :
    ((List.range n).map fun i => if a ≤ x0 + i ∧ x0 + i ≤ b then f (x0 + i) else 0).sum =
      ((List.range (min (x0 + n) (b + 1) - max x0 a)).map fun i => f (max x0 a + i)).sum := by
  have window (g : Nat → Nat) (y m : Nat) : ((List.range m).map fun i => g (y + i)).sum = ∑ x ∈ Finset.Ico y (y + m), g x := by
    rw [Finset.sum_Ico_eq_sum_range, Nat.add_sub_cancel_left]
    rfl
  rw [window fun x => if a ≤ x ∧ x ≤ b then f x else 0, window f, ← Finset.sum_filter]
  refine Finset.sum_congr ?_ fun _ _ => rfl
  ext x
  simp only [Finset.mem_filter, Finset.mem_Ico]
  omega

variable {e : PixelInputs} {r : Rect}

theorem PixelInputs.cellSum_eq (e : PixelInputs) (r : Rect) (zone band : Nat) : e.cellSum r zone band =
    ((List.range 64).map fun j => ((List.range 400).map fun i =>
      if r.left ≤ 400 * zone + i ∧ 400 * zone + i ≤ r.right ∧ r.top ≤ 64 * band + j ∧ 64 * band + j ≤ r.bottom
        then e.presence (400 * zone + i) (64 * band + j) else 0).sum).sum := by
  have row (y : Nat) : ((List.range 400).map fun i =>
      if r.left ≤ 400 * zone + i ∧ 400 * zone + i ≤ r.right ∧ r.top ≤ y ∧ y ≤ r.bottom
        then e.presence (400 * zone + i) y else 0).sum =
      if r.top ≤ y ∧ y ≤ r.bottom then ((List.range (min (400 * zone + 400) (r.right + 1) - max (400 * zone) r.left)).map
        fun i => e.presence (max (400 * zone) r.left + i) y).sum else 0 := by
    by_cases within : r.top ≤ y ∧ y ≤ r.bottom
    · simp only [within, and_true, if_true]
      exact sum_clipped _ _ _ _ fun x => e.presence x y
    · rw [if_neg within]
      refine List.sum_eq_zero fun n mem => ?_
      obtain ⟨i, -, rfl⟩ := List.mem_map.1 mem
      exact if_neg fun ⟨_, _, on⟩ => within on
  simp only [row]
  exact (sumOver_eq _ _ _ _ _).trans (sum_clipped (64 * band) 64 r.top r.bottom fun y =>
    ((List.range _).map fun i => e.presence (max (400 * zone) r.left + i) y).sum).symm

/-- R104: a band's cells are empty where there is no extent. -/
theorem PixelInputs.bandDoses_none (none_ : e.extent = none) (band : Nat) (z : Fin 8) : (e.bandDoses band)[z] = 0 := by
  simp [PixelInputs.bandDoses, none_]

theorem PixelInputs.bandDoses_some (some_ : e.extent = some r) (band : Nat) (z : Fin 8) : (e.bandDoses band)[z] =
    plannedPulses e.recipe (e.cellSum r z.val band / cellPixels band) := by
  simp [PixelInputs.bandDoses, some_]

theorem plannedPulses_zero (r : Recipe) : plannedPulses r 0 = 0 := by
  simp [plannedPulses]

end Sums

/-! ### Frames -/

section Frames

variable {s : State}

theorem State.keeps_units_engine_ring (s : State) (m : Match) (e : Engine) (r : Ring) :
    s.keeps { s with units := m, engine := e, ring := r } [.units, .engine, .ring] := by
  intro p out
  cases p with
  | units | engine | ring => simp at out
  | notices => exact fun l => ⟨rfl, rfl, .inl rfl⟩
  | settings => exact fun l => ⟨rfl, rfl, rfl, rfl⟩
  | outputs => exact fun i => ⟨rfl, rfl, rfl, rfl⟩
  | _ => rfl

/-- An event that writes the garments, the engine and the ring, block by block. -/
theorem happened_units_engine_ring {i : Instr} {f : State → State} {m : Match} {e : Engine} {r : Ring}
    (event_ : exec i s = event f s) (high : s.resetLow = false) (effect : f s = { s with units := m, engine := e, ring := r }) :
    ∃ t, Happened i s t ∧ s.keeps t [.units, .engine, .ring] ∧ t.units = m ∧ t.engine = e ∧ t.ring = r := by
  obtain ⟨t, happened, kept⟩ := leads_of event_ high effect fun _ => rfl
  have frame := State.keeps_mono (more := [.units, .engine, .ring]) kept (by simp)
  exact ⟨t, happened, State.keeps_trans_of_links (by rfl) (s.keeps_units_engine_ring m e r) frame,
    kept .units (by simp), kept .engine (by simp), kept .ring (by simp)⟩

theorem happened_units_engine {i : Instr} {f : State → State} {m : Match} {e : Engine}
    (event_ : exec i s = event f s) (high : s.resetLow = false) (effect : f s = { s with units := m, engine := e }) :
    ∃ t, Happened i s t ∧ s.keeps t [.units, .engine] ∧ t.units = m ∧ t.engine = e := by
  obtain ⟨t, happened, kept, units, engine, ring⟩ := happened_units_engine_ring event_ high effect
  refine ⟨t, happened, fun p out => ?_, units, engine⟩
  by_cases h : p = .ring
  · exact h ▸ ring
  · exact kept p (by simp_all)

end Frames

/-! ### Units that do not end -/

section Still

variable {s : State} {u : RasterUnit}

theorem State.swathUnitEnd_idle (h : s.engine.unit = none) : s.swathUnitEnd = s := by
  simp only [State.swathUnitEnd, h]

theorem State.bandUnitEnd_idle (h : s.engine.unit = none) : s.bandUnitEnd = s := by
  simp only [State.bandUnitEnd, h]

theorem State.swathUnitEnd_band {k : Nat} (h : s.engine.unit = some u) (kind : u.kind = .band k) : s.swathUnitEnd = s := by
  simp only [State.swathUnitEnd, h, kind]

theorem State.bandUnitEnd_swath {q index : Nat} {phase : SwathPhase} {slot : Fin 4} (h : s.engine.unit = some u)
    (kind : u.kind = .swath q phase index slot) : s.bandUnitEnd = s := by
  simp only [State.bandUnitEnd, h, kind]

theorem RasterUnit.finished_iff : u.finished = true ↔ u.reads = [] ∧ u.writes = [] := by
  simp [RasterUnit.finished]

theorem RasterUnit.unfinished (h : u.reads ≠ [] ∨ u.writes ≠ []) : u.finished = false := by
  rw [← Bool.not_eq_true, RasterUnit.finished_iff]
  tauto

theorem State.swathUnitEnd_unfinished (h : s.engine.unit = some u) (left : u.finished = false) : s.swathUnitEnd = s := by
  cases kind : u.kind with
  | band k => exact State.swathUnitEnd_band h kind
  | swath q phase index slot => simp only [State.swathUnitEnd, h, kind, left, if_true]

theorem State.bandUnitEnd_unfinished (h : s.engine.unit = some u) (left : u.finished = false) : s.bandUnitEnd = s := by
  cases kind : u.kind with
  | band k => simp only [State.bandUnitEnd, h, kind, left, if_true]
  | swath q phase index slot => exact State.bandUnitEnd_swath h kind

end Still

/-! ### Results handed on (R104, R127, R132) -/

section Ends

variable {s : State} {u : RasterUnit} {g : Garment} {b : Binding} {e : Rect}

theorem State.swathUnitEnd_discarded {q index : Nat} {phase : SwathPhase} {slot : Fin 4} (h : s.engine.unit = some u)
    (kind : u.kind = .swath q phase index slot) (done : u.finished = true) (discarded : u.discarded = true) :
    s.swathUnitEnd =
      { s with engine := { s.engine with unit := none }, arbiter := s.arbiter.mark .engine .aborted .dropped } := by
  simp only [State.swathUnitEnd, h, kind, done, discarded, Bool.true_eq_false, if_false, if_true]
  rfl

theorem State.swathUnitEnd_done {q index : Nat} {phase : SwathPhase} {slot : Fin 4} (h : s.engine.unit = some u)
    (kind : u.kind = .swath q phase index slot) (done : u.finished = true) (kept : u.discarded = false) :
    s.swathUnitEnd = (s.handSwath u phase index slot).engineIdle := by
  simp only [State.swathUnitEnd, h, kind, done, kept, Bool.true_eq_false, Bool.false_eq_true, if_false]

/-- R127: the slot READY, one more swath produced, its weights in the tallies. -/
theorem State.handSwath_of {slot : Fin 4} {w : Swath} (unit : s.unitGarment u = some (g, b))
    (extent : s.extent b.placement = some e) (filled : s.ring.slots[slot] = some w) (phase : SwathPhase) (index : Nat) :
    s.handSwath u phase index slot =
      ({ s with ring := { s.ring with slots := upd s.ring.slots slot (some { w with status := .ready }) } }).putGarment u.platen
        (some { g with print := { g.print with
          produced := g.print.produced + 1
          tallies := g.print.tallies.addSwath (s.pixelInputs b.recipe b.placement) (swathShape e phase index) } }) := by
  simp only [State.handSwath, unit, extent, filled, Option.map_some]
  rfl

theorem State.bandUnitEnd_discarded {k : Nat} (h : s.engine.unit = some u) (kind : u.kind = .band k)
    (done : u.finished = true) (discarded : u.discarded = true) : s.bandUnitEnd = s.engineIdle := by
  simp only [State.bandUnitEnd, h, kind, done, discarded, Bool.true_eq_false, if_false, if_true]

theorem State.bandUnitEnd_done {k : Nat} (h : s.engine.unit = some u) (kind : u.kind = .band k)
    (done : u.finished = true) (kept : u.discarded = false) : s.bandUnitEnd = (s.handBand u k).engineIdle := by
  simp only [State.bandUnitEnd, h, kind, done, kept, Bool.true_eq_false, Bool.false_eq_true, if_false]

/-- R104: the eight cells and the planned total; with the cursor past the last band, coverage COMPLETE and the job gone. -/
theorem State.handBand_of {k : Fin 63} {j : Job} (unit : s.unitGarment u = some (g, b))
    (extent : s.extent b.placement = some e) (job : s.engine.jobs.find? (fun j => j.of u.platen u.serial) = some j) :
    let doses := (s.pixelInputs b.recipe b.placement).bandDoses k.val
    (s.handBand u k.val).engineIdle =
      { s with
        units := { s.units with garments := upd s.units.garments u.platen (some { g with pretreat := { g.pretreat with
          map := upd g.pretreat.map k doses
          planned := g.pretreat.planned + doses.toList.sum
          coverage := if e.bottom / 64 < j.cursor then .complete else g.pretreat.coverage } }) }
        engine := ⟨if e.bottom / 64 < j.cursor then s.engine.jobs.filter fun x => !x.of u.platen u.serial
          else s.engine.jobs, none⟩ } := by
  simp only [State.handBand, unit, extent, job, Option.all_some, decide_eq_true_iff, PretreatRecord.addBand, inRange_val]
  split <;> rfl

end Ends
end Sys2Proof.Machine

section
open Sys2Proof.Machine

/-- Settles O44: weights and doses as sums; each end by the kind of the unit in hand and whether it is discarded. -/
theorem unitEndHandsOnResults : Obligations.UnitEndHandsOnResults := by
  refine ⟨fun r phase index => rfl, fun e g plane => sumOver_eq _ _ _ _ _, fun e band z => ?_, fun s high => ?_⟩
  · intro presence cov
    cases extent : e.extent with
    | none =>
      have nothing : cov = 0 := by
        simp only [cov, extent, List.map_const', List.sum_replicate, smul_zero, Nat.zero_div]
      rw [PixelInputs.bandDoses_none extent, nothing]
      exact (plannedPulses_zero e.recipe).symm
    | some r =>
      have covered : cov = e.cellSum r z.val band / cellPixels band := by
        rw [PixelInputs.cellSum_eq]
        simp only [cov, extent]
        rfl
      rw [PixelInputs.bandDoses_some extent, ← covered]
      rfl
  have swathEnd {t : State} (effect : s.swathUnitEnd = t) (links : t.links = s.links) : Leads .swathUnitEnd s t :=
    leads_of rfl high effect fun l => congrArg (fun k => (Links.get k l).slot) links
  have bandEnd {t : State} (effect : s.bandUnitEnd = t) (links : t.links = s.links) : Leads .bandUnitEnd s t :=
    leads_of rfl high effect fun l => congrArg (fun k => (Links.get k l).slot) links
  refine ⟨fun idle => ⟨swathEnd (State.swathUnitEnd_idle idle) rfl, bandEnd (State.bandUnitEnd_idle idle) rfl⟩,
    fun u unit => ?_⟩
  intro idle
  refine ⟨fun left => ⟨swathEnd (State.swathUnitEnd_unfinished unit (RasterUnit.unfinished left)) rfl,
      bandEnd (State.bandUnitEnd_unfinished unit (RasterUnit.unfinished left)) rfl⟩,
    fun q phase index slot kind => bandEnd (State.bandUnitEnd_swath unit kind) rfl,
    fun k kind => swathEnd (State.swathUnitEnd_band unit kind) rfl, fun reads writes => ?_⟩
  have done : u.finished = true := RasterUnit.finished_iff.2 ⟨reads, writes⟩
  refine ⟨fun q phase index slot kind => ⟨fun discarded => ?_, fun kept g b e w here same bound extent filled => ?_⟩,
    fun k kind => ⟨fun discarded => ?_, fun kept g b e j here same bound extent job => ?_⟩⟩
  · exact swathEnd (State.swathUnitEnd_discarded unit kind done discarded) rfl
  · refine swathEnd ((State.swathUnitEnd_done unit kind done kept).trans ?_) rfl
    rw [State.handSwath_of (State.unitGarment_of here same bound) extent filled]
    cases phase <;> rfl
  · exact bandEnd (State.bandUnitEnd_discarded unit kind done discarded) rfl
  · intro doses last
    obtain ⟨t, happened, frame, units, engine⟩ := happened_units_engine (i := .bandUnitEnd) rfl high
      ((State.bandUnitEnd_done unit kind done kept).trans
        (State.handBand_of (State.unitGarment_of here same bound) extent job))
    refine ⟨t, happened, frame, by rw [engine], by rw [units], fun h => by rw [engine]; exact if_pos h,
      fun h => by rw [engine]; exact if_neg h,
      fun q other => ?_, ?_⟩
    · rw [State.garment, units]
      exact upd_get_ne _ _ _ _ other.symm
    · rw [State.garment, units]
      exact upd_get_self _ _ _

end
end

