-- ==== Sys2Proof/Proofs/UnitBegins.lean ====
section
/-! PROOF. The head-of-line garment and the raster units begun: their slot, their reads and their writes
(R87, R91, R103, R121, R124 to R126, R180). -/

namespace Sys2Proof.Machine

/-! ### Swath bytes (R180) -/

theorem PixelInputs.swathByte_at (e : PixelInputs) (g : SwathShape) {plane row column : Nat} (hr : row < g.rows)
    (hc : column < g.rowBytes) : e.swathByte g (plane * g.rows * g.rowBytes + row * g.rowBytes + column) =
      let x := g.xStart + 4 * column
      let y := g.rowStart + row
      BitVec.ofNat 8 (64 * e.level g plane x y + 16 * e.level g plane (x + 1) y + 4 * e.level g plane (x + 2) y +
        e.level g plane (x + 3) y) := by
  have inRow : (row * g.rowBytes + column) / g.rowBytes = row ∧ (row * g.rowBytes + column) % g.rowBytes = column :=
    (Nat.div_mod_unique (by omega)).2 ⟨by rw [Nat.mul_comm, Nat.add_comm], hc⟩
  have inPlane : row * g.rowBytes + column < g.rows * g.rowBytes :=
    calc row * g.rowBytes + column < (row + 1) * g.rowBytes := by rw [Nat.succ_mul]; omega
      _ ≤ g.rows * g.rowBytes := Nat.mul_le_mul_right _ hr
  have parts : (plane * g.rows * g.rowBytes + row * g.rowBytes + column) / (g.rows * g.rowBytes) = plane ∧
      (plane * g.rows * g.rowBytes + row * g.rowBytes + column) % (g.rows * g.rowBytes) = row * g.rowBytes + column :=
    (Nat.div_mod_unique (by omega)).2 ⟨by ring, inPlane⟩
  simp only [PixelInputs.swathByte, parts, inRow]

/-! ### The head-of-line garment (R121, R124) -/

section HeadOfLine

variable {s : State} {p : Fin 16} {x : Producing}

theorem Garment.pretreated_iff (g : Garment) : g.pretreated = true ↔
    (g.pretreat.result = .done ∨ g.pretreat.result = .short ∨ g.pretreat.result = .waived) ∧
    (g.press = .done ∨ g.press = .waived) := by
  simp [Garment.pretreated, or_assoc]

theorem State.eligible_iff : s.eligible p = some x ↔ Eligible s p x := by
  unfold Eligible
  constructor
  · intro h
    unfold State.eligible at h
    split at h
    · cases h
    next g here =>
    split at h
    · cases h
    next b bound =>
    split at h
    · cases h
    next r extent =>
    split at h
    · next five =>
      cases h
      obtain ⟨good, pretreated, complete, aborted, left⟩ := five
      obtain ⟨result, press⟩ := g.pretreated_iff.1 pretreated
      rw [State.swathCountOf, extent] at left
      exact ⟨rfl, here, bound, extent, good, result, press, complete, aborted, left⟩
    · cases h
  · rintro ⟨rfl, here, bound, extent, good, result, press, complete, aborted, left⟩
    have pretreated := x.garment.pretreated_iff.2 ⟨result, press⟩
    simp only [State.eligible, here, bound, extent]
    refine if_pos ⟨good, pretreated, complete, aborted, ?_⟩
    rw [State.swathCountOf, extent]
    exact left

/-- R124: S3's occupant, or, with none and S3 reserved, the platen that the segments and the places agree is on E2. -/
theorem State.printPosition_iff (inv : TrackInv s.track) : s.printPosition = some p ↔ PrintPosition s p := by
  have moving := inv.moving p (.entry 2)
  have uncertain := inv.uncertain p (.entry 2)
  simp only [State.printPosition, PrintPosition, State.place, State.seg]
  cases (s.station 3).occupant with
  | some q => simp
  | none =>
    cases (s.station 3).reserved with
    | false => simp
    | true =>
      rw [moving, uncertain]
      cases s.track.seg (.entry 2) <;> simp [eq_comm]

theorem State.bind_eligible_iff {o : Option (Fin 16)} : o.bind s.eligible = some x ↔ ∃ p, o = some p ∧ Eligible s p x := by
  simp only [Option.bind_eq_some_iff, State.eligible_iff]

theorem State.bind_eligible_none {o : Option (Fin 16)} (no : ∀ x, ¬∃ p, o = some p ∧ Eligible s p x) :
    o.bind s.eligible = none :=
  Option.eq_none_iff_forall_ne_some.2 fun x some_ => no x (State.bind_eligible_iff.1 some_)

theorem State.headOfLine_of_printing (inv : TrackInv s.track) (position : PrintPosition s p) (eligible : Eligible s p x) :
    s.headOfLine = some x := by
  have here := State.bind_eligible_iff.2 ⟨p, (State.printPosition_iff inv).2 position, eligible⟩
  simp only [State.headOfLine, here]

theorem State.headOfLine_of_not_printing (inv : TrackInv s.track) (no : ∀ x, ¬∃ p, PrintPosition s p ∧ Eligible s p x) :
    s.headOfLine = (s.lane 2).head?.bind s.eligible := by
  have none_ : s.printPosition.bind s.eligible = none := State.bind_eligible_none fun x ⟨p, at_, eligible⟩ =>
    no x ⟨p, (State.printPosition_iff inv).1 at_, eligible⟩
  simp only [State.headOfLine, none_]
  rfl

end HeadOfLine

/-! ### Blocks (R87, R91, R126) -/

section Blocks

variable {s : State} {b : Binding} {e : Rect}

theorem mem_blocksOf {first stop block : Nat} :
    block ∈ blocksOf first stop ↔ ∃ a, first ≤ a ∧ a < stop ∧ block = a / 64 * 64 := by
  unfold blocksOf
  split
  · simp only [List.not_mem_nil, false_iff, not_exists]
    omega
  · simp only [List.mem_map, List.mem_range]
    constructor
    · rintro ⟨i, hi, rfl⟩
      exact ⟨max first (64 * (first / 64 + i)), by omega, by omega, by omega⟩
    · rintro ⟨a, low, high, rfl⟩
      exact ⟨a / 64 - first / 64, by omega, by omega⟩

theorem blocksOf_pairwise (first stop : Nat) : (blocksOf first stop).Pairwise (· < ·) := by
  unfold blocksOf
  split
  · exact .nil
  · exact List.pairwise_map.2 (List.pairwise_lt_range.imp fun h => by omega)

/-- From an aligned address on, the blocks are as many as the length covers. -/
theorem blocksOf_aligned {base : Nat} (aligned : base % 64 = 0) (length : Nat) :
    blocksOf base (base + length) = (List.range ((length + 63) / 64)).map fun n => base + 64 * n := by
  unfold blocksOf
  split
  next empty =>
    obtain rfl : length = 0 := by omega
    rfl
  next some_ =>
    have count : (base + length - 1) / 64 - base / 64 + 1 = (length + 63) / 64 := by omega
    rw [count]
    exact List.map_congr_left fun n _ => by omega

theorem slotBase_aligned (i : Fin 4) : slotBase i % 64 = 0 := by
  unfold slotBase ringBase
  omega

/-- R126, R180: every block of the slot that the swath covers, with the first row not finished without it. -/
theorem SwathShape.blocks_of (g : SwathShape) {base : Nat} (aligned : base % 64 = 0) : g.blocks base =
    (List.range ((g.length + 63) / 64)).map fun n =>
      (g.rowStart + (64 * n - (g.phase.planes - 1) * (g.rows * g.rowBytes)) / g.rowBytes, base + 64 * n) := by
  rw [SwathShape.blocks, blocksOf_aligned aligned, List.map_map]
  refine List.map_congr_left fun n _ => ?_
  simp only [Function.comp_apply, Nat.add_sub_cancel_left]

/-- R87: the bytes of a run of columns, first to last, are those of its pixels. -/
theorem columnBytes_iff (f : ArtFormat) (row col0 n a : Nat) :
    (row + f.columnByte col0 ≤ a ∧ a < row + f.columnByte (col0 + n) + f.pixelBytes) ↔
    ∃ k, k ≤ n ∧ row + f.columnByte (col0 + k) ≤ a ∧ a < row + f.columnByte (col0 + k) + f.pixelBytes := by
  cases f with
  | idx4 =>
    simp only [ArtFormat.columnByte, ArtFormat.pixelBytes]
    exact ⟨fun h => ⟨2 * (a - row) - col0, by omega⟩, fun ⟨k, h⟩ => by omega⟩
  | idx8 =>
    simp only [ArtFormat.columnByte, ArtFormat.pixelBytes]
    exact ⟨fun h => ⟨a - row - col0, by omega⟩, fun ⟨k, h⟩ => by omega⟩
  | cmyka =>
    simp only [ArtFormat.columnByte, ArtFormat.pixelBytes]
    exact ⟨fun h => ⟨(a - row) / 5 - col0, by omega⟩, fun ⟨k, h⟩ => by omega⟩

/-- R87: the blocks in which the art of a field row lies. -/
theorem mem_rowBlocks {p : Placement} {d : Art} {r : Rect} {y z block : Nat} : (z, block) ∈ rowBlocks p d r y ↔
    z = y ∧ r.top ≤ y ∧ y ≤ r.bottom ∧ ∃ a, block = a / 64 * 64 ∧
      d.base + (p.row0 + (y - p.oy)) * d.stride + d.format.columnByte p.col0 ≤ a ∧
      a < d.base + (p.row0 + (y - p.oy)) * d.stride + d.format.columnByte (p.col0 + (r.right - r.left)) +
        d.format.pixelBytes := by
  unfold rowBlocks
  split
  next on =>
    simp only [List.mem_map, mem_blocksOf, Prod.mk.injEq]
    constructor
    · rintro ⟨c, ⟨a, low, high, rfl⟩, rfl, rfl⟩
      exact ⟨rfl, on.1, on.2, a, rfl, low, high⟩
    · rintro ⟨rfl, -, -, a, rfl, low, high⟩
      exact ⟨_, ⟨a, low, high, rfl⟩, rfl, rfl⟩
  next off =>
    simp only [List.not_mem_nil, false_iff]
    exact fun ⟨_, top, bottom, _⟩ => off ⟨top, bottom⟩

/-- R87: a pixel's bytes, format by format. -/
theorem pixelBytes_iff (f : ArtFormat) (row col a : Nat) :
    (match f with
      | .idx4 => a = row + col / 2
      | .idx8 => a = row + col
      | .cmyka => row + 5 * col ≤ a ∧ a < row + 5 * col + 5) ↔
    row + f.columnByte col ≤ a ∧ a < row + f.columnByte col + f.pixelBytes := by
  cases f <;> simp only [ArtFormat.columnByte, ArtFormat.pixelBytes] <;> omega

theorem readsBlock_iff {d : Art} {r : Rect} {y block : Nat} (here : s.art b.placement.art = some d)
    (foot : artFootprint b.placement d = some r) :
    ReadsBlock s b.placement y block ↔ (y, block) ∈ rowBlocks b.placement d r y := by
  obtain ⟨⟨wide, -⟩, left, -⟩ := artFootprint_eq_some.1 foot
  rw [mem_rowBlocks]
  constructor
  · rintro ⟨d', r', x, a, here', foot', top, bottom, hl, hr, rfl, byte⟩
    obtain rfl : d = d' := Option.some.inj (here.symm.trans here')
    obtain rfl : r = r' := Option.some.inj (foot.symm.trans foot')
    exact ⟨rfl, top, bottom, a, rfl, (columnBytes_iff _ _ _ _ _).2
      ⟨x - b.placement.ox, by omega, (pixelBytes_iff _ _ _ _).1 byte⟩⟩
  · rintro ⟨-, top, bottom, a, rfl, run⟩
    obtain ⟨k, le, byte⟩ := (columnBytes_iff _ _ _ _ _).1 run
    refine ⟨d, r, r.left + k, a, here, foot, top, bottom, by omega, by omega, rfl, (pixelBytes_iff _ _ _ _).2 ?_⟩
    rwa [left, Nat.add_sub_cancel_left]

theorem not_readsBlock {y block : Nat} (no : ∀ d, s.art b.placement.art = some d → artFootprint b.placement d = none) :
    ¬ReadsBlock s b.placement y block := by
  rintro ⟨d, r, x, a, here, foot, -⟩
  rw [no d here] at foot
  cases foot

theorem rowBlocks_pairwise (p : Placement) (d : Art) (r : Rect) (y : Nat) :
    (rowBlocks p d r y).Pairwise fun x z => x.1 < z.1 ∨ (x.1 = z.1 ∧ x.2 < z.2) := by
  unfold rowBlocks
  split
  · exact List.pairwise_map.2 ((blocksOf_pairwise _ _).imp fun h => .inr ⟨rfl, h⟩)
  · exact .nil

/-- The rows of a unit and the choke's margins about them that lie in the extent (R91). -/
def choked (choke : Nat) (ext : Rect) (first last : Nat) : List Nat :=
  (List.range (min (last + choke) ext.bottom + 1 - max (first - choke) ext.top)).map (max (first - choke) ext.top + ·)

theorem mem_choked {choke first last y : Nat} {ext : Rect} : y ∈ choked choke ext first last ↔
    first ≤ y + choke ∧ y ≤ last + choke ∧ ext.top ≤ y ∧ y ≤ ext.bottom := by
  simp only [choked, List.mem_map, List.mem_range]
  exact ⟨fun ⟨j, h, e⟩ => by omega, fun h => ⟨y - max (first - choke) ext.top, by omega, by omega⟩⟩

theorem choked_pairwise (choke : Nat) (ext : Rect) (first last : Nat) : (choked choke ext first last).Pairwise (· < ·) :=
  List.pairwise_map.2 (List.pairwise_lt_range.imp fun h => Nat.add_lt_add_left h _)

theorem PixelInputs.unitReads_of {e : PixelInputs} {d : Art} {r : Rect} (here : e.art = some d)
    (foot : artFootprint e.placement d = some r) (ext : Rect) (first last : Nat) : e.unitReads ext first last =
      (choked e.recipe.choke ext first last).flatMap (rowBlocks e.placement d r) := by
  simp only [PixelInputs.unitReads, here, foot, choked, List.flatMap_map]

theorem PixelInputs.unitReads_none {e : PixelInputs} (no : ∀ d, e.art = some d → artFootprint e.placement d = none)
    (ext : Rect) (first last : Nat) : e.unitReads ext first last = [] := by
  unfold PixelInputs.unitReads
  split
  · rfl
  next d here => rw [no d here]

/-- R91, log 9: what a unit plans to read. -/
theorem State.unitReads_planned (s : State) (b : Binding) (e : Rect) (first last : Nat) :
    PlannedReads s b e first last ((s.pixelInputs b.recipe b.placement).unitReads e first last) := by
  by_cases art : ∃ d r, s.art b.placement.art = some d ∧ artFootprint b.placement d = some r
  · obtain ⟨d, r, here, foot⟩ := art
    rw [PixelInputs.unitReads_of (e := s.pixelInputs b.recipe b.placement) here foot]
    refine ⟨fun y block => ?_, List.pairwise_flatMap.2 ⟨fun y _ => rowBlocks_pairwise _ _ _ _,
      (choked_pairwise _ _ _ _).imp fun {y z} less => ?_⟩⟩
    · rw [List.mem_flatMap, readsBlock_iff here foot]
      constructor
      · rintro ⟨z, mem, block⟩
        obtain rfl := (mem_rowBlocks.1 block).1
        obtain ⟨low, high, top, bottom⟩ := mem_choked.1 mem
        exact ⟨low, high, top, bottom, block⟩
      · rintro ⟨low, high, top, bottom, block⟩
        exact ⟨y, mem_choked.2 ⟨low, high, top, bottom⟩, block⟩
    · rintro ⟨y', _⟩ hy ⟨z', _⟩ hz
      obtain rfl := (mem_rowBlocks.1 hy).1
      obtain rfl := (mem_rowBlocks.1 hz).1
      exact .inl less
  · have no (d : Art) (here : s.art b.placement.art = some d) : artFootprint b.placement d = none :=
      Option.eq_none_iff_forall_ne_some.2 fun r foot => art ⟨d, r, here, foot⟩
    rw [PixelInputs.unitReads_none (e := s.pixelInputs b.recipe b.placement) no]
    refine ⟨fun y block => iff_of_false (List.not_mem_nil) ?_, .nil⟩
    rintro ⟨-, -, -, -, reads⟩
    exact not_readsBlock no reads

end Blocks

/-! ### What may begin (R125, R126) -/

section May

variable {s : State} {i : Fin 4} {x : Producing}

theorem Ring.freeSlot_lowest {r : Ring} (free : r.slots[i] = none) (lowest : ∀ k : Fin 4, k < i → r.slots[k] ≠ none) :
    r.freeSlot = some i := by
  refine List.find?_eq_some_iff_getElem.2 ⟨by simpa using free, i.val, by simp, by simp, fun k below => ?_⟩
  simpa [Option.isSome_iff_ne_none] using lowest ⟨k, by omega⟩ below

theorem Ring.freeSlot_full {r : Ring} (full : ∀ k : Fin 4, r.slots[k] ≠ none) : r.freeSlot = none :=
  List.find?_eq_none.2 fun k _ => by simpa using full k

theorem State.swathPossible_none (h : s.headOfLine = none ∨ ∀ k : Fin 4, s.ring.slots[k] ≠ none) : s.swathPossible = none := by
  unfold State.swathPossible
  split
  next some_ free =>
    rcases h with none_ | full
    · simp [none_] at some_
    · simp [Ring.freeSlot_full full] at free
  · rfl

theorem State.swathPossible_of (head : s.headOfLine = some x) (free : s.ring.slots[i] = none)
    (lowest : ∀ k : Fin 4, k < i → s.ring.slots[k] ≠ none) : s.swathPossible = some (x, i) := by
  simp only [State.swathPossible, head, Ring.freeSlot_lowest free lowest]

theorem State.swathUnitBegin_busy (busy : s.engine.unit ≠ none) : s.swathUnitBegin = s := by
  unfold State.swathUnitBegin
  split
  next idle _ => exact absurd idle busy
  · rfl

theorem State.swathUnitBegin_blocked (h : s.swathPossible = none) : s.swathUnitBegin = s := by
  unfold State.swathUnitBegin
  split
  next some_ => simp [h] at some_
  · rfl

theorem State.swathUnitBegin_of (idle : s.engine.unit = none) (h : s.swathPossible = some (x, i)) :
    s.swathUnitBegin = s.beginSwath x i := by
  simp only [State.swathUnitBegin, idle, h]

theorem State.bandUnitBegin_busy (busy : s.engine.unit ≠ none ∨ s.swathPossible ≠ none ∨ s.engine.jobs = []) :
    s.bandUnitBegin = s := by
  unfold State.bandUnitBegin
  split
  next idle swath job => simp [idle, swath, job] at busy
  · rfl

theorem State.bandUnitBegin_of {j : Job} {rest : List Job} {g : Garment} {b : Binding} {e : Rect}
    (idle : s.engine.unit = none) (swath : s.swathPossible = none) (jobs : s.engine.jobs = j :: rest)
    (here : s.garment j.platen = some g) (same : g.serial = j.serial) (bound : g.binding = some b)
    (extent : s.extent b.placement = some e) (left : j.cursor ≤ e.bottom / 64) :
    s.bandUnitBegin = s.beginBand j g b e := by
  simp only [State.bandUnitBegin, idle, swath, jobs, here, bound, extent, same, left, and_self, if_true]

end May

/-! ### A unit begun (R103, R121, R126) -/

section Begun

variable {s : State} {x : Producing} {i : Fin 4} {phase : SwathPhase} {index : Nat}

/-- R121: the phase and the swath row index of a sequence number. -/
theorem swathOf_eq (dark : Bool) (e : Rect) (q : Nat) :
    let n := e.bottom / 256 - e.top / 256 + 1
    swathOf dark e q = (if dark = true ∧ q < n then .underbase else .color,
      e.top / 256 + if dark = true ∧ n ≤ q then q - n else q) := by
  intro n
  have count : e.indexCount = n := rfl
  simp only [swathOf, count]
  cases dark with
  | false => simp
  | true =>
    rcases Nat.lt_or_ge q n with under | color
    · simp [under, Nat.not_le.2 under]
    · simp [color, Nat.not_lt.2 color, Nat.add_sub_assoc]

theorem PrintRecord.planned_set {r : PrintRecord} (h : r.count = 0) (dark : Bool) (e : Rect) :
    r.planned dark (some e) =
      { r with first := e.top / 256, last := e.bottom / 256, count := swathCount dark (some e) } := by
  simp only [PrintRecord.planned, h, ne_eq, not_true_eq_false, if_false]
  rfl

theorem PrintRecord.planned_kept {r : PrintRecord} (h : r.count ≠ 0) (dark : Bool) (e : Option Rect) :
    r.planned dark e = r := if_pos h

theorem PrintRecord.planned_progress (r : PrintRecord) (dark : Bool) (e : Option Rect) :
    (r.planned dark e).produced = r.produced ∧ (r.planned dark e).released = r.released ∧
    (r.planned dark e).tallies = r.tallies := by
  unfold PrintRecord.planned
  repeat' split
  all_goals exact ⟨rfl, rfl, rfl⟩

/-- The garment of a swath begun: its print record planned and in the swath's phase. -/
def Producing.begun (x : Producing) (phase : SwathPhase) : Garment :=
  { x.garment with print := { x.garment.print.planned x.binding.recipe.dark (some x.extent) with phase := phase.print } }

/-- The unit of a swath begun, by its shape. -/
def State.swathUnit (s : State) (x : Producing) (i : Fin 4) (phase : SwathPhase) (index : Nat) : RasterUnit :=
  let shape := swathShape x.extent phase index
  let last := shape.rowStart + shape.rows - 1
  { kind := .swath x.garment.print.produced phase index i, platen := x.platen, serial := x.garment.serial,
    first := shape.rowStart, last := last, next := shape.rowStart, choke := x.binding.recipe.choke,
    reads := (s.pixelInputs x.binding.recipe x.binding.placement).unitReads x.extent shape.rowStart last,
    writes := shape.blocks (slotBase i), discarded := false }

theorem State.beginSwath_of (h : swathOf x.binding.recipe.dark x.extent x.garment.print.produced = (phase, index)) :
    let shape := swathShape x.extent phase index
    s.beginSwath x i =
      { s with
        units := { s.units with garments := upd s.units.garments x.platen (some (x.begun phase)) }
        engine := { s.engine with unit := some (s.swathUnit x i phase index) }
        ring := { s.ring with
          slots := upd s.ring.slots i (some ⟨.filling, x.garment.serial, x.garment.print.produced, phase, shape.rowStart,
            shape.rows, shape.xStart, shape.width, shape.length⟩)
          order := s.ring.order ++ [i] } } := by
  simp only [State.beginSwath, h]
  rfl

/-- The unit of a band begun for a job, by the extent. -/
def State.bandUnit (s : State) (j : Job) (b : Binding) (e : Rect) : RasterUnit :=
  let first := max (64 * j.cursor) e.top
  let last := min (64 * j.cursor + 63) e.bottom
  { kind := .band j.cursor, platen := j.platen, serial := j.serial, first := first, last := last, next := first,
    choke := b.recipe.choke, reads := (s.pixelInputs b.recipe b.placement).unitReads e first last, writes := [],
    discarded := false }

theorem State.beginBand_of {j : Job} {rest : List Job} {g : Garment} {b : Binding} {e : Rect}
    (jobs : s.engine.jobs = j :: rest) : s.beginBand j g b e =
      { s with
        units := { s.units with
          garments := upd s.units.garments j.platen (some { g with pretreat := { g.pretreat with coverage := .scanning } }) }
        engine := ⟨{ j with cursor := j.cursor + 1 } :: rest, some (s.bandUnit j b e)⟩ } := by
  have tail : s.engine.jobs.tail = rest := by rw [jobs, List.tail_cons]
  rw [← tail]
  rfl

end Begun
end Sys2Proof.Machine

section
open Sys2Proof.Machine

/-- Settles O43: the swath's bytes, the print order, then each begin by whether a swath can begin. -/
theorem engineTakesNextUnit : Obligations.EngineTakesNextUnit := by
  refine ⟨fun e g plane row column wide hr hc => ⟨PixelInputs.swathByte_at e g hr hc, fun z right =>
    PixelInputs.level_right right _ _⟩, fun s inv => ?_, fun s high => ?_⟩
  · intro printing prefetched
    refine ⟨fun x ⟨p, position, eligible⟩ => State.headOfLine_of_printing inv position eligible, fun no => ?_⟩
    rw [State.headOfLine_of_not_printing inv no]
    exact ⟨fun x here => State.bind_eligible_iff.2 here, State.bind_eligible_none⟩
  have swathStill (h : s.swathUnitBegin = s) : Leads .swathUnitBegin s s := leads_of rfl high h fun _ => rfl
  have bandStill (h : s.engine.unit ≠ none ∨ s.swathPossible ≠ none ∨ s.engine.jobs = []) : Leads .bandUnitBegin s s :=
    leads_of rfl high (State.bandUnitBegin_busy h) fun _ => rfl
  refine ⟨fun busy => ⟨swathStill (State.swathUnitBegin_busy busy), bandStill (.inl busy)⟩, fun blocked => ?_,
    fun x i head idle free lowest => ?_⟩
  · have none_ := State.swathPossible_none blocked
    refine ⟨swathStill (State.swathUnitBegin_blocked none_), fun idle => ⟨fun empty => bandStill (.inr (.inr empty)),
      fun j rest g b e jobs here same bound extent left => ?_⟩⟩
    obtain ⟨t, happened, kept, units, engine⟩ := happened_units_engine (i := .bandUnitBegin) rfl high
      ((State.bandUnitBegin_of idle none_ jobs here same bound extent left).trans (State.beginBand_of jobs))
    refine ⟨t, _, happened, kept, by rw [units], s.unitReads_planned b e _ _, fun q other => ?_, ?_, by rw [engine],
      by rw [engine]; rfl⟩
    · rw [State.garment, units]
      exact upd_get_ne _ _ _ _ other.symm
    · rw [State.garment, units]
      exact upd_get_self _ _ _
  · have possible := State.swathPossible_of head free lowest
    refine ⟨bandStill (.inr (.inl (by simp [possible]))), ?_⟩
    intro g e q n dark phase index top rows width length base planes
    obtain ⟨t, happened, kept, units, engine, ring⟩ := happened_units_engine_ring (i := .swathUnitBegin) rfl high
      ((State.swathUnitBegin_of idle possible).trans (State.beginSwath_of (phase := phase) (index := index)
        (swathOf_eq dark e q)))
    obtain ⟨produced, released, tallies⟩ := g.print.planned_progress dark (some e)
    refine ⟨t, _, _, happened, kept, by rw [units], s.unitReads_planned x.binding e _ _,
      SwathShape.blocks_of (swathShape e phase index) (slotBase_aligned i), fun k other => ?_,
      ⟨x.begun phase, ?_, rfl, fun first => ?_, fun later => ?_, produced, released, tallies, rfl⟩, ring, by rw [engine],
      by rw [engine]; rfl⟩
    · rw [State.garment, units]
      exact upd_get_ne _ _ _ _ other.symm
    · rw [State.garment, units]
      exact upd_get_self _ _ _
    · rw [Producing.begun, PrintRecord.planned_set first]
      exact ⟨rfl, rfl, rfl⟩
    · rw [Producing.begun, PrintRecord.planned_kept later]
      exact ⟨rfl, rfl, rfl⟩

end
end

