-- ==== Sys2Proof/Proofs/PressCycle.lean ====
section
/-! PROOF. The press's cycle: its start, close, dwell and opening, and the two press faults (R113 to R116). -/

namespace Sys2Proof.Machine

section PressCycle

variable {s : State} {p : Fin 16} {g h : Garment} {r : Recipe}

/-! ### The garment at a station, its record written -/

theorem State.putGarment_garmentAt {n : Fin 6} (at_ : s.garmentAt n = some (p, g)) :
    (s.putGarment p (some h)).garmentAt n = some (p, h) := by
  obtain ⟨occupant, place, -⟩ := State.garmentAt_iff.1 at_
  exact State.garmentAt_iff.2 ⟨occupant, place, State.putGarment_garment_self ..⟩

theorem State.pressed_iff_garmentAt :
    s.pressed = some (p, g, r) ↔ s.garmentAt 2 = some (p, g) ∧ g.binding.map (·.recipe) = some r := by
  unfold State.pressed
  cases s.garmentAt 2 with
  | none => simp
  | some x =>
    obtain ⟨q, x⟩ := x
    simp only [Option.map_eq_some_iff, Option.some.injEq, Prod.mk.injEq]
    constructor
    · rintro ⟨b, bound, rfl, rfl, rfl⟩
      exact ⟨⟨rfl, rfl⟩, b, bound, rfl⟩
    · rintro ⟨⟨rfl, rfl⟩, b, bound, rfl⟩
      exact ⟨b, bound, rfl, rfl, rfl⟩

theorem State.putGarment_pressed (at_ : s.pressed = some (p, g, r)) (same : h.binding = g.binding) :
    (s.putGarment p (some h)).pressed = some (p, h, r) := by
  obtain ⟨here, bound⟩ := State.pressed_iff_garmentAt.1 at_
  exact State.pressed_iff_garmentAt.2 ⟨State.putGarment_garmentAt here, same ▸ bound⟩

@[simp] theorem State.setInputs_pressed (x : Inputs) : (s.setInputs x).pressed = s.pressed := rfl

/-! ### The start (R113) -/

theorem State.pressStart_none (h : s.pressed = none) : s.pressStart = s := by
  simp [State.pressStart, h]

theorem State.pressStart_at (at_ : s.pressed = some (p, g, r)) :
    s.pressStart = if s.press = .idle ∧ g.disposition = .good ∧ g.press = .pending ∧ s.track.line = .running ∧
        s.inputs.pressOpen.level = true then
      (s.putGarment p (some { g with stage := .pressing })).setPress (.closing 3000) else s := by
  simp only [State.pressStart, at_]
  rfl

/-- R113: the press starts only when it is IDLE and seen open and the line RUNNING. -/
theorem State.pressStart_still
    (h : s.pressed = none ∨ s.press ≠ .idle ∨ s.track.line ≠ .running ∨ s.inputs.pressOpen.level = false) :
    s.pressStart = s := by
  cases at_ : s.pressed with
  | none => exact State.pressStart_none at_
  | some x =>
    rw [State.pressStart_at at_]
    refine if_neg fun ⟨idle, _, _, line, level⟩ => ?_
    simp [at_, idle, line, level] at h

/-! ### The inputs and the dwell (R114) -/

theorem leads_pressClosed {u : State} (high : s.resetLow = false) (effect : s.pressClosed = u) (links : u.links = s.links) :
    Leads .pressClosed s u :=
  leads_of_signal (drive := fun i => { i with pressClosed := i.pressClosed.drive true }) rfl high effect fun l =>
    congrArg (fun k => (Links.get k l).slot) links

theorem leads_pressOpen {u : State} (high : s.resetLow = false) (effect : s.pressOpened = u) (links : u.links = s.links) :
    Leads .pressOpen s u :=
  leads_of_signal (drive := fun i => { i with pressOpen := i.pressOpen.drive true }) rfl high effect fun l =>
    congrArg (fun k => (Links.get k l).slot) links

theorem State.pressClosed_closing {n : Nat} (closing : s.press = .closing n) (at_ : s.pressed = some (p, g, r)) :
    s.pressClosed = (s.setInputs { s.inputs with pressClosed := ⟨true, true, 0⟩ }).setPress (.dwell (100 * r.dwell)) := by
  simp only [State.pressClosed, State.setInputs_press, State.setInputs_pressed, closing, at_]
  rfl

theorem State.pressClosed_other (h : ∀ n, s.press ≠ .closing n) :
    s.pressClosed = s.setInputs { s.inputs with pressClosed := ⟨true, true, 0⟩ } := by
  cases e : s.press with
  | closing n => exact absurd e (h n)
  | _ => simp only [State.pressClosed, State.setInputs_press, e, LevelInput.settled]

theorem State.dwellExpiry_due (h : s.press = .dwell 0) : s.dwellExpiry = s.setPress (.opening 3000) := by
  simp only [State.dwellExpiry, h]
  rfl

theorem State.dwellExpiry_other (h : s.press ≠ .dwell 0) : s.dwellExpiry = s := by
  unfold State.dwellExpiry
  split
  · exact absurd ‹_› h
  · rfl

/-- R114, R116: the press seen open, opening or after an open fault, is done with the garment. -/
theorem State.pressOpened_opening (opening : (∃ n, s.press = .opening n) ∨ s.press = .fault .opening)
    (at_ : s.garmentAt 2 = some (p, g)) :
    s.pressOpened = ((s.setInputs { s.inputs with pressOpen := ⟨true, true, 0⟩ }).putGarment p
      (some { g with press := .done })).setPress .idle := by
  have done := (State.setPressRecord_at (u := s.setInputs { s.inputs with pressOpen := ⟨true, true, 0⟩ }) at_ .done)
  rw [← done]
  obtain ⟨n, e⟩ | e := opening <;> simp only [State.pressOpened, State.setInputs_press, e, LevelInput.settled]

theorem State.pressOpened_other (h : ∀ n, s.press ≠ .opening n) (k : s.press ≠ .fault .opening) :
    s.pressOpened = s.setInputs { s.inputs with pressOpen := ⟨true, true, 0⟩ } := by
  unfold State.pressOpened
  dsimp only
  split
  · exact absurd ‹_› (h _)
  · exact absurd ‹_› k
  · rfl

/-! ### The press faults (R115, R116) -/

/-- R115: holding S2 moves no garment. -/
theorem State.held_pressed : (s.putStation 2 { s.station 2 with held := true }).pressed = s.pressed := by
  have station : ((s.putStation 2 { s.station 2 with held := true }).station 2).occupant = (s.station 2).occupant := by
    rw [State.station, State.putStation, State.setTrack_track, upd_get_self]
  have here : (s.putStation 2 { s.station 2 with held := true }).garmentAt 2 = s.garmentAt 2 := by
    unfold State.garmentAt
    rw [station]
    rfl
  unfold State.pressed
  rw [here]

theorem State.pressFaulted_at (at_ : s.pressed = some (p, g, r)) (c : PressCause) :
    s.pressFaulted c = ((s.putStation 2 { s.station 2 with held := true }).setPress (.fault c)).raise
      (.pressFault p g.serial c r.dwell) := by
  have stays : ((s.putStation 2 { s.station 2 with held := true }).setPress (.fault c)).pressed = some (p, g, r) :=
    State.held_pressed.trans at_
  simp only [State.pressFaulted, stays]

theorem State.closeTimeout_due (h : s.press = .closing 0) : s.closeTimeout = s.pressFaulted .close := by
  simp only [State.closeTimeout, h]

theorem State.closeTimeout_other (h : s.press ≠ .closing 0) : s.closeTimeout = s := by
  unfold State.closeTimeout
  split
  · exact absurd ‹_› h
  · rfl

/-- R116: an open fault leaves the garment's record INTERRUPTED. -/
theorem State.openTimeout_due (h : s.press = .opening 0) (at_ : s.garmentAt 2 = some (p, g)) :
    s.openTimeout = (s.putGarment p (some { g with press := .interrupted })).pressFaulted .opening := by
  simp only [State.openTimeout, h, State.setPressRecord_at at_]

theorem State.openTimeout_other (h : s.press ≠ .opening 0) : s.openTimeout = s := by
  unfold State.openTimeout
  split
  · exact absurd ‹_› h
  · rfl

end PressCycle

end Sys2Proof.Machine

section
open Sys2Proof.Machine

/-- Settles O42: each command of the press is an event or a signal, whose effect in each state of the controller is one
of the equations above. -/
theorem pressRunsItsCycle : Obligations.PressRunsItsCycle := by
  refine ⟨fun s p g r => ?_, fun s high => ?_⟩
  · rw [State.pressed_iff_garmentAt, State.garmentAt_iff]
    simp only [and_assoc]
  intro closedIn openIn held
  refine ⟨fun h => leads_of rfl high (State.pressStart_still h) fun _ => rfl,
    fun h => leads_pressClosed high (State.pressClosed_other h) rfl,
    fun h => leads_of rfl high (State.dwellExpiry_other h) fun _ => rfl,
    fun h => leads_of rfl high (State.dwellExpiry_due h) fun _ => rfl,
    fun h k => leads_pressOpen high (State.pressOpened_other h k) rfl,
    fun h => leads_of rfl high (State.closeTimeout_other h) fun _ => rfl,
    fun h => leads_of rfl high (State.openTimeout_other h) fun _ => rfl, fun p g r at_ => ?_⟩
  have here := (State.pressed_iff_garmentAt.1 at_).1
  refine ⟨fun idle line level => ⟨fun good pending => ?_, fun unfit => ?_⟩,
    fun n closing => leads_pressClosed high (State.pressClosed_closing closing at_) rfl,
    fun opening => leads_pressOpen high (State.pressOpened_opening opening here) rfl,
    fun late => ?_, fun late => ?_⟩
  · exact leads_of rfl high ((State.pressStart_at at_).trans (if_pos ⟨idle, good, pending, line, level⟩)) fun _ => rfl
  · refine leads_of rfl high ((State.pressStart_at at_).trans (if_neg fun ⟨_, good, pending, _⟩ => ?_)) fun _ => rfl
    simp [good, pending] at unfit
  · exact leads_of rfl high ((State.closeTimeout_due late).trans (State.pressFaulted_at at_ .close)) fun l =>
      State.raise_slot _ _ l
  · have stays := State.putGarment_pressed (h := { g with press := .interrupted }) at_ rfl
    exact leads_of rfl high ((State.openTimeout_due late here).trans (State.pressFaulted_at stays .opening)) fun l =>
      State.raise_slot _ _ l

end
end

