-- ==== Sys2Proof/Proofs/SprayPulses.lean ====
section
/-! PROOF. The sums of pulses: what channels hold, what a strobe loads, what is left of the map (R107, R109, R110). -/

namespace Sys2Proof.Machine

/-! ### Sums over lists -/

section Lists

variable {α : Type}

theorem sum_map_set_add (f : α → Nat) (x : α) :
    ∀ (l : List α) (i : Nat) (h : i < l.length), ((l.set i x).map f).sum + f l[i] = (l.map f).sum + f x
  | a :: l, 0, _ => by
    simp only [List.set_cons_zero, List.map_cons, List.sum_cons, List.getElem_cons_zero]
    omega
  | a :: l, i + 1, h => by
    have rest := sum_map_set_add f x l i (Nat.lt_of_succ_lt_succ h)
    simp only [List.set_cons_succ, List.map_cons, List.sum_cons, List.getElem_cons_succ]
    omega

/-- The sum of what follows the first `k` entries, entry by entry. -/
theorem sum_map_drop (f : α → Nat) :
    ∀ (l : List α) (k : Nat),
      ((l.drop k).map f).sum = ((List.finRange l.length).map fun j => if k ≤ j.val then f l[j] else 0).sum
  | [], k => by simp
  | a :: l, 0 => by
    have rest := sum_map_drop f l 0
    simpa [List.finRange_succ, Function.comp_def] using rest
  | a :: l, k + 1 => by
    have rest := sum_map_drop f l k
    simpa [List.finRange_succ, Function.comp_def] using rest

theorem sum_map_drop_vector {n : Nat} (f : α → Nat) (v : Vector α n) (k : Nat) :
    ((v.toList.drop k).map f).sum = ((List.finRange n).map fun j => if k ≤ j.val then f v[j] else 0).sum := by
  obtain ⟨⟨l⟩, rfl⟩ := v
  exact sum_map_drop f l k

end Lists

/-! ### What the channels hold -/

/-- The pulses still to come in a channel. -/
def Channel.left (c : Channel) : Nat := if c.active then c.remaining else 0

theorem Channel.left_active {c : Channel} (h : c.active = true) : c.left = c.remaining := if_pos h

theorem cutShortfall_eq_left (x : Vector Channel 8) : cutShortfall x = (x.toList.map Channel.left).sum := rfl

theorem cutShortfall_eq (x : Vector Channel 8) :
    cutShortfall x = ((x.toList.filter Channel.active).map Channel.remaining).sum := by
  rw [cutShortfall_eq_left]
  induction x.toList with
  | nil => rfl
  | cons c l ih => cases h : c.active <;> simp [Channel.left, h, ih]

/-- One channel replaced changes the sum by what it held and holds. -/
theorem cutShortfall_upd (x : Vector Channel 8) (z : Fin 8) (c : Channel) :
    cutShortfall (upd x z c) + x[z].left = cutShortfall x + c.left := by
  have length : z.val < x.toList.length := by simp
  have change := sum_map_set_add Channel.left c x.toList z.val length
  rw [Vector.getElem_toList] at change
  rw [cutShortfall_eq_left, upd, Vector.toList_set]
  exact change

theorem cutShortfall_vmap {α : Type} (f : α → Channel) (v : Vector α 8) :
    cutShortfall (vmap f v) = (v.toList.map fun a => (f a).left).sum := by
  simp [cutShortfall_eq_left, vmap, Vector.toList, Function.comp_def]

/-- R107: a tick takes no pulse from a channel. -/
theorem Channel.tick_left (c : Channel) : c.tick.left = c.left := by
  unfold Channel.tick
  repeat' split
  all_goals rfl

theorem Spray.tick_cutShortfall (x : Spray) : cutShortfall x.tick.channels = cutShortfall x.channels := by
  unfold Spray.tick
  split
  · rfl
  · rw [cutShortfall_vmap]
    simp only [Channel.tick_left]
    rfl

@[simp] theorem Spray.tick_run (x : Spray) : x.tick.run = x.run := by
  unfold Spray.tick
  split <;> rfl

/-! ### What a strobe loads (R109) -/

theorem Channel.load_zero (period : Nat) : Channel.load period 0 = ⟨0, 0, false, false, false⟩ := rfl

theorem Channel.load_pos (period : Nat) {n : Nat} (h : 0 < n) : Channel.load period n = ⟨period, n - 1, true, true, false⟩ :=
  if_neg (Nat.pos_iff_ne_zero.1 h)

/-- A cell's pulses: the one that loading it issues, and those left in the channel. -/
theorem loadIssue_add_left (period n : Nat) : loadIssue n + (Channel.load period n).left = n := by
  cases n with
  | zero => rfl
  | succ n =>
    rw [Channel.load_pos period n.succ_pos]
    simp [loadIssue, Channel.left, Nat.add_comm]

theorem sum_loadIssue (l : List Nat) : (l.map loadIssue).sum = l.countP (fun n => 0 < n) := by
  induction l with
  | nil => rfl
  | cons n l ih =>
    rw [List.map_cons, List.sum_cons, ih, List.countP_cons]
    cases n <;> simp [loadIssue, Nat.add_comm]

theorem loaded_pulses (period : Nat) (cells : Vector Nat 8) :
    (cells.toList.map loadIssue).sum + cutShortfall (vmap (Channel.load period) cells) = cells.toList.sum := by
  rw [cutShortfall_vmap, ← List.sum_map_add]
  simp only [loadIssue_add_left, List.map_id']

/-! ### What was never strobed (R110) -/

theorem unstrobed_eq (map : DoseMap) (strobes : Nat) : unstrobed map strobes =
    ((List.finRange 63).map fun k => if strobes ≤ k.val then map[k].toList.sum else 0).sum := by
  rw [unstrobed, sum_map_drop_vector]

theorem unstrobed_strobe (map : DoseMap) (k : Fin 63) :
    unstrobed map k.val = map[k].toList.sum + unstrobed map (k.val + 1) := by
  have length : k.val < map.toList.length := by simp
  rw [unstrobed, List.drop_eq_getElem_cons length]
  simp [unstrobed]

end Sys2Proof.Machine
end

