-- ==== Sys2Proof/Proofs/SpraySequence.lean ====
section
/-! PROOF. The spray sequence: its start, its strobes and its end (R106 to R110). -/

namespace Sys2Proof.Machine

section Spray

variable {s : State} {p : Fin 16} {g h : Garment} {r : Recipe} {run : SprayRun}

theorem State.sprayed_iff_garmentAt :
    s.sprayed = some (p, g, r) ↔ s.garmentAt 1 = some (p, g) ∧ g.binding.map (·.recipe) = some r :=
  ⟨State.sprayed_garmentAt, fun ⟨here, bound⟩ => State.sprayed_of here bound⟩

theorem State.putGarment_sprayed (at_ : s.sprayed = some (p, g, r)) (same : h.binding = g.binding) :
    (s.putGarment p (some h)).sprayed = some (p, h, r) := by
  obtain ⟨here, bound⟩ := State.sprayed_garmentAt at_
  exact State.sprayed_of (State.putGarment_garmentAt here) (same ▸ bound)

/-! ### The start (R108) -/

/-- R108: the garment at S1 waits for its spray pass. -/
def State.SprayReady (s : State) (g : Garment) : Prop :=
  g.disposition = .good ∧ g.pretreat.result = .pending ∧ g.pretreat.coverage = .complete ∧ s.track.line = .running

theorem Garment.needsSpraying_iff : g.needsSpraying = true ↔ g.disposition = .good ∧ g.pretreat.result = .pending := by
  simp [Garment.needsSpraying]

/-- What keeps a sequence from starting. -/
theorem State.sprayBlocked_iff :
    (s.spray.run.isSome = true ∨ g.needsSpraying = false ∨ g.pretreat.coverage ≠ .complete ∨ s.track.line ≠ .running) ↔
      ¬(s.spray.run = none ∧ s.SprayReady g) := by
  have needs := Garment.needsSpraying_iff (g := g)
  rw [← Bool.not_eq_true, needs, Option.isSome_iff_ne_none, State.SprayReady]
  tauto

theorem State.sprayStart_none (h : s.sprayed = none) : s.sprayStart = s := by
  simp [State.sprayStart, h]

theorem State.sprayStart_blocked (at_ : s.sprayed = some (p, g, r)) (h : ¬(s.spray.run = none ∧ s.SprayReady g)) :
    s.sprayStart = s := by
  simp only [State.sprayStart, at_]
  exact if_pos (State.sprayBlocked_iff.2 h)

theorem State.sprayStart_running (h : s.spray.run ≠ none) : s.sprayStart = s := by
  cases at_ : s.sprayed with
  | none => exact State.sprayStart_none at_
  | some x => exact State.sprayStart_blocked at_ fun ⟨idle, _⟩ => h idle

/-- R108: with nothing planned the garment is DONE at once. -/
theorem State.sprayStart_unplanned (at_ : s.sprayed = some (p, g, r)) (idle : s.spray.run = none) (ready : s.SprayReady g)
    (none_ : g.pretreat.planned = 0) : s.sprayStart =
      (s.putGarment p (some { g with pretreat := { g.pretreat with result := .done } })).raise
        (.pretreatResult p g.serial .done 0 g.pretreat.issued g.pretreat.shortfall r.tolerance 0) := by
  simp only [State.sprayStart, at_]
  rw [if_neg (fun blocked => State.sprayBlocked_iff.1 blocked ⟨idle, ready⟩), if_pos none_, Garment.pretreatNotice, none_]

theorem State.sprayStart_planned (at_ : s.sprayed = some (p, g, r)) (idle : s.spray.run = none) (ready : s.SprayReady g)
    (planned : 0 < g.pretreat.planned) : s.sprayStart =
      (s.putGarment p (some { g with stage := .spraying })).setSpray
        ⟨some ⟨0, none⟩, Vector.replicate 8 ⟨0, 0, false, false, false⟩⟩ := by
  simp only [State.sprayStart, at_]
  rw [if_neg (fun blocked => State.sprayBlocked_iff.1 blocked ⟨idle, ready⟩), if_neg (Nat.pos_iff_ne_zero.1 planned)]
  rfl

/-! ### A strobe (R109) -/

/-- The pretreat record as a strobe of band `k` leaves it. -/
def PretreatRecord.strobed (x : PretreatRecord) (channels : Vector Channel 8) (k : Fin 63) : PretreatRecord :=
  { x with
    issued := x.issued + (x.map[k].toList.map loadIssue).sum
    shortfall := x.shortfall + cutShortfall channels }

theorem State.bandStrobe_idle (h : s.spray.run = none) : s.bandStrobe = s := by
  simp [State.bandStrobe, h]

theorem State.bandStrobe_past (running : s.spray.run = some run) (h : 63 ≤ run.strobes) : s.bandStrobe = s := by
  have past : inRange 63 run.strobes = none := dif_neg (Nat.not_lt.2 h)
  cases at_ : s.sprayed <;> simp only [State.bandStrobe, running, at_, past]

theorem State.bandStrobe_at (running : s.spray.run = some run) (at_ : s.sprayed = some (p, g, r)) {k : Fin 63}
    (strobes : run.strobes = k.val) : s.bandStrobe =
      (s.putGarment p (some { g with pretreat := g.pretreat.strobed s.spray.channels k })).setSpray
        ⟨some ⟨k.val + 1, some k.val⟩, vmap (Channel.load r.period) g.pretreat.map[k]⟩ := by
  have band : inRange 63 run.strobes = some k := by
    rw [strobes]
    exact dif_pos k.isLt
  simp only [State.bandStrobe, running, at_, band]
  rw [strobes]
  rfl

theorem State.keeps_units_spray (s : State) (m : Match) (x : Spray) :
    s.keeps { s with units := m, spray := x } [.units, .spray] := by
  intro p out
  cases p with
  | units | spray => simp at out
  | notices => exact fun l => ⟨rfl, rfl, .inl rfl⟩
  | settings => exact fun l => ⟨rfl, rfl, rfl, rfl⟩
  | outputs => exact fun i => ⟨rfl, rfl, rfl, rfl⟩
  | _ => rfl

/-- An event that writes the garments and the Spray Controller. -/
theorem happened_units_spray {i : Instr} {f : State → State} {m : Match} {x : Spray} (event_ : exec i s = event f s)
    (high : s.resetLow = false) (effect : f s = { s with units := m, spray := x }) :
    ∃ t, Happened i s t ∧ s.keeps t [.units, .spray] ∧ t.units = m ∧ t.spray = x := by
  obtain ⟨t, happened, kept⟩ := leads_of event_ high effect fun _ => rfl
  have frame := State.keeps_mono (more := [.units, .spray]) kept (by simp)
  exact ⟨t, happened, State.keeps_trans_of_links (by rfl) (s.keeps_units_spray m x) frame, kept .units (by simp),
    kept .spray (by simp)⟩

/-! ### The end (R110) -/

/-- The pretreat record as END leaves it: SHORT where the shortfall is above the latched tolerance. -/
def PretreatRecord.finished (x : PretreatRecord) (r : Recipe) (spray : Spray) (strobes : Nat) : PretreatRecord :=
  { x.ended spray strobes with
    result := if r.tolerance < (x.ended spray strobes).shortfall then .short else .done }

theorem State.finishSpray_idle (h : s.spray.run = none) : s.finishSpray = s := by
  simp [State.finishSpray, h]

theorem State.finishSpray_at (running : s.spray.run = some run) (at_ : s.sprayed = some (p, g, r)) : s.finishSpray =
    ((s.putGarment p (some { g with pretreat := g.pretreat.finished r s.spray run.strobes })).setSpray
      Spray.reset).raise ({ g with pretreat := g.pretreat.finished r s.spray run.strobes }.pretreatNotice p r run.strobes) := by
  simp only [State.finishSpray, running, at_]
  rfl

end Spray

end Sys2Proof.Machine

section
open Sys2Proof.Machine

/-- Settles O40: SPRAY_START, BAND and SPRAY_END are events with the effects above. -/
theorem spraySequenceFollowsStrobes : Obligations.SpraySequenceFollowsStrobes := by
  refine ⟨fun s p g r => ?_, cutShortfall_eq, unstrobed_eq, fun s high => ?_⟩
  · rw [State.sprayed_iff_garmentAt, State.garmentAt_iff]
    simp only [and_assoc]
  have startStill (h : s.sprayStart = s) : Leads .sprayStart s s := leads_of rfl high h fun _ => rfl
  have bandStill (h : s.bandStrobe = s) : Leads .band s s := leads_of rfl high h fun _ => rfl
  refine ⟨fun busy => startStill (State.sprayStart_running busy),
    fun idle => ⟨bandStill (State.bandStrobe_idle idle), leads_of rfl high (State.finishSpray_idle idle) fun _ => rfl⟩,
    fun none_ => startStill (State.sprayStart_none none_), fun p g r at_ => ⟨?_, fun run running => ?_⟩⟩
  · refine ⟨fun unready => startStill (State.sprayStart_blocked at_ fun ⟨_, ready⟩ => unready ready),
      fun ready idle => ⟨fun none_ => ?_, fun planned => ?_⟩⟩
    · exact leads_of rfl high (State.sprayStart_unplanned at_ idle ready none_) fun l => State.raise_slot _ _ l
    · exact leads_of rfl high (State.sprayStart_planned at_ idle ready planned) fun _ => rfl
  · refine ⟨fun past => bandStill (State.bandStrobe_past running past), fun k strobes => ?_,
      leads_of rfl high (State.finishSpray_at running at_) fun l => State.raise_slot _ _ l⟩
    obtain ⟨t, happened, kept, units, spray⟩ :=
      happened_units_spray (i := .band) rfl high (State.bandStrobe_at running at_ strobes)
    refine ⟨t, happened, kept, by rw [units]; rfl, fun q other => ?_, ?_, by rw [spray], fun z => ?_⟩
    · rw [State.garment, units]
      exact upd_get_ne _ _ _ _ other.symm
    · rw [State.garment, units, ← sum_loadIssue]
      exact upd_get_self _ _ _
    · rw [spray]
      dsimp only
      rw [vmap_get]
      exact ⟨fun zero => by rw [zero, Channel.load_zero], fun pos => Channel.load_pos r.period pos⟩

end
end

