-- ==== Sys2Proof/Proofs/PulseAccounts.lean ====
section
/-! PROOF. The zone events, and that every planned pulse stays accounted for (R107, R110). -/

namespace Sys2Proof.Machine

section Zones

variable {s t : State} {p : Fin 16} {g : Garment} {r : Recipe} {run : SprayRun} {z : Fin 8}

/-! ### The zone events (R107) -/

theorem State.valveClose_idle (h : s.spray.run = none) : State.valveClose z s = s := by
  simp [State.valveClose, h]

theorem State.valveClose_at (running : s.spray.run = some run) (at_ : s.sprayed = some (p, g, r)) :
    State.valveClose z s =
      if s.spray.channels[z].active = true ∧ s.spray.channels[z].valve = true ∧ s.spray.channels[z].counter ≤ r.duty then
        s.putChannel z { s.spray.channels[z] with valve := false }
      else s := by
  simp only [State.valveClose, running, at_]

theorem State.pulseReload_idle (h : s.spray.run = none) : State.pulseReload z s = s := by
  simp [State.pulseReload, h]

theorem State.pulseReload_at (running : s.spray.run = some run) (at_ : s.sprayed = some (p, g, r)) :
    State.pulseReload z s =
      if s.spray.channels[z].active = true ∧ s.spray.channels[z].due = true ∧ s.spray.channels[z].counter = 0 ∧
          0 < s.spray.channels[z].remaining then
        (s.putGarment p (some { g with pretreat := { g.pretreat with issued := g.pretreat.issued + 1 } })).putChannel z
          ⟨r.period, s.spray.channels[z].remaining - 1, true, true, false⟩
      else s := by
  simp only [State.pulseReload, running, at_]

theorem State.channelExhausted_idle (h : s.spray.run = none) : State.channelExhausted z s = s := by
  simp [State.channelExhausted, h]

theorem State.channelExhausted_running (running : s.spray.run = some run) :
    State.channelExhausted z s =
      if s.spray.channels[z].active = true ∧ s.spray.channels[z].due = true ∧ s.spray.channels[z].counter = 0 ∧
          s.spray.channels[z].remaining = 0 then
        s.putChannel z Channel.off
      else s := by
  simp only [State.channelExhausted, running]

/-! ### The account -/

theorem pulsesAccounted_iff (running : s.spray.run = some run) (at_ : s.sprayed = some (p, g, r)) :
    PulsesAccounted s ↔ g.pretreat.planned = g.pretreat.issued + g.pretreat.shortfall + cutShortfall s.spray.channels +
      unstrobed g.pretreat.map run.strobes := by
  refine ⟨fun h => h run p g r running at_, fun h run' p' g' r' running' at' => ?_⟩
  obtain rfl : run = run' := Option.some.inj (running.symm.trans running')
  obtain ⟨rfl, rfl, rfl⟩ : p = p' ∧ g = g' ∧ r = r' := by simpa using at_.symm.trans at'
  exact h

/-- Who is sprayed is read off the track and the garments. -/
theorem State.sprayed_of_track_units {u : State} (track : u.track = s.track) (units : u.units = s.units) :
    u.sprayed = s.sprayed := by
  change ({ s with track := u.track, units := u.units } : State).sprayed = s.sprayed
  rw [track, units]

/-- What the account reads is the garment at S1 and the Spray Controller. -/
theorem PulsesAccounted.of_same {u : State} (h : PulsesAccounted s) (spray : u.spray = s.spray)
    (at_ : u.sprayed = s.sprayed) : PulsesAccounted u := by
  intro run p g r running here
  rw [spray] at running ⊢
  exact h run p g r running (at_ ▸ here)

/-- An event that comes to a next state comes to the account of its effect. -/
theorem PulsesAccounted.of_event {i : Instr} {f : State → State} (event_ : exec i s = event f s) (high : s.resetLow = false)
    (h : PulsesAccounted (f s)) (e : exec i s = .next t) : PulsesAccounted t := by
  rw [event_, event_powered f s high] at e
  cases e
  exact h.of_same rfl rfl

/-- One channel replaced keeps the account where it holds as many pulses as before. -/
theorem PulsesAccounted.putChannel (h : PulsesAccounted s) {c : Channel} (same : c.left = s.spray.channels[z].left) :
    PulsesAccounted (s.putChannel z c) := by
  intro run p g r running at_
  have account := h run p g r running at_
  have change := cutShortfall_upd s.spray.channels z c
  have spray : (s.putChannel z c).spray.channels = upd s.spray.channels z c := rfl
  rw [spray]
  omega

/-! ### What keeps it -/

theorem PulsesAccounted.counted (h : PulsesAccounted s) : PulsesAccounted s.counted := by
  intro run p g r running at_
  rw [State.sprayed_of_track_units s.counted_track s.counted_units] at at_
  rw [State.counted_spray, Spray.tick_run] at running
  rw [State.counted_spray, Spray.tick_cutShortfall]
  exact h run p g r running at_

/-- A strobe turns a band's planned pulses into first pulses issued and channels loaded, and what it cuts into shortfall. -/
theorem PulsesAccounted.bandStrobe (running : s.spray.run = some run) (at_ : s.sprayed = some (p, g, r))
    (h : PulsesAccounted s) : PulsesAccounted s.bandStrobe := by
  by_cases past : 63 ≤ run.strobes
  · rwa [State.bandStrobe_past running past]
  · let k : Fin 63 := ⟨run.strobes, Nat.not_le.1 past⟩
    have strobes : run.strobes = k.val := rfl
    have before := (pulsesAccounted_iff running at_).1 h
    rw [strobes, unstrobed_strobe, ← loaded_pulses r.period] at before
    rw [State.bandStrobe_at running at_ strobes]
    have after := State.putGarment_sprayed (h := { g with pretreat := g.pretreat.strobed s.spray.channels k }) at_ rfl
    refine Iff.mpr (pulsesAccounted_iff (run := ⟨k.val + 1, some k.val⟩) rfl after) ?_
    simp only [PretreatRecord.strobed, State.setSpray_spray]
    omega

/-- Closing a valve leaves the channel's pulses. -/
theorem PulsesAccounted.valveClose (running : s.spray.run = some run) (at_ : s.sprayed = some (p, g, r))
    (h : PulsesAccounted s) : PulsesAccounted (State.valveClose z s) := by
  rw [State.valveClose_at running at_]
  split
  · exact h.putChannel rfl
  · exact h

/-- A reload takes one pulse from the channel and counts it issued. -/
theorem PulsesAccounted.pulseReload (running : s.spray.run = some run) (at_ : s.sprayed = some (p, g, r))
    (h : PulsesAccounted s) : PulsesAccounted (State.pulseReload z s) := by
  rw [State.pulseReload_at running at_]
  split
  next due =>
    obtain ⟨active, -, -, remaining⟩ := due
    have before := (pulsesAccounted_iff running at_).1 h
    have change := cutShortfall_upd s.spray.channels z ⟨r.period, s.spray.channels[z].remaining - 1, true, true, false⟩
    rw [Channel.left_active active, Channel.left_active rfl] at change
    dsimp only at change
    have after := State.putGarment_sprayed
      (h := { g with pretreat := { g.pretreat with issued := g.pretreat.issued + 1 } }) at_ rfl
    refine Iff.mpr (pulsesAccounted_iff (run := run) running after) ?_
    simp only [State.putChannel, State.setSpray_spray, State.putGarment_spray]
    omega
  · exact h

/-- An exhausted channel has no pulse left. -/
theorem PulsesAccounted.channelExhausted (running : s.spray.run = some run) (h : PulsesAccounted s) :
    PulsesAccounted (State.channelExhausted z s) := by
  rw [State.channelExhausted_running running]
  split
  next spent =>
    obtain ⟨active, -, -, remaining⟩ := spent
    exact h.putChannel ((Channel.left_active active).trans remaining).symm
  · exact h

/-- R110: END turns what is left in channels and in bands without a strobe into shortfall. -/
theorem PulsesAccounted.finished (running : s.spray.run = some run) (at_ : s.sprayed = some (p, g, r))
    (h : PulsesAccounted s) : (g.pretreat.finished r s.spray run.strobes).planned =
      (g.pretreat.finished r s.spray run.strobes).issued + (g.pretreat.finished r s.spray run.strobes).shortfall := by
  have before := (pulsesAccounted_iff running at_).1 h
  simp only [PretreatRecord.finished, PretreatRecord.ended]
  omega

end Zones

end Sys2Proof.Machine

section
open Sys2Proof Sys2Proof.Machine

/-- Settles O41: each zone event's effect, the account kept by each, and the account that END leaves. -/
theorem everyPlannedPulseIsAccounted : Obligations.EveryPlannedPulseIsAccounted := by
  intro s high
  have leads {i : Instr} {f : State → State} {t : State} (event_ : exec i s = event f s) (effect : f s = t)
      (links : t.links = s.links) : Leads i s t :=
    leads_of event_ high effect fun l => congrArg (fun k => (Links.get k l).slot) links
  refine ⟨fun idle z => ⟨leads rfl (State.valveClose_idle idle) rfl, leads rfl (State.pulseReload_idle idle) rfl,
    leads rfl (State.channelExhausted_idle idle) rfl⟩, fun run p g r running at_ => ⟨fun z => ?_, fun h => ?_⟩⟩
  · have close := State.valveClose_at (z := z) running at_
    have reload := State.pulseReload_at (z := z) running at_
    have exhaust := State.channelExhausted_running (z := z) running
    refine ⟨fun due => leads rfl (close.trans (if_pos due)) rfl, fun early => leads rfl (close.trans (if_neg early)) rfl,
      fun active due zero => ⟨fun more => ⟨?_, ?_⟩, fun none_ => ⟨?_, ?_⟩⟩, fun early => ⟨?_, ?_⟩⟩
    · exact leads rfl (exhaust.trans (if_neg fun ⟨_, _, _, none_⟩ => more.ne' none_)) rfl
    · exact leads rfl (reload.trans (if_pos ⟨active, due, zero, more⟩)) rfl
    · exact leads rfl (reload.trans (if_neg fun ⟨_, _, _, more⟩ => more.ne' none_)) rfl
    · exact leads rfl (exhaust.trans (if_pos ⟨active, due, zero, none_⟩)) rfl
    · exact leads rfl (reload.trans (if_neg fun ⟨active, due, zero, _⟩ => early ⟨active, due, zero⟩)) rfl
    · exact leads rfl (exhaust.trans (if_neg fun ⟨active, due, zero, _⟩ => early ⟨active, due, zero⟩)) rfl
  · refine ⟨h.counted, ?_, fun t e => ?_⟩
    · rintro i t (rfl | ⟨z, rfl | rfl | rfl⟩) e
      · exact (h.bandStrobe running at_).of_event rfl high e
      · exact (h.valveClose running at_).of_event rfl high e
      · exact (h.pulseReload running at_).of_event rfl high e
      · exact (h.channelExhausted running).of_event rfl high e
    · have effect := (event_powered State.finishSpray s high).symm.trans e
      rw [State.finishSpray_at running at_] at effect
      cases effect
      exact ⟨_, State.putGarment_garment_self .., h.finished running at_⟩

end
end

