-- ==== Sys2Proof/Proofs/IdleTick.lean ====
section
/-! PROOF. The tick of an idle step: what it filters and counts, and the commands that follow (R107, R113, R145, R170,
R177, R182; log 2, log 4, log 22). -/

namespace Sys2Proof.Machine

section Tick

variable {s : State}

/-! ### The line inputs (R182) -/

theorem LevelInput.due_eq (filter : Nat) (x : LevelInput) :
    x.due filter = decide (x.wire ≠ x.level ∧ filter ≤ x.held + 1) := by
  simp [LevelInput.due, bne, Bool.beq_eq_decide_eq]

theorem LevelInput.wait_eq (x : LevelInput) : x.wait = ⟨x.level, x.wire, if x.wire = x.level then 0 else x.held + 1⟩ := by
  unfold LevelInput.wait
  split <;> rfl

theorem LevelInput.tick_eq (filter : Nat) (x : LevelInput) : x.tick filter =
    if decide (x.wire ≠ x.level ∧ filter ≤ x.held + 1) then ⟨x.wire, x.wire, 0⟩
    else ⟨x.level, x.wire, if x.wire = x.level then 0 else x.held + 1⟩ := by
  rw [LevelInput.tick, LevelInput.due_eq, LevelInput.wait_eq]
  rfl

theorem LevelInput.tickFalling_eq (x : LevelInput) :
    x.tickFalling = if x.level then x.tick 100
      else ⟨x.level, x.wire, if x.wire = x.level then 0 else x.held + 1⟩ := by
  rw [LevelInput.tickFalling, LevelInput.wait_eq]
  rfl

theorem Inputs.tick_present (x : Inputs) (n : Fin 6) : x.tick.present[n] = x.present[n].tick 100 := vmap_get _ _ n

theorem Inputs.tick_arrive (x : Inputs) (g : Segment) : x.tick.arrive g = (x.arrive g).tick 100 := by
  cases g with
  | exit n => exact vmap_get _ _ n
  | entry n => exact vmap_get _ _ n

/-! ### What a tick counts -/

@[simp] theorem State.counted_clock : s.counted.clock =
    if 50 ≤ s.clock.sub + 1 then ⟨s.clock.time + 1, 0, s.clock.resets⟩
    else ⟨s.clock.time, s.clock.sub + 1, s.clock.resets⟩ := by
  unfold State.counted
  exact apply_ite State.clock _ _ _

@[simp] theorem State.counted_press : s.counted.press = if 50 ≤ s.clock.sub + 1 then s.press.tick else s.press := by
  unfold State.counted
  exact apply_ite State.press _ _ _

@[simp] theorem State.counted_cure : s.counted.cure = if 50 ≤ s.clock.sub + 1 then s.cure.tick else s.cure := by
  unfold State.counted
  exact apply_ite State.cure _ _ _

@[simp] theorem State.counted_indicators : s.counted.indicators =
    if 50 ≤ s.clock.sub + 1 then vmap (fun i => { i with lamp := i.lamp.tick }) s.indicators else s.indicators := by
  unfold State.counted
  exact apply_ite State.indicators _ _ _

theorem State.counted_indicator (i : Fin 6) : s.counted.indicators[i] =
    { s.indicators[i] with lamp := if 50 ≤ s.clock.sub + 1 then s.indicators[i].lamp.tick else s.indicators[i].lamp } := by
  rw [State.counted_indicators]
  split
  · rw [vmap_get]
  · rfl

theorem State.keeps_counted (s : State) : s.keeps s.counted [.clock, .inputs, .spray, .press, .cure] := by
  intro p out
  cases p with
  | clock | inputs | spray | press | cure => simp at out
  | notices => exact fun l => by simp [LinkState.lostStands]
  | settings => exact fun l => by simp
  | outputs =>
    intro i
    rw [State.counted_indicator]
    exact ⟨rfl, rfl, rfl, rfl⟩
  | _ => simp [Part.same]

/-- R107: the channels of a running sequence count. -/
theorem Spray.tick_channel (x : Spray) (z : Fin 8) :
    x.tick.channels[z] = if x.run = none then x.channels[z] else x.channels[z].tick := by
  unfold Spray.tick
  cases h : x.run with
  | none => rfl
  | some run => exact vmap_get _ _ z

/-! ### The commands that follow -/

theorem event_next (f : State → State) (s : State) : ∃ t, event f s = .next t := by
  unfold event
  split <;> exact ⟨_, rfl⟩

theorem signal_next (drive : Inputs → Inputs) (f : State → State) (s : State) : ∃ t, signal drive f s = .next t := by
  unfold signal
  split
  · exact ⟨_, rfl⟩
  · exact event_next f s

theorem mem_whenDue {b : Bool} {c d : Instr} : c ∈ whenDue b d ↔ b = true ∧ c = d := by
  cases b <;> simp [whenDue]

/-- The command of a line input's change is an event or a signal, and never faults. -/
theorem Inputs.changes_next (x : Inputs) {c : Instr} (h : c ∈ x.changes) (s : State) : ∃ t, exec c s = .next t := by
  simp only [Inputs.changes, List.mem_append, List.mem_flatMap, mem_whenDue] at h
  obtain (((((⟨-, rfl⟩ | ⟨g, -, -, rfl⟩) | ⟨-, rfl⟩) | ⟨-, rfl⟩) | ⟨-, rfl⟩) | ⟨-, rfl⟩) := h
  · split
    · rw [State.exec_emergencyStop]
      exact signal_next _ _ s
    · rw [State.exec_emergencyRelease]
      exact signal_next _ _ s
  · exact event_next (State.arrive g) s
  · exact event_next State.bandStrobe s
  · exact event_next State.finishSpray s
  · exact signal_next (fun i => { i with pressClosed := i.pressClosed.drive true }) State.pressClosed s
  · exact signal_next (fun i => { i with pressOpen := i.pressOpen.drive true }) State.pressOpened s

theorem runAll_next : ∀ (l : List Instr) (s : State), (∀ c ∈ l, ∀ u, ∃ t, exec c u = .next t) → ∃ t, runAll l s = .next t
  | [], s, _ => ⟨s, rfl⟩
  | c :: rest, s, h => by
    obtain ⟨t, first⟩ := h c List.mem_cons_self s
    rw [runAll_cons_next c rest s t first]
    exact runAll_next rest t fun d on => h d (List.mem_cons_of_mem c on)

/-! ### The step -/

theorem step_idle_low (empty : s.pending = []) (low : s.resetLow = true) : step s = .next s := by
  simp [step, empty, State.tick, low]

theorem step_idle_high (empty : s.pending = []) (high : s.resetLow = false) :
    step s = runAll s.inputs.changes s.counted := by
  simp [step, empty, State.tick, high]

end Tick

end Sys2Proof.Machine

section
open Sys2Proof Sys2Proof.Machine

/-- Settles O2: an idle step counts, and then runs the commands of the inputs' changes, none of which faults. -/
theorem idleStepIsOneTick : Obligations.IdleStepIsOneTick := by
  refine ⟨runAll_nil, fun c rest s t => runAll_cons_next c rest s t, fun s empty => ⟨step_idle_low empty, fun high => ?_⟩⟩
  intro ms left due waits takes falls rises x segments
  obtain ⟨u, runs⟩ := runAll_next s.inputs.changes s.counted fun c on => x.changes_next on
  have rises_eq (filter : Nat) (y : LevelInput) (c : Instr) : whenDue (y.rises filter) c = rises filter y c := by
    rw [LevelInput.rises, LevelInput.due_eq]
    rfl
  have changes : s.inputs.changes =
      (if due 100 x.estop then [if x.estop.wire then .emergencyStopAsserted else .emergencyStopReleased] else []) ++
        segments.flatMap (fun g => rises 100 (x.arrive g) (.arrive g)) ++ rises 1 x.band .band ++
        rises 1 x.sprayEnd .sprayEnd ++ rises 100 x.pressClosed .pressClosed ++ rises 100 x.pressOpen .pressOpen := by
    simp only [Inputs.changes, rises_eq, LevelInput.due_eq, segments, exitsAndEntries_eq]
    rfl
  have takes_eq (filter : Nat) (y : LevelInput) : y.tick filter = takes filter y := y.tick_eq filter
  have falls_eq (y : LevelInput) : y.tickFalling = falls y := by
    rw [LevelInput.tickFalling_eq, takes_eq]
  have waits_eq (y : LevelInput) : y.wait = waits y := y.wait_eq
  refine ⟨s.counted, u, (step_idle_high empty high).trans runs, changes ▸ runs, s.keeps_counted, s.counted_links, ?_⟩
  simp only [State.counted_inputs, State.counted_spray, Spray.tick_run, true_and]
  refine ⟨?_, fun n => ?_, fun g => ?_, takes_eq 1 x.band, takes_eq 1 x.sprayEnd, falls_eq x.pressClosed,
    falls_eq x.pressOpen, waits_eq x.estop, fun z => ?_, ?_, ?_, fun i => ?_⟩
  · rw [State.counted_clock]
    by_cases full : 50 ≤ s.clock.sub + 1 <;> simp [ms, full]
  · rw [Inputs.tick_present, takes_eq]
  · rw [Inputs.tick_arrive, takes_eq]
  · rw [Spray.tick_channel]
    cases run : s.spray.run <;> simp [Channel.tick]
  · rw [State.counted_press]
    by_cases full : 50 ≤ s.clock.sub + 1 <;> cases s.press <;> simp [ms, left, full, Press.tick]
  · rw [State.counted_cure]
    by_cases full : 50 ≤ s.clock.sub + 1 <;> simp [ms, left, full, Cure.tick]
  · rw [State.counted_indicator]
    by_cases full : 50 ≤ s.clock.sub + 1 <;> cases s.indicators[i].lamp <;> simp [ms, left, full, Lamp.tick]

end
end

