-- ==== Sys2Proof/Proofs/PrintSessions.lean ====
section
/-! PROOF. The print session's opening, SWATH_PULL and SWATH_RELEASE (R121, R123, R128 to R130). -/

namespace Sys2Proof.Machine

/-! ### The session opens (R128) -/

section Opens

variable {s : State} {p : Fin 16} {g : Garment} {b : Binding}

/-- R128: the conditions on the garment at S3. -/
def Garment.ReadyToPrint (g : Garment) : Prop :=
  g.disposition = .good ∧ (g.pretreat.result = .done ∨ g.pretreat.result = .short ∨ g.pretreat.result = .waived) ∧
  (g.press = .done ∨ g.press = .waived) ∧
  (g.print.phase = .none ∨ g.print.phase = .underbase ∨ g.print.phase = .color) ∧ g.stage = .printWait

theorem State.sessionReady_iff : s.sessionReady = some (p, g, b) ↔
    s.garmentAt 3 = some (p, g) ∧ g.binding = some b ∧ g.ReadyToPrint := by
  unfold State.sessionReady Garment.ReadyToPrint
  split
  next none_ => simp [none_]
  next q h at_ =>
    rw [at_, Option.some.injEq, Prod.mk.injEq]
    split
    next unbound =>
      refine iff_of_false nofun ?_
      rintro ⟨⟨rfl, rfl⟩, bound, -⟩
      simp [unbound] at bound
    next c bound =>
      simp only [Option.ite_none_right_eq_some, Option.some.injEq, Prod.mk.injEq, Garment.pretreated_iff]
      constructor
      · rintro ⟨⟨good, ⟨result, press⟩, phase, stage⟩, rfl, rfl, rfl⟩
        exact ⟨⟨rfl, rfl⟩, bound, good, result, press, phase, stage⟩
      · rintro ⟨⟨rfl, rfl⟩, same, good, result, press, phase, stage⟩
        exact ⟨⟨good, ⟨result, press⟩, phase, stage⟩, rfl, rfl, Option.some.inj (bound.symm.trans same)⟩

theorem State.sessionOpen_blocked (h : s.ring.session ≠ none ∨ s.track.line ≠ .running ∨ s.garmentAt 3 = none) :
    s.sessionOpen = s := by
  unfold State.sessionOpen
  split
  next p g b closed ready =>
    obtain ⟨at_, -, -⟩ := State.sessionReady_iff.1 ready
    rcases h with opened | halted | empty
    · exact absurd closed opened
    · exact if_pos halted
    · simp [empty] at at_
  · rfl

theorem State.sessionOpen_unready (at_ : s.garmentAt 3 = some (p, g)) (unready : ¬g.ReadyToPrint) : s.sessionOpen = s := by
  unfold State.sessionOpen
  split
  next q h b closed ready =>
    obtain ⟨there, -, fit⟩ := State.sessionReady_iff.1 ready
    obtain ⟨-, rfl⟩ := Prod.mk.inj (Option.some.inj (at_.symm.trans there))
    exact absurd fit unready
  · rfl

theorem State.sessionOpen_of (closed : s.ring.session = none) (running : s.track.line = .running)
    (at_ : s.garmentAt 3 = some (p, g)) (ready : g.ReadyToPrint) (bound : g.binding = some b) :
    let r := g.print.planned b.recipe.dark (s.extent b.placement)
    s.sessionOpen = ({ s with ring := { s.ring with session := some ⟨p, g.serial, r.count⟩ } }.putGarment p
      (some { g with print := r, stage := .printing })).raise
        (r.readyNotice p g.serial b.recipe.dark (s.extent b.placement)) := by
  simp only [State.sessionOpen, closed, State.sessionReady_iff.2 ⟨at_, bound, ready⟩, running, ne_eq, not_true_eq_false,
    if_false]
  rfl

theorem PrintRecord.planned_or {r : PrintRecord} {dark : Bool} {e : Option Rect} (h : r.count ≠ 0 ∨ e = none) :
    r.planned dark e = r := by
  rcases h with set | rfl
  · exact PrintRecord.planned_kept set dark e
  · exact ite_self r

end Opens

/-! ### The slot of a produced swath (R129, R130) -/

section Holding

variable {r : Ring} {serial : Word} {q : Nat} {i : Fin 4} {w : Swath}

/-- R129 check 3: a slot holds the garment's produced swath of a sequence number. -/
def Ring.Holds (r : Ring) (serial : Word) (q : Nat) (i : Fin 4) (w : Swath) : Prop :=
  r.slots[i] = some w ∧ (w.status = .ready ∨ w.status = .handed) ∧ w.serial = serial ∧ w.sequence = q

theorem Ring.holds_iff (here : r.slots[i] = some w) :
    r.Holds serial q i w ↔ (w.produced && w.serial == serial && w.sequence == q) = true := by
  simp [Ring.Holds, here, Swath.produced, and_assoc]

/-- Where an index is the least with a result, the search over all indices finds that result. -/
theorem finRange_findSome?_least {n : Nat} {α : Type} {f : Fin n → Option α} {k : Fin n} {a : α} (found : f k = some a)
    (least : ∀ j < k, f j = none) : (List.finRange n).findSome? f = some a := by
  obtain ⟨before, after, cut⟩ := List.append_of_mem (List.mem_finRange k)
  have sorted := cut ▸ List.pairwise_lt_finRange n
  exact List.findSome?_eq_some_iff.2 ⟨before, k, after, cut, found, fun j mem =>
    least j ((List.pairwise_append.1 sorted).2.2 j mem k List.mem_cons_self)⟩

theorem Ring.holding_none (no : ∀ i w, ¬r.Holds serial q i w) : r.holding serial q = none := by
  refine List.findSome?_eq_none_iff.2 fun i _ => ?_
  split
  · rfl
  next w here => exact if_neg (mt (Ring.holds_iff here).2 (no i w))

theorem Ring.holding_first (holds : r.Holds serial q i w) (first : ∀ k y, k < i → ¬r.Holds serial q k y) :
    r.holding serial q = some (i, w) := by
  have here := holds.1
  refine finRange_findSome?_least (k := i) ?_ fun k below => ?_
  · simp only [here]
    exact if_pos ((Ring.holds_iff here).1 holds)
  · split
    · rfl
    next y here => exact if_neg (mt (Ring.holds_iff here).2 (first k y below))

end Holding

/-! ### SWATH_PULL and SWATH_RELEASE (R129, R130) -/

section Pulls

variable {s : State} {x : Session} {g : Garment} {q offset : Nat} {i : Fin 4} {w : Swath}

theorem swathPull_slotless (l : Link) (q offset : Nat) : Slotless (State.swathPull l q offset) :=
  fun s m y mode => State.swathPull_slotted s m y mode l q offset

theorem swathRelease_slotless (q : Nat) : Slotless (State.swathRelease q) :=
  fun s m y mode => State.swathRelease_slotted s m y mode q

theorem State.pullable_closed (closed : s.ring.session = none) : s.pullable q = .error .state := by
  simp only [State.pullable, State.sessionGarment_none closed]

theorem State.pullable_beyond (session : s.ring.session = some x) (here : s.garment x.platen = some g)
    (beyond : x.count ≤ q) : s.pullable q = .error .state := by
  simp only [State.pullable, State.sessionGarment_of session here, beyond, if_true]

theorem State.pullable_unproduced (session : s.ring.session = some x) (here : s.garment x.platen = some g)
    (within : q < x.count) (ahead : g.print.produced ≤ q) : s.pullable q = .error .notReady := by
  simp only [State.pullable, State.sessionGarment_of session here, Nat.not_le.2 within, ahead, if_false, if_true]

theorem State.pullable_stale (session : s.ring.session = some x) (here : s.garment x.platen = some g)
    (within : q < x.count) (produced : q < g.print.produced) (no : ∀ i w, ¬s.ring.Holds x.serial q i w) :
    s.pullable q = .error .stale := by
  simp only [State.pullable, State.sessionGarment_of session here, Nat.not_le.2 within, Nat.not_le.2 produced, if_false,
    Ring.holding_none no]

theorem State.pullable_held (session : s.ring.session = some x) (here : s.garment x.platen = some g)
    (within : q < x.count) (produced : q < g.print.produced) (holds : s.ring.Holds x.serial q i w)
    (first : ∀ k y, k < i → ¬s.ring.Holds x.serial q k y) : s.pullable q = .ok (x, g, i, w) := by
  simp only [State.pullable, State.sessionGarment_of session here, Nat.not_le.2 within, Nat.not_le.2 produced, if_false,
    Ring.holding_first holds first]

/-- The checks that the two requests share refuse both alike. -/
theorem pull_release_refused {c : ResultCode} (refused : s.pullable q = .error c) (v : Via) (offset : Nat) :
    (Ready s v 0x2D → Refused (.swathPull v q offset) v 0x2D s c) ∧
    (Ready s v 0x2E → Refused (.swathRelease v q) v 0x2E s c) :=
  ⟨fun r => refused_of (swathPull_slotless v.link q offset) r rfl (by simp only [State.swathPull, refused]),
    fun r => refused_of (swathRelease_slotless q) r rfl (by simp only [State.swathRelease, refused])⟩

/-- R129: the check on the offset, then the pull begun. -/
theorem State.swathPull_of (l : Link) (offset : Nat) (held : s.pullable q = .ok (x, g, i, w)) :
    State.swathPull l q offset s =
      if w.length ≤ offset then s.refuse .range
      else ({ s with ring := { s.ring with
        slots := upd s.ring.slots i (some { w with status := .handed })
        pull := some ⟨l, q, offset, slotBase i + offset, slotBase i + min (offset + 480) w.length, []⟩ } }, none) := by
  simp only [State.swathPull, held]
  rfl

/-- R130: the slot FREE and out of the order list, and one more released. -/
theorem State.swathRelease_of (held : s.pullable q = .ok (x, g, i, w)) :
    let ring := { s.ring with slots := upd s.ring.slots i none, order := s.ring.order.filter (· != i) }
    State.swathRelease q s = ({ s with ring := ring }.putGarment x.platen
      (some { g with print := { g.print with released := g.print.released + 1 } })).accept [.u8 ring.level] := by
  simp only [State.swathRelease, held]
  rfl

/-- R129: while bytes are left there is no reply. -/
theorem State.pullComplete_waits (left : ∀ y, s.ring.pull = some y → y.next < y.stop) : s.pullComplete = s := by
  unfold State.pullComplete
  split
  · rfl
  next y pull => exact if_pos (left y pull)

theorem State.pullComplete_of {y : Pull} (pull : s.ring.pull = some y) (done : y.stop ≤ y.next) : s.pullComplete =
    { s with ring := { s.ring with pull := none } }.answer y.link
      ⟨.ok, [.u8 y.sequence, .u32 y.offset, .u8 s.ring.level, .u16 y.bytes.length, .bytes y.bytes]⟩ := by
  simp only [State.pullComplete, pull, Nat.not_lt.2 done, if_false]
  rfl

end Pulls
end Sys2Proof.Machine

section
open Sys2Proof.Machine

/-- Settles O45: the opening by its conditions, then the checks the two requests share, each refusing both, and the reply. -/
theorem sessionPullsAndReleases : Obligations.SessionPullsAndReleases := by
  refine fun s => ⟨fun high => ?opening, fun r => ?level, fun v q offset => ?requests, fun high => ?reply⟩
  case opening =>
    intro ready
    refine ⟨fun blocked => leads_of rfl high (State.sessionOpen_blocked blocked) fun _ => rfl,
      fun p g at_ unready => leads_of rfl high (State.sessionOpen_unready at_ unready) fun _ => rfl,
      fun p g b closed running at_ fit bound => ?_⟩
    intro e
    refine ⟨g.print.planned b.recipe.dark e, PrintRecord.planned_or, fun unset x extent => ?_, ?_⟩
    · rw [extent]
      exact PrintRecord.planned_set unset b.recipe.dark x
    · exact leads_of rfl high (State.sessionOpen_of closed running at_ fit bound) (State.raise_slot _ _)
  case level =>
    intro occupied
    have same : r.occupied = occupied := r.occupied_eq
    rw [← same]
    exact r.level_eq
  case requests =>
    intro pull release both
    have refused {c : ResultCode} (h : s.pullable q = .error c) : both c := pull_release_refused h v offset
    refine ⟨fun closed => refused (State.pullable_closed closed), fun x g session here =>
      ⟨fun beyond => refused (State.pullable_beyond session here beyond), fun within =>
        ⟨fun ahead => refused (State.pullable_unproduced session here within ahead), fun produced =>
          ⟨fun no => refused (State.pullable_stale session here within produced no), fun i w holds first => ?_⟩⟩⟩⟩
    have held := State.pullable_held session here within produced holds first
    have slotless := swathPull_slotless v.link q offset
    have pulled := State.swathPull_of v.link offset held
    exact ⟨fun r => ⟨fun out => refused_of slotless r rfl (pulled.trans (if_pos out)),
        fun inside => begun_of slotless r rfl (pulled.trans (if_neg (Nat.not_le.2 inside)))⟩,
      fun r => done_of (swathRelease_slotless q) r rfl (State.swathRelease_of held)⟩
  case reply =>
    exact ⟨fun left => leads_of rfl high (State.pullComplete_waits left) fun _ => rfl, fun x tag kind pull done works =>
      answers_of rfl high (State.pullComplete_of pull done) rfl works⟩

end
end

