-- ==== Sys2Proof/Proofs/CureSamples.lean ====
section
/-! PROOF. The rate table (R138, R139), the samples of CURE_SAMPLE (R141 to R145), the entry into curing (R140) and the
stale timer (R145). -/

namespace Sys2Proof.Machine

/-! ### The rate table (R138, R139) -/

section Rates

variable {t : Vector RateBand 8} {theta : Int}

theorem rateTableSet_slotless (bands : Vector RateBand 8) : Slotless (State.rateTableSet bands) :=
  fun s l x mode => State.rateTableSet_slotted s l x mode bands

theorem rateTableGet_slotless : Slotless State.rateTableGet :=
  fun s l x mode => State.rateTableGet_slotted s l x mode

theorem rising_iff_isChain (l : List RateBand) :
    rising l = true ↔ l.IsChain fun a b => a.threshold < b.threshold := by
  induction l using rising.induct with
  | case1 => simp [rising]
  | case2 a => simp [rising]
  | case3 a b r ih => simp [rising, ih]

theorem rising_iff :
    rising t.toList = true ↔ ∀ i j : Fin 8, j.val = i.val + 1 → t[i].threshold < t[j].threshold := by
  rw [rising_iff_isChain, List.isChain_iff_getElem]
  constructor
  · rintro chain i ⟨j, inside⟩ rfl
    exact chain i.val (by simpa using inside)
  · intro next i inside
    rw [Vector.length_toList] at inside
    exact next ⟨i, by omega⟩ ⟨i + 1, inside⟩ rfl

/-- R139: the table that is judged, and stored if it rises, has each threshold held within −80 to 800. -/
theorem State.rateTableSet_of {bands : Vector RateBand 8}
    (held : ∀ i : Fin 8, t[i] = ⟨clampInt (-80) 800 bands[i].threshold, bands[i].rate⟩) (s : State) :
    State.rateTableSet bands s = if rising t.toList then
      { s with cure := { s.cure with table := t } }.accept (rateTableFields t) else s.refuse .malformed := by
  have clamped : vmap (fun b => { b with threshold := clampInt (-80) 800 b.threshold }) bands = t :=
    Vector.ext fun i inside => (vmap_get_val _ _ _ inside).trans (held ⟨i, inside⟩).symm
  rw [State.rateTableSet, clamped]
  rfl

/-- Bands above the temperature leave the rate found so far. -/
theorem foldl_rate_above {l : List RateBand} (above : ∀ b ∈ l, theta < b.threshold) (r : Nat) :
    l.foldl (fun r b => if b.threshold ≤ theta then b.rate else r) r = r := by
  induction l with
  | nil => rfl
  | cons b l ih =>
    rw [List.forall_mem_cons] at above
    rw [List.foldl_cons, if_neg (Int.not_le.2 above.1), ih above.2]

theorem rateAt_of_cold (cold : ∀ k : Fin 8, theta < t[k].threshold) : rateAt t theta = 0 := by
  refine foldl_rate_above (fun b member => ?_) 0
  obtain ⟨k, inside, rfl⟩ := List.mem_iff_getElem.1 member
  exact cold ⟨k, by simpa using inside⟩

/-- R138: the highest band whose threshold is at or below the temperature gives the rate. -/
theorem rateAt_of_highest {k : Fin 8} (reached : t[k].threshold ≤ theta)
    (above : ∀ j : Fin 8, k < j → theta < t[j].threshold) : rateAt t theta = t[k].rate := by
  have inside : k.val < t.toList.length := by simp
  have split : t.toList = t.toList.take k.val ++ t[k] :: t.toList.drop (k.val + 1) :=
    (List.take_append_drop k.val t.toList).symm.trans (congrArg _ (List.drop_eq_getElem_cons inside))
  rw [rateAt, split, List.foldl_append, List.foldl_cons, if_pos reached]
  refine foldl_rate_above (fun b member => ?_) _
  obtain ⟨j, short, rfl⟩ := List.mem_iff_getElem.1 member
  rw [List.getElem_drop]
  rw [List.length_drop, Vector.length_toList] at short
  exact above ⟨k.val + 1 + j, by omega⟩ (Fin.lt_def.2 (show k.val < k.val + 1 + j by omega))

/-- R138's two cases leave no other rate. -/
theorem rateAt_unique {rate : Nat} (cold : (∀ k : Fin 8, theta < t[k].threshold) → rate = 0)
    (highest : ∀ k : Fin 8, t[k].threshold ≤ theta → (∀ j : Fin 8, k < j → theta < t[j].threshold) → rate = t[k].rate) :
    rate = rateAt t theta := by
  by_cases below : ∃ k : Fin 8, t[k].threshold ≤ theta
  · obtain ⟨k, reached, last⟩ := wellFounded_gt.has_min {k : Fin 8 | t[k].threshold ≤ theta} below
    have above (j : Fin 8) (after : k < j) : theta < t[j].threshold := Int.not_le.1 fun h => last j h after
    rw [highest k reached above, rateAt_of_highest reached above]
  · have none_ (k : Fin 8) : theta < t[k].threshold := Int.not_le.1 fun h => below ⟨k, h⟩
    rw [cold none_, rateAt_of_cold none_]

end Rates

/-! ### Samples (R141 to R145) -/

section Samples

variable {s : State} {p : Fin 16} {g : Garment} {b : Binding}

theorem cureSample_slotless (platen : Nat) (temperature : Int) : Slotless (State.cureSample platen temperature) :=
  fun s l x mode => State.cureSample_slotted s l x mode platen temperature

theorem Garment.judged_eq (g : Garment) (c : CureRecord) (r : CureResult) : g.judged c r = { g with
    cure := { c with result := r, stale := false }
    stage := if r = .released then .released else g.stage
    disposition := if r = .scorched then .reject else g.disposition } := by
  cases r <;> rfl

/-- R142, R143: the record that a sample leaves before its verdict. -/
theorem CureRecord.sample_eq (c : CureRecord) (now : Word) (dt rate : Nat) (limit theta : Int) :
    c.sample now dt rate (decide (limit ≤ theta)) =
      ⟨min 65535 (c.credit + (rate * dt + c.carry) / 100), (rate * dt + c.carry) % 100, c.required, some now,
        if limit ≤ theta then min 65535 (c.scorch + dt) else c.scorch, c.stale, c.result⟩ := by
  simp only [CureRecord.sample, decide_eq_true_eq]
  rfl

/-- R142 to R145: an accepted sample as one change of the state: the garment's record, the slot and the stale timer by
the verdict, and the notices. -/
theorem State.sampleGarment_eq {c : CureRecord} {r : CureResult} {temperature : Int}
    (sampled : g.cure.sample s.clock.time (sampleInterval g.cure.lastSample s.clock.time)
      (rateAt s.cure.table (clampInt (-80) 800 temperature))
      (decide (b.recipe.scorchLimit ≤ clampInt (-80) 800 temperature)) = c)
    (verdict : c.verdict b.recipe.scorchAllowance = r) : s.sampleGarment p g b temperature =
      (({ s with cure := { s.cure with
          slot := if r = CureResult.none then s.cure.slot else none
          stale := if r = CureResult.none then some 5000 else none } }.putGarment p (some (g.judged c r))).raiseAll
        ((if g.cure.stale then [Notice.cureStale p g.serial false c.credit c.required] else []) ++
          (if r = CureResult.none then [] else [Notice.cureResult p g.serial r c.credit c.required c.scorch
            b.recipe.scorchAllowance g.print.tallies.w]))).accept
        [.u16 (sampleInterval g.cure.lastSample s.clock.time),
          .u8 (rateAt s.cure.table (clampInt (-80) 800 temperature)), .u16 c.credit, .u8 c.carry, .u16 c.required,
          .u16 c.scorch, .u8 r.code] := by
  simp only [State.sampleGarment, sampled, verdict]
  cases r <;> rfl

/-- R141: a sample of a garment that is not curing, or is judged, is refused. -/
theorem State.cureSample_unfit (at_ : s.place p = .station 4) (here : s.garment p = some g)
    (unfit : g.stage ≠ .curing ∨ g.cure.result ≠ .none) (temperature : Int) :
    State.cureSample p.val temperature s = s.refuse .state := by
  simp only [State.cureSample, inRange_val, at_, ne_eq, not_true_eq_false, if_false, here]
  exact if_pos unfit

theorem State.cureSample_of (at_ : s.place p = .station 4) (here : s.garment p = some g) (bound : g.binding = some b)
    (curing : g.stage = .curing) (unjudged : g.cure.result = .none) (temperature : Int) :
    State.cureSample p.val temperature s = s.sampleGarment p g b temperature := by
  simp [State.cureSample, at_, here, bound, curing, unjudged]

end Samples

end Sys2Proof.Machine

section
open Sys2Proof.Machine

/-- Settles O47: the table by its clamped thresholds, the checks of a sample in order, and its effect by the record that
`CureRecord.sample_eq` gives. -/
theorem cureSampleIntegrates : Obligations.CureSampleIntegrates := by
  refine ⟨fun v bands s r => ?_, fun v s r => done_of rateTableGet_slotless r rfl rfl, fun v platen temperature s r => ?_⟩
  · intro held x entries
    have judged := State.rateTableSet_of entries s
    refine ⟨fun ⟨i, j, next, falls⟩ => ?_, fun rises => ?_⟩
    · exact refused_of (rateTableSet_slotless bands) r rfl
        (judged.trans (if_neg fun h => Int.not_lt.2 falls (rising_iff.1 h i j next)))
    · exact done_of (rateTableSet_slotless bands) r rfl (judged.trans (if_pos (rising_iff.2 rises)))
  · intro i
    refine ⟨fun out => ?_, ?_⟩
    · exact refused_of (cureSample_slotless platen temperature) r rfl (by simp [State.cureSample, inRange_out out])
    rintro p rfl
    have refused {c : ResultCode} : State.cureSample p.val temperature s = s.refuse c → Refused i v 0x30 s c :=
      refused_of (cureSample_slotless p.val temperature) r rfl
    refine ⟨fun away => refused (by simp [State.cureSample, away]), fun at_ =>
      ⟨fun empty => refused (by simp [State.cureSample, at_, empty]), fun g b here bound =>
        ⟨fun unfit => refused (State.cureSample_unfit at_ here unfit temperature), fun curing unjudged => ?_⟩⟩⟩
    intro dt theta rate cold highest
    obtain rfl : rate = rateAt s.cure.table theta := rateAt_unique cold highest
    refine done_of (cureSample_slotless p.val temperature) r rfl
      ((State.cureSample_of at_ here bound curing unjudged temperature).trans ?_)
    rw [State.sampleGarment_eq (CureRecord.sample_eq ..) rfl, Garment.judged_eq]
    rfl

end

namespace Sys2Proof.Machine

section Entry

variable {s : State} {p : Fin 16} {g : Garment} {b : Binding} {serial : Word}

/-! ### Entry into curing (R140) -/

theorem State.cureEntry_empty (empty : s.garment p = none) : s.cureEntry p = s := by
  simp only [State.cureEntry, empty]

theorem State.cureEntry_at (here : s.garment p = some g) (bound : g.binding = some b) :
    s.cureEntry p = if g.disposition = .good ∧ g.cure.result = .none then
      { s.putGarment p (some { g with
          stage := .curing, cure := { g.cure with required := requiredCredit b.recipe g.print.tallies.w } }) with
        cure := { s.cure with slot := some (p, g.serial), stale := some 5000 } } else s := by
  simp only [State.cureEntry, here, bound]
  rfl

theorem State.cureEntry_unfit (here : s.garment p = some g) (bound : g.binding = some b)
    (unfit : g.disposition = .reject ∨ g.cure.result ≠ .none) : s.cureEntry p = s := by
  refine (State.cureEntry_at here bound).trans (if_neg fun ⟨good, unjudged⟩ => ?_)
  simp [good, unjudged] at unfit

/-! ### The stale timer (R145) -/

theorem State.staleExpiry_idle (idle : s.cure.stale ≠ some 0 ∨ s.cure.slot = none) : s.staleExpiry = s := by
  unfold State.staleExpiry
  split
  next due held => simp [due, held] at idle
  · rfl

theorem State.staleExpiry_gone (due : s.cure.stale = some 0) (held : s.cure.slot = some (p, serial))
    (gone : ∀ g, s.garment p = some g → g.serial ≠ serial) :
    s.staleExpiry = { s with cure := { s.cure with stale := none } } := by
  simp only [State.staleExpiry, due, held, State.setCure_garment]
  split
  · rfl
  next here => exact if_neg (gone _ here)

/-- R145: the garment that the slot still holds is marked, once, and the timer ends. -/
theorem State.staleExpiry_marks (due : s.cure.stale = some 0) (held : s.cure.slot = some (p, serial))
    (here : s.garment p = some g) (same : g.serial = serial) :
    s.staleExpiry = ({ s with cure := { s.cure with stale := none } }.putGarment p
      (some { g with cure := { g.cure with stale := true } })).raise
        (.cureStale p serial true g.cure.credit g.cure.required) := by
  simp only [State.staleExpiry, due, held, State.setCure_garment, here, same, if_true]
  rfl

end Entry

end Sys2Proof.Machine

section
open Sys2Proof.Machine

/-- Settles O48: the entry by its one condition, the timer by whether it has run out and whom the slot holds. -/
theorem curingEntryAndStaleTimer : Obligations.CuringEntryAndStaleTimer := by
  refine ⟨fun s p => ⟨State.cureEntry_empty, fun g b here bound => ⟨State.cureEntry_unfit here bound, fun good unjudged =>
    (State.cureEntry_at here bound).trans (if_pos ⟨good, unjudged⟩)⟩⟩, fun s high => ?timer⟩
  case timer =>
    refine ⟨fun idle => leads_of rfl high (State.staleExpiry_idle idle) fun _ => rfl, fun p serial due held =>
      ⟨fun gone => leads_of rfl high (State.staleExpiry_gone due held gone) fun _ => rfl, fun g here same => ?_⟩⟩
    exact leads_of rfl high (State.staleExpiry_marks due held here same) (State.raise_slot _ _)

end
end

