-- ==== Sys2Proof/Proofs/Restores.lean ====
section
/-! PROOF. UNSHELVE (R155 to R157). -/

namespace Sys2Proof.Machine

/-! ### Components in use, counted as R162 reports them (R151) -/

section InUse

/-- R151: how much of a context's PRETREAT component is in use, an absent one counting as not in use (R155). -/
def Context.usedPretreat (c : Context) : Nat := (c.pretreat.map Reported.pretreatUse).getD 0

/-- R151: the same of its PRINT component. -/
def Context.usedPrint (c : Context) : Nat := (c.print.map Reported.printUse).getD 0

/-- R151: the same of its CURE component. -/
def Context.usedCure (c : Context) : Nat := (c.cure.map Reported.cureUse).getD 0

theorem Context.uses_pretreat_code (c : Context) : c.uses.pretreat.code = c.usedPretreat := by
  cases e : c.pretreat with
  | none => simp [Context.uses, Context.usedPretreat, e, Use.code]
  | some y => simp [Context.uses, Context.usedPretreat, e, CtxPretreat.use_code]

theorem Context.uses_print_code (c : Context) : c.uses.print.code = c.usedPrint := by
  cases e : c.print with
  | none => simp [Context.uses, Context.usedPrint, e, Use.code]
  | some y => simp [Context.uses, Context.usedPrint, e, CtxPrint.use_code]

theorem Context.uses_cure_code (c : Context) : c.uses.cure.code = c.usedCure := by
  cases e : c.cure with
  | none => simp [Context.uses, Context.usedCure, e, Use.code]
  | some y => simp [Context.uses, Context.usedCure, e, CtxCure.use_code]

theorem Use.bne_notInUse (u : Use) : (u != .notInUse) = (u.code != 0) := by cases u <;> rfl

theorem Use.beq_isPartial (u : Use) : (u == .isPartial) = (u.code == 1) := by cases u <;> rfl

/-- R155: the components that an effective mask loads. -/
def Context.loads (c : Context) (e : Components) : Components :=
  ⟨e.ident, e.pretreat && c.usedPretreat != 0, e.print && c.usedPrint != 0, e.cure && c.usedCure != 0⟩

theorem Context.inter_held (c : Context) (e : Components) : e.inter c.held = c.loads e := by
  simp only [Components.inter, Context.held, Context.loads, Use.bne_notInUse, c.uses_pretreat_code, c.uses_print_code,
    c.uses_cure_code, Bool.and_true]

/-- R155's tests (a), (b) and (c). -/
theorem Context.badMask_iff (c : Context) (e : Components) : c.badMask e = true ↔ e.ident = false ∨
    (e.pretreat = true ∧ c.usedPretreat = 1) ∨ (e.print = true ∧ c.usedPrint = 1) ∨ (e.cure = true ∧ c.usedCure = 1) ∨
    (c.usedPretreat ≠ 0 ∧ (c.loads e).pretreat = false ∧ (c.usedPrint ≠ 0 ∨ c.usedCure ≠ 0)) ∨
    (c.usedPrint ≠ 0 ∧ (c.loads e).print = false ∧ c.usedCure ≠ 0) := by
  simp only [Context.badMask, Context.inter_held]
  simp only [Context.held, Use.bne_notInUse, Use.beq_isPartial, c.uses_pretreat_code,
    c.uses_print_code, c.uses_cure_code, Bool.or_eq_true, Bool.and_eq_true, Bool.not_eq_true', bne_iff_ne, beq_iff_eq, or_assoc,
    and_assoc]

theorem Context.loads_pretreat {c : Context} {e : Components} (loaded : (c.loads e).pretreat = true) :
    ∃ y, c.pretreat = some y := by
  cases here : c.pretreat with
  | none => simp [Context.loads, Context.usedPretreat, here] at loaded
  | some y => exact ⟨y, rfl⟩

end InUse

/-! ### The record made (R156) -/

section Record

variable {s : State} {x : ShelfSlot} {loaded : Components}

theorem State.restoredPretreat_loaded {y : CtxPretreat} (on : loaded.pretreat = true) (here : x.context.pretreat = some y) :
    s.restoredPretreat x loaded = (y.record, y.press, none) := by
  simp [State.restoredPretreat, loadedPart, on, here]

/-- R156 step 3: PRETREAT not loaded is settled as at a binding. -/
theorem State.restoredPretreat_settled (off : loaded.pretreat = false) :
    s.restoredPretreat x loaded = s.settledPretreat x.recipe x.placement := by
  simp [State.restoredPretreat, loadedPart, off]

/-- R156 step 4: no restored garment has a dose map. -/
theorem State.restoredPretreat_map : (s.restoredPretreat x loaded).1.map = DoseMap.zero := by
  unfold State.restoredPretreat
  split
  · rfl
  · rw [State.settledPretreat_eq]
    rfl

/-- R102: the band of the first job of a garment that is to be sprayed. -/
theorem State.restoredPretreat_sprayed {a : Rect} (off : loaded.pretreat = false) (wet : x.recipe.pretreat = true)
    (extent : s.extent x.placement = some a) : (s.restoredPretreat x loaded).2.2 = some (a.top / 64) := by
  simp [State.restoredPretreat_settled off, State.settledPretreat_eq, wet, extent]

/-- R102: with PRETREAT loaded, not wanted or without an extent there is no job. -/
theorem State.restoredPretreat_dry {e : Components}
    (dry : ¬((x.context.loads e).pretreat = false ∧ x.recipe.pretreat = true) ∨ s.extent x.placement = none) :
    (s.restoredPretreat x (x.context.loads e)).2.2 = none := by
  cases on : (x.context.loads e).pretreat with
  | true =>
    obtain ⟨y, here⟩ := Context.loads_pretreat on
    rw [State.restoredPretreat_loaded on here]
  | false =>
    rw [State.restoredPretreat_settled on, State.settledPretreat_eq]
    rcases dry with dry | dry
    · simp [show x.recipe.pretreat = false by simpa [on] using dry]
    · simp [dry]

theorem State.restoredGarment_print_loaded {y : CtxPrint} (on : loaded.print = true) (here : x.context.print = some y) :
    (s.restoredGarment x loaded).print = y.record (s.extent x.placement) := by
  simp [State.restoredGarment, loadedPart, on, here]

theorem State.restoredGarment_print_fresh (off : loaded.print = false) :
    (s.restoredGarment x loaded).print = PrintRecord.fresh := by
  simp [State.restoredGarment, loadedPart, off]

theorem State.restoredGarment_cure_loaded {y : CtxCure} (on : loaded.cure = true) (here : x.context.cure = some y) :
    (s.restoredGarment x loaded).cure = y.record := by
  simp [State.restoredGarment, loadedPart, on, here]

theorem State.restoredGarment_cure_fresh (off : loaded.cure = false) :
    (s.restoredGarment x loaded).cure = CureRecord.fresh := by
  simp [State.restoredGarment, loadedPart, off]

/-- R156 step 6. -/
theorem State.restoredGarment_orphan : (s.restoredGarment x loaded).orphan = true ↔
    ∃ o, s.book.find x.context.ident.order = some o ∧ o.status = .cancelling := by
  cases found : s.book.find x.context.ident.order with
  | none => simp [State.restoredGarment, found]
  | some o => simp [State.restoredGarment, found]

/-- R156 step 2. -/
theorem CtxPrint.record_tallies (y : CtxPrint) (e : Option Rect) :
    (y.record e).tallies = ⟨1024 * y.c, 1024 * y.m, 1024 * y.y, 1024 * y.k, y.w⟩ := by
  simp only [CtxPrint.record, Nat.mul_comm]

end Record

/-! ### The effect (R156) -/

section Effect

variable (s : State) (k : Fin 8) (x : ShelfSlot) (p : Fin 16) (loaded : Components)

theorem State.restore_keeps : s.keeps (s.restore k x p loaded) [.units, .engine, .shelf, .notices] := by
  rw [State.restore, State.appendJob_eq]
  intro part out
  cases part with
  | units => simp at out
  | engine => simp at out
  | shelf => simp at out
  | notices => simp at out
  | settings => exact fun l => by simp [State.putShelf]
  | outputs => exact fun i => ⟨rfl, rfl, rfl, rfl⟩
  | _ => rfl

theorem State.restore_link (l : Link) : (s.restore k x p loaded).link l =
    (s.link l).offerAll s.clock.time [x.context.notice k .restored (some (p, loaded))] := by
  rw [State.restore, State.appendJob_eq, State.raise_link]
  rfl

theorem State.restore_units : (s.restore k x p loaded).units =
    { s.units with garments := upd s.units.garments p (some (s.restoredGarment x loaded)) } := by
  rw [State.restore, State.appendJob_eq]
  rfl

theorem State.restore_shelf :
    (s.restore k x p loaded).shelf = { s.shelf with slots := upd s.shelf.slots k none } := by
  rw [State.restore, State.appendJob_eq]
  rfl

theorem State.restore_engine : (s.restore k x p loaded).engine = { s.engine with
    jobs := s.engine.jobs ++ (s.restoredPretreat x loaded).2.2.toList.map fun n => ⟨p, x.context.serial, n⟩ } := by
  rw [State.restore, State.appendJob_eq]
  rfl

end Effect

/-! ### The handler (R155) -/

section Handler

variable {s : State} {k : Fin 8} {p : Fin 16} {mask : Nat} {x : ShelfSlot}

theorem unshelve_slotless (slot platen mask : Nat) : Slotless (State.unshelve slot platen mask) :=
  fun s l x mode => State.unshelve_slotted s l x mode slot platen mask

/-- R155: the requested mask without what the restore-permit mask leaves out. -/
def State.permitted (s : State) (mask : Nat) : Components :=
  ⟨mask.testBit 0 && s.shelf.permit.ident, mask.testBit 1 && s.shelf.permit.pretreat, mask.testBit 2 && s.shelf.permit.print,
    mask.testBit 3 && s.shelf.permit.cure⟩

theorem Components.ofMask_low (low : mask < 16) :
    Components.ofMask mask = some ⟨mask.testBit 0, mask.testBit 1, mask.testBit 2, mask.testBit 3⟩ := if_pos low

theorem State.artReady_iff (s : State) (q : Placement) : s.artReady q = true ↔ (s.art q.art).map Art.status = some .ready :=
  beq_iff_eq

/-- R155 check 1, the numbers. -/
theorem State.unshelve_range {slot platen : Nat} (out : 8 ≤ slot ∨ 16 ≤ platen) :
    State.unshelve slot platen mask s = s.refuse .range := by
  rcases out with out | out
  · simp [State.unshelve, inRange_out out]
  · cases e : inRange 8 slot <;> simp [State.unshelve, e, inRange_out out]

/-- R155: past check 6 the request is refused by the mask's tests or restores the context. -/
theorem State.unshelve_judged (low : mask < 16) (line : s.track.line ≠ .census) (filled : s.shelfSlot k = some x)
    (at_ : s.place p = .station 0) (empty : s.garment p = none) (ready : (s.art x.placement.art).map Art.status = some .ready) :
    State.unshelve k.val p.val mask s =
      if x.context.badMask (s.permitted mask) then s.refuse .badMask
      else (s.restore k x p (x.context.loads (s.permitted mask))).accept
        [.word x.context.serial, .u8 (x.context.loads (s.permitted mask)).mask,
          .u8 (resumeStage (x.context.loads (s.permitted mask))).code] := by
  have art := (s.artReady_iff x.placement).2 ready
  simp only [State.unshelve, inRange_val, Components.ofMask_low low, line, filled, at_, empty, art, ← Context.inter_held, ne_eq,
    not_true_eq_false, Option.isSome_none, Bool.false_eq_true, Bool.true_eq_false, or_self, if_false]
  rfl

end Handler
end Sys2Proof.Machine

section
open Sys2Proof.Machine

/-- Settles O50: the checks in their order, the mask's tests counted by R151; then the restored record, component by
component. -/
theorem unshelveRestoresContext : Obligations.UnshelveRestoresContext := by
  intro v slot platen mask s r i
  refine ⟨fun out => refused_of (unshelve_slotless slot platen mask) r rfl (State.unshelve_range out), ?_⟩
  rintro k p rfl rfl
  have slotless := unshelve_slotless k.val p.val mask
  refine ⟨fun high => ?_, fun low => ⟨fun census => ?_, fun line => ⟨fun vacant => ?_, fun x filled => ⟨fun away => ?_,
    fun at_ taken => ?_, fun at_ empty => ⟨fun unready => ?_, fun ready => ?_⟩⟩⟩⟩⟩
  · have none_ : Components.ofMask mask = none := if_neg (by omega)
    exact refused_of slotless r rfl (by simp [State.unshelve, none_])
  · exact refused_of slotless r rfl (by simp [State.unshelve, Components.ofMask_low low, census])
  · exact refused_of slotless r rfl (by simp [State.unshelve, Components.ofMask_low low, line, vacant])
  · exact refused_of slotless r rfl (by simp [State.unshelve, Components.ofMask_low low, line, filled, away])
  · have busy := Option.isSome_iff_ne_none.2 taken
    exact refused_of slotless r rfl (by simp [State.unshelve, Components.ofMask_low low, line, filled, at_, busy])
  · have art : s.artReady x.placement = false := by simpa using mt (s.artReady_iff x.placement).1 unready
    exact refused_of slotless r rfl (by simp [State.unshelve, Components.ofMask_low low, line, filled, at_, empty, art])
  have judged := State.unshelve_judged low line filled at_ empty ready
  have bad_iff := x.context.badMask_iff (s.permitted mask)
  intro c used usedPretreat usedPrint usedCure asked pretreat print cure loaded bad
  refine ⟨fun bad => refused_of slotless r rfl (judged.trans (if_pos (bad_iff.2 bad))), fun good => ?_⟩
  intro stage e sprayed noMap
  have restored := judged.trans (if_neg (mt bad_iff.1 good))
  rw [← coded_stage, ← Reported.components_eq] at restored
  obtain ⟨t, answered, kept⟩ := done_of (i := i) slotless r rfl restored
  have engine := (kept .engine (by simp)).trans (s.restore_engine k x p loaded)
  refine ⟨t, s.restoredGarment x loaded, answered, State.keeps_done (s.restore_keeps k x p loaded) kept (by simp),
    State.notified_of_keeps (s.restore_link k x p loaded) kept, (kept .shelf (by simp)).trans (s.restore_shelf k x p loaded),
    (kept .units (by simp)).trans (s.restore_units k x p loaded), by rw [engine], fun ⟨off, wet⟩ a extent => ?_,
    fun dry => ?_, rfl, rfl, rfl, rfl, rfl, rfl, rfl, rfl, State.restoredGarment_orphan, State.restoredPretreat_map,
    fun y on here => ?_, fun off => ?_, fun y on here => ?_, State.restoredGarment_print_fresh (loaded := loaded),
    fun y on here => ?_, State.restoredGarment_cure_fresh (loaded := loaded)⟩
  · rw [engine, State.restoredPretreat_sprayed (loaded := loaded) off wet extent]
    rfl
  · have none_ : (s.restoredPretreat x loaded).2.2 = none := State.restoredPretreat_dry (e := s.permitted mask) dry
    rw [engine, none_]
    exact List.append_nil _
  · have record := State.restoredPretreat_loaded (s := s) (loaded := loaded) on here
    exact ⟨congrArg (·.1) record, congrArg (·.2.1) record⟩
  · have record := State.restoredPretreat_settled (s := s) (x := x) (loaded := loaded) off
    rw [State.settledPretreat_eq] at record
    exact ⟨congrArg (·.2.1) record, congrArg (·.1) record⟩
  · rw [State.restoredGarment_print_loaded (loaded := loaded) on here]
    refine ⟨rfl, rfl, rfl, rfl, y.record_tallies e, fun a extent => ?_⟩
    rw [show s.extent x.placement = some a from extent]
    exact ⟨rfl, rfl⟩
  · exact State.restoredGarment_cure_loaded on here

end
end

