-- ==== Sys2Proof/Proofs/RequestFacts.lean ====
section
/-! PROOF. The taking of a request command, and what the end of a step leaves of a link. -/

namespace Sys2Proof.Machine

/-! ### What a request's block is asked to do -/

/-- Each request's handler; a command that is no request has none. -/
def handlerOf : Instr → State → Taken
  | .orderPost _ order priority lines => State.orderPost order priority lines
  | .lineAmend _ order position quantity => State.lineAmend order position quantity
  | .orderHold _ order => State.orderHold order
  | .orderRelease _ order => State.orderRelease order
  | .orderCancel _ order => State.orderCancel order
  | .orderRetire _ order => State.orderRetire order
  | .catalogueSet _ blank cls => State.catalogueSet blank cls
  | .catalogueRemove _ blank => State.catalogueRemove blank
  | .catalogueGet _ blank => State.catalogueGet blank
  | .classSet _ cls recipe => State.classSet cls recipe
  | .classGet _ cls => State.classGet cls
  | .artOpen _ format palette width height stride base crc => State.artOpen format palette width height stride base crc
  | .artWrite v handle offset data => State.artWrite v.link handle offset data
  | .artSeal _ handle crc => State.artSeal handle crc
  | .artFree _ handle => State.artFree handle
  | .paletteSet _ palette first entries => State.paletteSet palette first entries
  | .paletteGet _ palette first count => State.paletteGet palette first count
  | .overlaySet _ overlay colours first rows => State.overlaySet overlay colours first rows
  | .overlayGet _ overlay first count => State.overlayGet overlay first count
  | .rateTableSet _ bands => State.rateTableSet bands
  | .rateTableGet _ => State.rateTableGet
  | .shelfPermitSet _ mask => State.shelfPermitSet mask
  | .shelfExport _ slot form => State.shelfExport slot form
  | .shelfImport _ record => State.shelfImport record
  | .shelfDrop _ slot => State.shelfDrop slot
  | .shelve _ platen => State.shelve platen
  | .unshelve _ slot platen mask => State.unshelve slot platen mask
  | .lineReset v => State.takeLineReset v.link
  | .powerFlagClear _ => State.clearPowerFlag
  | .indicatorSet _ output conditions mode onTime offTime => State.assignIndicator output conditions mode onTime offTime
  | .noticeMaskSet v mask => State.setNoticeMask v.link mask
  | .read _ kind key option => State.readRecord kind key option
  | .garmentLoad _ platen blank => State.garmentLoad platen blank
  | .garmentAssign _ platen order position => State.garmentAssign platen order position
  | .loadClear _ platen => State.loadClear platen
  | .unloadGood _ platen => State.unloadGood platen
  | .unloadSpoil _ platen => State.unloadSpoil platen
  | .platenDeclare _ platen place => State.platenDeclare platen place
  | .jamConfirm _ platen place => State.jamConfirm platen place
  | .lineResume _ => State.lineResume
  | .stationHold _ station => State.stationHold station
  | .stationRelease _ station => State.stationRelease station
  | .serviceOut _ platen => State.serviceOut platen
  | .serviceIn _ platen => State.serviceIn platen
  | .swathPull v sequence offset => State.swathPull v.link sequence offset
  | .swathRelease _ sequence => State.swathRelease sequence
  | .printEndOk _ => State.printEndOk
  | .printEndAbort _ => State.printEndAbort
  | .cureSample _ platen temperature => State.cureSample platen temperature
  | _ => fun s => (s, none)

theorem exec_eq_request {i : Instr} {v : Via} {kind : Nat} (h : Instr.asRequest i = some (v, kind)) (s : State) :
    exec i s = request v kind i (handlerOf i) s := by
  cases i
  all_goals cases h
  all_goals rfl

theorem asRequest_kind {i : Instr} {v : Via} {kind : Nat} (h : Instr.asRequest i = some (v, kind)) :
    1 ≤ kind ∧ kind ≤ 0x30 := by
  cases i
  all_goals cases h
  all_goals decide

/-! ### What the end of a step makes of a link -/

theorem LinkState.kick_alike (k : LinkState) : k.kick.alike k :=
  ⟨by simp, by simp, by simp, by simp, by simp, by simp, by simp, by simp, k.kick_lost⟩

theorem State.settle_alike (s : State) (l : Link) : (s.settle.link l).alike (s.link l) := by
  rw [State.settle_link]
  exact LinkState.kick_alike _

/-- One link rewritten, and the step ended: the other links stand, and this one is as written. -/
theorem State.putLink_settle_alike (s : State) (l : Link) (k : LinkState) :
    (∀ m, m ≠ l → ((s.putLink l k).settle.link m).alike (s.link m)) ∧ ((s.putLink l k).settle.link l).alike k := by
  refine ⟨fun m other => ?_, ?_⟩
  · have stands := (s.putLink l k).settle_alike m
    rwa [State.putLink_link_ne s l m k other.symm] at stands
  · have written := (s.putLink l k).settle_alike l
    rwa [State.putLink_link_self] at written

/-- One link's settings rewritten, its notices left as they were. -/
theorem State.putLink_keeps_settings (s : State) (l : Link) (k : LinkState) (queue : k.queue = (s.link l).queue)
    (number : k.number = (s.link l).number) (lost : k.lost = (s.link l).lost) :
    s.keeps (s.putLink l k).settle [.settings] := by
  have kept := (s.putLink l k).keeps_settle
  intro p out
  have after := kept p (by simp)
  cases p with
  | settings => simp at out
  | notices =>
    intro m
    obtain ⟨queue', number', lost'⟩ := after m
    by_cases same : l = m
    · subst same
      rw [State.putLink_link_self] at queue' number' lost'
      exact ⟨queue'.trans queue, number'.trans number, lost ▸ lost'⟩
    · rw [State.putLink_link_ne s l m k same] at queue' number' lost'
      exact ⟨queue', number', lost'⟩
  | _ => exact after

end Sys2Proof.Machine

end

