-- ==== Sys2Proof/Proofs/RequestsTurnedAway.lean ====
section
/-! PROOF. The table of permissions (R168) and the requests that are turned away (R167, R172). -/

namespace Sys2Proof.Machine

theorem permitted_iff (l : Link) {kind : Nat} (low : 1 ≤ kind) (high : kind ≤ 0x30) : permitted l kind = true ↔
    (kind = 0x09 ∨ kind = 0x0B ∨ kind = 0x11 ∨ kind = 0x13 ∨ kind = 0x15 ∨ kind = 0x1F ∨ kind = 0x20) ∨
      (match l with
        | .order => kind ≤ 0x19 ∨ (0x1C ≤ kind ∧ kind ≤ 0x1E)
        | .operator => (0x19 ≤ kind ∧ kind ≤ 0x1B) ∨ kind = 0x1E ∨ (0x21 ≤ kind ∧ kind ≤ 0x2C)
        | .head => 0x2D ≤ kind ∧ kind ≤ 0x2F
        | .cure => kind = 0x30) := by
  cases l with
  | order | operator =>
    simp only [permitted, Bool.or_eq_true, decide_eq_true_eq]
    omega
  | head | cure => simp only [permitted, Bool.or_eq_true, decide_eq_true_eq]

/-! ### What the taking of a request does where it is not handed to its block (R167) -/

section Taking

variable {s : State} {v : Via} {kind : Nat} {i : Instr} {h : State → Taken}

theorem takeRequest_denied (listening : (s.link v.link).receiver ≠ .inBreak) (free : (s.link v.link).slot = .free)
    (denied : permitted v.link kind = false) :
    s.takeRequest v kind i h = s.putLink v.link ((s.link v.link).answerAtOnce v.tag kind .denied) := by
  simp [State.takeRequest, free, listening, denied]

/-- A request other than the one handed on finds its link's slot in flight. -/
theorem takeRequest_busy (listening : (s.link v.link).receiver ≠ .inBreak) (taken : (s.link v.link).slot ≠ .free)
    (other : ∀ tag kd, (s.link v.link).slot ≠ .inFlight tag kd (.handed i)) :
    s.takeRequest v kind i h = s.putLink v.link ((s.link v.link).refuseBusy v.tag kind) := by
  unfold State.takeRequest
  dsimp only
  split
  next tag kd j slot =>
    have ne : j ≠ i := fun same => other tag kd (same ▸ slot)
    rw [if_neg ne, if_neg listening]
  · rw [if_neg listening]
  next free => exact absurd free taken

/-- In BREAK nothing is received (R172). -/
theorem takeRequest_inBreak (broken : (s.link v.link).receiver = .inBreak)
    (other : ∀ tag kd, (s.link v.link).slot ≠ .inFlight tag kd (.handed i)) : s.takeRequest v kind i h = s := by
  unfold State.takeRequest
  dsimp only
  split
  next tag kd j slot =>
    have ne : j ≠ i := fun same => other tag kd (same ▸ slot)
    rw [if_neg ne, if_pos broken]
  · rw [if_pos broken]
  · rw [if_pos broken]

theorem request_powered (powered : s.resetLow = false) :
    request v kind i h s = .next (s.takeRequest v kind i h).settle := by
  simp [request, powered]

end Taking

theorem LinkState.refuseBusy_pending {k : LinkState} (tag kind : Nat) (pending : k.busy ≠ none) :
    k.refuseBusy tag kind = { k with discards := min 65535 (k.discards + 1) } := by
  unfold LinkState.refuseBusy
  split
  next none_ => exact absurd none_ pending
  · rfl

theorem LinkState.refuseBusy_first {k : LinkState} (tag kind : Nat) (none_ : k.busy = none) :
    k.refuseBusy tag kind = { k with busy := some ⟨tag, kind, k.readyReply.isSome⟩ } := by
  simp [LinkState.refuseBusy, none_]

theorem LinkState.refuseBusy_notices (k : LinkState) (tag kind : Nat) : (k.refuseBusy tag kind).queue = k.queue ∧
    (k.refuseBusy tag kind).number = k.number ∧ (k.refuseBusy tag kind).lost = k.lost := by
  unfold LinkState.refuseBusy
  split <;> exact ⟨rfl, rfl, rfl⟩

/-- A request answered before hand-on has nothing but its reply. -/
theorem State.answerAtOnce_eq_slotted (s : State) (l : Link) (tag kind : Nat) (c : ResultCode) :
    s.putLink l ((s.link l).answerAtOnce tag kind c) = s.slotted l (.inFlight tag kind (.ready ⟨c, []⟩)) false := rfl

end Sys2Proof.Machine

section
open Sys2Proof.Machine

/-- Settles O6: the table is computed; then each way of turning a request away is what its taking does. -/
theorem requestsTurnedAway : Obligations.RequestsTurnedAway := by
  refine ⟨fun l kind low high => permitted_iff l low high, fun i v kind s isRequest powered => ?_⟩
  have outcome : exec i s = .next (s.takeRequest v kind i (handlerOf i)).settle :=
    (exec_eq_request isRequest s).trans (request_powered powered)
  refine ⟨fun listening free denied => ?_, fun taken other listening => ?_, fun broken other => ?_⟩
  · rw [takeRequest_denied listening free denied, State.answerAtOnce_eq_slotted] at outcome
    refine ⟨_, ⟨outcome, ?_, fun l ne => ?_⟩, s.keeps_slotted_settle v.link _ false⟩
    · rw [State.settle_link, LinkState.kick_slot, State.slotted_link_self]
    · rw [State.settle_link, LinkState.kick_slot, State.slotted_link_ne _ _ _ _ _ (Ne.symm ne)]
  · rw [takeRequest_busy listening taken other] at outcome
    obtain ⟨queue, number, lost⟩ := (s.link v.link).refuseBusy_notices v.tag kind
    obtain ⟨others, own⟩ := s.putLink_settle_alike v.link ((s.link v.link).refuseBusy v.tag kind)
    exact ⟨_, outcome, s.putLink_keeps_settings v.link _ queue number lost, others,
      fun pending => LinkState.refuseBusy_pending v.tag kind pending ▸ own,
      fun none_ => LinkState.refuseBusy_first v.tag kind none_ ▸ own⟩
  · rw [takeRequest_inBreak broken other] at outcome
    exact ⟨_, outcome, s.keeps_settle, s.settle_alike⟩

end

end

