-- ==== Sys2Proof/Proofs/BreaksAndMasks.lean ====
section
/-! PROOF. A break on one link (R172), its mask (R174), and a notice raised (R175). -/

namespace Sys2Proof.Machine

/-! ### Events on one link -/

/-- A powered event on one link rewrites it and ends the step. -/
theorem event_onLink {i : Instr} {l : Link} {f : LinkState → LinkState} {s : State}
    (e : exec i s = event (fun u => u.onLink l f) s) (powered : s.resetLow = false) :
    exec i s = .next (s.putLink l (f (s.link l))).settle := by
  rw [e, event_powered _ s powered, State.onLink]

/-- What a rewritten link and the end of the step keep of everything else. -/
theorem State.putLink_keeps (s : State) (l : Link) (k : LinkState) :
    s.keeps (s.putLink l k).settle [.notices, .settings] := by
  intro p out
  have after := (s.putLink l k).keeps_settle p (by simp)
  cases p with
  | settings | notices => simp at out
  | _ => exact after

theorem State.putLink_same (s : State) (l : Link) : s.putLink l (s.link l) = s := by
  cases l <;> rfl

theorem LinkState.broken_slot (k : LinkState) (l : Link) :
    (k.readyReply.isSome = true → (k.broken l).slot = .free) ∧ (k.readyReply = none → (k.broken l).slot = k.slot) := by
  unfold LinkState.broken LinkState.readyReply
  dsimp only
  split <;> simp_all

theorem LinkState.broken_silent (k : LinkState) (l : Link) (taken : k.slot ≠ .free) : (k.broken l).silent = true := by
  simp [LinkState.broken, taken]

theorem LinkState.breakEnded_inBreak {k : LinkState} (h : k.receiver = .inBreak) :
    k.breakEnded = { k with receiver := .hunting } := by
  simp [LinkState.breakEnded, h]

theorem LinkState.breakEnded_other {k : LinkState} (h : k.receiver ≠ .inBreak) : k.breakEnded = k := by
  unfold LinkState.breakEnded
  split
  next e => exact absurd e h
  · rfl

/-! ### Offers (R174) -/

theorem LinkState.offer_inBreak {k : LinkState} (time : Word) (n : Notice) (h : k.receiver = .inBreak) :
    k.offer time n = k := by
  simp [LinkState.offer, h]

theorem LinkState.offer_masked {k : LinkState} (time : Word) (n : Notice) (h : k.mask.getLsbD n.index = false) :
    k.offer time n = k := by
  simp [LinkState.offer, h]

theorem LinkState.offer_full {k : LinkState} (time : Word) {n : Notice} (listening : k.receiver ≠ .inBreak)
    (admits : k.mask.getLsbD n.index = true) (full : 16 ≤ k.queue.length) :
    k.offer time n = { k with lost := true, number := k.number + 1 } := by
  simp [LinkState.offer, listening, admits, Nat.not_lt.2 full]

theorem setNoticeMask_slotless (l : Link) (mask : Half) : Slotless (State.setNoticeMask l mask) :=
  fun s m x mode => State.setNoticeMask_slotted s m x mode l mask

theorem clearPowerFlag_slotless : Slotless State.clearPowerFlag := State.clearPowerFlag_slotted

end Sys2Proof.Machine

section
open Sys2Proof.Machine

/-- Settles O13: a break and its end rewrite one link; the two requests by their handlers; an offer case by case. -/
theorem breaksMasksAndNotices : Obligations.BreaksMasksAndNotices := by
  refine ⟨fun l s powered => ⟨?reset, fun broken => ?ends, fun listening => ?ignored⟩, fun v mask s ready => ?mask,
    fun v s ready => ?flag, fun s n => ⟨?keeps, fun l => ⟨?broken, ?masked, fun listening admits => ⟨?queued, ?lost⟩⟩⟩⟩
  case reset =>
    let k := s.link l
    obtain ⟨others, receiver, slot, silent, busy, discards, mask, queue, number, -⟩ :=
      s.putLink_settle_alike l (k.broken l)
    have quiet : ((s.putLink l (k.broken l)).settle.link l) = k.broken l := by
      rw [State.settle_link, State.putLink_link_self, LinkState.kick_inBreak _ rfl]
    refine ⟨_, event_onLink rfl powered, s.putLink_keeps l _, others, receiver, queue, number, discards, busy,
      by rw [quiet]; rfl, by rw [quiet]; rfl, by rw [mask]; cases l <;> rfl, fun ready => ?_, fun none_ => ?_,
      fun taken => ?_⟩
    · exact slot.trans ((k.broken_slot l).1 ready)
    · exact slot.trans ((k.broken_slot l).2 none_)
    · exact silent.trans (k.broken_silent l taken)
  case ends =>
    obtain ⟨others, own⟩ := s.putLink_settle_alike l (s.link l).breakEnded
    have same := LinkState.breakEnded_inBreak broken
    exact ⟨_, event_onLink rfl powered, s.putLink_keeps_settings l _ (by rw [same]) (by rw [same]) (by rw [same]), others,
      same ▸ own⟩
  case ignored =>
    have outcome : exec (.breakEnd l) s = .next _ := event_onLink rfl powered
    rw [LinkState.breakEnded_other listening, State.putLink_same] at outcome
    exact ⟨_, outcome, s.keeps_settle, s.settle_alike⟩
  case mask => exact done_of (setNoticeMask_slotless v.link mask) ready rfl rfl
  case flag => exact done_of clearPowerFlag_slotless ready rfl rfl
  case keeps => exact s.raiseAll_keeps [n]
  case broken =>
    intro broken
    rw [State.raise_link, LinkState.offer_inBreak _ _ broken]
  case masked =>
    intro masked
    rw [State.raise_link, LinkState.offer_masked _ _ masked]
  case queued =>
    intro room
    rw [State.raise_link, LinkState.offer_taken _ (by simp [admits, listening]) room]
  case lost =>
    intro full
    rw [State.raise_link, LinkState.offer_full _ listening admits full]

end

end

