-- ==== Sys2Proof/Proofs/SentFrames.lean ====
section
/-! PROOF. The bytes of the frames that are sent (R166, R169, R174, R175, R179). -/

namespace Sys2Proof.Machine

/-! ### Bytes of fields (R179) -/

theorem encode_s16 (z : Int) : (Field.s16 z).encode =
    [BitVec.ofNat 8 ((z % 65536).toNat / 256), BitVec.ofNat 8 (z % 65536).toNat] := by
  have value : (BitVec.ofInt 16 z).toNat = (z % 65536).toNat := by simp [BitVec.toNat_ofInt]
  rw [Field.encode, value]
  rfl

theorem encodeFields_eq (fields : List Field) : encodeFields fields = fields.flatMap Field.encode := by
  rw [encodeFields, List.flatMap_def]

/-! ### Codes -/

theorem ResultCode.code_eq (c : ResultCode) : c.code = [ResultCode.ok, .busy, .denied, .malformed, .unknown, .state, .full,
    .inUse, .overlap, .range, .notReady, .stale, .incomplete, .badMask, .duplicate, .wrongPlaten, .stopped].idxOf c := by
  cases c <;> rfl

theorem Notice.index_eq_place (n : Notice) : n.index = (Reported.notice n).1 := by
  cases n <;> rfl

/-- R169: the reply bit set in a kind of one byte. -/
theorem replyKind_eq {kind : Nat} (byte : kind < 256) : kind ||| 0x80 = if kind < 0x80 then kind + 0x80 else kind := by
  have set_ {r : Nat} (low : r < 0x80) : r + 0x80 = r ||| 0x80 := by
    rw [Nat.add_comm, Nat.or_comm]
    exact Nat.two_pow_add_eq_or_of_lt (i := 7) low 1
  split
  next low => exact (set_ low).symm
  next high =>
    have low : kind - 0x80 < 0x80 := by omega
    have whole : kind = kind - 0x80 ||| 0x80 := by rw [← set_ low]; omega
    rw [whole, Nat.or_assoc, Nat.or_self]

theorem coded_shelfEvent (x : ShelfEvent) :
    Reported.coded [ShelfEvent.saved, .restored, .dropped, .exported, .imported] x = .u8 x.code := by
  cases x <;> rfl

theorem coded_outcome (x : GarmentOutcome) :
    Reported.coded [GarmentOutcome.good, .spoiled, .shelved, .cleared] x = .u8 x.code := by
  cases x <;> rfl

theorem coded_artState (x : ArtState) :
    Reported.coded [ArtState.free, .loading, .verifying, .ready, .bad] x = .u8 x.code := by
  cases x <;> rfl

/-- Chapter 11: a notice's contents are those its raising rule lists. -/
theorem Notice.fields_eq_reported (n : Notice) : n.fields = (Reported.notice n).2 := by
  cases n with
  | garmentHeld platen serial blank cls reason =>
    simp [Notice.fields, Reported.notice, coded_holdReason, blankFields, classField, Field.word]
  | orderState order status sequence => simp [Notice.fields, Reported.notice, coded_orderStatus, Field.word]
  | _ =>
    simp [Notice.fields, Reported.notice, mark_eq_flag, coded_lineStatus, coded_artState, coded_pretreatResult,
      coded_pressCause, coded_cureResult, coded_outcome, coded_disposition, coded_pressRecord, coded_printPhase,
      coded_jamCause, coded_lineState, coded_shelfEvent, Reported.components_eq, segment_eq_number, place_eq_fields,
      Field.word]

end Sys2Proof.Machine

section
open Sys2Proof Sys2Proof.Machine

/-- Settles O12: a field's bytes by its width; then replies and notices, their codes by the rules' lists. -/
theorem sentFramesHaveTheirBytes : Obligations.SentFramesHaveTheirBytes := by
  unfold Obligations.SentFramesHaveTheirBytes
  intro one two four encoded framed codes
  have field (x : Field) : x.encode = encoded x := by
    cases x with
    | u8 n => exact encode_u8 n
    | u16 n => exact encode_u16 n
    | u24 n => exact encode_u24 n
    | u32 n =>
      have top : n / 16777216 = n / 65536 / 256 := by omega
      rw [encode_u32, top]
      rfl
    | s16 z => exact encode_s16 z
    | bytes l => rfl
  have fields (l : List Field) : encodeFields l = l.flatMap encoded := by
    rw [encodeFields_eq, funext field]
  have frames (kind tag : Nat) (payload : List Byte) : frame kind tag payload = framed kind tag payload := rfl
  refine ⟨fields, fun tag kind a byte => ?_, fun n lost => ⟨n.notice.index_eq_place, ?_⟩⟩
  · rw [replyFrame, frames, replyKind_eq byte, fields, List.flatMap_cons, ResultCode.code_eq]
  · have time : encoded (.word n.time) = four n.time.toNat := rfl
    have flag : encoded (.flag lost) = one (if lost then 1 else 0) := by cases lost <;> rfl
    rw [noticeFrame, frames, fields, List.flatMap_cons, List.flatMap_cons, n.notice.index_eq_place,
      n.notice.fields_eq_reported, flag, time, ← List.append_assoc]

end

end

