-- ==== Sys2Proof/Proofs/ReceivedFrames.lean ====
section
/-! PROOF. A frame received (R165 to R168). -/

namespace Sys2Proof.Machine

/-! ### The check value of a frame (R166) -/

theorem crc16_snoc (bytes : List Byte) (b : Byte) :
    crc16 (bytes ++ [b]) = crc16Step^[8] (crc16 bytes ^^^ (b.setWidth 16 <<< 8)) := by
  rw [crc16, crc16, List.foldl_append]
  rfl

/-! ### A frame received (R165) -/

section Receive

variable {k : LinkState} {buffer bytes : List Byte} (l : Link)

theorem LinkState.receive_ignored (idle : ∀ b, k.receiver ≠ .receiving b) : k.receive l bytes = k := by
  unfold LinkState.receive
  split
  next b e => exact absurd e (idle b)
  · rfl

theorem parseHeader_short (short : bytes.length < 4) : parseHeader bytes = none := by
  unfold parseHeader
  split
  · simp at short
    omega
  · rfl

theorem LinkState.receive_short (r : k.receiver = .receiving buffer) (none_ : parseHeader (buffer ++ bytes) = none) :
    k.receive l bytes = { k with receiver := .receiving (buffer ++ bytes) } := by
  simp [LinkState.receive, r, none_]

variable {h : FrameHeader}

theorem LinkState.receive_oversize (r : k.receiver = .receiving buffer) (header : parseHeader (buffer ++ bytes) = some h)
    (long : 512 < h.length) :
    k.receive l bytes = { k with receiver := .hunting, discards := min 65535 (k.discards + 1) } := by
  simp [LinkState.receive, r, header, long, LinkState.discard, satAdd]

theorem LinkState.receive_partial (r : k.receiver = .receiving buffer) (header : parseHeader (buffer ++ bytes) = some h)
    (fits : h.length ≤ 512) (short : (buffer ++ bytes).length < h.length + 6) :
    k.receive l bytes = { k with receiver := .receiving (buffer ++ bytes) } := by
  simp only [LinkState.receive, r, header, Nat.not_lt.2 fits, if_false, short, if_true]

theorem LinkState.receive_complete (r : k.receiver = .receiving buffer) (header : parseHeader (buffer ++ bytes) = some h)
    (fits : h.length ≤ 512) (long : h.length + 6 ≤ (buffer ++ bytes).length) :
    k.receive l bytes =
      LinkState.receiveFrame l h ((buffer ++ bytes).take (h.length + 6)) { k with receiver := .hunting } := by
  simp only [LinkState.receive, r, header, Nat.not_lt.2 fits, if_false, Nat.not_lt.2 long]

end Receive

/-! ### A whole frame, byte by byte -/

/-- A frame's header and payload. -/
def frameFront (kind tag : Nat) (payload : List Byte) : List Byte :=
  bigEndian 1 kind ++ bigEndian 1 tag ++ bigEndian 2 payload.length ++ payload

section Frame

variable {kind tag : Nat} {payload check extra : List Byte}

theorem frameFront_eq : frameFront kind tag payload = BitVec.ofNat 8 kind :: BitVec.ofNat 8 tag ::
    BitVec.ofNat 8 (payload.length / 256) :: BitVec.ofNat 8 payload.length :: payload := rfl

theorem frameFront_length : (frameFront kind tag payload).length = 4 + payload.length := by
  rw [frameFront_eq]
  simp only [List.length_cons]
  omega

theorem frameFront_drop : (frameFront kind tag payload).drop 4 = payload := rfl

theorem parseHeader_frameFront (byte : kind < 256) (byte' : tag < 256) (fits : payload.length ≤ 512) (rest : List Byte) :
    parseHeader (frameFront kind tag payload ++ rest) = some ⟨kind, tag, payload.length⟩ := by
  have length : 256 * (payload.length / 256 % 256) + payload.length % 256 = payload.length := by omega
  simp only [frameFront_eq, List.cons_append, parseHeader, BitVec.toNat_ofNat]
  rw [show kind % 2 ^ 8 = kind from Nat.mod_eq_of_lt byte, show tag % 2 ^ 8 = tag from Nat.mod_eq_of_lt byte']
  exact congrArg (fun n => some (FrameHeader.mk kind tag n)) length

/-- A frame with two check bytes is judged by them. -/
theorem receiveFrame_front (l : Link) (k : LinkState) (two : check.length = 2) :
    LinkState.receiveFrame l ⟨kind, tag, payload.length⟩
        ((frameFront kind tag payload ++ check ++ extra).take (payload.length + 6)) k =
      if check = bigEndian 2 (crc16 (frameFront kind tag payload)).toNat then
        k.receiveRequest l ⟨kind, tag, payload.length⟩ payload
      else k.discard := by
  have length := frameFront_length (kind := kind) (tag := tag) (payload := payload)
  have whole : (frameFront kind tag payload ++ check ++ extra).take (payload.length + 6) =
      frameFront kind tag payload ++ check := by
    apply List.take_left'
    rw [List.length_append, length, two]
    omega
  have front : (frameFront kind tag payload ++ check).take (4 + payload.length) = frameFront kind tag payload :=
    List.take_left' length
  have rest : (frameFront kind tag payload ++ check).drop (4 + payload.length) = check := List.drop_left' length
  rw [LinkState.receiveFrame, whole, front, rest, frameFront_drop]

/-- R166: a frame that completes outside its oversize check. -/
theorem LinkState.receive_frame {k : LinkState} {buffer bytes : List Byte} (l : Link) (r : k.receiver = .receiving buffer)
    (byte : kind < 256) (byte' : tag < 256) (fits : payload.length ≤ 512) (two : check.length = 2)
    (all : buffer ++ bytes = frameFront kind tag payload ++ check ++ extra) :
    k.receive l bytes =
      if check = bigEndian 2 (crc16 (frameFront kind tag payload)).toNat then
        LinkState.receiveRequest l ⟨kind, tag, payload.length⟩ payload { k with receiver := .hunting }
      else LinkState.discard { k with receiver := .hunting } := by
  have header : parseHeader (buffer ++ bytes) = some ⟨kind, tag, payload.length⟩ := by
    rw [all, List.append_assoc]
    exact parseHeader_frameFront byte byte' fits _
  have long : payload.length + 6 ≤ (buffer ++ bytes).length := by
    rw [all, List.length_append, List.length_append, frameFront_length, two]
    omega
  rw [LinkState.receive_complete l r header fits long, all, receiveFrame_front l _ two]

end Frame

/-! ### A good request frame (R167) -/

section Request

variable {k : LinkState} (l : Link) (h : FrameHeader) (payload : List Byte)

theorem LinkState.receiveRequest_taken (taken : k.slot ≠ .free) :
    k.receiveRequest l h payload = k.refuseBusy h.tag h.kind := by
  unfold LinkState.receiveRequest
  split
  · rfl
  next free => exact absurd free taken

theorem LinkState.receiveRequest_unknown (free : k.slot = .free) (unknown : isRequestKind h.kind = false) :
    k.receiveRequest l h payload = k.answerAtOnce h.tag h.kind .malformed := by
  simp [LinkState.receiveRequest, free, unknown]

theorem LinkState.receiveRequest_denied (free : k.slot = .free) (known : isRequestKind h.kind = true)
    (denied : permitted l h.kind = false) : k.receiveRequest l h payload = k.answerAtOnce h.tag h.kind .denied := by
  simp [LinkState.receiveRequest, free, known, denied]

theorem LinkState.receiveRequest_malformed (free : k.slot = .free) (known : isRequestKind h.kind = true)
    (allowed : permitted l h.kind = true) (unread : parseRequest ⟨l, h.tag⟩ h.kind payload = none) :
    k.receiveRequest l h payload = k.answerAtOnce h.tag h.kind .malformed := by
  simp [LinkState.receiveRequest, free, known, allowed, unread]

theorem LinkState.receiveRequest_handed (free : k.slot = .free) (known : isRequestKind h.kind = true)
    (allowed : permitted l h.kind = true) {i : Instr} (read : parseRequest ⟨l, h.tag⟩ h.kind payload = some i) :
    k.receiveRequest l h payload = { k with slot := .inFlight h.tag h.kind (.handed i), silent := false } := by
  simp [LinkState.receiveRequest, free, known, allowed, read]

end Request

/-- FRAME_RECEIVED leaves its link as the receiver makes it, where that leaves the notices alone. -/
theorem frameReceived_leaves {s : State} {l : Link} {bytes : List Byte} {k : LinkState} (powered : s.resetLow = false)
    (made : (s.link l).receive l bytes = k) (queue : k.queue = (s.link l).queue) (number : k.number = (s.link l).number)
    (lost : k.lost = (s.link l).lost) :
    ∃ t, exec (.frameReceived l bytes) s = .next t ∧ s.keeps t [.settings] ∧
      (∀ m, m ≠ l → (t.link m).alike (s.link m)) ∧ (t.link l).alike k := by
  obtain ⟨others, own⟩ := s.putLink_settle_alike l k
  exact ⟨_, made ▸ event_onLink rfl powered, s.putLink_keeps_settings l k queue number lost, others, own⟩

end Sys2Proof.Machine

section
open Sys2Proof Sys2Proof.Machine

/-- Settles O8: the check value byte by byte; then each way a frame can end is what the receiver makes of its link. -/
theorem receivedFrameIsJudged : Obligations.ReceivedFrameIsJudged := by
  refine ⟨⟨rfl, crc16_snoc, by decide +kernel⟩, fun l buffer bytes s powered => ?_⟩
  intro k all leaves discarded replied
  have leaves_of {k' : LinkState} (made : k.receive l bytes = k') (queue : k'.queue = k.queue)
      (number : k'.number = k.number) (lost : k'.lost = k.lost) : leaves k' :=
    frameReceived_leaves powered made queue number lost
  refine ⟨fun idle => leaves_of (k.receive_ignored l idle) rfl rfl rfl,
    fun r short => leaves_of (k.receive_short l r (parseHeader_short short)) rfl rfl rfl,
    fun r h header => ⟨fun long => leaves_of (k.receive_oversize l r header long) rfl rfl rfl,
      fun fits short => leaves_of (k.receive_partial l r header fits short) rfl rfl rfl⟩,
    fun r kind tag payload extra byte byte' fits => ?_⟩
  intro front
  have judged {check : List Byte} (two : check.length = 2) (e : all = front ++ check ++ extra) :=
    k.receive_frame l r byte byte' fits two e
  refine ⟨fun check two wrong e => ?_, fun e => ?_⟩
  · exact leaves_of ((judged two e).trans (if_neg wrong)) rfl rfl rfl
  have good := (judged rfl e).trans (if_pos rfl)
  let opened : LinkState := { k with receiver := .hunting }
  have ends {k' : LinkState} (made : opened.receiveRequest l ⟨kind, tag, payload.length⟩ payload = k')
      (queue : k'.queue = k.queue) (number : k'.number = k.number) (lost : k'.lost = k.lost) : leaves k' :=
    leaves_of (good.trans made) queue number lost
  refine ⟨fun taken none_ => ?_, fun taken pending => ?_, fun free unknown => ?_, fun free low high => ?_⟩
  · have first := LinkState.refuseBusy_first (k := opened) tag kind none_
    exact ends ((opened.receiveRequest_taken l _ _ taken).trans first) rfl rfl rfl
  · have further := LinkState.refuseBusy_pending (k := opened) tag kind pending
    exact ends ((opened.receiveRequest_taken l _ _ taken).trans further) rfl rfl rfl
  · exact ends (opened.receiveRequest_unknown l _ _ free (by simp [isRequestKind]; omega)) rfl rfl rfl
  have known : isRequestKind kind = true := by simp [isRequestKind, low, high]
  refine ⟨fun denied => ?_, fun allowed => ⟨fun unread => ?_, fun i read => ?_⟩⟩
  · exact ends (opened.receiveRequest_denied l _ _ free known denied) rfl rfl rfl
  · exact ends (opened.receiveRequest_malformed l _ _ free known allowed unread) rfl rfl rfl
  · exact ends (opened.receiveRequest_handed l _ _ free known allowed read) rfl rfl rfl

end

end

