-- ==== Sys2Proof/Proofs/Layouts.lean ====
section
/-! PROOF. A reader of fields gives exactly the values that fit, from their bytes as R179 lays them out (log 13). -/

namespace Sys2Proof.Machine

/-! ### Bytes as R179 lays them out -/

/-- The bytes begin as laid out, and the rest follows. -/
def Spelled (laid : List Laid) (l rest : List Byte) : Prop :=
  ∃ front, List.Forall₂ Laid.holds laid front ∧ l = front ++ rest

section Spelling

variable {a b : List Laid} {l m rest : List Byte}

theorem spelled_nil : Spelled [] l rest ↔ l = rest := by
  simp [Spelled]

theorem spelled_cons {x : Laid} : Spelled (x :: a) l rest ↔ ∃ b m, x.holds b ∧ l = b :: m ∧ Spelled a m rest := by
  simp only [Spelled, List.forall₂_cons_left_iff]
  constructor
  · rintro ⟨_, ⟨b, front, holds, each, rfl⟩, rfl⟩
    exact ⟨b, _, holds, rfl, front, each, rfl⟩
  · rintro ⟨b, _, holds, rfl, front, each, rfl⟩
    exact ⟨_, ⟨b, front, holds, each, rfl⟩, rfl⟩

theorem spelled_append : Spelled (a ++ b) l rest ↔ ∃ m, Spelled a l m ∧ Spelled b m rest := by
  induction a generalizing l with
  | nil => simp [spelled_nil]
  | cons x a ih =>
    simp only [List.cons_append, spelled_cons, ih]
    constructor
    · rintro ⟨c, n, holds, e, m, first, second⟩
      exact ⟨m, ⟨c, n, holds, e, first⟩, second⟩
    · rintro ⟨m, ⟨c, n, holds, e, first⟩, second⟩
      exact ⟨c, n, holds, e, m, first, second⟩

theorem spelled_exactly {c : Byte} : Spelled [.exactly c] l rest ↔ l = c :: rest := by
  simp [spelled_cons, spelled_nil, Laid.holds]

theorem spelled_one {n : Nat} : Spelled (Laid.one n) l rest ↔ l = (Field.u8 n).encode ++ rest := spelled_exactly

theorem spelled_two {n : Nat} : Spelled (Laid.two n) l rest ↔ l = (Field.u16 n).encode ++ rest := by
  simp [Laid.two, spelled_append, spelled_one, encode_u8, encode_u16]

theorem spelled_four {n : Nat} : Spelled (Laid.four n) l rest ↔ l = (Field.u32 n).encode ++ rest := by
  simp [Laid.four, spelled_append, spelled_two, encode_u16, encode_u32, Nat.div_div_eq_div_mul]

/-- What does not depend on where a field ends comes before it. -/
theorem exists_spelled_and {q : List Byte → Prop} {c : Prop} :
    (∃ m, Spelled a l m ∧ c ∧ q m) ↔ c ∧ ∃ m, Spelled a l m ∧ q m := by
  simp only [and_left_comm, exists_and_left]

end Spelling

/-- A reader gives exactly the values that fit, from their bytes as laid out. -/
def Reads {α : Type} (p : Parse α) (fits : α → Prop) (laid : α → List Laid) : Prop :=
  ∀ l rest x, p l = some (x, rest) ↔ fits x ∧ Spelled (laid x) l rest

/-! ### Readers of a request's fields, each with the bytes it reads -/

section Readers

variable {l rest : List Byte}

theorem u8_spelled {n : Nat} : Parse.u8 l = some (n, rest) ↔ n < 256 ∧ Spelled (Laid.one n) l rest := by
  rw [Parse.u8_eq_some, spelled_one]

theorem u16_spelled {n : Nat} : Parse.u16 l = some (n, rest) ↔ n < 65536 ∧ Spelled (Laid.two n) l rest := by
  rw [Parse.u16_eq_some, spelled_two]

theorem u32_spelled {n : Nat} : Parse.u32 l = some (n, rest) ↔ n < 4294967296 ∧ Spelled (Laid.four n) l rest := by
  rw [Parse.u32_eq_some, spelled_four]

theorem word_spelled {w : Word} : Parse.word l = some (w, rest) ↔ Spelled (Laid.four w.toNat) l rest := by
  rw [Parse.word_eq_some, spelled_four, Field.word]

theorem byte_spelled {b : Byte} : Parse.byte l = some (b, rest) ↔ Spelled [.exactly b] l rest := by
  rw [Parse.byte, Parse.bind_eq_some, spelled_exactly]
  cases l with
  | nil => simp [Parse.u8]
  | cons c r => simp [Parse.u8, Parse.pure_eq_some, and_comm]

theorem flag_spelled {b : Bool} : Parse.flag l = some (b, rest) ↔ Spelled (Laid.flag b) l rest := by
  simp only [Parse.flag, Parse.bind_eq_some, u8_spelled, Laid.flag]
  constructor
  · rintro ⟨n, m, ⟨low, spelled⟩, read⟩
    split at read
    · obtain ⟨rfl, rfl⟩ := Parse.pure_eq_some.1 read
      exact spelled
    · obtain ⟨rfl, rfl⟩ := Parse.pure_eq_some.1 read
      exact spelled
    · exact (Parse.failure_eq_some.1 read).elim
  · intro spelled
    cases b with
    | false => exact ⟨0, rest, ⟨by decide, spelled⟩, Parse.pure_eq_some.2 ⟨rfl, rfl⟩⟩
    | true => exact ⟨1, rest, ⟨by decide, spelled⟩, Parse.pure_eq_some.2 ⟨rfl, rfl⟩⟩

theorem s16_spelled {z : Int} : Parse.s16 l = some (z, rest) ↔
    (-32768 ≤ z ∧ z < 32768) ∧ Spelled (Laid.signed z) l rest := by
  simp only [Parse.s16, Parse.bind_eq_some, Parse.pure_eq_some, u16_spelled, Laid.signed]
  constructor
  · rintro ⟨n, m, ⟨low, spelled⟩, rfl, rfl⟩
    refine ⟨by omega, ?_⟩
    convert spelled using 2
    omega
  · rintro ⟨fits, spelled⟩
    exact ⟨_, rest, ⟨by omega, spelled⟩, by omega, rfl⟩

/-! ### Runs, lists and optional fields -/

theorem many_spelled {α : Type} {p : Parse α} {fits : α → Prop} {laid : α → List Laid} (each : Reads p fits laid) {n : Nat}
    {xs : List α} : Parse.many p n l = some (xs, rest) ↔
      xs.length = n ∧ (∀ x ∈ xs, fits x) ∧ Spelled (xs.map laid).flatten l rest := by
  induction n generalizing l rest xs with
  | zero =>
    simp only [Parse.many, Parse.pure_eq_some, List.length_eq_zero_iff]
    constructor
    · rintro ⟨rfl, rfl⟩
      exact ⟨rfl, by simp, spelled_nil.2 rfl⟩
    · rintro ⟨rfl, -, spelled⟩
      exact ⟨rfl, spelled_nil.1 spelled⟩
  | succ n ih =>
    simp only [Parse.many, Parse.bind_eq_some, Parse.pure_eq_some, each _ _ _, ih]
    constructor
    · rintro ⟨x, m, ⟨fits, spelled⟩, xs, _, ⟨size, fit, further⟩, rfl, rfl⟩
      exact ⟨by simp [size], by simpa [fits] using fit, spelled_append.2 ⟨m, spelled, further⟩⟩
    · rintro ⟨size, fit, spelled⟩
      cases xs with
      | nil => simp at size
      | cons x xs =>
        obtain ⟨m, first, further⟩ := spelled_append.1 spelled
        exact ⟨x, m, ⟨fit x (by simp), first⟩, xs, rest, ⟨by simpa using size, fun y at_ => fit y (by simp [at_]), further⟩,
          rfl, rfl⟩

theorem list_spelled {α : Type} {p : Parse α} {fits : α → Prop} {laid : α → List Laid} (each : Reads p fits laid)
    {xs : List α} : Parse.list p l = some (xs, rest) ↔
      (xs.length < 256 ∧ ∀ x ∈ xs, fits x) ∧ Spelled (Laid.list (xs.map laid)) l rest := by
  simp only [Parse.list, Parse.bind_eq_some, u8_spelled, many_spelled each, Laid.list, spelled_append, List.length_map]
  constructor
  · rintro ⟨_, m, ⟨few, count⟩, rfl, fit, items⟩
    exact ⟨⟨few, fit⟩, m, count, items⟩
  · rintro ⟨⟨few, fit⟩, m, count, items⟩
    exact ⟨_, m, ⟨few, count⟩, rfl, fit, items⟩

theorem run_spelled {bytes : List Byte} : Parse.run l = some (bytes, rest) ↔
    bytes.length < 65536 ∧ Spelled (Laid.run bytes) l rest := by
  have each : Reads Parse.byte (fun _ => True) fun b => [.exactly b] := fun _ _ _ => byte_spelled.trans (true_and _).symm.to_iff
  have flat : (bytes.map fun b => [Laid.exactly b]).flatten = bytes.map Laid.exactly := by
    rw [← List.flatMap_def, ← List.map_eq_flatMap]
  simp only [Parse.run, Parse.bind_eq_some, u16_spelled, many_spelled each, Laid.run, spelled_append, flat]
  constructor
  · rintro ⟨_, m, ⟨few, count⟩, rfl, -, items⟩
    exact ⟨few, m, count, items⟩
  · rintro ⟨few, m, count, items⟩
    exact ⟨_, m, ⟨few, count⟩, rfl, fun _ _ => trivial, items⟩

theorem spelled_spare {n : Nat} : Spelled (List.replicate n .spare) l rest ↔ ∃ bs, bs.length = n ∧ l = bs ++ rest := by
  have any (bs : List Byte) : List.Forall₂ Laid.holds (List.replicate n .spare) bs ↔ bs.length = n := by
    rw [List.forall₂_iff_get]
    simp [Laid.holds, eq_comm]
  simp only [Spelled, any]

/-- An optional field: the bytes of an absent one are not looked at (log 13). -/
theorem opt_spelled {α : Type} {p : Parse α} {fits : α → Prop} {laid : α → List Laid} (each : Reads p fits laid) {size : Nat}
    {x : Option α} : Parse.opt p size l = some (x, rest) ↔
      (∀ y, x = some y → fits y) ∧ Spelled (Laid.opt size (x.map laid)) l rest := by
  simp only [Parse.opt, Parse.bind_eq_some, flag_spelled, Bool.exists_bool, Bool.false_eq_true, if_true, if_false,
    Parse.pure_eq_some, each _ _ _, Parse.many_u8_eq_some, Laid.flag]
  cases x with
  | none => simp [Laid.opt, spelled_append, spelled_spare]
  | some y => simp [Laid.opt, spelled_append, and_left_comm]

end Readers

end Sys2Proof.Machine

end

