-- ==== Sys2Proof/Proofs/LaidRecords.lean ====
section
/-! PROOF. The records of fields a request carries, read from their bytes (R28, R35, R79, R138, R179; log 13). -/

namespace Sys2Proof.Machine

/-! ### Readers of records of fields -/

section Records

variable {l rest : List Byte}

theorem blank_spelled {b : BlankCode} :
    Parse.blank l = some (b, rest) ↔ BlankCode.wf b = true ∧ Spelled (Laid.blank b) l rest := by
  obtain ⟨style, colour, size⟩ := b
  simp only [Parse.blank, Parse.bind_eq_some, Parse.pure_eq_some, u8_spelled, u16_spelled, BlankCode.mk.injEq]
  simp [BlankCode.wf, Laid.blank, spelled_append, and_assoc, exists_spelled_and]

theorem ink_spelled {i : Ink} : Parse.ink l = some (i, rest) ↔
    Ink.wf i = true ∧ Spelled (Laid.one i.c ++ Laid.one i.m ++ Laid.one i.y ++ Laid.one i.k ++ Laid.one i.a) l rest := by
  obtain ⟨c, m, y, k, a⟩ := i
  simp only [Parse.ink, Parse.bind_eq_some, Parse.pure_eq_some, u8_spelled, Ink.mk.injEq]
  simp [Ink.wf, spelled_append, and_assoc, exists_spelled_and]

theorem cmyk_spelled {i : Cmyk} : Parse.cmyk l = some (i, rest) ↔ Cmyk.wf i = true ∧ Spelled (Laid.cmyk i) l rest := by
  obtain ⟨c, m, y, k⟩ := i
  simp only [Parse.cmyk, Parse.bind_eq_some, Parse.pure_eq_some, u8_spelled, Cmyk.mk.injEq]
  simp [Cmyk.wf, Laid.cmyk, spelled_append, and_assoc, exists_spelled_and]

theorem colours_spelled {x : Cmyk × Cmyk} : Parse.colours l = some (x, rest) ↔
    (Cmyk.wf x.1 = true ∧ Cmyk.wf x.2 = true) ∧ Spelled (Laid.cmyk x.1 ++ Laid.cmyk x.2) l rest := by
  obtain ⟨a, b⟩ := x
  simp only [Parse.colours, Parse.bind_eq_some, Parse.pure_eq_some, cmyk_spelled, Prod.mk.injEq]
  simp [spelled_append, and_assoc, exists_spelled_and]

/-- R138: a band of the rate table. -/
def laidBand (b : RateBand) : List Laid := Laid.signed b.threshold ++ Laid.one b.rate

theorem rateBand_spelled {b : RateBand} :
    Parse.rateBand l = some (b, rest) ↔ RateBand.wf b = true ∧ Spelled (laidBand b) l rest := by
  obtain ⟨threshold, rate⟩ := b
  simp only [Parse.rateBand, Parse.bind_eq_some, Parse.pure_eq_some, u8_spelled, s16_spelled, RateBand.mk.injEq]
  simp [RateBand.wf, laidBand, spelled_append, and_assoc, exists_spelled_and]

theorem overlay_spelled {o : PostOverlay} : Parse.overlay l = some (o, rest) ↔
    PostOverlay.wf o = true ∧ Spelled (Laid.one o.index ++ Laid.signed o.vx ++ Laid.signed o.vy) l rest := by
  obtain ⟨index, vx, vy⟩ := o
  simp only [Parse.overlay, Parse.bind_eq_some, Parse.pure_eq_some, u8_spelled, s16_spelled, PostOverlay.mk.injEq]
  simp [PostOverlay.wf, spelled_append, and_assoc, exists_spelled_and]

theorem recipe_spelled {r : Recipe} :
    Parse.recipe l = some (r, rest) ↔ Recipe.wf r = true ∧ Spelled (Laid.recipe r) l rest := by
  obtain ⟨dark, pretreat, dose, covMin, period, duty, tolerance, dwell, inkLimit, underbase, knockout, choke, cureBase,
    whiteStep, scorchLimit, scorchAllowance⟩ := r
  simp only [Parse.recipe, Parse.bind_eq_some, Parse.pure_eq_some, u8_spelled, u16_spelled, s16_spelled, flag_spelled,
    Recipe.mk.injEq]
  simp only [existsAndEq]
  simp only [Recipe.wf, Laid.recipe, spelled_append, List.append_assoc, Bool.and_eq_true, decide_eq_true_eq, and_assoc,
    and_true, exists_and_left, exists_spelled_and]

theorem postLine_wf {x : PostLine} : PostLine.wf x = true ↔ BlankCode.wf x.blank = true ∧ x.quantity < 65536 ∧
    x.art < 256 ∧ x.col0 < 65536 ∧ x.row0 < 65536 ∧ x.width < 65536 ∧ x.height < 65536 ∧ x.ox < 65536 ∧ x.oy < 65536 ∧
    ∀ o, x.overlay = some o → PostOverlay.wf o = true := by
  obtain ⟨blank, quantity, art, col0, row0, width, height, ox, oy, overlay⟩ := x
  cases overlay with
  | none => simp [PostLine.wf, and_assoc]
  | some o => simp [PostLine.wf, and_assoc]

theorem postLine_spelled {x : PostLine} :
    Parse.postLine l = some (x, rest) ↔ PostLine.wf x = true ∧ Spelled (Laid.postLine x) l rest := by
  rw [postLine_wf]
  obtain ⟨blank, quantity, art, col0, row0, width, height, ox, oy, overlay⟩ := x
  simp only [Parse.postLine, Parse.bind_eq_some, Parse.pure_eq_some, u8_spelled, u16_spelled, blank_spelled,
    opt_spelled fun _ _ _ => overlay_spelled, PostLine.mk.injEq]
  simp only [existsAndEq]
  simp only [Laid.postLine, spelled_append, List.append_assoc, and_assoc, and_true, exists_and_left, exists_spelled_and]

theorem rateTable_spelled {t : Vector RateBand 8} : Parse.rateTable l = some (t, rest) ↔ t.toList.all RateBand.wf = true ∧
    Spelled (t.toList.flatMap fun b => Laid.signed b.threshold ++ Laid.one b.rate) l rest := by
  change _ ↔ _ ∧ Spelled (t.toList.flatMap laidBand) l rest
  obtain ⟨⟨bands⟩, size⟩ := t
  match bands, size with
  | [a, b, c, d, e, f, g, h], _ =>
    simp only [Parse.rateTable, Parse.bind_eq_some, Parse.pure_eq_some, rateBand_spelled, Vector.mk.injEq, Array.mk.injEq,
      List.cons.injEq]
    simp only [existsAndEq]
    simp only [Vector.toList_mk, List.all_cons, List.all_nil, List.flatMap_cons, List.flatMap_nil, List.append_nil,
      spelled_append, Bool.and_eq_true, and_assoc, and_true, exists_and_left, exists_spelled_and]

/-! ### Places -/

/-- R179: X0 to X5 as 0 to 5, E0 to E5 as 6 to 11. -/
def segmentCode : Segment → Nat
  | .exit n => n.val
  | .entry n => 6 + n.val

theorem segment_spelled {g : Segment} : Parse.segment l = some (g, rest) ↔ Spelled (Laid.one (segmentCode g)) l rest := by
  simp only [Parse.segment, Parse.bind_eq_some, u8_spelled]
  constructor
  · rintro ⟨n, m, ⟨-, spelled⟩, read⟩
    split at read
    · obtain ⟨rfl, rfl⟩ := Parse.pure_eq_some.1 read
      exact spelled
    next high =>
      split at read
      · obtain ⟨rfl, rfl⟩ := Parse.pure_eq_some.1 read
        rwa [segmentCode, Nat.add_sub_cancel' (Nat.not_lt.1 high)]
      · exact (Parse.failure_eq_some.1 read).elim
  · intro spelled
    refine ⟨segmentCode g, rest, ⟨?_, spelled⟩, ?_⟩
    · cases g <;> simp only [segmentCode] <;> omega
    cases g with
    | exit n =>
      rw [dif_pos (show segmentCode (.exit n) < 6 from n.isLt)]
      exact Parse.pure_eq_some.2 ⟨rfl, rfl⟩
    | entry n =>
      have high : ¬segmentCode (.entry n) < 6 := by simp [segmentCode]
      have same : segmentCode (.entry n) - 6 = n.val := by simp [segmentCode]
      rw [dif_neg high, dif_pos (same ▸ n.isLt)]
      exact Parse.pure_eq_some.2 ⟨by simp [same], rfl⟩

theorem laid_moving (g : Segment) : Laid.place (.moving g) = Laid.one 2 ++ Laid.one (segmentCode g) := by
  cases g <;> rfl

theorem laid_uncertain (g : Segment) : Laid.place (.uncertain g) = Laid.one 3 ++ Laid.one (segmentCode g) := by
  cases g <;> rfl

theorem lane_spelled {n : Nat} : (∃ b, Parse.u8 l = some (b, rest) ∧ b / 16 = n) ↔ n < 16 ∧ Spelled [.lane n] l rest := by
  cases l with
  | nil => simp [Parse.u8, spelled_cons]
  | cons c r =>
    simp only [Parse.u8, Option.some.injEq, Prod.mk.injEq, spelled_cons, spelled_nil, Laid.holds, List.cons.injEq]
    have byte := c.isLt
    constructor
    · rintro ⟨_, ⟨rfl, rfl⟩, rfl⟩
      exact ⟨by omega, c, r, rfl, ⟨rfl, rfl⟩, rfl⟩
    · rintro ⟨-, _, _, lane, ⟨rfl, rfl⟩, rfl⟩
      exact ⟨_, ⟨rfl, rfl⟩, lane⟩

theorem spare_spelled : (∃ b, Parse.u8 l = some (b, rest)) ↔ Spelled [.spare] l rest := by
  cases l with
  | nil => simp [Parse.u8, spelled_cons]
  | cons c r => simp [Parse.u8, spelled_cons, spelled_nil, Laid.holds]

theorem place_spelled {p : PlaceArg} :
    Parse.place l = some (p, rest) ↔ PlaceArg.wf p = true ∧ Spelled (Laid.place p) l rest := by
  simp only [Parse.place, Parse.bind_eq_some, u8_spelled]
  constructor
  · rintro ⟨kind, m, ⟨-, spelled⟩, read⟩
    split at read
    all_goals simp only [Parse.bind_eq_some, Parse.pure_eq_some, Parse.failure_eq_some, segment_spelled] at read
    · obtain ⟨n, _, second, rfl, rfl⟩ := read
      obtain ⟨fits, second⟩ := u8_spelled.1 second
      exact ⟨decide_eq_true fits, spelled_append.2 ⟨m, spelled, second⟩⟩
    · obtain ⟨n, _, second, rfl, rfl⟩ := read
      obtain ⟨fits, second⟩ := lane_spelled.1 ⟨n, second, rfl⟩
      exact ⟨decide_eq_true fits, spelled_append.2 ⟨m, spelled, second⟩⟩
    · obtain ⟨g, _, second, rfl, rfl⟩ := read
      exact ⟨rfl, laid_moving g ▸ spelled_append.2 ⟨m, spelled, second⟩⟩
    · obtain ⟨g, _, second, rfl, rfl⟩ := read
      exact ⟨rfl, laid_uncertain g ▸ spelled_append.2 ⟨m, spelled, second⟩⟩
    · obtain ⟨n, _, second, rfl, rfl⟩ := read
      exact ⟨rfl, spelled_append.2 ⟨m, spelled, spare_spelled.1 ⟨n, second⟩⟩⟩
    · obtain ⟨n, _, second, rfl, rfl⟩ := read
      exact ⟨rfl, spelled_append.2 ⟨m, spelled, spare_spelled.1 ⟨n, second⟩⟩⟩
  · rintro ⟨wf, spelled⟩
    cases p with
    | station n =>
      obtain ⟨m, first, second⟩ := spelled_append.1 spelled
      exact ⟨0, m, ⟨by decide, first⟩, Parse.bind_eq_some.2 ⟨n, rest, u8_spelled.2 ⟨of_decide_eq_true wf, second⟩,
        Parse.pure_eq_some.2 ⟨rfl, rfl⟩⟩⟩
    | lane n =>
      obtain ⟨m, first, second⟩ := spelled_append.1 spelled
      obtain ⟨b, read, lane⟩ := lane_spelled.2 ⟨of_decide_eq_true wf, second⟩
      exact ⟨1, m, ⟨by decide, first⟩, Parse.bind_eq_some.2 ⟨b, rest, read, Parse.pure_eq_some.2 ⟨congrArg _ lane, rfl⟩⟩⟩
    | moving g =>
      obtain ⟨m, first, second⟩ := spelled_append.1 (laid_moving g ▸ spelled)
      exact ⟨2, m, ⟨by decide, first⟩, Parse.bind_eq_some.2 ⟨g, rest, segment_spelled.2 second,
        Parse.pure_eq_some.2 ⟨rfl, rfl⟩⟩⟩
    | uncertain g =>
      obtain ⟨m, first, second⟩ := spelled_append.1 (laid_uncertain g ▸ spelled)
      exact ⟨3, m, ⟨by decide, first⟩, Parse.bind_eq_some.2 ⟨g, rest, segment_spelled.2 second,
        Parse.pure_eq_some.2 ⟨rfl, rfl⟩⟩⟩
    | service =>
      obtain ⟨m, first, second⟩ := spelled_append.1 spelled
      obtain ⟨b, read⟩ := spare_spelled.2 second
      exact ⟨4, m, ⟨by decide, first⟩, Parse.bind_eq_some.2 ⟨b, rest, read, Parse.pure_eq_some.2 ⟨rfl, rfl⟩⟩⟩
    | unseen =>
      obtain ⟨m, first, second⟩ := spelled_append.1 spelled
      obtain ⟨b, read⟩ := spare_spelled.2 second
      exact ⟨5, m, ⟨by decide, first⟩, Parse.bind_eq_some.2 ⟨b, rest, read, Parse.pure_eq_some.2 ⟨rfl, rfl⟩⟩⟩

/-! ### Rows of overlay codes (R79, log 13) -/

theorem code_bits (x : OverlayCode) : Parse.code (OverlayCode.bits x) = x := by
  cases x <;> rfl

theorem code_mod (n : Nat) : Parse.code (n % 4) = Parse.code n := by
  simp [Parse.code]

theorem bits_code (n : Nat) : OverlayCode.bits (Parse.code n) = n % 4 := by
  have low : n % 4 < 4 := Nat.mod_lt _ (by decide)
  rw [← code_mod]
  generalize n % 4 = k at low ⊢
  interval_cases k <;> rfl

theorem bits_lt (x : OverlayCode) : OverlayCode.bits x < 4 := by
  cases x <;> decide

/-- Four codes as one number, the first in the highest two bits. -/
def packedCodes (r : Vector OverlayCode 64) (j : Fin 16) : Nat :=
  64 * OverlayCode.bits r[4 * j.val] + 16 * OverlayCode.bits r[4 * j.val + 1] + 4 * OverlayCode.bits r[4 * j.val + 2] +
    OverlayCode.bits r[4 * j.val + 3]

theorem laid_overlayRow (r : Vector OverlayCode 64) :
    Laid.overlayRow r = (((List.finRange 16).map (packedCodes r)).map Laid.one).flatten := by
  rw [List.map_map, ← List.flatMap_def]
  rfl

/-- The row that sixteen bytes hold. -/
def unpackedCodes (bytes : List Nat) : Vector OverlayCode 64 :=
  Vector.ofFn fun i : Fin 64 => Parse.code (bytes.getD (i.val / 4) 0 / 4 ^ (3 - i.val % 4))

theorem unpackedCodes_at (bytes : List Nat) {i j k : Nat} (part : k < 4) (at_ : i = 4 * j + k) (inside : i < 64) :
    (unpackedCodes bytes)[i] = Parse.code (bytes.getD j 0 / 4 ^ (3 - k)) := by
  have byte : i / 4 = j := by omega
  have place : i % 4 = k := by omega
  simp [unpackedCodes, byte, place]

theorem packed_unpacked {bytes : List Nat} (size : bytes.length = 16) (low : ∀ b ∈ bytes, b < 256) :
    (List.finRange 16).map (packedCodes (unpackedCodes bytes)) = bytes := by
  apply List.ext_getElem
  · simp [size]
  intro j high high'
  have byte := low _ (bytes.getElem_mem high')
  have given : bytes.getD j 0 = bytes[j] := by simp [List.getD_eq_getElem?_getD, high']
  rw [List.getElem_map, List.getElem_finRange, packedCodes]
  simp only [Fin.val_cast, unpackedCodes_at bytes (i := 4 * j) (j := j) (k := 0) (by decide) rfl,
    unpackedCodes_at bytes (k := 1) (by decide) rfl, unpackedCodes_at bytes (k := 2) (by decide) rfl,
    unpackedCodes_at bytes (k := 3) (by decide) rfl, bits_code, given, Nat.reduceSub, Nat.reducePow]
  omega

/-- A code stands at its place in its byte. -/
theorem packedCodes_part (r : Vector OverlayCode 64) (j : Fin 16) {k : Nat} (part : k < 4) :
    packedCodes r j / 4 ^ (3 - k) % 4 = OverlayCode.bits r[4 * j.val + k] := by
  have a := bits_lt r[4 * j.val]
  have b := bits_lt r[4 * j.val + 1]
  have c := bits_lt r[4 * j.val + 2]
  have d := bits_lt r[4 * j.val + 3]
  interval_cases k
  all_goals
    simp only [packedCodes, Nat.reduceSub, Nat.reducePow, Nat.add_zero]
    omega

theorem unpacked_packed (r : Vector OverlayCode 64) : unpackedCodes ((List.finRange 16).map (packedCodes r)) = r := by
  ext i high
  have row : i / 4 < 16 := by omega
  have part : i % 4 < 4 := Nat.mod_lt _ (by decide)
  have place : 4 * (i / 4) + i % 4 = i := Nat.div_add_mod i 4
  have given : ((List.finRange 16).map (packedCodes r)).getD (i / 4) 0 = packedCodes r ⟨i / 4, row⟩ := by
    simp [List.getD_eq_getElem?_getD, row]
  rw [unpackedCodes_at _ part place.symm high, given, ← code_mod, packedCodes_part r ⟨i / 4, row⟩ part, code_bits]
  simp only [place]

theorem overlayRow_spelled {r : Vector OverlayCode 64} :
    Parse.overlayRow l = some (r, rest) ↔ Spelled (Laid.overlayRow r) l rest := by
  rw [laid_overlayRow]
  simp only [Parse.overlayRow, Parse.bind_eq_some, Parse.pure_eq_some, many_spelled fun _ _ _ => u8_spelled]
  constructor
  · rintro ⟨bytes, m, ⟨size, low, spelled⟩, unpacked, rfl⟩
    obtain rfl : unpackedCodes bytes = r := unpacked
    rwa [packed_unpacked size low]
  · intro spelled
    refine ⟨_, rest, ⟨by simp, fun b packed => ?_, spelled⟩, unpacked_packed r, rfl⟩
    obtain ⟨j, -, rfl⟩ := List.mem_map.1 packed
    rw [packedCodes]
    have a := bits_lt r[4 * j.val]
    have b := bits_lt r[4 * j.val + 1]
    have c := bits_lt r[4 * j.val + 2]
    have d := bits_lt r[4 * j.val + 3]
    omega

end Records

end Sys2Proof.Machine

end

