-- ==== Sys2Proof/Proofs/RequestPayloads.lean ====
section
/-! PROOF. Each request's payload read from its bytes (R179). -/

namespace Sys2Proof.Machine

/-! ### Requests, each read from its bytes -/

section Requests

variable {l rest : List Byte} {i : Instr} {v : Via} {kind : Nat}

/-- The requests of the order book. -/
theorem bookRequest_spelled (request : Instr.asRequest i = some (v, kind)) (tag : Via.wf v = true) (group : kind ≤ 0x0B) :
    requestPayload v kind l = some (i, rest) ↔ i.wf = true ∧ Spelled (Instr.laid i) l rest := by
  cases i
  all_goals cases request
  case orderPost | lineAmend | orderHold | orderRelease | orderCancel | orderRetire | catalogueSet | catalogueRemove |
      catalogueGet | classSet | classGet =>
    simp only [requestPayload, Parse.bind_eq_some, Parse.pure_eq_some, u8_spelled, u16_spelled, word_spelled, blank_spelled,
      recipe_spelled, list_spelled fun _ _ _ => postLine_spelled, Instr.orderPost.injEq, Instr.lineAmend.injEq,
      Instr.orderHold.injEq, Instr.orderRelease.injEq, Instr.orderCancel.injEq, Instr.orderRetire.injEq,
      Instr.catalogueSet.injEq, Instr.catalogueRemove.injEq, Instr.catalogueGet.injEq, Instr.classSet.injEq,
      Instr.classGet.injEq]
    simp only [existsAndEq]
    simp only [Instr.wf, tag, Instr.laid, spelled_append, List.append_assoc, List.all_eq_true, Bool.and_eq_true,
      decide_eq_true_eq, and_assoc, and_true, true_and, exists_and_left, exists_spelled_and]
  all_goals exact absurd group (by decide)

theorem word_reads : Reads Parse.word (fun _ => True) fun w => Laid.four w.toNat := fun _ _ _ => by
  rw [word_spelled, true_and]

theorem overlayRow_reads : Reads Parse.overlayRow (fun _ => True) Laid.overlayRow := fun _ _ _ => by
  rw [overlayRow_spelled, true_and]

/-- The requests of the art memory, the rate table and the shelf. -/
theorem artRequest_spelled (request : Instr.asRequest i = some (v, kind)) (tag : Via.wf v = true)
    (group : 0x0C ≤ kind ∧ kind ≤ 0x1B) :
    requestPayload v kind l = some (i, rest) ↔ i.wf = true ∧ Spelled (Instr.laid i) l rest := by
  cases i
  all_goals cases request
  case rateTableGet =>
    simp only [requestPayload, Parse.pure_eq_some, Instr.wf, tag, Instr.laid, spelled_nil]
  case overlaySet overlay colours first rows =>
    simp only [requestPayload, Parse.bind_eq_some, Parse.pure_eq_some, u8_spelled, opt_spelled fun _ _ _ => colours_spelled,
      list_spelled overlayRow_reads, Instr.overlaySet.injEq]
    simp only [existsAndEq]
    cases colours with
    | none => simp [Instr.wf, tag, Instr.laid, spelled_append, and_assoc, exists_spelled_and]
    | some c => simp [Instr.wf, tag, Instr.laid, spelled_append, and_assoc, and_left_comm, exists_spelled_and]
  case artOpen | artWrite | artSeal | artFree | paletteSet | paletteGet | overlayGet | rateTableSet |
      shelfPermitSet | shelfExport | shelfImport | shelfDrop | shelve | unshelve =>
    simp only [requestPayload, Parse.bind_eq_some, Parse.pure_eq_some, u8_spelled, u16_spelled, u32_spelled, word_spelled,
      run_spelled, opt_spelled word_reads, list_spelled fun _ _ _ => ink_spelled,
      rateTable_spelled, Instr.artOpen.injEq, Instr.artWrite.injEq,
      Instr.artSeal.injEq, Instr.artFree.injEq, Instr.paletteSet.injEq, Instr.paletteGet.injEq,
      Instr.overlayGet.injEq, Instr.rateTableSet.injEq, Instr.shelfPermitSet.injEq, Instr.shelfExport.injEq,
      Instr.shelfImport.injEq, Instr.shelfDrop.injEq, Instr.shelve.injEq, Instr.unshelve.injEq]
    simp only [existsAndEq]
    simp only [Instr.wf, tag, Instr.laid, spelled_append, List.append_assoc, List.all_eq_true, Bool.and_eq_true,
      decide_eq_true_eq, and_assoc, and_true, true_and, implies_true, exists_and_left, exists_spelled_and]
  all_goals exact absurd group (by decide)

theorem noticeMaskSet_spelled {mask : Half} : requestPayload v 0x1F l = some (.noticeMaskSet v mask, rest) ↔
    Spelled (Laid.two mask.toNat) l rest := by
  simp only [requestPayload, Parse.bind_eq_some, Parse.pure_eq_some, u16_spelled, Instr.noticeMaskSet.injEq]
  constructor
  · rintro ⟨n, _, ⟨low, spelled⟩, ⟨-, rfl⟩, rfl⟩
    rwa [BitVec.toNat_ofNat, Nat.mod_eq_of_lt low]
  · exact fun spelled => ⟨mask.toNat, rest, ⟨mask.isLt, spelled⟩, ⟨trivial, by simp⟩, rfl⟩

theorem printEnd_spelled : requestPayload v 0x2F l = some (i, rest) ↔
    (i = .printEndOk v ∧ Spelled (Laid.one 0) l rest) ∨ (i = .printEndAbort v ∧ Spelled (Laid.one 1) l rest) := by
  simp only [requestPayload, Parse.bind_eq_some, u8_spelled]
  constructor
  · rintro ⟨result, m, ⟨-, spelled⟩, read⟩
    split at read
    · obtain ⟨rfl, rfl⟩ := Parse.pure_eq_some.1 read
      exact .inl ⟨rfl, spelled⟩
    · obtain ⟨rfl, rfl⟩ := Parse.pure_eq_some.1 read
      exact .inr ⟨rfl, spelled⟩
    · exact (Parse.failure_eq_some.1 read).elim
  · rintro (⟨rfl, spelled⟩ | ⟨rfl, spelled⟩)
    · exact ⟨0, rest, ⟨by decide, spelled⟩, Parse.pure_eq_some.2 ⟨rfl, rfl⟩⟩
    · exact ⟨1, rest, ⟨by decide, spelled⟩, Parse.pure_eq_some.2 ⟨rfl, rfl⟩⟩

/-- The requests of the settings, the track, the garments, the print session and curing. -/
theorem lineRequest_spelled (request : Instr.asRequest i = some (v, kind)) (tag : Via.wf v = true) (high : 0x1C ≤ kind) :
    requestPayload v kind l = some (i, rest) ↔ i.wf = true ∧ Spelled (Instr.laid i) l rest := by
  cases i
  all_goals cases request
  case lineReset | powerFlagClear | lineResume =>
    simp only [requestPayload, Parse.pure_eq_some, Instr.wf, tag, Instr.laid, spelled_nil]
  case printEndOk =>
    rw [printEnd_spelled]
    simp [Instr.wf, tag, Instr.laid]
  case printEndAbort =>
    rw [printEnd_spelled]
    simp [Instr.wf, tag, Instr.laid]
  case noticeMaskSet =>
    rw [noticeMaskSet_spelled]
    simp [Instr.wf, tag, Instr.laid]
  case indicatorSet | read | garmentLoad | garmentAssign | loadClear | unloadGood | unloadSpoil |
      platenDeclare | jamConfirm | stationHold | stationRelease | serviceOut | serviceIn | swathPull | swathRelease |
      cureSample =>
    simp only [requestPayload, Parse.bind_eq_some, Parse.pure_eq_some, u8_spelled, u32_spelled, word_spelled,
      byte_spelled, s16_spelled, blank_spelled, place_spelled, Instr.indicatorSet.injEq, Instr.read.injEq,
      Instr.garmentLoad.injEq, Instr.garmentAssign.injEq, Instr.loadClear.injEq, Instr.unloadGood.injEq,
      Instr.unloadSpoil.injEq, Instr.platenDeclare.injEq, Instr.jamConfirm.injEq, Instr.stationHold.injEq,
      Instr.stationRelease.injEq, Instr.serviceOut.injEq, Instr.serviceIn.injEq, Instr.swathPull.injEq,
      Instr.swathRelease.injEq, Instr.cureSample.injEq]
    simp only [existsAndEq]
    simp only [Instr.wf, tag, Instr.laid, spelled_append, List.append_assoc, Bool.and_eq_true,
      decide_eq_true_eq, and_assoc, and_true, true_and, exists_and_left, exists_spelled_and]
  all_goals exact absurd high (by decide)

theorem requestPayload_spelled (request : Instr.asRequest i = some (v, kind)) (tag : Via.wf v = true) :
    requestPayload v kind l = some (i, rest) ↔ i.wf = true ∧ Spelled (Instr.laid i) l rest := by
  by_cases low : kind ≤ 0x0B
  · exact bookRequest_spelled request tag low
  by_cases middle : kind ≤ 0x1B
  · exact artRequest_spelled request tag ⟨Nat.not_le.1 low, middle⟩
  · exact lineRequest_spelled request tag (Nat.not_le.1 middle)

theorem spelled_whole {laid : List Laid} : Spelled laid l [] ↔ List.Forall₂ Laid.holds laid l := by
  simp [Spelled]

theorem parseRequest_eq_some {payload : List Byte} :
    parseRequest v kind payload = some i ↔ requestPayload v kind payload = some (i, []) := by
  unfold parseRequest Parse.whole
  split
  next x read => simp [read]
  next none_ => exact ⟨nofun, fun read => absurd read (none_ i)⟩

end Requests

end Sys2Proof.Machine

section
open Sys2Proof Sys2Proof.Machine

/-- Settles O9: each reader gives exactly the values that fit, from their bytes, and so does each kind's, put together
from them. -/
theorem requestPayloadsAreRead : Obligations.RequestPayloadsAreRead := by
  refine ⟨fun i v kind => asRequest_kind, fun v kind payload i tag => ?_⟩
  have spelled (request : Instr.asRequest i = some (v, kind)) :
      parseRequest v kind payload = some i ↔ i.wf = true ∧ List.Forall₂ Laid.holds (Instr.laid i) payload := by
    rw [parseRequest_eq_some, requestPayload_spelled request (decide_eq_true tag), spelled_whole]
  exact ⟨fun read => ⟨asRequest_of_parse read, (spelled (asRequest_of_parse read)).1 read⟩,
    fun ⟨request, reads⟩ => (spelled request).2 reads⟩

end

end

