-- ==== Sys2Proof/Proofs/Refusals.lean ====
section
/-! PROOF. What each request's block gives back, and a request refused ("Refusals" of 00_scope.md, R169). -/

namespace Sys2Proof.Machine

/-! ### Refusals ("Refusals" of 00_scope.md) -/

/-- A handler refuses and changes nothing, accepts, or leaves the request at work. -/
inductive Clean (s : State) : Taken → Prop
  | refused (c : ResultCode) : Clean s (s.refuse c)
  | accepted (t : State) (body : List Field) : Clean s (t.accept body)
  | begun (t : State) : Clean s (t, none)

section Clean

variable {s : State}

theorem clean_refuse (c : ResultCode) : Clean s (s.refuse c) ↔ True := iff_true_intro (.refused c)

theorem clean_accept (t : State) (body : List Field) : Clean s (t.accept body) ↔ True := iff_true_intro (.accepted t body)

theorem clean_begun (t : State) : Clean s (t, none) ↔ True := iff_true_intro (.begun t)

theorem State.readRecord_clean (kind key option : Nat) : Clean s (s.readRecord kind key option) := by
  unfold State.readRecord State.readPlaten State.readGarment State.readOrder State.readLine State.readArt State.readShelf
  repeat' split
  all_goals simp only [clean_refuse, clean_accept]

theorem handlerOf_clean (i : Instr) : Clean s (handlerOf i s) := by
  cases i
  case orderPost | lineAmend | orderHold | orderRelease | orderCancel | orderRetire | catalogueSet | catalogueRemove |
      catalogueGet | classSet | classGet =>
    simp only [handlerOf, State.orderPost, State.lineAmend, State.orderHold, State.orderRelease, State.orderCancel,
      State.orderRetire, State.catalogueSet, State.catalogueRemove, State.catalogueGet, State.classSet, State.classGet]
    repeat' split
    all_goals simp only [clean_refuse, clean_accept]
  case artOpen | artWrite | artSeal | artFree | paletteSet | paletteGet | overlaySet | overlayGet | rateTableSet |
      rateTableGet | shelfPermitSet | shelfExport | shelfImport | shelfDrop | shelve | unshelve =>
    simp only [handlerOf, State.artOpen, State.artWrite, State.artSeal, State.artFree, State.paletteSet, State.paletteGet,
      State.overlaySet, State.overlayGet, State.rateTableSet, State.rateTableGet, State.shelfPermitSet, State.shelfExport,
      State.shelfImport, State.shelfDrop, State.shelve, State.unshelve]
    repeat' split
    all_goals simp only [clean_refuse, clean_accept, clean_begun]
  case powerFlagClear | indicatorSet | noticeMaskSet | garmentLoad | garmentAssign | loadClear | unloadGood | unloadSpoil =>
    simp only [handlerOf, State.clearPowerFlag, State.assignIndicator, State.setNoticeMask, State.garmentLoad,
      State.garmentAssign, State.loadClear, State.unloadGood, State.unloadSpoil]
    repeat' split
    all_goals simp only [clean_refuse, clean_accept]
  case platenDeclare | jamConfirm | lineResume | stationHold | stationRelease | serviceOut | serviceIn =>
    simp only [handlerOf, State.platenDeclare, State.endDeclare, State.jamConfirm, State.lineResume, State.stationHold,
      State.stationRelease, State.serviceOut, State.serviceIn]
    repeat' split
    all_goals simp only [clean_refuse, clean_accept]
  case swathPull | swathRelease | printEndOk | printEndAbort | cureSample =>
    simp only [handlerOf, State.swathPull, State.swathRelease, State.printEndOk, State.printEndAbort, State.cureSample,
      State.sampleGarment]
    repeat' split
    all_goals simp only [clean_refuse, clean_accept, clean_begun]
  case read kind key option => exact s.readRecord_clean kind key option
  all_goals exact .begun _

end Clean

/-! ### Slots -/

/-- READ apart, which reports them, and LINE_RESET, which answers a cut pull, no request's block is told of slots. -/
theorem handlerOf_slotless {i : Instr} {v : Via} {kind : Nat} (request : Instr.asRequest i = some (v, kind))
    (read : kind ≠ 0x20) (reset : kind ≠ 0x1C) : Slotless (handlerOf i) := by
  cases i
  all_goals cases request
  case orderPost number priority lines => exact orderPost_slotless number priority lines
  case lineAmend number position quantity => exact lineAmend_slotless number position quantity
  case orderHold number => exact orderHold_slotless number
  case orderRelease number => exact orderRelease_slotless number
  case orderCancel number => exact orderCancel_slotless number
  case orderRetire number => exact orderRetire_slotless number
  case catalogueSet blank cls => exact catalogueSet_slotless blank cls
  case catalogueRemove blank => exact catalogueRemove_slotless blank
  case catalogueGet blank => exact catalogueGet_slotless blank
  case classSet cls r => exact classSet_slotless cls r
  case classGet cls => exact classGet_slotless cls
  case artOpen => exact fun s l x mode => State.artOpen_slotted s l x mode ..
  case artWrite => exact fun s l x mode => State.artWrite_slotted s l x mode ..
  case artSeal handle crc => exact artSeal_slotless handle crc
  case artFree handle => exact artFree_slotless handle
  case paletteSet palette first entries => exact paletteSet_slotless palette first entries
  case paletteGet palette first count => exact paletteGet_slotless palette first count
  case overlaySet => exact fun s l x mode => State.overlaySet_slotted s l x mode ..
  case overlayGet overlay first count => exact overlayGet_slotless overlay first count
  case rateTableSet bands => exact rateTableSet_slotless bands
  case rateTableGet => exact rateTableGet_slotless
  case shelfPermitSet mask => exact shelfPermitSet_slotless mask
  case shelfExport slot form => exact shelfExport_slotless slot form
  case shelfImport record => exact shelfImport_slotless record
  case shelfDrop slot => exact shelfDrop_slotless slot
  case shelve platen => exact shelve_slotless platen
  case unshelve slot platen mask => exact unshelve_slotless slot platen mask
  case powerFlagClear => exact clearPowerFlag_slotless
  case indicatorSet => exact fun s l x mode => State.assignIndicator_slotted s l x mode ..
  case noticeMaskSet mask => exact fun s l x mode => State.setNoticeMask_slotted s l x mode ..
  case garmentLoad platen blank => exact garmentLoad_slotless platen blank
  case garmentAssign => exact fun s l x mode => State.garmentAssign_slotted s l x mode ..
  case loadClear platen => exact loadClear_slotless platen
  case unloadGood platen => exact unloadGood_slotless platen
  case unloadSpoil platen => exact unloadSpoil_slotless platen
  case platenDeclare platen place => exact platenDeclare_slotless platen place
  case jamConfirm platen place => exact jamConfirm_slotless platen place
  case lineResume => exact fun s l x mode => State.lineResume_slotted s l x mode
  case stationHold => exact fun s l x mode => State.stationHold_slotted s l x mode ..
  case stationRelease => exact fun s l x mode => State.stationRelease_slotted s l x mode ..
  case serviceOut => exact fun s l x mode => State.serviceOut_slotted s l x mode ..
  case serviceIn => exact fun s l x mode => State.serviceIn_slotted s l x mode ..
  case swathPull => exact fun s l x mode => State.swathPull_slotted s l x mode ..
  case swathRelease sequence => exact swathRelease_slotless sequence
  case printEndOk => exact fun s l x mode => State.printEndOk_slotted s l x mode
  case printEndAbort => exact fun s l x mode => State.printEndAbort_slotted s l x mode
  case cureSample platen temperature => exact cureSample_slotless platen temperature
  case lineReset => exact absurd rfl reset
  case read => exact absurd rfl read

/-- A request taken up keeps its slot while its block works on it. -/
theorem handlerOf_works {i : Instr} {v : Via} {kind : Nat} {s : State} (request : Instr.asRequest i = some (v, kind))
    (ready : Ready s v kind) (inv : RequestInv s) :
    ((handlerOf i (s.taken v kind)).1.link v.link).slot = .inFlight v.tag kind .working := by
  have taken : ((s.taken v kind).link v.link).slot = .inFlight v.tag kind .working := by
    rw [State.taken_eq_slotted, State.slotted_link_self]
  by_cases reset : kind = 0x1C
  · subst reset
    cases i
    all_goals cases request
    exact State.lineResetTaken_slot inv ready
  by_cases read : kind = 0x20
  · subst read
    cases i
    all_goals cases request
    rw [handlerOf, State.readRecord_fst, taken]
  rw [(handlerOf_slotless request read reset).link_slot, taken]

/-- An answer to a request at work is its reply or none. -/
theorem LinkState.complete_reply {k : LinkState} {a b : Answer} {tag kind tag' kind' : Nat}
    (works : k.slot = .inFlight tag' kind' .working) (replies : (k.complete a).slot = .inFlight tag kind (.ready b)) :
    b = a := by
  unfold LinkState.complete at replies
  rw [works] at replies
  dsimp only at replies
  split at replies <;> simp_all

end Sys2Proof.Machine

section
open Sys2Proof.Machine

/-- Settles O7: a block that does not accept has refused, or goes on working and gives no reply yet. -/
theorem refusedRequestsChangeNothing : Obligations.RefusedRequestsChangeNothing := by
  rintro i v kind s t code body request ready inv ⟨outcome, replied, -⟩ failed
  have works := handlerOf_works request ready inv
  have taking : exec i s = .next ((s.taken v kind).handle v.link (handlerOf i)).settle :=
    (exec_eq_request request s).trans (request_ready v kind i (handlerOf i) s ready)
  obtain rfl := Host.Outcome.next.inj (taking.symm.trans outcome)
  rw [State.settle_link, LinkState.kick_slot] at replied
  have clean := handlerOf_clean (s := s.taken v kind) i
  generalize e : handlerOf i (s.taken v kind) = given at clean works
  cases clean with
  | refused c =>
    rw [State.handle_refused e, State.taken_eq_slotted, State.answer_slotted] at replied ⊢
    rw [State.slotted_link_self] at replied
    cases replied
    exact ⟨rfl, s.keeps_slotted_settle v.link _ false⟩
  | accepted u fields =>
    have done : (s.taken v kind).handle v.link (handlerOf i) = u.answer v.link ⟨.ok, fields⟩ := by
      rw [State.handle, e]
      rfl
    rw [done, State.answer, State.putLink_link_self] at replied
    cases LinkState.complete_reply works replied
    exact absurd rfl failed
  | begun u =>
    rw [State.handle_begun e, works] at replied
    cases replied

end

end

