-- ==== Sys2Proof/Proofs/Beside.lean ====
section
/-! PROOF. Two states that differ in their links alone, through the operations that requests share. -/

namespace Sys2Proof.Machine

/-! ### Two states that differ in their links alone -/

/-- `t` is `s` but for its links, and each link stands in a relation to that of `s` which every notice offered to both
keeps. -/
structure Beside (R : Link → LinkState → LinkState → Prop) (s t : State) : Prop where
  hears : ∀ l k j, R l k j → ∀ time n, R l (k.offer time n) (j.offer time n)
  rest : t = s.setLinks t.links
  link : ∀ l, R l (s.link l) (t.link l)

/-- The same of two results, with what else they give the same. -/
structure BesideWith {α : Type} (R : Link → LinkState → LinkState → Prop) (x y : State × α) : Prop where
  state : Beside R x.1 y.1
  value : y.2 = x.2

theorem BesideWith.cases {α : Type} {R : Link → LinkState → LinkState → Prop} {x y : State × α} (h : BesideWith R x y) :
    ∃ u w a, x = (u, a) ∧ y = (w, a) ∧ Beside R u w :=
  ⟨x.1, y.1, x.2, rfl, Prod.ext rfl h.value, h.state⟩

namespace Beside

section Basics

variable {R : Link → LinkState → LinkState → Prop} {s t : State}

/-- What does not look at the links. -/
theorem read {α : Type} (h : Beside R s t) {f : State → α} (blind : ∀ (u : State) L, f (u.setLinks L) = f u) : f t = f s := by
  rw [h.rest, blind]

/-- What neither looks at the links nor changes them. -/
theorem change (h : Beside R s t) {u w : State} (rest : w = u.setLinks t.links) (kept : u.links = s.links)
    (kept' : w.links = t.links) : Beside R u w := by
  refine ⟨h.hears, by rwa [kept'], fun l => ?_⟩
  simp only [State.link, kept, kept']
  exact h.link l

theorem raise (h : Beside R s t) (n : Notice) : Beside R (s.raise n) (t.raise n) := by
  have time : t.clock = s.clock := h.read fun _ _ => rfl
  refine ⟨h.hears, ?_, fun l => ?_⟩
  · conv_lhs => rw [State.raise, h.rest]
    rw [State.raise, State.raise, time]
    rfl
  · rw [State.raise_link, State.raise_link, time]
    exact h.hears _ _ _ (h.link l) _ _

theorem raiseAll (h : Beside R s t) (ns : List Notice) : Beside R (s.raiseAll ns) (t.raiseAll ns) := by
  induction ns generalizing s t with
  | nil => exact h
  | cons n ns ih => exact ih (h.raise n)

theorem ite {c : Prop} [Decidable c] {a a' b b' : State} : Beside R (if c then a else b) (if c then a' else b') ↔
    if c then Beside R a a' else Beside R b b' := by
  split <;> rfl

theorem ite_with {α : Type} {c : Prop} [Decidable c] {a a' b b' : State × α} :
    BesideWith R (if c then a else b) (if c then a' else b') ↔ if c then BesideWith R a a' else BesideWith R b b' := by
  split <;> rfl

theorem ite_option {c : Prop} [Decidable c] {a a' b b' : Option State} :
    Option.Rel (Beside R) (if c then a else b) (if c then a' else b') ↔
      if c then Option.Rel (Beside R) a a' else Option.Rel (Beside R) b b' := by
  split <;> rfl

theorem refuse (h : Beside R s t) (c : ResultCode) : BesideWith R (s.refuse c) (t.refuse c) := ⟨h, rfl⟩

theorem accept (h : Beside R s t) (body : List Field) : BesideWith R (s.accept body) (t.accept body) := ⟨h, rfl⟩

/-! ### What the blocks' parts and their common readings show -/

theorem powerFlag (h : Beside R s t) : t.powerFlag = s.powerFlag := h.read fun _ _ => rfl
theorem clock (h : Beside R s t) : t.clock = s.clock := h.read fun _ _ => rfl
theorem inputs (h : Beside R s t) : t.inputs = s.inputs := h.read fun _ _ => rfl
theorem track (h : Beside R s t) : t.track = s.track := h.read fun _ _ => rfl
theorem book (h : Beside R s t) : t.book = s.book := h.read fun _ _ => rfl
theorem units (h : Beside R s t) : t.units = s.units := h.read fun _ _ => rfl
theorem store (h : Beside R s t) : t.store = s.store := h.read fun _ _ => rfl
theorem arbiter (h : Beside R s t) : t.arbiter = s.arbiter := h.read fun _ _ => rfl
theorem mem (h : Beside R s t) : t.mem = s.mem := h.read fun _ _ => rfl
theorem engine (h : Beside R s t) : t.engine = s.engine := h.read fun _ _ => rfl
theorem spray (h : Beside R s t) : t.spray = s.spray := h.read fun _ _ => rfl
theorem press (h : Beside R s t) : t.press = s.press := h.read fun _ _ => rfl
theorem ring (h : Beside R s t) : t.ring = s.ring := h.read fun _ _ => rfl
theorem cure (h : Beside R s t) : t.cure = s.cure := h.read fun _ _ => rfl
theorem shelf (h : Beside R s t) : t.shelf = s.shelf := h.read fun _ _ => rfl
theorem lineReset (h : Beside R s t) : t.lineReset = s.lineReset := h.read fun _ _ => rfl
theorem indicators (h : Beside R s t) : t.indicators = s.indicators := h.read fun _ _ => rfl

theorem garment (h : Beside R s t) : t.garment = s.garment := h.read fun _ _ => rfl
theorem isEmpty (h : Beside R s t) : t.isEmpty = s.isEmpty := h.read fun _ _ => rfl
theorem place (h : Beside R s t) : t.place = s.place := h.read fun _ _ => rfl
theorem station (h : Beside R s t) : t.station = s.station := h.read fun _ _ => rfl
theorem lane (h : Beside R s t) : t.lane = s.lane := h.read fun _ _ => rfl
theorem seg (h : Beside R s t) : t.seg = s.seg := h.read fun _ _ => rfl
theorem lanePosition (h : Beside R s t) : t.lanePosition = s.lanePosition := h.read fun _ _ => rfl
theorem garmentAt (h : Beside R s t) : t.garmentAt = s.garmentAt := h.read fun _ _ => rfl
theorem present (h : Beside R s t) : t.present = s.present := h.read fun _ _ => rfl
theorem art (h : Beside R s t) : t.art = s.art := h.read fun _ _ => rfl
theorem extent (h : Beside R s t) : t.extent = s.extent := h.read fun _ _ => rfl
theorem shelfSlot (h : Beside R s t) : t.shelfSlot = s.shelfSlot := h.read fun _ _ => rfl
theorem freeShelf (h : Beside R s t) : t.freeShelf = s.freeShelf := h.read fun _ _ => rfl
theorem freshSerial (h : Beside R s t) : t.freshSerial = s.freshSerial := h.read fun _ _ => rfl
theorem candidates (h : Beside R s t) : t.candidates = s.candidates := h.read fun _ _ => rfl
theorem isCandidate (h : Beside R s t) : t.isCandidate = s.isCandidate := h.read fun _ _ => rfl
theorem sessionGarment (h : Beside R s t) : t.sessionGarment = s.sessionGarment := h.read fun _ _ => rfl
theorem pullable (h : Beside R s t) : t.pullable = s.pullable := h.read fun _ _ => rfl
theorem lineStateNotice (h : Beside R s t) : t.lineStateNotice = s.lineStateNotice := h.read fun _ _ => rfl
theorem settledPretreat (h : Beside R s t) : t.settledPretreat = s.settledPretreat := h.read fun _ _ => rfl
theorem loadReply (h : Beside R s t) : t.loadReply = s.loadReply := h.read fun _ _ => rfl
theorem assignable (h : Beside R s t) : t.assignable = s.assignable := h.read fun _ _ => rfl
theorem unloadable (h : Beside R s t) : t.unloadable = s.unloadable := h.read fun _ _ => rfl
theorem freeArt (h : Beside R s t) : t.freeArt = s.freeArt := h.read fun _ _ => rfl
theorem artOverlaps (h : Beside R s t) : t.artOverlaps = s.artOverlaps := h.read fun _ _ => rfl
theorem artReady (h : Beside R s t) : t.artReady = s.artReady := h.read fun _ _ => rfl
theorem paletteInUse (h : Beside R s t) : t.paletteInUse = s.paletteInUse := h.read fun _ _ => rfl
theorem namedLine (h : Beside R s t) : t.namedLine = s.namedLine := h.read fun _ _ => rfl
theorem exportOrphan (h : Beside R s t) : t.exportOrphan = s.exportOrphan := h.read fun _ _ => rfl
theorem restoredPretreat (h : Beside R s t) : t.restoredPretreat = s.restoredPretreat := h.read fun _ _ => rfl
theorem restoredGarment (h : Beside R s t) : t.restoredGarment = s.restoredGarment := h.read fun _ _ => rfl
theorem sprayed (h : Beside R s t) : t.sprayed = s.sprayed := h.read fun _ _ => rfl
theorem pressed (h : Beside R s t) : t.pressed = s.pressed := h.read fun _ _ => rfl
theorem cancelledNotice (h : Beside R s t) : t.cancelledNotice = s.cancelledNotice := h.read fun _ _ => rfl

theorem confirmSeen (h : Beside R s t) (c : Confirmed) : t.confirmSeen c = s.confirmSeen c := by
  cases c with
  | station n => exact congrFun h.present n
  | lane n => rfl

theorem postPlacements (h : Beside R s t) (ls : List PostLine) : t.postPlacements ls = s.postPlacements ls := by
  induction ls with
  | nil => rfl
  | cons l ls ih =>
    have here : t.postPlacement = s.postPlacement := h.read fun _ _ => rfl
    simp only [State.postPlacements, here, ih]

/-! ### What the setters leave beside one another -/

theorem setInputs (h : Beside R s t) (x : Inputs) : Beside R (s.setInputs x) (t.setInputs x) :=
  h.change (congrArg (·.setInputs x) h.rest) rfl rfl
theorem setTrack (h : Beside R s t) (x : Track) : Beside R (s.setTrack x) (t.setTrack x) :=
  h.change (congrArg (·.setTrack x) h.rest) rfl rfl
theorem setBook (h : Beside R s t) (x : Book) : Beside R (s.setBook x) (t.setBook x) :=
  h.change (congrArg (·.setBook x) h.rest) rfl rfl
theorem setUnits (h : Beside R s t) (x : Match) : Beside R (s.setUnits x) (t.setUnits x) :=
  h.change (congrArg (·.setUnits x) h.rest) rfl rfl
theorem setStore (h : Beside R s t) (x : Store) : Beside R (s.setStore x) (t.setStore x) :=
  h.change (congrArg (·.setStore x) h.rest) rfl rfl
theorem setArbiter (h : Beside R s t) (x : Arbiter) : Beside R (s.setArbiter x) (t.setArbiter x) :=
  h.change (congrArg (·.setArbiter x) h.rest) rfl rfl
theorem setMem (h : Beside R s t) (x : Memory) : Beside R (s.setMem x) (t.setMem x) :=
  h.change (congrArg (·.setMem x) h.rest) rfl rfl
theorem setEngine (h : Beside R s t) (x : Engine) : Beside R (s.setEngine x) (t.setEngine x) :=
  h.change (congrArg (·.setEngine x) h.rest) rfl rfl
theorem setSpray (h : Beside R s t) (x : Spray) : Beside R (s.setSpray x) (t.setSpray x) :=
  h.change (congrArg (·.setSpray x) h.rest) rfl rfl
theorem setPress (h : Beside R s t) (x : Press) : Beside R (s.setPress x) (t.setPress x) :=
  h.change (congrArg (·.setPress x) h.rest) rfl rfl
theorem setRing (h : Beside R s t) (x : Ring) : Beside R (s.setRing x) (t.setRing x) :=
  h.change (congrArg (·.setRing x) h.rest) rfl rfl
theorem setCure (h : Beside R s t) (x : Cure) : Beside R (s.setCure x) (t.setCure x) :=
  h.change (congrArg (·.setCure x) h.rest) rfl rfl
theorem setShelf (h : Beside R s t) (x : Shelf) : Beside R (s.setShelf x) (t.setShelf x) :=
  h.change (congrArg (·.setShelf x) h.rest) rfl rfl
theorem setLineReset (h : Beside R s t) (x : Option Link) : Beside R (s.setLineReset x) (t.setLineReset x) :=
  h.change (congrArg (·.setLineReset x) h.rest) rfl rfl
theorem setIndicators (h : Beside R s t) (x : Vector Indicator 6) : Beside R (s.setIndicators x) (t.setIndicators x) :=
  h.change (congrArg (·.setIndicators x) h.rest) rfl rfl
theorem setPowerFlag (h : Beside R s t) (x : Bool) : Beside R (s.setPowerFlag x) (t.setPowerFlag x) :=
  h.change (congrArg (·.setPowerFlag x) h.rest) rfl rfl
theorem putGarment (h : Beside R s t) (p : Fin 16) (g : Option Garment) : Beside R (s.putGarment p g) (t.putGarment p g) :=
  h.change (congrArg (·.putGarment p g) h.rest) rfl rfl
theorem putPlace (h : Beside R s t) (p : Fin 16) (x : Place) : Beside R (s.putPlace p x) (t.putPlace p x) :=
  h.change (congrArg (·.putPlace p x) h.rest) rfl rfl
theorem putStation (h : Beside R s t) (n : Fin 6) (x : Station) : Beside R (s.putStation n x) (t.putStation n x) :=
  h.change (congrArg (·.putStation n x) h.rest) rfl rfl
theorem putLane (h : Beside R s t) (n : Fin 6) (x : List (Fin 16)) : Beside R (s.putLane n x) (t.putLane n x) :=
  h.change (congrArg (·.putLane n x) h.rest) rfl rfl
theorem putSeg (h : Beside R s t) (g : Segment) (x : SegState) : Beside R (s.putSeg g x) (t.putSeg g x) := by
  cases g with
  | exit n => exact h.change (congrArg (·.putSeg (.exit n) x) h.rest) rfl rfl
  | entry n => exact h.change (congrArg (·.putSeg (.entry n) x) h.rest) rfl rfl
theorem putArt (h : Beside R s t) (x : Fin 64) (d : Option Art) : Beside R (s.putArt x d) (t.putArt x d) :=
  h.change (congrArg (·.putArt x d) h.rest) rfl rfl
theorem putShelf (h : Beside R s t) (i : Fin 8) (x : Option ShelfSlot) : Beside R (s.putShelf i x) (t.putShelf i x) :=
  h.change (congrArg (·.putShelf i x) h.rest) rfl rfl
theorem putChannel (h : Beside R s t) (z : Fin 8) (c : Channel) : Beside R (s.putChannel z c) (t.putChannel z c) :=
  h.change (congrArg (·.putChannel z c) h.rest) rfl rfl
theorem takeSerial (h : Beside R s t) : Beside R s.takeSerial t.takeSerial :=
  h.change (congrArg State.takeSerial h.rest) rfl rfl
theorem markOrphans (h : Beside R s t) (n : Word) : Beside R (s.markOrphans n) (t.markOrphans n) :=
  h.change (congrArg (·.markOrphans n) h.rest) rfl rfl
theorem joinLane (h : Beside R s t) (n : Fin 6) (p : Fin 16) : Beside R (s.joinLane n p) (t.joinLane n p) :=
  h.change (congrArg (·.joinLane n p) h.rest) rfl rfl
theorem jamSeg (h : Beside R s t) (g : Segment) (p : Fin 16) (c : JamCause) : Beside R (s.jamSeg g p c) (t.jamSeg g p c) :=
  (h.putSeg g _).putPlace p _

/-! ### Lines and orders (R33 to R45) -/

theorem deriveOrder (h : Beside R s t) (n : Word) : Beside R (s.deriveOrder n) (t.deriveOrder n) := by
  simp only [State.deriveOrder, h.book]
  split
  · exact h
  · simp only [ite]
    split
    · exact h
    · exact (h.setBook _).raise _

theorem changeLine (h : Beside R s t) (i : Fin 512) (l : Line) : Beside R (s.changeLine i l) (t.changeLine i l) := by
  simp only [State.changeLine, h.book]
  exact ((h.setBook _).raise _).deriveOrder _

theorem reserve (h : Beside R s t) (i : Fin 512) : Option.Rel (Beside R) (s.reserve i) (t.reserve i) := by
  simp only [State.reserve, h.book]
  cases s.book.lines[i] with
  | none => exact .none
  | some l =>
    dsimp only
    split
    · exact .none
    · simp only [ite_option]
      split
      · exact .some (h.changeLine i _)
      · exact .none

theorem count (h : Beside R s t) (c : Counter) (i : Fin 512) : BesideWith R (s.count c i) (t.count c i) := by
  simp only [State.count, h.book]
  cases s.book.lines[i] with
  | none => exact ⟨h, rfl⟩
  | some l =>
    have counted := h.changeLine i (l.count c)
    exact ⟨counted, by dsimp only; rw [counted.book]⟩

theorem countBinding (h : Beside R s t) (c : Counter) (g : Garment) :
    BesideWith R (s.countBinding c g) (t.countBinding c g) := by
  unfold State.countBinding
  split
  · exact ⟨h, rfl⟩
  · exact h.count c _

theorem setOrder (h : Beside R s t) (o : Order) (x : OrderStatus) : Beside R (s.setOrder o x) (t.setOrder o x) := by
  simp only [State.setOrder, h.book]
  exact (h.setBook _).raise _

theorem cancelOrder (h : Beside R s t) (o : Order) : Beside R (s.cancelOrder o) (t.cancelOrder o) := by
  simp only [State.cancelOrder, h.book]
  exact ((h.setBook _).markOrphans _).raiseAll _

theorem retireOrder (h : Beside R s t) (o : Order) : Beside R (s.retireOrder o) (t.retireOrder o) := by
  simp only [State.retireOrder, h.book]
  exact (h.setBook _).raise _

theorem postOrder (h : Beside R s t) (n : Word) (priority : Nat) (ls : List (PostLine × Placement)) :
    BesideWith R (s.postOrder n priority ls) (t.postOrder n priority ls) := by
  simp only [State.postOrder, h.book]
  exact ⟨(h.setBook _).raise _, rfl⟩

/-! ### Match (R51 to R55, R105) -/

theorem appendJob (h : Beside R s t) (p : Fin 16) (w : Word) (c : Option Nat) :
    Beside R (s.appendJob p w c) (t.appendJob p w c) := by
  simp only [State.appendJob, h.engine]
  split
  · exact h
  · exact h.setEngine _

theorem withdrawJob (h : Beside R s t) (p : Fin 16) (g : Garment) : Beside R (s.withdrawJob p g) (t.withdrawJob p g) := by
  simp only [State.withdrawJob, h.engine, ite]
  split
  · exact h.setEngine _
  · exact h

theorem bind (h : Beside R s t) (p : Fin 16) (g : Garment) (c : Fin 16) (x : Candidate) (l : Line) :
    Beside R (s.bind p g c x l) (t.bind p g c x l) := by
  simp only [State.bind, h.book, h.settledPretreat]
  exact ((h.putGarment p _).appendJob p _ _).raise _

theorem reserveAndBind (h : Beside R s t) (p : Fin 16) (g : Garment) (c : Fin 16) (x : Candidate) :
    Option.Rel (Beside R) (s.reserveAndBind p g c x) (t.reserveAndBind p g c x) := by
  have reserved := h.reserve x.line
  simp only [State.reserveAndBind, h.book]
  generalize s.reserve x.line = a, t.reserve x.line = b at reserved
  cases s.book.lines[x.line] with
  | none => exact .none
  | some l =>
    cases reserved with
    | none => exact .none
    | some granted => exact .some (granted.bind p g c x l)

theorem holdNoLine (h : Beside R s t) (p : Fin 16) (g : Garment) : Beside R (s.holdNoLine p g) (t.holdNoLine p g) := by
  simp only [State.holdNoLine, ite]
  split
  · exact h
  · exact (h.putGarment p _).raise _

theorem matchAttempt (h : Beside R s t) (p : Fin 16) : Beside R (s.matchAttempt p) (t.matchAttempt p) := by
  simp only [State.matchAttempt, h.garment, h.candidates]
  split
  · exact h
  next g _ =>
    split
    · exact h
    next c _ =>
      split
      · exact h.holdNoLine p g
      next x _ =>
        have bound := h.reserveAndBind p g c x
        generalize s.reserveAndBind p g c x = a, t.reserveAndBind p g c x = b at bound
        cases bound with
        | none => exact h.holdNoLine p g
        | some bound => exact bound

theorem lookup (h : Beside R s t) (p : Fin 16) : Beside R (s.lookup p) (t.lookup p) := by
  simp only [State.lookup, h.garment, h.book]
  split
  · exact h
  · split
    · exact (h.putGarment p _).matchAttempt p
    · simp only [ite]
      split
      · exact h.putGarment p _
      · exact (h.putGarment p _).raise _

theorem rematch (h : Beside R s t) (c : RematchCause) : Beside R (s.rematch c) (t.rematch c) := by
  simp only [State.rematch, h.garmentAt]
  split
  · exact h
  next p g _ =>
    simp only [ite]
    split
    · exact h
    · cases c with
      | catalogueWrite => exact h.lookup p
      | other =>
        simp only [ite]
        split
        · exact h.matchAttempt p
        · exact h

theorem rematchIf (h : Beside R s t) (b : Bool) : Beside R (s.rematchIf b) (t.rematchIf b) := by
  cases b with
  | false => exact h
  | true => exact h.rematch .other

/-! ### The track and the stations' owners (R2, R6, R14, R118, R140, R157) -/

theorem setLine (h : Beside R s t) (x : LineState) : Beside R (s.setLine x) (t.setLine x) := by
  simp only [State.setLine, h.track, ite]
  split
  · exact h
  · have changed := h.setTrack { s.track with line := x }
    simp only [changed.lineStateNotice]
    exact changed.raise _

theorem platenMoved (h : Beside R s t) (p : Fin 16) (g : Option Segment) : Beside R (s.platenMoved p g) (t.platenMoved p g) := by
  simp only [State.platenMoved, h.place, h.lanePosition]
  exact h.raise _

theorem cureEntry (h : Beside R s t) (p : Fin 16) : Beside R (s.cureEntry p) (t.cureEntry p) := by
  simp only [State.cureEntry, h.garment, h.cure]
  split
  · exact h
  · split
    · exact h
    · simp only [ite]
      split
      · exact (h.putGarment p _).setCure _
      · exact h

theorem arriveUnload (h : Beside R s t) (p : Fin 16) : Beside R (s.arriveUnload p) (t.arriveUnload p) := by
  simp only [State.arriveUnload, h.garment]
  split
  · exact h
  · simp only [ite]
    split
    · exact h.putGarment p _
    · exact h

theorem leavePress (h : Beside R s t) (p : Fin 16) : Beside R (s.leavePress p) (t.leavePress p) := by
  simp only [State.leavePress, h.garment]
  split
  · exact h
  · simp only [ite]
    split
    · exact h.putGarment p _
    · exact h

theorem arrival (h : Beside R s t) (n : Fin 6) (p : Fin 16) : Beside R (s.arrival n p) (t.arrival n p) := by
  unfold State.arrival
  split
  · exact h.cureEntry p
  · exact h.arriveUnload p
  · exact h

theorem departure (h : Beside R s t) (n : Fin 6) (p : Fin 16) : Beside R (s.departure n p) (t.departure n p) := by
  unfold State.departure
  split
  · exact h.leavePress p
  · exact h

theorem placeAt (h : Beside R s t) (n : Fin 6) (p : Fin 16) : Beside R (s.placeAt n p) (t.placeAt n p) := by
  simp only [State.placeAt, h.station]
  exact ((h.putStation n _).putPlace p _).arrival n p

theorem vacate (h : Beside R s t) (n : Fin 6) (p : Fin 16) : Beside R (s.vacate n p) (t.vacate n p) := by
  simp only [State.vacate, h.station]
  exact (h.putStation n _).departure n p

theorem confirm (h : Beside R s t) (g : Segment) (p : Fin 16) (c : Confirmed) : Beside R (s.confirm g p c) (t.confirm g p c) := by
  cases g with
  | exit n =>
    cases c with
    | station m => exact h.putPlace p _
    | lane m => exact (h.joinLane n p).vacate n p
  | entry n =>
    cases c with
    | station m => exact h.placeAt _ p
    | lane m =>
      have cleared := h.putStation (nextStation n) { s.station (nextStation n) with reserved := false }
      simp only [State.confirm, h.station, cleared.lane]
      exact (cleared.putLane n _).putPlace p _

theorem endDeclare (h : Beside R s t) (p : Fin 16) : BesideWith R (s.endDeclare p) (t.endDeclare p) := by
  have moved := h.platenMoved p none
  refine ⟨?_, rfl⟩
  simp only [State.endDeclare, State.accept_fst, moved.track, ite]
  split
  · exact moved
  · exact moved.setLine _

theorem pressReleased (h : Beside R s t) : Beside R s.pressReleased t.pressReleased := by
  simp only [State.pressReleased, h.press]
  split
  · exact h.setPress _
  · exact h

end Basics

end Beside

end Sys2Proof.Machine

end

