-- ==== Sys2Proof/Proofs/BesideRequests.lean ====
section
/-! PROOF. Two states that differ in their links alone, through each request's block. -/

namespace Sys2Proof.Machine
namespace Beside

section Handlers

variable {R : Link → LinkState → LinkState → Prop} {s t : State}

/-! ### The Order Book's requests -/

theorem orderPost (h : Beside R s t) (n : Word) (priority : Nat) (ls : List PostLine) :
    BesideWith R (State.orderPost n priority ls s) (State.orderPost n priority ls t) := by
  simp only [State.orderPost, h.book, h.postPlacements, ite_with]
  split
  · exact h.refuse _
  · split
    · exact h.refuse _
    · split
      · exact h.refuse _
      next placed _ =>
        simp only [ite_with]
        split
        · exact h.refuse _
        · obtain ⟨u, w, o, e, e', posted⟩ := (h.postOrder n priority placed).cases
          simp only [e, e']
          exact (posted.rematch _).accept _

theorem lineAmend (h : Beside R s t) (n : Word) (q k : Nat) :
    BesideWith R (State.lineAmend n q k s) (State.lineAmend n q k t) := by
  simp only [State.lineAmend, h.book]
  split
  · exact h.refuse _
  next o _ =>
    split
    · exact h.refuse _
    next i _ =>
      simp only [ite_with]
      split
      · exact h.refuse _
      · split
        · exact h.refuse _
        · cases s.book.lines[i] with
          | none => exact h.refuse _
          | some l =>
            simp only [ite_with]
            split
            · exact h.refuse _
            · split
              · exact h.accept _
              · exact ((h.changeLine i _).rematchIf _).accept _

theorem orderHold (h : Beside R s t) (n : Word) : BesideWith R (State.orderHold n s) (State.orderHold n t) := by
  simp only [State.orderHold, h.book]
  split
  · exact h.refuse _
  next o _ =>
    split
    · exact (h.setOrder o _).accept _
    · exact h.accept _
    · exact h.refuse _

theorem orderRelease (h : Beside R s t) (n : Word) : BesideWith R (State.orderRelease n s) (State.orderRelease n t) := by
  simp only [State.orderRelease, h.book]
  split
  · exact h.refuse _
  next o _ =>
    split
    · exact ((h.setOrder o _).rematch _).accept _
    · exact h.accept _
    · exact h.refuse _

theorem orderCancel (h : Beside R s t) (n : Word) : BesideWith R (State.orderCancel n s) (State.orderCancel n t) := by
  simp only [State.orderCancel, h.book]
  split
  · exact h.refuse _
  next o _ =>
    split
    · exact h.refuse _
    · exact h.accept _
    · exact h.accept _
    · exact (h.cancelOrder o).accept _
    · exact (h.cancelOrder o).accept _

theorem orderRetire (h : Beside R s t) (n : Word) : BesideWith R (State.orderRetire n s) (State.orderRetire n t) := by
  simp only [State.orderRetire, h.book]
  split
  · exact h.refuse _
  next o _ =>
    split
    · exact (h.retireOrder o).accept _
    · exact (h.retireOrder o).accept _
    · exact h.refuse _

theorem catalogueSet (h : Beside R s t) (b : BlankCode) (c : Nat) :
    BesideWith R (State.catalogueSet b c s) (State.catalogueSet b c t) := by
  simp only [State.catalogueSet, h.book, ite_with]
  split
  · exact h.refuse _
  · split
    · exact h.refuse _
    · simp only [ite_with]
      split
      · exact ((h.setBook _).rematch _).accept _
      · split
        · exact h.refuse _
        · exact ((h.setBook _).rematch _).accept _

theorem catalogueRemove (h : Beside R s t) (b : BlankCode) :
    BesideWith R (State.catalogueRemove b s) (State.catalogueRemove b t) := by
  simp only [State.catalogueRemove, h.book]
  split
  · exact h.refuse _
  · exact ((h.setBook _).rematch _).accept _

theorem catalogueGet (h : Beside R s t) (b : BlankCode) : BesideWith R (State.catalogueGet b s) (State.catalogueGet b t) := by
  simp only [State.catalogueGet, h.book]
  split
  · exact h.refuse _
  · exact h.accept _

theorem classSet (h : Beside R s t) (c : Nat) (r : Recipe) : BesideWith R (State.classSet c r s) (State.classSet c r t) := by
  simp only [State.classSet, h.book]
  split
  · exact h.refuse _
  · exact (h.setBook _).accept _

theorem classGet (h : Beside R s t) (c : Nat) : BesideWith R (State.classGet c s) (State.classGet c t) := by
  simp only [State.classGet, h.book]
  split
  · exact h.refuse _
  · exact h.accept _

/-! ### The Match Unit's requests -/

theorem garmentLoad (h : Beside R s t) (n : Nat) (b : BlankCode) :
    BesideWith R (State.garmentLoad n b s) (State.garmentLoad n b t) := by
  simp only [State.garmentLoad, h.track, h.place, h.garment, h.freshSerial]
  split
  · exact h.refuse _
  next p _ =>
    have loaded := (h.takeSerial.putGarment p (some (Garment.fresh s.freshSerial b))).lookup p
    simp only [ite_with, loaded.loadReply]
    split
    · exact h.refuse _
    · split
      · exact h.refuse _
      · split
        · exact h.refuse _
        · split
          · exact h.refuse _
          · exact loaded.accept _

theorem garmentAssign (h : Beside R s t) (n : Nat) (o : Word) (q : Nat) :
    BesideWith R (State.garmentAssign n o q s) (State.garmentAssign n o q t) := by
  simp only [State.garmentAssign, h.assignable, h.book, h.isCandidate]
  split
  · exact h.refuse _
  next p g c _ =>
    split
    · exact h.refuse _
    next y _ =>
      split
      · exact h.refuse _
      next i _ =>
        simp only [ite_with]
        split
        · exact h.refuse _
        · have bound := h.reserveAndBind p g c ⟨y, q, i⟩
          generalize s.reserveAndBind p g c ⟨y, q, i⟩ = a, t.reserveAndBind p g c ⟨y, q, i⟩ = b at bound
          cases bound with
          | none => exact h.refuse _
          | some bound => exact bound.accept _

theorem loadClear (h : Beside R s t) (n : Nat) : BesideWith R (State.loadClear n s) (State.loadClear n t) := by
  simp only [State.loadClear, h.place, h.garment]
  split
  · exact h.refuse _
  next p _ =>
    split
    · exact h.refuse _
    · split
      · exact h.refuse _
      next g _ =>
        obtain ⟨u, w, b, e, e', counted⟩ := (h.countBinding .release g).cases
        simp only [e, e']
        exact ((((counted.withdrawJob p g).putGarment p none).raise _).rematchIf b).accept _

theorem endUnload (h : Beside R s t) (p : Fin 16) (g : Garment) (o : GarmentOutcome) :
    Beside R (s.endUnload p g o) (t.endUnload p g o) := (h.raise _).putGarment p none

theorem unloadGood (h : Beside R s t) (n : Nat) : BesideWith R (State.unloadGood n s) (State.unloadGood n t) := by
  simp only [State.unloadGood, h.unloadable]
  split
  · exact h.refuse _
  next p g _ =>
    simp only [ite_with]
    split
    · exact h.refuse _
    · obtain ⟨u, w, b, e, e', counted⟩ := (h.countBinding .done g).cases
      simp only [e, e']
      exact (counted.endUnload p g _).accept _

theorem unloadSpoil (h : Beside R s t) (n : Nat) : BesideWith R (State.unloadSpoil n s) (State.unloadSpoil n t) := by
  simp only [State.unloadSpoil, h.unloadable]
  split
  · exact h.refuse _
  next p g _ =>
    obtain ⟨u, w, b, e, e', counted⟩ := (h.countBinding .spoil g).cases
    simp only [e, e']
    exact ((counted.endUnload p g _).rematchIf b).accept _

/-! ### The Art Store's requests -/

theorem artOpen (h : Beside R s t) (f p w y d b : Nat) (c : Word) :
    BesideWith R (State.artOpen f p w y d b c s) (State.artOpen f p w y d b c t) := by
  simp only [State.artOpen, h.freeArt, h.artOverlaps]
  split
  · exact h.refuse _
  · simp only [ite_with]
    split
    · exact h.refuse _
    · split
      · exact h.refuse _
      next x _ =>
        rw [ite_with]
        split_ifs
        · exact h.refuse _
        · exact ((h.putArt x _).raise _).accept _

theorem artWrite (h : Beside R s t) (l : Link) (n o : Nat) (d : List Byte) :
    BesideWith R (State.artWrite l n o d s) (State.artWrite l n o d t) := by
  simp only [State.artWrite, h.art, h.store]
  split
  · exact h.refuse _
  · simp only [ite_with]
    split
    · exact h.refuse _
    · split
      · exact h.refuse _
      · simp only [ite_with]
        split
        · exact h.refuse _
        · split
          · exact h.refuse _
          · exact ⟨h.setStore _, rfl⟩

theorem artSeal (h : Beside R s t) (n : Nat) (c : Option Word) : BesideWith R (State.artSeal n c s) (State.artSeal n c t) := by
  simp only [State.artSeal, h.art]
  split
  · exact h.refuse _
  next x _ =>
    split
    · exact h.refuse _
    next d _ =>
      simp only [ite_with]
      split
      · exact h.refuse _
      · have sealed := h.putArt x (some { d with expected := c.getD d.expected, status := .verifying })
        simp only [sealed.store]
        exact ((sealed.setStore _).raise _).accept _

theorem leaveQueue (h : Beside R s t) (x : Fin 64) : Beside R (s.leaveQueue x) (t.leaveQueue x) := by
  simp only [State.leaveQueue, h.store, h.arbiter, ite]
  split
  · exact (h.setStore _).setArbiter _
  · exact h.setStore _

theorem artFree (h : Beside R s t) (n : Nat) : BesideWith R (State.artFree n s) (State.artFree n t) := by
  simp only [State.artFree, h.art, h.book]
  split
  · exact h.refuse _
  next x _ =>
    split
    · exact h.refuse _
    · simp only [ite_with]
      split
      · exact h.refuse _
      · exact (((h.leaveQueue x).putArt x none).raise _).accept _

theorem paletteSet (h : Beside R s t) (p f : Nat) (e : List Ink) :
    BesideWith R (State.paletteSet p f e s) (State.paletteSet p f e t) := by
  simp only [State.paletteSet, h.paletteInUse, h.store]
  split
  · exact h.refuse _
  · simp only [ite_with]
    split
    · exact h.refuse _
    · exact (h.setStore _).accept _

theorem paletteGet (h : Beside R s t) (p f c : Nat) :
    BesideWith R (State.paletteGet p f c s) (State.paletteGet p f c t) := by
  simp only [State.paletteGet, h.store]
  split
  · exact h.refuse _
  · exact h.accept _

theorem overlaySet (h : Beside R s t) (o : Nat) (c : Option (Cmyk × Cmyk)) (f : Nat) (r : List (Vector OverlayCode 64)) :
    BesideWith R (State.overlaySet o c f r s) (State.overlaySet o c f r t) := by
  simp only [State.overlaySet, h.book, h.store]
  split
  · exact h.refuse _
  · simp only [ite_with]
    split
    · exact h.refuse _
    · exact (h.setStore _).accept _

theorem overlayGet (h : Beside R s t) (o f c : Nat) :
    BesideWith R (State.overlayGet o f c s) (State.overlayGet o f c t) := by
  simp only [State.overlayGet, h.store]
  split
  · exact h.refuse _
  · exact h.accept _

/-! ### The print session's requests -/

theorem swathPull (h : Beside R s t) (l : Link) (q o : Nat) :
    BesideWith R (State.swathPull l q o s) (State.swathPull l q o t) := by
  simp only [State.swathPull, h.pullable, h.ring]
  split
  · exact h.refuse _
  · simp only [ite_with]
    split
    · exact h.refuse _
    · exact ⟨h.setRing _, rfl⟩

theorem swathRelease (h : Beside R s t) (q : Nat) : BesideWith R (State.swathRelease q s) (State.swathRelease q t) := by
  simp only [State.swathRelease, h.pullable, h.ring]
  split
  · exact h.refuse _
  · exact ((h.setRing _).putGarment _ _).accept _

theorem printEndOk (h : Beside R s t) : BesideWith R (State.printEndOk s) (State.printEndOk t) := by
  simp only [State.printEndOk, h.sessionGarment]
  split
  · exact h.refuse _
  next x g _ =>
    simp only [ite_with]
    split
    · exact h.refuse _
    · have done := h.putGarment x.platen (some { g with print := { g.print with phase := .complete }, stage := .cureWait })
      simp only [done.ring]
      exact (done.setRing _).accept _

theorem discardSwathUnit (h : Beside R s t) (p : Fin 16) (w : Word) :
    Beside R (s.discardSwathUnit p w) (t.discardSwathUnit p w) := by
  simp only [State.discardSwathUnit, h.engine]
  split
  · exact h
  next u _ =>
    simp only [ite]
    split
    · have cut := h.setEngine { s.engine with unit := some { u with discarded := true, writes := [] } }
      simp only [cut.arbiter]
      split
      · exact cut.setArbiter _
      · exact cut
    · exact h

theorem printEndAbort (h : Beside R s t) : BesideWith R (State.printEndAbort s) (State.printEndAbort t) := by
  simp only [State.printEndAbort, h.sessionGarment]
  split
  · exact h.refuse _
  next x g _ =>
    have aborted := (h.discardSwathUnit x.platen x.serial).putGarment x.platen
      (some { g with print := { g.print with phase := .aborted }, disposition := .reject })
    simp only [aborted.ring]
    exact (aborted.setRing _).accept _

/-! ### Curing and indicators -/

theorem rateTableSet (h : Beside R s t) (b : Vector RateBand 8) :
    BesideWith R (State.rateTableSet b s) (State.rateTableSet b t) := by
  simp only [State.rateTableSet, h.cure, ite_with]
  split
  · exact (h.setCure _).accept _
  · exact h.refuse _

theorem rateTableGet (h : Beside R s t) : BesideWith R (State.rateTableGet s) (State.rateTableGet t) := by
  simp only [State.rateTableGet, h.cure]
  exact h.accept _

theorem sampleGarment (h : Beside R s t) (p : Fin 16) (g : Garment) (b : Binding) (z : Int) :
    BesideWith R (s.sampleGarment p g b z) (t.sampleGarment p g b z) := by
  simp only [State.sampleGarment, h.clock, h.cure]
  refine ⟨?_, rfl⟩
  have judged (c : CureRecord) (r : CureResult) := h.putGarment p (some (g.judged c r))
  simp only [State.accept_fst, fun c r => (judged c r).cure]
  split
  · exact ((judged _ _).setCure _).raiseAll _
  · exact ((judged _ _).setCure _).raiseAll _

theorem cureSample (h : Beside R s t) (n : Nat) (z : Int) : BesideWith R (State.cureSample n z s) (State.cureSample n z t) := by
  simp only [State.cureSample, h.place, h.garment]
  split
  · exact h.refuse _
  next p _ =>
    simp only [ite_with]
    split
    · exact h.refuse _
    · split
      · exact h.refuse _
      next g _ =>
        simp only [ite_with]
        split
        · exact h.refuse _
        · split
          · exact h.refuse _
          next b _ => exact h.sampleGarment p g b z

theorem assignIndicator (h : Beside R s t) (o : Nat) (c : Byte) (m a b : Nat) :
    BesideWith R (State.assignIndicator o c m a b s) (State.assignIndicator o c m a b t) := by
  simp only [State.assignIndicator, h.indicators]
  split
  · exact h.refuse _
  · simp only [ite_with]
    split
    · exact h.refuse _
    · split
      · exact h.refuse _
      · exact (h.setIndicators _).accept _

theorem clearPowerFlag (h : Beside R s t) : BesideWith R (State.clearPowerFlag s) (State.clearPowerFlag t) :=
  (h.setPowerFlag false).accept _

/-! ### The shelf's requests -/

theorem shelfPermitSet (h : Beside R s t) (m : Nat) : BesideWith R (State.shelfPermitSet m s) (State.shelfPermitSet m t) := by
  simp only [State.shelfPermitSet, h.shelf]
  split
  · exact h.refuse _
  · exact (h.setShelf _).accept _

theorem shelveGarment (h : Beside R s t) (p : Fin 16) (g : Garment) (c : Fin 16) (b : Binding) (i : Fin 8) :
    Beside R (s.shelveGarment p g c b i) (t.shelveGarment p g c b i) := by
  simp only [State.shelveGarment, h.clock, h.place]
  have put := h.putShelf i (some ⟨g.context c b s.clock.time, b.recipe, b.placement⟩)
  split
  · exact (((put.withdrawJob p g).raise _).raise _).putGarment p none
  · exact ((put.raise _).raise _).putGarment p none

theorem shelve (h : Beside R s t) (n : Nat) : BesideWith R (State.shelve n s) (State.shelve n t) := by
  simp only [State.shelve, h.place, h.garment, h.freeShelf, h.clock]
  split
  · exact h.refuse _
  next p _ =>
    simp only [ite_with]
    split
    · exact h.refuse _
    · split
      · exact h.refuse _
      next g _ =>
        simp only [ite_with]
        split
        · exact h.refuse _
        · split
          · exact h.refuse _
          next i b c _ _ _ => exact (h.shelveGarment p g c b i).accept _
          · exact h.refuse _

theorem restore (h : Beside R s t) (i : Fin 8) (x : ShelfSlot) (p : Fin 16) (c : Components) :
    Beside R (s.restore i x p c) (t.restore i x p c) := by
  simp only [State.restore, h.restoredGarment, h.restoredPretreat]
  exact (((h.putGarment p _).appendJob p _ _).putShelf i none).raise _

theorem unshelve (h : Beside R s t) (a n m : Nat) : BesideWith R (State.unshelve a n m s) (State.unshelve a n m t) := by
  simp only [State.unshelve, h.track, h.shelfSlot, h.place, h.garment, h.artReady, h.shelf]
  split
  · exact h.refuse _
  · exact h.refuse _
  next i p _ _ =>
    split
    · exact h.refuse _
    · simp only [ite_with]
      split
      · exact h.refuse _
      · split
        · exact h.refuse _
        next x _ =>
          simp only [ite_with]
          split
          · exact h.refuse _
          · split
            · exact h.refuse _
            · split
              · exact h.refuse _
              · exact (h.restore i x p _).accept _

theorem takeOff (h : Beside R s t) (i : Fin 8) (x : ShelfSlot) (c : Counter) (e : ShelfEvent) :
    Beside R (s.takeOff i x c e) (t.takeOff i x c e) := by
  obtain ⟨u, w, b, e, e', counted⟩ := (h.count c x.context.ident.line).cases
  simp only [State.takeOff, e, e']
  exact ((counted.putShelf i none).raise _).rematchIf b

theorem shelfDrop (h : Beside R s t) (a : Nat) : BesideWith R (State.shelfDrop a s) (State.shelfDrop a t) := by
  simp only [State.shelfDrop, h.shelfSlot]
  split
  · exact h.refuse _
  next i _ =>
    split
    · exact h.refuse _
    next x _ => exact (h.takeOff i x _ _).accept _

theorem shelfExport (h : Beside R s t) (a f : Nat) : BesideWith R (State.shelfExport a f s) (State.shelfExport a f t) := by
  simp only [State.shelfExport, h.shelfSlot, h.exportOrphan]
  split
  · exact h.refuse _
  next i _ =>
    split
    · exact h.refuse _
    · split
      · exact h.refuse _
      next x _ => exact (h.takeOff i x _ _).accept _

theorem placeImport (h : Beside R s t) (i : Fin 8) (x : Context) (l : Line) :
    Beside R (s.placeImport i x l) (t.placeImport i x l) := by
  simp only [State.placeImport, h.book]
  exact (h.takeSerial.putShelf i _).raise _

theorem shelfImport (h : Beside R s t) (r : List Byte) : BesideWith R (State.shelfImport r s) (State.shelfImport r t) := by
  simp only [State.shelfImport, h.namedLine, h.freeShelf]
  split
  · exact h.refuse _
  next x _ =>
    split
    · exact h.refuse _
    next line l _ =>
      simp only [ite_with]
      split
      · exact h.refuse _
      · have reserved := h.reserve line
        generalize s.reserve line = a, t.reserve line = b at reserved
        cases s.freeShelf with
        | none => exact h.refuse _
        | some i =>
          cases reserved with
          | none => exact h.refuse _
          | some granted =>
            simp only [granted.freshSerial]
            exact (granted.placeImport i _ l).accept _

/-! ### The Track Manager's requests -/

theorem platenDeclare (h : Beside R s t) (n : Nat) (x : PlaceArg) :
    BesideWith R (State.platenDeclare n x s) (State.platenDeclare n x t) := by
  simp only [State.platenDeclare, h.place, h.present, h.station, h.lane]
  split
  · exact h.refuse _
  · exact h.refuse _
  next p d _ _ =>
    simp only [ite_with]
    split
    · exact h.refuse _
    · cases d with
      | station n =>
        simp only [ite_with]
        split
        · exact h.refuse _
        · exact (h.placeAt n p).endDeclare p
      | lane n =>
        simp only [ite_with]
        split
        · exact h.refuse _
        · exact (h.joinLane n p).endDeclare p
      | service => exact (h.putPlace p _).endDeclare p

theorem jamConfirm (h : Beside R s t) (n : Nat) (x : PlaceArg) :
    BesideWith R (State.jamConfirm n x s) (State.jamConfirm n x t) := by
  simp only [State.jamConfirm, h.place, h.confirmSeen]
  split
  · exact h.refuse _
  · exact h.refuse _
  next p c _ _ =>
    split
    next g _ =>
      simp only [ite_with]
      split
      · exact h.refuse _
      · split
        · exact h.refuse _
        · exact (((h.confirm g p c).putSeg g _).platenMoved p _).accept _
    · exact h.refuse _

theorem lineResume (h : Beside R s t) : BesideWith R (State.lineResume s) (State.lineResume t) := by
  simp only [State.lineResume, h.inputs, h.track, ite_with]
  split
  · exact h.refuse _
  · split
    · exact h.refuse _
    · exact (h.setLine _).accept _

theorem stationHold (h : Beside R s t) (n : Nat) : BesideWith R (State.stationHold n s) (State.stationHold n t) := by
  simp only [State.stationHold, h.station]
  split
  · exact h.refuse _
  · exact (h.putStation _ _).accept _

theorem stationRelease (h : Beside R s t) (n : Nat) : BesideWith R (State.stationRelease n s) (State.stationRelease n t) := by
  simp only [State.stationRelease, h.station]
  split
  · exact h.refuse _
  next k _ =>
    have released := h.putStation k { s.station k with held := false }
    simp only [ite_with]
    split
    · refine ⟨?_, rfl⟩
      simp only [State.accept_fst, ite]
      split
      · exact released.pressReleased
      · exact released
    · exact h.accept _

theorem serviceOut (h : Beside R s t) (n : Nat) : BesideWith R (State.serviceOut n s) (State.serviceOut n t) := by
  simp only [State.serviceOut, h.place, h.isEmpty]
  split
  · exact h.refuse _
  next p _ =>
    split
    next k _ =>
      simp only [ite_with]
      split
      · exact (((h.vacate k p).putPlace p _).platenMoved p none).accept _
      · exact h.refuse _
    · exact h.refuse _

theorem serviceIn (h : Beside R s t) (n : Nat) : BesideWith R (State.serviceIn n s) (State.serviceIn n t) := by
  simp only [State.serviceIn, h.place, h.station, h.present]
  split
  · exact h.refuse _
  next p _ =>
    simp only [ite_with]
    split
    · exact ((h.placeAt 0 p).platenMoved p none).accept _
    · exact h.refuse _

end Handlers

end Beside
end Sys2Proof.Machine

end

