-- ==== Sys2Proof/Proofs/BesideLinks.lean ====
section
/-! PROOF. Two states that differ in their links alone, through a link's change and a line reset. -/

namespace Sys2Proof.Machine
namespace Beside

section Links

variable {R R' : Link → LinkState → LinkState → Prop} {s t : State}

theorem putLink (h : Beside R s t) {l : Link} {k j : LinkState} (written : R l k j) :
    Beside R (s.putLink l k) (t.putLink l j) := by
  refine ⟨h.hears, ?_, fun m => ?_⟩
  · conv_lhs => rw [State.putLink, h.rest]
    rfl
  · by_cases same : l = m
    · subst same
      simpa only [State.putLink_link_self] using written
    · simpa only [State.putLink_link_ne _ _ _ _ same] using h.link m

theorem answer (h : Beside R s t) {l : Link} {a b : Answer}
    (completes : ∀ k j, R l k j → R l (k.complete a) (j.complete b)) : Beside R (s.answer l a) (t.answer l b) :=
  h.putLink (completes _ _ (h.link l))

theorem setNoticeMask (h : Beside R s t) (l : Link) (mask : Half)
    (masks : ∀ k j, R l k j → R l { k with mask := mask } { j with mask := mask }) :
    BesideWith R (State.setNoticeMask l mask s) (State.setNoticeMask l mask t) :=
  (h.putLink (masks _ _ (h.link l))).accept _

/-! ### The line reset (R171) -/

theorem jamMoving (h : Beside R s t) (c : JamCause) (g : Segment) : Beside R (s.jamMoving c g) (t.jamMoving c g) := by
  simp only [State.jamMoving, h.seg]
  split
  · exact h.jamSeg g _ c
  · exact h

theorem jamAll (h : Beside R s t) (c : JamCause) (gs : List Segment) :
    Beside R (gs.foldl (State.jamMoving c) s) (gs.foldl (State.jamMoving c) t) := by
  induction gs generalizing s t with
  | nil => exact h
  | cons g gs ih => exact ih (h.jamMoving c g)

theorem haltedTrack (h : Beside R s t) (c : JamCause) : t.haltedTrack c = s.haltedTrack c := by
  rw [State.haltedTrack, State.haltedTrack, (h.jamAll c allSegments).track]

theorem cutPull (h : Beside R s t) : t.cutPull = s.cutPull := h.read fun _ _ => rfl

theorem pullAnswered (h : Beside R s t)
    (completes : ∀ l k j, R l k j → R l (k.complete ⟨.stale, []⟩) (j.complete ⟨.stale, []⟩)) :
    Beside R s.pullAnswered t.pullAnswered := by
  simp only [State.pullAnswered, h.cutPull]
  split
  · exact h
  · exact h.answer (completes _)

/-- A line reset's notices reach links whose queues it has emptied. -/
theorem clearLine (h : Beside R s t)
    (completes : ∀ l k j, R l k j → R l (k.complete ⟨.stale, []⟩) (j.complete ⟨.stale, []⟩))
    (empties : ∀ l k j, R l k j → R' l k.emptyQueue j.emptyQueue)
    (hears : ∀ l k j, R' l k j → ∀ time n, R' l (k.offer time n) (j.offer time n)) :
    Beside R' s.clearLine t.clearLine := by
  have track : t.clearedTrack = s.clearedTrack := by
    simp only [State.clearedTrack, h.haltedTrack, h.track]
  have notices : t.resetNotices = s.resetNotices := by
    simp only [State.resetNotices, track, h.inputs, h.powerFlag, h.cancelledNotice]
  rw [State.clearLine_eq, State.clearLine_eq, notices]
  refine Beside.raiseAll ⟨hears, ?_, fun l => ?_⟩ _
  · simp only [State.cleared, track, h.cutPull]
    generalize t.pullAnswered = emptied
    conv_lhs => rw [h.rest]
    rfl
  · simp only [State.cleared, State.link, Links.get_map]
    exact empties l _ _ ((h.pullAnswered completes).link l)

theorem takeLineReset (h : Beside R s t) (l : Link)
    (completes : ∀ l k j, R l k j → R l (k.complete ⟨.stale, []⟩) (j.complete ⟨.stale, []⟩))
    (empties : ∀ l k j, R l k j → R' l k.emptyQueue j.emptyQueue)
    (hears : ∀ l k j, R' l k j → ∀ time n, R' l (k.offer time n) (j.offer time n)) :
    BesideWith R' (State.takeLineReset l s) (State.takeLineReset l t) :=
  ⟨(h.clearLine completes empties hears).setLineReset (some l), rfl⟩

end Links

/-! ### Every request -/

/-- READ apart, which reports its link, LINE_RESET, which rewrites all links, and NOTICE_MASK_SET, which rewrites its own. -/
theorem handlerOf {R : Link → LinkState → LinkState → Prop} {s t : State} (h : Beside R s t) {i : Instr} {v : Via} {kind : Nat}
    (request : Instr.asRequest i = some (v, kind)) (read : kind ≠ 0x20) (reset : kind ≠ 0x1C) (mask : kind ≠ 0x1F) :
    BesideWith R (Machine.handlerOf i s) (Machine.handlerOf i t) := by
  cases i
  all_goals cases request
  case orderPost => exact h.orderPost ..
  case lineAmend => exact h.lineAmend ..
  case orderHold => exact h.orderHold ..
  case orderRelease => exact h.orderRelease ..
  case orderCancel => exact h.orderCancel ..
  case orderRetire => exact h.orderRetire ..
  case catalogueSet => exact h.catalogueSet ..
  case catalogueRemove => exact h.catalogueRemove ..
  case catalogueGet => exact h.catalogueGet ..
  case classSet => exact h.classSet ..
  case classGet => exact h.classGet ..
  case artOpen => exact h.artOpen ..
  case artWrite => exact h.artWrite ..
  case artSeal => exact h.artSeal ..
  case artFree => exact h.artFree ..
  case paletteSet => exact h.paletteSet ..
  case paletteGet => exact h.paletteGet ..
  case overlaySet => exact h.overlaySet ..
  case overlayGet => exact h.overlayGet ..
  case rateTableSet => exact h.rateTableSet ..
  case rateTableGet => exact h.rateTableGet
  case shelfPermitSet => exact h.shelfPermitSet ..
  case shelfExport => exact h.shelfExport ..
  case shelfImport => exact h.shelfImport ..
  case shelfDrop => exact h.shelfDrop ..
  case shelve => exact h.shelve ..
  case unshelve => exact h.unshelve ..
  case powerFlagClear => exact h.clearPowerFlag
  case indicatorSet => exact h.assignIndicator ..
  case garmentLoad => exact h.garmentLoad ..
  case garmentAssign => exact h.garmentAssign ..
  case loadClear => exact h.loadClear ..
  case unloadGood => exact h.unloadGood ..
  case unloadSpoil => exact h.unloadSpoil ..
  case platenDeclare => exact h.platenDeclare ..
  case jamConfirm => exact h.jamConfirm ..
  case lineResume => exact h.lineResume
  case stationHold => exact h.stationHold ..
  case stationRelease => exact h.stationRelease ..
  case serviceOut => exact h.serviceOut ..
  case serviceIn => exact h.serviceIn ..
  case swathPull => exact h.swathPull ..
  case swathRelease => exact h.swathRelease ..
  case printEndOk => exact h.printEndOk
  case printEndAbort => exact h.printEndAbort
  case cureSample => exact h.cureSample ..
  case read => exact absurd rfl read
  case lineReset => exact absurd rfl reset
  case noticeMaskSet => exact absurd rfl mask

end Beside
end Sys2Proof.Machine

end

