-- ==== Sys2Proof/Proofs/HandedRequests.lean ====
section
/-! PROOF. A request handed on, taken on its link as it stands and on the link made free (R167, R172). -/

namespace Sys2Proof.Machine

/-! ### A link that was reset while its request was in flight (R172) -/

/-- The slot of a link that was reset, beside that of a link that was not: its request works on, and has no reply. -/
inductive Unheard : Slot → Slot → Prop
  | works (tag kind : Nat) : Unheard (.inFlight tag kind .working) (.inFlight tag kind .working)
  | replied (tag kind : Nat) (a : Answer) : Unheard (.inFlight tag kind (.ready a)) .free

/-- The request of `j` is silent and that of `k` is not. -/
structure Hushed (k j : LinkState) : Prop where
  send : k.silent = false
  silent : j.silent = true
  slot : Unheard k.slot j.slot

theorem Hushed.complete {k j : LinkState} (h : Hushed k j) (a b : Answer) : Hushed (k.complete a) (j.complete b) := by
  obtain ⟨send, silent, slot⟩ := h
  unfold LinkState.complete
  generalize e : k.slot = x, e' : j.slot = y at slot
  cases slot with
  | works tag kind =>
    simp only [send, silent, if_true, Bool.false_eq_true, if_false]
    exact ⟨rfl, rfl, .replied tag kind a⟩
  | replied tag kind _ =>
    dsimp only
    exact ⟨send, silent, e ▸ e' ▸ .replied ..⟩

theorem LinkState.complete_eq (a : Answer) (k : LinkState) : k.complete a = { k with slot := (k.complete a).slot } := by
  unfold LinkState.complete
  repeat' split
  all_goals rfl

theorem Hushed.offer {k j : LinkState} (h : Hushed k j) (time : Word) (n : Notice) :
    Hushed (k.offer time n) (j.offer time n) :=
  ⟨by rw [LinkState.offer_silent, h.send], by rw [LinkState.offer_silent, h.silent],
    by simpa only [LinkState.offer_slot] using h.slot⟩

/-- Of a link that has left BREAK, everything but the request is as on a link that was not reset. -/
structure Muted (k j : LinkState) : Prop extends Hushed k j where
  rest : j = { k with slot := j.slot, silent := j.silent }

/-- A link still in BREAK: its settings but for the mask are those of `k₀`, and the notices of the request pass its queue
by. -/
structure PassedBy (k₀ : LinkState) (queue : List QueuedNotice) (k j : LinkState) : Prop extends Hushed k j where
  receiver : j.receiver = .inBreak
  mask : j.mask = k.mask
  discards : j.discards = k₀.discards
  busy : j.busy = k₀.busy
  number : j.number = k₀.number
  queue : j.queue = queue

/-- What a relation of two links must bear for a request to be followed on both. -/
structure Borne (P : LinkState → LinkState → Prop) : Prop where
  hears : ∀ k j, P k j → ∀ time n, P (k.offer time n) (j.offer time n)
  completes : ∀ k j, P k j → ∀ a b, P (k.complete a) (j.complete b)
  masks : ∀ k j, P k j → ∀ mask, P { k with mask := mask } { j with mask := mask }

theorem Muted.borne : Borne Muted where
  hears k j h time n := by
    refine ⟨h.toHushed.offer time n, ?_⟩
    conv_lhs => rw [h.rest]
    rw [LinkState.offer_slot, LinkState.offer_silent]
    unfold LinkState.offer
    dsimp only
    split_ifs <;> rfl
  completes k j h a b := by
    refine ⟨h.toHushed.complete a b, ?_⟩
    rw [k.complete_eq a, j.complete_eq b]
    generalize (j.complete b).slot = x
    conv_lhs => rw [h.rest]
  masks k j h mask := ⟨⟨h.send, h.silent, h.slot⟩, by conv_lhs => rw [h.rest]⟩

theorem PassedBy.borne (k₀ : LinkState) (queue : List QueuedNotice) : Borne (PassedBy k₀ queue) where
  hears k j h time n := by
    have hushed := h.toHushed.offer time n
    rw [LinkState.offer_inBreak time n h.receiver] at hushed ⊢
    exact ⟨hushed, h.receiver, by rw [LinkState.offer_mask, h.mask], h.discards, h.busy, h.number, h.queue⟩
  completes k j h a b := by
    have hushed := h.toHushed.complete a b
    rw [k.complete_eq a, j.complete_eq b] at hushed ⊢
    exact ⟨hushed, h.receiver, h.mask, h.discards, h.busy, h.number, h.queue⟩
  masks k j h mask := ⟨⟨h.send, h.silent, h.slot⟩, h.receiver, rfl, h.discards, h.busy, h.number, h.queue⟩

theorem Muted.emptyQueue {k j : LinkState} (h : Muted k j) : Muted k.emptyQueue j.emptyQueue :=
  ⟨⟨h.send, h.silent, h.slot⟩, by conv_lhs => rw [h.rest]
                                  rfl⟩

theorem PassedBy.emptyQueue {k₀ k j : LinkState} {queue : List QueuedNotice} (h : PassedBy k₀ queue k j) :
    PassedBy k₀ [] k.emptyQueue j.emptyQueue :=
  ⟨⟨h.send, h.silent, h.slot⟩, h.receiver, h.mask, h.discards, h.busy, h.number, rfl⟩

/-- One link in a relation, the others the same. -/
def OnlyAt (l : Link) (P : LinkState → LinkState → Prop) (m : Link) (k j : LinkState) : Prop :=
  (m = l → P k j) ∧ (m ≠ l → j = k)

theorem OnlyAt.map {l m : Link} {P P' : LinkState → LinkState → Prop} {k j : LinkState} (h : OnlyAt l P m k j)
    {f : LinkState → LinkState} (step : ∀ k j, P k j → P' (f k) (f j)) : OnlyAt l P' m (f k) (f j) :=
  ⟨fun here => step _ _ (h.1 here), fun other => congrArg f (h.2 other)⟩

/-! ### A request handled on both -/

theorem State.readRecord_replies (s : State) (kind key option : Nat) : ∃ a, s.readRecord kind key option = (s, some a) := by
  have unchanged := s.readRecord_fst kind key option
  have replies : (s.readRecord kind key option).2.isSome := by
    unfold State.readRecord State.readPlaten State.readGarment State.readOrder State.readLine State.readArt State.readShelf
    repeat' split
    all_goals rfl
  obtain ⟨a, e⟩ := Option.isSome_iff_exists.1 replies
  exact ⟨a, Prod.ext unchanged e⟩

namespace Beside

theorem handle {R : Link → LinkState → LinkState → Prop} {s t : State} {l : Link} {f : State → Taken}
    (h : BesideWith R (f s) (f t)) (completes : ∀ k j, R l k j → ∀ a, R l (k.complete a) (j.complete a)) :
    Beside R (s.handle l f) (t.handle l f) := by
  obtain ⟨u, w, given, e, e', beside⟩ := h.cases
  rw [State.handle, State.handle, e, e']
  cases given with
  | none => exact beside
  | some a => exact beside.answer fun k j rel => completes k j rel a

theorem handleRequest {P P' : LinkState → LinkState → Prop} {s t : State} {i : Instr} {v : Via} {kind : Nat}
    (request : Instr.asRequest i = some (v, kind)) (borne : Borne P) (borne' : Borne P')
    (empties : kind = 0x1C → ∀ k j, P k j → P' k.emptyQueue j.emptyQueue) (stays : kind ≠ 0x1C → P = P')
    (h : Beside (OnlyAt v.link P) s t) :
    Beside (OnlyAt v.link P') (s.handle v.link (Machine.handlerOf i)) (t.handle v.link (Machine.handlerOf i)) := by
  have completes {Q} (b : Borne Q) (l k j) (rel : OnlyAt v.link Q l k j) (a : Answer) :
      OnlyAt v.link Q l (k.complete a) (j.complete a) := rel.map fun k j h => b.completes k j h a a
  by_cases reset : kind = 0x1C
  · subst reset
    cases i
    all_goals cases request
    refine handle (h.takeLineReset v.link (fun l k j rel => completes borne l k j rel _) ?_ ?_) (completes borne' v.link)
    · exact fun l k j rel => rel.map (empties rfl)
    · exact fun l k j rel time n => rel.map fun k j h => borne'.hears k j h time n
  obtain rfl := stays reset
  by_cases read : kind = 0x20
  · subst read
    cases i
    all_goals cases request
    next code key option =>
    obtain ⟨a, e⟩ := s.readRecord_replies code key option
    obtain ⟨b, e'⟩ := t.readRecord_replies code key option
    simp only [State.handle, Machine.handlerOf, e, e']
    exact h.answer fun k j rel => ⟨fun here => borne.completes k j (rel.1 here) a b, fun other => absurd rfl other⟩
  by_cases mask : kind = 0x1F
  · subst mask
    cases i
    all_goals cases request
    exact handle (h.setNoticeMask v.link _ fun k j rel => rel.map fun k j h => borne.masks k j h _) (completes borne v.link)
  exact handle (h.handlerOf request read reset mask) (completes borne v.link)

/-- Two states that differ in their links alone have all else the same, after the step's end too. -/
theorem keeps_settled {R : Link → LinkState → LinkState → Prop} {s t : State} (h : Beside R s t) :
    s.settle.keeps t.settle [.notices, .settings] := by
  intro p out
  have judged (u : State) (i : Fin 6) := u.keeps_settle .outputs (by simp) i
  cases p with
  | notices | settings => simp at out
  | outputs =>
    intro i
    have before := judged s i
    have after := judged t i
    rw [h.indicators] at after
    simp only [after, before, and_self]
  | _ => rw [h.rest]; rfl

end Beside

/-! ### The end of the step -/

/-- The transmitter does not look at the reply mode. -/
theorem LinkState.kick_mode (k : LinkState) (mode : Bool) :
    { k with silent := mode }.kick = { k.kick with silent := mode } := by
  unfold LinkState.kick LinkState.readyReply
  dsimp only
  repeat' split
  all_goals simp_all

/-- A ready reply goes before the notices. -/
theorem LinkState.kick_lost_replying {k : LinkState} {tag kind : Nat} {a : Answer} (ready : k.slot = .inFlight tag kind (.ready a)) :
    k.kick.lost = k.lost := by
  unfold LinkState.kick
  repeat' split
  all_goals simp_all [LinkState.readyReply]

theorem Muted.kick_lost {k j : LinkState} (h : Muted k j) : j.kick.lostStands k.kick.lost := by
  obtain ⟨⟨-, silent, slot⟩, rest⟩ := h
  generalize e : k.slot = x, e' : j.slot = y at slot
  cases slot with
  | works =>
    rw [e', silent, ← e] at rest
    rw [rest, LinkState.kick_mode]
    exact .inl rfl
  | replied =>
    have lost : j.lost = k.lost := by rw [rest]
    rw [LinkState.kick_lost_replying e, ← lost]
    exact j.kick_lost

/-- R172: a request at work goes on, and a reply is dropped. -/
theorem Hushed.ends {k j : LinkState} (h : Hushed k j) :
    (∀ tag kind, k.slot = .inFlight tag kind .working → j.slot = .inFlight tag kind .working) ∧
      ∀ tag kind a, k.slot = .inFlight tag kind (.ready a) → j.slot = .free := by
  obtain ⟨-, -, slot⟩ := h
  generalize k.slot = x, j.slot = y at slot
  cases slot <;> simp

theorem Beside.keeps_muted {l : Link} {s t : State} (h : Beside (OnlyAt l Muted) s t) : s.settle.keeps t.settle [] := by
  intro p _
  cases p with
  | notices =>
    intro m
    obtain ⟨here, other⟩ := h.link m
    simp only [State.settle_link, LinkState.kick_queue, LinkState.kick_number]
    by_cases same : m = l
    · have muted := here same
      exact ⟨by rw [muted.rest], by rw [muted.rest], muted.kick_lost⟩
    · rw [other same]
      exact ⟨rfl, rfl, .inl rfl⟩
  | settings =>
    intro m
    obtain ⟨here, other⟩ := h.link m
    simp only [State.settle_link, LinkState.kick_receiver, LinkState.kick_mask, LinkState.kick_discards,
      LinkState.kick_busy]
    by_cases same : m = l
    · rw [(here same).rest]
      exact ⟨rfl, rfl, rfl, rfl⟩
    · rw [other same]
      exact ⟨rfl, rfl, rfl, rfl⟩
  | _ => exact h.keeps_settled _ (by simp)

/-- A request handed on is taken whatever its link's receiver does. -/
theorem takeRequest_handed {s : State} {v : Via} {kind tag kd : Nat} {i : Instr} (h : State → Taken)
    (handed : (s.link v.link).slot = .inFlight tag kd (.handed i)) :
    s.takeRequest v kind i h = (s.putLink v.link ((s.link v.link).takeUp tag kd)).handle v.link h := by
  simp [State.takeRequest, handed]

/-- A link with its receiver and slot as given, in reply mode SEND. -/
def LinkState.anew (k : LinkState) (receiver : Receiver) (slot : Slot) : LinkState :=
  { k with slot := slot, silent := false, receiver := receiver }

/-- The same command on its link with the slot FREE. -/
theorem exec_anew {i : Instr} {v : Via} {kind : Nat} {s : State} {r : Receiver} (k : LinkState)
    (request : Instr.asRequest i = some (v, kind)) (powered : s.resetLow = false) (may : permitted v.link kind = true)
    (listening : r ≠ .inBreak) : exec i (s.putLink v.link (k.anew r .free)) =
      .next ((s.putLink v.link (k.anew r (.inFlight v.tag kind .working))).handle v.link (handlerOf i)).settle := by
  have ready : Ready (s.putLink v.link (k.anew r .free)) v kind :=
    ⟨powered, by simpa [LinkState.anew] using listening, by simp [LinkState.anew], may⟩
  have taken : (s.putLink v.link (k.anew r .free)).taken v kind =
      s.putLink v.link (k.anew r (.inFlight v.tag kind .working)) := by
    simp only [State.taken, State.putLink_link_self]
    cases v with | mk l tag => cases l <;> rfl
  rw [exec_eq_request request, request_ready v kind i _ _ ready, taken]

theorem LinkState.alike_self (k : LinkState) : k.alike k := ⟨rfl, rfl, rfl, rfl, rfl, rfl, rfl, rfl, .inl rfl⟩

theorem State.keeps_self (s : State) : s.keeps s [] := by
  intro p _
  cases p with
  | notices => exact fun l => ⟨rfl, rfl, .inl rfl⟩
  | settings => exact fun l => ⟨rfl, rfl, rfl, rfl⟩
  | outputs => exact fun i => ⟨rfl, rfl, rfl, rfl⟩
  | _ => rfl

theorem Beside.ofLink {P : LinkState → LinkState → Prop} (borne : Borne P) (s : State) (l : Link) {k j : LinkState}
    (rel : P k j) : Beside (OnlyAt l P) (s.putLink l k) (s.putLink l j) := by
  refine ⟨fun m k j rel time n => rel.map fun k j h => borne.hears k j h time n, rfl, fun m => ?_⟩
  by_cases same : l = m
  · subst same
    simpa only [State.putLink_link_self] using ⟨fun _ => rel, fun other => absurd rfl other⟩
  · simpa only [State.putLink_link_ne _ _ _ _ same] using ⟨fun here => absurd here.symm same, fun _ => rfl⟩

end Sys2Proof.Machine

section
open Sys2Proof.Machine

/-- Settles O10: the request is followed on the link as it stands and on the link made free. -/
theorem handedRequestHasItsEffect : Obligations.HandedRequestHasItsEffect := by
  intro i v kind s request powered handed may
  have outcome := (exec_eq_request request s).trans (request_powered powered)
  rw [takeRequest_handed _ handed] at outcome
  let works := Slot.inFlight v.tag kind .working
  let k := s.link v.link
  refine ⟨fun listening => ?outside, fun broken silent => ?inside⟩
  case outside =>
    have free := exec_anew k request powered may listening
    by_cases silent : k.silent = true
    · have start : Muted (k.anew k.receiver works) (k.takeUp v.tag kind) := ⟨⟨rfl, silent, .works ..⟩, rfl⟩
      have both := Beside.handleRequest request Muted.borne Muted.borne (fun _ _ _ => Muted.emptyQueue) (fun _ => rfl)
        (Beside.ofLink Muted.borne s v.link start)
      refine ⟨_, _, outcome, free, both.keeps_muted, fun send => absurd send (by simp [k, silent]), fun _ => ?_⟩
      simpa only [State.settle_link, LinkState.kick_slot] using ((both.link v.link).1 rfl).ends
    · have same : k.anew k.receiver works = k.takeUp v.tag kind := by
        rw [LinkState.anew, ← Bool.eq_false_iff.2 silent]
        rfl
      rw [same] at free
      exact ⟨_, _, outcome, free, State.keeps_self _, fun _ => rfl, fun hushed => absurd hushed silent⟩
  case inside =>
    let queue := if kind = 0x1C then [] else k.queue
    have free := exec_anew (r := .hunting) k request powered may (by simp)
    have start : PassedBy k k.queue (k.anew .hunting works) (k.takeUp v.tag kind) :=
      ⟨⟨rfl, silent, .works ..⟩, broken, rfl, rfl, rfl, rfl, rfl⟩
    have both := Beside.handleRequest request (PassedBy.borne k k.queue) (PassedBy.borne k queue)
      (fun reset _ _ h => by simpa only [queue, if_pos reset] using h.emptyQueue) (fun other => by simp only [queue, if_neg other])
      (Beside.ofLink (PassedBy.borne k k.queue) s v.link start)
    have passed := (both.link v.link).1 rfl
    refine ⟨_, _, outcome, free, both.keeps_settled, fun m other => ?_, ?_⟩
    · have same := (both.link m).2 other
      rw [State.settle_link, State.settle_link, same]
      exact LinkState.alike_self _
    · simp only [State.settle_link, LinkState.kick_slot, LinkState.kick_receiver, LinkState.kick_mask,
        LinkState.kick_discards, LinkState.kick_busy, LinkState.kick_number, LinkState.kick_queue]
      exact ⟨passed.ends, passed.receiver, passed.mask, passed.discards, passed.busy, passed.number, passed.queue⟩

end

end

