-- ==== Sys2Proof/Proofs/Onward.lean ====
section
/-! PROOF. What notices and a request's completion make of a link (R167, R172, R174, R175). -/

namespace Sys2Proof.Machine

/-! ### What a link's notices and its request's completion make of it -/

/-- The reply mode and transmitter of `m` are those of `k`; its slot was freed only of a silent request; a lost mark
stands, and is new only where 16 notices are queued. -/
structure Onward (k m : LinkState) : Prop where
  breaks : m.receiver = .inBreak → k.receiver = .inBreak
  silent : m.silent = k.silent
  free : k.slot = .free → m.slot = .free
  freed : m.slot = .free → k.slot = .free ∨ k.silent = true
  tx : m.tx = k.tx
  grows : k.queue.length ≤ m.queue.length
  lost : k.lost = true → m.lost = true
  full : m.lost = true → k.lost = true ∨ 16 ≤ m.queue.length

namespace Onward

variable {k m j : LinkState}

theorem refl (k : LinkState) : Onward k k := ⟨id, rfl, id, .inl, rfl, le_rfl, id, .inl⟩

theorem trans (a : Onward k m) (b : Onward m j) : Onward k j where
  breaks := a.breaks ∘ b.breaks
  silent := b.silent.trans a.silent
  free := b.free ∘ a.free
  freed e := (b.freed e).elim a.freed fun silent => .inr (a.silent ▸ silent)
  tx := b.tx.trans a.tx
  grows := a.grows.trans b.grows
  lost := b.lost ∘ a.lost
  full e := (b.full e).elim (fun lost => (a.full lost).imp_right fun full => full.trans b.grows) .inr

/-- What is written of a link apart from its request, its transmitter and its notices. -/
theorem of_same (breaks : m.receiver = .inBreak → k.receiver = .inBreak) (slot : m.slot = k.slot)
    (silent : m.silent = k.silent) (tx : m.tx = k.tx) (queue : m.queue = k.queue) (lost : m.lost = k.lost) :
    Onward k m :=
  ⟨breaks, silent, fun e => slot.trans e, fun e => .inl (slot.symm.trans e), tx, by rw [queue], fun e => lost.trans e,
    fun e => .inl (lost.symm.trans e)⟩

theorem offer (k : LinkState) (time : Word) (n : Notice) : Onward k (k.offer time n) := by
  unfold LinkState.offer
  split_ifs with broken masked room
  · exact .refl k
  · exact .refl k
  · exact ⟨id, rfl, id, .inl, rfl, by simp, id, .inl⟩
  · exact ⟨id, rfl, id, .inl, rfl, le_rfl, fun _ => rfl, fun _ => .inr (Nat.le_of_not_lt room)⟩

theorem complete (k : LinkState) (a : Answer) : Onward k (k.complete a) := by
  unfold LinkState.complete
  split
  next slot =>
    split_ifs with silent
    · exact ⟨id, rfl, fun free => absurd (slot.symm.trans free) (by simp), fun _ => .inr silent, rfl, le_rfl, id, .inl⟩
    · exact ⟨id, rfl, fun free => absurd (slot.symm.trans free) (by simp), fun free => (by cases free), rfl, le_rfl, id,
        .inl⟩
  · exact .refl k

end Onward

/-- Every link of `t` has gone on from that of `s`. -/
def Onwards (s t : State) : Prop := ∀ l, Onward (s.link l) (t.link l)

namespace Onwards

variable {s t u : State}

theorem refl (s : State) : Onwards s s := fun _ => .refl _

theorem trans (a : Onwards s t) (b : Onwards t u) : Onwards s u := fun l => (a l).trans (b l)

theorem of_links (same : t.links = s.links) : Onwards s t := fun l => by
  rw [State.link, State.link, same]
  exact .refl _

theorem raise (h : Onwards s t) (n : Notice) : Onwards s (t.raise n) := fun l => by
  rw [State.raise_link]
  exact (h l).trans (.offer _ _ _)

theorem raiseAll (h : Onwards s t) (ns : List Notice) : Onwards s (t.raiseAll ns) := by
  induction ns generalizing t with
  | nil => exact h
  | cons n ns ih => exact ih (h.raise n)

theorem putLink (s : State) {l : Link} {k : LinkState} (h : Onward (s.link l) k) : Onwards s (s.putLink l k) := fun m => by
  by_cases same : l = m
  · subst same
    rwa [State.putLink_link_self]
  · rw [State.putLink_link_ne _ _ _ _ same]
    exact .refl _

theorem answer (h : Onwards s t) (l : Link) (a : Answer) : Onwards s (t.answer l a) :=
  h.trans (putLink t (.complete _ a))

/-- The diagonal of `Beside`: what an operation does to a link it does by notices alone. -/
def OnwardFrom (s : State) (l : Link) (k j : LinkState) : Prop := j = k ∧ Onward (s.link l) k

theorem beside (s : State) : Beside (OnwardFrom s) s s :=
  ⟨fun _ k j ⟨same, on⟩ time n => ⟨by rw [same], on.trans (.offer k time n)⟩, rfl, fun l => ⟨rfl, .refl _⟩⟩

theorem of_beside (h : Beside (OnwardFrom s) t u) : Onwards s t := fun l => (h.link l).2

end Onwards
end Sys2Proof.Machine

end

