-- ==== Sys2Proof/Proofs/OnwardEvents.lean ====
section
/-! PROOF. Every event outside the Link Interface reaches the links by notices and replies alone. -/

namespace Sys2Proof.Machine

/-! ### Every event's effect but the Link Interface's own -/

section Events

variable (s : State)

theorem State.rematchIf_onwards (b : Bool) : Onwards s (s.rematchIf b) := .of_beside ((Onwards.beside s).rematchIf b)

theorem State.setLine_onwards (x : LineState) : Onwards s (s.setLine x) := .of_beside ((Onwards.beside s).setLine x)

theorem State.passStart_onwards : Onwards s s.passStart := by
  unfold State.passStart
  repeat' split
  all_goals exact .refl s

theorem State.passEnd_onwards : Onwards s s.passEnd := by
  unfold State.passEnd
  split
  next pass h rest _ _ =>
    split
    · exact .refl s
    · dsimp only
      split
      · exact .refl s
      · refine .trans ?_ (State.rematchIf_onwards _ _)
        exact Onwards.raise (.of_links rfl) _
  · exact .refl s

theorem State.deliver_onwards (g : Granted) : Onwards s (s.deliver g) := by
  unfold State.deliver State.deliverPull State.deliverEngine State.deliverVerify State.deliverWrite
  repeat' split
  all_goals exact .refl s

theorem State.burstComplete_onwards : Onwards s s.burstComplete := by
  unfold State.burstComplete
  split
  · exact .refl s
  next g _ =>
    dsimp only
    split
    · refine .trans ?_ (State.deliver_onwards _ g)
      split <;> exact .of_links rfl
    · split <;> exact .of_links rfl

theorem State.swathUnitBegin_onwards : Onwards s s.swathUnitBegin := by
  unfold State.swathUnitBegin
  split
  · exact .refl s
  · exact .refl s

theorem State.handSwath_onwards (u : RasterUnit) (phase : SwathPhase) (index : Nat) (slot : Fin 4) :
    Onwards s (s.handSwath u phase index slot) := by
  unfold State.handSwath
  dsimp only
  repeat' split
  all_goals exact .refl s

theorem State.swathUnitEnd_onwards : Onwards s s.swathUnitEnd := by
  unfold State.swathUnitEnd
  split
  · exact .refl s
  · split
    · exact .refl s
    · split_ifs
      · exact .refl s
      · exact .refl s
      · exact s.handSwath_onwards _ _ _ _

theorem State.bandUnitBegin_onwards : Onwards s s.bandUnitBegin := by
  unfold State.bandUnitBegin
  repeat' split
  all_goals exact .refl s

theorem State.handBand_onwards (u : RasterUnit) (band : Nat) : Onwards s (s.handBand u band) := by
  unfold State.handBand
  split
  · exact .refl s
  · split
    · exact .refl s
    · dsimp only
      split <;> exact .refl s

theorem State.bandUnitEnd_onwards : Onwards s s.bandUnitEnd := by
  unfold State.bandUnitEnd
  split
  · exact .refl s
  · split
    · exact .refl s
    · split_ifs
      · exact .refl s
      · exact .refl s
      · exact s.handBand_onwards _ _

theorem State.sessionOpen_onwards : Onwards s s.sessionOpen := by
  unfold State.sessionOpen
  split
  · split
    · exact .refl s
    · exact Onwards.raise (.refl s) _
  · exact .refl s

theorem State.staleExpiry_onwards : Onwards s s.staleExpiry := by
  unfold State.staleExpiry
  split
  · dsimp only
    split
    · exact .refl s
    · split
      · exact Onwards.raise (.refl s) _
      · exact .refl s
  · exact .refl s

/-! ### Spray and press -/

theorem State.sprayStart_onwards : Onwards s s.sprayStart := by
  unfold State.sprayStart
  split
  · exact .refl s
  · split_ifs
    · exact .refl s
    · exact Onwards.raise (.refl s) _
    · exact .refl s

theorem State.bandStrobe_onwards : Onwards s s.bandStrobe := by
  unfold State.bandStrobe
  repeat' split
  all_goals exact .refl s

theorem State.finishSpray_onwards : Onwards s s.finishSpray := by
  unfold State.finishSpray
  split
  · exact Onwards.raise (.refl s) _
  · exact .refl s

theorem State.interruptSpray_onwards : Onwards s s.interruptSpray := by
  unfold State.interruptSpray
  split
  · exact Onwards.raise (.refl s) _
  · exact .refl s

theorem State.valveClose_onwards (z : Fin 8) : Onwards s (s.valveClose z) := by
  unfold State.valveClose
  split
  · dsimp only
    split <;> exact .refl s
  · exact .refl s

theorem State.pulseReload_onwards (z : Fin 8) : Onwards s (s.pulseReload z) := by
  unfold State.pulseReload
  split
  · dsimp only
    split <;> exact .refl s
  · exact .refl s

theorem State.channelExhausted_onwards (z : Fin 8) : Onwards s (s.channelExhausted z) := by
  unfold State.channelExhausted
  split
  · exact .refl s
  · dsimp only
    split <;> exact .refl s

theorem State.pressStart_onwards : Onwards s s.pressStart := by
  unfold State.pressStart
  split
  · exact .refl s
  · split <;> exact .refl s

theorem State.pressClosed_onwards : Onwards s s.pressClosed := by
  unfold State.pressClosed
  dsimp only
  split <;> exact .refl s

theorem State.dwellExpiry_onwards : Onwards s s.dwellExpiry := by
  unfold State.dwellExpiry
  split <;> exact .refl s

theorem State.setPressRecord_onwards (r : PressRecord) : Onwards s (s.setPressRecord r) := by
  unfold State.setPressRecord
  split <;> exact .refl s

theorem State.pressOpened_onwards : Onwards s s.pressOpened := by
  have recorded (t : State) : Onwards t ((t.setPressRecord .done).setPress .idle) := t.setPressRecord_onwards .done
  unfold State.pressOpened
  dsimp only
  split
  · refine .trans ?_ (recorded _)
    exact .of_links rfl
  · refine .trans ?_ (recorded _)
    exact .of_links rfl
  · exact .refl s

theorem State.pressFaulted_onwards (c : PressCause) : Onwards s (s.pressFaulted c) := by
  unfold State.pressFaulted
  dsimp only
  split
  · exact .refl s
  · exact Onwards.raise (.refl s) _

theorem State.closeTimeout_onwards : Onwards s s.closeTimeout := by
  unfold State.closeTimeout
  split
  · exact s.pressFaulted_onwards _
  · exact .refl s

theorem State.openTimeout_onwards : Onwards s s.openTimeout := by
  unfold State.openTimeout
  split
  · exact (s.setPressRecord_onwards _).trans (State.pressFaulted_onwards _ _)
  · exact .refl s

theorem State.interruptPress_onwards : Onwards s s.interruptPress := by
  unfold State.interruptPress
  split
  · exact s.setPressRecord_onwards _
  · exact s.setPressRecord_onwards _
  · exact .refl s

/-! ### The track -/

theorem State.moveStart_onwards (g : Segment) : Onwards s (s.moveStart g) := by
  unfold State.moveStart
  split
  · split <;> exact .refl s
  · split <;> exact .refl s

theorem State.endMove_onwards (g : Segment) (p : Fin 16) : Onwards s (s.endMove g p) := by
  refine .of_beside (u := s.endMove g p) ?_
  cases g with
  | exit n => exact (((((Onwards.beside s).joinLane n p).vacate n p).putSeg _ _).platenMoved p _)
  | entry n => exact ((((Onwards.beside s).placeAt _ p).putSeg _ _).platenMoved p _)

theorem State.arrive_onwards (g : Segment) : Onwards s (s.arrive g) := by
  unfold State.arrive
  split
  · exact .refl s
  · exact s.endMove_onwards _ _
  · exact Onwards.raise (.of_beside ((Onwards.beside s).putSeg _ _)) _

theorem State.stopLine_onwards : Onwards s s.stopLine := by
  unfold State.stopLine
  split
  · exact s.setLine_onwards _
  · exact .refl s

theorem State.moveTimeout_onwards (g : Segment) : Onwards s (s.moveTimeout g) := by
  unfold State.moveTimeout
  split
  · split
    · exact (Onwards.raise (.of_beside ((Onwards.beside s).jamSeg _ _ _)) _).trans (State.stopLine_onwards _)
    · exact .refl s
  · exact .refl s

theorem State.stopTrack_onwards : Onwards s s.stopTrack := by
  unfold State.stopTrack
  dsimp only
  refine Onwards.raise (Onwards.raiseAll ?_ _) _
  exact .of_beside ((((Onwards.beside s).jamAll _ _).setInputs _).setTrack _)

theorem State.emergencyStop_onwards : Onwards s s.emergencyStop := by
  unfold State.emergencyStop
  split
  · exact .refl s
  · exact (s.stopTrack_onwards.trans (State.interruptSpray_onwards _)).trans (State.interruptPress_onwards _)

theorem State.emergencyRelease_onwards : Onwards s s.emergencyRelease := by
  unfold State.emergencyRelease
  split
  · exact Onwards.raise (.refl s) _
  · exact .refl s

/-! ### Requests completed -/

theorem State.artWriteComplete_onwards : Onwards s s.artWriteComplete := by
  unfold State.artWriteComplete
  split
  · exact Onwards.answer (.refl s) _ _
  · exact .refl s

theorem State.pullComplete_onwards : Onwards s s.pullComplete := by
  unfold State.pullComplete
  split
  · exact .refl s
  · split
    · exact .refl s
    · exact Onwards.answer (.refl s) _ _

theorem State.completeLineReset_onwards : Onwards s s.completeLineReset := by
  unfold State.completeLineReset
  split
  · exact .refl s
  · split
    · exact .refl s
    · exact Onwards.answer (.refl s) _ _

end Events
end Sys2Proof.Machine

end

