-- ==== Sys2Proof/Proofs/CarriedLinks.lean ====
section
/-! PROOF. What each command makes of a link before the step's end (R165, R167, R169, R171, R172). -/

namespace Sys2Proof.Machine

/-! ### Where a request's work on its link starts -/

/-- A link as the taking of a request finds and leaves it: the slot taken up, in reply mode SEND where it was FREE. -/
structure TakenUp (k k₁ : LinkState) : Prop where
  rest : k₁ = { k with slot := k₁.slot, silent := k₁.silent }
  works : k₁.slot ≠ .free
  arrives : k.slot = .free → k₁.silent = false
  stays : k.slot ≠ .free → k₁.silent = k.silent

/-- What a command makes of the reply mode of a link (R167, R172). -/
def Modes (k m : LinkState) : Prop :=
  (k.slot ≠ .free ∨ m.slot = .free → m.silent = k.silent) ∧ (k.slot = .free → m.slot ≠ .free → m.silent = false)

section Modes

variable {k k₁ m : LinkState}

theorem Onward.modes (h : Onward k m) : Modes k m := ⟨fun _ => h.silent, fun free taken => absurd (h.free free) taken⟩

theorem TakenUp.modes (up : TakenUp k k₁) (on : Onward k₁ m) : Modes k m := by
  have slot : k.slot = .free → m.slot ≠ .free := fun free gone =>
    (on.freed gone).elim up.works fun silent => by simp [up.arrives free] at silent
  refine ⟨fun either => ?_, fun free _ => on.silent.trans (up.arrives free)⟩
  by_cases free : k.slot = .free
  · exact either.elim (absurd free) (absurd · (slot free))
  · exact on.silent.trans (up.stays free)

end Modes

/-- What a command makes of a link before the step's end, apart from the link's own break: `resets` where it is a line
reset that is taken, `sent` where it ends the frame being sent. -/
structure Carried (resets sent : Prop) (k m : LinkState) : Prop where
  breaks : m.receiver = .inBreak → k.receiver = .inBreak
  modes : Modes k m
  flushed : resets → m.tx = k.emptyQueue.tx
  sends : ¬resets → ¬sent → m.tx = k.tx
  ended : sent → m.tx = .idle
  cleared : resets → m.lost = false
  stands : ¬resets → k.lost = true → m.lost = true
  full : m.lost = true → k.lost = true ∨ (¬sent ∧ 16 ≤ m.queue.length)

section Carried

variable {resets sent : Prop} {k k₁ a m : LinkState}

theorem Onward.carried (h : Onward k m) (noReset : ¬resets) (notSent : ¬sent) : Carried resets sent k m :=
  ⟨h.breaks, h.modes, fun yes => absurd yes noReset, fun _ _ => h.tx, fun yes => absurd yes notSent,
    fun yes => absurd yes noReset, fun _ => h.lost, fun lost => (h.full lost).imp_right fun full => ⟨notSent, full⟩⟩

theorem TakenUp.carried (up : TakenUp k k₁) (on : Onward k₁ m) (noReset : ¬resets) (notSent : ¬sent) :
    Carried resets sent k m := by
  obtain ⟨breaks, -, -, -, tx, -, lost, full⟩ := id on
  rw [up.rest] at breaks tx lost full
  exact ⟨breaks, up.modes on, fun yes => absurd yes noReset, fun _ _ => tx, fun yes => absurd yes notSent,
    fun yes => absurd yes noReset, fun _ => lost, fun yes => (full yes).imp_right fun full => ⟨notSent, full⟩⟩

theorem LinkState.emptyQueue_tx_eq (same : a.tx = k.tx) : a.emptyQueue.tx = k.emptyQueue.tx := by
  simp only [LinkState.emptyQueue, same]

/-- R171 step 1: the queue is emptied, and then has room for the reset's own notices. -/
theorem Carried.of_reset (breaks : a.receiver = .inBreak → k.receiver = .inBreak) (modes : Modes k a) (tx : a.tx = k.tx)
    (yes : resets) (notSent : ¬sent) (time : Word) (ns : List Notice) (room : ns.length ≤ 16) :
    Carried resets sent k (a.emptyQueue.offerAll time ns) := by
  have lost : (a.emptyQueue.offerAll time ns).lost = false := by
    rw [(LinkState.offerAll_room time ns a.emptyQueue (by simpa [LinkState.emptyQueue] using room)).2.2]
    rfl
  have kept {α : Type} (f : LinkState → α) (one : ∀ k n, f (LinkState.offer time n k) = f k) :=
    LinkState.offerAll_keeps a.emptyQueue time f one ns
  refine ⟨fun broken => ?_, ?_, fun _ => ?_, fun no => absurd yes no, fun ended => absurd ended notSent, fun _ => lost,
    fun no => absurd yes no, fun isLost => by simp [lost] at isLost⟩
  · rw [LinkState.offerAll_receiver] at broken
    exact breaks broken
  · rw [Modes, LinkState.offerAll_slot, kept LinkState.silent fun k n => k.offer_silent time n]
    exact modes
  · rw [kept LinkState.tx fun k n => k.offer_tx time n]
    exact LinkState.emptyQueue_tx_eq tx

end Carried

/-- A line reset that the link of its command takes. -/
def Resets (i : Instr) (s : State) : Prop :=
  ∃ v, i = .lineReset v ∧ (Ready s v 0x1C ∨ ∃ tag kind, (s.link v.link).slot = .inFlight tag kind (.handed i))

/-! ### Requests -/

section Requests

variable {s : State} {i : Instr} {v : Via} {kind : Nat} {l : Link} {k₁ : LinkState}

theorem resets_of_not_lineReset (request : Instr.asRequest i = some (v, kind)) (other : kind ≠ 0x1C) : ¬Resets i s := by
  rintro ⟨w, rfl, -⟩
  cases request
  exact other rfl

theorem State.handle_onwards (request : Instr.asRequest i = some (v, kind)) (other : kind ≠ 0x1C) :
    Onwards s (s.handle v.link (handlerOf i)) := by
  have completed (h : Onwards s (handlerOf i s).1) : Onwards s (s.handle v.link (handlerOf i)) := by
    unfold State.handle
    split
    next e => rwa [e] at h
    next e =>
      rw [e] at h
      exact h.answer _ _
  refine completed ?_
  by_cases read : kind = 0x20
  · subst read
    cases i
    all_goals cases request
    rw [handlerOf, State.readRecord_fst]
    exact .refl s
  by_cases mask : kind = 0x1F
  · subst mask
    cases i
    all_goals cases request
    exact Onwards.putLink s (.of_same id rfl rfl rfl rfl rfl)
  exact .of_beside ((Onwards.beside s).handlerOf request read other mask).state

theorem State.pullAnswered_onwards : Onwards s s.pullAnswered := by
  unfold State.pullAnswered
  split
  · exact .refl s
  · exact (Onwards.refl s).answer _ _

/-- R171: every link answers a cut pull, is emptied, and hears the reset's notices. -/
theorem State.lineReset_link (s : State) (l m : Link) : (s.handle m (State.takeLineReset m)).link l =
    (s.pullAnswered.link l).emptyQueue.offerAll s.cleared.clock.time s.resetNotices := by
  have begun : s.handle m (State.takeLineReset m) = s.clearLine.setLineReset (some m) := State.handle_begun rfl
  rw [begun, State.setLineReset_link, State.clearLine_eq, State.raiseAll_link, State.cleared_link]

/-- A request taken up goes on to its block's effect on every link. -/
theorem handle_carried {sent : Prop} (request : Instr.asRequest i = some (v, kind)) (up : TakenUp (s.link v.link) k₁)
    (taken : Ready s v kind ∨ ∃ tag kd, (s.link v.link).slot = .inFlight tag kd (.handed i)) (notSent : ¬sent) :
    Carried (Resets i s) sent (s.link l) (((s.putLink v.link k₁).handle v.link (handlerOf i)).link l) := by
  by_cases reset : kind = 0x1C
  · subst reset
    cases i
    all_goals cases request
    have resets : Resets (.lineReset v) s := ⟨v, rfl, taken⟩
    rw [handlerOf, State.lineReset_link]
    have on := State.pullAnswered_onwards (s := s.putLink v.link k₁) l
    have room := (s.putLink v.link k₁).resetNotices_length
    by_cases same : v.link = l
    · subst same
      rw [State.putLink_link_self] at on
      have receiver : k₁.receiver = (s.link v.link).receiver := by rw [up.rest]
      have tx : k₁.tx = (s.link v.link).tx := by rw [up.rest]
      exact .of_reset (fun broken => receiver ▸ on.breaks broken) (up.modes on) (on.tx.trans tx) resets notSent _ _ room
    · rw [State.putLink_link_ne _ _ _ _ same] at on
      exact .of_reset on.breaks on.modes on.tx resets notSent _ _ room
  · have on := State.handle_onwards (s := s.putLink v.link k₁) request reset l
    have noReset := resets_of_not_lineReset (s := s) request reset
    by_cases same : v.link = l
    · subst same
      rw [State.putLink_link_self] at on
      exact up.carried on noReset notSent
    · rw [State.putLink_link_ne _ _ _ _ same] at on
      exact on.carried noReset notSent

theorem Onwards.carried {t : State} (h : Onwards s t) {resets sent : Prop} (noReset : ¬resets) (notSent : ¬sent) (l : Link) :
    Carried resets sent (s.link l) (t.link l) := (h l).carried noReset notSent

theorem LinkState.refuseBusy_onward (k : LinkState) (tag kind : Nat) : Onward k (k.refuseBusy tag kind) := by
  unfold LinkState.refuseBusy
  split <;> exact .of_same id rfl rfl rfl rfl rfl

theorem LinkState.answerAtOnce_takenUp {k : LinkState} (free : k.slot = .free) (tag kind : Nat) (c : ResultCode) :
    TakenUp k (k.answerAtOnce tag kind c) := ⟨rfl, by simp [LinkState.answerAtOnce], fun _ => rfl, fun no => absurd free no⟩

/-- A link rewritten as the taking of a request would, and nothing else. -/
theorem TakenUp.putLink_carried {resets sent : Prop} (up : TakenUp (s.link v.link) k₁) (noReset : ¬resets)
    (notSent : ¬sent) (l : Link) : Carried resets sent (s.link l) ((s.putLink v.link k₁).link l) := by
  by_cases same : v.link = l
  · subst same
    rw [State.putLink_link_self]
    exact up.carried (.refl _) noReset notSent
  · rw [State.putLink_link_ne _ _ _ _ same]
    exact (Onward.refl _).carried noReset notSent

theorem takeRequest_carried {sent : Prop} (request : Instr.asRequest i = some (v, kind)) (powered : s.resetLow = false)
    (notSent : ¬sent) :
    Carried (Resets i s) sent (s.link l) ((s.takeRequest v kind i (handlerOf i)).link l) := by
  by_cases handed : ∃ tag kd, (s.link v.link).slot = .inFlight tag kd (.handed i)
  · obtain ⟨tag, kd, slot⟩ := handed
    rw [takeRequest_handed _ slot]
    exact handle_carried request ⟨rfl, by simp [LinkState.takeUp], fun free => by simp [slot] at free, fun _ => rfl⟩
      (.inr ⟨tag, kd, slot⟩) notSent
  have other tag kd : (s.link v.link).slot ≠ .inFlight tag kd (.handed i) := fun slot => handed ⟨tag, kd, slot⟩
  by_cases ready : Ready s v kind
  · obtain ⟨-, listening, free, may⟩ := id ready
    have taking : s.takeRequest v kind i (handlerOf i) = (s.taken v kind).handle v.link (handlerOf i) := by
      simp [State.takeRequest, free, listening, may]
    rw [taking]
    exact handle_carried request ⟨rfl, by simp [LinkState.takeUp], fun _ => rfl, fun no => absurd free no⟩ (.inl ready) notSent
  have noReset : ¬Resets i s := by
    rintro ⟨w, rfl, taken⟩
    cases request
    exact taken.elim ready handed
  by_cases broken : (s.link v.link).receiver = .inBreak
  · rw [takeRequest_inBreak broken other]
    exact (Onward.refl _).carried noReset notSent
  by_cases free : (s.link v.link).slot = .free
  · have denied : permitted v.link kind = false := by
      by_contra may
      exact ready ⟨powered, broken, free, by simpa using may⟩
    rw [takeRequest_denied broken free denied]
    exact (LinkState.answerAtOnce_takenUp free _ _ _).putLink_carried noReset notSent l
  · rw [takeRequest_busy broken free other]
    exact (Onwards.putLink s (LinkState.refuseBusy_onward _ _ _)).carried noReset notSent l

end Requests

/-! ### Frames received and sent -/

section Frames

variable {resets sent : Prop} {k : LinkState}

theorem LinkState.receiveRequest_carried (l : Link) (h : FrameHeader) (payload : List Byte) (noReset : ¬resets)
    (notSent : ¬sent) : Carried resets sent k (k.receiveRequest l h payload) := by
  unfold LinkState.receiveRequest
  split
  · exact (LinkState.refuseBusy_onward k _ _).carried noReset notSent
  next free =>
    have answered (c : ResultCode) : Carried resets sent k (k.answerAtOnce h.tag h.kind c) :=
      (LinkState.answerAtOnce_takenUp free _ _ c).carried (.refl _) noReset notSent
    split
    · exact answered _
    · split
      · exact answered _
      · split
        · exact answered _
        · exact TakenUp.carried ⟨rfl, by simp, fun _ => rfl, fun no => absurd free no⟩ (.refl _) noReset notSent

theorem LinkState.receiveFrame_carried (l : Link) (h : FrameHeader) (bytes : List Byte) (noReset : ¬resets)
    (notSent : ¬sent) : Carried resets sent k (k.receiveFrame l h bytes) := by
  unfold LinkState.receiveFrame
  dsimp only
  split
  · exact LinkState.receiveRequest_carried l h _ noReset notSent
  · exact (Onward.of_same (k := k) (m := k.discard) id rfl rfl rfl rfl rfl).carried noReset notSent

/-- A receiver at work on a frame is not in BREAK, and does not come to it. -/
theorem Carried.of_hunting {m : LinkState} (h : Carried resets sent { k with receiver := .hunting } m) :
    Carried resets sent k m :=
  ⟨fun broken => (by cases h.breaks broken), h.modes, h.flushed, h.sends, h.ended, h.cleared, h.stands, h.full⟩

theorem LinkState.receive_carried (l : Link) (bytes : List Byte) (noReset : ¬resets) (notSent : ¬sent) :
    Carried resets sent k (k.receive l bytes) := by
  unfold LinkState.receive
  split
  next buffer _ =>
    have kept (r : Receiver) (d : Nat) (listens : r ≠ .inBreak) :
        Carried resets sent k { k with receiver := r, discards := d } :=
      (Onward.of_same (k := k) (m := { k with receiver := r, discards := d }) (fun broken => absurd broken listens) rfl rfl rfl
        rfl rfl).carried noReset notSent
    dsimp only
    split
    · exact kept _ _ (by simp)
    · split
      · exact kept _ _ (by simp)
      · split
        · exact kept _ _ (by simp)
        · exact (LinkState.receiveFrame_carried l _ _ noReset notSent).of_hunting
  · exact (Onward.refl k).carried noReset notSent

theorem LinkState.abandon_onward (k : LinkState) (c : AbandonCause) : Onward k (k.abandon c) := by
  unfold LinkState.abandon
  split
  · cases c <;> exact .of_same (fun broken => by cases broken) rfl rfl rfl rfl rfl
  · exact .refl k

theorem LinkState.start_onward (k : LinkState) : Onward k k.start := by
  unfold LinkState.start
  split
  · exact .of_same (fun broken => by cases broken) rfl rfl rfl rfl rfl
  · exact k.abandon_onward _
  · exact .refl k

theorem LinkState.breakEnded_onward (k : LinkState) : Onward k k.breakEnded := by
  unfold LinkState.breakEnded
  split
  · exact .of_same (fun broken => by cases broken) rfl rfl rfl rfl rfl
  · exact .refl k

theorem LinkState.sent_carried (noReset : ¬resets) (isSent : sent) : Carried resets sent k k.sent := by
  have slot : k.slot = .free → k.sent.slot = .free := by
    unfold LinkState.sent
    split <;> simp
  have kept : k.sent.receiver = k.receiver ∧ k.sent.silent = k.silent ∧ k.sent.lost = k.lost ∧ k.sent.tx = .idle := by
    unfold LinkState.sent
    split <;> simp [*]
  obtain ⟨receiver, silent, lost, tx⟩ := kept
  exact ⟨fun broken => receiver ▸ broken, ⟨fun _ => silent, fun free taken => absurd (slot free) taken⟩,
    fun yes => absurd yes noReset, fun _ no => absurd isSent no, fun _ => tx, fun yes => absurd yes noReset,
    fun _ yes => lost.trans yes, fun yes => .inl (lost.symm.trans yes)⟩

end Frames

/-! ### Every command -/

section Commands

variable {s t : State} {i : Instr} {l : Link}

/-- What a command carries to a link, the step's end apart. -/
def Carries (i : Instr) (s t : State) (l : Link) : Prop :=
  ∃ m : State, t = m.settle ∧ Carried (Resets i s) (i = .frameSent l) (s.link l) (m.link l)

theorem resets_of_no_request (none_ : Instr.asRequest i = none) : ¬Resets i s := by
  rintro ⟨w, rfl, -⟩
  cases none_

theorem event_carries {f : State → State} (e : exec i s = .next t) (isEvent : exec i s = event f s)
    (powered : s.resetLow = false) (none_ : Instr.asRequest i = none) (notSent : i ≠ .frameSent l) (on : Onwards s (f s)) :
    Carries i s t l := by
  rw [isEvent, event_powered f s powered] at e
  cases e
  exact ⟨_, rfl, (on l).carried (resets_of_no_request none_) notSent⟩

theorem onLink_carries {f : LinkState → LinkState} {m : Link} (e : exec i s = .next t)
    (isEvent : exec i s = event (fun u => u.onLink m f) s) (powered : s.resetLow = false)
    (none_ : Instr.asRequest i = none) (notSent : m ≠ l → i ≠ .frameSent l)
    (own : m = l → Carried (Resets i s) (i = .frameSent l) (s.link l) (f (s.link l))) : Carries i s t l := by
  rw [event_onLink isEvent powered] at e
  cases e
  refine ⟨_, rfl, ?_⟩
  by_cases same : m = l
  · subst same
    rw [State.putLink_link_self]
    exact own rfl
  · rw [State.putLink_link_ne _ _ _ _ same]
    exact (Onward.refl _).carried (resets_of_no_request none_) (notSent same)

theorem arbiterGrant_carries (e : exec .arbiterGrant s = .next t) (powered : s.resetLow = false) :
    Carries .arbiterGrant s t l := by
  have ended {f : State → State} (links : (f s).links = s.links) (e : event f s = .next t) : Carries .arbiterGrant s t l := by
    rw [event_powered f s powered] at e
    cases e
    exact ⟨_, rfl, (Onwards.of_links links l).carried (resets_of_no_request rfl) (by simp)⟩
  change execArbiterGrant s = _ at e
  unfold execArbiterGrant at e
  split at e
  · rw [powered] at e
    simp only [Bool.false_eq_true, if_false] at e
    split at e
    · cases e
    · exact ended rfl e
  · exact ended rfl e

theorem signal_carries {drive : Inputs → Inputs} {f : State → State} (e : exec i s = .next t)
    (isSignal : exec i s = signal drive f s) (powered : s.resetLow = false) (none_ : Instr.asRequest i = none)
    (notSent : i ≠ .frameSent l) (on : Onwards s (f s)) : Carries i s t l :=
  event_carries e (isSignal.trans (by simp [signal, powered])) powered none_ notSent on

/-- The commands that are no requests. -/
theorem event_command_carries (e : exec i s = .next t) (none_ : Instr.asRequest i = none) (powered : s.resetLow = false)
    (power : i ≠ .powerOnReset) (reset : i ≠ .resetAsserted) (break_ : i ≠ .linkReset l) : Carries i s t l := by
  cases i
  all_goals cases none_
  case powerOnReset => exact absurd rfl power
  case resetAsserted => exact absurd rfl reset
  case arbiterGrant => exact arbiterGrant_carries e powered
  case artWriteComplete => exact event_carries e rfl powered rfl (by simp) s.artWriteComplete_onwards
  case lineResetComplete => exact event_carries e rfl powered rfl (by simp) s.completeLineReset_onwards
  case swathPullComplete => exact event_carries e rfl powered rfl (by simp) s.pullComplete_onwards
  case moveStart g => exact event_carries e rfl powered rfl (by simp) (s.moveStart_onwards g)
  case arrive g => exact event_carries e rfl powered rfl (by simp) (s.arrive_onwards g)
  case moveTimeout g => exact event_carries e rfl powered rfl (by simp) (s.moveTimeout_onwards g)
  case emergencyStopAsserted =>
    exact signal_carries e (State.exec_emergencyStop s) powered rfl (by simp) s.emergencyStop_onwards
  case emergencyStopReleased =>
    exact signal_carries e (State.exec_emergencyRelease s) powered rfl (by simp) s.emergencyRelease_onwards
  case verifyPassStart => exact event_carries e rfl powered rfl (by simp) s.passStart_onwards
  case verifyPassEnd => exact event_carries e rfl powered rfl (by simp) s.passEnd_onwards
  case burstComplete => exact event_carries e rfl powered rfl (by simp) s.burstComplete_onwards
  case swathUnitBegin => exact event_carries e rfl powered rfl (by simp) s.swathUnitBegin_onwards
  case bandUnitBegin => exact event_carries e rfl powered rfl (by simp) s.bandUnitBegin_onwards
  case swathUnitEnd => exact event_carries e rfl powered rfl (by simp) s.swathUnitEnd_onwards
  case bandUnitEnd => exact event_carries e rfl powered rfl (by simp) s.bandUnitEnd_onwards
  case sprayStart => exact event_carries e rfl powered rfl (by simp) s.sprayStart_onwards
  case band => exact event_carries e rfl powered rfl (by simp) s.bandStrobe_onwards
  case sprayEnd => exact event_carries e rfl powered rfl (by simp) s.finishSpray_onwards
  case zoneValveClose z => exact event_carries e rfl powered rfl (by simp) (s.valveClose_onwards z)
  case zonePulseReload z => exact event_carries e rfl powered rfl (by simp) (s.pulseReload_onwards z)
  case zoneChannelExhausted z => exact event_carries e rfl powered rfl (by simp) (s.channelExhausted_onwards z)
  case pressStart => exact event_carries e rfl powered rfl (by simp) s.pressStart_onwards
  case pressClosed => exact signal_carries e (State.exec_pressClosed s) powered rfl (by simp) s.pressClosed_onwards
  case dwellExpiry => exact event_carries e rfl powered rfl (by simp) s.dwellExpiry_onwards
  case pressOpen => exact signal_carries e (State.exec_pressOpen s) powered rfl (by simp) s.pressOpened_onwards
  case closeTimeout => exact event_carries e rfl powered rfl (by simp) s.closeTimeout_onwards
  case openTimeout => exact event_carries e rfl powered rfl (by simp) s.openTimeout_onwards
  case printSessionOpen => exact event_carries e rfl powered rfl (by simp) s.sessionOpen_onwards
  case staleTimerExpiry => exact event_carries e rfl powered rfl (by simp) s.staleExpiry_onwards
  case blinkTimerExpiry o =>
    exact event_carries (f := fun u => u.setIndicators (upd u.indicators o u.indicators[o].expire)) e rfl powered rfl (by simp)
      (.of_links rfl)
  case frameReceived m bytes =>
    exact onLink_carries e rfl powered rfl (by simp) fun _ =>
      LinkState.receive_carried m bytes (resets_of_no_request rfl) (by simp)
  case frameAbandoned m c =>
    exact onLink_carries e rfl powered rfl (by simp) fun _ =>
      (LinkState.abandon_onward _ c).carried (resets_of_no_request rfl) (by simp)
  case frameSent m =>
    exact onLink_carries e rfl powered rfl (by simp) fun same =>
      LinkState.sent_carried (resets_of_no_request rfl) (congrArg _ same)
  case linkReset m => exact onLink_carries e rfl powered rfl (by simp) fun same => absurd (congrArg _ same) break_
  case breakEnd m =>
    exact onLink_carries e rfl powered rfl (by simp) fun _ =>
      (LinkState.breakEnded_onward _).carried (resets_of_no_request rfl) (by simp)
  case startSymbol m =>
    exact onLink_carries e rfl powered rfl (by simp) fun _ =>
      (LinkState.start_onward _).carried (resets_of_no_request rfl) (by simp)

theorem exec_carries (e : exec i s = .next t) (powered : s.resetLow = false) (power : i ≠ .powerOnReset)
    (reset : i ≠ .resetAsserted) (break_ : i ≠ .linkReset l) : Carries i s t l := by
  cases request : Instr.asRequest i with
  | some x =>
    rw [exec_eq_request request, request_powered powered] at e
    cases e
    exact ⟨_, rfl, takeRequest_carried request powered (by rintro rfl; cases request)⟩
  | none => exact event_command_carries e request powered power reset break_

end Commands
end Sys2Proof.Machine

end

