-- ==== Sys2Proof/Proofs/SymbolsAndFrames.lean ====
section
/-! PROOF. Symbols, and the frames that are sent (R165, R169, R172, R175). -/

namespace Sys2Proof.Machine

/-! ### What the step's end makes of a link (R169, R175) -/

section Kick

variable {resets sent : Prop} {k m : LinkState}

theorem LinkState.readyReply_ready {tag kind : Nat} {a : Answer} (slot : k.slot = .inFlight tag kind (.ready a)) :
    k.readyReply = some (tag, kind, a) := by
  simp [LinkState.readyReply, slot]

theorem LinkState.readyReply_none (slot : ∀ tag kind a, k.slot ≠ .inFlight tag kind (.ready a)) : k.readyReply = none := by
  unfold LinkState.readyReply
  split
  next tag kind a e => exact absurd e (slot tag kind a)
  · rfl

theorem LinkState.emptyQueue_sending {source : TxSource} {f : List Byte} (tx : k.tx = .sending source f) :
    k.emptyQueue.tx = .sending (if source = .notice then .flushed else source) f := by
  cases source <;> simp [LinkState.emptyQueue, tx]

theorem LinkState.emptyQueue_idle (tx : k.tx = .idle) : k.emptyQueue.tx = .idle := by
  simp [LinkState.emptyQueue, tx]

theorem Carried.idle (c : Carried resets sent k m) (free : k.tx = .idle ∨ sent) : m.tx = .idle := by
  by_cases isSent : sent
  · exact c.ended isSent
  have tx : k.tx = .idle := free.resolve_right isSent
  by_cases yes : resets
  · rw [c.flushed yes, LinkState.emptyQueue_idle tx]
  · rw [c.sends yes isSent, tx]

theorem Carried.sending (c : Carried resets sent k m) {source : TxSource} {f : List Byte} (tx : k.tx = .sending source f)
    (notSent : ¬sent) : m.kick = m ∧ (source = .notice → resets → m.tx = .sending .flushed f) ∧
      (source ≠ .notice ∨ ¬resets → m.tx = .sending source f) := by
  by_cases yes : resets
  · have flushed := (c.flushed yes).trans (LinkState.emptyQueue_sending tx)
    exact ⟨m.kick_sending _ _ flushed, fun notice _ => by rw [flushed, if_pos notice],
      fun other => by rw [flushed, if_neg (other.resolve_right fun no => no yes)]⟩
  · have goesOn := (c.sends yes notSent).trans tx
    exact ⟨m.kick_sending _ _ goesOn, fun _ resets => absurd resets yes, fun _ => goesOn⟩

end Kick

/-! ### A link's own events, whole -/

section Symbols

variable {k : LinkState} {b : List Byte}

theorem LinkState.start_hunting (r : k.receiver = .hunting) : k.start = { k with receiver := .receiving [] } := by
  simp [LinkState.start, r]

theorem LinkState.start_inBreak (r : k.receiver = .inBreak) : k.start = k := by
  unfold LinkState.start
  rw [r]

theorem LinkState.start_receiving (r : k.receiver = .receiving b) : k.start = k.abandon .startSymbol := by
  simp [LinkState.start, r]

theorem LinkState.abandon_receiving (r : k.receiver = .receiving b) (c : AbandonCause) :
    k.abandon c =
      { k with
        receiver := if c = .startSymbol then .receiving [] else .hunting
        discards := min 65535 (k.discards + 1) } := by
  cases c <;> simp [LinkState.abandon, r, LinkState.discard, satAdd]

theorem LinkState.abandon_ignored (idle : ∀ b, k.receiver ≠ .receiving b) (c : AbandonCause) : k.abandon c = k := by
  unfold LinkState.abandon
  split
  next b r => exact absurd r (idle b)
  · rfl

theorem LinkState.sent_idle (tx : k.tx = .idle) : k.sent = k := by
  unfold LinkState.sent
  rw [tx]

end Symbols

/-- A powered event on one link leaves it as named, its transmitter apart, and keeps all other parts. -/
theorem onLink_leaves {i : Instr} {l : Link} {f : LinkState → LinkState} {s : State} {parts : List Part} {k : LinkState}
    (e : exec i s = event (fun u => u.onLink l f) s) (powered : s.resetLow = false)
    (written : f (s.link l) = { k with tx := (f (s.link l)).tx })
    (notices : .notices ∈ parts ∨
      (k.queue = (s.link l).queue ∧ k.number = (s.link l).number ∧ k.lost = (s.link l).lost))
    (settings : .settings ∈ parts ∨
      (k.receiver = (s.link l).receiver ∧ k.mask = (s.link l).mask ∧ k.discards = (s.link l).discards ∧
        k.busy = (s.link l).busy)) :
    ∃ t, exec i s = .next t ∧ s.keeps t parts ∧ (∀ m, m ≠ l → (t.link m).alike (s.link m)) ∧ (t.link l).alike k := by
  obtain ⟨others, own⟩ := s.putLink_settle_alike l (f (s.link l))
  have own : ((s.putLink l (f (s.link l))).settle.link l).alike k := by
    generalize (s.putLink l (f (s.link l))).settle.link l = j at own
    rw [written] at own
    exact own
  refine ⟨_, event_onLink e powered, fun p out => ?_, others, own⟩
  cases p with
  | notices =>
    obtain ⟨queue, number, lost⟩ := notices.resolve_left out
    intro m
    by_cases same : m = l
    · subst same
      obtain ⟨-, -, -, -, -, -, queue', number', lost'⟩ := own
      exact ⟨queue'.trans queue, number'.trans number, lost ▸ lost'⟩
    · obtain ⟨-, -, -, -, -, -, rest⟩ := others m same
      exact rest
  | settings =>
    obtain ⟨receiver, mask, discards, busy⟩ := settings.resolve_left out
    intro m
    by_cases same : m = l
    · subst same
      obtain ⟨receiver', -, -, busy', discards', mask', -⟩ := own
      exact ⟨receiver'.trans receiver, mask'.trans mask, discards'.trans discards, busy'.trans busy⟩
    · obtain ⟨receiver', -, -, busy', discards', mask', -⟩ := others m same
      exact ⟨receiver', mask', discards', busy'⟩
  | _ => exact s.putLink_keeps l _ _ (by simp)

/-! ### BREAK (R172) -/

/-- With RESET_N low no command but the resets touches a link. -/
theorem exec_low_links {i : Instr} {s t : State} (e : exec i s = .next t) (low : s.resetLow = true) (power : i ≠ .powerOnReset)
    (reset : i ≠ .resetAsserted) : t.links = s.links := by
  have signalled {drive : Inputs → Inputs} {f : State → State} (e : signal drive f s = .next t) : t.links = s.links := by
    rw [signal_low drive f s low] at e
    cases e
    rfl
  by_cases wire : i = .emergencyStopAsserted ∨ i = .emergencyStopReleased ∨ i = .pressClosed ∨ i = .pressOpen
  · obtain rfl | rfl | rfl | rfl := wire
    · exact signalled ((State.exec_emergencyStop s).symm.trans e)
    · exact signalled ((State.exec_emergencyRelease s).symm.trans e)
    · exact signalled ((State.exec_pressClosed s).symm.trans e)
    · exact signalled ((State.exec_pressOpen s).symm.trans e)
  · simp only [not_or] at wire
    obtain ⟨stop, release, closed, opened⟩ := wire
    rw [exec_low low i power reset stop release closed opened] at e
    cases e
    rfl

/-- In BREAK nothing is transmitted. -/
theorem break_transmits_nothing {i : Instr} {l : Link} {s t : State} (e : exec i s = .next t) (inv : LinkInv (s.link l))
    (broken : (t.link l).receiver = .inBreak) : (t.link l).tx = .idle := by
  by_cases power : i = .powerOnReset
  · subst power
    cases e
    cases l <;> rfl
  by_cases reset : i = .resetAsserted
  · subst reset
    cases e
    rw [State.lowerReset_link]
  by_cases low : s.resetLow = true
  · have same : t.link l = s.link l := congrArg (Links.get · l) (exec_low_links e low power reset)
    rw [same] at broken ⊢
    exact inv.quiet broken
  have powered : s.resetLow = false := by simpa using low
  by_cases break_ : i = .linkReset l
  · subst break_
    rw [event_onLink (f := LinkState.broken l) rfl powered] at e
    cases e
    rw [State.settle_link, State.putLink_link_self, LinkState.kick_inBreak _ rfl]
    rfl
  obtain ⟨m, rfl, carried⟩ := exec_carries e powered power reset break_
  rw [State.settle_link] at broken ⊢
  rw [LinkState.kick_receiver] at broken
  rw [LinkState.kick_inBreak _ broken]
  exact carried.idle (.inl (inv.quiet (carried.breaks broken)))

end Sys2Proof.Machine

section
open Sys2Proof.Machine

/-- Settles O11: what each command carries to a link, with its transmitter started where it is free. -/
theorem symbolsAndSentFrames : Obligations.SymbolsAndSentFrames := by
  refine ⟨fun i l s t e inv broken => break_transmits_nothing e inv broken,
    fun i l s t e powered power reset break_ => ?transmits, fun l s powered => ?symbols⟩
  case transmits =>
    obtain ⟨m, rfl, c⟩ := exec_carries e powered power reset break_
    obtain ⟨stands, sends⟩ := c.modes
    simp only [State.settle_link, LinkState.kick_slot, LinkState.kick_silent, LinkState.kick_receiver, LinkState.kick_busy,
      LinkState.kick_queue]
    refine ⟨⟨stands, sends⟩, (m.link l).lost, c.cleared, c.stands, c.full, fun source f tx notSent => ?_, fun free => ?_⟩
    · obtain ⟨same, flushed, goesOn⟩ := c.sending tx notSent
      rw [same]
      exact ⟨rfl, flushed, goesOn⟩
    · have idle := c.idle free
      refine ⟨fun broken => ?_, fun listening => ⟨fun tag kind a slot behind => ?_, fun b busy first => ?_,
        fun none_ slot => ⟨fun n rest queue => ?_, fun empty => ?_⟩⟩⟩
      · rw [LinkState.kick_inBreak _ broken]
        exact ⟨idle, rfl⟩
      · rw [LinkState.kick_reply _ idle listening tag kind a (LinkState.readyReply_ready slot) behind]
        exact ⟨rfl, rfl⟩
      · rw [LinkState.kick_busyReply _ idle listening b busy (first.imp_right LinkState.readyReply_none)]
        exact ⟨rfl, rfl⟩
      · rw [LinkState.kick_notice _ idle listening none_ (LinkState.readyReply_none slot) n rest queue]
        exact ⟨rfl, rfl⟩
      · rw [LinkState.kick_nothing _ none_ (LinkState.readyReply_none slot) empty]
        exact ⟨idle, rfl⟩
  case symbols =>
    have unchanged {k : LinkState} : k.receiver = k.receiver ∧ k.mask = k.mask ∧ k.discards = k.discards ∧ k.busy = k.busy :=
      ⟨rfl, rfl, rfl, rfl⟩
    have quiet {k : LinkState} : k.queue = k.queue ∧ k.number = k.number ∧ k.lost = k.lost := ⟨rfl, rfl, rfl⟩
    refine ⟨fun hunting => ?_, fun broken => ?_, fun b receiving => ⟨?_, ?_, ?_, ?_⟩, fun cause idle => ?_, fun idle => ?_,
      fun f reply => ?_, fun f busy => ?_, fun f notice => ?_, fun f flushed => ?_⟩
    · exact onLink_leaves rfl powered (by rw [LinkState.start_hunting hunting]) (.inr quiet) (.inl (by simp))
    · exact onLink_leaves rfl powered (by rw [LinkState.start_inBreak broken]) (.inr quiet) (.inr unchanged)
    · exact onLink_leaves rfl powered
        (by simp [LinkState.start_receiving receiving, LinkState.abandon_receiving receiving]) (.inr quiet) (.inl (by simp))
    · exact onLink_leaves rfl powered (by simp [LinkState.abandon_receiving receiving]) (.inr quiet) (.inl (by simp))
    · exact onLink_leaves rfl powered (by simp [LinkState.abandon_receiving receiving]) (.inr quiet) (.inl (by simp))
    · exact onLink_leaves rfl powered (by simp [LinkState.abandon_receiving receiving]) (.inr quiet) (.inl (by simp))
    · exact onLink_leaves rfl powered (by rw [LinkState.abandon_ignored idle]) (.inr quiet) (.inr unchanged)
    · exact onLink_leaves rfl powered (by rw [LinkState.sent_idle idle]) (.inr quiet) (.inr unchanged)
    · exact onLink_leaves rfl powered (by simp [LinkState.sent, reply]) (.inr quiet) (.inr unchanged)
    · exact onLink_leaves rfl powered (by simp [LinkState.sent, busy]) (.inr quiet) (.inl (by simp))
    · exact onLink_leaves rfl powered (by simp [LinkState.sent, notice]) (.inl (by simp)) (.inr unchanged)
    · exact onLink_leaves rfl powered (by simp [LinkState.sent, flushed]) (.inr quiet) (.inr unchanged)

end

end
